-- ==== Sys2Proof/Word.lean ====
section
/-! DEFINITION. The word types of the Ivash instruction set, the names of registers and units, and the small closed
enumerations that instructions and events carry (R1, R4, R12, R15 of spec/). -/

namespace Sys2Proof

/-- A 64-bit word (R35). -/
abbrev Word := BitVec 64
/-- A byte of memory (R4). -/
abbrev Byte := BitVec 8
/-- A scalar register number x0–x31 (R15). -/
abbrev XReg := BitVec 5
/-- A vector register number v0–v63 (R15). -/
abbrev VNum := BitVec 6
/-- A mask register number; 12 to 15 name no register (R15). -/
abbrev MNum := BitVec 4
/-- A vector or mask register's contents, 16,384 bits (R35). -/
abbrev VReg := BitVec 16384
/-- A context id: die [11:10], cluster [9:4], core [3:2], front [1:0] (R49). -/
abbrev CtxId := BitVec 12
/-- A core, by the upper ten bits of its contexts' ids (R49). -/
abbrev CoreId := BitVec 10
/-- A compute die, 0 to 3 (R1). -/
abbrev DieId := BitVec 2
/-- A cluster of a die, 0 to 39 (R1). -/
abbrev CluId := BitVec 6
/-- A sparse table from numbers to values, in ascending key order with no key twice and no default value listed. -/
abbrev SMap (α : Type) := List (Nat × α)

/-- The engines of a cluster that run accepted jobs and work items (R202, R204, R227). -/
inductive Engine where
  | tensor
  | copy
  | sequencer
  deriving DecidableEq, Repr

/-- What the memory port finds when it reads a sector (R339). -/
inductive SectorFinding where
  | clean
  | correctable
  | uncorrectable
  | tagFails
  /-- The check of the MX scale that stands at the address fails (R59). -/
  | scale
  deriving DecidableEq, Repr

/-- What one access through the domain window asks of its target (R179, R361). -/
inductive DomainKind where
  | load
  | store (bytes : List Byte)
  | merge (bits : List (Byte × Byte))
  | add (v : Word)
  | min (v : Word) (signed : Bool)
  | max (v : Word) (signed : Bool)
  | cas (expected new : Word)
  deriving DecidableEq, Repr

/-- An access that arrives at this part through the load-store domain (R361, R362). -/
structure DomainAccess where
  port   : BitVec 3
  source : BitVec 13
  dpid   : BitVec 16
  offset : BitVec 40
  size   : Nat
  kind   : DomainKind
  deriving DecidableEq, Repr

/-- How a domain access ends at its source (R362, R363). -/
inductive DomainResult where
  | data (bytes : List Byte)
  | done
  | vpage
  | access
  | poisoned
  deriving DecidableEq, Repr

/-- The clear part of a command frame, as the port hands it over (R364–R367): `tagOk` is the outcome of the
authentication check, `formed` says that the payload has the length and fields of its row; `status` and `length` are the header's. -/
structure Frame where
  port   : BitVec 3
  chan   : BitVec 32
  seq    : Word
  tagOk  : Bool
  formed : Bool
  status : BitVec 8 := 0
  length : BitVec 16 := 0
  deriving DecidableEq, Repr

/-- A command's payload, of at most 4,032 bytes, has the length and the fields of its row, and its status is zero (R365, R367; log
55). -/
def Frame.sound (f : Frame) : Bool := f.formed && f.status == 0 && Nat.ble f.length.toNat 4032

end Sys2Proof
end

