-- ==== Sys2Proof/Syntax.lean ====
section
/-! DEFINITION. The syntax of Ivash and of the part's events: one constructor for each row of the opcode table.
The rows with an encoding are instructions and come first, those without operands after the others; the rows without an
encoding are the events by which units other than the fronts, and the outside world, move (95_what_each_step_holds.md).
An instruction acts for the context whose turn it is. What an event acts on, and what it brings from outside, is its
Signal. -/

namespace Sys2Proof

/-- One constructor for each row of spec/opcode_table.json. -/
inductive Instr where
  /-- R73: Writes the 64-bit sum of two scalar registers to xd. -/
  | add (d a b : XReg)
  /-- R73: Writes the 64-bit difference of two scalar registers to xd. -/
  | sub (d a b : XReg)
  /-- R73: Writes the bitwise AND of two scalar registers to xd. -/
  | and (d a b : XReg)
  /-- R73: Writes the bitwise OR of two scalar registers to xd. -/
  | or (d a b : XReg)
  /-- R73: Writes the bitwise XOR of two scalar registers to xd. -/
  | xor (d a b : XReg)
  /-- R73: Shifts xa left by b[5:0] into xd. -/
  | sll (d a b : XReg)
  /-- R73: Shifts xa right logically by b[5:0] into xd. -/
  | srl (d a b : XReg)
  /-- R73: Shifts xa right arithmetically by b[5:0] into xd. -/
  | sra (d a b : XReg)
  /-- R73: Writes 1 to xd when a is less than b as signed values, else 0. -/
  | slt (d a b : XReg)
  /-- R73: Writes 1 to xd when a is less than b as unsigned values, else 0. -/
  | sltu (d a b : XReg)
  /-- R73: Writes the signed minimum of two scalar registers to xd. -/
  | min (d a b : XReg)
  /-- R73: Writes the signed maximum of two scalar registers to xd. -/
  | max (d a b : XReg)
  /-- R73: Writes the unsigned minimum of two scalar registers to xd. -/
  | minn (d a b : XReg)
  /-- R73: Writes the unsigned maximum of two scalar registers to xd. -/
  | maxn (d a b : XReg)
  /-- R73: Writes the low 64 bits of the product to xd. -/
  | mul (d a b : XReg)
  /-- R73: Writes the high 64 bits of the signed 128-bit product to xd. -/
  | mulh (d a b : XReg)
  /-- R73: Writes the high 64 bits of the unsigned 128-bit product to xd. -/
  | mulhn (d a b : XReg)
  /-- R74: Writes the signed quotient truncated toward zero, never faulting on zero or overflow. -/
  | div (d a b : XReg)
  /-- R74: Writes the unsigned quotient, all ones on division by zero. -/
  | divn (d a b : XReg)
  /-- R74: Writes the signed remainder with the sign of a, a on division by zero. -/
  | rem (d a b : XReg)
  /-- R74: Writes the unsigned remainder, a on division by zero. -/
  | remn (d a b : XReg)
  /-- R73: Writes the count of leading zero bits of xa to xd. -/
  | clz (d a : XReg)
  /-- R73: Writes the count of trailing zero bits of xa to xd. -/
  | ctz (d a : XReg)
  /-- R73: Writes the count of one bits of xa to xd. -/
  | popc (d a : XReg)
  /-- R75: Writes xa plus the sign-extended 15-bit immediate to xd. -/
  | addi (d a : XReg) (imm : BitVec 15)
  /-- R75: Writes xa AND the sign-extended immediate to xd. -/
  | andi (d a : XReg) (imm : BitVec 15)
  /-- R75: Writes xa OR the sign-extended immediate to xd. -/
  | ori (d a : XReg) (imm : BitVec 15)
  /-- R75: Writes xa XOR the sign-extended immediate to xd. -/
  | xori (d a : XReg) (imm : BitVec 15)
  /-- R75: Writes 1 when xa is less than the immediate as signed values. -/
  | slti (d a : XReg) (imm : BitVec 15)
  /-- R75: Writes 1 when xa is less than the sign-extended immediate as unsigned values. -/
  | sltin (d a : XReg) (imm : BitVec 15)
  /-- R75: Shifts xa left by an immediate amount into xd. -/
  | slli (d a : XReg) (sh : BitVec 6)
  /-- R75: Shifts xa right logically by an immediate amount into xd. -/
  | srli (d a : XReg) (sh : BitVec 6)
  /-- R75: Shifts xa right arithmetically by an immediate amount into xd. -/
  | srai (d a : XReg) (sh : BitVec 6)
  /-- R76: Sets xd to the sign-extended 20-bit immediate times 2^15. -/
  | lih (d : XReg) (imm : BitVec 20)
  /-- R76: Sets xd to pc plus the sign-extended 20-bit immediate times 2^15. -/
  | pcrel (d : XReg) (imm : BitVec 20)
  /-- R176: Loads 1 to 8 bytes from xa plus offset into xt, optionally sign-extended, plain or acquire at a scope. -/
  | ld (t a : XReg) (off : BitVec 10) (ord sz : BitVec 2) (sx : Bool)
  /-- R176: Stores the low bytes of xt at xa plus offset, plain or release at a scope. -/
  | st (t a : XReg) (off : BitVec 10) (ord sz : BitVec 2)
  /-- R178: Atomically adds xb to memory at xa and returns the old value in xd. -/
  | amoAdd (d a b : XReg) (ord : BitVec 2) (scope : BitVec 3) (w : Bool)
  /-- R178: Atomically ANDs xb into memory at xa and returns the old value. -/
  | amoAnd (d a b : XReg) (ord : BitVec 2) (scope : BitVec 3) (w : Bool)
  /-- R178: Atomically ORs xb into memory at xa and returns the old value. -/
  | amoOr (d a b : XReg) (ord : BitVec 2) (scope : BitVec 3) (w : Bool)
  /-- R178: Atomically XORs xb into memory at xa and returns the old value. -/
  | amoXor (d a b : XReg) (ord : BitVec 2) (scope : BitVec 3) (w : Bool)
  /-- R178: Atomically stores the signed minimum of memory and xb and returns the old value. -/
  | amoMin (d a b : XReg) (ord : BitVec 2) (scope : BitVec 3) (w : Bool)
  /-- R178: Atomically stores the signed maximum of memory and xb and returns the old value. -/
  | amoMax (d a b : XReg) (ord : BitVec 2) (scope : BitVec 3) (w : Bool)
  /-- R178: Atomically stores the unsigned minimum of memory and xb and returns the old value. -/
  | amoMinn (d a b : XReg) (ord : BitVec 2) (scope : BitVec 3) (w : Bool)
  /-- R178: Atomically stores the unsigned maximum of memory and xb and returns the old value. -/
  | amoMaxn (d a b : XReg) (ord : BitVec 2) (scope : BitVec 3) (w : Bool)
  /-- R178: Atomically swaps xb with memory at xa and returns the old value. -/
  | amoSwap (d a b : XReg) (ord : BitVec 2) (scope : BitVec 3) (w : Bool)
  /-- R178: Atomically replaces memory with xb when it equals xd and returns the old value in xd. -/
  | cas (d a b : XReg) (ord : BitVec 2) (scope : BitVec 3) (w : Bool)
  /-- R180: Orders earlier accesses of the context before later ones at a scope as acquire, release or both, committing the lap
  store buffer. -/
  | fence (ord : BitVec 2) (scope : BitVec 3)
  /-- R286: A full fence that falls in one total order with all .sc fences of its scope instance. -/
  | fenceSc (scope : BitVec 3)
  /-- R181: Orders accesses of the named streams of the context before later accesses of the named streams. -/
  | sbar (names : BitVec 20)
  /-- R78: Branches by a word offset when xa equals xb. -/
  | brEq (a b : XReg) (off : BitVec 12)
  /-- R78: Branches by a word offset when xa differs from xb. -/
  | brNe (a b : XReg) (off : BitVec 12)
  /-- R78: Branches when xa is less than xb as signed values. -/
  | brLt (a b : XReg) (off : BitVec 12)
  /-- R78: Branches when xa is at least xb as signed values. -/
  | brGe (a b : XReg) (off : BitVec 12)
  /-- R78: Branches when xa is less than xb as unsigned values. -/
  | brLtn (a b : XReg) (off : BitVec 12)
  /-- R78: Branches when xa is at least xb as unsigned values. -/
  | brGen (a b : XReg) (off : BitVec 12)
  /-- R79: Writes pc plus 4 to xd and jumps by a word offset. -/
  | jal (d : XReg) (off : BitVec 20)
  /-- R80: Writes pc plus 4 to xd and jumps to xa plus an immediate, raising ALIGN on a misaligned target. -/
  | jalr (d a : XReg) (imm : BitVec 15)
  /-- R82: Opens a hardware lap loop over the count in xa, closing any active loop, and starts lap 0 with its checkpoint. -/
  | loop (a : XReg) (ind : BitVec 8) (cvb : BitVec 6) (cvg : BitVec 2)
  /-- R88: Ends the lap, handing each element to the leg named by its successor in a vector, after all earlier work retires. -/
  | nextPerElement (a : VNum)
  /-- R88: Ends the lap, handing every element to the one leg named in xs, or retiring them when it is 0. -/
  | nextUniform (s : XReg)
  /-- R91: Optionally writes vtype and sets vl to the lesser of the request, VLMAX and the lap limit, returning it in xd. -/
  | vsetvl (d a b : XReg)
  /-- R92: Writes a 17-bit value into vtype, discarding invalid values, clamps vl and returns the old vtype. -/
  | vcfg (d : XReg) (value : BitVec 17)
  /-- R93: Writes one element-type tag of the tag file. -/
  | vtag (d : VNum) (code : BitVec 5)
  /-- R99: Element-wise a plus b, rounded or reduced into vd. -/
  | vadd (d a b : VNum) (rm : BitVec 3) (mk : Bool)
  /-- R99: Element-wise a minus b. -/
  | vaddSub (d a b : VNum) (rm : BitVec 3) (mk : Bool)
  /-- R99: Element-wise b minus a. -/
  | vaddRsub (d a b : VNum) (rm : BitVec 3) (mk : Bool)
  /-- R99: Element-wise saturating a plus b. -/
  | vaddAdds (d a b : VNum) (rm : BitVec 3) (mk : Bool)
  /-- R99: Element-wise saturating a minus b. -/
  | vaddSubs (d a b : VNum) (rm : BitVec 3) (mk : Bool)
  /-- R99: Element-wise absolute difference of a and b. -/
  | vaddAbsd (d a b : VNum) (rm : BitVec 3) (mk : Bool)
  /-- R100: Element-wise product a times b. -/
  | vmul (d a b : VNum) (rm : BitVec 3) (mk : Bool)
  /-- R100: Element-wise high part of the integer product, sources read by their tags. -/
  | vmulMulh (d a b : VNum) (rm : BitVec 3) (mk : Bool)
  /-- R100: Element-wise high part of the unsigned integer product. -/
  | vmulMulhn (d a b : VNum) (rm : BitVec 3) (mk : Bool)
  /-- R100: Element-wise quotient, integer or float, never faulting. -/
  | vmulDiv (d a b : VNum) (rm : BitVec 3) (mk : Bool)
  /-- R100: Element-wise integer remainder with the sign of a. -/
  | vmulRem (d a b : VNum) (rm : BitVec 3) (mk : Bool)
  /-- R101: Element-wise a times b plus the accumulator vd, rounded once. -/
  | vfma (d a b : VNum) (rm : BitVec 3) (mk : Bool)
  /-- R101: Element-wise a times b minus vd, rounded once. -/
  | vfmaFms (d a b : VNum) (rm : BitVec 3) (mk : Bool)
  /-- R101: Element-wise negated product minus vd, rounded once. -/
  | vfmaFnma (d a b : VNum) (rm : BitVec 3) (mk : Bool)
  /-- R101: Element-wise negated product plus vd, rounded once. -/
  | vfmaFnms (d a b : VNum) (rm : BitVec 3) (mk : Bool)
  /-- R102: Element-wise minimum, NaN propagating. -/
  | vminmaxMin (d a b : VNum) (rm : BitVec 3) (mk : Bool)
  /-- R102: Element-wise maximum, NaN propagating. -/
  | vminmaxMax (d a b : VNum) (rm : BitVec 3) (mk : Bool)
  /-- R102: Element-wise minimum returning the other source for one NaN. -/
  | vminmaxMinnum (d a b : VNum) (rm : BitVec 3) (mk : Bool)
  /-- R102: Element-wise maximum returning the other source for one NaN. -/
  | vminmaxMaxnum (d a b : VNum) (rm : BitVec 3) (mk : Bool)
  /-- R103: Element-wise bitwise AND of equal-width patterns. -/
  | vlogicAnd (d a b : VNum) (rm : BitVec 3) (mk : Bool)
  /-- R103: Element-wise bitwise OR. -/
  | vlogicOr (d a b : VNum) (rm : BitVec 3) (mk : Bool)
  /-- R103: Element-wise bitwise XOR. -/
  | vlogicXor (d a b : VNum) (rm : BitVec 3) (mk : Bool)
  /-- R103: Element-wise a AND NOT b. -/
  | vlogicAndn (d a b : VNum) (rm : BitVec 3) (mk : Bool)
  /-- R103: Element-wise left shift by b mod width. -/
  | vlogicSll (d a b : VNum) (rm : BitVec 3) (mk : Bool)
  /-- R103: Element-wise logical right shift. -/
  | vlogicSrl (d a b : VNum) (rm : BitVec 3) (mk : Bool)
  /-- R103: Element-wise arithmetic right shift. -/
  | vlogicSra (d a b : VNum) (rm : BitVec 3) (mk : Bool)
  /-- R104: Writes a mask bit per element for a equal to b. -/
  | vcmpEq (d : MNum) (a b : VNum) (rm : BitVec 3) (mk : Bool)
  /-- R104: Writes a mask bit per element for a not equal to b. -/
  | vcmpNe (d : MNum) (a b : VNum) (rm : BitVec 3) (mk : Bool)
  /-- R104: Writes a mask bit per element for a less than b. -/
  | vcmpLt (d : MNum) (a b : VNum) (rm : BitVec 3) (mk : Bool)
  /-- R104: Writes a mask bit per element for a at most b. -/
  | vcmpLe (d : MNum) (a b : VNum) (rm : BitVec 3) (mk : Bool)
  /-- R104: Writes a mask bit per element for a greater than b. -/
  | vcmpGt (d : MNum) (a b : VNum) (rm : BitVec 3) (mk : Bool)
  /-- R104: Writes a mask bit per element for a at least b. -/
  | vcmpGe (d : MNum) (a b : VNum) (rm : BitVec 3) (mk : Bool)
  /-- R104: Writes a mask bit per element when a or b is NaN. -/
  | vcmpUnord (d : MNum) (a b : VNum) (rm : BitVec 3) (mk : Bool)
  /-- R105: Selects per element between va and vb by m0. -/
  | vsel (d a b : VNum) (rm : BitVec 3)
  /-- R106: Converts va into vd element by element under the plain rules. -/
  | vcvt (d a : VNum) (rm : BitVec 3) (mk : Bool)
  /-- R106: Converts va into vd, saturating to the destination's finite range. -/
  | vcvtSat (d a : VNum) (rm : BitVec 3) (mk : Bool)
  /-- R107: Quantises or dequantises blocks of 32 elements under k8 scales in vb. -/
  | vcvtBlk (d a b : VNum) (rm : BitVec 3) (mk : Bool)
  /-- R108: Computes one k8 scale per block of 32 elements for a named element format. -/
  | vcvtScale (d a : VNum) (fmt : BitVec 6) (rm : BitVec 3) (mk : Bool)
  /-- R109: Element-wise (a + b) mod q on m64 elements. -/
  | vmodAddm (d a b : VNum) (rm : BitVec 3) (mk : Bool)
  /-- R109: Element-wise (a - b) mod q. -/
  | vmodSubm (d a b : VNum) (rm : BitVec 3) (mk : Bool)
  /-- R109: Element-wise (a × b) mod q. -/
  | vmodMulm (d a b : VNum) (rm : BitVec 3) (mk : Bool)
  /-- R109: Element-wise (vd + a × b) mod q. -/
  | vmodMacm (d a b : VNum) (rm : BitVec 3) (mk : Bool)
  /-- R110: Adds a scalar register or immediate to each element. -/
  | vxAdd (d a : VNum) (s : BitVec 5) (sel : Bool) (rm : BitVec 3) (mk : Bool)
  /-- R110: Subtracts a scalar from each element. -/
  | vxSub (d a : VNum) (s : BitVec 5) (sel : Bool) (rm : BitVec 3) (mk : Bool)
  /-- R110: Multiplies each element by a scalar. -/
  | vxMul (d a : VNum) (s : BitVec 5) (sel : Bool) (rm : BitVec 3) (mk : Bool)
  /-- R110: Takes the minimum of each element and a scalar. -/
  | vxMin (d a : VNum) (s : BitVec 5) (sel : Bool) (rm : BitVec 3) (mk : Bool)
  /-- R110: Takes the maximum of each element and a scalar. -/
  | vxMax (d a : VNum) (s : BitVec 5) (sel : Bool) (rm : BitVec 3) (mk : Bool)
  /-- R110: ANDs each element with a scalar pattern. -/
  | vxAnd (d a : VNum) (s : BitVec 5) (sel : Bool) (rm : BitVec 3) (mk : Bool)
  /-- R110: ORs each element with a scalar pattern. -/
  | vxOr (d a : VNum) (s : BitVec 5) (sel : Bool) (rm : BitVec 3) (mk : Bool)
  /-- R110: Computes a times a scalar plus vd per element, rounded once. -/
  | vxFma (d a : VNum) (s : BitVec 5) (sel : Bool) (rm : BitVec 3) (mk : Bool)
  /-- R111: Correctly rounded 2^a per element. -/
  | vsfuExp2 (d a : VNum) (rm : BitVec 3) (mk : Bool)
  /-- R111: Correctly rounded log2 a per element. -/
  | vsfuLog2 (d a : VNum) (rm : BitVec 3) (mk : Bool)
  /-- R111: Correctly rounded reciprocal per element. -/
  | vsfuRcp (d a : VNum) (rm : BitVec 3) (mk : Bool)
  /-- R111: Correctly rounded reciprocal square root per element. -/
  | vsfuRsq (d a : VNum) (rm : BitVec 3) (mk : Bool)
  /-- R111: Correctly rounded square root per element. -/
  | vsfuSqrt (d a : VNum) (rm : BitVec 3) (mk : Bool)
  /-- R113: One Newton refinement of a reciprocal seed in vb. -/
  | vsfuRcpstep (d a b : VNum) (rm : BitVec 3) (mk : Bool)
  /-- R113: One Newton refinement of a reciprocal square root seed in vb. -/
  | vsfuRsqstep (d a b : VNum) (rm : BitVec 3) (mk : Bool)
  /-- R114: Folds a strip into the running softmax maximum and sum held in vb and writes exp2 values. -/
  | vsmaxUpd (d a b : VNum) (rm : BitVec 3) (mk : Bool)
  /-- R115: Writes normalised softmax values from the state in vb. -/
  | vsmaxNorm (d a b : VNum) (rm : BitVec 3) (mk : Bool)
  /-- R119: Reduces active elements by sum over the pairwise tree into element 0 of vd. -/
  | vredSum (d a : VNum) (rm : BitVec 3) (mk : Bool)
  /-- R119: Reduces active elements to their minimum. -/
  | vredMin (d a : VNum) (rm : BitVec 3) (mk : Bool)
  /-- R119: Reduces active elements to their maximum. -/
  | vredMax (d a : VNum) (rm : BitVec 3) (mk : Bool)
  /-- R119: Reduces integer elements by AND. -/
  | vredAnd (d a : VNum) (rm : BitVec 3) (mk : Bool)
  /-- R119: Reduces integer elements by OR. -/
  | vredOr (d a : VNum) (rm : BitVec 3) (mk : Bool)
  /-- R119: Reduces integer elements by XOR. -/
  | vredXor (d a : VNum) (rm : BitVec 3) (mk : Bool)
  /-- R119: Reduces the products of va and vb by sum over the tree. -/
  | vredWsum (d a b : VNum) (rm : BitVec 3) (mk : Bool)
  /-- R120: Moves elements up by k positions. -/
  | vslideUp (d a : VNum) (s : BitVec 5) (sel : Bool) (rm : BitVec 3) (mk : Bool)
  /-- R120: Moves elements down by k positions, filling with 0. -/
  | vslideDown (d a : VNum) (s : BitVec 5) (sel : Bool) (rm : BitVec 3) (mk : Bool)
  /-- R120: Rotates elements by k positions modulo vl. -/
  | vslideRot (d a : VNum) (s : BitVec 5) (sel : Bool) (rm : BitVec 3) (mk : Bool)
  /-- R121: Gathers elements of va by the indices in vb, 0 for out-of-range indices. -/
  | vperm (d a b : VNum) (rm : BitVec 3) (mk : Bool)
  /-- R123: Packs the elements selected by m0 into the low positions of vd. -/
  | vcompCompress (d a : VNum) (rm : BitVec 3)
  /-- R123: Spreads packed elements to the positions selected by m0. -/
  | vcompExpand (d a : VNum) (rm : BitVec 3)
  /-- R123: Writes per element the count of set mask bits below it. -/
  | vcompIota (d : VNum) (a : MNum) (rm : BitVec 3) (mk : Bool)
  /-- R123: Packs the indices of set mask bits into vd. -/
  | vcompCidx (d : VNum) (a : MNum) (rm : BitVec 3)
  /-- R125: Runs one Hadamard butterfly stage at distance 2^d. -/
  | vbflyH (d a : VNum) (dist : BitVec 4)
  /-- R126: Runs a Hadamard stage exactly and holds it for a fused run ending in the next continuing word. -/
  | vbflyHF (d a : VNum) (dist : BitVec 4)
  /-- R125: Runs one Cooley-Tukey modular butterfly stage with twiddles in vb. -/
  | vbflyCt (d a b : VNum) (dist : BitVec 4)
  /-- R125: Runs one Gentleman-Sande modular butterfly stage with twiddles in vb. -/
  | vbflyGs (d a b : VNum) (dist : BitVec 4)
  /-- R127: Writes the balanced base-2^β digit of a given level of each residue. -/
  | vdecomp (d a : VNum) (s : BitVec 5) (sel : Bool) (rm : BitVec 3) (mk : Bool) (lvl : BitVec 3)
  /-- R128: Copies the bit pattern of va into vd. -/
  | vmv (d a : VNum) (rm : BitVec 3) (mk : Bool)
  /-- R128: Broadcasts a scalar register or immediate into every written element. -/
  | vmvBcast (d : VNum) (s : BitVec 5) (sel : Bool) (rm : BitVec 3) (mk : Bool)
  /-- R128: Moves element 0 of va into a scalar register. -/
  | vmvTox (s : XReg) (a : VNum) (rm : BitVec 3)
  /-- R128: Writes a scalar into element 0 of vd. -/
  | vmvFromx (d : VNum) (s : BitVec 5) (sel : Bool) (rm : BitVec 3) (mk : Bool)
  /-- R129: Writes the selected field of each position's work identifier. -/
  | vmvWid (d : VNum) (rm : BitVec 3) (mk : Bool)
  /-- R130: Counts each active element of va into a context histogram bank. -/
  | ehistAcc (a : VNum) (bank : BitVec 2) (rm : BitVec 3) (mk : Bool)
  /-- R130: Reads the 68 counters of a context or cluster bank into vd. -/
  | ehistRead (d : VNum) (bank : BitVec 5) (rm : BitVec 3)
  /-- R130: Clears every counter of a histogram bank. -/
  | ehistClr (bank : BitVec 5) (rm : BitVec 3)
  /-- R132: Writes ma AND mb into md. -/
  | mlogAnd (d a b : MNum)
  /-- R132: Writes ma OR mb into md. -/
  | mlogOr (d a b : MNum)
  /-- R132: Writes ma XOR mb into md. -/
  | mlogXor (d a b : MNum)
  /-- R132: Writes ma AND NOT mb into md. -/
  | mlogAndn (d a b : MNum)
  /-- R132: Writes ma OR NOT mb into md. -/
  | mlogOrn (d a b : MNum)
  /-- R132: Writes NOT (ma XOR mb) into md. -/
  | mlogXnor (d a b : MNum)
  /-- R132: Writes NOT ma into md. -/
  | mlogNot (d a : MNum)
  /-- R133: Writes the number of set bits of ma in [es, vl) to xs. -/
  | mcnt (s : XReg) (a : MNum)
  /-- R133: Writes the index of the first set bit of ma in [es, vl), or all ones. -/
  | mcntFirst (s : XReg) (a : MNum)
  /-- R134: Sets vl and xs to the number of set bits of ma in [es, vl). -/
  | msetvl (s : XReg) (a : MNum)
  /-- R132: Copies mask ma into md. -/
  | mmv (d a : MNum)
  /-- R132: Sets bits es to vl - 1 of md. -/
  | mmvSet (d : MNum)
  /-- R132: Clears bits es to vl - 1 of md. -/
  | mmvClr (d : MNum)
  /-- R184: Loads unit-stride elements into vt, faulting only at the first element and trimming at later ones. -/
  | vld (t : VNum) (b : XReg) (mk bw bp : Bool)
  /-- R184: Loads strided elements into vt. -/
  | vldS (t : VNum) (b s : XReg) (mk bw bp : Bool)
  /-- R184: Gathers elements by an index vector into vt. -/
  | vldX (t : VNum) (b : XReg) (ix : VNum) (mk bw bp : Bool)
  /-- R184: Stores unit-stride active elements of vt, trapping at a faulting element. -/
  | vst (t : VNum) (b : XReg) (mk bw bp : Bool)
  /-- R184: Stores strided active elements of vt. -/
  | vstS (t : VNum) (b s : XReg) (mk bw bp : Bool)
  /-- R184: Scatters active elements of vt by an index vector. -/
  | vstX (t : VNum) (b : XReg) (ix : VNum) (mk bw bp : Bool)
  /-- R185: Atomically adds each active element at its indexed address, returning old values. -/
  | vamoAdd (t : VNum) (b : XReg) (ix : VNum) (mk bw bp : Bool)
  /-- R185: Atomically ANDs each element at its indexed address. -/
  | vamoAnd (t : VNum) (b : XReg) (ix : VNum) (mk bw bp : Bool)
  /-- R185: Atomically ORs each element at its indexed address. -/
  | vamoOr (t : VNum) (b : XReg) (ix : VNum) (mk bw bp : Bool)
  /-- R185: Atomically XORs each element at its indexed address. -/
  | vamoXor (t : VNum) (b : XReg) (ix : VNum) (mk bw bp : Bool)
  /-- R185: Atomically stores the minimum of memory and each element. -/
  | vamoMin (t : VNum) (b : XReg) (ix : VNum) (mk bw bp : Bool)
  /-- R185: Atomically stores the maximum of memory and each element. -/
  | vamoMax (t : VNum) (b : XReg) (ix : VNum) (mk bw bp : Bool)
  /-- R185: Atomically swaps each element with memory at its indexed address. -/
  | vamoSwap (t : VNum) (b : XReg) (ix : VNum) (mk bw bp : Bool)
  /-- R186: Loads a mask register from packed bits in memory. -/
  | mld (t : MNum) (b : XReg) (mk bw bp : Bool)
  /-- R186: Stores active mask bits by atomic byte merges. -/
  | mst (t : MNum) (b : XReg) (mk bw bp : Bool)
  /-- R187: Reads a 32-byte descriptor and binds v48-v63 register vt to a load or store stream. -/
  | sbind (k : BitVec 4) (b : XReg)
  /-- R190: Drains or discards a bound stream's entries and releases the binding. -/
  | sunbind (k : BitVec 4)
  /-- R191: Pops one baton from the named queue, blocking while it is empty. -/
  | btnWait (q : BitVec 2)
  /-- R191: Posts one baton to the named queue at retirement, waiting while it is full. -/
  | btnPost (q : BitVec 2)
  /-- R191: Pops a baton from one queue and posts to its partner. -/
  | btnWaitPost (q : BitVec 2)
  /-- R213: Accepts a job card for a tile multiply-accumulate on the tensor engine and retires. -/
  | tmma (c : XReg) (mK : BitVec 4) (bw bp : Bool)
  /-- R216: Accepts a job card for a tile conversion on the tensor engine. -/
  | tcvt (c : XReg) (bw bp : Bool)
  /-- R217: Accepts a job card for a row copy on the copy engine. -/
  | tcopy (c : XReg) (bw bp : Bool)
  /-- R218: Reads the status word of a job card without waiting. -/
  | jstat (d a : XReg)
  /-- R228: Loads and checks a 32-byte ciphertext descriptor into a c register. -/
  | cld (c : BitVec 4) (a : XReg)
  /-- R228: Stores a ciphertext descriptor to memory. -/
  | cst (c : BitVec 4) (a : XReg)
  /-- R231: Adds two ciphertext batches, checking noise and handing a work item to the sequencer. -/
  | cadd (d a b : BitVec 4)
  /-- R231: Subtracts two ciphertext batches. -/
  | csub (d a b : BitVec 4)
  /-- R231: Negates a ciphertext batch. -/
  | cneg (d a : BitVec 4)
  /-- R231: Multiplies a ciphertext batch by a small signed integer. -/
  | cmuli (d a : BitVec 4) (imm : BitVec 8)
  /-- R231: Adds a plaintext constant times Δ to the body. -/
  | caddp (d a : BitVec 4) (imm : BitVec 8)
  /-- R231: Copies a ciphertext batch. -/
  | cmov (d a : BitVec 4)
  /-- R231: Adds a weighted ciphertext batch into cd. -/
  | cmac (d a : BitVec 4) (imm : BitVec 8)
  /-- R234: Writes a refreshed descriptor and appends a refresh entry to the context's current key pass. -/
  | crfn (d a : BitVec 4) (t : BitVec 3)
  /-- R232: Loads and checks a 72-byte lookup table image into a t register. -/
  | tld (t : BitVec 3) (a : XReg)
  /-- R240: Takes a free pass record, makes the cluster its first member and returns the pass id. -/
  | kpassOpen (d a : XReg)
  /-- R240: Joins an open pass of the launch, making it the current pass. -/
  | kpassJoin (d a b : XReg)
  /-- R241: Declares the context ready; the pass starts when every joined context has run. -/
  | kpassRun (d a b : XReg)
  /-- R242: Stops a pass, zeroing unfinished batches and setting members to state 4. -/
  | kpassAbort (d a : XReg)
  /-- R242: Reads the live words of a pass header. -/
  | kpassStatus (d a : XReg)
  /-- R229: Reads one field of a ciphertext descriptor into xd. -/
  | cinfo (d : XReg) (c : BitVec 4) (sel : BitVec 3)
  /-- R248: Counts arrivals on a hurdle atomically, turning the phase over at the expected count. -/
  | hurdleArrive (d a b : XReg) (scope : BitVec 3)
  /-- R249: Waits until the hurdle's phase differs from p or the bound passes. -/
  | hurdleWait (d a b : XReg) (scope : BitVec 3)
  /-- R249: Arrives and then waits for the phase to advance. -/
  | hurdleAw (d a b : XReg) (scope : BitVec 3)
  /-- R250: Writes a hurdle's expected count and phase and rechecks parked waiters. -/
  | hurdleInit (d a b : XReg) (scope : BitVec 3)
  /-- R255: Pushes a value onto a ring atomically and returns a predicate. -/
  | qpush (d a b : XReg) (scope : BitVec 3)
  /-- R255: Pops a value from a ring atomically and returns a predicate. -/
  | qpop (d a b : XReg) (scope : BitVec 3)
  /-- R255: Reads the head value of a ring without consuming it. -/
  | qpeek (d a b : XReg) (scope : BitVec 3)
  /-- R306: Raises a watermark's mark atomically as a release. -/
  | wmarkPub (d a b : XReg) (scope : BitVec 3)
  /-- R306: Binds the context to a watermark's region so loads beyond the mark stall. -/
  | wmarkBind (d a : XReg) (scope : BitVec 3)
  /-- R306: Drops the context's binding to a watermark. -/
  | wmarkUnbind (a : XReg)
  /-- R301: Publishes a new version of an output record into a slot as a release, stopping older REFIRE rounds. -/
  | pubv (d a b : XReg)
  /-- R302: Ends refinement of an output record and returns its version. -/
  | pubf (d a : XReg)
  /-- R302: Sets the stop request of a record. -/
  | stopr (d a : XReg)
  /-- R302: Reads a record's stop request bit. -/
  | refchk (d a : XReg)
  /-- R302: Reads the slot address and state word of the bound or latest version. -/
  | refq (d a b : XReg)
  /-- R313: Allocates a first-fit range of free cells of a covered arena and returns a handle. -/
  | viewNew (hd : BitVec 4) (s t : XReg)
  /-- R313: Irreversibly shrinks a view after earlier accesses perform. -/
  | viewNarrow (ha : BitVec 4) (s t : XReg)
  /-- R313: Divides a view at an address into two views. -/
  | viewSplit (hd ha : BitVec 4) (s : XReg)
  /-- R313: Makes a second view of the same range. -/
  | viewDup (hd ha : BitVec 4)
  /-- R313: Ends a view and clears its handle register. -/
  | viewDrop (ha : BitVec 4)
  /-- R313: Reads a view's lo and hi addresses into two scalar registers. -/
  | viewQuery (ha : BitVec 4) (s t : XReg)
  /-- R313: Copies a handle id into a scalar register. -/
  | viewId (ha : BitVec 4) (s : XReg)
  /-- R313: Loads a handle register from an id in a scalar register after the foreign check. -/
  | viewTake (ha : BitVec 4) (s : XReg)
  /-- R266: Reads and checks a launch header and leg table and submits the launch to admission. -/
  | launch (d a : XReg)
  /-- R266: Submits a launch whose element count is read indirectly. -/
  | launchInd (d a : XReg)
  /-- R155: Reads a CSR into xd, after earlier vector work for vl and fflags. -/
  | csrr (d : XReg) (csr : BitVec 12)
  /-- R155: Writes xa to a CSR and returns the old value, discarding zero fields. -/
  | csrw (d a : XReg) (csr : BitVec 12)
  /-- R155: Sets the bits of xa in a CSR and returns the old value. -/
  | csrs (d a : XReg) (csr : BitVec 12)
  /-- R155: Clears the bits of xa in a CSR and returns the old value. -/
  | csrc (d a : XReg) (csr : BitVec 12)
  /-- R156: Raises TRAPI with the immediate code in tval. -/
  | trap (code : BitVec 20)
  /-- R158: Raises BKPT or halts for the debugger. -/
  | bkpt (code : BitVec 20)
  /-- R160: Appends a software record to the cluster trace buffer when capture is enabled. -/
  | trace (a : XReg) (code : BitVec 15)
  /-- R157: Raises TRAPI with call set at level H or above. -/
  | wcall (code : BitVec 20)
  /-- R327: Invalidates every translation of an address space through a shootdown. -/
  | tlbiAs (a : XReg)
  /-- R327: Invalidates the translation of one address in an address space. -/
  | tlbiVa (a b : XReg)
  /-- R82: Closes the lap, advancing induction registers and laprem, and starts the next lap or ends the loop. -/
  | lapend
  /-- R82: Closes the current lap and ends the loop. -/
  | lapexit
  /-- R90: Asks the leg scheduler to replace the context at the next pointer pair or lap boundary. -/
  | yield
  /-- R147: Reissues dump entries in decoded form and resumes at tpc at the saved level. -/
  | eret
  /-- R161: Parks the context until an addressed event or 65,536 cycles. -/
  | wfe
  /-- R327: Invalidates every translation permitted to the issuer. -/
  | tlbiAll
  /-- R90: Where a yield takes effect and a lap waits with no free context, the context is saved and given to the ready lap. -/
  | yieldSwitch
  /-- R341: The 2 ms scrub of a reassigned cluster completes and the cluster becomes available. -/
  | clusterScrubDone
  /-- R329: A translation agent acknowledges a shootdown once its in-flight accesses have performed. -/
  | shootdownAck
  /-- R135: A context stops at the pointer pair, dumping queued vector work and entering the handler or debugger. -/
  | stopAtPointerPair
  /-- R139: A pending job, store-stream or DEADLOCK fault is taken at the context's next pointer pair. -/
  | pendingFaultTake
  /-- R164: Each cycle the vector unit starts one ready instruction chosen by world, deadline, chaining and round-robin. -/
  | vectorStart
  /-- R95: A vector instruction finishes its elements, applies its tail, ORs flags and resets es. -/
  | vectorRetire
  /-- R166: The vector unit drains one world and switches to the other after 64 waiting cycles or when idle. -/
  | worldSwitch
  /-- R152: The witness unit recomputes one candidate element and compares it before retirement. -/
  | witnessCheck
  /-- R167: The access engine fills one load-stream entry in stream order. -/
  | streamFill
  /-- R167: The access engine performs one store-stream entry in stream order. -/
  | streamDrain
  /-- R169: After 1,024 cycles of a blocked wait the core sends a probe along the chain of waits. -/
  | deadlockProbe
  /-- R169: A probe returns to its origin, granting reserve entries or raising DEADLOCK on the second return. -/
  | probeReturn
  /-- R200: An engine starts its oldest accepted job whose footprint edges are met. -/
  | jobStart
  /-- R211: A job ends in state 4, 5 or 6, releasing waiting accesses and posting its b3 baton. -/
  | jobEnd
  /-- R203: The leg scheduler issues a leg's staged-input card before dispatching its lap. -/
  | stagedInputIssue
  /-- R236: The refresh sequencer completes one step of a refresh for one ciphertext. -/
  | refreshStep
  /-- R241: The key streamer delivers the next slice to every member once all completed the previous. -/
  | sliceDelivery
  /-- R241: A pass finishes on its members, which take state 3 and get their asked-for batons. -/
  | passEnd
  /-- R243: An error in key material ends the pass in state 5 and aborts the launch. -/
  | passFault
  /-- R260: When a context frees, the leg scheduler fills it with a yielded lap, pool lap, saved lap or new lap. -/
  | lapDispatch
  /-- R260: A pool's oldest element reaches 4,096 cycles and the pool becomes ready. -/
  | poolAged
  /-- R261: A pool's oldest element reaches 16,384 cycles and the pool goes ahead of full pools. -/
  | poolOverdue
  /-- R268: The admission controller tests a launch against the calendar and accepts or rejects it. -/
  | admissionDecision
  /-- R271: A launch's predecessors have completed, so it may read its count and cut laps. -/
  | predecessorsComplete
  /-- R276: The die preempts a later-deadline lap so an earlier-deadline launch gets a context. -/
  | launchPreempt
  /-- R276: A preempted context's state is saved to its slot of the save area. -/
  | contextSave
  /-- R276: A saved context's state is restored to a free context of its cluster. -/
  | contextRestore
  /-- R273: A launch that exceeds its work, traffic or version bounds is stopped on every cluster. -/
  | launchOverrunStop
  /-- R273: A launch reaching its promised cycle is stopped and its records settle. -/
  | deadlineStop
  /-- R274: The die writes the whole completion record as a release when the launch ends. -/
  | launchComplete
  /-- R252: A parked context wakes after a phase change of its watched hurdle. -/
  | hurdleWake
  /-- R249: A parked hurdle wait rechecks the phase at least every 256 cycles. -/
  | hurdleRecheck
  /-- R249: A hurdle wait's bound passes with the phase unchanged and it returns 0. -/
  | hurdleWaitTimeout
  /-- R161: An addressed event ends a WFE park. -/
  | wfeWake
  /-- R161: 65,536 cycles pass and WFE ends. -/
  | wfeTimeout
  /-- R295: A consumer round starts when every input is ready, binding the latest versions. -/
  | roundStart
  /-- R296: A re-fired round's laps stop and its pools, jobs and passes are discarded. -/
  | roundStop
  /-- R298: A round's last element retires, ending refinement of its output records. -/
  | roundEnd
  /-- R299: The publication unit settles a record once its inputs have settled at the recorded versions. -/
  | recordSettle
  /-- R307: A publish reaches bound contexts' mark copies, releasing stalled loads. -/
  | wmarkCopyUpdate
  /-- R309: A draining cell becomes FREE when its last in-flight access has performed. -/
  | cellFree
  /-- R339: A sector read past the memory port is checked by ECC and tag and decrypted or poisoned. -/
  | sectorRead
  /-- R362: A domain access arrives at its target part and is performed under its export table. -/
  | domainAccessArrival
  /-- R363: A domain access without response for 2^21 cycles fails with poison or no effect. -/
  | domainTimeout
  /-- R350: A sequencer counter reaches zero and the state's action is taken. -/
  | traceTriggerFire
  /-- R352: Every 2^20 cycles a die's sink sends a marker and writes a MARK record. -/
  | traceMarkerSend
  /-- R352: A die's sink receives a marker and writes a MARK record. -/
  | traceMarkerReceive
  /-- R353: A cluster idle for 64 cycles enters CLOCK-GATED. -/
  | clockGate
  /-- R353: A cluster clock-gated for 2^20 cycles enters RETENTION. -/
  | enterRetention
  /-- R353: An unreserved cluster 2^24 cycles in RETENTION enters OFF. -/
  | enterOff
  /-- R353: A cluster completes its wake to ON. -/
  | clusterWake
  /-- R357: Every 1,024 cycles the monitor CSRs are refreshed. -/
  | monitorRefresh
  /-- R358: A voltage monitor out of range for 1,024 consecutive cycles resets its die. -/
  | voltageReset
  /-- R348: A die reset ends its launches and clears its address spaces, views and records. -/
  | dieReset
  /-- R342: A package reset clears measurements and grants and runs boot. -/
  | packageReset
  /-- R370: Answers an SPDM GET_VERSION request. -/
  | spdmGetVersion
  /-- R370: Answers an SPDM GET_CAPABILITIES request. -/
  | spdmGetCapabilities
  /-- R370: Answers an SPDM NEGOTIATE_ALGORITHMS request. -/
  | spdmNegotiateAlgorithms
  /-- R370: Answers an SPDM GET_DIGESTS request. -/
  | spdmGetDigests
  /-- R370: Answers an SPDM GET_CERTIFICATE request. -/
  | spdmGetCertificate
  /-- R370: Answers an SPDM CHALLENGE request. -/
  | spdmChallenge
  /-- R370: Reports meas0 to meas7 as signed measurements. -/
  | spdmGetMeasurements
  /-- R370: Starts a session, or returns Busy beyond 16 sessions. -/
  | spdmKeyExchange
  /-- R364: Completes a session and opens a command channel with a derived key. -/
  | spdmFinish
  /-- R370: Any other SPDM request returns ERROR UnsupportedRequest. -/
  | unsupportedRequest
  /-- R370: In recovery, a signed configuration and firmware frame is verified by mask ROM. -/
  | recoveryFrame
  /-- R367: Binds a command channel to a partition after a token check. -/
  | bind
  /-- R367: Writes bytes at a VA of the bound partition on a named die. -/
  | write
  /-- R367: Reads bytes at a VA of the bound partition on a named die. -/
  | read
  /-- R367: Submits a launch header to a named die and returns the answer and launch id. -/
  | launchCommand
  /-- R367: Returns a launch's completion record. -/
  | status
  /-- R369: Takes or renews the management lock lease, or reports the holder. -/
  | lock
  /-- R367: Releases the management lock held by the requester. -/
  | unlock
  /-- R369: An expired lease frees the management lock without a response. -/
  | lockLeaseExpiry
  /-- R362: DOMAIN sub-op 0 sets a partition's dpid and route bitmap. -/
  | domainSetRoute
  /-- R362: DOMAIN sub-op 1 writes one export entry of a dpid. -/
  | domainSetExport
  /-- R371: Closes admission and preempts every lap, job and pass of the part. -/
  | quiesce
  /-- R371: Writes the part's saved state to a far-tier area. -/
  | dump
  /-- R371: Loads an image and readmits its deadline launches with their remaining time. -/
  | restore
  /-- R28: Issuing a word whose opcode is 0x00, 0x7F or unassigned raises ILLEGAL and stops the context. -/
  | illegalWord
  /-- R80: A fetch that finds no valid translation or no X permission raises PAGE or ACCESS at the fetched instruction. -/
  | fetchFault
  /-- R360: The target part's response or acknowledgement of a domain access arrives back at the source, completing the load,
  store or atomic and freeing the stream's next access. -/
  | domainResponse
  /-- R359: A received packet of a refused Ultra Ethernet option is dropped and counted in the port's drop counter. -/
  | refusedOptionPacket
  /-- R367: A command frame with an unlisted opcode returns PARAM and its sequence number is consumed. -/
  | unlistedOpcode
  /-- R340: The re-encryption of a page's 64 sectors under v + 1 completes, mkeycmd reads 0 and the waiting accesses to the page
  proceed. -/
  | pageReencryptionDone
  deriving DecidableEq, Repr

/-- What an event acts on and what it brings from outside the module, by the shape of its row. -/
inductive Signal where
  /-- Nothing: a lock lease that expires, or the end of a page's re-encryption. -/
  | none
  /-- A context. -/
  | ctx (c : CtxId)
  /-- A core. -/
  | core (c : CoreId)
  /-- A cluster of a die. -/
  | clu (die : DieId) (clu : CluId)
  /-- A die. -/
  | die (die : DieId)
  /-- A launch of a die. -/
  | launch (die : DieId) (launch : BitVec 16)
  /-- The pool of a leg in a cluster (R257). -/
  | pool (die : DieId) (clu : CluId) (launch leg : BitVec 16)
  /-- The staged input of a leg, for a slot of its ring (R203). -/
  | input (die : DieId) (clu : CluId) (launch leg : BitVec 16) (slot : BitVec 2)
  /-- An engine of a cluster (R200). -/
  | engine (die : DieId) (clu : CluId) (engine : Engine)
  /-- A job of a cluster, and whether the witness unit found a mismatch in it (R211, R219). -/
  | job (die : DieId) (clu : CluId) (job : Nat) (mismatch : Bool)
  /-- A key pass of a die (R240). -/
  | pass (die : DieId) (pass : BitVec 6)
  /-- A key pass's member in a cluster (R236). -/
  | member (die : DieId) (clu : CluId) (pass : BitVec 6)
  /-- A key pass's member in a cluster in whose step the witness units have found a mismatch (R171). -/
  | memberMiss (die : DieId) (clu : CluId) (pass : BitVec 6)
  /-- An agent that acknowledges the shootdown of a slot (R327). -/
  | shootdown (die : DieId) (slot : BitVec 3) (agent : Nat)
  /-- A context's instruction under its witness, and whether the recomputation differs (R152). -/
  | witness (c : CtxId) (mismatch : Bool)
  /-- A stream of a context, by the low four bits of its register (R187). -/
  | stream (c : CtxId) (k : BitVec 4)
  /-- A publication record of a die (R293). -/
  | record (die : DieId) (record : BitVec 12)
  /-- A published object that reaches a bound context (R307). -/
  | mark (c : CtxId) (addr : Word)
  /-- A draining cell of a covered frame (R309). -/
  | cell (die : DieId) (frame cell : Nat)
  /-- A sector that the memory port reads for a context at an address, and what it finds (R339). -/
  | sector (pa : BitVec 48) (c : CtxId) (va : Word) (finding : SectorFinding)
  /-- An access that arrives through the domain (R362). -/
  | domainAccess (acc : DomainAccess)
  /-- A request that waits for its response (R363). -/
  | domainRequest (req : Nat)
  /-- The response to a request (R360). -/
  | domainResponse (req : Nat) (result : DomainResult)
  /-- A trace marker from another die (R352). -/
  | marker (die other : DieId) (serial : BitVec 16)
  /-- The readings of a die's monitors (R357). -/
  | monitors (die : DieId) (temps volts procs : List (BitVec 16))
  /-- A die reset, with its cause (R348). -/
  | reset (die : DieId) (cause : BitVec 8)
  /-- The images a package reset measures, and whether their signatures hold (R342). -/
  | boot (images : List (BitVec 512)) (ok : Bool)
  /-- A message that arrives at a port (R370). -/
  | port (port : BitVec 3)
  /-- A request for a measurement (R370). -/
  | measurement (port : BitVec 3) (index : BitVec 8)
  /-- A session that completes (R364). -/
  | session (port : BitVec 3) (session : BitVec 32)
  /-- A recovery frame (R370). -/
  | recovery (port : BitVec 3) (images : List (BitVec 512)) (ok : Bool)
  /-- BIND (R367). -/
  | bindTo (f : Frame) (part : BitVec 16) (tokenOk : Bool)
  /-- WRITE (R367). -/
  | writeTo (f : Frame) (die : DieId) (va : Word) (data : List Byte)
  /-- READ (R367). -/
  | readFrom (f : Frame) (die : DieId) (va : Word) (len : BitVec 16)
  /-- LAUNCH (R367). -/
  | submit (f : Frame) (die : DieId) (header : Word)
  /-- STATUS (R367). -/
  | statusOf (f : Frame) (die : DieId) (launch : BitVec 16)
  /-- LOCK (R369). -/
  | lockFor (f : Frame) (requester lease : BitVec 16)
  /-- UNLOCK (R369). -/
  | unlockFor (f : Frame) (requester : BitVec 16)
  /-- DOMAIN sub-op 0 (R362). -/
  | route (f : Frame) (part dpid : BitVec 16) (route : BitVec 8192)
  /-- DOMAIN sub-op 1 (R362). -/
  | target (f : Frame) (dpid index : BitVec 16) (entry : Word)
  /-- QUIESCE (R371). -/
  | frame (f : Frame)
  /-- DUMP and RESTORE, with the physical address of the area (R371). -/
  | area (f : Frame) (pa : Word)
  /-- A frame whose opcode the list does not hold (R367). -/
  | unlisted (f : Frame) (opcode : BitVec 8)
  /-- A word that is no instruction (R28). -/
  | word (w : BitVec 32)
  /-- The fault code of a fetch (R80, R324). -/
  | fetch (code : BitVec 8)
  deriving DecidableEq, Repr

end Sys2Proof
end

