-- ==== Sys2Proof/Machine/Legal.lean ====
section
/-! DEFINITION. Which words R28 calls ILLEGAL beyond the layout of their fields: the CSR map (R49, R137, R349 and the
others), the limits of register numbers, of the type formats and of the operands of each instruction (R15, R19–R22,
R27). -/

namespace Sys2Proof

/-- The CSR numbers that are assigned: user 0x000–0x030 (R49), kernel 0x100–0x10D, hypervisor 0x180–0x199, machine
0x1C0–0x1E8 (R137, R330, R333), debug 0x200–0x262 (R349) and the monitors 0x300–0x33F (R357). -/
def csrAssigned (c : Nat) : Bool :=
  c ≤ 0x013 || (0x018 ≤ c && c ≤ 0x01F) || (0x020 ≤ c && c ≤ 0x025) || c == 0x028 || c == 0x030 ||
  (0x100 ≤ c && c ≤ 0x10D) || (0x180 ≤ c && c ≤ 0x18D) || (0x190 ≤ c && c ≤ 0x199) || (0x1C0 ≤ c && c ≤ 0x1CF) ||
  (0x1E0 ≤ c && c ≤ 0x1E4) || c == 0x1E8 || c == 0x200 || c == 0x201 || (0x208 ≤ c && c ≤ 0x225) ||
  (0x240 ≤ c && c ≤ 0x243) || (0x260 ≤ c && c ≤ 0x262) || (0x300 ≤ c && c ≤ 0x33F)

/-- The CSRs that no write, set or clear form may name (R28, R49, R137, R333, R346, R349, R357). -/
def csrReadOnly (c : Nat) : Bool :=
  c == 0x001 || c == 0x006 || c == 0x007 || (0x00B ≤ c && c ≤ 0x013) || c == 0x030 || c == 0x109 || c == 0x10A ||
  c == 0x190 || (0x192 ≤ c && c ≤ 0x195) || (0x197 ≤ c && c ≤ 0x199) || (0x1E1 ≤ c && c ≤ 0x1E4) || c == 0x201 ||
  c == 0x242 || c == 0x261 || (0x300 ≤ c && c ≤ 0x33F)

/-- A CSR word that writes names an assigned CSR that is not read-only (R28). -/
def csrWritable (c : BitVec 12) : Bool := csrAssigned c.toNat && !csrReadOnly c.toNat

/-- m0 to m11 (R15). -/
def maskReg (m : MNum) : Bool := m.toNat < 12

/-- .ctx, .core, .clu, .die, .pkg, .dom (R21). -/
def scopeOk (s : BitVec 3) : Bool := s.toNat < 6

/-- The carried group of LOOP: none with cvb 0 and cvg 0, else an aligned group inside the file (R27). -/
def carriedOk (cvb : BitVec 6) (cvg : BitVec 2) : Bool :=
  if cvb = 0 then cvg == 0 else cvb.toNat % 2 ^ cvg.toNat == 0 && cvb.toNat + 2 ^ cvg.toNat ≤ 64

/-- The destination and the ring's second operand of QPOP, QPEEK and REFQ differ, x0 apart (R255, R305). -/
def distinctOrZero (d b : XReg) : Bool := d != b || d == 0

/-- A cluster number of a die (R1). -/
def cluOk (c : CluId) : Bool := c.toNat < 40

/-- The limits of an instruction's fields that R28 gives beside its layout; the operands of an event are those of its
Signal. -/
def Instr.legal : Instr → Bool
  | .ld _ _ _ _ sz sx => !(sx && sz == 3)
  | .amoAdd _ _ _ _ scope _ | .amoAnd _ _ _ _ scope _ | .amoOr _ _ _ _ scope _ | .amoXor _ _ _ _ scope _
  | .amoMin _ _ _ _ scope _ | .amoMax _ _ _ _ scope _ | .amoMinn _ _ _ _ scope _ | .amoMaxn _ _ _ _ scope _
  | .amoSwap _ _ _ _ scope _ | .cas _ _ _ _ scope _ => scopeOk scope
  | .fence ord scope => ord != 0 && scopeOk scope
  | .fenceSc scope => scopeOk scope
  | .sbar names => names.toNat < 2 ^ 18 && names != 0
  | .loop _ _ cvb cvg => carriedOk cvb cvg
  | .vtag _ code => code.toNat ≤ 0x12
  | .vcmpEq d _ _ _ _ | .vcmpNe d _ _ _ _ | .vcmpLt d _ _ _ _ | .vcmpLe d _ _ _ _ | .vcmpGt d _ _ _ _
  | .vcmpGe d _ _ _ _ | .vcmpUnord d _ _ _ _ => maskReg d
  | .vcvtScale _ _ fmt _ _ => fmt == 0 || fmt == 0xE || fmt == 0xF || fmt == 0x10
  | .vcompIota _ a _ _ | .vcompCidx _ a _ => maskReg a
  | .ehistRead _ bank _ | .ehistClr bank _ => bank.toNat < 4 || (8 ≤ bank.toNat && bank.toNat < 16)
  | .mlogAnd d a b | .mlogOr d a b | .mlogXor d a b | .mlogAndn d a b | .mlogOrn d a b | .mlogXnor d a b =>
    maskReg d && maskReg a && maskReg b
  | .mlogNot d a | .mmv d a => maskReg d && maskReg a
  | .mcnt _ a | .mcntFirst _ a | .msetvl _ a => maskReg a
  | .mmvSet d | .mmvClr d => maskReg d
  | .mld t _ _ _ _ | .mst t _ _ _ _ => maskReg t
  | .btnWait q => q != 2
  | .btnPost q => q != 3
  | .btnWaitPost q => q != 2
  | .tmma _ mK _ _ => maskReg mK || mK == 15
  | .hurdleArrive _ _ _ scope | .hurdleWait _ _ _ scope | .hurdleAw _ _ _ scope | .hurdleInit _ _ _ scope
  | .qpush _ _ _ scope | .wmarkPub _ _ _ scope | .wmarkBind _ _ scope => scopeOk scope
  | .qpop d _ b scope | .qpeek d _ b scope => scopeOk scope && distinctOrZero d b
  | .refq d _ b => distinctOrZero d b
  | .csrr _ c => csrAssigned c.toNat
  | .csrw _ _ c | .csrs _ _ c | .csrc _ _ c => csrWritable c
  | _ => true

/-- A context of the module: its cluster field is 0 to 39 (R49). -/
def ctxOk (c : CtxId) : Bool := cluOk (c.extractLsb' 4 6)

/-- The clusters and contexts that a Signal names exist (R1). -/
def Signal.legal : Signal → Bool
  | .ctx c | .witness c _ | .stream c _ | .mark c _ | .sector _ c _ _ => ctxOk c
  | .core c => cluOk (c.extractLsb' 2 6)
  | .clu _ c | .pool _ c _ _ | .input _ c _ _ _ | .engine _ c _ | .job _ c _ _ | .member _ c _
  | .memberMiss _ c _ => cluOk c
  | _ => true

/-- The events that reach the module by its agenda, each with the shape of its Signal. ILLEGAL_WORD and FETCH_FAULT
come from the fetch alone, and an instruction of a front is no event. -/
def Instr.accepts (i : Instr) (sig : Signal) : Bool :=
  match sig with
  | .none => i == .lockLeaseExpiry || i == .pageReencryptionDone
  | .ctx _ => [.yieldSwitch, .stopAtPointerPair, .pendingFaultTake, .vectorRetire, .deadlockProbe, .probeReturn,
      .contextSave, .hurdleWake, .hurdleRecheck, .hurdleWaitTimeout, .wfeWake, .wfeTimeout].contains i
  | .core _ => i == .vectorStart || i == .worldSwitch
  | .clu _ _ => [.clusterScrubDone, .lapDispatch, .launchPreempt, .contextRestore, .traceTriggerFire, .clockGate,
      .enterRetention, .enterOff, .clusterWake].contains i
  | .die _ => [.admissionDecision, .traceMarkerSend, .voltageReset].contains i
  | .launch _ _ => [.predecessorsComplete, .launchOverrunStop, .deadlineStop, .launchComplete, .roundStart, .roundStop,
      .roundEnd].contains i
  | .pool _ _ _ _ => i == .poolAged || i == .poolOverdue
  | .input _ _ _ _ _ => i == .stagedInputIssue
  | .engine _ _ _ => i == .jobStart
  | .job _ _ _ _ => i == .jobEnd
  | .pass _ _ => [.sliceDelivery, .passEnd, .passFault].contains i
  | .member _ _ _ | .memberMiss _ _ _ => i == .refreshStep
  | .shootdown _ _ _ => i == .shootdownAck
  | .witness _ _ => i == .witnessCheck
  | .stream _ _ => i == .streamFill || i == .streamDrain
  | .record _ _ => i == .recordSettle
  | .mark _ _ => i == .wmarkCopyUpdate
  | .cell _ _ _ => i == .cellFree
  | .sector _ _ _ _ => i == .sectorRead
  | .domainAccess _ => i == .domainAccessArrival
  | .domainRequest _ => i == .domainTimeout
  | .domainResponse _ _ => i == .domainResponse
  | .marker _ _ _ => i == .traceMarkerReceive
  | .monitors _ _ _ _ => i == .monitorRefresh
  | .reset _ _ => i == .dieReset
  | .boot _ _ => i == .packageReset
  | .port _ => [.spdmGetVersion, .spdmGetCapabilities, .spdmNegotiateAlgorithms, .spdmGetDigests, .spdmGetCertificate,
      .spdmChallenge, .spdmKeyExchange, .unsupportedRequest, .refusedOptionPacket].contains i
  | .measurement _ _ => i == .spdmGetMeasurements
  | .session _ _ => i == .spdmFinish
  | .recovery _ _ _ => i == .recoveryFrame
  | .bindTo _ _ _ => i == .bind
  | .writeTo _ _ _ _ => i == .write
  | .readFrom _ _ _ _ => i == .read
  | .submit _ _ _ => i == .launchCommand
  | .statusOf _ _ _ => i == .status
  | .lockFor _ _ _ => i == .lock
  | .unlockFor _ _ => i == .unlock
  | .route _ _ _ _ => i == .domainSetRoute
  | .target _ _ _ _ => i == .domainSetExport
  | .frame _ => i == .quiesce
  | .area _ _ => i == .dump || i == .restore
  | .unlisted _ _ => i == .unlistedOpcode
  | .word _ | .fetch _ => false

end Sys2Proof
end

