-- ==== Sys2Proof/WellFormed.lean ====
section
/-! DEFINITION. Which instructions are well formed: the terms of Instr that some legal word stands for (R28), and the
events with the units they name. -/

namespace Sys2Proof

/-- An instruction some word of R27 encodes (R28), or an event, whose own operands are those of its Signal. -/
abbrev Instr.WellFormed (i : Instr) : Prop := i.legal = true

/-- An event with a signal of its shape that names units the part has (R1). -/
abbrev Signal.WellFormed (i : Instr) (sig : Signal) : Prop := i.accepts sig = true ∧ sig.legal = true

end Sys2Proof
end

