-- ==== Sys2Proof/Decode.lean ====
section
/-! DEFINITION. From bytes to instructions and back: the field layouts of R13 and R14, the opcode map of R27 and the
rejection of every other word (R28). A word that is rejected raises ILLEGAL when it is issued; here it is rejected by
name. -/

namespace Sys2Proof

/-- Why a word is no instruction (R28). -/
inductive DecodeError where
  /-- The major opcode is 0x00, 0x7F or unassigned. -/
  | noSuchOpcode
  /-- A function, condition, mode or kind is not listed in R27. -/
  | noSuchFunction
  /-- A selector of an instruction is not listed in R27 or in its entry. -/
  | noSuchSelector
  /-- A zero or unused field is nonzero (R22). -/
  | fieldNotZero
  /-- A register, scope, CSR or other field has a value outside its limits (Instr.legal). -/
  | illFormed
  /-- Fewer than four bytes. -/
  | tooShort
  deriving DecidableEq, Repr

/-- The n bits of w from bit lo up, as a number. -/
def fld (w lo n : Nat) : Nat := w / 2 ^ lo % 2 ^ n

/-- The n bits of w from bit lo up. -/
def bits (w lo n : Nat) : BitVec n := BitVec.ofNat n (w / 2 ^ lo)

/-- Bit lo of w. -/
def bit (w lo : Nat) : Bool := w / 2 ^ lo % 2 == 1

/-- The queue field of a memory instruction's baton bits: b1 is waited on, the post goes to b0 (R11, R19). -/
def memQueue (bw : Bool) : Nat := if bw then 1 else 0

/-- The queue field of an engine job's baton bits: b2 is waited on, b3 posted to (R11, R19). -/
def jobQueue (bw bp : Bool) : Nat := if bw then 2 else if bp then 3 else 0

/-- Major opcode 0x01: ADD, SUB, AND, OR, XOR, SLL, SRL, SRA, SLT, SLTU, MIN, MAX, MINN, MAXN, MUL, MULH, MULHN, DIV, DIVN, REM, REMN, CLZ, CTZ, POPC (R73, R74). -/
def dec01 (w : Nat) : Except DecodeError Instr :=
  match fld w 7 10 with
  | 0 => .ok (.add (bits w 27 5) (bits w 22 5) (bits w 17 5))
  | 1 => .ok (.sub (bits w 27 5) (bits w 22 5) (bits w 17 5))
  | 2 => .ok (.and (bits w 27 5) (bits w 22 5) (bits w 17 5))
  | 3 => .ok (.or (bits w 27 5) (bits w 22 5) (bits w 17 5))
  | 4 => .ok (.xor (bits w 27 5) (bits w 22 5) (bits w 17 5))
  | 5 => .ok (.sll (bits w 27 5) (bits w 22 5) (bits w 17 5))
  | 6 => .ok (.srl (bits w 27 5) (bits w 22 5) (bits w 17 5))
  | 7 => .ok (.sra (bits w 27 5) (bits w 22 5) (bits w 17 5))
  | 8 => .ok (.slt (bits w 27 5) (bits w 22 5) (bits w 17 5))
  | 9 => .ok (.sltu (bits w 27 5) (bits w 22 5) (bits w 17 5))
  | 10 => .ok (.min (bits w 27 5) (bits w 22 5) (bits w 17 5))
  | 11 => .ok (.max (bits w 27 5) (bits w 22 5) (bits w 17 5))
  | 12 => .ok (.minn (bits w 27 5) (bits w 22 5) (bits w 17 5))
  | 13 => .ok (.maxn (bits w 27 5) (bits w 22 5) (bits w 17 5))
  | 16 => .ok (.mul (bits w 27 5) (bits w 22 5) (bits w 17 5))
  | 17 => .ok (.mulh (bits w 27 5) (bits w 22 5) (bits w 17 5))
  | 18 => .ok (.mulhn (bits w 27 5) (bits w 22 5) (bits w 17 5))
  | 20 => .ok (.div (bits w 27 5) (bits w 22 5) (bits w 17 5))
  | 21 => .ok (.divn (bits w 27 5) (bits w 22 5) (bits w 17 5))
  | 22 => .ok (.rem (bits w 27 5) (bits w 22 5) (bits w 17 5))
  | 23 => .ok (.remn (bits w 27 5) (bits w 22 5) (bits w 17 5))
  | 24 => if fld w 17 5 = 0 then .ok (.clz (bits w 27 5) (bits w 22 5)) else .error .fieldNotZero
  | 25 => if fld w 17 5 = 0 then .ok (.ctz (bits w 27 5) (bits w 22 5)) else .error .fieldNotZero
  | 26 => if fld w 17 5 = 0 then .ok (.popc (bits w 27 5) (bits w 22 5)) else .error .fieldNotZero
  | _ => .error .noSuchFunction

/-- Major opcode 0x02: ADDI (R75). -/
def dec02 (w : Nat) : Except DecodeError Instr :=
  .ok (.addi (bits w 27 5) (bits w 22 5) (bits w 7 15))

/-- Major opcode 0x03: ANDI (R75). -/
def dec03 (w : Nat) : Except DecodeError Instr :=
  .ok (.andi (bits w 27 5) (bits w 22 5) (bits w 7 15))

/-- Major opcode 0x04: ORI (R75). -/
def dec04 (w : Nat) : Except DecodeError Instr :=
  .ok (.ori (bits w 27 5) (bits w 22 5) (bits w 7 15))

/-- Major opcode 0x05: XORI (R75). -/
def dec05 (w : Nat) : Except DecodeError Instr :=
  .ok (.xori (bits w 27 5) (bits w 22 5) (bits w 7 15))

/-- Major opcode 0x06: SLTI (R75). -/
def dec06 (w : Nat) : Except DecodeError Instr :=
  .ok (.slti (bits w 27 5) (bits w 22 5) (bits w 7 15))

/-- Major opcode 0x07: SLTIN (R75). -/
def dec07 (w : Nat) : Except DecodeError Instr :=
  .ok (.sltin (bits w 27 5) (bits w 22 5) (bits w 7 15))

/-- Major opcode 0x08: SLLI, SRLI, SRAI (R75). -/
def dec08 (w : Nat) : Except DecodeError Instr :=
  match fld w 20 2 with
  | 0 => if fld w 13 7 = 0 then .ok (.slli (bits w 27 5) (bits w 22 5) (bits w 7 6)) else .error .fieldNotZero
  | 1 => if fld w 13 7 = 0 then .ok (.srli (bits w 27 5) (bits w 22 5) (bits w 7 6)) else .error .fieldNotZero
  | 2 => if fld w 13 7 = 0 then .ok (.srai (bits w 27 5) (bits w 22 5) (bits w 7 6)) else .error .fieldNotZero
  | _ => .error .noSuchFunction

/-- Major opcode 0x09: LIH (R76). -/
def dec09 (w : Nat) : Except DecodeError Instr :=
  .ok (.lih (bits w 27 5) (bits w 7 20))

/-- Major opcode 0x0A: PCREL (R76). -/
def dec0A (w : Nat) : Except DecodeError Instr :=
  .ok (.pcrel (bits w 27 5) (bits w 7 20))

/-- Major opcode 0x10: LD (R176). -/
def dec10 (w : Nat) : Except DecodeError Instr :=
  .ok (.ld (bits w 27 5) (bits w 22 5) (bits w 12 10) (bits w 10 2) (bits w 8 2) (bit w 7))

/-- Major opcode 0x11: ST (R176). -/
def dec11 (w : Nat) : Except DecodeError Instr :=
  if fld w 7 1 = 0 then .ok (.st (bits w 27 5) (bits w 22 5) (bits w 12 10) (bits w 10 2) (bits w 8 2)) else .error .fieldNotZero

/-- Major opcode 0x12: AMO_ADD, AMO_AND, AMO_OR, AMO_XOR, AMO_MIN, AMO_MAX, AMO_MINN, AMO_MAXN, AMO_SWAP (R178). -/
def dec12 (w : Nat) : Except DecodeError Instr :=
  match fld w 13 4 with
  | 0 => .ok (.amoAdd (bits w 27 5) (bits w 22 5) (bits w 17 5) (bits w 11 2) (bits w 8 3) (bit w 7))
  | 1 => .ok (.amoAnd (bits w 27 5) (bits w 22 5) (bits w 17 5) (bits w 11 2) (bits w 8 3) (bit w 7))
  | 2 => .ok (.amoOr (bits w 27 5) (bits w 22 5) (bits w 17 5) (bits w 11 2) (bits w 8 3) (bit w 7))
  | 3 => .ok (.amoXor (bits w 27 5) (bits w 22 5) (bits w 17 5) (bits w 11 2) (bits w 8 3) (bit w 7))
  | 4 => .ok (.amoMin (bits w 27 5) (bits w 22 5) (bits w 17 5) (bits w 11 2) (bits w 8 3) (bit w 7))
  | 5 => .ok (.amoMax (bits w 27 5) (bits w 22 5) (bits w 17 5) (bits w 11 2) (bits w 8 3) (bit w 7))
  | 6 => .ok (.amoMinn (bits w 27 5) (bits w 22 5) (bits w 17 5) (bits w 11 2) (bits w 8 3) (bit w 7))
  | 7 => .ok (.amoMaxn (bits w 27 5) (bits w 22 5) (bits w 17 5) (bits w 11 2) (bits w 8 3) (bit w 7))
  | 8 => .ok (.amoSwap (bits w 27 5) (bits w 22 5) (bits w 17 5) (bits w 11 2) (bits w 8 3) (bit w 7))
  | _ => .error .noSuchFunction

/-- Major opcode 0x13: CAS (R178). -/
def dec13 (w : Nat) : Except DecodeError Instr :=
  match fld w 13 4 with
  | 0 => .ok (.cas (bits w 27 5) (bits w 22 5) (bits w 17 5) (bits w 11 2) (bits w 8 3) (bit w 7))
  | _ => .error .noSuchFunction

/-- Major opcode 0x14: FENCE, FENCE_SC (R180, R286). -/
def dec14 (w : Nat) : Except DecodeError Instr :=
  match fld w 13 4 with
  | 0 => if fld w 7 1 = 0 ∧ fld w 17 15 = 0 then .ok (.fence (bits w 11 2) (bits w 8 3)) else .error .fieldNotZero
  | 1 => if fld w 7 1 = 0 ∧ fld w 11 2 = 0 ∧ fld w 17 15 = 0 then .ok (.fenceSc (bits w 8 3)) else .error .fieldNotZero
  | _ => .error .noSuchFunction

/-- Major opcode 0x15: SBAR (R181). -/
def dec15 (w : Nat) : Except DecodeError Instr :=
  if fld w 25 7 = 0 then .ok (.sbar (bits w 7 20)) else .error .fieldNotZero

/-- Major opcode 0x18: BR_EQ, BR_NE, BR_LT, BR_GE, BR_LTN, BR_GEN (R78). -/
def dec18 (w : Nat) : Except DecodeError Instr :=
  match fld w 19 3 with
  | 0 => .ok (.brEq (bits w 27 5) (bits w 22 5) (bits w 7 12))
  | 1 => .ok (.brNe (bits w 27 5) (bits w 22 5) (bits w 7 12))
  | 2 => .ok (.brLt (bits w 27 5) (bits w 22 5) (bits w 7 12))
  | 3 => .ok (.brGe (bits w 27 5) (bits w 22 5) (bits w 7 12))
  | 4 => .ok (.brLtn (bits w 27 5) (bits w 22 5) (bits w 7 12))
  | 5 => .ok (.brGen (bits w 27 5) (bits w 22 5) (bits w 7 12))
  | _ => .error .noSuchFunction

/-- Major opcode 0x19: JAL (R79). -/
def dec19 (w : Nat) : Except DecodeError Instr :=
  .ok (.jal (bits w 27 5) (bits w 7 20))

/-- Major opcode 0x1A: JALR (R80). -/
def dec1A (w : Nat) : Except DecodeError Instr :=
  .ok (.jalr (bits w 27 5) (bits w 22 5) (bits w 7 15))

/-- Major opcode 0x1B: LOOP (R82). -/
def dec1B (w : Nat) : Except DecodeError Instr :=
  if fld w 7 4 = 0 then .ok (.loop (bits w 27 5) (bits w 19 8) (bits w 13 6) (bits w 11 2)) else .error .fieldNotZero

/-- Major opcode 0x1C: LAPEND (R82). -/
def dec1C (w : Nat) : Except DecodeError Instr :=
  if fld w 7 25 = 0 then .ok (.lapend) else .error .fieldNotZero

/-- Major opcode 0x1D: LAPEXIT (R82). -/
def dec1D (w : Nat) : Except DecodeError Instr :=
  if fld w 7 25 = 0 then .ok (.lapexit) else .error .fieldNotZero

/-- Major opcode 0x1E: NEXT_PER_ELEMENT, NEXT_UNIFORM (R88). -/
def dec1E (w : Nat) : Except DecodeError Instr :=
  match fld w 7 3 with
  | 0 => if fld w 10 10 = 0 ∧ fld w 26 6 = 0 then .ok (.nextPerElement (bits w 20 6)) else .error .fieldNotZero
  | 1 => if fld w 10 5 = 0 ∧ fld w 20 12 = 0 then .ok (.nextUniform (bits w 15 5)) else .error .fieldNotZero
  | _ => .error .noSuchFunction

/-- Major opcode 0x1F: YIELD (R90). -/
def dec1F (w : Nat) : Except DecodeError Instr :=
  if fld w 7 25 = 0 then .ok (.yield) else .error .fieldNotZero

/-- Major opcode 0x20: VSETVL (R91). -/
def dec20 (w : Nat) : Except DecodeError Instr :=
  match fld w 7 10 with
  | 0 => .ok (.vsetvl (bits w 27 5) (bits w 22 5) (bits w 17 5))
  | _ => .error .noSuchFunction

/-- Major opcode 0x21: VTAG (R93). -/
def dec21 (w : Nat) : Except DecodeError Instr :=
  if fld w 7 8 = 128 ∧ fld w 20 6 = 0 then .ok (.vtag (bits w 26 6) (bits w 15 5)) else .error .fieldNotZero

/-- Major opcode 0x22: VCFG (R92). -/
def dec22 (w : Nat) : Except DecodeError Instr :=
  if fld w 24 3 = 0 then .ok (.vcfg (bits w 27 5) (bits w 7 17)) else .error .fieldNotZero

/-- Major opcode 0x24: VADD, VADD_SUB, VADD_RSUB, VADD_ADDS, VADD_SUBS, VADD_ABSD (R99). -/
def dec24 (w : Nat) : Except DecodeError Instr :=
  match fld w 7 3 with
  | 0 => .ok (.vadd (bits w 26 6) (bits w 20 6) (bits w 14 6) (bits w 11 3) (bit w 10))
  | 1 => .ok (.vaddSub (bits w 26 6) (bits w 20 6) (bits w 14 6) (bits w 11 3) (bit w 10))
  | 2 => .ok (.vaddRsub (bits w 26 6) (bits w 20 6) (bits w 14 6) (bits w 11 3) (bit w 10))
  | 3 => .ok (.vaddAdds (bits w 26 6) (bits w 20 6) (bits w 14 6) (bits w 11 3) (bit w 10))
  | 4 => .ok (.vaddSubs (bits w 26 6) (bits w 20 6) (bits w 14 6) (bits w 11 3) (bit w 10))
  | 5 => .ok (.vaddAbsd (bits w 26 6) (bits w 20 6) (bits w 14 6) (bits w 11 3) (bit w 10))
  | _ => .error .noSuchFunction

/-- Major opcode 0x25: VMUL, VMUL_MULH, VMUL_MULHN, VMUL_DIV, VMUL_REM (R100). -/
def dec25 (w : Nat) : Except DecodeError Instr :=
  match fld w 7 3 with
  | 0 => .ok (.vmul (bits w 26 6) (bits w 20 6) (bits w 14 6) (bits w 11 3) (bit w 10))
  | 1 => .ok (.vmulMulh (bits w 26 6) (bits w 20 6) (bits w 14 6) (bits w 11 3) (bit w 10))
  | 2 => .ok (.vmulMulhn (bits w 26 6) (bits w 20 6) (bits w 14 6) (bits w 11 3) (bit w 10))
  | 3 => .ok (.vmulDiv (bits w 26 6) (bits w 20 6) (bits w 14 6) (bits w 11 3) (bit w 10))
  | 4 => .ok (.vmulRem (bits w 26 6) (bits w 20 6) (bits w 14 6) (bits w 11 3) (bit w 10))
  | _ => .error .noSuchFunction

/-- Major opcode 0x26: VFMA, VFMA_FMS, VFMA_FNMA, VFMA_FNMS (R101). -/
def dec26 (w : Nat) : Except DecodeError Instr :=
  match fld w 7 3 with
  | 0 => .ok (.vfma (bits w 26 6) (bits w 20 6) (bits w 14 6) (bits w 11 3) (bit w 10))
  | 1 => .ok (.vfmaFms (bits w 26 6) (bits w 20 6) (bits w 14 6) (bits w 11 3) (bit w 10))
  | 2 => .ok (.vfmaFnma (bits w 26 6) (bits w 20 6) (bits w 14 6) (bits w 11 3) (bit w 10))
  | 3 => .ok (.vfmaFnms (bits w 26 6) (bits w 20 6) (bits w 14 6) (bits w 11 3) (bit w 10))
  | _ => .error .noSuchFunction

/-- Major opcode 0x27: VMINMAX_MIN, VMINMAX_MAX, VMINMAX_MINNUM, VMINMAX_MAXNUM (R102). -/
def dec27 (w : Nat) : Except DecodeError Instr :=
  match fld w 7 3 with
  | 0 => .ok (.vminmaxMin (bits w 26 6) (bits w 20 6) (bits w 14 6) (bits w 11 3) (bit w 10))
  | 1 => .ok (.vminmaxMax (bits w 26 6) (bits w 20 6) (bits w 14 6) (bits w 11 3) (bit w 10))
  | 2 => .ok (.vminmaxMinnum (bits w 26 6) (bits w 20 6) (bits w 14 6) (bits w 11 3) (bit w 10))
  | 3 => .ok (.vminmaxMaxnum (bits w 26 6) (bits w 20 6) (bits w 14 6) (bits w 11 3) (bit w 10))
  | _ => .error .noSuchFunction

/-- Major opcode 0x28: VLOGIC_AND, VLOGIC_OR, VLOGIC_XOR, VLOGIC_ANDN, VLOGIC_SLL, VLOGIC_SRL, VLOGIC_SRA (R103). -/
def dec28 (w : Nat) : Except DecodeError Instr :=
  match fld w 7 3 with
  | 0 => .ok (.vlogicAnd (bits w 26 6) (bits w 20 6) (bits w 14 6) (bits w 11 3) (bit w 10))
  | 1 => .ok (.vlogicOr (bits w 26 6) (bits w 20 6) (bits w 14 6) (bits w 11 3) (bit w 10))
  | 2 => .ok (.vlogicXor (bits w 26 6) (bits w 20 6) (bits w 14 6) (bits w 11 3) (bit w 10))
  | 3 => .ok (.vlogicAndn (bits w 26 6) (bits w 20 6) (bits w 14 6) (bits w 11 3) (bit w 10))
  | 4 => .ok (.vlogicSll (bits w 26 6) (bits w 20 6) (bits w 14 6) (bits w 11 3) (bit w 10))
  | 5 => .ok (.vlogicSrl (bits w 26 6) (bits w 20 6) (bits w 14 6) (bits w 11 3) (bit w 10))
  | 6 => .ok (.vlogicSra (bits w 26 6) (bits w 20 6) (bits w 14 6) (bits w 11 3) (bit w 10))
  | _ => .error .noSuchFunction

/-- Major opcode 0x29: VCMP_EQ, VCMP_NE, VCMP_LT, VCMP_LE, VCMP_GT, VCMP_GE, VCMP_UNORD (R104). -/
def dec29 (w : Nat) : Except DecodeError Instr :=
  match fld w 7 3 with
  | 0 => if fld w 30 2 = 0 then .ok (.vcmpEq (bits w 26 4) (bits w 20 6) (bits w 14 6) (bits w 11 3) (bit w 10)) else .error .fieldNotZero
  | 1 => if fld w 30 2 = 0 then .ok (.vcmpNe (bits w 26 4) (bits w 20 6) (bits w 14 6) (bits w 11 3) (bit w 10)) else .error .fieldNotZero
  | 2 => if fld w 30 2 = 0 then .ok (.vcmpLt (bits w 26 4) (bits w 20 6) (bits w 14 6) (bits w 11 3) (bit w 10)) else .error .fieldNotZero
  | 3 => if fld w 30 2 = 0 then .ok (.vcmpLe (bits w 26 4) (bits w 20 6) (bits w 14 6) (bits w 11 3) (bit w 10)) else .error .fieldNotZero
  | 4 => if fld w 30 2 = 0 then .ok (.vcmpGt (bits w 26 4) (bits w 20 6) (bits w 14 6) (bits w 11 3) (bit w 10)) else .error .fieldNotZero
  | 5 => if fld w 30 2 = 0 then .ok (.vcmpGe (bits w 26 4) (bits w 20 6) (bits w 14 6) (bits w 11 3) (bit w 10)) else .error .fieldNotZero
  | 6 => if fld w 30 2 = 0 then .ok (.vcmpUnord (bits w 26 4) (bits w 20 6) (bits w 14 6) (bits w 11 3) (bit w 10)) else .error .fieldNotZero
  | _ => .error .noSuchFunction

/-- Major opcode 0x2A: VSEL (R105). -/
def dec2A (w : Nat) : Except DecodeError Instr :=
  match fld w 7 3 with
  | 0 => if fld w 10 1 = 1 then .ok (.vsel (bits w 26 6) (bits w 20 6) (bits w 14 6) (bits w 11 3)) else .error .fieldNotZero
  | _ => .error .noSuchFunction

/-- Major opcode 0x2B: VCVT, VCVT_SAT, VCVT_BLK, VCVT_SCALE (R106, R107, R108). -/
def dec2B (w : Nat) : Except DecodeError Instr :=
  match fld w 7 3 with
  | 0 => if fld w 14 6 = 0 then .ok (.vcvt (bits w 26 6) (bits w 20 6) (bits w 11 3) (bit w 10)) else .error .fieldNotZero
  | 1 => if fld w 14 6 = 0 then .ok (.vcvtSat (bits w 26 6) (bits w 20 6) (bits w 11 3) (bit w 10)) else .error .fieldNotZero
  | 2 => .ok (.vcvtBlk (bits w 26 6) (bits w 20 6) (bits w 14 6) (bits w 11 3) (bit w 10))
  | 3 => .ok (.vcvtScale (bits w 26 6) (bits w 20 6) (bits w 14 6) (bits w 11 3) (bit w 10))
  | _ => .error .noSuchFunction

/-- Major opcode 0x2C: VMOD_ADDM, VMOD_SUBM, VMOD_MULM, VMOD_MACM (R109). -/
def dec2C (w : Nat) : Except DecodeError Instr :=
  match fld w 7 3 with
  | 0 => .ok (.vmodAddm (bits w 26 6) (bits w 20 6) (bits w 14 6) (bits w 11 3) (bit w 10))
  | 1 => .ok (.vmodSubm (bits w 26 6) (bits w 20 6) (bits w 14 6) (bits w 11 3) (bit w 10))
  | 2 => .ok (.vmodMulm (bits w 26 6) (bits w 20 6) (bits w 14 6) (bits w 11 3) (bit w 10))
  | 3 => .ok (.vmodMacm (bits w 26 6) (bits w 20 6) (bits w 14 6) (bits w 11 3) (bit w 10))
  | _ => .error .noSuchFunction

/-- Major opcode 0x2D: VX_ADD, VX_SUB, VX_MUL, VX_MIN, VX_MAX, VX_AND, VX_OR, VX_FMA (R110). -/
def dec2D (w : Nat) : Except DecodeError Instr :=
  match fld w 7 3 with
  | 0 => .ok (.vxAdd (bits w 26 6) (bits w 20 6) (bits w 15 5) (bit w 14) (bits w 11 3) (bit w 10))
  | 1 => .ok (.vxSub (bits w 26 6) (bits w 20 6) (bits w 15 5) (bit w 14) (bits w 11 3) (bit w 10))
  | 2 => .ok (.vxMul (bits w 26 6) (bits w 20 6) (bits w 15 5) (bit w 14) (bits w 11 3) (bit w 10))
  | 3 => .ok (.vxMin (bits w 26 6) (bits w 20 6) (bits w 15 5) (bit w 14) (bits w 11 3) (bit w 10))
  | 4 => .ok (.vxMax (bits w 26 6) (bits w 20 6) (bits w 15 5) (bit w 14) (bits w 11 3) (bit w 10))
  | 5 => .ok (.vxAnd (bits w 26 6) (bits w 20 6) (bits w 15 5) (bit w 14) (bits w 11 3) (bit w 10))
  | 6 => .ok (.vxOr (bits w 26 6) (bits w 20 6) (bits w 15 5) (bit w 14) (bits w 11 3) (bit w 10))
  | 7 => .ok (.vxFma (bits w 26 6) (bits w 20 6) (bits w 15 5) (bit w 14) (bits w 11 3) (bit w 10))
  | _ => .error .noSuchFunction

/-- Major opcode 0x2E: VSFU_EXP2, VSFU_LOG2, VSFU_RCP, VSFU_RSQ, VSFU_SQRT, VSFU_RCPSTEP, VSFU_RSQSTEP (R111, R113). -/
def dec2E (w : Nat) : Except DecodeError Instr :=
  match fld w 7 3 with
  | 0 => if fld w 14 6 = 0 then .ok (.vsfuExp2 (bits w 26 6) (bits w 20 6) (bits w 11 3) (bit w 10)) else .error .fieldNotZero
  | 1 => if fld w 14 6 = 0 then .ok (.vsfuLog2 (bits w 26 6) (bits w 20 6) (bits w 11 3) (bit w 10)) else .error .fieldNotZero
  | 2 => if fld w 14 6 = 0 then .ok (.vsfuRcp (bits w 26 6) (bits w 20 6) (bits w 11 3) (bit w 10)) else .error .fieldNotZero
  | 3 => if fld w 14 6 = 0 then .ok (.vsfuRsq (bits w 26 6) (bits w 20 6) (bits w 11 3) (bit w 10)) else .error .fieldNotZero
  | 4 => if fld w 14 6 = 0 then .ok (.vsfuSqrt (bits w 26 6) (bits w 20 6) (bits w 11 3) (bit w 10)) else .error .fieldNotZero
  | 5 => .ok (.vsfuRcpstep (bits w 26 6) (bits w 20 6) (bits w 14 6) (bits w 11 3) (bit w 10))
  | 6 => .ok (.vsfuRsqstep (bits w 26 6) (bits w 20 6) (bits w 14 6) (bits w 11 3) (bit w 10))
  | _ => .error .noSuchFunction

/-- Major opcode 0x2F: VSMAX_UPD, VSMAX_NORM (R114, R115). -/
def dec2F (w : Nat) : Except DecodeError Instr :=
  match fld w 7 3 with
  | 0 => .ok (.vsmaxUpd (bits w 26 6) (bits w 20 6) (bits w 14 6) (bits w 11 3) (bit w 10))
  | 1 => .ok (.vsmaxNorm (bits w 26 6) (bits w 20 6) (bits w 14 6) (bits w 11 3) (bit w 10))
  | _ => .error .noSuchFunction

/-- Major opcode 0x30: VRED_SUM, VRED_MIN, VRED_MAX, VRED_AND, VRED_OR, VRED_XOR, VRED_WSUM (R119). -/
def dec30 (w : Nat) : Except DecodeError Instr :=
  match fld w 7 3 with
  | 0 => if fld w 14 6 = 0 then .ok (.vredSum (bits w 26 6) (bits w 20 6) (bits w 11 3) (bit w 10)) else .error .fieldNotZero
  | 1 => if fld w 14 6 = 0 then .ok (.vredMin (bits w 26 6) (bits w 20 6) (bits w 11 3) (bit w 10)) else .error .fieldNotZero
  | 2 => if fld w 14 6 = 0 then .ok (.vredMax (bits w 26 6) (bits w 20 6) (bits w 11 3) (bit w 10)) else .error .fieldNotZero
  | 3 => if fld w 14 6 = 0 then .ok (.vredAnd (bits w 26 6) (bits w 20 6) (bits w 11 3) (bit w 10)) else .error .fieldNotZero
  | 4 => if fld w 14 6 = 0 then .ok (.vredOr (bits w 26 6) (bits w 20 6) (bits w 11 3) (bit w 10)) else .error .fieldNotZero
  | 5 => if fld w 14 6 = 0 then .ok (.vredXor (bits w 26 6) (bits w 20 6) (bits w 11 3) (bit w 10)) else .error .fieldNotZero
  | 6 => .ok (.vredWsum (bits w 26 6) (bits w 20 6) (bits w 14 6) (bits w 11 3) (bit w 10))
  | _ => .error .noSuchFunction

/-- Major opcode 0x31: VSLIDE_UP, VSLIDE_DOWN, VSLIDE_ROT (R120). -/
def dec31 (w : Nat) : Except DecodeError Instr :=
  match fld w 7 3 with
  | 0 => .ok (.vslideUp (bits w 26 6) (bits w 20 6) (bits w 15 5) (bit w 14) (bits w 11 3) (bit w 10))
  | 1 => .ok (.vslideDown (bits w 26 6) (bits w 20 6) (bits w 15 5) (bit w 14) (bits w 11 3) (bit w 10))
  | 2 => .ok (.vslideRot (bits w 26 6) (bits w 20 6) (bits w 15 5) (bit w 14) (bits w 11 3) (bit w 10))
  | _ => .error .noSuchFunction

/-- Major opcode 0x32: VPERM (R121). -/
def dec32 (w : Nat) : Except DecodeError Instr :=
  match fld w 7 3 with
  | 0 => .ok (.vperm (bits w 26 6) (bits w 20 6) (bits w 14 6) (bits w 11 3) (bit w 10))
  | _ => .error .noSuchFunction

/-- Major opcode 0x33: VCOMP_COMPRESS, VCOMP_EXPAND, VCOMP_IOTA, VCOMP_CIDX (R123). -/
def dec33 (w : Nat) : Except DecodeError Instr :=
  match fld w 7 3 with
  | 0 => if fld w 10 1 = 1 ∧ fld w 14 6 = 0 then .ok (.vcompCompress (bits w 26 6) (bits w 20 6) (bits w 11 3)) else .error .fieldNotZero
  | 1 => if fld w 10 1 = 1 ∧ fld w 14 6 = 0 then .ok (.vcompExpand (bits w 26 6) (bits w 20 6) (bits w 11 3)) else .error .fieldNotZero
  | 2 => if fld w 14 6 = 0 ∧ fld w 24 2 = 0 then .ok (.vcompIota (bits w 26 6) (bits w 20 4) (bits w 11 3) (bit w 10)) else .error .fieldNotZero
  | 3 => if fld w 10 1 = 0 ∧ fld w 14 6 = 0 ∧ fld w 24 2 = 0 then .ok (.vcompCidx (bits w 26 6) (bits w 20 4) (bits w 11 3)) else .error .fieldNotZero
  | _ => .error .noSuchFunction

/-- Major opcode 0x34: VBFLY_H, VBFLY_H_F, VBFLY_CT, VBFLY_GS (R125, R126). -/
def dec34 (w : Nat) : Except DecodeError Instr :=
  match fld w 7 3 with
  | 0 => if fld w 14 6 = 0 then .ok (.vbflyH (bits w 26 6) (bits w 20 6) (bits w 10 4)) else .error .fieldNotZero
  | 1 => if fld w 14 6 = 0 then .ok (.vbflyHF (bits w 26 6) (bits w 20 6) (bits w 10 4)) else .error .fieldNotZero
  | 2 => .ok (.vbflyCt (bits w 26 6) (bits w 20 6) (bits w 14 6) (bits w 10 4))
  | 3 => .ok (.vbflyGs (bits w 26 6) (bits w 20 6) (bits w 14 6) (bits w 10 4))
  | _ => .error .noSuchFunction

/-- Major opcode 0x35: VDECOMP (R127). -/
def dec35 (w : Nat) : Except DecodeError Instr :=
  .ok (.vdecomp (bits w 26 6) (bits w 20 6) (bits w 15 5) (bit w 14) (bits w 11 3) (bit w 10) (bits w 7 3))

/-- Major opcode 0x36: VMV, VMV_BCAST, VMV_TOX, VMV_FROMX, VMV_WID (R128, R129). -/
def dec36 (w : Nat) : Except DecodeError Instr :=
  match fld w 7 3 with
  | 0 => if fld w 14 6 = 0 then .ok (.vmv (bits w 26 6) (bits w 20 6) (bits w 11 3) (bit w 10)) else .error .fieldNotZero
  | 1 => if fld w 20 6 = 0 then .ok (.vmvBcast (bits w 26 6) (bits w 15 5) (bit w 14) (bits w 11 3) (bit w 10)) else .error .fieldNotZero
  | 2 => if fld w 10 1 = 0 ∧ fld w 14 1 = 0 ∧ fld w 26 6 = 0 then .ok (.vmvTox (bits w 15 5) (bits w 20 6) (bits w 11 3)) else .error .fieldNotZero
  | 3 => if fld w 20 6 = 0 then .ok (.vmvFromx (bits w 26 6) (bits w 15 5) (bit w 14) (bits w 11 3) (bit w 10)) else .error .fieldNotZero
  | 4 => if fld w 14 12 = 0 then .ok (.vmvWid (bits w 26 6) (bits w 11 3) (bit w 10)) else .error .fieldNotZero
  | _ => .error .noSuchFunction

/-- Major opcode 0x37: EHIST_ACC, EHIST_READ, EHIST_CLR (R130). -/
def dec37 (w : Nat) : Except DecodeError Instr :=
  match fld w 7 3 with
  | 0 => if fld w 14 1 = 1 ∧ fld w 26 6 = 0 ∧ fld w 17 3 = 0 then .ok (.ehistAcc (bits w 20 6) (bits w 15 2) (bits w 11 3) (bit w 10)) else .error .fieldNotZero
  | 1 => if fld w 10 1 = 0 ∧ fld w 14 1 = 1 ∧ fld w 20 6 = 0 then .ok (.ehistRead (bits w 26 6) (bits w 15 5) (bits w 11 3)) else .error .fieldNotZero
  | 2 => if fld w 10 1 = 0 ∧ fld w 14 1 = 1 ∧ fld w 20 12 = 0 then .ok (.ehistClr (bits w 15 5) (bits w 11 3)) else .error .fieldNotZero
  | _ => .error .noSuchFunction

/-- Major opcode 0x38: MLOG_AND, MLOG_OR, MLOG_XOR, MLOG_ANDN, MLOG_ORN, MLOG_XNOR, MLOG_NOT (R132). -/
def dec38 (w : Nat) : Except DecodeError Instr :=
  match fld w 14 6 with
  | 0 => if fld w 7 7 = 0 then .ok (.mlogAnd (bits w 28 4) (bits w 24 4) (bits w 20 4)) else .error .fieldNotZero
  | 1 => if fld w 7 7 = 0 then .ok (.mlogOr (bits w 28 4) (bits w 24 4) (bits w 20 4)) else .error .fieldNotZero
  | 2 => if fld w 7 7 = 0 then .ok (.mlogXor (bits w 28 4) (bits w 24 4) (bits w 20 4)) else .error .fieldNotZero
  | 3 => if fld w 7 7 = 0 then .ok (.mlogAndn (bits w 28 4) (bits w 24 4) (bits w 20 4)) else .error .fieldNotZero
  | 4 => if fld w 7 7 = 0 then .ok (.mlogOrn (bits w 28 4) (bits w 24 4) (bits w 20 4)) else .error .fieldNotZero
  | 5 => if fld w 7 7 = 0 then .ok (.mlogXnor (bits w 28 4) (bits w 24 4) (bits w 20 4)) else .error .fieldNotZero
  | 6 => if fld w 7 7 = 0 ∧ fld w 20 4 = 0 then .ok (.mlogNot (bits w 28 4) (bits w 24 4)) else .error .fieldNotZero
  | _ => .error .noSuchFunction

/-- Major opcode 0x39: MCNT, MCNT_FIRST (R133). -/
def dec39 (w : Nat) : Except DecodeError Instr :=
  match fld w 14 6 with
  | 0 => if fld w 7 2 = 0 ∧ fld w 20 4 = 0 ∧ fld w 28 4 = 0 then .ok (.mcnt (bits w 9 5) (bits w 24 4)) else .error .fieldNotZero
  | 1 => if fld w 7 2 = 0 ∧ fld w 20 4 = 0 ∧ fld w 28 4 = 0 then .ok (.mcntFirst (bits w 9 5) (bits w 24 4)) else .error .fieldNotZero
  | _ => .error .noSuchFunction

/-- Major opcode 0x3A: MSETVL (R134). -/
def dec3A (w : Nat) : Except DecodeError Instr :=
  match fld w 14 6 with
  | 0 => if fld w 7 2 = 0 ∧ fld w 20 4 = 0 ∧ fld w 28 4 = 0 then .ok (.msetvl (bits w 9 5) (bits w 24 4)) else .error .fieldNotZero
  | _ => .error .noSuchFunction

/-- Major opcode 0x3B: MMV, MMV_SET, MMV_CLR (R132). -/
def dec3B (w : Nat) : Except DecodeError Instr :=
  match fld w 14 6 with
  | 0 => if fld w 7 7 = 0 ∧ fld w 20 4 = 0 then .ok (.mmv (bits w 28 4) (bits w 24 4)) else .error .fieldNotZero
  | 1 => if fld w 7 7 = 0 ∧ fld w 20 8 = 0 then .ok (.mmvSet (bits w 28 4)) else .error .fieldNotZero
  | 2 => if fld w 7 7 = 0 ∧ fld w 20 8 = 0 then .ok (.mmvClr (bits w 28 4)) else .error .fieldNotZero
  | _ => .error .noSuchFunction

/-- Major opcode 0x40: VLD, VLD_S, VLD_X (R184). -/
def dec40 (w : Nat) : Except DecodeError Instr :=
  match fld w 12 3 with
  | 0 => if fld w 15 6 = 0 ∧ fld w 7 2 = memQueue (bit w 10) then .ok (.vld (bits w 26 6) (bits w 21 5) (bit w 11) (bit w 10) (bit w 9)) else .error .fieldNotZero
  | 1 => if fld w 20 1 = 0 ∧ fld w 7 2 = memQueue (bit w 10) then .ok (.vldS (bits w 26 6) (bits w 21 5) (bits w 15 5) (bit w 11) (bit w 10) (bit w 9)) else .error .fieldNotZero
  | 2 => if fld w 7 2 = memQueue (bit w 10) then .ok (.vldX (bits w 26 6) (bits w 21 5) (bits w 15 6) (bit w 11) (bit w 10) (bit w 9)) else .error .fieldNotZero
  | _ => .error .noSuchFunction

/-- Major opcode 0x41: VST, VST_S, VST_X (R184). -/
def dec41 (w : Nat) : Except DecodeError Instr :=
  match fld w 12 3 with
  | 0 => if fld w 15 6 = 0 ∧ fld w 7 2 = memQueue (bit w 10) then .ok (.vst (bits w 26 6) (bits w 21 5) (bit w 11) (bit w 10) (bit w 9)) else .error .fieldNotZero
  | 1 => if fld w 20 1 = 0 ∧ fld w 7 2 = memQueue (bit w 10) then .ok (.vstS (bits w 26 6) (bits w 21 5) (bits w 15 5) (bit w 11) (bit w 10) (bit w 9)) else .error .fieldNotZero
  | 2 => if fld w 7 2 = memQueue (bit w 10) then .ok (.vstX (bits w 26 6) (bits w 21 5) (bits w 15 6) (bit w 11) (bit w 10) (bit w 9)) else .error .fieldNotZero
  | _ => .error .noSuchFunction

/-- Major opcode 0x42: VAMO_ADD, VAMO_AND, VAMO_OR, VAMO_XOR, VAMO_MIN, VAMO_MAX, VAMO_SWAP (R185). -/
def dec42 (w : Nat) : Except DecodeError Instr :=
  match fld w 12 3 with
  | 0 => if fld w 7 2 = memQueue (bit w 10) then .ok (.vamoAdd (bits w 26 6) (bits w 21 5) (bits w 15 6) (bit w 11) (bit w 10) (bit w 9)) else .error .fieldNotZero
  | 1 => if fld w 7 2 = memQueue (bit w 10) then .ok (.vamoAnd (bits w 26 6) (bits w 21 5) (bits w 15 6) (bit w 11) (bit w 10) (bit w 9)) else .error .fieldNotZero
  | 2 => if fld w 7 2 = memQueue (bit w 10) then .ok (.vamoOr (bits w 26 6) (bits w 21 5) (bits w 15 6) (bit w 11) (bit w 10) (bit w 9)) else .error .fieldNotZero
  | 3 => if fld w 7 2 = memQueue (bit w 10) then .ok (.vamoXor (bits w 26 6) (bits w 21 5) (bits w 15 6) (bit w 11) (bit w 10) (bit w 9)) else .error .fieldNotZero
  | 4 => if fld w 7 2 = memQueue (bit w 10) then .ok (.vamoMin (bits w 26 6) (bits w 21 5) (bits w 15 6) (bit w 11) (bit w 10) (bit w 9)) else .error .fieldNotZero
  | 5 => if fld w 7 2 = memQueue (bit w 10) then .ok (.vamoMax (bits w 26 6) (bits w 21 5) (bits w 15 6) (bit w 11) (bit w 10) (bit w 9)) else .error .fieldNotZero
  | 6 => if fld w 7 2 = memQueue (bit w 10) then .ok (.vamoSwap (bits w 26 6) (bits w 21 5) (bits w 15 6) (bit w 11) (bit w 10) (bit w 9)) else .error .fieldNotZero
  | _ => .error .noSuchFunction

/-- Major opcode 0x43: MLD (R186). -/
def dec43 (w : Nat) : Except DecodeError Instr :=
  match fld w 12 3 with
  | 0 => if fld w 15 6 = 0 ∧ fld w 30 2 = 0 ∧ fld w 7 2 = memQueue (bit w 10) then .ok (.mld (bits w 26 4) (bits w 21 5) (bit w 11) (bit w 10) (bit w 9)) else .error .fieldNotZero
  | _ => .error .noSuchFunction

/-- Major opcode 0x44: MST (R186). -/
def dec44 (w : Nat) : Except DecodeError Instr :=
  match fld w 12 3 with
  | 0 => if fld w 15 6 = 0 ∧ fld w 30 2 = 0 ∧ fld w 7 2 = memQueue (bit w 10) then .ok (.mst (bits w 26 4) (bits w 21 5) (bit w 11) (bit w 10) (bit w 9)) else .error .fieldNotZero
  | _ => .error .noSuchFunction

/-- Major opcode 0x45: SBIND (R187). -/
def dec45 (w : Nat) : Except DecodeError Instr :=
  if fld w 7 14 = 0 ∧ fld w 30 2 = 3 then .ok (.sbind (bits w 26 4) (bits w 21 5)) else .error .fieldNotZero

/-- Major opcode 0x46: SUNBIND (R190). -/
def dec46 (w : Nat) : Except DecodeError Instr :=
  if fld w 7 19 = 0 ∧ fld w 30 2 = 3 then .ok (.sunbind (bits w 26 4)) else .error .fieldNotZero

/-- Major opcode 0x47: BTN_WAIT, BTN_POST, BTN_WAIT_POST (R191). -/
def dec47 (w : Nat) : Except DecodeError Instr :=
  match fld w 9 2 with
  | 2 => if fld w 11 21 = 0 then .ok (.btnWait (bits w 7 2)) else .error .fieldNotZero
  | 1 => if fld w 11 21 = 0 then .ok (.btnPost (bits w 7 2)) else .error .fieldNotZero
  | 3 => if fld w 11 21 = 0 then .ok (.btnWaitPost (bits w 7 2)) else .error .fieldNotZero
  | _ => .error .noSuchFunction

/-- Major opcode 0x48: TMMA (R213). -/
def dec48 (w : Nat) : Except DecodeError Instr :=
  match fld w 18 5 with
  | 0 => if fld w 11 7 = 0 ∧ fld w 7 2 = jobQueue (bit w 10) (bit w 9) then .ok (.tmma (bits w 27 5) (bits w 23 4) (bit w 10) (bit w 9)) else .error .fieldNotZero
  | _ => .error .noSuchFunction

/-- Major opcode 0x49: TCVT (R216). -/
def dec49 (w : Nat) : Except DecodeError Instr :=
  match fld w 18 5 with
  | 0 => if fld w 11 7 = 0 ∧ fld w 23 4 = 15 ∧ fld w 7 2 = jobQueue (bit w 10) (bit w 9) then .ok (.tcvt (bits w 27 5) (bit w 10) (bit w 9)) else .error .fieldNotZero
  | _ => .error .noSuchFunction

/-- Major opcode 0x4A: TCOPY (R217). -/
def dec4A (w : Nat) : Except DecodeError Instr :=
  match fld w 18 5 with
  | 0 => if fld w 11 7 = 0 ∧ fld w 23 4 = 15 ∧ fld w 7 2 = jobQueue (bit w 10) (bit w 9) then .ok (.tcopy (bits w 27 5) (bit w 10) (bit w 9)) else .error .fieldNotZero
  | _ => .error .noSuchFunction

/-- Major opcode 0x4B: JSTAT (R218). -/
def dec4B (w : Nat) : Except DecodeError Instr :=
  match fld w 7 10 with
  | 0 => if fld w 17 5 = 0 then .ok (.jstat (bits w 27 5) (bits w 22 5)) else .error .fieldNotZero
  | _ => .error .noSuchFunction

/-- Major opcode 0x50: CLD (R228). -/
def dec50 (w : Nat) : Except DecodeError Instr :=
  match fld w 7 10 with
  | 0 => if fld w 17 5 = 0 ∧ fld w 31 1 = 0 then .ok (.cld (bits w 27 4) (bits w 22 5)) else .error .fieldNotZero
  | _ => .error .noSuchFunction

/-- Major opcode 0x51: CST (R228). -/
def dec51 (w : Nat) : Except DecodeError Instr :=
  match fld w 7 10 with
  | 0 => if fld w 17 5 = 0 ∧ fld w 31 1 = 0 then .ok (.cst (bits w 27 4) (bits w 22 5)) else .error .fieldNotZero
  | _ => .error .noSuchFunction

/-- Major opcode 0x52: CADD, CSUB, CNEG, CMULI, CADDP, CMOV, CMAC (R231). -/
def dec52 (w : Nat) : Except DecodeError Instr :=
  match fld w 7 5 with
  | 0 => if fld w 12 8 = 0 then .ok (.cadd (bits w 28 4) (bits w 24 4) (bits w 20 4)) else .error .fieldNotZero
  | 1 => if fld w 12 8 = 0 then .ok (.csub (bits w 28 4) (bits w 24 4) (bits w 20 4)) else .error .fieldNotZero
  | 2 => if fld w 12 12 = 0 then .ok (.cneg (bits w 28 4) (bits w 24 4)) else .error .fieldNotZero
  | 3 => if fld w 20 4 = 0 then .ok (.cmuli (bits w 28 4) (bits w 24 4) (bits w 12 8)) else .error .fieldNotZero
  | 4 => if fld w 20 4 = 0 then .ok (.caddp (bits w 28 4) (bits w 24 4) (bits w 12 8)) else .error .fieldNotZero
  | 5 => if fld w 12 12 = 0 then .ok (.cmov (bits w 28 4) (bits w 24 4)) else .error .fieldNotZero
  | 6 => if fld w 20 4 = 0 then .ok (.cmac (bits w 28 4) (bits w 24 4) (bits w 12 8)) else .error .fieldNotZero
  | _ => .error .noSuchFunction

/-- Major opcode 0x53: CRFN (R234). -/
def dec53 (w : Nat) : Except DecodeError Instr :=
  match fld w 7 5 with
  | 0 => if fld w 15 9 = 0 then .ok (.crfn (bits w 28 4) (bits w 24 4) (bits w 12 3)) else .error .fieldNotZero
  | _ => .error .noSuchFunction

/-- Major opcode 0x54: TLD (R232). -/
def dec54 (w : Nat) : Except DecodeError Instr :=
  match fld w 7 10 with
  | 0 => if fld w 17 5 = 0 ∧ fld w 30 2 = 0 then .ok (.tld (bits w 27 3) (bits w 22 5)) else .error .fieldNotZero
  | _ => .error .noSuchFunction

/-- Major opcode 0x55: KPASS_OPEN, KPASS_JOIN, KPASS_RUN, KPASS_ABORT, KPASS_STATUS (R240, R241, R242). -/
def dec55 (w : Nat) : Except DecodeError Instr :=
  match fld w 7 10 with
  | 0 => if fld w 17 5 = 0 then .ok (.kpassOpen (bits w 27 5) (bits w 22 5)) else .error .fieldNotZero
  | 1 => .ok (.kpassJoin (bits w 27 5) (bits w 22 5) (bits w 17 5))
  | 2 => .ok (.kpassRun (bits w 27 5) (bits w 22 5) (bits w 17 5))
  | 3 => if fld w 17 5 = 0 then .ok (.kpassAbort (bits w 27 5) (bits w 22 5)) else .error .fieldNotZero
  | 4 => if fld w 17 5 = 0 then .ok (.kpassStatus (bits w 27 5) (bits w 22 5)) else .error .fieldNotZero
  | _ => .error .noSuchFunction

/-- Major opcode 0x56: CINFO (R229). -/
def dec56 (w : Nat) : Except DecodeError Instr :=
  if fld w 26 1 = 0 ∧ fld w 10 12 = 0 then .ok (.cinfo (bits w 27 5) (bits w 22 4) (bits w 7 3)) else .error .fieldNotZero

/-- Major opcode 0x58: HURDLE_ARRIVE, HURDLE_WAIT, HURDLE_AW, HURDLE_INIT (R248, R249, R250). -/
def dec58 (w : Nat) : Except DecodeError Instr :=
  match fld w 13 4 with
  | 0 => if fld w 7 1 = 0 ∧ fld w 11 2 = 0 then .ok (.hurdleArrive (bits w 27 5) (bits w 22 5) (bits w 17 5) (bits w 8 3)) else .error .fieldNotZero
  | 1 => if fld w 7 1 = 0 ∧ fld w 11 2 = 0 then .ok (.hurdleWait (bits w 27 5) (bits w 22 5) (bits w 17 5) (bits w 8 3)) else .error .fieldNotZero
  | 2 => if fld w 7 1 = 0 ∧ fld w 11 2 = 0 then .ok (.hurdleAw (bits w 27 5) (bits w 22 5) (bits w 17 5) (bits w 8 3)) else .error .fieldNotZero
  | 3 => if fld w 7 1 = 0 ∧ fld w 11 2 = 0 then .ok (.hurdleInit (bits w 27 5) (bits w 22 5) (bits w 17 5) (bits w 8 3)) else .error .fieldNotZero
  | _ => .error .noSuchFunction

/-- Major opcode 0x59: QPUSH, QPOP, QPEEK (R255). -/
def dec59 (w : Nat) : Except DecodeError Instr :=
  match fld w 13 4 with
  | 0 => if fld w 7 1 = 0 ∧ fld w 11 2 = 0 then .ok (.qpush (bits w 27 5) (bits w 22 5) (bits w 17 5) (bits w 8 3)) else .error .fieldNotZero
  | 1 => if fld w 7 1 = 0 ∧ fld w 11 2 = 0 then .ok (.qpop (bits w 27 5) (bits w 22 5) (bits w 17 5) (bits w 8 3)) else .error .fieldNotZero
  | 2 => if fld w 7 1 = 0 ∧ fld w 11 2 = 0 then .ok (.qpeek (bits w 27 5) (bits w 22 5) (bits w 17 5) (bits w 8 3)) else .error .fieldNotZero
  | _ => .error .noSuchFunction

/-- Major opcode 0x5A: WMARK_PUB, WMARK_BIND, WMARK_UNBIND (R306). -/
def dec5A (w : Nat) : Except DecodeError Instr :=
  match fld w 13 4 with
  | 0 => if fld w 7 1 = 0 ∧ fld w 11 2 = 0 then .ok (.wmarkPub (bits w 27 5) (bits w 22 5) (bits w 17 5) (bits w 8 3)) else .error .fieldNotZero
  | 1 => if fld w 7 1 = 0 ∧ fld w 11 2 = 0 ∧ fld w 17 5 = 0 then .ok (.wmarkBind (bits w 27 5) (bits w 22 5) (bits w 8 3)) else .error .fieldNotZero
  | 2 => if fld w 7 6 = 0 ∧ fld w 17 5 = 0 ∧ fld w 27 5 = 0 then .ok (.wmarkUnbind (bits w 22 5)) else .error .fieldNotZero
  | _ => .error .noSuchFunction

/-- Major opcode 0x5B: PUBV, PUBF, STOPR, REFCHK, REFQ (R301, R302). -/
def dec5B (w : Nat) : Except DecodeError Instr :=
  match fld w 13 4 with
  | 0 => if fld w 7 6 = 0 then .ok (.pubv (bits w 27 5) (bits w 22 5) (bits w 17 5)) else .error .fieldNotZero
  | 1 => if fld w 7 6 = 0 ∧ fld w 17 5 = 0 then .ok (.pubf (bits w 27 5) (bits w 22 5)) else .error .fieldNotZero
  | 2 => if fld w 7 6 = 0 ∧ fld w 17 5 = 0 then .ok (.stopr (bits w 27 5) (bits w 22 5)) else .error .fieldNotZero
  | 3 => if fld w 7 6 = 0 ∧ fld w 17 5 = 0 then .ok (.refchk (bits w 27 5) (bits w 22 5)) else .error .fieldNotZero
  | 4 => if fld w 7 6 = 0 then .ok (.refq (bits w 27 5) (bits w 22 5) (bits w 17 5)) else .error .fieldNotZero
  | _ => .error .noSuchFunction

/-- Major opcode 0x5C: VIEW_NEW, VIEW_NARROW, VIEW_SPLIT, VIEW_DUP, VIEW_DROP, VIEW_QUERY, VIEW_ID, VIEW_TAKE (R313). -/
def dec5C (w : Nat) : Except DecodeError Instr :=
  match fld w 11 3 with
  | 0 => if fld w 7 4 = 0 ∧ fld w 24 4 = 0 then .ok (.viewNew (bits w 28 4) (bits w 19 5) (bits w 14 5)) else .error .fieldNotZero
  | 1 => if fld w 7 4 = 0 ∧ fld w 28 4 = 0 then .ok (.viewNarrow (bits w 24 4) (bits w 19 5) (bits w 14 5)) else .error .fieldNotZero
  | 2 => if fld w 7 4 = 0 ∧ fld w 14 5 = 0 then .ok (.viewSplit (bits w 28 4) (bits w 24 4) (bits w 19 5)) else .error .fieldNotZero
  | 3 => if fld w 7 4 = 0 ∧ fld w 14 10 = 0 then .ok (.viewDup (bits w 28 4) (bits w 24 4)) else .error .fieldNotZero
  | 4 => if fld w 7 4 = 0 ∧ fld w 14 10 = 0 ∧ fld w 28 4 = 0 then .ok (.viewDrop (bits w 24 4)) else .error .fieldNotZero
  | 5 =>
    match fld w 28 4 with
    | 0 => if fld w 7 4 = 0 then .ok (.viewQuery (bits w 24 4) (bits w 19 5) (bits w 14 5)) else .error .fieldNotZero
    | 1 => if fld w 7 4 = 0 ∧ fld w 14 5 = 0 then .ok (.viewId (bits w 24 4) (bits w 19 5)) else .error .fieldNotZero
    | 2 => if fld w 7 4 = 0 ∧ fld w 14 5 = 0 then .ok (.viewTake (bits w 24 4) (bits w 19 5)) else .error .fieldNotZero
    | _ => .error .noSuchSelector
  | _ => .error .noSuchFunction

/-- Major opcode 0x5D: LAUNCH, LAUNCH_IND (R266). -/
def dec5D (w : Nat) : Except DecodeError Instr :=
  match fld w 7 10 with
  | 0 => if fld w 17 5 = 0 then .ok (.launch (bits w 27 5) (bits w 22 5)) else .error .fieldNotZero
  | 1 => if fld w 17 5 = 0 then .ok (.launchInd (bits w 27 5) (bits w 22 5)) else .error .fieldNotZero
  | _ => .error .noSuchFunction

/-- Major opcode 0x60: CSRR, CSRW, CSRS, CSRC (R155). -/
def dec60 (w : Nat) : Except DecodeError Instr :=
  match fld w 20 2 with
  | 0 => if fld w 7 1 = 0 ∧ fld w 22 5 = 0 then .ok (.csrr (bits w 27 5) (bits w 8 12)) else .error .fieldNotZero
  | 1 => if fld w 7 1 = 0 then .ok (.csrw (bits w 27 5) (bits w 22 5) (bits w 8 12)) else .error .fieldNotZero
  | 2 => if fld w 7 1 = 0 then .ok (.csrs (bits w 27 5) (bits w 22 5) (bits w 8 12)) else .error .fieldNotZero
  | 3 => if fld w 7 1 = 0 then .ok (.csrc (bits w 27 5) (bits w 22 5) (bits w 8 12)) else .error .fieldNotZero
  | _ => .error .noSuchFunction

/-- Major opcode 0x61: TRAP (R156). -/
def dec61 (w : Nat) : Except DecodeError Instr :=
  if fld w 27 5 = 0 then .ok (.trap (bits w 7 20)) else .error .fieldNotZero

/-- Major opcode 0x62: ERET (R147). -/
def dec62 (w : Nat) : Except DecodeError Instr :=
  if fld w 7 25 = 0 then .ok (.eret) else .error .fieldNotZero

/-- Major opcode 0x63: BKPT (R158). -/
def dec63 (w : Nat) : Except DecodeError Instr :=
  if fld w 27 5 = 0 then .ok (.bkpt (bits w 7 20)) else .error .fieldNotZero

/-- Major opcode 0x64: TRACE (R160). -/
def dec64 (w : Nat) : Except DecodeError Instr :=
  if fld w 27 5 = 0 then .ok (.trace (bits w 22 5) (bits w 7 15)) else .error .fieldNotZero

/-- Major opcode 0x65: WFE (R161). -/
def dec65 (w : Nat) : Except DecodeError Instr :=
  if fld w 7 25 = 0 then .ok (.wfe) else .error .fieldNotZero

/-- Major opcode 0x66: WCALL (R157). -/
def dec66 (w : Nat) : Except DecodeError Instr :=
  if fld w 27 5 = 0 then .ok (.wcall (bits w 7 20)) else .error .fieldNotZero

/-- Major opcode 0x67: TLBI_AS, TLBI_VA, TLBI_ALL (R327). -/
def dec67 (w : Nat) : Except DecodeError Instr :=
  match fld w 7 10 with
  | 0 => if fld w 17 5 = 0 ∧ fld w 27 5 = 0 then .ok (.tlbiAs (bits w 22 5)) else .error .fieldNotZero
  | 1 => if fld w 27 5 = 0 then .ok (.tlbiVa (bits w 22 5) (bits w 17 5)) else .error .fieldNotZero
  | 2 => if fld w 17 15 = 0 then .ok (.tlbiAll) else .error .fieldNotZero
  | _ => .error .noSuchFunction

/-- The instruction of a word given as a number below 2^32, by its major opcode (R27); the word-only limits of R28
that no field position shows are those of `Instr.wellFormed`. -/
def decodeFields (w : Nat) : Except DecodeError Instr :=
  match fld w 0 7 with
  | 0x01 => dec01 w
  | 0x02 => dec02 w
  | 0x03 => dec03 w
  | 0x04 => dec04 w
  | 0x05 => dec05 w
  | 0x06 => dec06 w
  | 0x07 => dec07 w
  | 0x08 => dec08 w
  | 0x09 => dec09 w
  | 0x0A => dec0A w
  | 0x10 => dec10 w
  | 0x11 => dec11 w
  | 0x12 => dec12 w
  | 0x13 => dec13 w
  | 0x14 => dec14 w
  | 0x15 => dec15 w
  | 0x18 => dec18 w
  | 0x19 => dec19 w
  | 0x1A => dec1A w
  | 0x1B => dec1B w
  | 0x1C => dec1C w
  | 0x1D => dec1D w
  | 0x1E => dec1E w
  | 0x1F => dec1F w
  | 0x20 => dec20 w
  | 0x21 => dec21 w
  | 0x22 => dec22 w
  | 0x24 => dec24 w
  | 0x25 => dec25 w
  | 0x26 => dec26 w
  | 0x27 => dec27 w
  | 0x28 => dec28 w
  | 0x29 => dec29 w
  | 0x2A => dec2A w
  | 0x2B => dec2B w
  | 0x2C => dec2C w
  | 0x2D => dec2D w
  | 0x2E => dec2E w
  | 0x2F => dec2F w
  | 0x30 => dec30 w
  | 0x31 => dec31 w
  | 0x32 => dec32 w
  | 0x33 => dec33 w
  | 0x34 => dec34 w
  | 0x35 => dec35 w
  | 0x36 => dec36 w
  | 0x37 => dec37 w
  | 0x38 => dec38 w
  | 0x39 => dec39 w
  | 0x3A => dec3A w
  | 0x3B => dec3B w
  | 0x40 => dec40 w
  | 0x41 => dec41 w
  | 0x42 => dec42 w
  | 0x43 => dec43 w
  | 0x44 => dec44 w
  | 0x45 => dec45 w
  | 0x46 => dec46 w
  | 0x47 => dec47 w
  | 0x48 => dec48 w
  | 0x49 => dec49 w
  | 0x4A => dec4A w
  | 0x4B => dec4B w
  | 0x50 => dec50 w
  | 0x51 => dec51 w
  | 0x52 => dec52 w
  | 0x53 => dec53 w
  | 0x54 => dec54 w
  | 0x55 => dec55 w
  | 0x56 => dec56 w
  | 0x58 => dec58 w
  | 0x59 => dec59 w
  | 0x5A => dec5A w
  | 0x5B => dec5B w
  | 0x5C => dec5C w
  | 0x5D => dec5D w
  | 0x60 => dec60 w
  | 0x61 => dec61 w
  | 0x62 => dec62 w
  | 0x63 => dec63 w
  | 0x64 => dec64 w
  | 0x65 => dec65 w
  | 0x66 => dec66 w
  | 0x67 => dec67 w
  | _ => .error .noSuchOpcode

/-- The instruction of a 32-bit word, or the reason it is none (R27, R28). -/
def decodeWord (w : BitVec 32) : Except DecodeError Instr :=
  match decodeFields w.toNat with
  | .ok i => if i.legal then .ok i else .error .illFormed
  | .error e => .error e

/-- The number that bytes stand for, the least significant first (R4, R12). -/
def leNat : List Byte → Nat
  | [] => 0
  | b :: bs => b.toNat + 256 * leNat bs

/-- The first instruction of a list of bytes with the bytes after it (R12). -/
def decodeBytes (bs : List Byte) : Except DecodeError (Instr × List Byte) :=
  if bs.length < 4 then .error .tooShort
  else match decodeWord (BitVec.ofNat 32 (leNat (bs.take 4))) with
    | .ok i => .ok (i, bs.drop 4)
    | .error e => .error e

/-- The k bytes of a number, the least significant first (R4). -/
def leBytes : Nat → Nat → List Byte
  | 0, _ => []
  | k + 1, w => BitVec.ofNat 8 w :: leBytes k (w / 256)

/-- The bytes of the instruction whose first nbits are w, the bits above them zero, as memory holds them (R12). -/
def tableBytes (nbits w : Nat) : List Byte := leBytes 4 (w % 2 ^ nbits)

/-- The instruction that the decoder reads from a word of the opcode table. -/
def decodeTableWord (nbits w : Nat) : Option Instr :=
  match decodeBytes (tableBytes nbits w) with
  | .ok (i, _) => some i
  | .error _ => none

/-- A field of n bits at bit lo, above the rest of a word. -/
def place {n : Nat} (x : BitVec n) (lo rest : Nat) : Nat := x.toNat * 2 ^ lo + rest

/-- A field of one bit at bit lo. -/
def placeBit (x : Bool) (lo rest : Nat) : Nat := x.toNat * 2 ^ lo + rest

/-- The number q of a queue at bit lo. -/
def placeNat (q lo rest : Nat) : Nat := q * 2 ^ lo + rest

/-- The word of an instruction by the layouts of R13 and R27, as a number below 2^32; an event has none. -/
def Instr.encode : Instr → Option Nat
  | .add d a b => some (place d 27 (place a 22 (place b 17 0x1)))
  | .sub d a b => some (place d 27 (place a 22 (place b 17 0x81)))
  | .and d a b => some (place d 27 (place a 22 (place b 17 0x101)))
  | .or d a b => some (place d 27 (place a 22 (place b 17 0x181)))
  | .xor d a b => some (place d 27 (place a 22 (place b 17 0x201)))
  | .sll d a b => some (place d 27 (place a 22 (place b 17 0x281)))
  | .srl d a b => some (place d 27 (place a 22 (place b 17 0x301)))
  | .sra d a b => some (place d 27 (place a 22 (place b 17 0x381)))
  | .slt d a b => some (place d 27 (place a 22 (place b 17 0x401)))
  | .sltu d a b => some (place d 27 (place a 22 (place b 17 0x481)))
  | .min d a b => some (place d 27 (place a 22 (place b 17 0x501)))
  | .max d a b => some (place d 27 (place a 22 (place b 17 0x581)))
  | .minn d a b => some (place d 27 (place a 22 (place b 17 0x601)))
  | .maxn d a b => some (place d 27 (place a 22 (place b 17 0x681)))
  | .mul d a b => some (place d 27 (place a 22 (place b 17 0x801)))
  | .mulh d a b => some (place d 27 (place a 22 (place b 17 0x881)))
  | .mulhn d a b => some (place d 27 (place a 22 (place b 17 0x901)))
  | .div d a b => some (place d 27 (place a 22 (place b 17 0xA01)))
  | .divn d a b => some (place d 27 (place a 22 (place b 17 0xA81)))
  | .rem d a b => some (place d 27 (place a 22 (place b 17 0xB01)))
  | .remn d a b => some (place d 27 (place a 22 (place b 17 0xB81)))
  | .clz d a => some (place d 27 (place a 22 0xC01))
  | .ctz d a => some (place d 27 (place a 22 0xC81))
  | .popc d a => some (place d 27 (place a 22 0xD01))
  | .addi d a imm => some (place d 27 (place a 22 (place imm 7 0x2)))
  | .andi d a imm => some (place d 27 (place a 22 (place imm 7 0x3)))
  | .ori d a imm => some (place d 27 (place a 22 (place imm 7 0x4)))
  | .xori d a imm => some (place d 27 (place a 22 (place imm 7 0x5)))
  | .slti d a imm => some (place d 27 (place a 22 (place imm 7 0x6)))
  | .sltin d a imm => some (place d 27 (place a 22 (place imm 7 0x7)))
  | .slli d a sh => some (place d 27 (place a 22 (place sh 7 0x8)))
  | .srli d a sh => some (place d 27 (place a 22 (place sh 7 0x100008)))
  | .srai d a sh => some (place d 27 (place a 22 (place sh 7 0x200008)))
  | .lih d imm => some (place d 27 (place imm 7 0x9))
  | .pcrel d imm => some (place d 27 (place imm 7 0xA))
  | .ld t a off ord sz sx => some (place t 27 (place a 22 (place off 12 (place ord 10 (place sz 8 (placeBit sx 7 0x10))))))
  | .st t a off ord sz => some (place t 27 (place a 22 (place off 12 (place ord 10 (place sz 8 0x11)))))
  | .amoAdd d a b ord scope w => some (place d 27 (place a 22 (place b 17 (place ord 11 (place scope 8 (placeBit w 7 0x12))))))
  | .amoAnd d a b ord scope w => some (place d 27 (place a 22 (place b 17 (place ord 11 (place scope 8 (placeBit w 7 0x2012))))))
  | .amoOr d a b ord scope w => some (place d 27 (place a 22 (place b 17 (place ord 11 (place scope 8 (placeBit w 7 0x4012))))))
  | .amoXor d a b ord scope w => some (place d 27 (place a 22 (place b 17 (place ord 11 (place scope 8 (placeBit w 7 0x6012))))))
  | .amoMin d a b ord scope w => some (place d 27 (place a 22 (place b 17 (place ord 11 (place scope 8 (placeBit w 7 0x8012))))))
  | .amoMax d a b ord scope w => some (place d 27 (place a 22 (place b 17 (place ord 11 (place scope 8 (placeBit w 7 0xA012))))))
  | .amoMinn d a b ord scope w => some (place d 27 (place a 22 (place b 17 (place ord 11 (place scope 8 (placeBit w 7 0xC012))))))
  | .amoMaxn d a b ord scope w => some (place d 27 (place a 22 (place b 17 (place ord 11 (place scope 8 (placeBit w 7 0xE012))))))
  | .amoSwap d a b ord scope w => some (place d 27 (place a 22 (place b 17 (place ord 11 (place scope 8 (placeBit w 7 0x10012))))))
  | .cas d a b ord scope w => some (place d 27 (place a 22 (place b 17 (place ord 11 (place scope 8 (placeBit w 7 0x13))))))
  | .fence ord scope => some (place ord 11 (place scope 8 0x14))
  | .fenceSc scope => some (place scope 8 0x2014)
  | .sbar names => some (place names 7 0x15)
  | .brEq a b off => some (place a 27 (place b 22 (place off 7 0x18)))
  | .brNe a b off => some (place a 27 (place b 22 (place off 7 0x80018)))
  | .brLt a b off => some (place a 27 (place b 22 (place off 7 0x100018)))
  | .brGe a b off => some (place a 27 (place b 22 (place off 7 0x180018)))
  | .brLtn a b off => some (place a 27 (place b 22 (place off 7 0x200018)))
  | .brGen a b off => some (place a 27 (place b 22 (place off 7 0x280018)))
  | .jal d off => some (place d 27 (place off 7 0x19))
  | .jalr d a imm => some (place d 27 (place a 22 (place imm 7 0x1A)))
  | .loop a ind cvb cvg => some (place a 27 (place ind 19 (place cvb 13 (place cvg 11 0x1B))))
  | .nextPerElement a => some (place a 20 0x1E)
  | .nextUniform s => some (place s 15 0x9E)
  | .vsetvl d a b => some (place d 27 (place a 22 (place b 17 0x20)))
  | .vcfg d value => some (place d 27 (place value 7 0x22))
  | .vtag d code => some (place d 26 (place code 15 0x4021))
  | .vadd d a b rm mk => some (place d 26 (place a 20 (place b 14 (place rm 11 (placeBit mk 10 0x24)))))
  | .vaddSub d a b rm mk => some (place d 26 (place a 20 (place b 14 (place rm 11 (placeBit mk 10 0xA4)))))
  | .vaddRsub d a b rm mk => some (place d 26 (place a 20 (place b 14 (place rm 11 (placeBit mk 10 0x124)))))
  | .vaddAdds d a b rm mk => some (place d 26 (place a 20 (place b 14 (place rm 11 (placeBit mk 10 0x1A4)))))
  | .vaddSubs d a b rm mk => some (place d 26 (place a 20 (place b 14 (place rm 11 (placeBit mk 10 0x224)))))
  | .vaddAbsd d a b rm mk => some (place d 26 (place a 20 (place b 14 (place rm 11 (placeBit mk 10 0x2A4)))))
  | .vmul d a b rm mk => some (place d 26 (place a 20 (place b 14 (place rm 11 (placeBit mk 10 0x25)))))
  | .vmulMulh d a b rm mk => some (place d 26 (place a 20 (place b 14 (place rm 11 (placeBit mk 10 0xA5)))))
  | .vmulMulhn d a b rm mk => some (place d 26 (place a 20 (place b 14 (place rm 11 (placeBit mk 10 0x125)))))
  | .vmulDiv d a b rm mk => some (place d 26 (place a 20 (place b 14 (place rm 11 (placeBit mk 10 0x1A5)))))
  | .vmulRem d a b rm mk => some (place d 26 (place a 20 (place b 14 (place rm 11 (placeBit mk 10 0x225)))))
  | .vfma d a b rm mk => some (place d 26 (place a 20 (place b 14 (place rm 11 (placeBit mk 10 0x26)))))
  | .vfmaFms d a b rm mk => some (place d 26 (place a 20 (place b 14 (place rm 11 (placeBit mk 10 0xA6)))))
  | .vfmaFnma d a b rm mk => some (place d 26 (place a 20 (place b 14 (place rm 11 (placeBit mk 10 0x126)))))
  | .vfmaFnms d a b rm mk => some (place d 26 (place a 20 (place b 14 (place rm 11 (placeBit mk 10 0x1A6)))))
  | .vminmaxMin d a b rm mk => some (place d 26 (place a 20 (place b 14 (place rm 11 (placeBit mk 10 0x27)))))
  | .vminmaxMax d a b rm mk => some (place d 26 (place a 20 (place b 14 (place rm 11 (placeBit mk 10 0xA7)))))
  | .vminmaxMinnum d a b rm mk => some (place d 26 (place a 20 (place b 14 (place rm 11 (placeBit mk 10 0x127)))))
  | .vminmaxMaxnum d a b rm mk => some (place d 26 (place a 20 (place b 14 (place rm 11 (placeBit mk 10 0x1A7)))))
  | .vlogicAnd d a b rm mk => some (place d 26 (place a 20 (place b 14 (place rm 11 (placeBit mk 10 0x28)))))
  | .vlogicOr d a b rm mk => some (place d 26 (place a 20 (place b 14 (place rm 11 (placeBit mk 10 0xA8)))))
  | .vlogicXor d a b rm mk => some (place d 26 (place a 20 (place b 14 (place rm 11 (placeBit mk 10 0x128)))))
  | .vlogicAndn d a b rm mk => some (place d 26 (place a 20 (place b 14 (place rm 11 (placeBit mk 10 0x1A8)))))
  | .vlogicSll d a b rm mk => some (place d 26 (place a 20 (place b 14 (place rm 11 (placeBit mk 10 0x228)))))
  | .vlogicSrl d a b rm mk => some (place d 26 (place a 20 (place b 14 (place rm 11 (placeBit mk 10 0x2A8)))))
  | .vlogicSra d a b rm mk => some (place d 26 (place a 20 (place b 14 (place rm 11 (placeBit mk 10 0x328)))))
  | .vcmpEq d a b rm mk => some (place d 26 (place a 20 (place b 14 (place rm 11 (placeBit mk 10 0x29)))))
  | .vcmpNe d a b rm mk => some (place d 26 (place a 20 (place b 14 (place rm 11 (placeBit mk 10 0xA9)))))
  | .vcmpLt d a b rm mk => some (place d 26 (place a 20 (place b 14 (place rm 11 (placeBit mk 10 0x129)))))
  | .vcmpLe d a b rm mk => some (place d 26 (place a 20 (place b 14 (place rm 11 (placeBit mk 10 0x1A9)))))
  | .vcmpGt d a b rm mk => some (place d 26 (place a 20 (place b 14 (place rm 11 (placeBit mk 10 0x229)))))
  | .vcmpGe d a b rm mk => some (place d 26 (place a 20 (place b 14 (place rm 11 (placeBit mk 10 0x2A9)))))
  | .vcmpUnord d a b rm mk => some (place d 26 (place a 20 (place b 14 (place rm 11 (placeBit mk 10 0x329)))))
  | .vsel d a b rm => some (place d 26 (place a 20 (place b 14 (place rm 11 0x42A))))
  | .vcvt d a rm mk => some (place d 26 (place a 20 (place rm 11 (placeBit mk 10 0x2B))))
  | .vcvtSat d a rm mk => some (place d 26 (place a 20 (place rm 11 (placeBit mk 10 0xAB))))
  | .vcvtBlk d a b rm mk => some (place d 26 (place a 20 (place b 14 (place rm 11 (placeBit mk 10 0x12B)))))
  | .vcvtScale d a fmt rm mk => some (place d 26 (place a 20 (place fmt 14 (place rm 11 (placeBit mk 10 0x1AB)))))
  | .vmodAddm d a b rm mk => some (place d 26 (place a 20 (place b 14 (place rm 11 (placeBit mk 10 0x2C)))))
  | .vmodSubm d a b rm mk => some (place d 26 (place a 20 (place b 14 (place rm 11 (placeBit mk 10 0xAC)))))
  | .vmodMulm d a b rm mk => some (place d 26 (place a 20 (place b 14 (place rm 11 (placeBit mk 10 0x12C)))))
  | .vmodMacm d a b rm mk => some (place d 26 (place a 20 (place b 14 (place rm 11 (placeBit mk 10 0x1AC)))))
  | .vxAdd d a s sel rm mk => some (place d 26 (place a 20 (place s 15 (placeBit sel 14 (place rm 11 (placeBit mk 10 0x2D))))))
  | .vxSub d a s sel rm mk => some (place d 26 (place a 20 (place s 15 (placeBit sel 14 (place rm 11 (placeBit mk 10 0xAD))))))
  | .vxMul d a s sel rm mk => some (place d 26 (place a 20 (place s 15 (placeBit sel 14 (place rm 11 (placeBit mk 10 0x12D))))))
  | .vxMin d a s sel rm mk => some (place d 26 (place a 20 (place s 15 (placeBit sel 14 (place rm 11 (placeBit mk 10 0x1AD))))))
  | .vxMax d a s sel rm mk => some (place d 26 (place a 20 (place s 15 (placeBit sel 14 (place rm 11 (placeBit mk 10 0x22D))))))
  | .vxAnd d a s sel rm mk => some (place d 26 (place a 20 (place s 15 (placeBit sel 14 (place rm 11 (placeBit mk 10 0x2AD))))))
  | .vxOr d a s sel rm mk => some (place d 26 (place a 20 (place s 15 (placeBit sel 14 (place rm 11 (placeBit mk 10 0x32D))))))
  | .vxFma d a s sel rm mk => some (place d 26 (place a 20 (place s 15 (placeBit sel 14 (place rm 11 (placeBit mk 10 0x3AD))))))
  | .vsfuExp2 d a rm mk => some (place d 26 (place a 20 (place rm 11 (placeBit mk 10 0x2E))))
  | .vsfuLog2 d a rm mk => some (place d 26 (place a 20 (place rm 11 (placeBit mk 10 0xAE))))
  | .vsfuRcp d a rm mk => some (place d 26 (place a 20 (place rm 11 (placeBit mk 10 0x12E))))
  | .vsfuRsq d a rm mk => some (place d 26 (place a 20 (place rm 11 (placeBit mk 10 0x1AE))))
  | .vsfuSqrt d a rm mk => some (place d 26 (place a 20 (place rm 11 (placeBit mk 10 0x22E))))
  | .vsfuRcpstep d a b rm mk => some (place d 26 (place a 20 (place b 14 (place rm 11 (placeBit mk 10 0x2AE)))))
  | .vsfuRsqstep d a b rm mk => some (place d 26 (place a 20 (place b 14 (place rm 11 (placeBit mk 10 0x32E)))))
  | .vsmaxUpd d a b rm mk => some (place d 26 (place a 20 (place b 14 (place rm 11 (placeBit mk 10 0x2F)))))
  | .vsmaxNorm d a b rm mk => some (place d 26 (place a 20 (place b 14 (place rm 11 (placeBit mk 10 0xAF)))))
  | .vredSum d a rm mk => some (place d 26 (place a 20 (place rm 11 (placeBit mk 10 0x30))))
  | .vredMin d a rm mk => some (place d 26 (place a 20 (place rm 11 (placeBit mk 10 0xB0))))
  | .vredMax d a rm mk => some (place d 26 (place a 20 (place rm 11 (placeBit mk 10 0x130))))
  | .vredAnd d a rm mk => some (place d 26 (place a 20 (place rm 11 (placeBit mk 10 0x1B0))))
  | .vredOr d a rm mk => some (place d 26 (place a 20 (place rm 11 (placeBit mk 10 0x230))))
  | .vredXor d a rm mk => some (place d 26 (place a 20 (place rm 11 (placeBit mk 10 0x2B0))))
  | .vredWsum d a b rm mk => some (place d 26 (place a 20 (place b 14 (place rm 11 (placeBit mk 10 0x330)))))
  | .vslideUp d a s sel rm mk => some (place d 26 (place a 20 (place s 15 (placeBit sel 14 (place rm 11 (placeBit mk 10 0x31))))))
  | .vslideDown d a s sel rm mk => some (place d 26 (place a 20 (place s 15 (placeBit sel 14 (place rm 11 (placeBit mk 10 0xB1))))))
  | .vslideRot d a s sel rm mk => some (place d 26 (place a 20 (place s 15 (placeBit sel 14 (place rm 11 (placeBit mk 10 0x131))))))
  | .vperm d a b rm mk => some (place d 26 (place a 20 (place b 14 (place rm 11 (placeBit mk 10 0x32)))))
  | .vcompCompress d a rm => some (place d 26 (place a 20 (place rm 11 0x433)))
  | .vcompExpand d a rm => some (place d 26 (place a 20 (place rm 11 0x4B3)))
  | .vcompIota d a rm mk => some (place d 26 (place a 20 (place rm 11 (placeBit mk 10 0x133))))
  | .vcompCidx d a rm => some (place d 26 (place a 20 (place rm 11 0x1B3)))
  | .vbflyH d a dist => some (place d 26 (place a 20 (place dist 10 0x34)))
  | .vbflyHF d a dist => some (place d 26 (place a 20 (place dist 10 0xB4)))
  | .vbflyCt d a b dist => some (place d 26 (place a 20 (place b 14 (place dist 10 0x134))))
  | .vbflyGs d a b dist => some (place d 26 (place a 20 (place b 14 (place dist 10 0x1B4))))
  | .vdecomp d a s sel rm mk lvl => some (place d 26 (place a 20 (place s 15 (placeBit sel 14 (place rm 11 (placeBit mk 10 (place lvl 7 0x35)))))))
  | .vmv d a rm mk => some (place d 26 (place a 20 (place rm 11 (placeBit mk 10 0x36))))
  | .vmvBcast d s sel rm mk => some (place d 26 (place s 15 (placeBit sel 14 (place rm 11 (placeBit mk 10 0xB6)))))
  | .vmvTox s a rm => some (place s 15 (place a 20 (place rm 11 0x136)))
  | .vmvFromx d s sel rm mk => some (place d 26 (place s 15 (placeBit sel 14 (place rm 11 (placeBit mk 10 0x1B6)))))
  | .vmvWid d rm mk => some (place d 26 (place rm 11 (placeBit mk 10 0x236)))
  | .ehistAcc a bank rm mk => some (place a 20 (place bank 15 (place rm 11 (placeBit mk 10 0x4037))))
  | .ehistRead d bank rm => some (place d 26 (place bank 15 (place rm 11 0x40B7)))
  | .ehistClr bank rm => some (place bank 15 (place rm 11 0x4137))
  | .mlogAnd d a b => some (place d 28 (place a 24 (place b 20 0x38)))
  | .mlogOr d a b => some (place d 28 (place a 24 (place b 20 0x4038)))
  | .mlogXor d a b => some (place d 28 (place a 24 (place b 20 0x8038)))
  | .mlogAndn d a b => some (place d 28 (place a 24 (place b 20 0xC038)))
  | .mlogOrn d a b => some (place d 28 (place a 24 (place b 20 0x10038)))
  | .mlogXnor d a b => some (place d 28 (place a 24 (place b 20 0x14038)))
  | .mlogNot d a => some (place d 28 (place a 24 0x18038))
  | .mcnt s a => some (place s 9 (place a 24 0x39))
  | .mcntFirst s a => some (place s 9 (place a 24 0x4039))
  | .msetvl s a => some (place s 9 (place a 24 0x3A))
  | .mmv d a => some (place d 28 (place a 24 0x3B))
  | .mmvSet d => some (place d 28 0x403B)
  | .mmvClr d => some (place d 28 0x803B)
  | .vld t b mk bw bp => some (place t 26 (place b 21 (placeBit mk 11 (placeBit bw 10 (placeBit bp 9 (placeNat (memQueue bw) 7 0x40))))))
  | .vldS t b s mk bw bp => some (place t 26 (place b 21 (place s 15 (placeBit mk 11 (placeBit bw 10 (placeBit bp 9 (placeNat (memQueue bw) 7 0x1040)))))))
  | .vldX t b ix mk bw bp => some (place t 26 (place b 21 (place ix 15 (placeBit mk 11 (placeBit bw 10 (placeBit bp 9 (placeNat (memQueue bw) 7 0x2040)))))))
  | .vst t b mk bw bp => some (place t 26 (place b 21 (placeBit mk 11 (placeBit bw 10 (placeBit bp 9 (placeNat (memQueue bw) 7 0x41))))))
  | .vstS t b s mk bw bp => some (place t 26 (place b 21 (place s 15 (placeBit mk 11 (placeBit bw 10 (placeBit bp 9 (placeNat (memQueue bw) 7 0x1041)))))))
  | .vstX t b ix mk bw bp => some (place t 26 (place b 21 (place ix 15 (placeBit mk 11 (placeBit bw 10 (placeBit bp 9 (placeNat (memQueue bw) 7 0x2041)))))))
  | .vamoAdd t b ix mk bw bp => some (place t 26 (place b 21 (place ix 15 (placeBit mk 11 (placeBit bw 10 (placeBit bp 9 (placeNat (memQueue bw) 7 0x42)))))))
  | .vamoAnd t b ix mk bw bp => some (place t 26 (place b 21 (place ix 15 (placeBit mk 11 (placeBit bw 10 (placeBit bp 9 (placeNat (memQueue bw) 7 0x1042)))))))
  | .vamoOr t b ix mk bw bp => some (place t 26 (place b 21 (place ix 15 (placeBit mk 11 (placeBit bw 10 (placeBit bp 9 (placeNat (memQueue bw) 7 0x2042)))))))
  | .vamoXor t b ix mk bw bp => some (place t 26 (place b 21 (place ix 15 (placeBit mk 11 (placeBit bw 10 (placeBit bp 9 (placeNat (memQueue bw) 7 0x3042)))))))
  | .vamoMin t b ix mk bw bp => some (place t 26 (place b 21 (place ix 15 (placeBit mk 11 (placeBit bw 10 (placeBit bp 9 (placeNat (memQueue bw) 7 0x4042)))))))
  | .vamoMax t b ix mk bw bp => some (place t 26 (place b 21 (place ix 15 (placeBit mk 11 (placeBit bw 10 (placeBit bp 9 (placeNat (memQueue bw) 7 0x5042)))))))
  | .vamoSwap t b ix mk bw bp => some (place t 26 (place b 21 (place ix 15 (placeBit mk 11 (placeBit bw 10 (placeBit bp 9 (placeNat (memQueue bw) 7 0x6042)))))))
  | .mld t b mk bw bp => some (place t 26 (place b 21 (placeBit mk 11 (placeBit bw 10 (placeBit bp 9 (placeNat (memQueue bw) 7 0x43))))))
  | .mst t b mk bw bp => some (place t 26 (place b 21 (placeBit mk 11 (placeBit bw 10 (placeBit bp 9 (placeNat (memQueue bw) 7 0x44))))))
  | .sbind k b => some (placeNat (48 + k.toNat) 26 (place b 21 0x45))
  | .sunbind k => some (placeNat (48 + k.toNat) 26 0x46)
  | .btnWait q => some (place q 7 0x447)
  | .btnPost q => some (place q 7 0x247)
  | .btnWaitPost q => some (place q 7 0x647)
  | .tmma c mK bw bp => some (place c 27 (place mK 23 (placeBit bw 10 (placeBit bp 9 (placeNat (jobQueue bw bp) 7 0x48)))))
  | .tcvt c bw bp => some (place c 27 (placeBit bw 10 (placeBit bp 9 (placeNat (jobQueue bw bp) 7 0x7800049))))
  | .tcopy c bw bp => some (place c 27 (placeBit bw 10 (placeBit bp 9 (placeNat (jobQueue bw bp) 7 0x780004A))))
  | .jstat d a => some (place d 27 (place a 22 0x4B))
  | .cld c a => some (place c 27 (place a 22 0x50))
  | .cst c a => some (place c 27 (place a 22 0x51))
  | .cadd d a b => some (place d 28 (place a 24 (place b 20 0x52)))
  | .csub d a b => some (place d 28 (place a 24 (place b 20 0xD2)))
  | .cneg d a => some (place d 28 (place a 24 0x152))
  | .cmuli d a imm => some (place d 28 (place a 24 (place imm 12 0x1D2)))
  | .caddp d a imm => some (place d 28 (place a 24 (place imm 12 0x252)))
  | .cmov d a => some (place d 28 (place a 24 0x2D2))
  | .cmac d a imm => some (place d 28 (place a 24 (place imm 12 0x352)))
  | .crfn d a t => some (place d 28 (place a 24 (place t 12 0x53)))
  | .tld t a => some (place t 27 (place a 22 0x54))
  | .kpassOpen d a => some (place d 27 (place a 22 0x55))
  | .kpassJoin d a b => some (place d 27 (place a 22 (place b 17 0xD5)))
  | .kpassRun d a b => some (place d 27 (place a 22 (place b 17 0x155)))
  | .kpassAbort d a => some (place d 27 (place a 22 0x1D5))
  | .kpassStatus d a => some (place d 27 (place a 22 0x255))
  | .cinfo d c sel => some (place d 27 (place c 22 (place sel 7 0x56)))
  | .hurdleArrive d a b scope => some (place d 27 (place a 22 (place b 17 (place scope 8 0x58))))
  | .hurdleWait d a b scope => some (place d 27 (place a 22 (place b 17 (place scope 8 0x2058))))
  | .hurdleAw d a b scope => some (place d 27 (place a 22 (place b 17 (place scope 8 0x4058))))
  | .hurdleInit d a b scope => some (place d 27 (place a 22 (place b 17 (place scope 8 0x6058))))
  | .qpush d a b scope => some (place d 27 (place a 22 (place b 17 (place scope 8 0x59))))
  | .qpop d a b scope => some (place d 27 (place a 22 (place b 17 (place scope 8 0x2059))))
  | .qpeek d a b scope => some (place d 27 (place a 22 (place b 17 (place scope 8 0x4059))))
  | .wmarkPub d a b scope => some (place d 27 (place a 22 (place b 17 (place scope 8 0x5A))))
  | .wmarkBind d a scope => some (place d 27 (place a 22 (place scope 8 0x205A)))
  | .wmarkUnbind a => some (place a 22 0x405A)
  | .pubv d a b => some (place d 27 (place a 22 (place b 17 0x5B)))
  | .pubf d a => some (place d 27 (place a 22 0x205B))
  | .stopr d a => some (place d 27 (place a 22 0x405B))
  | .refchk d a => some (place d 27 (place a 22 0x605B))
  | .refq d a b => some (place d 27 (place a 22 (place b 17 0x805B)))
  | .viewNew hd s t => some (place hd 28 (place s 19 (place t 14 0x5C)))
  | .viewNarrow ha s t => some (place ha 24 (place s 19 (place t 14 0x85C)))
  | .viewSplit hd ha s => some (place hd 28 (place ha 24 (place s 19 0x105C)))
  | .viewDup hd ha => some (place hd 28 (place ha 24 0x185C))
  | .viewDrop ha => some (place ha 24 0x205C)
  | .viewQuery ha s t => some (place ha 24 (place s 19 (place t 14 0x285C)))
  | .viewId ha s => some (place ha 24 (place s 19 0x1000285C))
  | .viewTake ha s => some (place ha 24 (place s 19 0x2000285C))
  | .launch d a => some (place d 27 (place a 22 0x5D))
  | .launchInd d a => some (place d 27 (place a 22 0xDD))
  | .csrr d csr => some (place d 27 (place csr 8 0x60))
  | .csrw d a csr => some (place d 27 (place a 22 (place csr 8 0x100060)))
  | .csrs d a csr => some (place d 27 (place a 22 (place csr 8 0x200060)))
  | .csrc d a csr => some (place d 27 (place a 22 (place csr 8 0x300060)))
  | .trap code => some (place code 7 0x61)
  | .bkpt code => some (place code 7 0x63)
  | .trace a code => some (place a 22 (place code 7 0x64))
  | .wcall code => some (place code 7 0x66)
  | .tlbiAs a => some (place a 22 0x67)
  | .tlbiVa a b => some (place a 22 (place b 17 0xE7))
  | .lapend => some (0x1C)
  | .lapexit => some (0x1D)
  | .yield => some (0x1F)
  | .eret => some (0x62)
  | .wfe => some (0x65)
  | .tlbiAll => some (0x167)
  | .yieldSwitch => none
  | .clusterScrubDone => none
  | .shootdownAck => none
  | .stopAtPointerPair => none
  | .pendingFaultTake => none
  | .vectorStart => none
  | .vectorRetire => none
  | .worldSwitch => none
  | .witnessCheck => none
  | .streamFill => none
  | .streamDrain => none
  | .deadlockProbe => none
  | .probeReturn => none
  | .jobStart => none
  | .jobEnd => none
  | .stagedInputIssue => none
  | .refreshStep => none
  | .sliceDelivery => none
  | .passEnd => none
  | .passFault => none
  | .lapDispatch => none
  | .poolAged => none
  | .poolOverdue => none
  | .admissionDecision => none
  | .predecessorsComplete => none
  | .launchPreempt => none
  | .contextSave => none
  | .contextRestore => none
  | .launchOverrunStop => none
  | .deadlineStop => none
  | .launchComplete => none
  | .hurdleWake => none
  | .hurdleRecheck => none
  | .hurdleWaitTimeout => none
  | .wfeWake => none
  | .wfeTimeout => none
  | .roundStart => none
  | .roundStop => none
  | .roundEnd => none
  | .recordSettle => none
  | .wmarkCopyUpdate => none
  | .cellFree => none
  | .sectorRead => none
  | .domainAccessArrival => none
  | .domainTimeout => none
  | .traceTriggerFire => none
  | .traceMarkerSend => none
  | .traceMarkerReceive => none
  | .clockGate => none
  | .enterRetention => none
  | .enterOff => none
  | .clusterWake => none
  | .monitorRefresh => none
  | .voltageReset => none
  | .dieReset => none
  | .packageReset => none
  | .spdmGetVersion => none
  | .spdmGetCapabilities => none
  | .spdmNegotiateAlgorithms => none
  | .spdmGetDigests => none
  | .spdmGetCertificate => none
  | .spdmChallenge => none
  | .spdmGetMeasurements => none
  | .spdmKeyExchange => none
  | .spdmFinish => none
  | .unsupportedRequest => none
  | .recoveryFrame => none
  | .bind => none
  | .write => none
  | .read => none
  | .launchCommand => none
  | .status => none
  | .lock => none
  | .unlock => none
  | .lockLeaseExpiry => none
  | .domainSetRoute => none
  | .domainSetExport => none
  | .quiesce => none
  | .dump => none
  | .restore => none
  | .illegalWord => none
  | .fetchFault => none
  | .domainResponse => none
  | .refusedOptionPacket => none
  | .unlistedOpcode => none
  | .pageReencryptionDone => none

end Sys2Proof
end

