-- ==== Sys2Proof/Machine/Maps.lean ====
section
/-! DEFINITION. Sparse tables: finding, putting and removing an entry, and tables whose unlisted entries hold a default
value. A table lists its keys in ascending order, each once; one with a default lists no entry that equals it. -/

namespace Sys2Proof.Machine

variable {α : Type}

/-- The entry of a key. -/
def find? : SMap α → Nat → Option α
  | [], _ => none
  | (j, w) :: r, k => if j = k then some w else find? r k

/-- The table with an entry put at its place. -/
def put : SMap α → Nat → α → SMap α
  | [], k, v => [(k, v)]
  | (j, w) :: r, k, v => if k < j then (k, v) :: (j, w) :: r else if k = j then (k, v) :: r else (j, w) :: put r k v

/-- The table without a key. -/
def remove : SMap α → Nat → SMap α
  | [], _ => []
  | (j, w) :: r, k => if j = k then remove r k else (j, w) :: remove r k

/-- The value of a key in a table with default d. -/
def get (d : α) (m : SMap α) (k : Nat) : α :=
  match find? m k with
  | some v => v
  | none => d

/-- The table with default d in which a key holds v. -/
def set [DecidableEq α] (d : α) (m : SMap α) (k : Nat) (v : α) : SMap α :=
  if v = d then remove m k else put m k v

/-- The table without the keys of [lo, hi). -/
def removeRange : SMap α → Nat → Nat → SMap α
  | [], _, _ => []
  | (j, w) :: r, lo, hi => if lo ≤ j ∧ j < hi then removeRange r lo hi else (j, w) :: removeRange r lo hi

/-- The numbers lo, lo + 1, … of which there are n. -/
def span : Nat → Nat → List Nat
  | _, 0 => []
  | lo, n + 1 => lo :: span (lo + 1) n

/-- The table in which a function gives what stands at the n keys from lo on. -/
def putRange (m : SMap α) (lo n : Nat) (f : Nat → Option α) : SMap α :=
  m.filter (fun e => Nat.blt e.1 lo) ++ (span lo n).filterMap (fun k => (f k).map (fun v => (k, v))) ++
    m.filter (fun e => Nat.ble (lo + n) e.1)

/-- The keys of a table, ascending. -/
def keys (m : SMap α) : List Nat := m.map Prod.fst

/-- The keys of a table from lo on ascend strictly. -/
def ascending : Nat → SMap α → Bool
  | _, [] => true
  | lo, (j, _) :: r => lo ≤ j && ascending (j + 1) r

/-- The form of a table with default d: keys ascend strictly and no entry is the default. -/
def tableWf [DecidableEq α] (d : α) (m : SMap α) : Bool := ascending 0 m && m.all (fun e => e.2 != d)

/-- The number that a list of options first gives. -/
def firstSome {β : Type} : List α → (α → Option β) → Option β
  | [], _ => none
  | a :: r, f => match f a with
    | some b => some b
    | none => firstSome r f

end Sys2Proof.Machine
end

