-- ==== Sys2Proof/Machine/Memory.lean ====
section
/-! DEFINITION. The bytes of the module's memory and scratchpads in one list, little-endian access to them (R4), and the
keys by which the list names physical addresses (R331) and scratchpad offsets (R192). -/

namespace Sys2Proof.Machine

/-- The list of memory, in its canonical form: addresses ascend strictly and no listed byte is zero. -/
abbrev Memory := List Host.Cell

/-- What an unlisted byte reads as (DESIGN CHOICE, unsafe: log 2). -/
def unlisted : Byte := 0

/-- The form every memory operation keeps. -/
def Memory.wf (m : Memory) : Bool := tableWf unlisted m

/-- The byte at a key. -/
def readByte (m : Memory) (a : Nat) : Byte := get unlisted m a

/-- Memory with one byte stored. -/
def writeByte (m : Memory) (a : Nat) (b : Byte) : Memory := set unlisted m a b

/-- The n bytes from a key on. -/
def readBytes (m : Memory) (a : Nat) : Nat → List Byte
  | 0 => []
  | n + 1 => readByte m a :: readBytes m (a + 1) n

/-- Memory with bytes stored from a key on. -/
def writeBytes (m : Memory) (a : Nat) : List Byte → Memory
  | [] => m
  | b :: r => writeBytes (writeByte m a b) (a + 1) r

/-- The number of a list of bytes, the least significant first (R4). -/
def bytesNat : List Byte → Nat
  | [] => 0
  | b :: r => b.toNat + 256 * bytesNat r

/-- The n bytes of a number, the least significant first (R4). -/
def natBytes : Nat → Nat → List Byte
  | 0, _ => []
  | n + 1, w => BitVec.ofNat 8 w :: natBytes n (w / 256)

/-- The little-endian number in the n bytes from a key on. -/
def readNat (m : Memory) (a n : Nat) : Nat := bytesNat (readBytes m a n)

/-- The 64-bit word at a key. -/
def readWord (m : Memory) (a : Nat) : Word := BitVec.ofNat 64 (readNat m a 8)

/-- Memory with a 64-bit word stored. -/
def writeWord (m : Memory) (a : Nat) (w : Word) : Memory := writeBytes m a (natBytes 8 w.toNat)

/-- Memory with every byte of [lo, hi) as if never written. -/
def clearRange (m : Memory) (lo hi : Nat) : Memory := removeRange m lo hi

/-- Memory in which a function gives the n bytes from a key on. -/
def fillBytes (m : Memory) (a n : Nat) (f : Nat → Byte) : Memory :=
  putRange m a n (fun k => if f k = unlisted then none else some (f k))

/-- The key of a byte of a cluster's scratchpad; the cluster by its number die × 64 + cluster (R192). -/
def padKey (clu off : Nat) : Nat := 2 ^ 56 + clu * 2 ^ 24 + off

/-- Bytes of a scratchpad: 8 MiB (R192). -/
def padSize : Nat := 0x800000

/-- The first offset of the leg scheduler's pool storage (R196). -/
def poolBase : Nat := 0x780000

/-- The physical ranges of the near and the far tier (R331). -/
def inNear (pa : Nat) : Bool := pa < 0x2A00000000
def inFar (pa : Nat) : Bool := 0x10000000000 ≤ pa && pa < 0x1E000000000

/-- Bits [lo + n − 1 : lo] of a number. -/
def bitField (w lo n : Nat) : Nat := w / 2 ^ lo % 2 ^ n

/-- The field of a word. -/
def field (w : Word) (lo n : Nat) : Nat := bitField w.toNat lo n

/-- Bit k of a word. -/
def flagAt (w : Word) (k : Nat) : Bool := w.getLsbD k

/-- The integer that the low n bits of a number stand for in two's complement. -/
def signed (n w : Nat) : Int := if w % 2 ^ n < 2 ^ (n - 1) then (w % 2 ^ n : Nat) else ((w % 2 ^ n : Nat) : Int) - 2 ^ n

/-- The low n bits of an integer. -/
def wrap (n : Nat) (z : Int) : Nat := (z % (2 ^ n : Int)).toNat

end Sys2Proof.Machine
end

