-- ==== Sys2Proof/Machine/State.lean ====
section
/-! DEFINITION. The state of the module as plain data: contexts, cores, clusters, dies, the package and its memory, with
what each holds at reset. Registers the manual gives no reset value hold the value log 1 names. -/

namespace Sys2Proof.Machine

/-- The number that an element's bits stand for: not a number (signalling or quiet), an infinity, or an exact
fraction num / den with a sign; a zero keeps its sign (R55–R57). -/
inductive Val where
  | nan (signalling : Bool)
  | inf (neg : Bool)
  | fin (neg : Bool) (num den : Nat)
  deriving DecidableEq, Repr

/-- Privilege levels of a front (R29, R137). -/
inductive Level where
  | u
  | k
  | h
  | m
  deriving DecidableEq, Repr

/-- Power states of a cluster (R353). -/
inductive Power where
  | on
  | gated
  | retention
  | off
  deriving DecidableEq, Repr

/-- Whether a context holds a lap: free, running one, stopped by the debugger, halted by a double fault (R138, R355), or,
of what a saved lap has left, saved (R90, R276). -/
inductive Occ where
  | free
  | running
  | halted
  | dead
  | saved
  deriving DecidableEq, Repr

/-- The registers of R35; entry n of a table is register n, a register not listed holds zero. `hb` lists counter j of
bank b at 68 b + j. -/
structure Regs where
  x   : SMap Word
  v   : SMap VReg
  m   : SMap VReg
  c   : SMap (BitVec 256)
  t   : SMap (BitVec 576)
  h   : SMap Word
  hb  : SMap (BitVec 32)
  tag : SMap (BitVec 5)
  deriving DecidableEq, Repr

/-- The writable user CSRs of R49 and the counters (R37, R39, R43, R47). -/
structure Csrs where
  vl      : Nat
  vtype   : BitVec 17
  fflags  : BitVec 5
  frm     : BitVec 3
  es      : Nat
  mq      : Word
  srkey   : Word
  srep    : Word
  legno   : BitVec 16
  retired : Word
  slips   : Word
  slipv   : Word
  slipm   : Word
  slipi   : Word
  istep   : SMap Word
  wfield  : BitVec 3
  deriving DecidableEq, Repr

/-- The trap CSRs of one handling level (R137). -/
structure TrapRegs where
  vec     : Word
  cause   : Word
  val     : Word
  pc      : Word
  cp      : Word
  es      : BitVec 15
  stat    : Word
  scratch : Word
  dump    : Word
  deriving DecidableEq, Repr

/-- The single loop state of a context (R81, R82); lapno and laprem are the CSRs of R48. -/
structure Loop where
  active : Bool
  start  : Word
  ind    : BitVec 8
  cvb    : BitVec 6
  cvn    : Nat
  lapno  : Nat
  laprem : Nat
  count  : Nat
  deriving DecidableEq, Repr

/-- One entry of a stream queue (R167, R188): the strip's bits, the stream element of its position 0, which positions
are to be written, a fault met while it was filled or drained (code, address, element), and whether it holds bytes that were read from
device-class memory (R174). -/
structure StreamEntry where
  bits  : VReg
  first : Nat
  live  : VReg
  from_ : Nat
  fault : Option (Nat × Word × Nat)
  dev   : Bool
  deriving DecidableEq, Repr

/-- A stream bound to a register v48–v63 (R187, R188). -/
structure Stream where
  base    : Word
  stride  : Word
  count   : Nat
  strip   : Nat
  width   : Nat
  store   : Bool
  device  : Bool
  pos     : Nat
  fill    : Nat
  entries : List StreamEntry
  deriving DecidableEq, Repr

/-- What a lap checkpoint holds (R48, R82, R148): the selected induction registers, vl, the carried group, fflags, es,
lapno, laprem and the trim limit; a dispatch segment holds the whole dispatch state. `pc` is where re-execution starts,
`handler` whether a handler runs there, and `streams` the bindings and the strips that the lap has found (R150, log 6). -/
structure Checkpoint where
  pc      : Word
  level   : Level
  ind     : List (Nat × Word)
  carried : List (Nat × VReg)
  vl      : Nat
  fflags  : BitVec 5
  es      : Nat
  lapno   : Nat
  laprem  : Nat
  trim    : Option Nat
  handler : Bool
  streams : SMap Stream
  whole   : Option (Regs × Csrs)
  deriving DecidableEq, Repr

/-- A register or CSR whose reading and writing R149 tracks. -/
inductive Res where
  | x (n : Nat)
  | v (n : Nat)
  | m (n : Nat)
  | c (n : Nat)
  | t (n : Nat)
  | h (n : Nat)
  | hb (n : Nat)
  | tag (n : Nat)
  | csr (n : Nat)
  deriving DecidableEq, Repr

/-- The lap in progress: checkpoint, lap store buffer (`buf`: by virtual address, which bits of a byte are stored and
their values), rewindability, whether stores still enter the buffer, trim limit, what the lap has read first and
written, the rewinds so far, the poisoned sectors that they met, the lane groups in which its elements have
mismatched, and how many batons its instructions have popped from each queue (R142, R148–R153). -/
structure Lap where
  ckpt       : Option Checkpoint
  rewindable : Bool
  buffering  : Bool
  buf        : SMap (Byte × Byte)
  trim       : Option Nat
  reads      : List Res
  writes     : List Res
  rewinds    : Nat
  poisoned   : List Nat
  missed     : List Nat
  popped     : SMap Nat
  deriving DecidableEq, Repr

/-- The dispatched lap: its launch (0: none), the number of elements, the linear index of element 0, and the linear index and the
work identifier of each dispatched element (R46, R129, R257, R275). -/
structure Work where
  launch : Nat
  nd     : Nat
  l0     : Nat
  lins   : List Nat
  wids   : List Word
  fieldW : List Nat
  extent : List Nat
  round  : Nat
  deriving DecidableEq, Repr

/-- A vector instruction in its decoded form (R26, R138), with its word, what it has done since it began (the flags of its
elements, whether it has popped its baton, whether it has handled the elements below es itself, and whether it waits at es:
R68, R165, R168, R184), and the watermarks its loads stall on (R306). -/
structure VEntry where
  instr  : Instr
  addr   : Word
  vl     : Nat
  es     : Nat
  rm     : BitVec 3
  vtype  : BitVec 17
  tagd   : BitVec 5
  taga   : BitVec 5
  tagb   : BitVec 5
  srkey  : Word
  srep   : BitVec 32
  mq     : Word
  sc0    : Word
  sc1    : Word
  flags  : BitVec 5
  word   : BitVec 32
  popped : Bool
  begun  : Bool
  waits  : Bool
  bound  : List Word
  deriving DecidableEq, Repr

/-- The values a VBFLY.H.f run holds (R126): the register the last H.f names, the tag of the run's first source, the
values by position with the bits of those that every word has copied, the decoded form of the last H.f, and those of all of
its words, which a stop that falls into the run reissues, with the strips that they have popped; and whether the front stands at what
ends the run. -/
structure Held where
  d     : VNum
  tag   : BitVec 5
  vals  : List Val
  raw   : List (Option Nat)
  entry : VEntry
  words : List VEntry
  pops  : List (Nat × StreamEntry)
  ends  : Bool
  deriving DecidableEq, Repr

/-- The source stream of an access that leaves for the domain (R290, R360): the scalar one, that of the queue's memory instructions,
that of a bound register, what a lap store buffer held, which comes from all of them, and the words that the front moves one by one: a
dump, or what a LAUNCH reads (R138, R266). -/
inductive DomainStream where
  | scalar
  | vector
  | bound (r : Nat)
  | buffer
  | dump
  deriving DecidableEq, Repr

/-- The number by which a context keeps what a stream has asked of the domain: that of its register for a bound one. -/
def DomainStream.num : DomainStream → Nat
  | .scalar => 0
  | .vector => 1
  | .buffer => 2
  | .dump => 3
  | .bound r => r

/-- A request of the access engine that waits for its answer, and whether it changes memory (R360). -/
structure DomainAsk where
  req    : Nat
  writes : Bool
  deriving DecidableEq, Repr

/-- An answer that the access engine has still to take, with the access that it answers (R361). -/
structure DomainAnswer where
  va     : Nat
  size   : Nat
  kind   : DomainKind
  result : DomainResult
  deriving DecidableEq, Repr

/-- A fault that is due at a pointer pair: where it was raised, its code and value, whether by WCALL, and its place
among the pending faults (R137, R139). -/
structure Due where
  unit : Bool
  code : Nat
  val  : Word
  call : Bool
  slot : Option Nat
  deriving DecidableEq, Repr

/-- A stop that has been raised and waits: for a page that is being re-encrypted, for appended store entries that perform, or, when
its dump has been written, for the domain to take it (R138, R190, R340, R361). -/
structure StopWait where
  due     : Option Due
  written : Bool
  deriving DecidableEq, Repr

/-- A halt that the debugger has asked for and that has still to take effect: its event code, and the cluster whose request it
answers (R350, R355, R356). -/
structure HaltAsk where
  code  : Nat
  asker : Option Nat
  deriving DecidableEq, Repr

/-- What a context is parked on (R161, R249): nothing; a hurdle with the phase it waits to leave, the cycle at which its
bound passes and the register that receives the result; or WFE with the cycle at which it ends. -/
inductive Park where
  | none
  | hurdle (addr : Word) (phase : Nat) (until_ : Nat) (d : XReg)
  | wfe (until_ : Nat) (woken : Bool)
  deriving DecidableEq, Repr

/-- A watermark binding of a context with its copy of the mark, and the mark that publishes have sent to it (R306, R307). -/
structure MarkBind where
  obj   : Word
  base  : Nat
  len   : Nat
  mark  : Nat
  sent  : Nat
  deriving DecidableEq, Repr

/-- A fault that waits for the context's next pointer pair, with the number of the job that raised it, by which jobs are
ordered as they were accepted (R139). -/
structure PendFault where
  code  : Nat
  val   : Word
  job   : Bool
  order : Nat
  deriving DecidableEq, Repr

/-- What a blocked instruction waits on (R169). -/
inductive WaitOn where
  | batonEmpty (q : Nat)
  | batonFull (q : Nat)
  | loadEmpty (k : Nat)
  | storeFull (k : Nat)
  deriving DecidableEq, Repr

/-- A blocked wait, the cycle it is timed from, and its probes (R169). -/
structure Wait where
  on       : WaitOn
  since    : Nat
  returned : Nat
  inFlight : Bool
  deriving DecidableEq, Repr

/-- What the front of a context waits for while its instruction stands unfinished at a die unit: the answer of an
admission, or a shootdown (R266, R327); or for the domain, with whether the access acquires and whether it returns data. -/
inductive FrontWait where
  | none
  | admission (d : XReg)
  | shootdown (slot : Nat)
  | domain (req : Nat) (d : XReg) (acquire data : Bool)
  deriving DecidableEq, Repr

/-- A one-shot step-over in force: the level whose tstat.step it has come from, and the element of the resumed instruction at
which a watchpoint does not stop it (R144). -/
structure StepOver where
  level : Level
  elem  : Nat
  deriving DecidableEq, Repr

/-- A vector loop context (R35–R52) with what the fronts, units and handlers keep for it. `waits` lists its blocked waits (R169):
0 that of the front, 1 that of the oldest instruction that has not begun, 2 that of the oldest in execution. `groups` is the
number of lane groups under which its lap runs (R43, R153); `between` says that a lap of its loop has closed and the next is still
to start (R82, R87). `owed` counts by its queue the batons that dumped instructions have popped and that found no room there, for
their reissue (R168, log 15). `waitsData` says that its front stands at an instruction that waits for load data or for a slot of a
die unit, `dumping` that it stands at an ERET whose dump is still to be read (R170), and `readBack` holds, by their addresses, the
words that an ERET or a LAUNCH has read from the load-store domain (R138, R266). `domWait` and `domGot` list by its stream what
has been asked of the domain and what it has answered, `stopping` holds a stop that waits, `halting` a halt that has still to take
effect, and `passed` counts the older instructions that one in execution passes while it retires (R168). -/
structure Ctx where
  regs      : Regs
  csr       : Csrs
  pc        : Word
  level     : Level
  secure    : Bool
  trapK     : TrapRegs
  trapH     : TrapRegs
  trapM     : TrapRegs
  asid      : BitVec 6
  partid    : BitVec 16
  loop      : Loop
  lap       : Lap
  groups    : Nat
  between   : Bool
  work      : Work
  batons    : SMap Nat
  owed      : SMap Nat
  reserve   : List Nat
  streams   : SMap Stream
  vq        : List VEntry
  vx        : List VEntry
  held      : Option Held
  park      : Park
  watched   : Option (Bool × Word)
  marks     : List MarkBind
  pass      : Option Nat
  pend      : List PendFault
  waits     : SMap Wait
  fwait     : FrontWait
  waitsData : Bool
  dumping   : Bool
  readBack  : SMap Word
  domWait   : SMap DomainAsk
  domGot    : SMap DomainAnswer
  stopping  : Option StopWait
  halting   : Option HaltAsk
  passed    : Nat
  yielding  : Bool
  inHandler : Bool
  stepOver  : Option StepOver
  dbgStep   : Bool
  stopReq   : Option Nat
  wps       : List (Nat × Nat)
  pair      : Option (Word × Word)
  occ       : Occ
  since     : Nat
  stops     : Nat
  deriving DecidableEq, Repr

/-- A cached level 4 leaf of the scalar translation buffer (R326). -/
structure StbEntry where
  asid : Nat
  page : Nat
  leaf : Word
  deriving DecidableEq, Repr

/-- A core: lane groups out of service, the witness register, the vector unit's world, the issuer of its last start (0 to 3 a
front, 4 the sequencer) and the cycle of that start (R42, R152, R164, R166), whether the sequencer has won a start that its step
has still to use (R164), and the scalar translation buffer (R326). -/
structure Core where
  retiredGroups : BitVec 8
  witness       : BitVec 32
  pipeSecure    : Bool
  lastIssuer    : Nat
  lastStart     : Nat
  seqWon        : Bool
  otherWaits    : Nat
  stb           : List StbEntry
  deriving DecidableEq, Repr

/-- A byte range of a footprint, ends included, in die-wide form for scratchpad addresses (R199). -/
structure Range where
  lo : Nat
  hi : Nat
  deriving DecidableEq, Repr

/-- What kind of work an accepted job is: of a card, a CARITH or CRFN work item, or a context's part in a key pass's member
(R197, R227, R238). -/
inductive JobKind where
  | tmma
  | tcvt
  | tcopy
  | carith (fn : Nat) (imm : Int)
  | crfn (pass entry : Nat)
  | member (pass : Nat)
  deriving DecidableEq, Repr

/-- An accepted engine job or work item (R197–R201, R209, R211, R227). `card` is the place of its card in the scratchpad and
`cardAt` the address by which it was issued; `doom` holds the state, the code and the address with which a job ends that may not
run but has still to pop its baton (R168); `begun` says that it has left state 1 since it was accepted (R212); `rest` holds the
coefficients that a stopped CARITH has computed and not written (R227). A job that has begun its accesses and waits for one is
`stalled`, with its access in the domain that waits for a response and the response that has come (R217, R361). -/
structure Job where
  id     : Nat
  kind   : JobKind
  card   : Nat
  cardAt : Nat
  image  : BitVec 1024
  issuer : Option Nat
  launch : Nat
  asid   : Nat
  part   : BitVec 16
  secure : Bool
  hyper  : Bool
  state  : Nat
  begun  : Bool
  bw     : Bool
  bp     : Bool
  mask   : Option VReg
  mDim   : Nat
  nDim   : Nat
  rm     : Nat
  srkey  : Word
  srep   : BitVec 32
  reads  : List Range
  writes : List Range
  batchD : BitVec 256
  batchA : BitVec 256
  batchB : BitVec 256
  done   : Nat
  flags  : BitVec 5
  code   : Nat
  faddr  : Nat
  retry  : Nat
  doom   : Option (Nat × Nat × Nat)
  staged : Option (Nat × Nat × Nat)
  rest    : List Nat
  stalled : Bool
  domWait : Option Nat
  domGot  : Option (DomainKind × DomainResult)
  deriving DecidableEq, Repr

/-- An element waiting in a pool: its linear index, WID, carried values by carry register, and the cycle it entered
(R257, R258). -/
structure PoolElem where
  lin     : Nat
  wid     : Word
  carry   : List Word
  entered : Nat
  deriving DecidableEq, Repr

/-- A leg pool of a cluster (R257, R260). -/
structure Pool where
  launch  : Nat
  leg     : Nat
  elems   : List PoolElem
  aged    : Bool
  overdue : Bool
  deriving DecidableEq, Repr

/-- A lap saved by a yield or by preemption (R90, R276). What its context held stands among the contexts under a number of
its own from 4,096 on, which gives the context modulo 4,096. -/
structure Saved where
  num     : Nat
  yielded : Bool
  deriving DecidableEq, Repr

/-- The trace and debug CSRs of a cluster with its trace buffer and trigger sequencer (R349–R351). `hits` lists the
comparators that have matched since the sequencer last looked, each with the context that it matched; `due` lists the
contexts whose match brought a counter to zero, while its action is still to be taken. -/
structure Trace where
  ctl       : BitVec 6
  records   : List (BitVec 128)
  written   : Nat
  discarded : Nat
  lost      : Nat
  lastSync  : Option Nat
  cmpa      : SMap Word
  cmpb      : SMap Word
  cmpk      : SMap Word
  seq       : SMap Word
  ctr       : SMap (BitVec 32)
  armed     : Bool
  hits      : List (Nat × Nat)
  due       : List Nat
  dbgreq    : BitVec 16
  dbgstat   : BitVec 2
  dbgctl    : Bool
  deriving DecidableEq, Repr

/-- A cluster. `since` is the cycle from which its power state or its scrub has held, `idle` the last cycle at which it was
busy. `hist` lists counter j of bank b at 68 b + j; `beHist` gives, by the cycle from which it held, the number of
contexts that best-effort laps have held (R270). -/
structure Cluster where
  part     : BitVec 16
  scrub    : Option (BitVec 16)
  power    : Power
  since    : Nat
  idle     : Nat
  jobs     : List Job
  nextJob  : Nat
  witness  : BitVec 32
  hist     : SMap (BitVec 32)
  pools    : List Pool
  saved    : List Saved
  nextSave : Nat
  beHist   : SMap Nat
  trace    : Trace
  fenced   : Bool
  hot      : Bool
  asking   : Option (Nat × Nat)
  deriving DecidableEq, Repr

/-- A launch of a die from its acceptance to its completion record (R264–R276). `header` and `legs` are the words
read at submission; `retired` and `lost` count the elements of the round that have retired and been killed. -/
structure Launch where
  header   : List Word
  legs     : List (List Word)
  indirect : Bool
  part     : BitVec 16
  asid     : BitVec 6
  secure   : Bool
  admitted    : Nat
  promise  : Nat
  clusters : List Nat
  ready    : Bool
  count    : Nat
  clamp    : Bool
  raw      : Word
  cut      : Nat
  retired  : Nat
  lost     : Nat
  killed   : Nat
  work     : Nat
  near     : Nat
  far      : Nat
  recov    : Nat
  overran  : BitVec 4
  stopped  : Option Nat
  round    : Nat
  roundOn  : Bool
  restop   : Bool
  bound    : List (Nat × Nat)
  versions : SMap Nat
  preempted : List Nat
  byHw     : Bool
  deriving DecidableEq, Repr

/-- A request of a context at the admission controller, with the cycle of its arrival (R266, R267). -/
structure AdmReq where
  at_      : Nat
  ctx      : Nat
  header   : List Word
  legs     : List (List Word)
  indirect : Bool
  part     : BitVec 16
  asid     : BitVec 6
  secure   : Bool
  deriving DecidableEq, Repr

/-- A publication record (R293): state 0 FREE, 1 OPEN, 2 REFINING, 3 STOPPED, 4 SETTLED. -/
structure PubRec where
  version   : Nat
  state     : Nat
  forced    : Bool
  stopreq   : Bool
  ended     : Bool
  slots     : SMap (Word × Nat)
  producer  : Nat
  consumers : List (Nat × Nat × Nat)
  inputs    : List (Nat × Nat)
  deriving DecidableEq, Repr

/-- An entry of a key-pass member (R238). -/
structure PassEntry where
  tab    : BitVec 576
  out    : BitVec 256
  src    : BitVec 256
  ctx    : Nat
  accoff : Nat
  est    : Nat
  deriving DecidableEq, Repr

/-- A member of a key pass: the header and work area of one cluster, with the accumulators of its ciphertexts (R237,
R238, R241). -/
structure Member where
  clu    : Nat
  header : Nat
  work   : Nat
  wlen   : Nat
  ents   : List PassEntry
  accs   : List (List Nat)
  done   : Nat
  cur    : Nat
  state  : Nat
  deriving DecidableEq, Repr

/-- A pass record of a die (R240, R241). -/
structure Pass where
  launch  : Nat
  part    : BitVec 16
  key     : BitVec 16
  pset    : Nat
  state   : Nat
  slice   : Nat
  members : List Member
  joined  : List Nat
  ran     : List Nat
  askers  : List Nat
  deriving DecidableEq, Repr

/-- An address space of a die (R320). -/
structure ASpace where
  part  : BitVec 16
  image : Nat
  root  : Nat
  deriving DecidableEq, Repr

/-- A live view (R310): byte offsets within the arena of a frame. -/
structure View where
  serial : Nat
  part   : BitVec 16
  frame  : Nat
  lo     : Nat
  hi     : Nat
  deriving DecidableEq, Repr

/-- A shootdown that holds a slot (R327–R330): its TLBI and the agents that have acknowledged. -/
structure Shoot where
  ctx   : CtxId
  fn    : Nat
  asid  : Nat
  va    : Word
  acked : List Nat
  deriving DecidableEq, Repr

/-- What a partition holds once for each die (R137). -/
structure PartDie where
  eqbase : Word
  ptvec  : Word
  pdump  : Word
  deriving DecidableEq, Repr

/-- A compute die. `ended` lists by its id the partition and the completion record of the latest launch that has ended under it
(R274, R367); `keys` lists, by partition × 2^16 + key id, the parameter set of each key that is installed in the key
streamer (R226, log 10); `draining` and `covered` list the cells of covered frames that drain, and the frames that have
been covered since their last arena-empty record (R309, R317); `shootAsks` lists the TLBIs that wait for a slot, by the cycle at which
each has reached the die and its context (R330); `refreshed` is the cycle of the last
readings of its monitors, and `voltsOut` since when a voltage monitor has been out of its range (R357, R358). -/
structure Die where
  cycle     : Nat
  launches  : SMap Launch
  ended     : SMap (Nat × List Nat)
  nextId    : Nat
  requests  : List AdmReq
  records   : SMap PubRec
  passes    : SMap Pass
  aspaces   : SMap ASpace
  resident  : SMap Word
  views     : SMap View
  serial    : Nat
  draining  : List (Nat × Nat)
  covered   : List (Nat × Word)
  shoots    : SMap Shoot
  shootAsks : List (Nat × Nat)
  parts     : SMap PartDie
  keys      : SMap Nat
  hasid     : Word
  hasvec    : Word
  hasroot   : Word
  hasctl    : Word
  hsave     : Word
  hcorr     : Word
  tsbase    : Word
  tslen     : Word
  tswr      : Nat
  tsctl     : BitVec 3
  marker    : BitVec 16
  temps     : SMap (BitVec 16)
  volts     : SMap (BitVec 16)
  procs     : SMap (BitVec 16)
  warm      : Bool
  refreshed : Option Nat
  voltsOut  : SMap Nat
  hwAborts  : SMap Nat
  deriving DecidableEq, Repr

/-- A region entry (R335). -/
structure Region where
  base : Word
  lim  : Word
  attr : Word
  deriving DecidableEq, Repr

/-- The key store's entry for a partition (R340, R356): installed keys carry a generation; `policy` is none for a
partition without a debug policy, else its consent to observe and to control. -/
structure KeyRec where
  installed : Bool
  erased    : Bool
  gen       : Nat
  policy    : Option (Bool × Bool)
  deriving DecidableEq, Repr

/-- A command channel (R364, R366, R367). -/
structure Channel where
  id      : BitVec 32
  key     : BitVec 256 := 0
  expect  : Nat
  sent    : Nat
  part    : Option (BitVec 16)
  dead    : Bool
  lastOp  : BitVec 8
  lastSt  : BitVec 8
  lastPay : List Byte
  deriving DecidableEq, Repr

/-- A holder of the management lock (R369). -/
structure LockHold where
  chan   : BitVec 32
  req    : BitVec 16
  until_ : Nat
  deriving DecidableEq, Repr

/-- A response frame or SPDM answer the part has sent (R365, R370). -/
structure Response where
  port    : BitVec 3
  chan    : BitVec 32
  opcode  : BitVec 8
  status  : BitVec 8
  counter : Nat
  payload : List Byte
  deriving DecidableEq, Repr

/-- A domain access that waits for its response at the source (R360, R363), with the launch it is of; `job` gives the cluster and
the number of the engine job whose access it is, and `owner` is the partition of the access. A request that
`waits` has still to leave, until one of its stream to its part that stands before it has been answered (R360); one that is not
`live` is of a lap that has ended, and one of `host` is the command processor's. -/
structure DomainReq where
  id    : Nat
  ctx   : CtxId
  va    : Word
  part  : Nat
  size  : Nat
  sext  : Bool
  d     : XReg
  kind  : DomainKind
  sent  : Nat
  launch : Nat
  owner  : BitVec 16
  job    : Option (Nat × Nat)
  stream : DomainStream
  waits  : Bool
  live   : Bool
  host   : Bool
  deriving DecidableEq, Repr

/-- A WRITE or a READ of the command processor some of whose accesses have left for the domain: its parts in order, each with the
request that it waits for or with its bytes, and whether one has failed (R361, R367). -/
structure HostAsk where
  frame  : Frame
  op     : BitVec 8
  parts  : List (Option Nat × List Byte)
  failed : Bool
  deriving DecidableEq, Repr

/-- A saved image of the part, with the cycle of each die at its quiesce (R371). -/
structure Image where
  pa       : Nat
  saved    : List (Nat × List Saved)
  ctxs     : SMap Ctx
  cells    : List Host.Cell
  pools    : List (Nat × List Pool)
  records  : List (Nat × SMap PubRec)
  views    : List (Nat × SMap View)
  launches : List (Nat × SMap Launch)
  jobs     : List (Nat × List Job)
  passes   : List (Nat × SMap Pass)
  covered  : List (Nat × List (Nat × Word))
  cycles   : SMap Nat
  deriving DecidableEq, Repr

/-- The two I/O dies and what the package holds once (R333–R346, R356, R359–R371). `sectors` lists by its first byte what is wrong
with a sector, or with a scratchpad row, and `seals` the key, by its partition and generation, under which a sector stands that
has been written under another key than that of its region (R338, log 9). `unlocked` says that the security engine has
authenticated an unlock of the debug grants (R356, log 34). `responses` and `answers` list what the part has sent to hosts and,
for their domain accesses, to other parts; `stoppedAt` holds the cycle of each die at the quiesce, `awaited` the QUIESCE commands
and `hostAsks` the other ones whose response is still to come, and `heldBack` the frames of their channels that have come since
(R368, R371). -/
structure Package where
  regions   : SMap Region
  mregsel   : Word
  mregbase  : Word
  mreglim   : Word
  mwsel     : Word
  worlds    : SMap Nat
  mkeycmd   : Word
  reenc     : Option Nat
  keys      : SMap KeyRec
  pageVer   : SMap (BitVec 32)
  sectors   : SMap SectorFinding
  seals     : SMap (BitVec 16 × Nat)
  badScales : List Nat
  plog      : SMap (BitVec 256)
  logCount  : Nat
  hlogsel   : BitVec 13
  mlogsel   : BitVec 13
  hfence    : Word
  dbgauth   : BitVec 5
  unlocked  : Bool
  meas      : SMap (BitVec 512)
  recovery  : Bool
  drops     : SMap Nat
  sessions  : List (BitVec 32)
  nextSess  : Nat
  channels  : List Channel
  lock      : Option LockHold
  dpids     : SMap (BitVec 16)
  routes    : SMap (BitVec 8192)
  targets   : SMap Word
  domReqs   : List DomainReq
  nextReq   : Nat
  cmdLog    : List (BitVec 32 × Word)
  dropped   : Nat
  responses : List Response
  answers   : List (BitVec 13 × DomainResult)
  quiesced  : Bool
  stoppedAt : SMap Nat
  awaited   : List Frame
  hostAsks  : List HostAsk
  heldBack  : List (Instr × Signal)
  images    : List Image
  deriving DecidableEq, Repr

/-- The module. `mem` is every byte of memory and scratchpad (Ops.lean gives the keys). The last seven fields are the model's own
schedule data, not the manual's: whose turn it is, the turns to come, the events and outside inputs to come, the signal of the
event being taken, whether units leave work that could be done at once for their own events, and the number of steps taken, which
selects the free values (log 3, log 4). -/
structure State where
  mem    : List Host.Cell
  ctxs   : SMap Ctx
  cores  : SMap Core
  clus   : SMap Cluster
  dies   : SMap Die
  pkg    : Package
  turn   : Nat
  turns  : List Nat
  agenda : List (Instr × Signal)
  signal : Signal
  defer  : Bool
  steps  : Nat
  deriving DecidableEq, Repr

/-- Why the machine itself stops. -/
inductive Fault where
  /-- Raised by step when `turn` names no context of the module: the model's schedule data are not those of any run of
  the part. Safe: the hardware has no such state. -/
  | noSuchContext
  deriving DecidableEq, Repr

/-- Why an instruction has no meaning. -/
inductive Refusal where
  /-- Raised by exec for an instruction that is not modelled yet. Safe. -/
  | notModelled (mnemonic : String)
  /-- Raised by step for an agenda entry that is an instruction of a front and no event. Safe: the hardware has no
  such input. -/
  | notAnEvent
  deriving DecidableEq, Repr

/-- Registers at reset: all zero (log 1). -/
def Regs.reset : Regs := { x := [], v := [], m := [], c := [], t := [], h := [], hb := [], tag := [] }

/-- User CSRs at reset: the lap-dispatch values of R49 where the table gives one, else log 1. -/
def Csrs.reset : Csrs :=
  { vl := 0, vtype := 0x12C#17, fflags := 0, frm := 0, es := 0, mq := 0xFFFFFFFF00000001#64, srkey := 0, srep := 0,
    legno := 0, retired := 0, slips := 0, slipv := 0, slipm := 0, slipi := 0, istep := [], wfield := 7 }

/-- Trap CSRs at reset (log 1; the values R387 gives at lap dispatch). -/
def TrapRegs.reset : TrapRegs :=
  { vec := 0, cause := 0, val := 0, pc := 0, cp := 0, es := 0, stat := 0, scratch := 0, dump := 0 }

/-- No loop is active (R48). -/
def Loop.none : Loop :=
  { active := false, start := 0, ind := 0, cvb := 0, cvn := 0, lapno := 0, laprem := 0, count := 0 }

/-- No checkpoint and an empty lap store buffer. -/
def Lap.none : Lap :=
  { ckpt := Option.none, rewindable := false, buffering := false, buf := [], trim := Option.none, reads := [],
    writes := [], rewinds := 0, poisoned := [], missed := [], popped := [] }

/-- No dispatched work. -/
def Work.none : Work := { launch := 0, nd := 0, l0 := 0, lins := [], wids := [], fieldW := [], extent := [], round := 0 }

/-- A context at reset: free, at U, in the N world (log 1). -/
def Ctx.reset : Ctx :=
  { regs := Regs.reset, csr := Csrs.reset, pc := 0, level := .u, secure := false, trapK := TrapRegs.reset,
    trapH := TrapRegs.reset, trapM := TrapRegs.reset, asid := 0, partid := 0, loop := Loop.none, lap := Lap.none,
    groups := 8, between := false, work := Work.none, batons := [], owed := [], reserve := [], streams := [], vq := [], vx := [], held := Option.none,
    park := .none, watched := Option.none, marks := [], pass := Option.none, pend := [],
    waits := [], fwait := .none, waitsData := false, dumping := false, readBack := [], domWait := [],
    domGot := [], stopping := Option.none, halting := Option.none, passed := 0, yielding := false, inHandler := false, stepOver := Option.none, dbgStep := false,
    stopReq := Option.none, wps := [], pair := Option.none, occ := .free, since := 0, stops := 0 }

/-- A core at reset: every lane group in service (R153), a nonzero witness register (R152, log 1). -/
def Core.reset : Core :=
  { retiredGroups := 0, witness := 1, pipeSecure := false, lastIssuer := 0, lastStart := 0, seqWon := false, otherWaits := 0, stb := [] }

/-- Trace state at reset (log 1). -/
def Trace.reset : Trace :=
  { ctl := 0, records := [], written := 0, discarded := 0, lost := 0, lastSync := Option.none, cmpa := [], cmpb := [],
    cmpk := [], seq := [], ctr := [], armed := false, hits := [], due := [], dbgreq := 0, dbgstat := 0, dbgctl := false }

/-- A cluster at reset (log 1). -/
def Cluster.reset : Cluster :=
  { part := 0, scrub := Option.none, power := .on, since := 0, idle := 0, jobs := [], nextJob := 0, witness := 1,
    hist := [], pools := [], saved := [], nextSave := 1, beHist := [], trace := Trace.reset, fenced := false, hot := false, asking := Option.none }

/-- A die at reset: no launch, record, pass, address space or view; the first launch id and serial are 1 (R274, R319,
R348). -/
def Die.reset : Die :=
  { cycle := 0, launches := [], ended := [], nextId := 1, requests := [], records := [], passes := [], aspaces := [],
    resident := [], views := [], serial := 1, draining := [], covered := [], shoots := [], shootAsks := [], parts := [], keys := [],
    hasid := 0, hasvec := 0, hasroot := 0, hasctl := 0, hsave := 0, hcorr := 0, tsbase := 0, tslen := 0, tswr := 0,
    tsctl := 0, marker := 0, temps := [], volts := [], procs := [], warm := false, refreshed := Option.none, voltsOut := [], hwAborts := [] }

/-- Region entries 0 and 1: the firmware gigabytes, world 1, partition 0xFFFF (R331, R335). -/
def Package.firmwareRegions : SMap Region :=
  [(0, { base := 0x29C0000000#64, lim := 0x2A00000000#64, attr := 0x800000000001FFFF#64 }),
   (1, { base := 0x1DFC0000000#64, lim := 0x1E000000000#64, attr := 0x800000000001FFFF#64 })]

/-- The package at reset: grants none, seal 0 (R356), no records written (R346), measurements zero before boot (R342),
no session or channel, the lock free (log 1). -/
def Package.reset : Package :=
  { regions := Package.firmwareRegions, mregsel := 0, mregbase := 0, mreglim := 0, mwsel := 0, worlds := [],
    mkeycmd := 0, reenc := Option.none, keys := [], pageVer := [], sectors := [], seals := [], badScales := [],
    plog := [], logCount := 0, hlogsel := 0, mlogsel := 0, hfence := 0, dbgauth := 0, unlocked := true, meas := [], recovery := false,
    drops := [], sessions := [], nextSess := 0, channels := [], lock := Option.none, dpids := [], routes := [],
    targets := [], domReqs := [], nextReq := 0, cmdLog := [], dropped := 0, responses := [], answers := [], quiesced := false,
    stoppedAt := [], awaited := [], hostAsks := [], heldBack := [], images := [] }

/-- The module right after reset: nothing is dispatched and memory lists nothing. -/
def State.reset : State :=
  { mem := [], ctxs := [], cores := [], clus := [], dies := [], pkg := Package.reset, turn := 0, turns := [],
    agenda := [], signal := .none, defer := false, steps := 0 }

end Sys2Proof.Machine
end

