-- ==== Sys2Proof/Machine/Units.lean ====
section
/-! DEFINITION. Reading and changing the state unit by unit: contexts, cores, clusters and dies by number, and the
registers of a context by the rules of R34 and R35. -/

namespace Sys2Proof.Machine

/-- The context with a ctxid (R49); one that nothing has used stands as at reset. -/
def ctxAt (s : State) (c : Nat) : Ctx := get Ctx.reset s.ctxs c
/-- The core of a number, ctxid / 4. -/
def coreAt (s : State) (k : Nat) : Core := get Core.reset s.cores k
/-- The cluster of a number, die × 64 + cluster, which is ctxid / 16. -/
def cluAt (s : State) (k : Nat) : Cluster := get Cluster.reset s.clus k
/-- A die. -/
def dieAt (s : State) (d : Nat) : Die := get Die.reset s.dies d

def setCtx (s : State) (c : Nat) (x : Ctx) : State := { s with ctxs := put s.ctxs c x }
def setCore (s : State) (k : Nat) (x : Core) : State := { s with cores := put s.cores k x }
def setClu (s : State) (k : Nat) (x : Cluster) : State := { s with clus := put s.clus k x }
def setDie (s : State) (d : Nat) (x : Die) : State := { s with dies := put s.dies d x }

def onCtx (s : State) (c : Nat) (f : Ctx → Ctx) : State := setCtx s c (f (ctxAt s c))
def onCore (s : State) (k : Nat) (f : Core → Core) : State := setCore s k (f (coreAt s k))
def onClu (s : State) (k : Nat) (f : Cluster → Cluster) : State := setClu s k (f (cluAt s k))
def onDie (s : State) (d : Nat) (f : Die → Die) : State := setDie s d (f (dieAt s d))
def onPkg (s : State) (f : Package → Package) : State := { s with pkg := f s.pkg }

/-- The core, cluster and die of a context (R49); a saved lap's number gives those of the context that it left. -/
def coreOf (c : Nat) : Nat := c % 4096 / 4
def cluOf (c : Nat) : Nat := c % 4096 / 16
def dieOf (c : Nat) : Nat := c % 4096 / 1024
/-- The die of a cluster. -/
def dieOfClu (k : Nat) : Nat := k / 64
/-- The number of a cluster of a die. -/
def cluKey (d : DieId) (c : CluId) : Nat := d.toNat * 64 + c.toNat
/-- The contexts of a cluster, of a core, the clusters of a die, the contexts of a die (R1). -/
def ctxsOfClu (k : Nat) : List Nat := span (k * 16) 16
def ctxsOfCore (k : Nat) : List Nat := span (k * 4) 4
def clusOfDie (d : Nat) : List Nat := span (d * 64) 40
def ctxsOfDie (d : Nat) : List Nat := span (d * 1024) 640
/-- Every die, cluster and context of the module. -/
def allDies : List Nat := [0, 1, 2, 3]
def allClus : List Nat := clusOfDie 0 ++ clusOfDie 1 ++ clusOfDie 2 ++ clusOfDie 3

/-- The die cycle a context reads (R49). -/
def cycleOf (s : State) (c : Nat) : Nat := (dieAt s (dieOf c)).cycle

/-- An x register; x0 reads zero (R34, R35). -/
def Ctx.x (c : Ctx) (r : XReg) : Word := if r = 0 then 0 else get 0 c.regs.x r.toNat

/-- A write to an x register; x0 ignores it (R34). -/
def Ctx.setX (c : Ctx) (r : XReg) (v : Word) : Ctx :=
  if r = 0 then c else { c with regs := { c.regs with x := set 0 c.regs.x r.toNat v } }

/-- A vector register, by its number. -/
def Ctx.v (c : Ctx) (r : Nat) : VReg := get 0 c.regs.v r
def Ctx.setV (c : Ctx) (r : Nat) (b : VReg) : Ctx := { c with regs := { c.regs with v := set 0 c.regs.v r b } }
/-- A mask register, by its number. -/
def Ctx.m (c : Ctx) (r : Nat) : VReg := get 0 c.regs.m r
def Ctx.setM (c : Ctx) (r : Nat) (b : VReg) : Ctx := { c with regs := { c.regs with m := set 0 c.regs.m r b } }
/-- A ciphertext register. -/
def Ctx.c (c : Ctx) (r : BitVec 4) : BitVec 256 := get 0 c.regs.c r.toNat
def Ctx.setC (c : Ctx) (r : BitVec 4) (b : BitVec 256) : Ctx :=
  { c with regs := { c.regs with c := set 0 c.regs.c r.toNat b } }
/-- A table register. -/
def Ctx.t (c : Ctx) (r : BitVec 3) : BitVec 576 := get 0 c.regs.t r.toNat
def Ctx.setT (c : Ctx) (r : BitVec 3) (b : BitVec 576) : Ctx :=
  { c with regs := { c.regs with t := set 0 c.regs.t r.toNat b } }
/-- A handle register. -/
def Ctx.h (c : Ctx) (r : BitVec 4) : Word := get 0 c.regs.h r.toNat
def Ctx.setH (c : Ctx) (r : BitVec 4) (w : Word) : Ctx :=
  { c with regs := { c.regs with h := set 0 c.regs.h r.toNat w } }
/-- A tag of the tag file (R37). -/
def Ctx.tag (c : Ctx) (r : Nat) : BitVec 5 := get 0 c.regs.tag r
def Ctx.setTag (c : Ctx) (r : Nat) (t : BitVec 5) : Ctx :=
  { c with regs := { c.regs with tag := set 0 c.regs.tag r t } }
/-- An istep register (R49). -/
def Ctx.istep (c : Ctx) (k : Nat) : Word := get 0 c.csr.istep k

/-- The front's next instruction in order, and one more retired (R49). -/
def Ctx.advance (c : Ctx) : Ctx :=
  { c with pc := c.pc + 4, csr := { c.csr with retired := c.csr.retired + 1 } }

/-- The front transfers control; the transfer retires (R78–R80). -/
def Ctx.jump (c : Ctx) (t : Word) : Ctx :=
  { c with pc := t, csr := { c.csr with retired := c.csr.retired + 1 } }

/-- The fields of vtype (R39). -/
def vtG (v : BitVec 17) : Nat := 2 ^ (v.toNat % 4)
def vtRefCode (v : BitVec 17) : Nat := v.toNat / 4 % 8
def vtRef (v : BitVec 17) : Nat := 4 * 2 ^ vtRefCode v
def vtTail (v : BitVec 17) : Bool := v.getLsbD 5
def vtP (v : BitVec 17) : Nat := v.toNat / 64 % 8
def vtPinf (v : BitVec 17) : Bool := v.getLsbD 9
def vtQinf (v : BitVec 17) : Bool := v.getLsbD 10
def vtNovf (v : BitVec 17) : Bool := v.getLsbD 11
def vtFlush (v : BitVec 17) : Bool := v.getLsbD 12
def vtTileM (v : BitVec 17) : Nat := 32 * 2 ^ (v.toNat / 2 ^ 13 % 4)
def vtTileN (v : BitVec 17) : Nat := 32 * 2 ^ (v.toNat / 2 ^ 15 % 4)

/-- A value vtype may take: P is not 0 and the reference code is 0 to 4 (R40). -/
def vtOk (v : BitVec 17) : Bool := vtP v != 0 && vtRefCode v ≤ 4

/-- Lane groups in service of a core (R42). -/
def Core.groups (k : Core) : Nat := ((span 0 8).filter (fun i => !k.retiredGroups.getLsbD i)).length

/-- VLMAX for a vtype and a number of lane groups (R42). -/
def vlmaxOf (v : BitVec 17) (groups : Nat) : Nat := min 16384 (vtG v * 16384 / vtRef v) * groups / 8

/-- VLMAX of a context, under the lane groups in which its lap runs: a group retired meanwhile changes it from the next lap
onward (R42, R43, R153). -/
def vlmax (s : State) (c : Nat) : Nat := vlmaxOf (ctxAt s c).csr.vtype (ctxAt s c).groups

/-- The least of vl as last written and the lap's trim limit (R142). -/
def Ctx.vl (c : Ctx) : Nat := match c.lap.trim with
  | some t => min c.csr.vl t
  | none => c.csr.vl

/-- Where a level stands among U, K, H, M (R137). -/
def Level.num : Level → Nat
  | .u => 0 | .k => 1 | .h => 2 | .m => 3
def Level.ofNum : Nat → Level
  | 0 => .u | 1 => .k | 2 => .h | _ => .m

/-- The trap CSRs of a handling level; U has none and stands for K (R136). -/
def Ctx.trap (c : Ctx) : Level → TrapRegs
  | .m => c.trapM | .h => c.trapH | _ => c.trapK
def Ctx.setTrap (c : Ctx) (l : Level) (t : TrapRegs) : Ctx := match l with
  | .m => { c with trapM := t }
  | .h => { c with trapH := t }
  | _ => { c with trapK := t }

/-- What a partition holds on a die (R137). -/
def partDie (d : Die) (p : Nat) : PartDie := get { eqbase := 0, ptvec := 0, pdump := 0 } d.parts p

/-- The launch of a context's lap. -/
def launchOf (s : State) (c : Nat) : Option Launch := find? (dieAt s (dieOf c)).launches (ctxAt s c).work.launch

end Sys2Proof.Machine
end

