-- ==== Sys2Proof/Machine/Flags.lean ====
section
/-! DEFINITION. Number formats, exact arithmetic, the single rounding and the flags (R53–R57, R60–R68, R72). An operation
computes on exact values; one rounding writes the result and raises the flags. -/

namespace Sys2Proof.Machine

/-- Flag bits as they stand in fflags (R49). -/
abbrev Flags := BitVec 5
def fNV : Flags := 0b10000
def fDZ : Flags := 0b01000
def fOF : Flags := 0b00100
def fUF : Flags := 0b00010
def fNX : Flags := 0b00001

/-- The settings of vtype or of a job card that formats and overflows read (R39, R197). -/
structure Settings where
  prec  : Nat
  pinf  : Bool
  qinf  : Bool
  novf  : Bool
  flush : Bool
  deriving DecidableEq, Repr

def settingsOf (v : BitVec 17) : Settings :=
  { prec := vtP v, pinf := vtPinf v, qinf := vtQinf v, novf := vtNovf v, flush := vtFlush v }

/-- Tag codes (R53). -/
abbrev Tag := Nat
def tF16 : Tag := 0x08
def tB16 : Tag := 0x09
def tF32 : Tag := 0x0A
def tF64 : Tag := 0x0B
def tP8 : Tag := 0x0C
def tQ8 : Tag := 0x0D
def tX8 : Tag := 0x0E
def tY8 : Tag := 0x0F
def tE4 : Tag := 0x10
def tK8 : Tag := 0x11
def tM64 : Tag := 0x12

/-- The width of a tag in bits; a reserved code has none and counts as 8 for spans (R53). -/
def tagWidth (t : Tag) : Nat :=
  match t with
  | 0 | 1 => 8 | 2 | 3 => 16 | 4 | 5 => 32 | 6 | 7 => 64 | 8 | 9 => 16 | 10 => 32 | 11 => 64 | 16 => 4 | 18 => 64
  | _ => 8

def isInt (t : Tag) : Bool := t < 8
def isSigned (t : Tag) : Bool := t < 8 && t % 2 == 0
def isWide (t : Tag) : Bool := 8 ≤ t && t ≤ 11
def isNarrow (t : Tag) : Bool := 12 ≤ t && t ≤ 16
def isFloat (t : Tag) : Bool := 8 ≤ t && t ≤ 16

/-- The fields and special encodings of a float format, magnitudes without the sign bit (R55). -/
structure Fmt where
  sign : Bool
  frac : Nat
  bias : Nat
  top  : Nat
  inf  : Option Nat
  nan  : Option Nat
  mag  : Nat
  deriving DecidableEq, Repr

/-- The format of a float tag under the settings; `mag` is the number of bits below the sign (R55). -/
def fmtOf (st : Settings) (t : Tag) : Fmt :=
  match t with
  | 8 => { sign := true, frac := 10, bias := 15, top := 0x7BFF, inf := some 0x7C00, nan := some 0x7E00, mag := 15 }
  | 9 => { sign := true, frac := 7, bias := 127, top := 0x7F7F, inf := some 0x7F80, nan := some 0x7FC0, mag := 15 }
  | 10 => { sign := true, frac := 23, bias := 127, top := 0x7F7FFFFF, inf := some 0x7F800000, nan := some 0x7FC00000,
            mag := 31 }
  | 11 => { sign := true, frac := 52, bias := 1023, top := 0x7FEFFFFFFFFFFFFF, inf := some 0x7FF0000000000000,
            nan := some 0x7FF8000000000000, mag := 63 }
  | 12 => { sign := true, frac := st.prec - 1, bias := 2 ^ (7 - st.prec), top := if st.pinf then 0x7E else 0x7F,
            inf := if st.pinf then some 0x7F else none, nan := some 0x80, mag := 7 }
  | 13 => { sign := false, frac := st.prec - 1, bias := 2 ^ (8 - st.prec), top := if st.qinf then 0xFD else 0xFE,
            inf := if st.qinf then some 0xFE else none, nan := some 0xFF, mag := 8 }
  | 14 => { sign := true, frac := 3, bias := 7, top := 0x7E, inf := none, nan := some 0x7F, mag := 7 }
  | 15 => { sign := true, frac := 2, bias := 15, top := 0x7B, inf := some 0x7C, nan := some 0x7E, mag := 7 }
  | 16 => { sign := true, frac := 1, bias := 1, top := 0x7, inf := none, nan := none, mag := 3 }
  | _ => { sign := false, frac := 0, bias := 127, top := 0xFE, inf := none, nan := some 0xFF, mag := 8 }

/-- num / den × 2^e, as a fraction. -/
def scaled (neg : Bool) (num den : Nat) (e : Int) : Val :=
  if 0 ≤ e then .fin neg (num * 2 ^ e.toNat) den else .fin neg num (den * 2 ^ (-e).toNat)

/-- The value of a magnitude of a format (R56). -/
def magVal (f : Fmt) (neg : Bool) (m : Nat) : Val :=
  let e := m / 2 ^ f.frac
  let fr := m % 2 ^ f.frac
  if e = 0 then scaled neg fr 1 (1 - f.bias - f.frac)
  else scaled neg (2 ^ f.frac + fr) 1 ((e : Int) - f.bias - f.frac)

/-- A subnormal encoding: exponent field 0 and a fraction (R56). -/
def isSubnormal (f : Fmt) (m : Nat) : Bool := 0 < m && m < 2 ^ f.frac

/-- The value that an encoding of a float tag stands for (R55–R57). -/
def floatVal (st : Settings) (t : Tag) (b : Nat) : Val :=
  let f := fmtOf st t
  let neg := f.sign && b / 2 ^ f.mag % 2 == 1
  let m := b % 2 ^ f.mag
  match t with
  | 8 | 9 | 10 | 11 =>
    if f.top + 1 = m then .inf neg
    else if f.top < m then .nan (m / 2 ^ (f.frac - 1) % 2 == 0)
    else magVal f neg m
  | 12 => if b % 256 = 0x80 then .nan false else if f.inf = some m then .inf neg else magVal f neg m
  | 13 => if b % 256 = 0xFF then .nan false else if f.inf = some m then .inf false else magVal f false m
  | 14 => if m = 0x7F then .nan false else magVal f neg m
  | 15 => if m = 0x7C then .inf neg else if 0x7C < m then .nan false else magVal f neg m
  | 16 => magVal f neg m
  | _ => if b % 256 = 0xFF then .nan false else scaled false 1 1 ((b % 256 : Nat) - 127)

/-- The exact value of an integer. -/
def intVal (z : Int) : Val := .fin (z < 0) z.natAbs 1

/-- The value of an element's bits under its tag; a residue stands for its pattern (R54, R56, R60). -/
def valOf (st : Settings) (t : Tag) (b : Nat) : Val :=
  if isInt t then intVal (if isSigned t then signed (tagWidth t) b else (b % 2 ^ tagWidth t : Nat))
  else if t = 18 then .fin false b 1
  else floatVal st t b

/-- A source element as arithmetic reads it: with flush on, a subnormal of a wide float tag is zero of its sign (R66). -/
def srcVal (st : Settings) (t : Tag) (b : Nat) : Val :=
  if st.flush && isWide t && isSubnormal (fmtOf st t) (b % 2 ^ (fmtOf st t).mag) then
    .fin (b / 2 ^ (fmtOf st t).mag % 2 == 1) 0 1
  else valOf st t b

/-- Whether a value is a zero. -/
def Val.isZero : Val → Bool
  | .fin _ n _ => n == 0
  | _ => false
def Val.isNan : Val → Bool
  | .nan _ => true
  | _ => false
def Val.isInf : Val → Bool
  | .inf _ => true
  | _ => false
def Val.neg : Val → Val
  | .fin s n d => .fin (!s) n d
  | .inf s => .inf (!s)
  | .nan s => .nan s
def Val.isNeg : Val → Bool
  | .fin s _ _ => s
  | .inf s => s
  | .nan _ => false
def Val.abs : Val → Val
  | .fin _ n d => .fin false n d
  | .inf _ => .inf false
  | .nan s => .nan s

/-- NV for a signalling source (R67). -/
def sigFlag : Val → Flags
  | .nan true => fNV
  | _ => 0

/-- The signed numerator of a finite value over a common denominator. -/
def signedNum (s : Bool) (n : Nat) : Int := if s then -(n : Int) else n

/-- The exact sum; an exact zero from operands of opposite signs is +0, −0 under RDN (R67, R68). -/
def addVal (rm : Nat) (a b : Val) : Val × Flags :=
  match a, b with
  | .nan p, .nan q => (.nan false, if p || q then fNV else 0)
  | .nan p, _ => (.nan false, if p then fNV else 0)
  | _, .nan q => (.nan false, if q then fNV else 0)
  | .inf s, .inf t => if s = t then (.inf s, 0) else (.nan false, fNV)
  | .inf s, .fin _ _ _ => (.inf s, 0)
  | .fin _ _ _, .inf t => (.inf t, 0)
  | .fin s n d, .fin t m e =>
    let z := signedNum s n * e + signedNum t m * d
    if z = 0 then (.fin (if s = t then s else rm == 2) 0 1, 0) else (.fin (z < 0) z.natAbs (d * e), 0)

/-- The exact product (R67). -/
def mulVal (a b : Val) : Val × Flags :=
  match a, b with
  | .nan p, .nan q => (.nan false, if p || q then fNV else 0)
  | .nan p, _ => (.nan false, if p then fNV else 0)
  | _, .nan q => (.nan false, if q then fNV else 0)
  | .inf s, .inf t => (.inf (s != t), 0)
  | .inf s, .fin t n _ => if n = 0 then (.nan false, fNV) else (.inf (s != t), 0)
  | .fin s n _, .inf t => if n = 0 then (.nan false, fNV) else (.inf (s != t), 0)
  | .fin s n d, .fin t m e => (.fin (s != t) (n * m) (d * e), 0)

/-- The exact quotient; DZ for a finite nonzero dividend over zero (R67, R68). -/
def divVal (a b : Val) : Val × Flags :=
  match a, b with
  | .nan p, .nan q => (.nan false, if p || q then fNV else 0)
  | .nan p, _ => (.nan false, if p then fNV else 0)
  | _, .nan q => (.nan false, if q then fNV else 0)
  | .inf _, .inf _ => (.nan false, fNV)
  | .inf s, .fin t _ _ => (.inf (s != t), 0)
  | .fin s _ _, .inf t => (.fin (s != t) 0 1, 0)
  | .fin s n d, .fin t m e =>
    if m = 0 then (if n = 0 then (.nan false, fNV) else (.inf (s != t), fDZ)) else (.fin (s != t) (n * e) (d * m), 0)

/-- a × b + c with one exact product; NV for 0 × ∞ even beside a NaN addend (R67). -/
def fmaVal (rm : Nat) (a b c : Val) : Val × Flags :=
  let p := mulVal a b
  let r := addVal rm p.1 c
  (r.1, p.2 ||| r.2)

/-- The order of two values; none when one is a NaN. Zeros are equal. -/
def cmpVal (a b : Val) : Option Ordering :=
  match a, b with
  | .nan _, _ => none
  | _, .nan _ => none
  | .inf s, .inf t => some (if s = t then .eq else if s then .lt else .gt)
  | .inf s, _ => some (if s then .lt else .gt)
  | _, .inf t => some (if t then .gt else .lt)
  | .fin s n d, .fin t m e => some (compare (signedNum s n * e) (signedNum t m * d))

/-- floor(log2 (num / den)) of a positive fraction. -/
def floorLog2 (num den : Nat) : Int :=
  let e : Int := (Nat.log2 num : Int) - Nat.log2 den
  let small : Bool := if 0 ≤ e then num < den * 2 ^ e.toNat else num * 2 ^ (-e).toNat < den
  if small then e - 1 else e

/-- num / den × 2^(−u) as a whole part, a rest and the divisor of the rest. -/
def splitAt (num den : Nat) (u : Int) : Nat × Nat × Nat :=
  let n := if 0 ≤ u then num else num * 2 ^ (-u).toNat
  let d := if 0 ≤ u then den * 2 ^ u.toNat else den
  (n / d, n % d, d)

/-- Whether a rounding mode selects the neighbour further from zero, for a rest r / d of the spacing above the nearer
one, whose encoding is odd or even; SR compares with the random word (R63, R64). -/
def roundsUp (rm : Nat) (neg odd : Bool) (r d sr : Nat) : Bool :=
  if r = 0 then false
  else match rm with
    | 0 => d < 2 * r || (2 * r == d && odd)
    | 1 => false
    | 2 => neg
    | 3 => !neg
    | 4 => d ≤ 2 * r
    | 5 => !odd
    | _ => sr < r * 2 ^ 32 / d

/-- The least exponent of a normal number of a format. -/
def Fmt.emin (f : Fmt) : Int := 1 - f.bias

/-- The encoding of the neighbour nearer to zero, the rest above it and its divisor. -/
def towardZero (f : Fmt) (num den : Nat) : Nat × Nat × Nat :=
  let e := max (floorLog2 num den) f.emin
  let (m, r, d) := splitAt num den (e - f.frac)
  let enc := if m < 2 ^ f.frac then m else (e + f.bias).toNat * 2 ^ f.frac + (m - 2 ^ f.frac)
  if enc ≤ f.top then (enc, r, d)
  else
    let et : Int := (f.top / 2 ^ f.frac : Nat) - (f.bias : Int)
    let mt := 2 ^ f.frac + f.top % 2 ^ f.frac
    let (m, r, d) := splitAt num den (et - f.frac)
    (f.top, (m - mt) * d + r, d)

/-- Whether a nonzero result is tiny: below the least normal number when rounded as though exponents had no bound; where P is 1 the
one-bit significand is odd (R68, log 82). -/
def isTiny (f : Fmt) (rm : Nat) (neg : Bool) (num den sr : Nat) : Bool :=
  let e := floorLog2 num den
  if f.emin ≤ e then false
  else
    let (m, r, d) := splitAt num den (e - f.frac)
    let up := roundsUp rm neg (m % 2 == 1) r d sr
    !(e = f.emin - 1 && up && m + 1 == 2 ^ (f.frac + 1))

/-- A magnitude with a sign, in a tag's encoding; p8 and q8 have no negative zero (R56). -/
def withSign (f : Fmt) (t : Tag) (neg : Bool) (m : Nat) : Nat :=
  if neg && f.sign && !(t == 12 && m == 0) then 2 ^ f.mag + m else m

/-- The canonical NaN of a tag; e4 has none, writes +0 and raises NV (R57). -/
def nanResult (f : Fmt) : Nat × Flags :=
  match f.nan with
  | some n => (n, 0)
  | none => (0, fNV)

/-- The pattern of an overflow of a sign in a float tag, and whether it is finite (R65). -/
def overflowPattern (st : Settings) (f : Fmt) (t : Tag) (sat neg : Bool) : Nat × Bool :=
  if sat || t == 16 then (withSign f t neg f.top, true)
  else if isWide t then (withSign f t neg (f.inf.getD 0), false)
  else if !st.novf then (withSign f t neg f.top, true)
  else match f.inf with
    | some m => (withSign f t neg m, false)
    | none => ((nanResult f).1, false)

/-- A negative nonzero result into q8 (R65). -/
def negativeQ8 (st : Settings) : Nat × Flags := if st.novf then (0xFF, fNV) else (0, fNV ||| fNX)

/-- One rounding of an exact value into a float tag, with its flags: `sr` is the random word of R64 and `sat` a
saturating function of VCVT (R62–R66). -/
def roundFloat (st : Settings) (t : Tag) (rm : Nat) (sat : Bool) (sr : Nat) (v : Val) : Nat × Flags :=
  let f := fmtOf st t
  match v with
  | .nan _ => nanResult f
  | .inf neg =>
    if t == 13 && neg then negativeQ8 st
    else match f.inf, sat with
      | some m, false => (withSign f t neg m, 0)
      | _, _ =>
        let (p, finite) := overflowPattern st f t sat neg
        (p, if finite then fNX else fNV)
  | .fin neg num den =>
    if num = 0 then (withSign f t neg 0, 0)
    else if t == 13 && neg then negativeQ8 st
    else
      let (m, r, d) := towardZero f num den
      let up := roundsUp rm neg (m % 2 == 1) r d sr
      let enc := if up then m + 1 else m
      if f.top < enc then ((overflowPattern st f t sat neg).1, fOF ||| fNX)
      else if st.flush && isWide t && isSubnormal f enc then (withSign f t neg 0, fUF ||| fNX)
      else if r = 0 then (withSign f t neg enc, 0)
      else (withSign f t neg enc, if isTiny f rm neg num den sr then fUF ||| fNX else fNX)

/-- The range of an integer tag (R54). -/
def intMin (t : Tag) : Int := if isSigned t then -(2 ^ (tagWidth t - 1) : Int) else 0
def intMax (t : Tag) : Int := if isSigned t then 2 ^ (tagWidth t - 1) - 1 else 2 ^ tagWidth t - 1

/-- An integer in a tag's bits, modulo its width (R54). -/
def wrapInt (t : Tag) (z : Int) : Nat := wrap (tagWidth t) z
/-- An integer clamped to a tag's range (R54). -/
def clampInt (t : Tag) (z : Int) : Nat := wrapInt t (max (intMin t) (min (intMax t) z))

/-- A value rounded to an integer, and whether it was exact (R63). -/
def roundToInt (rm : Nat) (sr : Nat) (neg : Bool) (num den : Nat) : Int × Bool :=
  let m := num / den
  let r := num % den
  let up := roundsUp rm neg (m % 2 == 1) r den sr
  (signedNum neg (if up then m + 1 else m), r == 0)

/-- The Philox word of R64. -/
def philoxRounds : Nat → Nat → Nat → Nat → Nat → Nat → Nat → Nat
  | 0, _, _, c0, _, _, _ => c0
  | n + 1, k0, k1, c0, c1, c2, c3 =>
    let p0 := 0xD2511F53 * c0
    let p1 := 0xCD9E8D57 * c2
    philoxRounds n ((k0 + 0x9E3779B9) % 2 ^ 32) ((k1 + 0xBB67AE85) % 2 ^ 32)
      (Nat.xor (Nat.xor (p1 / 2 ^ 32) c1) k0) (p1 % 2 ^ 32) (Nat.xor (Nat.xor (p0 / 2 ^ 32) c3) k1) (p0 % 2 ^ 32)

def philox (key wid c2 c3 : Nat) : Nat :=
  philoxRounds 10 (key % 2 ^ 32) (key / 2 ^ 32 % 2 ^ 32) (wid % 2 ^ 32) (wid / 2 ^ 32 % 2 ^ 32) c2 c3

/-- The promoted type of two source tags, or none for TYPE (R61). -/
def promote (a b : Tag) : Option Tag :=
  if 18 < a ∨ 18 < b ∨ a = 17 ∨ b = 17 then none
  else if a = 18 ∨ b = 18 then (if a = b then some 18 else none)
  else if isInt a && isInt b then
    if isSigned a = isSigned b then some (max a b)
    else
      let s := if isSigned a then a else b
      let n := if isSigned a then b else a
      if n = 7 then none
      else if tagWidth n < tagWidth s then some s else some (n + 1)
  else if isInt a || isInt b then
    let i := if isInt a then a else b
    let f := if isInt a then b else a
    if 6 ≤ i then none else if 4 ≤ i then some tF64 else if f = tF64 then some tF64 else some tF32
  else if a = b then some a
  else if isNarrow a && isNarrow b then some tF32
  else if isNarrow a || isNarrow b then
    let n := if isNarrow a then a else b
    let w := if isNarrow a then b else a
    if w = tF16 then (if n = tP8 ∨ n = tQ8 then some tF32 else some tF16) else some w
  else if a = tF64 ∨ b = tF64 then some tF64 else some tF32

/-- A legal destination for a promoted type (R61). -/
def destOk (p d : Tag) : Bool :=
  if p = 18 then d == 18 else if isInt p then isInt d else isFloat d

/-- The exact square root of a nonnegative fraction to k bits below the point, floor, by bits from the top. -/
def isqrtBits : Nat → Nat → Nat → Nat
  | 0, _, r => r
  | b + 1, n, r =>
    let c := r + 2 ^ b
    isqrtBits b n (if c * c ≤ n then c else r)

/-- floor(sqrt n). -/
def isqrt (n : Nat) : Nat := isqrtBits (Nat.log2 n / 2 + 1) n 0

/-- An exact root, or a value strictly between its neighbours at 120 bits: every rounding of R63 and R64 decides on it
as it would on the root itself. -/
def sqrtFrac (num den : Nat) : Val :=
  let k := 120 + Nat.log2 den
  let s := num * 2 ^ (2 * k) / den
  let r := isqrt s
  if r * r * den = num * 2 ^ (2 * k) then .fin false r (2 ^ k) else .fin false (2 * r + 1) (2 ^ (k + 1))

end Sys2Proof.Machine
end

