-- ==== Sys2Proof/Machine/Operands.lean ====
section
/-! DEFINITION. Operands of vector instructions: groups of registers and their elements (R23–R25, R44), which elements are
active (R18, R52), the tail (R45), work identifiers and random words (R46, R64, R129), scalar operands (R110), the vector
and mask registers an instruction names, its baton fields and its rounding field (R17, R19). -/

namespace Sys2Proof.Machine

/-- Bits of a vector register. -/
def vregBits : Nat := 16384

/-- Bits [lo + w − 1 : lo] of a register. -/
def regField (v : VReg) (lo w : Nat) : Nat := (v.extractLsb' lo w).toNat

/-- The register with those bits replaced. -/
def setField (v : VReg) (lo w b : Nat) : VReg :=
  (v &&& ~~~((BitVec.allOnes w).setWidth 16384 <<< lo)) ||| ((BitVec.ofNat w b).setWidth 16384 <<< lo)

/-- The register with its bits from n upward cleared. -/
def keepLow (v : VReg) (n : Nat) : VReg := if n ≥ 16384 then v else (v.setWidth n).setWidth 16384

/-- The span of an operand (R24). -/
def spanOf (vt : BitVec 17) (t : Tag) : Nat := max 1 (vtG vt * tagWidth t / vtRef vt)

/-- Element i, of width w bits, of the group that starts at register r (R44). -/
def elem (x : Ctx) (r w i : Nat) : Nat := regField (x.v (r + i * w / 16384)) (i * w % 16384) w

/-- The context with one element of a group written (R44). -/
def setElem (x : Ctx) (r w i b : Nat) : Ctx :=
  x.setV (r + i * w / 16384) (setField (x.v (r + i * w / 16384)) (i * w % 16384) w b)

/-- The context with several elements written, in the order of the list. -/
def setElems (x : Ctx) (r w : Nat) : List (Nat × Nat) → Ctx
  | [] => x
  | (i, b) :: rest => setElems (setElem x r w i b) r w rest

/-- A group of n registers from r with its bits from lo upward cleared (R45). -/
def clearFrom (x : Ctx) (r lo : Nat) : Nat → Ctx
  | 0 => x
  | n + 1 => clearFrom (x.setV r (keepLow (x.v r) lo)) (r + 1) (lo - 16384) n

/-- The tail of a vector destination, counted from element n (R45). -/
def tailFrom (x : Ctx) (vt : BitVec 17) (r : Nat) (t : Tag) (n : Nat) : Ctx :=
  if vtTail vt then clearFrom x r (n * tagWidth t) (spanOf vt t) else x

/-- The tail of a mask destination, from bit n to bit 16,383 (R45). -/
def maskTail (x : Ctx) (vt : BitVec 17) (r n : Nat) : Ctx :=
  if vtTail vt then x.setM r (keepLow (x.m r) n) else x

/-- The context with one bit of a mask register written. -/
def setMaskBit (x : Ctx) (r i : Nat) (b : Bool) : Ctx := x.setM r (setField (x.m r) i 1 b.toNat)

def setMaskBits (x : Ctx) (r : Nat) : List (Nat × Bool) → Ctx
  | [] => x
  | (i, b) :: rest => setMaskBits (setMaskBit x r i b) r rest

/-- Whether element i is active (R18). -/
def active (x : Ctx) (mk : Bool) (i : Nat) : Bool := !mk || (x.m 0).getLsbD i

/-- The positions es to vl − 1. -/
def VEntry.positions (e : VEntry) : List Nat := span e.es (e.vl - e.es)

/-- The active positions at and above es and below vl (R18, R52). -/
def activeAt (x : Ctx) (e : VEntry) (mk : Bool) : List Nat := e.positions.filter (active x mk)

/-- The WID of a linear index: fields of the given widths and extents, the first lowest (R46). -/
def widOfLin : List Nat → List Nat → Nat → Nat
  | w :: ws, e :: es, lin => lin % e + 2 ^ w * widOfLin ws es (lin / e)
  | _, _, _ => 0

/-- The work identifier of position i (R129). -/
def widAt (x : Ctx) (i : Nat) : Nat :=
  if x.loop.active then
    widOfLin x.work.fieldW x.work.extent (x.work.l0 + (x.loop.count - x.loop.laprem) + i) % 2 ^ 64
  else (x.work.wids.getD i 0).toNat

/-- Field k of a WID; a field the launch does not have is 0 (R47). -/
def widField : List Nat → Nat → Nat → Nat
  | [], _, _ => 0
  | w :: _, 0, v => v % 2 ^ w
  | w :: ws, k + 1, v => widField ws k (v / 2 ^ w)

/-- The random word of a position with a counter c3; only SR reads it (R64). -/
def srAt (x : Ctx) (e : VEntry) (c3 i : Nat) : Nat :=
  if e.rm = 6 then philox e.srkey.toNat (widAt x i) (e.addr.toNat / 4 % 2 ^ 32) (c3 % 2 ^ 32) else 0

/-- The random word of an element's own rounding (R64). -/
def srElem (x : Ctx) (e : VEntry) (i : Nat) : Nat := srAt x e e.srep.toNat i

/-- The settings an entry computes under. -/
def VEntry.settings (e : VEntry) : Settings := settingsOf e.vtype

/-- The value of a source element as arithmetic reads it (R56, R60, R66). -/
def srcElem (x : Ctx) (e : VEntry) (r : Nat) (t : Tag) (i : Nat) : Val := srcVal e.settings t (elem x r (tagWidth t) i)

/-- An m64 element reduced modulo q (R60). -/
def resElem (x : Ctx) (e : VEntry) (r i : Nat) : Nat := elem x r 64 i % e.mq.toNat

/-- The integer an element's pattern stands for under an integer tag (R54). -/
def intOf (t : Tag) (b : Nat) : Int := if isSigned t then signed (tagWidth t) b else (b % 2 ^ tagWidth t : Nat)
def intElem (x : Ctx) (r : Nat) (t : Tag) (i : Nat) : Int := intOf t (elem x r (tagWidth t) i)

/-- The signed immediate of VX (R14). -/
def imm5 (s : BitVec 5) : Int := s.toInt

/-- The scalar of VX and VMV in a tag's bits (R110, R128): the captured register's low bits, or the immediate converted and
clamped; a negative one is 0 in q8 (log 64), and one in k8 is taken as an integer of 8 bits (log 83). -/
def scalarBits (e : VEntry) (t : Tag) (s : BitVec 5) (sel : Bool) : Nat :=
  if !sel then (if t = tM64 then e.sc0.toNat % e.mq.toNat else e.sc0.toNat % 2 ^ tagWidth t)
  else if isFloat t then (roundFloat { e.settings with novf := false } t 0 true 0 (intVal (imm5 s))).1
  else if t = tM64 then (imm5 s % (e.mq.toNat : Int)).toNat
  else wrap (tagWidth t) (imm5 s)

/-- How a vector instruction uses its registers: the register of the vd field with whether it is written and whether it
is read, the two sources, and the conditions on their tags d, a and b (R25). -/
structure Shape where
  d  : Option VNum
  wr : Bool
  rd : Bool
  a  : Option VNum
  b  : Option VNum
  ok : Tag → Tag → Tag → Bool

/-- Tags of R61 for a pair of sources and a destination. -/
def okPair (d a b : Tag) : Bool := match promote a b with
  | some p => destOk p d
  | none => false

/-- The same without m64 (R98). -/
def okArith (d a b : Tag) : Bool := a != tM64 && b != tM64 && d != tM64 && okPair d a b

/-- VFMA: the promoted sources promoted again with vd (R61, R101). -/
def okFma (d a b : Tag) : Bool :=
  a != tM64 && b != tM64 && d != tM64 &&
  match promote a b with
  | some p => match promote p d with
    | some q => destOk q d
    | none => false
  | none => false

/-- Integer tags alone. -/
def okInt (d a b : Tag) : Bool := isInt a && isInt b && okPair d a b

/-- One width, no reserved tag (R103, R116). -/
def tagLegal (t : Tag) : Bool := t ≤ 18
def okWidth (d a b : Tag) : Bool :=
  tagLegal d && tagLegal a && tagLegal b && tagWidth d == tagWidth a && tagWidth a == tagWidth b
def okWidth2 (d a _b : Tag) : Bool := tagLegal d && tagLegal a && tagWidth d == tagWidth a
def okShift (d a b : Tag) : Bool := isInt d && isInt a && isInt b && tagWidth d == tagWidth a
/-- A comparison: the source row alone (R104). -/
def okCmp (_d a b : Tag) : Bool := a != tM64 && b != tM64 && (promote a b).isSome
def okCmpEq (_d a b : Tag) : Bool := (promote a b).isSome
/-- VCVT functions 0 and 1 (R106). -/
def okCvt (d a _b : Tag) : Bool :=
  tagLegal d && tagLegal a && d != tK8 && a != tK8 &&
  (if a = tM64 then d == tM64 || d == 7 else if d = tM64 then a == 7 else true)
def isBlockElem (t : Tag) : Bool := t == tX8 || t == tY8 || t == tE4 || t == 0
def isWideFloat (t : Tag) : Bool := isWide t
/-- VCVT function 2 (R107) and 3 (R108). -/
def okBlk (d a b : Tag) : Bool :=
  b == tK8 && ((isBlockElem a && isWideFloat d) || (isWideFloat a && isBlockElem d))
def okScale (d a _b : Tag) : Bool := isWideFloat a && d == tK8
/-- VMOD (R109). -/
def okMod (d a b : Tag) : Bool := d == tM64 && a == tM64 && b == tM64
/-- VSFU (R111, R113). -/
def okSfu (d a _b : Tag) : Bool := isFloat a && isWideFloat d
def okExp (d a _b : Tag) : Bool := isFloat a && isWideFloat d && a != tF64 && d != tF64
def okStep (d a b : Tag) : Bool := isWideFloat a && a == b && a == d
/-- VSMAX (R114, R115). -/
def okSmax (d a b : Tag) : Bool :=
  (a == tF16 || a == tB16 || a == tF32) && (d == tF16 || d == tB16 || d == tF32) && b == tF32
/-- VX: the scalar has va's tag (R110). -/
def okX (d a _b : Tag) : Bool := okArith d a a
def okXLogic (d a _b : Tag) : Bool :=
  a != tM64 && d != tM64 && tagLegal d && tagLegal a && tagWidth d == tagWidth a
def okXFma (d a _b : Tag) : Bool := okFma d a a
/-- VRED: the source promoted with the destination (R61, R118, R119). -/
def okRed (d a _b : Tag) : Bool := a != tM64 && d != tM64 && okPair d a d
def okRedInt (d a _b : Tag) : Bool := isInt a && isInt d && okPair d a d
def okPerm (d a b : Tag) : Bool := tagLegal d && tagLegal a && tagWidth d == tagWidth a && isInt b
def okIntD (d _a _b : Tag) : Bool := isInt d
def okFly (d a _b : Tag) : Bool := a == d && (isWideFloat a || isInt a)
def okFlyMod (d a b : Tag) : Bool := d == tM64 && a == tM64 && b == tM64
def okDecomp (d a _b : Tag) : Bool := a == tM64 && (d == tM64 || d == 6)
def okBcast (d _a _b : Tag) : Bool := tagLegal d
def okTox (_d a _b : Tag) : Bool := tagLegal a
def okHist (_d a _b : Tag) : Bool := isFloat a || a == tK8
def okHistRead (d _a _b : Tag) : Bool := d == 4 || d == 5
/-- Vector loads and stores: any tag under unit stride, no e4 under modes 1 and 2 (R183). -/
def okUnit (d _a _b : Tag) : Bool := tagLegal d
def okStride (d _a _b : Tag) : Bool := tagLegal d && d != tE4
def okIndex (d _a b : Tag) : Bool := tagLegal d && d != tE4 && isInt b
def okAmo (d _a b : Tag) : Bool := (4 ≤ d && d ≤ 7) && isInt b

/-- vd, va and vb, vd written. -/
def shape3 (d a b : VNum) (ok : Tag → Tag → Tag → Bool) : Shape :=
  { d := some d, wr := true, rd := false, a := some a, b := some b, ok := ok }
/-- vd read and written. -/
def shapeAcc (d a b : VNum) (ok : Tag → Tag → Tag → Bool) : Shape := { shape3 d a b ok with rd := true }
/-- vd and va. -/
def shape2 (d a : VNum) (ok : Tag → Tag → Tag → Bool) : Shape :=
  { d := some d, wr := true, rd := false, a := some a, b := none, ok := ok }
/-- Two sources of a mask destination. -/
def shapeCmp (a b : VNum) (ok : Tag → Tag → Tag → Bool) : Shape :=
  { d := none, wr := false, rd := false, a := some a, b := some b, ok := ok }
/-- vd alone. -/
def shapeD (d : VNum) (ok : Tag → Tag → Tag → Bool) : Shape :=
  { d := some d, wr := true, rd := false, a := none, b := none, ok := ok }
/-- va alone. -/
def shapeA (a : VNum) (ok : Tag → Tag → Tag → Bool) : Shape :=
  { d := none, wr := false, rd := false, a := some a, b := none, ok := ok }
/-- No vector register. -/
def shapeNone : Shape := { d := none, wr := false, rd := false, a := none, b := none, ok := fun _ _ _ => true }
/-- A load or store of vt, and one with an index vector, whose tag is tag b of the entry (log 19). -/
def shapeLd (t : VNum) (ok : Tag → Tag → Tag → Bool) : Shape := shapeD t ok
def shapeSt (t : VNum) (ok : Tag → Tag → Tag → Bool) : Shape := { shapeD t ok with wr := false, rd := true }
def shapeLdX (t ix : VNum) : Shape := { shapeD t okIndex with b := some ix }
def shapeStX (t ix : VNum) : Shape := { shapeSt t okIndex with b := some ix }
def shapeAmo (t ix : VNum) : Shape := { shapeD t okAmo with rd := true, b := some ix }

/-- The vector registers of the instructions that pass through the vector queue (R163); none for every other row. -/
def shapeOf : Instr → Option Shape
  | .vadd d a b _ _ | .vaddSub d a b _ _ | .vaddRsub d a b _ _ | .vaddAdds d a b _ _ | .vaddSubs d a b _ _
  | .vaddAbsd d a b _ _ | .vmul d a b _ _ | .vmulDiv d a b _ _ | .vminmaxMin d a b _ _ | .vminmaxMax d a b _ _
  | .vminmaxMinnum d a b _ _ | .vminmaxMaxnum d a b _ _ => some (shape3 d a b okArith)
  | .vmulMulh d a b _ _ | .vmulMulhn d a b _ _ | .vmulRem d a b _ _ => some (shape3 d a b okInt)
  | .vfma d a b _ _ | .vfmaFms d a b _ _ | .vfmaFnma d a b _ _ | .vfmaFnms d a b _ _ => some (shapeAcc d a b okFma)
  | .vlogicAnd d a b _ _ | .vlogicOr d a b _ _ | .vlogicXor d a b _ _ | .vlogicAndn d a b _ _ =>
    some (shape3 d a b okWidth)
  | .vlogicSll d a b _ _ | .vlogicSrl d a b _ _ | .vlogicSra d a b _ _ => some (shape3 d a b okShift)
  | .vcmpEq _ a b _ _ | .vcmpNe _ a b _ _ => some (shapeCmp a b okCmpEq)
  | .vcmpLt _ a b _ _ | .vcmpLe _ a b _ _ | .vcmpGt _ a b _ _ | .vcmpGe _ a b _ _ | .vcmpUnord _ a b _ _ =>
    some (shapeCmp a b okCmp)
  | .vsel d a b _ => some (shape3 d a b okPair)
  | .vcvt d a _ _ | .vcvtSat d a _ _ => some (shape2 d a okCvt)
  | .vcvtBlk d a b _ _ => some (shape3 d a b okBlk)
  | .vcvtScale d a _ _ _ => some (shape2 d a okScale)
  | .vmodAddm d a b _ _ | .vmodSubm d a b _ _ | .vmodMulm d a b _ _ => some (shape3 d a b okMod)
  | .vmodMacm d a b _ _ => some (shapeAcc d a b okMod)
  | .vxAdd d a _ _ _ _ | .vxSub d a _ _ _ _ | .vxMul d a _ _ _ _ | .vxMin d a _ _ _ _ | .vxMax d a _ _ _ _ =>
    some (shape2 d a okX)
  | .vxAnd d a _ _ _ _ | .vxOr d a _ _ _ _ => some (shape2 d a okXLogic)
  | .vxFma d a _ _ _ _ => some { shape2 d a okXFma with rd := true }
  | .vsfuExp2 d a _ _ | .vsfuLog2 d a _ _ => some (shape2 d a okExp)
  | .vsfuRcp d a _ _ | .vsfuRsq d a _ _ | .vsfuSqrt d a _ _ => some (shape2 d a okSfu)
  | .vsfuRcpstep d a b _ _ | .vsfuRsqstep d a b _ _ => some (shape3 d a b okStep)
  | .vsmaxUpd d a b _ _ | .vsmaxNorm d a b _ _ => some (shape3 d a b okSmax)
  | .vredSum d a _ _ | .vredMin d a _ _ | .vredMax d a _ _ => some (shape2 d a okRed)
  | .vredAnd d a _ _ | .vredOr d a _ _ | .vredXor d a _ _ => some (shape2 d a okRedInt)
  | .vredWsum d a b _ _ => some (shape3 d a b okFma)
  | .vslideUp d a _ _ _ _ | .vslideDown d a _ _ _ _ | .vslideRot d a _ _ _ _ => some (shape2 d a okWidth2)
  | .vperm d a b _ _ => some (shape3 d a b okPerm)
  | .vcompCompress d a _ | .vcompExpand d a _ => some (shape2 d a okWidth2)
  | .vcompIota d _ _ _ | .vcompCidx d _ _ => some (shapeD d okIntD)
  | .vbflyH d a _ | .vbflyHF d a _ => some (shape2 d a okFly)
  | .vbflyCt d a b _ | .vbflyGs d a b _ => some (shape3 d a b okFlyMod)
  | .vdecomp d a _ _ _ _ _ => some (shape2 d a okDecomp)
  | .vmv d a _ _ => some (shape2 d a okWidth2)
  | .vmvBcast d _ _ _ _ | .vmvFromx d _ _ _ _ => some (shapeD d okBcast)
  | .vmvTox _ a _ => some (shapeA a okTox)
  | .vmvWid d _ _ => some (shapeD d okIntD)
  | .ehistAcc a _ _ _ => some (shapeA a okHist)
  | .ehistRead d _ _ => some (shapeD d okHistRead)
  | .ehistClr _ _ => some shapeNone
  | .mlogAnd _ _ _ | .mlogOr _ _ _ | .mlogXor _ _ _ | .mlogAndn _ _ _ | .mlogOrn _ _ _ | .mlogXnor _ _ _
  | .mlogNot _ _ | .mcnt _ _ | .mcntFirst _ _ | .msetvl _ _ | .mmv _ _ | .mmvSet _ | .mmvClr _ => some shapeNone
  | .vld t _ _ _ _ => some (shapeLd t okUnit)
  | .vldS t _ _ _ _ _ => some (shapeLd t okStride)
  | .vldX t _ ix _ _ _ => some (shapeLdX t ix)
  | .vst t _ _ _ _ => some (shapeSt t okUnit)
  | .vstS t _ _ _ _ _ => some (shapeSt t okStride)
  | .vstX t _ ix _ _ _ => some (shapeStX t ix)
  | .vamoAdd t _ ix _ _ _ | .vamoAnd t _ ix _ _ _ | .vamoOr t _ ix _ _ _ | .vamoXor t _ ix _ _ _
  | .vamoMin t _ ix _ _ _ | .vamoMax t _ ix _ _ _ | .vamoSwap t _ ix _ _ _ => some (shapeAmo t ix)
  | .mld _ _ _ _ _ | .mst _ _ _ _ _ | .sbind _ _ | .sunbind _ => some shapeNone
  | .tmma _ _ _ _ | .tcvt _ _ _ | .tcopy _ _ _ | .jstat _ _ => some shapeNone
  | .btnWait q => if q = 3 then none else some shapeNone
  | .btnPost q => if q = 2 then none else some shapeNone
  | .btnWaitPost q => if q = 3 then none else some shapeNone
  | _ => none

/-- The mask registers an instruction writes and reads beside the gate of mk. -/
def maskDest : Instr → Option Nat
  | .vcmpEq d _ _ _ _ | .vcmpNe d _ _ _ _ | .vcmpLt d _ _ _ _ | .vcmpLe d _ _ _ _ | .vcmpGt d _ _ _ _
  | .vcmpGe d _ _ _ _ | .vcmpUnord d _ _ _ _ => some d.toNat
  | .mlogAnd d _ _ | .mlogOr d _ _ | .mlogXor d _ _ | .mlogAndn d _ _ | .mlogOrn d _ _ | .mlogXnor d _ _
  | .mlogNot d _ | .mmv d _ | .mmvSet d | .mmvClr d => some d.toNat
  | .mld t _ _ _ _ => some t.toNat
  | _ => none

def maskSrcs : Instr → List Nat
  | .mlogAnd _ a b | .mlogOr _ a b | .mlogXor _ a b | .mlogAndn _ a b | .mlogOrn _ a b | .mlogXnor _ a b =>
    [a.toNat, b.toNat]
  | .mlogNot _ a | .mmv _ a | .mcnt _ a | .mcntFirst _ a | .msetvl _ a => [a.toNat]
  | .vcompIota _ a _ _ | .vcompCidx _ a _ => [a.toNat]
  | .vcompCompress _ _ _ | .vcompExpand _ _ _ | .vsel _ _ _ _ => [0]
  | .mst t _ _ _ _ => [t.toNat]
  | .tmma _ m _ _ => if m = 15 then [] else [m.toNat]
  | _ => []

/-- The mk field. -/
def mkOf : Instr → Bool
  | .vadd _ _ _ _ k | .vaddSub _ _ _ _ k | .vaddRsub _ _ _ _ k | .vaddAdds _ _ _ _ k | .vaddSubs _ _ _ _ k
  | .vaddAbsd _ _ _ _ k | .vmul _ _ _ _ k | .vmulDiv _ _ _ _ k | .vminmaxMin _ _ _ _ k | .vminmaxMax _ _ _ _ k
  | .vminmaxMinnum _ _ _ _ k | .vminmaxMaxnum _ _ _ _ k | .vmulMulh _ _ _ _ k | .vmulMulhn _ _ _ _ k
  | .vmulRem _ _ _ _ k | .vfma _ _ _ _ k | .vfmaFms _ _ _ _ k | .vfmaFnma _ _ _ _ k | .vfmaFnms _ _ _ _ k
  | .vlogicAnd _ _ _ _ k | .vlogicOr _ _ _ _ k | .vlogicXor _ _ _ _ k | .vlogicAndn _ _ _ _ k
  | .vlogicSll _ _ _ _ k | .vlogicSrl _ _ _ _ k | .vlogicSra _ _ _ _ k | .vcmpEq _ _ _ _ k | .vcmpNe _ _ _ _ k
  | .vcmpLt _ _ _ _ k | .vcmpLe _ _ _ _ k | .vcmpGt _ _ _ _ k | .vcmpGe _ _ _ _ k | .vcmpUnord _ _ _ _ k
  | .vcvt _ _ _ k | .vcvtSat _ _ _ k | .vcvtBlk _ _ _ _ k | .vcvtScale _ _ _ _ k | .vmodAddm _ _ _ _ k
  | .vmodSubm _ _ _ _ k | .vmodMulm _ _ _ _ k | .vmodMacm _ _ _ _ k | .vxAdd _ _ _ _ _ k | .vxSub _ _ _ _ _ k
  | .vxMul _ _ _ _ _ k | .vxMin _ _ _ _ _ k | .vxMax _ _ _ _ _ k | .vxAnd _ _ _ _ _ k | .vxOr _ _ _ _ _ k
  | .vxFma _ _ _ _ _ k | .vsfuExp2 _ _ _ k | .vsfuLog2 _ _ _ k | .vsfuRcp _ _ _ k | .vsfuRsq _ _ _ k
  | .vsfuSqrt _ _ _ k | .vsfuRcpstep _ _ _ _ k | .vsfuRsqstep _ _ _ _ k | .vsmaxUpd _ _ _ _ k
  | .vsmaxNorm _ _ _ _ k | .vredSum _ _ _ k | .vredMin _ _ _ k | .vredMax _ _ _ k | .vredAnd _ _ _ k
  | .vredOr _ _ _ k | .vredXor _ _ _ k | .vredWsum _ _ _ _ k | .vslideUp _ _ _ _ _ k | .vslideDown _ _ _ _ _ k
  | .vslideRot _ _ _ _ _ k | .vperm _ _ _ _ k | .vcompIota _ _ _ k | .vdecomp _ _ _ _ _ k _ | .vmv _ _ _ k
  | .vmvBcast _ _ _ _ k | .vmvFromx _ _ _ _ k | .vmvWid _ _ k | .ehistAcc _ _ _ k => k
  | .vld _ _ k _ _ | .vldS _ _ _ k _ _ | .vldX _ _ _ k _ _ | .vst _ _ k _ _ | .vstS _ _ _ k _ _ | .vstX _ _ _ k _ _
  | .vamoAdd _ _ _ k _ _ | .vamoAnd _ _ _ k _ _ | .vamoOr _ _ _ k _ _ | .vamoXor _ _ _ k _ _
  | .vamoMin _ _ _ k _ _ | .vamoMax _ _ _ k _ _ | .vamoSwap _ _ _ k _ _ | .mld _ _ k _ _ | .mst _ _ k _ _ => k
  | _ => false

/-- The rm field; the VBFLY words, which have none, read frm as under DYN (R124, R125), and an engine job captures frm for a
card that asks for it (R211). -/
def rmOf : Instr → Option (BitVec 3)
  | .vadd _ _ _ r _ | .vaddSub _ _ _ r _ | .vaddRsub _ _ _ r _ | .vaddAdds _ _ _ r _ | .vaddSubs _ _ _ r _
  | .vaddAbsd _ _ _ r _ | .vmul _ _ _ r _ | .vmulDiv _ _ _ r _ | .vminmaxMin _ _ _ r _ | .vminmaxMax _ _ _ r _
  | .vminmaxMinnum _ _ _ r _ | .vminmaxMaxnum _ _ _ r _ | .vmulMulh _ _ _ r _ | .vmulMulhn _ _ _ r _
  | .vmulRem _ _ _ r _ | .vfma _ _ _ r _ | .vfmaFms _ _ _ r _ | .vfmaFnma _ _ _ r _ | .vfmaFnms _ _ _ r _
  | .vlogicAnd _ _ _ r _ | .vlogicOr _ _ _ r _ | .vlogicXor _ _ _ r _ | .vlogicAndn _ _ _ r _
  | .vlogicSll _ _ _ r _ | .vlogicSrl _ _ _ r _ | .vlogicSra _ _ _ r _ | .vcmpEq _ _ _ r _ | .vcmpNe _ _ _ r _
  | .vcmpLt _ _ _ r _ | .vcmpLe _ _ _ r _ | .vcmpGt _ _ _ r _ | .vcmpGe _ _ _ r _ | .vcmpUnord _ _ _ r _
  | .vsel _ _ _ r | .vcvt _ _ r _ | .vcvtSat _ _ r _ | .vcvtBlk _ _ _ r _ | .vcvtScale _ _ _ r _
  | .vmodAddm _ _ _ r _ | .vmodSubm _ _ _ r _ | .vmodMulm _ _ _ r _ | .vmodMacm _ _ _ r _ | .vxAdd _ _ _ _ r _
  | .vxSub _ _ _ _ r _ | .vxMul _ _ _ _ r _ | .vxMin _ _ _ _ r _ | .vxMax _ _ _ _ r _ | .vxAnd _ _ _ _ r _
  | .vxOr _ _ _ _ r _ | .vxFma _ _ _ _ r _ | .vsfuExp2 _ _ r _ | .vsfuLog2 _ _ r _ | .vsfuRcp _ _ r _
  | .vsfuRsq _ _ r _ | .vsfuSqrt _ _ r _ | .vsfuRcpstep _ _ _ r _ | .vsfuRsqstep _ _ _ r _ | .vsmaxUpd _ _ _ r _
  | .vsmaxNorm _ _ _ r _ | .vredSum _ _ r _ | .vredMin _ _ r _ | .vredMax _ _ r _ | .vredAnd _ _ r _
  | .vredOr _ _ r _ | .vredXor _ _ r _ | .vredWsum _ _ _ r _ | .vslideUp _ _ _ _ r _ | .vslideDown _ _ _ _ r _
  | .vslideRot _ _ _ _ r _ | .vperm _ _ _ r _ | .vcompCompress _ _ r | .vcompExpand _ _ r | .vcompIota _ _ r _
  | .vcompCidx _ _ r | .vdecomp _ _ _ _ r _ _ | .vmv _ _ r _ | .vmvBcast _ _ _ r _ | .vmvTox _ _ r
  | .vmvFromx _ _ _ r _ | .vmvWid _ r _ | .ehistAcc _ _ r _ | .ehistRead _ _ r | .ehistClr _ r => some r
  | .vbflyH _ _ _ | .vbflyHF _ _ _ => some 7
  | .tmma _ _ _ _ | .tcvt _ _ _ | .tcopy _ _ _ => some 7
  | _ => none

/-- The baton queues an instruction of the vector queue waits on and posts to (R19, R191). -/
def batonWait : Instr → Option Nat
  | .vld _ _ _ w _ | .vldS _ _ _ _ w _ | .vldX _ _ _ _ w _ | .vst _ _ _ w _ | .vstS _ _ _ _ w _ | .vstX _ _ _ _ w _
  | .vamoAdd _ _ _ _ w _ | .vamoAnd _ _ _ _ w _ | .vamoOr _ _ _ _ w _ | .vamoXor _ _ _ _ w _
  | .vamoMin _ _ _ _ w _ | .vamoMax _ _ _ _ w _ | .vamoSwap _ _ _ _ w _ | .mld _ _ _ w _ | .mst _ _ _ w _ =>
    if w then some 1 else none
  | .btnWait q | .btnWaitPost q => some q.toNat
  | _ => none

def batonPost : Instr → Option Nat
  | .vld _ _ _ _ p | .vldS _ _ _ _ _ p | .vldX _ _ _ _ _ p | .vst _ _ _ _ p | .vstS _ _ _ _ _ p | .vstX _ _ _ _ _ p
  | .vamoAdd _ _ _ _ _ p | .vamoAnd _ _ _ _ _ p | .vamoOr _ _ _ _ _ p | .vamoXor _ _ _ _ _ p
  | .vamoMin _ _ _ _ _ p | .vamoMax _ _ _ _ _ p | .vamoSwap _ _ _ _ _ p | .mld _ _ _ _ p | .mst _ _ _ _ p =>
    if p then some 0 else none
  | .btnPost q => some q.toNat
  | .btnWaitPost q => some (if q = 0 then 1 else if q = 1 then 0 else 2)
  | _ => none

/-- The x register that an instruction of the vector queue writes when it retires (R117). -/
def xDest : Instr → Option XReg
  | .vmvTox s _ _ | .mcnt s _ | .mcntFirst s _ | .msetvl s _ | .jstat s _ => some s
  | _ => none

/-- The x registers whose values an instruction of the vector queue captures (R77): scalar 0 and scalar 1. -/
def scalarsOf : Instr → Option XReg × Option XReg
  | .vxAdd _ _ s sel _ _ | .vxSub _ _ s sel _ _ | .vxMul _ _ s sel _ _ | .vxMin _ _ s sel _ _
  | .vxMax _ _ s sel _ _ | .vxAnd _ _ s sel _ _ | .vxOr _ _ s sel _ _ | .vxFma _ _ s sel _ _
  | .vslideUp _ _ s sel _ _ | .vslideDown _ _ s sel _ _ | .vslideRot _ _ s sel _ _ | .vdecomp _ _ s sel _ _ _
  | .vmvBcast _ s sel _ _ | .vmvFromx _ s sel _ _ => (if sel then none else some s, none)
  | .vld _ b _ _ _ | .vldX _ b _ _ _ _ | .vst _ b _ _ _ | .vstX _ b _ _ _ _ | .vamoAdd _ b _ _ _ _
  | .vamoAnd _ b _ _ _ _ | .vamoOr _ b _ _ _ _ | .vamoXor _ b _ _ _ _ | .vamoMin _ b _ _ _ _
  | .vamoMax _ b _ _ _ _ | .vamoSwap _ b _ _ _ _ | .mld _ b _ _ _ | .mst _ b _ _ _ | .sbind _ b | .tmma b _ _ _
  | .tcvt b _ _ | .tcopy b _ _ | .jstat _ b => (some b, none)
  | .vldS _ b st _ _ _ | .vstS _ b st _ _ _ => (some b, some st)
  | _ => (none, none)

/-- The whole-vector functions of R117, which never start before the producers of their sources have retired. -/
def wholeVector : Instr → Bool
  | .vredSum _ _ _ _ | .vredMin _ _ _ _ | .vredMax _ _ _ _ | .vredAnd _ _ _ _ | .vredOr _ _ _ _ | .vredXor _ _ _ _
  | .vredWsum _ _ _ _ _ | .vslideUp _ _ _ _ _ _ | .vslideDown _ _ _ _ _ _ | .vslideRot _ _ _ _ _ _
  | .vperm _ _ _ _ _ | .vcompCompress _ _ _ | .vcompExpand _ _ _ | .vcompIota _ _ _ _ | .vcompCidx _ _ _
  | .vbflyH _ _ _ | .vbflyHF _ _ _ | .vbflyCt _ _ _ _ | .vbflyGs _ _ _ _ | .ehistRead _ _ _ | .ehistClr _ _
  | .vmvTox _ _ _ | .mcnt _ _ | .mcntFirst _ _ | .msetvl _ _ => true
  | _ => false

/-- The instructions of the vector queue that the access engine executes: those of memory, and the BTN that R191 gives it; the
vector unit executes all others (R163). -/
def accessEngine : Instr → Bool
  | .vld _ _ _ _ _ | .vldS _ _ _ _ _ _ | .vldX _ _ _ _ _ _ | .vst _ _ _ _ _ | .vstS _ _ _ _ _ _ | .vstX _ _ _ _ _ _
  | .vamoAdd _ _ _ _ _ _ | .vamoAnd _ _ _ _ _ _ | .vamoOr _ _ _ _ _ _ | .vamoXor _ _ _ _ _ _
  | .vamoMin _ _ _ _ _ _ | .vamoMax _ _ _ _ _ _ | .vamoSwap _ _ _ _ _ _ | .mld _ _ _ _ _ | .mst _ _ _ _ _
  | .sbind _ _ | .sunbind _ => true
  | .btnWait q | .btnWaitPost q => q == 1
  | .btnPost q => q == 0
  | _ => false

/-- Whether a group is legal under a vtype: at most eight registers, aligned, inside the file, and none bound to a
stream when there are several (R24, R25). -/
def groupOk (x : Ctx) (vt : BitVec 17) (r : Nat) (t : Tag) : Bool :=
  let n := spanOf vt t
  n ≤ 8 && r % n == 0 && r + n ≤ 64 && (n == 1 || (span r n).all (fun k => (find? x.streams k).isNone))

/-- The tag of an operand, zero where there is none (R23, R138). -/
def tagOr (x : Ctx) : Option VNum → BitVec 5
  | some r => x.tag r.toNat
  | none => 0

def operandOk (x : Ctx) (vt : BitVec 17) (o : Option VNum) (t : BitVec 5) : Bool := match o with
  | some r => groupOk x vt r.toNat t.toNat
  | none => true

/-- Whether an instruction passes the TYPE checks of R25 under a vtype and tags d, a and b. -/
def Shape.typeOk (sh : Shape) (x : Ctx) (vt : BitVec 17) (d a b : BitVec 5) : Bool :=
  operandOk x vt sh.d d && operandOk x vt sh.a a && operandOk x vt sh.b b && sh.ok d.toNat a.toNat b.toNat

/-- The word of an instruction, for its dump entry and for tval (R138, R139). -/
def wordOf (i : Instr) : BitVec 32 := BitVec.ofNat 32 (i.encode.getD 0)

/-- The decoded form of an instruction at its point in program order (R26, R138). -/
def entryOf (x : Ctx) (i : Instr) (sh : Shape) : VEntry :=
  let sc := scalarsOf i
  { instr := i
    addr := x.pc
    vl := x.vl
    es := x.csr.es
    rm := match rmOf i with
      | some r => if r = 7 then x.csr.frm else r
      | none => 0
    vtype := x.csr.vtype
    tagd := tagOr x sh.d
    taga := tagOr x sh.a
    tagb := tagOr x sh.b
    srkey := x.csr.srkey
    srep := x.csr.srep.setWidth 32
    mq := x.csr.mq
    sc0 := match sc.1 with | some r => x.x r | none => 0
    sc1 := match sc.2 with | some r => x.x r | none => 0
    flags := 0
    word := wordOf i
    popped := false
    begun := false
    waits := false
    bound := x.marks.map (fun m => m.obj) }

/-- The x registers and the tags by which an entry names its operands. -/
def VEntry.td (e : VEntry) : Tag := e.tagd.toNat
def VEntry.ta (e : VEntry) : Tag := e.taga.toNat
def VEntry.tb (e : VEntry) : Tag := e.tagb.toNat

/-- The vector registers that an entry reads and writes, one by one. -/
def groupRegs (vt : BitVec 17) (o : Option VNum) (t : BitVec 5) : List Nat := match o with
  | some r => span r.toNat (spanOf vt t.toNat)
  | none => []

def VEntry.readsV (e : VEntry) : List Nat := match shapeOf e.instr with
  | some sh => (if sh.rd then groupRegs e.vtype sh.d e.tagd else []) ++ groupRegs e.vtype sh.a e.taga ++
    groupRegs e.vtype sh.b e.tagb
  | none => []

/-- The register that an instruction writes beside its vd: vb of VSMAX function 0, whose first elements hold its state (R114). -/
def stateReg : Instr → List Nat
  | .vsmaxUpd _ _ b _ _ => [b.toNat]
  | _ => []

def VEntry.writesV (e : VEntry) : List Nat := match shapeOf e.instr with
  | some sh => (if sh.wr then groupRegs e.vtype sh.d e.tagd else []) ++ stateReg e.instr
  | none => []

/-- The source registers that are bound to a load stream, each once (R96, R188); one bound to a store stream is read as it stands
(log 93). -/
def boundSources (x : Ctx) (e : VEntry) : List Nat :=
  (e.readsV.filter (fun r => match find? x.streams r with
    | some st => !st.store
    | none => false)).eraseDups

/-- The registers written that are bound to a store stream, each once: a write of one appends an entry (R167, R188); one bound to a load
stream is written in place (log 93). -/
def boundDests (x : Ctx) (e : VEntry) : List Nat :=
  (e.writesV.filter (fun r => match find? x.streams r with
    | some st => st.store
    | none => false)).eraseDups

/-- A stream's strips are used up (R188). -/
def Stream.ended (st : Stream) : Bool := st.count ≤ st.pos

/-- The fault that a pop would meet (R189). -/
def popFault (x : Ctx) (r : Nat) : Option (Nat × Word) := match find? x.streams r with
  | some st => match st.entries with
    | en :: _ => en.fault.map (fun f => (f.1, f.2.1))
    | [] => none
  | none => none

/-- A pop of a load stream: the register holds the strip, or zeros when the count is used up; the stream advances by its
strip (R167, R188). -/
def popStream (x : Ctx) (r : Nat) : Ctx := match find? x.streams r with
  | none => x
  | some st => match st.entries with
    | en :: rest =>
      { x.setV r en.bits with streams := put x.streams r { st with entries := rest, pos := st.pos + st.strip } }
    | [] => { x.setV r 0 with
        streams := put x.streams r { st with pos := st.pos + st.strip, fill := max st.fill (st.pos + st.strip) } }

def popStreams (x : Ctx) : List Nat → Ctx
  | [] => x
  | r :: rs => popStreams (popStream x r) rs

/-- The positions that an append writes: active ones below min(vl, strip) (R188). -/
def liveBits (x : Ctx) (mk : Bool) (n : Nat) : VReg :=
  let low := keepLow (BitVec.allOnes 16384) n
  if mk then x.m 0 &&& low else low

/-- An append of a register to its store stream (R167, R188). -/
def appendStream (x : Ctx) (r : Nat) (live : VReg) : Ctx := match find? x.streams r with
  | none => x
  | some st =>
    let en : StreamEntry := { bits := x.v r, first := st.pos, live := live, from_ := 0, fault := none, dev := false }
    { x with streams := put x.streams r { st with entries := st.entries ++ [en], pos := st.pos + st.strip } }

/-- The appends of an instruction that leaves, which ends at a vl that a trim may have lowered (R141, R188). -/
def appendAll (x : Ctx) (e : VEntry) (vl : Nat) : Ctx :=
  (boundDests x e).foldl (fun x r => appendStream x r (liveBits x (mkOf e.instr) (min vl (match find? x.streams r with
    | some st => st.strip
    | none => 0)))) x

/-- The strips that instructions have popped and given back at a stop stand in their streams again, the oldest first (R126). -/
def pushBack (x : Ctx) : List (Nat × StreamEntry) → Ctx
  | [] => x
  | (r, en) :: rest =>
    let x := pushBack x rest
    match find? x.streams r with
    | some st => { x with streams := put x.streams r { st with entries := en :: st.entries, pos := st.pos - st.strip } }
    | none => x

/-- The strips that a pop of some registers takes. -/
def headStrips (x : Ctx) (rs : List Nat) : List (Nat × StreamEntry) :=
  rs.filterMap (fun r => match find? x.streams r with
    | some st => (st.entries.head?).map (fun en => (r, en))
    | none => none)

/-- A store stream has room for one more entry than the instructions of a list will append (R167). -/
def appendRoom (x : Ctx) (ahead : List VEntry) (r : Nat) : Bool := match find? x.streams r with
  | some st => st.entries.length + (ahead.filter (fun e => (boundDests x e).contains r)).length < 4
  | none => true

end Sys2Proof.Machine
end

