-- ==== Sys2Proof/Machine/Special.lean ====
section
/-! DEFINITION. The special functions of R71 on exact values. A value that no fraction equals is given by a fraction that
lies strictly between the same neighbours as the function's value on a grid of 2^−64 of its leading bit, so that every
rounding of R63 and R64 selects what it would select on the function's value. -/

namespace Sys2Proof.Machine

/-- A lower bound of ln 2 × 2^p: the sum of 2^p / (k 2^k) for k from p down to 1, each term cut; it is less than p + 2
below the value. -/
def ln2Bits (p : Nat) : Nat → Nat
  | 0 => 0
  | k + 1 => 2 ^ p / ((k + 1) * 2 ^ (k + 1)) + ln2Bits p k

/-- The sum of t^j / j! from a term on, at p fraction bits, each term cut. -/
def expTerms (p t : Nat) : Nat → Nat → Nat → Nat
  | 0, _, _ => 0
  | n + 1, j, term => term + expTerms p t n (j + 1) (term * t / (2 ^ p * (j + 1)))

/-- Bounds of 2^f × 2^p for a fraction num / den from 0 up to 1. -/
def exp2Bounds (p num den : Nat) : Nat × Nat :=
  let l := ln2Bits p p
  let lo := expTerms p (l * num / den) p 0 (2 ^ p)
  (lo, lo + 8 * p + 64)

/-- 2^f for 0 < f < 1, first at 256 bits, then at twice as many while the bounds fall into two cells of 2^−96. -/
def exp2Frac : Nat → Nat → Nat → Nat → Val
  | 0, p, num, den => .fin false (exp2Bounds p num den).1 (2 ^ p)
  | n + 1, p, num, den =>
    let b := exp2Bounds p num den
    let c := b.1 / 2 ^ (p - 96)
    if c = b.2 / 2 ^ (p - 96) then .fin false (2 * c + 1) (2 ^ 97) else exp2Frac n (2 * p) num den

/-- EXP2 of a value (R71, R112). Beyond ±4,096 every format overflows or lies far below its least value. -/
def exp2Val : Val → Val × Flags
  | .nan g => (.nan false, sigFlag (.nan g))
  | .inf false => (.inf false, 0)
  | .inf true => (.fin false 0 1, 0)
  | .fin neg num den =>
    if num = 0 then (.fin false 1 1, 0)
    else if 4096 * den < num then
      (if neg then .fin false 1 (2 ^ 4096) else .fin false (2 ^ 4096) 1, 0)
    else
      let w := num / den
      let r := num % den
      if r = 0 then (scaled false 1 1 (if neg then -(w : Int) else w), 0)
      else
        let e : Int := if neg then -(w : Int) - 1 else w
        match exp2Frac 6 256 (if neg then den - r else r) den with
        | .fin _ a b => (scaled false a b e, 0)
        | v => (v, 0)

/-- Fraction bits of log2 of a number whose bounds are lo and hi at p bits, from 1 up to 2: squared, it shows the next
bit by reaching 2. -/
def log2Bits (p : Nat) : Nat → Nat → Nat → Nat → Option Nat
  | 0, _, _, acc => some acc
  | n + 1, lo, hi, acc =>
    let l := lo * lo / 2 ^ p
    let h := hi * hi / 2 ^ p + 1
    let two := 2 ^ (p + 1)
    if two ≤ l then log2Bits p n (l / 2) (h / 2 + 1) (2 * acc + 1)
    else if h < two then log2Bits p n l h (2 * acc)
    else none

/-- The first 160 fraction bits of log2 of num / den, from 1 up to 2, first at 512 bits. -/
def log2Frac : Nat → Nat → Nat → Nat → Nat
  | 0, _, _, _ => 0
  | n + 1, p, num, den =>
    let lo := num * 2 ^ p / den
    match log2Bits p 160 lo (lo + 1) 0 with
    | some f => f
    | none => log2Frac n (2 * p) num den

/-- LOG2 of a value (R71, R112). -/
def log2Val : Val → Val × Flags
  | .nan g => (.nan false, sigFlag (.nan g))
  | .inf false => (.inf false, 0)
  | .inf true => (.nan false, fNV)
  | .fin neg num den =>
    if num = 0 then (.inf true, fDZ)
    else if neg then (.nan false, fNV)
    else
      let e := floorLog2 num den
      let n := if 0 ≤ e then num else num * 2 ^ (-e).toNat
      let d := if 0 ≤ e then den * 2 ^ e.toNat else den
      if n = d then (intVal e, 0)
      else
        let f := log2Frac 4 512 n d
        let z : Int := e * 2 ^ 161 + (2 * f + 1 : Nat)
        (.fin (z < 0) z.natAbs (2 ^ 161), 0)

/-- RCP of a value (R112). -/
def rcpVal : Val → Val × Flags
  | .nan g => (.nan false, sigFlag (.nan g))
  | .inf s => (.fin s 0 1, 0)
  | .fin s n d => if n = 0 then (.inf s, fDZ) else (.fin s d n, 0)

/-- RSQ of a value (R112). -/
def rsqVal : Val → Val × Flags
  | .nan g => (.nan false, sigFlag (.nan g))
  | .inf false => (.fin false 0 1, 0)
  | .inf true => (.nan false, fNV)
  | .fin s n d => if n = 0 then (.inf s, fDZ) else if s then (.nan false, fNV) else (sqrtFrac d n, 0)

/-- SQRT of a value (R112). -/
def sqrtVal : Val → Val × Flags
  | .nan g => (.nan false, sigFlag (.nan g))
  | .inf false => (.inf false, 0)
  | .inf true => (.nan false, fNV)
  | .fin s n d => if n = 0 then (.fin s 0 1, 0) else if s then (.nan false, fNV) else (sqrtFrac n d, 0)

/-- The refined reciprocal seed y for a: y + y × (1 − a × y), exact (R113). -/
def rcpStep (rm : Nat) (a y : Val) : Val × Flags :=
  if y.isZero || y.isInf then (y, 0)
  else if a.isNan || y.isNan then (.nan false, sigFlag a ||| sigFlag y)
  else
    let p := mulVal a y
    let u := addVal rm (.fin false 1 1) p.1.neg
    let v := mulVal y u.1
    let r := addVal rm y v.1
    (r.1, p.2 ||| u.2 ||| v.2 ||| r.2)

/-- The refined reciprocal square root seed y for a: y + y × (1 − a × y × y) / 2, exact (R113). -/
def rsqStep (rm : Nat) (a y : Val) : Val × Flags :=
  if y.isZero || y.isInf then (y, 0)
  else if a.isNan || y.isNan then (.nan false, sigFlag a ||| sigFlag y)
  else
    let p := mulVal a y
    let q := mulVal p.1 y
    let u := addVal rm (.fin false 1 1) q.1.neg
    let v := mulVal y u.1
    let h := mulVal v.1 (.fin false 1 2)
    let r := addVal rm y h.1
    (r.1, p.2 ||| q.2 ||| u.2 ||| v.2 ||| h.2 ||| r.2)

end Sys2Proof.Machine
end

