-- ==== Sys2Proof/Machine/Elements.lean ====
section
/-! DEFINITION. The element loop of vector arithmetic (R95) and what its functions share: sources, the single rounding into
a destination (R62, R99), minimum and maximum (R102), comparison (R104), reduction trees (R69). -/

namespace Sys2Proof.Machine

/-- What an instruction computes on the registers of its context: the context after it, and the flags of its
elements. -/
abbrev Effect := Ctx → VEntry → Ctx × Flags

/-- The flags of several elements, together (R68). -/
def orFlags : List Flags → Flags
  | [] => 0
  | f :: r => f ||| orFlags r

/-- Results written to a vector destination at their positions, its tail from element n on, and the flags (R45, R95). -/
def writeResults (x : Ctx) (e : VEntry) (d : VNum) (n : Nat) (rs : List (Nat × Nat × Flags)) : Ctx × Flags :=
  (tailFrom (setElems x d.toNat (tagWidth e.td) (rs.map (fun r => (r.1, r.2.1)))) e.vtype d.toNat e.td n,
   orFlags (rs.map (fun r => r.2.2)))

/-- The element loop of R95: every source is read before a destination element is written. -/
def perElement (x : Ctx) (e : VEntry) (mk : Bool) (d : VNum) (f : Nat → Nat × Flags) : Ctx × Flags :=
  writeResults x e d e.vl ((activeAt x e mk).map (fun i => (i, f i)))

/-- A loop whose function sets no flag. -/
def perElementBits (x : Ctx) (e : VEntry) (mk : Bool) (d : VNum) (f : Nat → Nat) : Ctx × Flags :=
  perElement x e mk d (fun i => (f i, 0))

/-- A source of an arithmetic function: its tag and the bits of each element. -/
structure Src where
  tag  : Tag
  bits : Nat → Nat

/-- A vector source and a scalar source, which has the same bits at every position (R110). -/
def regSrc (x : Ctx) (r : VNum) (t : Tag) : Src := { tag := t, bits := fun i => elem x r.toNat (tagWidth t) i }
def constSrc (t : Tag) (b : Nat) : Src := { tag := t, bits := fun _ => b }

/-- The value and the integer of element i of a source. -/
def Src.val (s : Src) (e : VEntry) (i : Nat) : Val := srcVal e.settings s.tag (s.bits i)
def Src.int (s : Src) (i : Nat) : Int := intOf s.tag (s.bits i)
def Src.res (s : Src) (e : VEntry) (i : Nat) : Nat := s.bits i % e.mq.toNat

/-- An exact float result rounded once into the tag of vd, with the flags of the operation (R62). -/
def intoFloat (x : Ctx) (e : VEntry) (i : Nat) (v : Val × Flags) : Nat × Flags :=
  let r := roundFloat e.settings e.td e.rm.toNat false (srElem x e i) v.1
  (r.1, v.2 ||| r.2)

/-- The same under a saturating function of VADD: an overflow gives the largest finite value whatever vtype[11]
(R99). -/
def intoFloatSat (x : Ctx) (e : VEntry) (i : Nat) (v : Val × Flags) : Nat × Flags :=
  let r := intoFloat x e i v
  if r.2 &&& fOF = 0 then r else ((overflowPattern e.settings (fmtOf e.settings e.td) e.td true v.1.isNeg).1, r.2)

/-- A function of two sources: on integers when both tags are integers, else on values (R61, R62). -/
def arith2 (x : Ctx) (e : VEntry) (mk : Bool) (d : VNum) (a b : Src) (fi : Int → Int → Int)
    (ff : Val → Val → Val × Flags) : Ctx × Flags :=
  perElement x e mk d (fun i =>
    if isInt a.tag && isInt b.tag then (wrapInt e.td (fi (a.int i) (b.int i)), 0)
    else intoFloat x e i (ff (a.val e i) (b.val e i)))

/-- The saturating functions of VADD (R99). -/
def arithSat (x : Ctx) (e : VEntry) (mk : Bool) (d : VNum) (a b : Src) (fi : Int → Int → Int)
    (ff : Val → Val → Val × Flags) : Ctx × Flags :=
  perElement x e mk d (fun i =>
    if isInt a.tag && isInt b.tag then (clampInt e.td (fi (a.int i) (b.int i)), 0)
    else intoFloatSat x e i (ff (a.val e i) (b.val e i)))

/-- ± (a × b) ± c rounded once into vd, which holds c (R101): `np` negates the product and `nc` the accumulator. -/
def arithFma (x : Ctx) (e : VEntry) (mk : Bool) (d : VNum) (a b : Src) (np nc : Bool) : Ctx × Flags :=
  let c := regSrc x d e.td
  perElement x e mk d (fun i =>
    if isInt a.tag && isInt b.tag && isInt e.td then
      let p := a.int i * b.int i
      (wrapInt e.td ((if np then -p else p) + (if nc then -c.int i else c.int i)), 0)
    else
      let av := a.val e i
      let cv := c.val e i
      intoFloat x e i (fmaVal e.rm.toNat (if np then av.neg else av) (b.val e i) (if nc then cv.neg else cv)))

/-- The difference of two values (R99). -/
def subVal (rm : Nat) (a b : Val) : Val × Flags := addVal rm a b.neg

/-- The absolute difference (R99). -/
def absdVal (rm : Nat) (a b : Val) : Val × Flags :=
  let r := subVal rm a b
  (r.1.abs, r.2)

/-- Whether a value stands below another in the order in which −0 lies below +0 (R102). -/
def belowVal (a b : Val) : Bool :=
  match cmpVal a b with
  | some .lt => true
  | some .eq => a.isZero && a.isNeg && !b.isNeg
  | _ => false

/-- The lesser or the greater of two values; a NaN propagates (R102). -/
def minVal (a b : Val) : Val × Flags :=
  if a.isNan || b.isNan then (.nan false, sigFlag a ||| sigFlag b) else (if belowVal b a then b else a, 0)
def maxVal (a b : Val) : Val × Flags :=
  if a.isNan || b.isNan then (.nan false, sigFlag a ||| sigFlag b) else (if belowVal a b then b else a, 0)

/-- The forms that return the other source for one NaN (R102). -/
def minnumVal (a b : Val) : Val × Flags :=
  if a.isNan && b.isNan then (.nan false, sigFlag a ||| sigFlag b)
  else if a.isNan then (b, sigFlag a) else if b.isNan then (a, sigFlag b) else minVal a b
def maxnumVal (a b : Val) : Val × Flags :=
  if a.isNan && b.isNan then (.nan false, sigFlag a ||| sigFlag b)
  else if a.isNan then (b, sigFlag a) else if b.isNan then (a, sigFlag b) else maxVal a b

/-- A comparison into a mask register (R104): `hold` says which orders give 1, `un` what a NaN gives, and `ordered`
whether any NaN raises NV. -/
def compareInto (x : Ctx) (e : VEntry) (mk : Bool) (d : MNum) (a b : Src) (hold : Ordering → Bool)
    (un ordered : Bool) : Ctx × Flags :=
  let one (i : Nat) : Bool × Flags :=
    if a.tag = tM64 then (hold (compare (a.res e i) (b.res e i)), 0)
    else
      let av := a.val e i
      let bv := b.val e i
      match cmpVal av bv with
      | some o => (hold o, 0)
      | none => (un, if ordered then fNV else sigFlag av ||| sigFlag bv)
  let rs := (activeAt x e mk).map (fun i => (i, one i))
  (maskTail (setMaskBits x d.toNat (rs.map (fun r => (r.1, r.2.1)))) e.vtype d.toNat e.vl,
   orFlags (rs.map (fun r => r.2.2)))

/-- A value rounded into a tag other than k8 and m64 without a function, plain or saturating, with a random word for SR
(R105, R106). -/
def convertBits (st : Settings) (t : Tag) (rm sr : Nat) (sat : Bool) (v : Val) : Nat × Flags :=
  if isInt t then
    match v with
    | .nan _ => (0, fNV)
    | .inf neg => (wrapInt t (if neg then intMin t else intMax t), fNV)
    | .fin neg num den =>
      let (z, exact) := roundToInt rm sr neg num den
      if z < intMin t then (wrapInt t (intMin t), fNV)
      else if intMax t < z then (wrapInt t (intMax t), fNV)
      else (wrapInt t z, if exact then 0 else fNX)
  else
    let r := roundFloat (if sat then { st with novf := false } else st) t rm sat sr v
    (r.1, sigFlag v ||| r.2)

/-- The same into the tag of vd. -/
def convertVal (x : Ctx) (e : VEntry) (sat : Bool) (i : Nat) (v : Val) : Nat × Flags :=
  convertBits e.settings e.td e.rm.toNat (srElem x e i) sat v

/-- The least power of two that is at least n and 1, as its exponent, with fuel (R69). -/
def treeDepth : Nat → Nat → Nat → Nat
  | 0, _, k => k
  | f + 1, n, k => if n ≤ 2 ^ k then k else treeDepth f n (k + 1)

/-- One level of the tree: neighbours joined by a function of the node's place (R69). -/
def joinPairs (f : Nat → Val → Val → Val × Flags) : Nat → List Val → List Val × Flags
  | i, a :: b :: r =>
    let c := f i a b
    let t := joinPairs f (i + 1) r
    (c.1 :: t.1, c.2 ||| t.2)
  | _, l => (l, 0)

/-- The tree of R69 from level lvl on: k levels are left. -/
def foldTree (f : Nat → Nat → Val → Val → Val × Flags) : Nat → Nat → List Val → Val × Flags
  | 0, _, l => (l.getD 0 (.fin false 0 1), 0)
  | k + 1, lvl, l =>
    let r := joinPairs (f lvl) 0 l
    let t := foldTree f k (lvl + 1) r.1
    (t.1, r.2 ||| t.2)

/-- A value rounded into a float tag that is not the destination's, and read back (R62, R69); flush acts on it too (R65, R114, log
84). -/
def viaFloat (e : VEntry) (t : Tag) (rm sr : Nat) (v : Val × Flags) : Val × Flags :=
  let r := roundFloat e.settings t rm false sr v.1
  (floatVal e.settings t r.1, v.2 ||| r.2)

/-- The identity of a floating sum (R69). -/
def sumIdentity (rm : Nat) : Val := .fin (rm != 2) 0 1

/-- The identity of a floating minimum: +∞, or the largest finite value (R69). -/
def minIdentity (e : VEntry) (t : Tag) : Val :=
  let f := fmtOf e.settings t
  match f.inf with
  | some _ => .inf false
  | none => magVal f false f.top

/-- A sum over the tree, every node rounded into tag t; leaves by position (R69). -/
def treeSum (x : Ctx) (e : VEntry) (t : Tag) (rm : Nat) (leaf : Nat → Option Val) : Val × Flags :=
  let k := treeDepth 15 e.vl 0
  let leaves := (span 0 (2 ^ k)).map (fun i => (leaf i).getD (sumIdentity rm))
  foldTree (fun lvl i a b =>
    viaFloat e t rm (srAt x e (e.srep.toNat + lvl) (i * 2 ^ lvl)) (addVal rm a b)) k 1 leaves

/-- The minimum or maximum over the tree (R69, R119). -/
def treePick (e : VEntry) (f : Val → Val → Val × Flags) (id : Val) (leaf : Nat → Option Val) : Val × Flags :=
  let k := treeDepth 15 e.vl 0
  foldTree (fun _ _ a b => f a b) k 1 ((span 0 (2 ^ k)).map (fun i => (leaf i).getD id))

/-- An exact power of two as a value. -/
def pow2 (z : Int) : Val := scaled false 1 1 z

end Sys2Proof.Machine
end

