-- ==== Sys2Proof/Machine/Arith.lean ====
section
/-! DEFINITION. What the vector arithmetic of opcodes 0x24 to 0x2F computes (R94–R115). -/

namespace Sys2Proof.Machine

/-- VADD (R99). -/
def vaddEffect (d a b : VNum) (mk : Bool) : Effect := fun x e =>
  arith2 x e mk d (regSrc x a e.ta) (regSrc x b e.tb) (fun p q => p + q) (addVal e.rm.toNat)
def vaddSubEffect (d a b : VNum) (mk : Bool) : Effect := fun x e =>
  arith2 x e mk d (regSrc x a e.ta) (regSrc x b e.tb) (fun p q => p - q) (subVal e.rm.toNat)
def vaddRsubEffect (d a b : VNum) (mk : Bool) : Effect := fun x e =>
  arith2 x e mk d (regSrc x a e.ta) (regSrc x b e.tb) (fun p q => q - p) (fun p q => subVal e.rm.toNat q p)
def vaddAddsEffect (d a b : VNum) (mk : Bool) : Effect := fun x e =>
  arithSat x e mk d (regSrc x a e.ta) (regSrc x b e.tb) (fun p q => p + q) (addVal e.rm.toNat)
def vaddSubsEffect (d a b : VNum) (mk : Bool) : Effect := fun x e =>
  arithSat x e mk d (regSrc x a e.ta) (regSrc x b e.tb) (fun p q => p - q) (subVal e.rm.toNat)
def vaddAbsdEffect (d a b : VNum) (mk : Bool) : Effect := fun x e =>
  arith2 x e mk d (regSrc x a e.ta) (regSrc x b e.tb) (fun p q => (p - q).natAbs) (absdVal e.rm.toNat)

/-- VMUL (R100). -/
def vmulEffect (d a b : VNum) (mk : Bool) : Effect := fun x e =>
  arith2 x e mk d (regSrc x a e.ta) (regSrc x b e.tb) (fun p q => p * q) mulVal

/-- The width of the promoted type of the sources (R100). -/
def VEntry.promotedWidth (e : VEntry) : Nat := tagWidth ((promote e.ta e.tb).getD 0)

def vmulMulhEffect (d a b : VNum) (mk : Bool) : Effect := fun x e =>
  perElementBits x e mk d (fun i =>
    wrapInt e.td ((regSrc x a e.ta).int i * (regSrc x b e.tb).int i / (2 ^ e.promotedWidth : Nat)))
def vmulMulhnEffect (d a b : VNum) (mk : Bool) : Effect := fun x e =>
  perElementBits x e mk d (fun i =>
    (regSrc x a e.ta).bits i * (regSrc x b e.tb).bits i / 2 ^ e.promotedWidth % 2 ^ tagWidth e.td)

/-- The integer quotient truncated toward zero; all ones on division by zero (R100). -/
def divInt (a b : Int) : Int := if b = 0 then -1 else Int.tdiv a b
/-- The remainder with the sign of a; a on division by zero (R100). -/
def remInt (a b : Int) : Int := if b = 0 then a else Int.tmod a b

def vmulDivEffect (d a b : VNum) (mk : Bool) : Effect := fun x e =>
  arith2 x e mk d (regSrc x a e.ta) (regSrc x b e.tb) divInt divVal
def vmulRemEffect (d a b : VNum) (mk : Bool) : Effect := fun x e =>
  perElementBits x e mk d (fun i => wrapInt e.td (remInt ((regSrc x a e.ta).int i) ((regSrc x b e.tb).int i)))

/-- VFMA (R101). -/
def vfmaEffect (d a b : VNum) (mk : Bool) : Effect := fun x e =>
  arithFma x e mk d (regSrc x a e.ta) (regSrc x b e.tb) false false
def vfmaFmsEffect (d a b : VNum) (mk : Bool) : Effect := fun x e =>
  arithFma x e mk d (regSrc x a e.ta) (regSrc x b e.tb) false true
def vfmaFnmaEffect (d a b : VNum) (mk : Bool) : Effect := fun x e =>
  arithFma x e mk d (regSrc x a e.ta) (regSrc x b e.tb) true true
def vfmaFnmsEffect (d a b : VNum) (mk : Bool) : Effect := fun x e =>
  arithFma x e mk d (regSrc x a e.ta) (regSrc x b e.tb) true false

/-- VMINMAX (R102). -/
def vminmaxMinEffect (d a b : VNum) (mk : Bool) : Effect := fun x e =>
  arith2 x e mk d (regSrc x a e.ta) (regSrc x b e.tb) min minVal
def vminmaxMaxEffect (d a b : VNum) (mk : Bool) : Effect := fun x e =>
  arith2 x e mk d (regSrc x a e.ta) (regSrc x b e.tb) max maxVal
def vminmaxMinnumEffect (d a b : VNum) (mk : Bool) : Effect := fun x e =>
  arith2 x e mk d (regSrc x a e.ta) (regSrc x b e.tb) min minnumVal
def vminmaxMaxnumEffect (d a b : VNum) (mk : Bool) : Effect := fun x e =>
  arith2 x e mk d (regSrc x a e.ta) (regSrc x b e.tb) max maxnumVal

/-- A function of bit patterns of one width (R103). -/
def logic2 (d a b : VNum) (mk : Bool) (f : Nat → Nat → Nat) : Effect := fun x e =>
  perElementBits x e mk d (fun i => f ((regSrc x a e.ta).bits i) ((regSrc x b e.tb).bits i))

/-- A shift of a pattern of w bits by the integer in b, modulo w (R103). -/
def shift2 (d a b : VNum) (mk : Bool) (f : Nat → Nat → Nat → Nat) : Effect := fun x e =>
  let w := tagWidth e.ta
  perElementBits x e mk d (fun i =>
    f w ((regSrc x a e.ta).bits i) ((regSrc x b e.tb).int i % (w : Int)).toNat % 2 ^ w)

/-- VLOGIC (R103). -/
def vlogicAndEffect (d a b : VNum) (mk : Bool) : Effect := logic2 d a b mk Nat.land
def vlogicOrEffect (d a b : VNum) (mk : Bool) : Effect := logic2 d a b mk Nat.lor
def vlogicXorEffect (d a b : VNum) (mk : Bool) : Effect := logic2 d a b mk Nat.xor
def vlogicAndnEffect (d a b : VNum) (mk : Bool) : Effect := logic2 d a b mk (fun p q => p - Nat.land p q)
def vlogicSllEffect (d a b : VNum) (mk : Bool) : Effect := shift2 d a b mk (fun _ p k => p * 2 ^ k)
def vlogicSrlEffect (d a b : VNum) (mk : Bool) : Effect := shift2 d a b mk (fun _ p k => p / 2 ^ k)
def vlogicSraEffect (d a b : VNum) (mk : Bool) : Effect :=
  shift2 d a b mk (fun w p k => wrap w (signed w p / (2 ^ k : Nat)))

/-- VCMP (R104). -/
def vcmpEqEffect (d : MNum) (a b : VNum) (mk : Bool) : Effect := fun x e =>
  compareInto x e mk d (regSrc x a e.ta) (regSrc x b e.tb) (fun o => o == .eq) false false
def vcmpNeEffect (d : MNum) (a b : VNum) (mk : Bool) : Effect := fun x e =>
  compareInto x e mk d (regSrc x a e.ta) (regSrc x b e.tb) (fun o => o != .eq) true false
def vcmpLtEffect (d : MNum) (a b : VNum) (mk : Bool) : Effect := fun x e =>
  compareInto x e mk d (regSrc x a e.ta) (regSrc x b e.tb) (fun o => o == .lt) false true
def vcmpLeEffect (d : MNum) (a b : VNum) (mk : Bool) : Effect := fun x e =>
  compareInto x e mk d (regSrc x a e.ta) (regSrc x b e.tb) (fun o => o != .gt) false true
def vcmpGtEffect (d : MNum) (a b : VNum) (mk : Bool) : Effect := fun x e =>
  compareInto x e mk d (regSrc x a e.ta) (regSrc x b e.tb) (fun o => o == .gt) false true
def vcmpGeEffect (d : MNum) (a b : VNum) (mk : Bool) : Effect := fun x e =>
  compareInto x e mk d (regSrc x a e.ta) (regSrc x b e.tb) (fun o => o != .lt) false true
def vcmpUnordEffect (d : MNum) (a b : VNum) (mk : Bool) : Effect := fun x e =>
  compareInto x e mk d (regSrc x a e.ta) (regSrc x b e.tb) (fun _ => false) true false

/-- One element of a source written into vd without a function: integers reduce, floats round, residues stay (R105). -/
def moveInto (x : Ctx) (e : VEntry) (i : Nat) (s : Src) : Nat × Flags :=
  if e.td = tM64 then (s.res e i, 0)
  else if isInt e.td then (wrapInt e.td (s.int i), 0)
  else convertVal x e false i (s.val e i)

/-- VSEL (R105). -/
def vselEffect (d a b : VNum) : Effect := fun x e =>
  perElement x e false d (fun i => moveInto x e i (if (x.m 0).getLsbD i then regSrc x a e.ta else regSrc x b e.tb))

/-- The integer of a whole value. -/
def valInt : Val → Int
  | .fin s n d => signedNum s (n / d)
  | _ => 0

/-- VCVT functions 0 and 1 on one element of tag t whose exact value is v (R106). -/
def convertElem (x : Ctx) (e : VEntry) (sat : Bool) (i : Nat) (t : Tag) (v : Val) : Nat × Flags :=
  if t = tM64 ∨ e.td = tM64 then ((valInt v % (e.mq.toNat : Int)).toNat, 0)
  else if isInt t && isInt e.td then (if sat then clampInt e.td (valInt v) else wrapInt e.td (valInt v), 0)
  else convertVal x e sat i v

/-- The held values that a VCVT whose va is register a continues (R126). -/
def heldFor (x : Ctx) (a : VNum) : Option Held := match x.held with
  | some h => if h.d = a then some h else none
  | none => none

/-- The tag of the source of a VCVT: that of the run's first va when it continues a run (R126). -/
def cvtTag (x : Ctx) (e : VEntry) (a : VNum) : Tag := match heldFor x a with
  | some h => h.tag.toNat
  | none => e.ta

/-- The exact value a VCVT reads at a position: the held one when it continues a run, and past the held ones what stands in the register
(R126; log 96). -/
def cvtVal (x : Ctx) (e : VEntry) (a : VNum) (i : Nat) : Val := match heldFor x a with
  | some h => h.vals.getD i ((regSrc x a e.ta).val e i)
  | none => (regSrc x a e.ta).val e i

/-- The flags that the words of a continued run raised, and the context with the run ended, whose words retire with it (R126). -/
def heldFlags (x : Ctx) (a : VNum) : Flags := match heldFor x a with
  | some h => h.entry.flags
  | none => 0

def endRun (a : VNum) (x : Ctx) (r : Ctx × Flags) : Ctx × Flags :=
  match heldFor x a with
  | some h =>
    ({ r.1 with held := none, csr := { r.1.csr with retired := r.1.csr.retired + BitVec.ofNat 64 h.words.length } },
      r.2 ||| h.entry.flags)
  | none => r

def vcvtEffect (d a : VNum) (mk : Bool) : Effect := fun x e =>
  endRun a x (perElement x e mk d (fun i => convertElem x e false i (cvtTag x e a) (cvtVal x e a i)))
def vcvtSatEffect (d a : VNum) (mk : Bool) : Effect := fun x e =>
  endRun a x (perElement x e mk d (fun i => convertElem x e true i (cvtTag x e a) (cvtVal x e a i)))

/-- A value with the exponent of a k8 scale added or taken off; a scale of 0xFF makes it a NaN without a flag (R58,
R107). -/
def scaleVal (scale : Nat) (down : Bool) (v : Val) : Val :=
  if scale = 0xFF then .nan false
  else
    let z : Int := (scale : Int) - 127
    match v with
    | .nan g => .nan g
    | .inf s => .inf s
    | .fin s n d =>
      let k := if down then -z else z
      if 0 ≤ k then .fin s (n * 2 ^ k.toNat) d else .fin s n (d * 2 ^ (-k).toNat)

/-- A value of tag ta converted into tag td under a block's scale (R107): an i8 value stands for its integer × 2^−6. A signalling NaN
raises NV under every scale (R67, log 85). -/
def blockBits (st : Settings) (td : Tag) (rm sr scale : Nat) (ta : Tag) (v : Val) : Nat × Flags :=
  if isBlockElem ta then
    roundFloat st td rm false sr (scaleVal scale false (if ta = 0 then scaleVal 121 false v else v))
  else if td = 0 then
    let r := convertBits st td rm sr false (scaleVal 133 false (scaleVal scale true v))
    (r.1, sigFlag v ||| (if scale = 0xFF then fNV else r.2))
  else
    let r := roundFloat st td rm false sr (scaleVal scale true v)
    (r.1, sigFlag v ||| r.2)

/-- One element of a block-scaled conversion (R107). -/
def blockElem (x : Ctx) (e : VEntry) (i scale : Nat) (ta : Tag) (v : Val) : Nat × Flags :=
  blockBits e.settings e.td e.rm.toNat (srElem x e i) scale ta v

def vcvtBlkEffect (d a b : VNum) (mk : Bool) : Effect := fun x e =>
  endRun a x (perElement x e mk d (fun i =>
    blockElem x e i (elem x b.toNat 8 (i / 32)) (cvtTag x e a) (cvtVal x e a i)))

/-- emax of the element format a scale extraction names (R108). -/
def formatEmax (fmt : BitVec 6) : Int := if fmt = 0xE then 8 else if fmt = 0xF then 15 else if fmt = 0x10 then 2 else 0

/-- The greatest magnitude of a list of values; none when one is a NaN or an infinity (R108). -/
def amax : List Val → Option Val
  | [] => some (.fin false 0 1)
  | v :: r => match v, amax r with
    | .fin _ n d, some m => some (if belowVal m (.fin false n d) then .fin false n d else m)
    | _, _ => none

/-- The k8 scale of a block (R108). -/
def blockScale (fmt : BitVec 6) (vs : List Val) : Nat :=
  match amax vs with
  | some (.fin _ n d) =>
    if n = 0 then 0x7F else (max (-127) (min 127 (floorLog2 n d - formatEmax fmt)) + 127).toNat
  | _ => 0xFF

/-- VCVT function 3: block j's scale from the active elements of its 32 (R108). -/
def vcvtScaleEffect (d a : VNum) (fmt : BitVec 6) (mk : Bool) : Effect := fun x e =>
  let act := activeAt x e mk
  let blocks := (e.vl + 31) / 32
  let rs := (span 0 blocks).filterMap (fun j =>
    match act.filter (fun i => i / 32 = j) with
    | [] => none
    | s =>
      let vs := s.map (fun i => (regSrc x a e.ta).val e i)
      some (j, blockScale fmt vs, orFlags (vs.map sigFlag)))
  writeResults x e d blocks rs

/-- VMOD (R109). -/
def vmodAddmEffect (d a b : VNum) (mk : Bool) : Effect := fun x e =>
  perElementBits x e mk d (fun i => (resElem x e a.toNat i + resElem x e b.toNat i) % e.mq.toNat)
def vmodSubmEffect (d a b : VNum) (mk : Bool) : Effect := fun x e =>
  perElementBits x e mk d (fun i => (resElem x e a.toNat i + (e.mq.toNat - resElem x e b.toNat i)) % e.mq.toNat)
def vmodMulmEffect (d a b : VNum) (mk : Bool) : Effect := fun x e =>
  perElementBits x e mk d (fun i => resElem x e a.toNat i * resElem x e b.toNat i % e.mq.toNat)
def vmodMacmEffect (d a b : VNum) (mk : Bool) : Effect := fun x e =>
  perElementBits x e mk d (fun i =>
    (resElem x e d.toNat i + resElem x e a.toNat i * resElem x e b.toNat i) % e.mq.toNat)

/-- The scalar of a VX word as a source of va's tag (R110). -/
def xSrc (e : VEntry) (s : BitVec 5) (sel : Bool) : Src := constSrc e.ta (scalarBits e e.ta s sel)

/-- VX (R110). -/
def vxAddEffect (d a : VNum) (s : BitVec 5) (sel mk : Bool) : Effect := fun x e =>
  arith2 x e mk d (regSrc x a e.ta) (xSrc e s sel) (fun p q => p + q) (addVal e.rm.toNat)
def vxSubEffect (d a : VNum) (s : BitVec 5) (sel mk : Bool) : Effect := fun x e =>
  arith2 x e mk d (regSrc x a e.ta) (xSrc e s sel) (fun p q => p - q) (subVal e.rm.toNat)
def vxMulEffect (d a : VNum) (s : BitVec 5) (sel mk : Bool) : Effect := fun x e =>
  arith2 x e mk d (regSrc x a e.ta) (xSrc e s sel) (fun p q => p * q) mulVal
def vxMinEffect (d a : VNum) (s : BitVec 5) (sel mk : Bool) : Effect := fun x e =>
  arith2 x e mk d (regSrc x a e.ta) (xSrc e s sel) min minVal
def vxMaxEffect (d a : VNum) (s : BitVec 5) (sel mk : Bool) : Effect := fun x e =>
  arith2 x e mk d (regSrc x a e.ta) (xSrc e s sel) max maxVal
def vxAndEffect (d a : VNum) (s : BitVec 5) (sel mk : Bool) : Effect := fun x e =>
  perElementBits x e mk d (fun i => Nat.land ((regSrc x a e.ta).bits i) ((xSrc e s sel).bits i))
def vxOrEffect (d a : VNum) (s : BitVec 5) (sel mk : Bool) : Effect := fun x e =>
  perElementBits x e mk d (fun i => Nat.lor ((regSrc x a e.ta).bits i) ((xSrc e s sel).bits i))
def vxFmaEffect (d a : VNum) (s : BitVec 5) (sel mk : Bool) : Effect := fun x e =>
  arithFma x e mk d (regSrc x a e.ta) (xSrc e s sel) false false

/-- A special function of one source, correctly rounded into vd (R111). -/
def special1 (d a : VNum) (mk : Bool) (f : Val → Val × Flags) : Effect := fun x e =>
  perElement x e mk d (fun i => intoFloat x e i (f ((regSrc x a e.ta).val e i)))

/-- RCP and RSQ: into f64 the f32 result, widened (R71, R111). -/
def special1f32 (d a : VNum) (mk : Bool) (f : Val → Val × Flags) : Effect := fun x e =>
  if e.td = tF64 then
    perElement x e mk d (fun i =>
      intoFloat x e i (viaFloat e tF32 e.rm.toNat (srElem x e i) (f ((regSrc x a e.ta).val e i))))
  else special1 d a mk f x e

/-- VSFU (R111–R113). -/
def vsfuExp2Effect (d a : VNum) (mk : Bool) : Effect := special1 d a mk exp2Val
def vsfuLog2Effect (d a : VNum) (mk : Bool) : Effect := special1 d a mk log2Val
def vsfuRcpEffect (d a : VNum) (mk : Bool) : Effect := special1f32 d a mk rcpVal
def vsfuRsqEffect (d a : VNum) (mk : Bool) : Effect := special1f32 d a mk rsqVal
def vsfuSqrtEffect (d a : VNum) (mk : Bool) : Effect := special1 d a mk sqrtVal
def vsfuRcpstepEffect (d a b : VNum) (mk : Bool) : Effect := fun x e =>
  perElement x e mk d (fun i =>
    intoFloat x e i (rcpStep e.rm.toNat ((regSrc x a e.ta).val e i) ((regSrc x b e.tb).val e i)))
def vsfuRsqstepEffect (d a b : VNum) (mk : Bool) : Effect := fun x e =>
  perElement x e mk d (fun i =>
    intoFloat x e i (rsqStep e.rm.toNat ((regSrc x a e.ta).val e i) ((regSrc x b e.tb).val e i)))

/-- exp2 of the difference of two values, both steps rounded into f32 under RNE (R114, R115). -/
def softExp (e : VEntry) (a m : Val) : Val × Flags :=
  let df := viaFloat e tF32 0 0 (subVal 0 a m)
  let r := viaFloat e tF32 0 0 (exp2Val df.1)
  (r.1, df.2 ||| r.2)

/-- The maximum of a list of values and a first one, as VMINMAX max (R114). -/
def maxOver (m : Val) : List Val → Val × Flags
  | [] => (m, 0)
  | a :: r =>
    let p := maxVal m a
    let t := maxOver p.1 r
    (t.1, p.2 ||| t.2)

/-- VSMAX function 0 (R114). -/
def vsmaxUpdEffect (d a b : VNum) (mk : Bool) : Effect := fun x e =>
  let act := activeAt x e mk
  let st := regSrc x b tF32
  let m := st.val e 0
  let src := fun i => (regSrc x a e.ta).val e i
  let m1 := maxOver m (act.map src)
  let low := m1.1 == .inf true
  let c : Val × Flags := if low then (.fin false 1 1, 0) else softExp e m m1.1
  let es := act.map (fun i => (i, softExp e (src i) m1.1))
  let rs := es.map (fun r => (r.1, intoFloat x e r.1 r.2))
  let t := treeSum x { e with rm := 0 } tF32 0 (fun i => (es.find? (fun r => r.1 == i)).map (fun r => r.2.1))
  let s := fmaVal 0 (st.val e 1) c.1 t.1
  let put (y : Ctx) (k : Nat) (v : Val) : Ctx × Flags :=
    let r := roundFloat e.settings tF32 0 false 0 v
    (setElem y b.toNat 32 k r.1, r.2)
  let y := writeResults x e d e.vl rs
  let y0 := put y.1 0 m1.1
  let y1 := put y0.1 1 s.1
  let y2 := put y1.1 2 c.1
  (y2.1, m1.2 ||| c.2 ||| y.2 ||| t.2 ||| s.2 ||| y0.2 ||| y1.2 ||| y2.2)

/-- VSMAX function 1 (R115); where the exponential is 0 as well as s, the quotient is that of R67 (log 95). -/
def vsmaxNormEffect (d a b : VNum) (mk : Bool) : Effect := fun x e =>
  let st := regSrc x b tF32
  perElement x e mk d (fun i =>
    let p := softExp e ((regSrc x a e.ta).val e i) (st.val e 0)
    let q := divVal p.1 (st.val e 1)
    intoFloat x e i (q.1, p.2 ||| q.2))

end Sys2Proof.Machine
end

