-- ==== Sys2Proof/Machine/Move.lean ====
section
/-! DEFINITION. What the instructions of opcodes 0x30 to 0x3B compute: reduction, slides, permutation, compression,
butterflies, digits, moves, histograms and masks (R116–R134). -/

namespace Sys2Proof.Machine

/-- Element 0 written and every other element of the span treated as tail (R119). -/
def writeFirst (x : Ctx) (e : VEntry) (d : VNum) (r : Nat × Flags) : Ctx × Flags :=
  writeResults x e d 1 [(0, r)]

/-- The type in which the nodes of a reduction of va round: the source promoted with the destination (R61, R119). -/
def redTag (e : VEntry) : Tag := (promote e.ta e.td).getD 0

/-- The leaf of an active position. -/
def leafAt (act : List Nat) (f : Nat → Val) (i : Nat) : Option Val := if act.contains i then some (f i) else none

/-- A reduction of integers by a function from its identity (R69, R119). -/
def foldInts (f : Int → Int → Int) (id : Int) (vs : List Int) : Int := vs.foldl f id

/-- VRED sum (R119). -/
def vredSumEffect (d a : VNum) (mk : Bool) : Effect := fun x e =>
  let act := activeAt x e mk
  let s := regSrc x a e.ta
  if isInt e.ta && isInt e.td then writeFirst x e d (wrapInt e.td (foldInts (fun p q => p + q) 0 (act.map s.int)), 0)
  else
    let t := treeSum x e (redTag e) e.rm.toNat (leafAt act (s.val e))
    writeFirst x e d (intoFloat x e 0 (t.1, t.2 ||| sigFlag t.1))

/-- VRED min and max (R69, R119). -/
def vredMinEffect (d a : VNum) (mk : Bool) : Effect := fun x e =>
  let act := activeAt x e mk
  let s := regSrc x a e.ta
  if isInt e.ta && isInt e.td then
    writeFirst x e d (wrapInt e.td (foldInts min (intMax (redTag e)) (act.map s.int)), 0)
  else
    let t := treePick e minVal (minIdentity e (redTag e)) (leafAt act (s.val e))
    writeFirst x e d (intoFloat x e 0 (t.1, t.2 ||| sigFlag t.1))
def vredMaxEffect (d a : VNum) (mk : Bool) : Effect := fun x e =>
  let act := activeAt x e mk
  let s := regSrc x a e.ta
  if isInt e.ta && isInt e.td then
    writeFirst x e d (wrapInt e.td (foldInts max (intMin (redTag e)) (act.map s.int)), 0)
  else
    let t := treePick e maxVal (minIdentity e (redTag e)).neg (leafAt act (s.val e))
    writeFirst x e d (intoFloat x e 0 (t.1, t.2 ||| sigFlag t.1))

/-- A bitwise reduction: the patterns of the sources' values in the width of the promoted type (R119). -/
def redBits (x : Ctx) (e : VEntry) (mk : Bool) (d a : VNum) (f : Nat → Nat → Nat) (ones : Bool) : Ctx × Flags :=
  let w := tagWidth (redTag e)
  let vs := (activeAt x e mk).map (fun i => wrap w ((regSrc x a e.ta).int i))
  writeFirst x e d (vs.foldl f (if ones then 2 ^ w - 1 else 0) % 2 ^ tagWidth e.td, 0)

def vredAndEffect (d a : VNum) (mk : Bool) : Effect := fun x e => redBits x e mk d a Nat.land true
def vredOrEffect (d a : VNum) (mk : Bool) : Effect := fun x e => redBits x e mk d a Nat.lor false
def vredXorEffect (d a : VNum) (mk : Bool) : Effect := fun x e => redBits x e mk d a Nat.xor false

/-- VRED wsum: every leaf is a product, rounded in the promoted type under the counter c3 = srep − 1 (R118, R119). -/
def vredWsumEffect (d a b : VNum) (mk : Bool) : Effect := fun x e =>
  let act := activeAt x e mk
  let p := regSrc x a e.ta
  let q := regSrc x b e.tb
  if isInt e.ta && isInt e.tb && isInt e.td then
    writeFirst x e d (wrapInt e.td (foldInts (fun u v => u + v) 0 (act.map (fun i => p.int i * q.int i))), 0)
  else
    let t := (promote ((promote e.ta e.tb).getD 0) e.td).getD 0
    let leaves := act.map (fun i =>
      (i, viaFloat e t e.rm.toNat (srAt x e (e.srep.toNat + 2 ^ 32 - 1) i) (mulVal (p.val e i) (q.val e i))))
    let r := treeSum x e t e.rm.toNat (fun i => (leaves.find? (fun l => l.1 == i)).map (fun l => l.2.1))
    writeFirst x e d (intoFloat x e 0 (r.1, r.2 ||| orFlags (leaves.map (fun l => l.2.2))))

/-- The amount of a slide (R120). -/
def slideBy (e : VEntry) (s : BitVec 5) (sel : Bool) : Nat := if sel then s.toNat else e.sc0.toNat

/-- Positions moved by a function that gives their new bits, or leaves them (R120, R123). -/
def moveElems (x : Ctx) (e : VEntry) (mk : Bool) (d : VNum) (n : Nat) (f : Nat → Option (Nat × Nat)) : Ctx × Flags :=
  writeResults x e d n ((activeAt x e mk).filterMap (fun i => (f i).map (fun r => (r.1, r.2, 0))))

/-- VSLIDE (R120). -/
def vslideUpEffect (d a : VNum) (s : BitVec 5) (sel mk : Bool) : Effect := fun x e =>
  let k := slideBy e s sel
  moveElems x e mk d e.vl (fun i => if k ≤ i then some (i, (regSrc x a e.ta).bits (i - k)) else none)
def vslideDownEffect (d a : VNum) (s : BitVec 5) (sel mk : Bool) : Effect := fun x e =>
  let k := slideBy e s sel
  moveElems x e mk d e.vl (fun i => some (i, if i + k < e.vl then (regSrc x a e.ta).bits (i + k) else 0))
def vslideRotEffect (d a : VNum) (s : BitVec 5) (sel mk : Bool) : Effect := fun x e =>
  let k := slideBy e s sel
  moveElems x e mk d e.vl (fun i => some (i, (regSrc x a e.ta).bits ((i + k) % e.vl)))

/-- VPERM (R121). -/
def vpermEffect (d a b : VNum) (mk : Bool) : Effect := fun x e =>
  moveElems x e mk d e.vl (fun i =>
    let j := (regSrc x b e.tb).bits i
    some (i, if j < e.vl then (regSrc x a e.ta).bits j else 0))

/-- The number of set bits of a mask below position i (R123). -/
def bitsBelow (m : VReg) (i : Nat) : Nat := ((span 0 i).filter (fun k => m.getLsbD k)).length

/-- VCOMP (R123). -/
def vcompCompressEffect (d a : VNum) : Effect := fun x e =>
  let sel := x.m 0
  moveElems x e false d (bitsBelow sel e.vl) (fun i =>
    if sel.getLsbD i then some (bitsBelow sel i, (regSrc x a e.ta).bits i) else none)
def vcompExpandEffect (d a : VNum) : Effect := fun x e =>
  let sel := x.m 0
  moveElems x e false d e.vl (fun i =>
    if sel.getLsbD i then some (i, (regSrc x a e.ta).bits (bitsBelow sel i)) else none)
def vcompIotaEffect (d : VNum) (a : MNum) (mk : Bool) : Effect := fun x e =>
  let sel := x.m a.toNat
  moveElems x e mk d e.vl (fun i => some (i, wrapInt e.td (bitsBelow sel i)))
def vcompCidxEffect (d : VNum) (a : MNum) : Effect := fun x e =>
  let sel := x.m a.toNat
  moveElems x e false d (bitsBelow sel e.vl) (fun i =>
    if sel.getLsbD i then some (bitsBelow sel i, wrapInt e.td i) else none)

/-- The partner of a position at distance 2^k, and the lower of the two (R125). -/
def partner (i : Nat) (k : BitVec 4) : Nat := Nat.xor i (2 ^ k.toNat)
def lower (i : Nat) (k : BitVec 4) : Nat := min i (partner i k)

/-- One Hadamard stage on exact values: position i of vl (R125). -/
def hadamard (rm vl : Nat) (k : BitVec 4) (v : Nat → Val) (i : Nat) : Val × Flags :=
  let p := partner i k
  if vl ≤ p then (v i, 0)
  else if i < p then addVal rm (v i) (v p) else subVal rm (v p) (v i)

/-- A held or computed value written into vd as H writes it (R125, R126). -/
def intoFly (x : Ctx) (e : VEntry) (i : Nat) (v : Val × Flags) : Nat × Flags :=
  if isInt e.td then (wrapInt e.td (valInt v.1), 0) else intoFloat x e i v

/-- VBFLY H: a position whose partner is not below vl is copied (R125). -/
def vbflyHEffect (d a : VNum) (k : BitVec 4) : Effect := fun x e =>
  let s := regSrc x a e.ta
  perElement x e false d (fun i =>
    if e.vl ≤ partner i k then (s.bits i, 0)
    else intoFly x e i (hadamard e.rm.toNat e.vl k (s.val e) i))

/-- The last H.f of a run writes its vd as H would, and the run ends: its words retire, and what it writes is appended where its vd is
bound to a store stream (R126, R188). -/
def flushHeld (x : Ctx) : Ctx := match x.held with
  | none => x
  | some h =>
    let e := h.entry
    let r := perElement x e false h.d (fun i => match h.raw.getD i none with
      | some b => (b, 0)
      | none => intoFly x e i (h.vals.getD i (.fin false 0 1), 0))
    { appendAll r.1 e e.vl with
      held := none
      csr := { r.1.csr with
        fflags := r.1.csr.fflags ||| r.2 ||| e.flags, retired := r.1.csr.retired + BitVec.ofNat 64 h.words.length } }

/-- VBFLY H.f: the stage is computed on the held values when it continues a run, and held (R126). -/
def vbflyHFEffect (d a : VNum) (k : BitVec 4) : Effect := fun x e =>
  let rs := (span 0 e.vl).map (hadamard e.rm.toNat e.vl k (cvtVal x e a))
  let fl := orFlags ((rs.drop e.es).map (fun r => r.2)) ||| heldFlags x a
  let h : Held := { d := d, tag := match heldFor x a with | some h => h.tag | none => e.taga
                    vals := rs.map (fun r => r.1)
                    raw := (span 0 e.vl).map (fun i => if e.vl ≤ partner i k then (match heldFor x a with
                      | some h => h.raw.getD i none
                      | none => some ((regSrc x a e.ta).bits i)) else none)
                    entry := { e with flags := e.flags ||| fl }
                    words := (match heldFor x a with | some h => h.words | none => []) ++ [e]
                    pops := match heldFor x a with | some h => h.pops | none => []
                    ends := false }
  ({ x with held := some h }, 0)

/-- A stop that falls into a run finds none of its words retired, since the run retires as one step: they stand before the
instructions in execution again, with the strips that they popped (R126). -/
def Ctx.unrun (x : Ctx) : Ctx := match x.held with
  | none => x
  | some h => pushBack { x with held := none, vx := h.words ++ x.vx } h.pops

/-- The twiddle of a pair (R125). -/
def twiddle (x : Ctx) (e : VEntry) (b : VNum) (i : Nat) (k : BitVec 4) : Nat :=
  resElem x e b.toNat (lower i k / 2 ^ (k.toNat + 1))

/-- VBFLY CT and GS; an element without a partner is copied with its bits, also one at or above q (R60, R125; log 91). -/
def vbflyCtEffect (d a b : VNum) (k : BitVec 4) : Effect := fun x e =>
  let q := e.mq.toNat
  perElementBits x e false d (fun i =>
    let p := partner i k
    if e.vl ≤ p then elem x a.toNat 64 i
    else
      let w := twiddle x e b i k
      let u := resElem x e a.toNat (min i p)
      let t := w * resElem x e a.toNat (max i p) % q
      if i < p then (u + t) % q else (u + (q - t)) % q)
def vbflyGsEffect (d a b : VNum) (k : BitVec 4) : Effect := fun x e =>
  let q := e.mq.toNat
  perElementBits x e false d (fun i =>
    let p := partner i k
    if e.vl ≤ p then elem x a.toNat 64 i
    else
      let w := twiddle x e b i k
      let u := resElem x e a.toNat (min i p)
      let t := resElem x e a.toNat (max i p)
      if i < p then (u + t) % q else (u + (q - t)) % q * w % q)

/-- The digits of R127 from level 0 on: the digit of level n. -/
def digitAt (β : Nat) : Nat → Nat → Int
  | 0, u => let g := u % 2 ^ β
            if 2 ^ (β - 1) ≤ g then (g : Int) - 2 ^ β else g
  | n + 1, u => let g := u % 2 ^ β
                digitAt β n (u / 2 ^ β + if 2 ^ (β - 1) ≤ g then 1 else 0)

/-- VDECOMP (R127). -/
def vdecompEffect (d a : VNum) (s : BitVec 5) (sel mk : Bool) (lvl : BitVec 3) : Effect := fun x e =>
  let β := if sel then (if s = 0 then 32 else s.toNat) else max 1 (min 32 e.sc0.toNat)
  perElementBits x e mk d (fun i =>
    let g := digitAt β lvl.toNat (resElem x e a.toNat i)
    if e.td = tM64 then (g % (e.mq.toNat : Int)).toNat else wrapInt e.td g)

/-- VMV (R128). -/
def vmvEffect (d a : VNum) (mk : Bool) : Effect := fun x e => perElementBits x e mk d (regSrc x a e.ta).bits
def vmvBcastEffect (d : VNum) (s : BitVec 5) (sel mk : Bool) : Effect := fun x e =>
  perElementBits x e mk d (fun _ => scalarBits e e.td s sel)
def vmvToxEffect (s : XReg) (a : VNum) : Effect := fun x e =>
  let b := (regSrc x a e.ta).bits 0
  (x.setX s (if isSigned e.ta then BitVec.ofInt 64 (intOf e.ta b) else BitVec.ofNat 64 b), 0)
def vmvFromxEffect (d : VNum) (s : BitVec 5) (sel mk : Bool) : Effect := fun x e =>
  writeResults x e d e.vl
    (if 1 ≤ e.vl ∧ e.es = 0 ∧ active x mk 0 = true then [(0, scalarBits e e.td s sel, 0)] else [])
def vmvWidEffect (d : VNum) (mk : Bool) : Effect := fun x e =>
  perElementBits x e mk d (fun i =>
    let w := widAt x i
    wrapInt e.td (if x.csr.wfield = 7 then w else widField x.work.fieldW x.csr.wfield.toNat w : Nat))

/-- A counter of a histogram table goes up by one, up to 0xFFFF_FFFF (R72). -/
def bumpHist (h : SMap (BitVec 32)) (k : Nat) : SMap (BitVec 32) :=
  let v := get 0 h k
  if v = 0xFFFFFFFF#32 then h else set 0 h k (v + 1)

/-- The counters that an element's encoding increments (R72). -/
def histCounters (st : Settings) (t : Tag) (b : Nat) : List Nat :=
  match floatVal st t b with
  | .nan _ => [67]
  | .inf _ => [66]
  | .fin _ n d =>
    if n = 0 then [64]
    else
      let bin := (max (-32) (min 31 (floorLog2 n d)) + 32).toNat
      if t != tK8 && isSubnormal (fmtOf st t) (b % 2 ^ (fmtOf st t).mag) then [bin, 65] else [bin]

/-- EHIST accumulate (R130). -/
def ehistAccEffect (a : VNum) (bank : BitVec 2) (mk : Bool) : Effect := fun x e =>
  let ks := (activeAt x e mk).flatMap (fun i => histCounters e.settings e.ta ((regSrc x a e.ta).bits i))
  ({ x with regs := { x.regs with hb := ks.foldl (fun h k => bumpHist h (68 * bank.toNat + k)) x.regs.hb } }, 0)

/-- The 68 counters of a bank written to elements 0 to 67 of vd; the rest of the span stays (R130). -/
def readBank (x : Ctx) (d : VNum) (h : SMap (BitVec 32)) (bank : Nat) : Ctx :=
  setElems x d.toNat 32 ((span 0 68).map (fun j => (j, (get 0 h (68 * bank + j)).toNat)))

/-- A bank with every counter zero (R130). -/
def clearBank (h : SMap (BitVec 32)) (bank : Nat) : SMap (BitVec 32) := removeRange h (68 * bank) (68 * bank + 68)

/-- Bits es to vl − 1 of a mask written by a function of the position, and its tail (R132). -/
def maskBits (d : MNum) (f : Ctx → Nat → Bool) : Effect := fun x e =>
  (maskTail (setMaskBits x d.toNat (e.positions.map (fun i => (i, f x i)))) e.vtype d.toNat e.vl, 0)

/-- MLOG and MMV (R132). -/
def mlogAndEffect (d a b : MNum) : Effect :=
  maskBits d (fun x i => (x.m a.toNat).getLsbD i && (x.m b.toNat).getLsbD i)
def mlogOrEffect (d a b : MNum) : Effect :=
  maskBits d (fun x i => (x.m a.toNat).getLsbD i || (x.m b.toNat).getLsbD i)
def mlogXorEffect (d a b : MNum) : Effect :=
  maskBits d (fun x i => (x.m a.toNat).getLsbD i != (x.m b.toNat).getLsbD i)
def mlogAndnEffect (d a b : MNum) : Effect :=
  maskBits d (fun x i => (x.m a.toNat).getLsbD i && !(x.m b.toNat).getLsbD i)
def mlogOrnEffect (d a b : MNum) : Effect :=
  maskBits d (fun x i => (x.m a.toNat).getLsbD i || !(x.m b.toNat).getLsbD i)
def mlogXnorEffect (d a b : MNum) : Effect :=
  maskBits d (fun x i => (x.m a.toNat).getLsbD i == (x.m b.toNat).getLsbD i)
def mlogNotEffect (d a : MNum) : Effect := maskBits d (fun x i => !(x.m a.toNat).getLsbD i)
def mmvEffect (d a : MNum) : Effect := maskBits d (fun x i => (x.m a.toNat).getLsbD i)
def mmvSetEffect (d : MNum) : Effect := maskBits d (fun _ _ => true)
def mmvClrEffect (d : MNum) : Effect := maskBits d (fun _ _ => false)

/-- The number of set bits of a mask in bits es to vl − 1 (R133). -/
def maskCount (x : Ctx) (e : VEntry) (a : MNum) : Nat := (e.positions.filter (fun i => (x.m a.toNat).getLsbD i)).length

/-- MCNT (R133) and MSETVL (R134). -/
def mcntEffect (s : XReg) (a : MNum) : Effect := fun x e => (x.setX s (BitVec.ofNat 64 (maskCount x e a)), 0)
def mcntFirstEffect (s : XReg) (a : MNum) : Effect := fun x e =>
  (x.setX s (match e.positions.find? (fun i => (x.m a.toNat).getLsbD i) with
    | some i => BitVec.ofNat 64 i
    | none => BitVec.allOnes 64), 0)
def msetvlEffect (s : XReg) (a : MNum) : Effect := fun x e =>
  let c := maskCount x e a
  ({ x.setX s (BitVec.ofNat 64 c) with csr := { x.csr with vl := c } }, 0)

end Sys2Proof.Machine
end

