-- ==== Sys2Proof/Config.lean ====
section
/-! DEFINITION. What an implementation of the part fixes and the manual leaves open: the free values. Each is a constant
with no body, so no proof can see what it is; a counter of State or the operands it depends on select a fresh value. -/

namespace Sys2Proof.Config

/-- The number of die cycles that the n-th step of the machine takes (R2 fixes the clock, no rule fixes how many
cycles a step lasts; log 4). -/
opaque stepCycles : Nat → Nat

/-- How many of the cycles of the n-th step a key pass spends because a lane group of a member has been retired, at most all of them
(R243 counts them as recovery, no rule says how many they are; log 81). -/
opaque extraCycles : Nat → Nat

/-- The key by which the serial order of the elements of one VAMO is chosen (R185: "in an unspecified serial
order"): element i of the n-th VAMO is applied in ascending order of this key (log 7). -/
opaque vamoKey : Nat → Nat → Nat

/-- The lane of the vector unit that computes element i of width w (R153 names lanes and lane groups, no rule says which
element a lane holds; log 21). -/
opaque laneOf : Nat → Nat → BitVec 6

/-- AES-256 of one block under a key (R337, R338 name the standard and do not define it; log 9). -/
opaque aes256 : BitVec 256 → BitVec 128 → BitVec 128

/-- GHASH of the ciphertext blocks and the length block of a sector under a hash key (R338; log 9). -/
opaque ghash : BitVec 128 → List (BitVec 128) → BitVec 128

/-- SHAKE256 with 64 bytes of output (R342; log 9). -/
opaque shake256 : List (BitVec 512) → BitVec 512

/-- The key that the key-exchange buffer or the security engine supplies for a partition (R337, R340; log 9). -/
opaque partitionKey : BitVec 16 → Nat → BitVec 256

/-- The attested debug policy that is installed with a key of a partition: none, or its consent to observation and to
control (R356; the manual says where the policy is held, not what it says; log 9). -/
opaque keyPolicy : BitVec 16 → Nat → Option (Bool × Bool)

/-- The id of the n-th SPDM session (R364 names the session id, no rule says how it is chosen; log 9). -/
opaque sessionId : Nat → BitVec 32

/-- Bytes of an answer whose contents the manual names but does not fix, such as a certificate or a signature (R370;
log 9). -/
opaque answerBytes : Nat → List Byte

/-- The number of SLH-DSA-SHAKE-256s in an extended asymmetric algorithm field (R370 names the field, and no number; log 9). -/
opaque slhDsaShake256s : BitVec 32

/-- The key of a channel: HKDF-Expand with SHA3-256 over the master secret of its session, under the label "dygal channel" (R364;
the model holds no secret: log 9). -/
opaque channelKey : BitVec 32 → BitVec 256

/-- AES-256-GCM under a key and a 96-bit IV, over a header and a payload: the encrypted payload and the tag (R364, R365). -/
opaque gcm : BitVec 256 → BitVec 96 → BitVec 128 → List Byte → List Byte × BitVec 128

/-- A byte of what is written of a saved lap, or of an image of the part, in the n-th step (R276, R332 and R371 name the areas, no rule
says how what they hold is laid out; log 12). -/
opaque savedByte : Nat → Nat → Byte

/-- The length of the image of the part that a DUMP writes in the n-th step (R367, R371; log 12). -/
opaque imageLength : Nat → Nat

/-- The nominal value of a voltage monitor, in mV (R358 names it, no rule gives it; log 60). -/
opaque nominalVolts : Nat → Nat

/-- The value of a coefficient of an installed bootstrapping or key-switching key of a partition, by its key id, at a place of the key
(R223, R235; the manual gives the keys' use and shape, not their values; log 10). -/
opaque keyCoefficient : BitVec 16 → BitVec 16 → Nat → Word

end Sys2Proof.Config
end

