-- ==== Sys2Proof/Machine/Translate.lean ====
section
/-! DEFINITION. Address translation and the access decision: the windows of R172, the resident and scalar tables
(R320–R326), permissions and worlds (R324), the pool storage (R196), coverage (R309) and regions (R336). -/

namespace Sys2Proof.Machine

/-- What an access does (R324). -/
inductive Acc where
  | load
  | store
  | atomic
  | fetch
  deriving DecidableEq, Repr

/-- The agent an access belongs to: its die and own cluster, address space, partition, world, whether a context at H or
a secure agent reads ciphertext (R336), whether it is a vector element or an engine (R324), the core whose scalar
translation buffer serves it (R326) and the launch whose bytes it moves (R272). -/
structure Agent where
  die    : Nat
  clu    : Nat
  core   : Option Nat
  asid   : Nat
  part   : BitVec 16
  secure : Bool
  hyper  : Bool
  wide   : Bool
  ctx    : Nat
  launch : Nat
  deriving DecidableEq, Repr

/-- Fault codes of R139. -/
def cIllegal : Nat := 0x01
def cType : Nat := 0x02
def cPriv : Nat := 0x03
def cAlign : Nat := 0x04
def cPage : Nat := 0x05
def cVpage : Nat := 0x06
def cAccess : Nat := 0x07
def cView : Nat := 0x08
def cWiden : Nat := 0x09
def cNoise : Nat := 0x0A
def cFootprint : Nat := 0x0B
def cWatch : Nat := 0x0D
def cBkpt : Nat := 0x0E
def cTrapi : Nat := 0x0F
def cIntegrity : Nat := 0x10
def cMemue : Nat := 0x11
def cWitness : Nat := 0x12
def cHurdle : Nat := 0x13
def cParam : Nat := 0x14
def cDeadlock : Nat := 0x15
def cPuborder : Nat := 0x16

/-- The partition for which a front accesses memory: the context's own at U and K, the hypervisor's at H and that of secure
firmware at M (R138, R335, R336; log 16). -/
def Ctx.actsFor (x : Ctx) : BitVec 16 := match x.level with
  | .h => 0
  | .m => 0xFFFF
  | _ => x.partid

/-- The agent of a context's front. -/
def frontAgent (s : State) (c : Nat) : Agent :=
  let x := ctxAt s c
  { die := dieOf c, clu := cluOf c, core := some (coreOf c), asid := x.asid.toNat, part := x.actsFor, secure := x.secure,
    hyper := x.level == .h, wide := false, ctx := c, launch := x.work.launch }

/-- The agent of a context's access engine. -/
def vectorAgent (s : State) (c : Nat) : Agent := { frontAgent s c with core := none, wide := true }

/-- Where an address lies before any permission is judged (R321). -/
inductive Spot where
  | pad (clu off : Nat)
  | domain
  | page (leaf : Word) (pa : Nat)
  | none
  deriving DecidableEq, Repr

def ownWindow : Nat := 0x7F0000000000
def dieWindow : Nat := 0x7E0000000000
def domainBase : Nat := 0x20000000000000
def domainEnd : Nat := 0x40000000000000

/-- The frame field of an entry, as a physical address (R322). -/
def leafFrame (e : Word) : Nat := bitField e.toNat 14 34 * 2 ^ 14
def leafTier (e : Word) : Bool := flagAt e 11
def leafCov (e : Word) : Bool := flagAt e 10
def leafDev (e : Word) : Bool := flagAt e 9
def leafNsp (e : Word) : Bool := flagAt e 8
def leafSecure (e : Word) : Bool := flagAt e 7
def leafX (e : Word) : Bool := flagAt e 4
def leafW (e : Word) : Bool := flagAt e 3
def leafR (e : Word) : Bool := flagAt e 2

/-- The zero fields of every entry are zero and V is set (R322, R323). -/
def entryClean (e : Word) : Bool :=
  flagAt e 0 && bitField e.toNat 48 16 == 0 && bitField e.toNat 12 2 == 0 && !flagAt e 6 && !flagAt e 1

/-- The tier bit names the tier that holds the frame (R322, R331). -/
def tierAgrees (e : Word) : Bool := if leafTier e then inFar (leafFrame e) else inNear (leafFrame e)

/-- A vector entry that R323 reads as valid. -/
def vectorEntryOk (e : Word) : Bool :=
  entryClean e && tierAgrees e && !flagAt e 5 && bitField e.toNat 14 16 == 0

/-- A level 4 entry that R323 reads as valid. -/
def scalarLeafOk (e : Word) : Bool := entryClean e && tierAgrees e && !flagAt e 5 && !leafCov e

/-- A level 1 to 3 entry that R323 reads as valid: only V, table and frame may be set. -/
def tableEntryOk (e : Word) : Bool :=
  entryClean e && flagAt e 5 && bitField e.toNat 7 5 == 0 && bitField e.toNat 2 3 == 0 &&
  (inNear (leafFrame e) || inFar (leafFrame e))

/-- The region that judges a physical address: the valid entry of lowest number that holds it, else entry 0 (R336). -/
def regionOf (p : Package) (pa : Nat) : Region :=
  match firstSome p.regions (fun e =>
      if flagAt e.2.attr 63 && (e.2.base.toNat ≤ pa && pa < e.2.lim.toNat) then some e.2 else none) with
  | some r => r
  | none => get { base := 0, lim := 0, attr := 0 } p.regions 0

def Region.secure (r : Region) : Bool := flagAt r.attr 16
def Region.rawh (r : Region) : Bool := flagAt r.attr 17
def Region.part (r : Region) : BitVec 16 := r.attr.extractLsb' 0 16

/-- Whether the key of a partition has been erased and not installed again (R340). -/
def keyErased (p : Package) (part : BitVec 16) : Bool :=
  match find? p.keys part.toNat with
  | some k => k.erased
  | none => false

/-- The region decision of R336: none when allowed under the partition's key, some true for a raw read, some false
for ACCESS, as every access of a partition meets it whose key has been erased (R340). -/
def regionDecision (p : Package) (a : Agent) (acc : Acc) (pa : Nat) : Option Bool :=
  let r := regionOf p pa
  let rawRead := acc == .load || acc == .fetch
  if keyErased p (if a.secure then 0xFFFF else a.part) then some false
  else if a.secure then if r.secure then none else some rawRead
  else if r.secure then some false
  else if r.part = a.part then none
  else if a.hyper && r.rawh then some rawRead else some false

/-- The counter block of R337 for 16-byte block b of a sector whose page stands under version v; bit 51 is set in the block T of
R338. -/
def counterBlock (pa v b : Nat) (tag : Bool) : BitVec 128 :=
  BitVec.ofNat 128 (pa / 64 % 2 ^ 42 * 2 ^ 86 + v * 2 ^ 54 + b * 2 ^ 52 + tag.toNat * 2 ^ 51)

/-- Keys of memory from here on are bytes of scratchpads (R192). -/
def padKeys : Nat := 2 ^ 56

/-- The first byte of the 64-byte sector that holds a key, and of the 32-byte row in a scratchpad (R192, R196, R337). -/
def sectorOf (key : Nat) : Nat := if key < padKeys then key / 64 * 64 else key / 32 * 32
def sectorSize (key : Nat) : Nat := if key < padKeys then 64 else 32

/-- The key of a partition: the partition and the generation of its key (R340). -/
def keyOf (p : Package) (part : BitVec 16) : BitVec 16 × Nat :=
  (part, match find? p.keys part.toNat with | some k => k.gen | none => 0)

/-- The key under which the region of a physical address keeps its sectors (R336, R340). -/
def ownerOf (p : Package) (pa : Nat) : BitVec 16 × Nat :=
  let r := regionOf p pa
  keyOf p (if r.secure then 0xFFFF else r.part)

/-- The key under which a sector stands (R337, log 9). -/
def sealOf (p : Package) (pa : Nat) : BitVec 16 × Nat := (find? p.seals (sectorOf pa)).getD (ownerOf p pa)

/-- The sectors that hold listed bytes and whose owner's key changes go on standing under the key of before (R337, R338, R340). -/
def sealStale (old new : Package) : Memory → SMap (BitVec 16 × Nat) → SMap (BitVec 16 × Nat)
  | [], m => m
  | e :: r, m =>
    let k := sectorOf e.1
    sealStale old new r (if e.1 < padKeys && ownerOf old k != ownerOf new k && (find? m k).isNone then put m k (ownerOf old k) else m)

/-- The package with its keys or its regions changed (R336, R340). -/
def withOwners (s : State) (p : Package) : State := { s with pkg := { p with seals := sealStale s.pkg p s.mem p.seals } }

/-- What is wrong with the sector, or the scratchpad row, that holds a key; none when it reads clean. A sector that stands under
another key than its owner's fails its tag (R192, R338, R339; log 9, log 72). -/
def findingAt (p : Package) (key : Nat) : Option SectorFinding := match find? p.sectors (sectorOf key) with
  | some f => some f
  | none => if key < padKeys && sealOf p key != ownerOf p key then some .tagFails else none

/-- The key of a sector and the version of the page of a physical address (R337, R340). -/
def sectorKey (o : BitVec 16 × Nat) : BitVec 256 := Config.partitionKey o.1 o.2
def pageVersion (p : Package) (pa : Nat) : Nat := (get (0 : BitVec 32) p.pageVer (pa / 4096)).toNat

/-- The AES pad of the 16-byte block that holds a physical address (R337). -/
def sectorPad (p : Package) (pa : Nat) : BitVec 128 :=
  Config.aes256 (sectorKey (sealOf p pa)) (counterBlock pa (pageVersion p pa) (pa / 16 % 4) false)

/-- The stored byte of a physical address as a raw read returns it: plaintext XOR pad, under the key under which its sector
stands (R336, R337). -/
def cipherByte (s : State) (pa : Nat) : Byte := readByte s.mem pa ^^^ (sectorPad s.pkg pa).extractLsb' (8 * (pa % 16)) 8

/-- Why an access may not be performed: its code, with the physical address to log for a world violation, or of the sector whose data
the table walk of the access cannot use (R324, R339). -/
structure Denial where
  code   : Nat
  logged : Option Nat
  deriving DecidableEq, Repr

/-- What the read of a table entry meets, past the memory port, for the partition of the space in the agent's world: a region that
refuses it, or a sector whose data it cannot use (R320, R326, R336, R339; log 68). -/
def tableStop (s : State) (a : Agent) (sp : ASpace) (pa : Nat) : Option Denial :=
  let d := regionDecision s.pkg { a with part := sp.part, hyper := false } .load pa
  if d = some false then
    some { code := cPage, logged := if (regionOf s.pkg pa).secure && !a.secure then some pa else none }
  else match findingAt s.pkg pa with
    | some .uncorrectable => some { code := cMemue, logged := some pa }
    | some .tagFails => if d.isSome then none else some { code := cIntegrity, logged := some pa }
    | _ => none

/-- An entry of a table of an address space; one that may not be read, or not be used, is no valid entry. -/
def tableWord (s : State) (a : Agent) (sp : ASpace) (pa : Nat) : Word :=
  if (tableStop s a sp pa).isSome then 0
  else match regionDecision s.pkg { a with part := sp.part, hyper := false } .load pa with
    | none => readWord s.mem pa
    | some _ => BitVec.ofNat 64 (bytesNat ((span pa 8).map (cipherByte s)))

/-- The table walk below a table at a physical address, by the levels still to read (R321, R326). -/
def walkFrom (s : State) (a : Agent) (sp : ASpace) (va : Nat) : List Nat → Nat → Option Word
  | [], _ => none
  | sh :: rest, table =>
    let e := tableWord s a sp (table + 8 * bitField va sh 11)
    match rest with
    | [] => if scalarLeafOk e then some e else none
    | _ :: _ => if tableEntryOk e then walkFrom s a sp va rest (leafFrame e) else none

/-- What ends a table walk at a table entry (R336, R339). -/
def walkStop (s : State) (a : Agent) (sp : ASpace) (va : Nat) : List Nat → Nat → Option Denial
  | [], _ => none
  | sh :: rest, table =>
    let at_ := table + 8 * bitField va sh 11
    match tableStop s a sp at_ with
    | some d => some d
    | none =>
      let e := tableWord s a sp at_
      if tableEntryOk e then walkStop s a sp va rest (leafFrame e) else none

/-- A page that is being re-encrypted holds an entry that a table walk reads (R340). -/
def walkMeets (s : State) (a : Agent) (sp : ASpace) (va pg : Nat) : List Nat → Nat → Bool
  | [], _ => false
  | sh :: rest, table =>
    let at_ := table + 8 * bitField va sh 11
    let e := tableWord s a sp at_
    at_ / 4096 == pg || (tableEntryOk e && walkMeets s a sp va pg rest (leafFrame e))

/-- The four levels of a scalar address (R321). -/
def scalarLevels : List Nat := [47, 36, 25, 14]

/-- The cached leaf of a scalar page (R326). -/
def cachedLeaf (s : State) (a : Agent) (va : Nat) : Option Word :=
  match a.core with
  | none => none
  | some k => firstSome (coreAt s k).stb (fun e => if e.asid = a.asid ∧ e.page = va / 2 ^ 14 then some e.leaf else none)

/-- The level 4 leaf of a scalar address: the cached one, else a walk (R326). -/
def scalarLeaf (s : State) (a : Agent) (va : Nat) : Option Word :=
  match cachedLeaf s a va with
  | some e => some e
  | none => match find? (dieAt s a.die).aspaces a.asid with
    | none => none
    | some sp => walkFrom s a sp va scalarLevels sp.root

/-- The resident entry of a vector address; an address space that does not exist has none (R320, R321). -/
def residentLeaf (s : State) (die asid va : Nat) : Option Word :=
  match find? (dieAt s die).aspaces asid with
  | none => none
  | some _ =>
    let e := get 0 (dieAt s die).resident (asid * 2048 + va / 2 ^ 30)
    if vectorEntryOk e then some e else none

/-- Where a virtual address lies for an agent (R172, R195, R321). -/
def locate (s : State) (a : Agent) (va : Nat) : Spot :=
  if va < 2 ^ 41 then
    match residentLeaf s a.die a.asid va with
    | some e => .page e (leafFrame e + va % 2 ^ 30)
    | none => .none
  else if ownWindow ≤ va ∧ va < ownWindow + padSize then .pad a.clu (va - ownWindow)
  else if dieWindow ≤ va ∧ va < ownWindow then
    let slot := (va - dieWindow) / 2 ^ 24
    let off := va % 2 ^ 24
    if slot < 40 ∧ off < padSize then .pad (a.die * 64 + slot) off else .none
  else if domainBase ≤ va ∧ va < domainEnd then .domain
  else if a.wide then .none
  else if va < 2 ^ 58 then
    match scalarLeaf s a va with
    | some e => .page e (leafFrame e + va % 2 ^ 14)
    | none => .none
  else .none

/-- An access that may be performed: the key of its first byte in memory, its physical address when it lies in a tier,
its class and whether a raw read returns ciphertext. -/
structure Place where
  key : Nat
  pa  : Option Nat
  far : Bool
  dev : Bool
  nsp : Bool
  raw : Bool
  deriving DecidableEq, Repr

/-- The walk that an access of a scalar address takes, in its address space, where its leaf is not in the core's buffer (R321, R326). -/
def walkOf (s : State) (a : Agent) (va : Nat) : Option ASpace :=
  if a.wide || va < 2 ^ 41 || 2 ^ 58 ≤ va || (dieWindow ≤ va && va < ownWindow + padSize) || (domainBase ≤ va && va < domainEnd) ||
      (cachedLeaf s a va).isSome then none
  else find? (dieAt s a.die).aspaces a.asid

/-- The denial of an access whose address has no translation: its walk may have met a refusal or poisoned data (R321, R336, R339). -/
def noSpot (s : State) (a : Agent) (va : Nat) : Denial :=
  let plain : Denial := { code := if a.wide then cVpage else cPage, logged := none }
  match walkOf s a va with
  | some sp => (walkStop s a sp va scalarLevels sp.root).getD plain
  | none => plain

/-- A page whose sectors are being re-encrypted holds back every access to it (R340). -/
def pageBusy (s : State) (p : Place) : Bool := match s.pkg.reenc, p.pa with
  | some pg, some pa => pa / 4096 == pg
  | _, _ => false

/-- An access waits for a page of its translation tables (R340). -/
def walkBusy (s : State) (a : Agent) (va : Nat) : Bool := match s.pkg.reenc, walkOf s a va with
  | some pg, some sp => walkMeets s a sp va pg scalarLevels sp.root
  | _, _ => false

/-- The views that touch a cell of a covered frame (R309, R310). -/
def viewTouches (frame cell : Nat) (v : View) : Bool :=
  v.frame == frame && v.lo < v.hi && v.lo < (cell + 1) * 4096 && cell * 4096 < v.hi

/-- The die whose interval engine owns a frame: bits [31:30] of its physical address (R308). -/
def ownerDie (frame : Nat) : Nat := frame % 4

/-- The coverage of a cell (R309). -/
def coverage (s : State) (frame cell : Nat) : Nat :=
  ((dieAt s (ownerDie frame)).views.filter (fun e => viewTouches frame cell e.2)).length

/-- The permission of a leaf for an access (R324). -/
def leafAllows (e : Word) : Acc → Bool
  | .load => leafR e
  | .store => leafW e
  | .atomic => leafR e && leafW e
  | .fetch => leafX e && !leafCov e

/-- The decision on a virtual address: where the access performs, or the first condition of R139 that it meets.
Alignment and watchpoints are judged by the callers. The die-wide window reaches the scratchpad of every cluster of the die; the
spec names no check of the partition that owns it (log 69). -/
def decide (s : State) (a : Agent) (acc : Acc) (va : Nat) : Except Denial Place :=
  match locate s a va with
  | .none => .error (noSpot s a va)
  | .domain => .error { code := cAccess, logged := none }
  | .pad clu off =>
    if poolBase ≤ off then .error { code := cAccess, logged := none }
    else .ok { key := padKey clu off, pa := none, far := false, dev := false, nsp := false, raw := false }
  | .page e pa =>
    if leafSecure e && !a.secure then .error { code := cAccess, logged := some pa }
    else if !leafAllows e acc then .error { code := cAccess, logged := none }
    else match regionDecision s.pkg a acc pa with
      | some false =>
        .error { code := cAccess, logged := if (regionOf s.pkg pa).secure && !a.secure then some pa else none }
      | d =>
        if leafCov e && coverage s (pa / 2 ^ 30) (pa % 2 ^ 30 / 4096) == 0 then
          .error { code := cView, logged := none }
        else .ok { key := pa, pa := some pa, far := leafTier e, dev := leafDev e, nsp := leafNsp e, raw := d.isSome }

/-- A scalar access that walked the tables leaves its leaf in the core's buffer of 256; the oldest leaves it
(R326; log 11). -/
def noteLeaf (s : State) (a : Agent) (va : Nat) : State :=
  match a.core with
  | none => s
  | some k =>
    if va < 2 ^ 41 then s
    else match locate s a va, cachedLeaf s a va with
      | .page _ _, none => match scalarLeaf s a va with
        | some e => onCore s k (fun x =>
            { x with stb := ({ asid := a.asid, page := va / 2 ^ 14, leaf := e } :: x.stb).take 256 })
        | none => s
      | _, _ => s

/-- The tag of the sector that holds a physical address, from its four ciphertext blocks (R338). A sector that stands under
another key than its owner's fails its check; one whose stored bytes have been changed otherwise enters by SECTOR_READ (log 9). -/
def sectorTag (s : State) (pa : Nat) : BitVec 64 :=
  let k := sectorKey (sealOf s.pkg pa)
  let v := pageVersion s.pkg pa
  let block (b : Nat) : BitVec 128 :=
    BitVec.ofNat 128 (bytesNat ((span (pa / 64 * 64 + 16 * b) 16).map (cipherByte s)))
  (Config.ghash (Config.aes256 k 0) ((span 0 4).map block ++ [counterBlock pa v 0 false]) ^^^
    Config.aes256 k (counterBlock pa v 0 true)).setWidth 64

/-- The n bytes at a place, as its agent receives them. -/
def placeBytes (s : State) (p : Place) (n : Nat) : List Byte :=
  if p.raw then (span p.key n).map (cipherByte s) else readBytes s.mem p.key n

end Sys2Proof.Machine
end

