-- ==== Sys2Proof/Machine/Records.lean ====
section
/-! DEFINITION. Error records, the physical log and the partition queues (R343–R346); bytes charged to launches (R272);
and the memory port's side of an access: poisoned sectors and partial stores (R339). -/

namespace Sys2Proof.Machine

/-- An error record before it is placed (R343): the virtual and the physical address it may carry. -/
structure ErrRec where
  kind : Nat
  code : Nat
  rung : Nat
  part : BitVec 16
  ctx  : Nat
  info : Nat
  va   : Nat
  pa   : Nat
  deriving DecidableEq, Repr

/-- The 32 bytes of a record with an address (R343). -/
def recordBits (r : ErrRec) (cycle addr : Nat) : BitVec 256 :=
  BitVec.ofNat 256 (addr % 2 ^ 64 * 2 ^ 192 + r.info % 2 ^ 64 * 2 ^ 128 + cycle % 2 ^ 64 * 2 ^ 64 +
    r.part.toNat * 2 ^ 48 + r.rung * 2 ^ 44 + r.code * 2 ^ 32 + r.kind * 2 ^ 24 + r.ctx % 2 ^ 12 * 2 ^ 12 + 1)

/-- The kinds whose records also go to the partition's queue (R344). -/
def kindQueued (k : Nat) : Bool := 2 ≤ k && k ≤ 0x11 && k != 0x08 && k != 0x09

/-- The address space of a partition on a die: the lowest number (R320). -/
def asidOf (d : Die) (part : BitVec 16) : Option Nat :=
  firstSome d.aspaces (fun e => if e.2.part = part then some e.1 else none)

/-- A die unit that acts for a partition on a die. -/
def unitAgent (die asid : Nat) (part : BitVec 16) (secure : Bool) : Agent :=
  { die := die, clu := die * 64, core := none, asid := asid, part := part, secure := secure, hyper := false,
    wide := false, ctx := die * 1024, launch := 0 }

/-- A partition has a live launch of the S world on a die. -/
def partSecure (d : Die) (part : BitVec 16) : Bool := d.launches.any (fun e => e.2.part == part && e.2.secure)

/-- The die as it writes a partition's error queue at eqbase: in the partition's world, the S world for a page of it (R334, R345;
log 86). -/
def queueAgent (s : State) (die asid : Nat) (part : BitVec 16) (base : Nat) : Agent :=
  let a := unitAgent die asid part (partSecure (dieAt s die) part)
  match locate s a base with
  | .page e _ => { a with secure := a.secure && leafSecure e }
  | _ => a

/-- A record in the physical log (R346). -/
def logRecord (s : State) (bits : BitVec 256) : State :=
  onPkg s (fun p => { p with plog := set 0 p.plog (p.logCount % 8192) bits, logCount := p.logCount + 1 })

/-- Where the version table of its tier holds the version of a page (R331). -/
def versionAt (pg : Nat) : Nat :=
  if pg < 2 ^ 28 then 0x29C0000000 + 4 * pg else 0x1DFC0000000 + 4 * (pg - 2 ^ 28)

/-- The re-encryption of a page ends: the page stands under its next version, which its tier's version table shows, and mkeycmd reads
0 (R331, R340; log 71). -/
def endPage (s : State) : State :=
  match s.pkg.reenc with
  | none => s
  | some pg =>
    let v := get 0 s.pkg.pageVer pg + 1
    let s := onPkg s (fun p => { p with reenc := none, mkeycmd := 0, pageVer := set 0 p.pageVer pg v })
    if inNear (pg * 4096) || inFar (pg * 4096) then { s with mem := writeBytes s.mem (versionAt pg) (natBytes 4 v.toNat) } else s

/-- An access of a unit that has nothing else to do waits for a page that is being re-encrypted, till its end (R340, log 36). -/
def afterPage (s : State) (p : Place) : State := if pageBusy s p then endPage s else s

/-- Bytes written at a place; a stored scale carries a new check (R59). -/
def putBytes (s : State) (p : Place) (bytes : List Byte) : State :=
  { s with mem := writeBytes s.mem p.key bytes
           pkg := if s.pkg.badScales.isEmpty then s.pkg else { s.pkg with
             badScales := s.pkg.badScales.filter (fun k => k < p.key || p.key + bytes.length ≤ k) } }

/-- Whole sectors stored: they stand under their owners' keys, with new tags, and what was wrong with them is gone (R338). -/
def putSectors (s : State) (p : Place) (bytes : List Byte) : State :=
  onPkg (putBytes s p bytes) (fun k =>
    { k with sectors := removeRange k.sectors p.key (p.key + bytes.length)
             seals := removeRange k.seals p.key (p.key + bytes.length) })

/-- An area of the tiers written whole, with bytes that no rule gives, under a key or under those of its regions (R332, R371; log
12). -/
def writeArea (s : State) (pa n : Nat) (key : Option (BitVec 16 × Nat)) : State :=
  let own (k : Nat) (o : BitVec 16 × Nat) : Option (BitVec 16 × Nat) := if k % 64 = 0 && o != ownerOf s.pkg k then some o else none
  { s with
    mem := fillBytes s.mem pa n (fun k => Config.savedByte s.steps (k - pa))
    pkg := { s.pkg with
      sectors := removeRange s.pkg.sectors pa (pa + n), seals := putRange s.pkg.seals pa n (fun k => key.bind (own k))
      badScales := s.pkg.badScales.filter (fun k => k < pa || pa + n ≤ k) } }

/-- The record in the physical log of what is wrong with a sector that a die's own record meets; it has no queue (R339, R344;
log 26). -/
def logSector (s : State) (a : Agent) (va : Nat) (p : Place) (f : SectorFinding) : State :=
  let r (kind code : Nat) : State := logRecord s (recordBits
    { kind := kind, code := code, rung := 1, part := a.part, ctx := a.ctx, info := 0, va := va, pa := p.pa.getD 0 } (dieAt s a.die).cycle
    (p.pa.getD 0))
  match f with
  | .uncorrectable => r 0x02 cMemue
  | .tagFails => r 0x03 cIntegrity
  | _ => s

/-- A record that a die stores, which is part of a sector: merged over an uncorrectable one, discarded over one whose tag fails
(R338, R339). -/
def putChecked (s : State) (a : Agent) (va : Nat) (p : Place) (bytes : List Byte) : State :=
  let s := afterPage s p
  match findingAt s.pkg p.key with
  | some .tagFails => logSector s a va p .tagFails
  | some f => logSector (putBytes s p bytes) a va p f
  | none => putBytes s p bytes

/-- A record at the tail of a partition's queue on a die, or counted in ovf when the queue is full; a queue whose
header is broken or cannot be used, or whose addresses do not translate, takes nothing (R339, R345). -/
def queueRecord (s : State) (die : Nat) (part : BitVec 16) (bits : BitVec 256) : State :=
  let d := dieAt s die
  match asidOf d part with
  | none => s
  | some asid =>
    let base := (partDie d part.toNat).eqbase.toNat
    let a := queueAgent s die asid part base
    match decide s a .atomic base with
    | .error _ => s
    | .ok p =>
      let s := afterPage s p
      match findingAt s.pkg p.key with
      | some f => logSector s a base p f
      | none =>
      let head := readNat s.mem p.key 8
      let tail := readNat s.mem (p.key + 8) 8
      let ovf := readNat s.mem (p.key + 16) 8
      let lcap := (readByte s.mem (p.key + 24)).toNat
      let used := (tail + 2 ^ 64 - head) % 2 ^ 64
      if lcap < 4 ∨ 16 < lcap ∨ 2 ^ lcap < used then s
      else if used = 2 ^ lcap then
        putBytes s { p with key := p.key + 16 } (natBytes 8 (min (ovf + 1) (2 ^ 64 - 1)))
      else match decide s a .store (base + 64 + 32 * (tail % 2 ^ lcap)) with
        | .error _ => s
        | .ok q =>
          let s := putChecked s a (base + 64 + 32 * (tail % 2 ^ lcap)) q (natBytes 32 bits.toNat)
          putBytes s { p with key := p.key + 8 } (natBytes 8 ((tail + 1) % 2 ^ 64))

/-- A record of an event on a die: the physical log with the physical address, and the partition's queue with the
virtual one where R344 says so; partition 0 and secure firmware have no queue. -/
def record (s : State) (die : Nat) (r : ErrRec) : State :=
  let cycle := (dieAt s die).cycle
  let s := logRecord s (recordBits r cycle r.pa)
  if kindQueued r.kind && r.part != 0 && r.part != 0xFFFF then
    queueRecord s die r.part (recordBits r cycle r.va)
  else s

/-- The record of a world or region violation goes to the physical log (R324, R336, R344). -/
def logViolation (s : State) (a : Agent) (pa : Nat) : State :=
  record s a.die { kind := 0x09, code := cAccess, rung := 1, part := a.part, ctx := a.ctx,
                    info := if a.secure then 1 else 0, va := 0, pa := pa }

/-- What a denied access leaves behind. -/
def noteDenial (s : State) (a : Agent) (d : Denial) : State :=
  match d.logged with
  | some pa =>
    if d.code = cMemue ∨ d.code = cIntegrity then
      record s a.die { kind := if d.code = cMemue then 0x02 else 0x03, code := d.code, rung := 1, part := a.part, ctx := a.ctx, info := 0
                       va := 0, pa := pa }
    else logViolation s a pa
  | none => s

/-- Bytes that a launch's access moves past the memory port, in the tier of their page (R272). -/
def charge (s : State) (a : Agent) (p : Place) (n : Nat) : State :=
  match p.pa with
  | none => s
  | some _ => onDie s a.die (fun d => match find? d.launches a.launch with
    | none => d
    | some l =>
      let l := if p.far then { l with far := l.far + n } else { l with near := l.near + n }
      { d with launches := put d.launches a.launch l })

/-- The next state of a witness register (R152). -/
def stepWitness (w : BitVec 32) : BitVec 32 :=
  (w <<< 1) ||| (if (w.getLsbD 31 ^^ w.getLsbD 21) ^^ (w.getLsbD 1 ^^ w.getLsbD 0) then 1 else 0)

/-- The state of the sector, or of the scratchpad row, that holds a place: none when it reads clean (R192, R339; log 72). -/
def sectorState (s : State) (p : Place) : Option SectorFinding := findingAt s.pkg p.key

/-- What an access that reads meets there: the tag of a sector is not checked by a raw read (R336, R339). -/
def readFinding (s : State) (p : Place) : Option SectorFinding := match sectorState s p with
  | some .tagFails => if p.raw then none else some .tagFails
  | f => f

/-- The record of a sector fault that an agent's access met (R339, R344). -/
def recordSector (s : State) (a : Agent) (va : Nat) (p : Place) (f : SectorFinding) : State :=
  let part : BitVec 16 := if p.raw then 0 else a.part
  match f with
  | .uncorrectable => record s a.die { kind := 0x02, code := cMemue, rung := 1, part := part, ctx := a.ctx, info := 0,
                                       va := va, pa := p.pa.getD 0 }
  | .tagFails => record s a.die { kind := 0x03, code := cIntegrity, rung := 1, part := part, ctx := a.ctx, info := 0,
                                  va := va, pa := p.pa.getD 0 }
  | _ => s

/-- The record of a scale that fails its check, by its address and the index of its block (R59, R344). -/
def recordScale (s : State) (a : Agent) (va block : Nat) (p : Place) : State :=
  record s a.die { kind := 0x0B, code := 0, rung := 1, part := a.part, ctx := a.ctx, info := block, va := va, pa := p.pa.getD 0 }

/-- A store of part of a sector: the merge is written over an uncorrectable sector, whose poison stays, and discarded
over one whose tag fails; each writes its record, that of a raw read in the physical log alone (R338, R339, R344). -/
def storeAt (s : State) (a : Agent) (va : Nat) (p : Place) (bytes : List Byte) : State :=
  let s := charge s a p bytes.length
  match sectorState s p with
  | some .tagFails => recordSector s a va p .tagFails
  | some f => recordSector (putBytes s p bytes) a va p f
  | none => putBytes s p bytes

/-- A store of whole sectors needs no read: the sectors then carry new tags (R338). -/
def storeSectors (s : State) (a : Agent) (p : Place) (bytes : List Byte) : State :=
  let s := charge s a p bytes.length
  putSectors s p bytes

/-- Bytes stored at a place: whole sectors, or part of one (R338). -/
def storeWhole (s : State) (a : Agent) (va : Nat) (p : Place) (bytes : List Byte) : State :=
  let n := sectorSize p.key
  if bytes.length = 0 ∨ p.key % n ≠ 0 ∨ bytes.length % n ≠ 0 then storeAt s a va p bytes else storeSectors s a p bytes

end Sys2Proof.Machine
end

