-- ==== Sys2Proof/Machine/Domain.lean ====
section
/-! DEFINITION. The source side of the domain window: which accesses may leave the part, and the requests that wait for
their response (R172, R360–R363). -/

namespace Sys2Proof.Machine

/-- The target part and offset of a domain address (R361). -/
def domainPart (va : Nat) : Nat := va / 2 ^ 40 % 2 ^ 13
def domainOffset (va : Nat) : Nat := va % 2 ^ 40

/-- Whether a partition has a dpid and a route to the target of a domain address (R362). -/
def domainOpen (s : State) (part : BitVec 16) (va : Nat) : Bool :=
  get 0 s.pkg.dpids part.toNat != 0 && (get (0 : BitVec 8192) s.pkg.routes part.toNat).getLsbD (domainPart va)

/-- Two streams keep an order: a stream with itself, the scalar one with the dumps, which are scalar accesses (R138), and what a
lap store buffer has held with each (R290). -/
def DomainStream.meets (a b : DomainStream) : Bool :=
  let own (k : DomainStream) : DomainStream := if k = .dump then .scalar else k
  own a == own b || a == .buffer || b == .buffer

/-- A request stands before a later one, which leaves only when it has been answered: one of the same source to the same part, in a
stream that keeps an order with that of the other (R290, R360). -/
def DomainReq.before (q r : DomainReq) : Bool :=
  q.ctx == r.ctx && q.job == r.job && q.live == r.live && q.host == r.host && q.part == r.part && q.stream.meets r.stream

/-- A request that leaves for its target, or that waits for those before it, with the number by which its response names it; one of
an engine names its job. -/
def sendRequest (s : State) (c : Nat) (owner : BitVec 16) (launch va n : Nat) (sx : Bool) (d : XReg) (kind : DomainKind) (job : Option (Nat × Nat))
    (stream : DomainStream) (host : Bool) : State × Nat :=
  let id := s.pkg.nextReq
  let r : DomainReq :=
    { id := id, ctx := BitVec.ofNat 12 c, va := BitVec.ofNat 64 va, part := domainPart va, size := n, sext := sx, d := d,
      kind := kind, sent := cycleOf s c, launch := launch, owner := owner, job := job, stream := stream, waits := false
      live := true, host := host }
  (onPkg s (fun p => { p with domReqs := p.domReqs ++ [{ r with waits := p.domReqs.any (fun q => q.before r) }], nextReq := id + 1 }), id)

/-- A request of a context. -/
def sendDomain (s : State) (c va n : Nat) (sx : Bool) (d : XReg) (kind : DomainKind) (stream : DomainStream) : State × Nat :=
  sendRequest s c (ctxAt s c).partid (ctxAt s c).work.launch va n sx d kind none stream false

/-- Whether a request is one of a context's lap. -/
def DomainReq.isOf (r : DomainReq) (c : Nat) : Bool := r.ctx == BitVec.ofNat 12 c && r.job.isNone && r.live && !r.host

/-- Accesses of a context that have left for the domain and have not performed (R290, R363). -/
def domainPending (s : State) (c : Nat) : Bool := s.pkg.domReqs.any (fun r => r.isOf c)

/-- A request has been answered: those that waited for it alone leave (R360). -/
def leaveNext (now : Nat) (done : List DomainReq) : List DomainReq → List DomainReq
  | [] => []
  | r :: rest =>
    let r := if r.waits && !done.any (fun q => q.before r) then { r with waits := false, sent := now } else r
    r :: leaveNext now (done ++ [r]) rest

/-- What a context's lap has sent to the domain outlives the lap, which no answer reaches any more. -/
def orphanRequests (s : State) (c : Nat) : State :=
  if domainPending s c then
    onPkg s (fun p => { p with domReqs := p.domReqs.map (fun r => if r.isOf c then { r with live := false } else r) })
  else s

/-- The bits that a store lays over bytes at the target: whole bytes, or some bits of them (R184, R186). -/
def storeKind (ms : List (Byte × Byte)) : DomainKind :=
  if ms.all (fun m => m.1 == 0xFF) then .store (ms.map Prod.snd) else .merge ms

end Sys2Proof.Machine
end

