-- ==== Sys2Proof/Machine/Lap.lean ====
section
/-! DEFINITION. The lap store buffer (R148, R149, R175), its commit (R283, R328), the key passes' member records and
their start and abort (R237–R242), the end of a context's occupancy, rewinds and leg kills (R150, R151). -/

namespace Sys2Proof.Machine

/-- The bits of a byte to be stored and their values. -/
abbrev MaskedByte := Byte × Byte

/-- Whole bytes. -/
def wholeBytes (bs : List Byte) : List MaskedByte := bs.map (fun b => (0xFF, b))

/-- A byte with the stored bits of another laid over it. -/
def overlay (old : Byte) (m : MaskedByte) : Byte := (old &&& ~~~m.1) ||| (m.2 &&& m.1)

/-- A byte of memory with what the buffer holds for its address laid over it (R175). -/
def mergeByte (buf : SMap MaskedByte) (va : Nat) (b : Byte) : Byte :=
  match find? buf va with
  | some m => overlay b m
  | none => b

def mergeBytes (buf : SMap MaskedByte) (va : Nat) : List Byte → List Byte
  | [] => []
  | b :: r => mergeByte buf va b :: mergeBytes buf (va + 1) r

/-- The buffer with bits of consecutive bytes stored. -/
def bufferBytes (buf : SMap MaskedByte) (va : Nat) : List MaskedByte → SMap MaskedByte
  | [] => buf
  | m :: r =>
    let e : MaskedByte := match find? buf va with
      | some o => (o.1 ||| m.1, overlay o.2 m)
      | none => m
    bufferBytes (put buf va e) (va + 1) r

/-- The n bytes a context's load receives at a place: memory with the context's own buffered stores (R175). -/
def ctxBytes (s : State) (c va : Nat) (p : Place) (n : Nat) : List Byte :=
  mergeBytes (ctxAt s c).lap.buf va (placeBytes s p n)

/-- Bits of bytes stored past the buffer: each byte is one atomic merge (R184, R186). -/
def storeMasked (s : State) (a : Agent) (va : Nat) (p : Place) (ms : List MaskedByte) : State :=
  (if ms.all (fun m => m.1 == 0xFF) then storeWhole else storeAt) s a va p (List.zipWith overlay (readBytes s.mem p.key ms.length) ms)

/-- Bytes of a lap store buffer (R148). -/
def bufferSize : Nat := 32768

/-- Consecutive buffered bytes of one sector, together. -/
def runs : SMap MaskedByte → List (Nat × List MaskedByte)
  | [] => []
  | (va, m) :: r => match runs r with
    | [] => [(va, [m])]
    | (w, ms) :: rest => if w = va + 1 ∧ va / 64 = w / 64 then (va, m :: ms) :: rest else (va, [m]) :: (w, ms) :: rest

/-- A context's lap, changed. -/
def onLap (s : State) (c : Nat) (f : Lap → Lap) : State := onCtx s c (fun x => { x with lap := f x.lap })

/-- A buffered store that can no longer be stored: its code, the virtual and the physical address that its records name, and the
physical address of a violation that its denial logs (R324, R328, R343). -/
structure BadCommit where
  code   : Nat
  va     : Nat
  pa     : Nat
  logged : Option Nat
  deriving DecidableEq, Repr

/-- The physical address that a leaf gives a virtual one, 0 where none does (R343). -/
def spotPa (s : State) (a : Agent) (va : Nat) : Nat := match locate s a va with
  | .page _ pa => pa
  | _ => 0

/-- A run of bytes that leaves the buffer: to its place, or to the domain, whose answer a lap that a target refuses does not survive
(log 20); why not, when it may not be stored (R328). -/
def commitRun (s : State) (a : Agent) (va : Nat) (ms : List MaskedByte) : Except BadCommit State :=
  match locate s a va with
  | .domain =>
    if domainOpen s a.part va then .ok (sendDomain s a.ctx va ms.length false 0 (storeKind ms) .buffer).1
    else .error { code := cAccess, va := va, pa := 0, logged := none }
  | _ => match decide s a .store va with
    | .error d => .error { code := d.code, va := va, pa := spotPa s a va, logged := d.logged }
    | .ok p => .ok (storeMasked s a va p ms)

/-- The buffered runs stored in address order; the first address whose leaf does not allow the store stops the commit
(R328). -/
def commitRuns (s : State) (a : Agent) : List (Nat × List MaskedByte) → State × Option BadCommit
  | [] => (s, none)
  | (va, ms) :: r => match commitRun s a va ms with
    | .error b => (s, some b)
    | .ok s => commitRuns s a r

/-- The buffer's bytes all become visible, or none does and the address that cannot be stored is reported (R283,
R328). -/
def commitBuffer (s : State) (c : Nat) : State × Option BadCommit :=
  match commitRuns s (frontAgent s c) (runs (ctxAt s c).lap.buf) with
  | (t, none) => (onLap t c (fun l => { l with buf := [] }), none)
  | (_, some b) => (s, some b)

/-- The word that a member's header shows in bits [511:448] (R237). -/
def memberWord (m : Member) : Nat :=
  m.done * 2 ^ 32 + m.cur * 2 ^ 16 + m.ents.length * 2 ^ 8 + m.state

/-- The members of a pass show their state in their headers (R237). -/
def showMembers (mem : Memory) : List Member → Memory
  | [] => mem
  | m :: r => showMembers (writeBytes mem (m.header + 56) (natBytes 8 (memberWord m))) r

/-- A pass record of a die with the headers of its members. -/
def setPass (s : State) (die id : Nat) (p : Pass) : State :=
  { onDie s die (fun d => { d with passes := put d.passes id p }) with mem := showMembers s.mem p.members }

/-- The dimensions n, N and the greatest p of a parameter set, with the decompositions (β, ℓ) of the blind rotation and
of the key switch, the slice buffer and the accumulator's bytes (R223). -/
structure ParamSet where
  n     : Nat
  big   : Nat
  bβ    : Nat
  bl    : Nat
  kβ    : Nat
  kl    : Nat
  maxP  : Nat
  slice : Nat
  acc   : Nat
  deriving DecidableEq, Repr

def paramSet : Nat → ParamSet
  | 0 => { n := 768, big := 2048, bβ := 16, bl := 2, kβ := 4, kl := 6, maxP := 4, slice := 397312, acc := 32768 }
  | 1 => { n := 1024, big := 4096, bβ := 12, bl := 3, kβ := 4, kl := 7, maxP := 6, slice := 528384, acc := 65536 }
  | 2 => { n := 630, big := 1024, bβ := 18, bl := 1, kβ := 3, kl := 5, maxP := 2, slice := 323584, acc := 16384 }
  | _ => { n := 4, big := 16, bβ := 16, bl := 4, kβ := 16, kl := 4, maxP := 2, slice := 4096, acc := 256 }

/-- The fields of a descriptor (R221). -/
def descBase (d : BitVec 256) : Nat := bitField d.toNat 0 64
def descB (d : BitVec 256) : Nat := bitField d.toNat 96 12
def descPset (d : BitVec 256) : Nat := bitField d.toNat 128 4
def descP (d : BitVec 256) : Nat := bitField d.toNat 140 4
def descRfo (d : BitVec 256) : Nat := bitField d.toNat 160 1
def descKey (d : BitVec 256) : Nat := bitField d.toNat 176 16
def descCharge (d : BitVec 256) : Nat := bitField d.toNat 192 64

/-- The bytes of a batch: B (n + 1) coefficients of 8 bytes (R222). -/
def descBytes (d : BitVec 256) : Nat := descB d * ((paramSet (descPset d)).n + 1) * 8

/-- The key of a batch's first byte in its cluster's scratchpad (R222). -/
def descKeyAt (clu : Nat) (d : BitVec 256) : Nat := padKey clu (descBase d - ownWindow)

/-- Zero in every batch of a member that has not finished, its entries zeroed (R242). -/
def zeroEntries (mem : Memory) (clu : Nat) : List PassEntry → Memory × List PassEntry
  | [] => (mem, [])
  | e :: r =>
    let (m, es) := zeroEntries mem clu r
    if e.est = 2 ∨ e.est = 3 then (m, e :: es)
    else
      let k := descKeyAt clu e.out
      (clearRange m k (k + descBytes e.out), { e with est := 3 } :: es)

def zeroMembers (mem : Memory) : List Member → Memory × List Member
  | [] => (mem, [])
  | m :: r =>
    let (mem, ms) := zeroMembers mem r
    let (mem, es) := zeroEntries mem m.clu m.ents
    (mem, { m with ents := es } :: ms)

/-- The 128 bytes of an entry of a member record (R238). -/
def PassEntry.image (e : PassEntry) : Nat :=
  bitField e.tab.toNat 0 512 * 2 ^ 512 + e.out.toNat * 2 ^ 256 + descBase e.src * 2 ^ 192 + e.accoff * 2 ^ 160 +
  bitField e.tab.toNat 512 4 * 2 ^ 144 + e.ctx % 4096 * 2 ^ 128 + e.est

/-- The entries of a member, from one on, shown in its work area (R238). -/
def showFrom (mem : Memory) (k : Nat) : List PassEntry → Memory
  | [] => mem
  | e :: r => showFrom (writeBytes mem k (natBytes 128 e.image)) (k + 128) r

/-- The key of a byte of a member's work area (R238). -/
def Member.at_ (m : Member) (off : Nat) : Nat := padKey m.clu (m.work - ownWindow + off)

/-- The entries of members shown in their work areas. -/
def showEntries (mem : Memory) : List Member → Memory
  | [] => mem
  | m :: r => showEntries (showFrom mem (m.at_ 0) m.ents) r

/-- A token more in a baton queue of a context (R168). -/
def Ctx.post (x : Ctx) (q : Nat) : Ctx := { x with batons := set 0 x.batons q (get 0 x.batons q + 1) }

/-- The tokens that instructions and jobs may pop from a queue, with those owed to reissued instructions (R168). -/
def Ctx.tokens (x : Ctx) (q : Nat) : Nat := get 0 x.batons q + get 0 x.owed q

/-- A baton popped: one that is owed, else one of the queue, whose reserve entry lapses when the occupancy is 4 again (R168,
R169). -/
def Ctx.pop (x : Ctx) (q : Nat) : Ctx :=
  if 0 < get 0 x.owed q then { x with owed := set 0 x.owed q (get 0 x.owed q - 1) }
  else
    let n := get 0 x.batons q - 1
    { x with batons := set 0 x.batons q n, reserve := if n ≤ 4 then x.reserve.filter (fun k => k != q) else x.reserve }

/-- A baton popped by an instruction of the lap (R150, R168). -/
def Ctx.popOwn (x : Ctx) (q : Nat) : Ctx :=
  let y := x.pop q
  { y with lap := { y.lap with popped := set 0 y.lap.popped q (get 0 y.lap.popped q + 1) } }

/-- A WFE of a context ends when an engine job that it issued retires, a baton arrives in b0 or b3, or a stop request arrives
(R161). -/
def wakeWfe (x : Ctx) : Ctx := match x.park with
  | .wfe t _ => { x with park := .wfe t true }
  | _ => x

/-- Room in a baton queue: four, or five with a reserve entry (R168, R169). -/
def batonRoom (x : Ctx) (q : Nat) : Bool := get 0 x.batons q < (if x.reserve.contains q then 5 else 4)

/-- A baton that an instruction of the lap has popped stands in its queue again, or is owed where its queue has filled meanwhile, since
no queue holds more than four (R168, log 15). -/
def Ctx.giveBack (x : Ctx) (q : Nat) : Ctx :=
  let y := if batonRoom x q then x.post q else { x with owed := set 0 x.owed q (get 0 x.owed q + 1) }
  { y with lap := { y.lap with popped := set 0 y.lap.popped q (get 0 y.lap.popped q - 1) } }

/-- The batons that a lap has popped, by their queues, given back (R150). -/
def giveBacks (x : Ctx) : List Nat → Ctx
  | [] => x
  | q :: r => giveBacks (x.giveBack q) r

/-- Contexts that have a lap, or what a saved lap has left of one. -/
def holdsLap (s : State) (launch c : Nat) : Bool := (ctxAt s c).occ != .free && (ctxAt s c).work.launch == launch

/-- The b3 batons that an ended pass owes, posted where there is room; the contexts that still wait for theirs (R168,
R241). -/
def postAskers (s : State) (launch : Nat) : List Nat → State × List Nat
  | [] => (s, [])
  | c :: r =>
    if !holdsLap s launch c then postAskers s launch r
    else if batonRoom (ctxAt s c) 3 then postAskers (onCtx s c (fun x => wakeWfe (x.post 3))) launch r
    else
      let (s, left) := postAskers s launch r
      (s, c :: left)

/-- An ended pass posts the batons it owes; its record is free once it has (R240, R241). -/
def settlePass (s : State) (die id : Nat) : State :=
  match find? (dieAt s die).passes id with
  | none => s
  | some p =>
    if p.state < 3 then s
    else
      let (s, left) := postAskers s p.launch p.askers
      onDie s die (fun d =>
        { d with passes := if left.isEmpty then remove d.passes id else put d.passes id { p with askers := left } })

/-- The jobs that stand for a pass in its members' clusters have retired (R227, R238). -/
def dropPassJobs (s : State) (id : Nat) : List Member → State
  | [] => s
  | m :: r => dropPassJobs (onClu s m.clu (fun x => { x with jobs := x.jobs.filter (fun j => match j.kind with
      | .member k => k != id
      | .crfn k _ => k != id
      | _ => true) })) id r

/-- A pass ends in a state on every member (R241–R243). -/
def closePass (s : State) (die id st : Nat) (p : Pass) : State :=
  let s := setPass s die id { p with state := st, members := p.members.map (fun m => { m with state := st }) }
  settlePass (dropPassJobs s id p.members) die id

/-- A pass ends on every member in state 4 or 5 with its unfinished batches zeroed (R242, R243). -/
def endPassZeroed (s : State) (die id st : Nat) : State :=
  match find? (dieAt s die).passes id with
  | none => s
  | some p =>
    if p.state = 1 ∨ p.state = 2 then
      let (mem, ms) := zeroMembers s.mem p.members
      closePass { s with mem := showEntries mem ms } die id st { p with members := ms }
    else s

/-- Every context that opened or joined a pass has run it: it starts, and ends at once when it has no entries (R241). -/
def startPass (s : State) (die id : Nat) (p : Pass) : State :=
  if p.joined.all (fun c => p.ran.contains c) then
    if p.members.all (fun m => m.ents.isEmpty) then closePass s die id 3 p
    else setPass s die id { p with state := 2, members := p.members.map (fun m => { m with state := 2 }) }
  else setPass s die id p

/-- A run of a pass by a context, which asks for a baton or not; false when it has not joined the pass, has run it, or the
pass is no longer open (R241). -/
def runPass (s : State) (c id : Nat) (ask : Bool) : State × Bool :=
  match find? (dieAt s (dieOf c)).passes id with
  | none => (s, false)
  | some p =>
    if p.state = 1 ∧ p.joined.contains c ∧ !p.ran.contains c then
      (startPass s (dieOf c) id { p with ran := c :: p.ran, askers := if ask then c :: p.askers else p.askers }, true)
    else (s, false)

/-- NEXT and a leg kill act as a run for a context that joined its current pass without running it (R241); it has no
current pass then. -/
def leavePass (s : State) (c : Nat) : State :=
  match (ctxAt s c).pass with
  | none => s
  | some id => onCtx (runPass s c id false).1 c (fun x => { x with pass := none })

/-- The passes of a launch abort (R242, R243). -/
def abortPasses (s : State) (die launch : Nat) : State :=
  ((dieAt s die).passes.filter (fun e => e.2.launch == launch)).foldl (fun s e => endPassZeroed s die e.1 4) s

/-- The change of a hurdle's count of waiters by one, bits [79:64], modulo 2^16 (R249). -/
def bumpWaiters (s : State) (c va up : Nat) : State :=
  match decide s (frontAgent s c) .atomic va with
  | .error _ => s
  | .ok p =>
    let w := readNat s.mem (p.key + 8) 2
    storeAt s (frontAgent s c) (va + 8) { p with key := p.key + 8 } (natBytes 2 ((w + up) % 2 ^ 16))

/-- A context no longer parked; a hurdle wait leaves its hurdle's waiters (R249). -/
def unpark (s : State) (c : Nat) : State :=
  match (ctxAt s c).park with
  | .hurdle va _ _ _ => onCtx (bumpWaiters s c va.toNat (2 ^ 16 - 1)) c (fun x => { x with park := .none })
  | _ => onCtx s c (fun x => { x with park := .none })

/-- A context without a lap: what stays is what lap dispatch leaves as it is (R49, R50, R387). -/
def Ctx.freed (x : Ctx) : Ctx :=
  { Ctx.reset with
    secure := x.secure, trapH := x.trapH, trapM := x.trapM, asid := x.asid, partid := x.partid, halting := x.halting,
    csr := { Csrs.reset with
      retired := x.csr.retired, slips := x.csr.slips, slipv := x.csr.slipv, slipm := x.csr.slipm,
      slipi := x.csr.slipi } }

/-- A number in place of another. -/
def rename (old new k : Nat) : Nat := if k = old then new else k

/-- What the jobs and key passes of a cluster and the admission controller owe a lap, they owe it under its new number (R168, R212,
R243, R266). -/
def renameLap (s : State) (clu old new : Nat) : State :=
  let s := onClu s clu (fun x =>
    { x with jobs := x.jobs.map (fun j => { j with issuer := j.issuer.map (rename old new) }) })
  onDie s (dieOfClu clu) (fun d => { d with
    requests := d.requests.map (fun r => { r with ctx := rename old new r.ctx })
    passes := d.passes.map (fun e => (e.1, { e.2 with
    joined := e.2.joined.map (rename old new), ran := e.2.ran.map (rename old new)
    askers := e.2.askers.map (rename old new)
    members := e.2.members.map (fun m =>
      { m with ents := m.ents.map (fun n => { n with ctx := rename old new n.ctx }) }) })) })

/-- Some job, key pass or request for admission of a context's die names it. -/
def owes (s : State) (c : Nat) : Bool :=
  (cluAt s (cluOf c)).jobs.any (fun j => j.issuer == some c) ||
  (dieAt s (dieOf c)).requests.any (fun r => r.ctx == c) ||
  (dieAt s (dieOf c)).passes.any (fun e => e.2.joined.contains c || e.2.ran.contains c || e.2.askers.contains c)

/-- What jobs and passes owe a lap that ends reaches no later lap of its context: they name it by a number of its own. -/
def detach (s : State) (c : Nat) : State :=
  if owes s c then
    let clu := cluOf c
    let n := 4096 * (cluAt s clu).nextSave + c
    onClu (renameLap s clu c n) clu (fun x => { x with nextSave := x.nextSave + 1 })
  else s

/-- The end of a context's occupancy of its lap. -/
def freeCtx (s : State) (c : Nat) : State := onCtx (orphanRequests (unpark (detach s c) c) c) c Ctx.freed

/-- A launch of a die, changed. -/
def onLaunch (s : State) (die id : Nat) (f : Launch → Launch) : State :=
  onDie s die (fun d => match find? d.launches id with
    | some l => { d with launches := put d.launches id (f l) }
    | none => d)

/-- The work of a context, for its records (R343). -/
def ctxRecord (s : State) (c kind code rung info va pa : Nat) : State :=
  record s (dieOf c) { kind := kind, code := code, rung := rung, part := (ctxAt s c).partid, ctx := c, info := info,
                       va := va, pa := pa }

/-- A leg kill: the buffer is discarded, the lap's elements retire as killed with no release and the context frees
(R151); those of a round that a re-fire has stopped are not counted (R296). The record carries a code and addresses
(R344). -/
def killLap (s : State) (c code va pa : Nat) : State :=
  let x := ctxAt s c
  let s := ctxRecord s c 0x05 code 3 x.work.nd va pa
  let s := leavePass s c
  let s := onLaunch s (dieOf c) x.work.launch (fun l =>
    if l.restop then l else { l with lost := l.lost + x.work.nd, killed := l.killed + x.work.nd })
  freeCtx s c

/-- The buffer commits and the lap runs on unbuffered, no longer rewindable (R149); false when the commit killed the
lap (R328). -/
def breakLap (s : State) (c : Nat) : State × Bool :=
  match commitBuffer s c with
  | (s, none) => (onLap s c (fun l => { l with rewindable := false, buffering := false }), true)
  | (s, some b) =>
    (killLap (noteDenial s (frontAgent s c) { code := b.code, logged := b.logged }) c b.code b.va b.pa, false)

/-- Bytes stored into a context's lap store buffer; none when they do not fit (R148, R149). -/
def intoBuffer (s : State) (c va : Nat) (ms : List MaskedByte) : Option State :=
  let b := bufferBytes (ctxAt s c).lap.buf va ms
  if b.length ≤ bufferSize then some (onLap s c (fun l => { l with buf := b })) else none

/-- The buffer without the bits that a store which performs past it replaces: a lap that is no longer rewindable keeps
its buffer under the first row of R149 and stores unbuffered. -/
def supersede (buf : SMap MaskedByte) (va : Nat) : List MaskedByte → SMap MaskedByte
  | [] => buf
  | m :: r =>
    let b := match find? buf va with
      | some o => if o.1 &&& ~~~m.1 = 0 then remove buf va else put buf va (o.1 &&& ~~~m.1, o.2)
      | none => buf
    supersede b (va + 1) r

/-- A store that performs at once. -/
def storeNow (s : State) (c : Nat) (a : Agent) (va : Nat) (p : Place) (ms : List MaskedByte) : State :=
  onLap (storeMasked s a va p ms) c (fun l => { l with buf := supersede l.buf va ms })

/-- A store of a context to a place: into the buffer while the lap buffers its stores, else to memory; one that does
not fit commits the buffer and then performs (R149, R175). False when that commit killed the lap. -/
def ctxStore (s : State) (c : Nat) (a : Agent) (va : Nat) (p : Place) (ms : List MaskedByte) : State × Bool :=
  if (ctxAt s c).lap.buffering && !p.dev then
    match intoBuffer s c va ms with
    | some s => (s, true)
    | none => match breakLap s c with
      | (s, true) => (storeNow s c a va p ms, true)
      | r => r
  else (storeNow s c a va p ms, true)

/-- The entries of a load stream up to the last that holds bytes of device-class memory, which are never read twice (R174). -/
def keptEntries : List StreamEntry → List StreamEntry
  | [] => []
  | e :: r => if e.dev || r.any (fun k => k.dev) then e :: keptEntries r else []

/-- The filled entries of a load stream discarded: the next fill starts after what is kept (R174, R181, R190). -/
def Stream.discard (st : Stream) : Stream :=
  if st.store then st
  else
    let es := keptEntries st.entries
    { st with entries := es, fill := st.pos + es.length * st.strip }

def mapStreams (f : Stream → Stream) : SMap Stream → SMap Stream
  | [] => []
  | (k, st) :: r => (k, f st) :: mapStreams f r

/-- A stream as a lap that is rewound finds it again: a strip whose filling has met a fault, and what was filled after it, is filled
again, but for device-class memory (R150, R174, R189). -/
def Stream.again (st : Stream) : Stream :=
  if st.store then st
  else
    let good := st.entries.takeWhile (fun e => e.fault.isNone)
    let kept := keptEntries st.entries
    let es := if good.length < kept.length then kept else good
    { st with entries := es, fill := st.pos + es.length * st.strip }

/-- The restored induction registers of a checkpoint. -/
def restoreInd (x : Ctx) : List (Nat × Word) → Ctx
  | [] => x
  | (r, w) :: t => restoreInd (x.setX (BitVec.ofNat 5 r) w) t

def restoreCarried (x : Ctx) : List (Nat × VReg) → Ctx
  | [] => x
  | (r, b) :: t => restoreCarried (x.setV r b) t

/-- A context back at its checkpoint, its queued instructions cancelled (R150); whether a handler runs is what it was there
(R139). A dispatch segment restores the whole dispatch state; the counters of R49 that continue are kept. The streams stand as the lap
has found them, and the batons that it has popped are there again, so that the rewind does not show. -/
def Ctx.restoreCkpt (x : Ctx) (k : Checkpoint) : Ctx :=
  let x := giveBacks x (x.lap.popped.flatMap (fun e => List.replicate e.2 e.1))
  let x := match k.whole with
    | some (r, u) =>
      { x with
        regs := r
        csr := { u with
          retired := x.csr.retired, slips := x.csr.slips, slipv := x.csr.slipv, slipm := x.csr.slipm,
          slipi := x.csr.slipi } }
    | none => restoreCarried (restoreInd x k.ind) k.carried
  { x with
    pc := k.pc, level := k.level, inHandler := k.handler, stepOver := none, between := false, vq := [], vx := [], held := none,
    fwait := .none, domWait := [], domGot := [], stopping := none, passed := 0, waits := [], waitsData := false, dumping := false, readBack := [],
    csr := { x.csr with vl := k.vl, fflags := k.fflags, es := k.es },
    streams := mapStreams Stream.again k.streams, loop := { x.loop with lapno := k.lapno, laprem := k.laprem, active := k.whole.isNone },
    lap := { x.lap with buf := [], trim := k.trim, reads := [], writes := [], rewinds := x.lap.rewinds + 1 } }

/-- A lap meets data it cannot use, or its own arithmetic fails its check: it is rewound when R150 allows, else killed
(R151). `sector` names a poisoned sector; `fatal` says the data failed their tag. -/
def failLap (s : State) (c code : Nat) (fatal : Bool) (sector : Option Nat) (lane elem va pa : Nat) : State :=
  let x := ctxAt s c
  let again := match sector with
    | some p => x.lap.poisoned.contains p
    | none => false
  match x.lap.ckpt with
  | some k =>
    if !x.lap.rewindable || fatal || again || x.lap.rewinds ≥ 4 then killLap s c code va pa
    else
      let s := unpark s c
      let s := onCtx s c (fun x => x.restoreCkpt k)
      let s := onLap s c (fun l => { l with poisoned := sector.toList ++ l.poisoned })
      ctxRecord s c 0x04 code 2 (lane + elem * 2 ^ 16 + (x.lap.rewinds + 1) * 2 ^ 32) va pa
  | none => killLap s c code va pa

/-- A lap consumes what a poisoned sector, or a scratchpad row, holds (R150, R151, R339; log 72). -/
def consumePoison (s : State) (c elem va : Nat) (p : Place) (f : SectorFinding) : State :=
  failLap s c (if f = .tagFails then cIntegrity else cMemue) (f = .tagFails) (some (sectorOf p.key)) 0 elem va
    (p.pa.getD 0)

/-- The selected induction registers, for a checkpoint (R48). -/
def selected (x : Ctx) : List (Nat × Word) :=
  ((span 0 8).filter (fun k => x.loop.ind.getLsbD k)).map (fun k => (8 + k, x.x (BitVec.ofNat 5 (8 + k))))

/-- The carried group, for a checkpoint (R48, R81). -/
def carriedGroup (x : Ctx) : List (Nat × VReg) :=
  if x.loop.cvb = 0 then [] else (span x.loop.cvb.toNat x.loop.cvn).map (fun r => (r, x.v r))

/-- lap_start of R82: vl under the lane groups that are in service now, and the checkpoint of a lap that can be rewound, with an
untrimmed limit (R43, R142, R148, R153). -/
def Ctx.lapStart (x : Ctx) (groups : Nat) : Ctx :=
  let n := min x.loop.laprem (vlmaxOf x.csr.vtype groups)
  let ck : Checkpoint :=
    { pc := x.loop.start, level := x.level, ind := selected x, carried := carriedGroup x, vl := n,
      fflags := x.csr.fflags, es := x.csr.es, lapno := x.loop.lapno, laprem := x.loop.laprem, trim := none,
      handler := x.inHandler, streams := x.streams, whole := none }
  { x with
    groups := groups, between := false, csr := { x.csr with vl := n }
    lap := { Lap.none with ckpt := some ck, rewindable := true, buffering := true } }

/-! Load streams -/

/-- What load streams that pass a test have asked of the domain is asked again (R177, R181). -/
def Ctx.forget (x : Ctx) (ok : Nat → Bool) : Ctx :=
  let gone (r : Nat) : Bool := ok r && (match find? x.streams r with
    | some st => !st.store
    | none => false)
  { x with domWait := x.domWait.filter (fun e => !gone e.1), domGot := x.domGot.filter (fun e => !gone e.1) }

/-- Load entries of every stream discarded, with what their fills have asked of the domain (R190). -/
def Ctx.discardLoads (x : Ctx) : Ctx := { x.forget (fun _ => true) with streams := mapStreams Stream.discard x.streams }

/-- The copies of marks take over what publishes have sent, a lower mark too; where one rises, the loads that it lets go on
acquire, so that what the context's load streams have read ahead is read again (R306, R307). -/
def Ctx.takeMarks (x : Ctx) (which : MarkBind → Bool) : Ctx :=
  let ms := x.marks.map (fun m => if which m then { m with mark := m.sent } else m)
  if x.marks.any (fun m => which m && Nat.blt m.mark m.sent) then { x.discardLoads with marks := ms } else { x with marks := ms }

/-- A lap that a boundary has held back starts (R82, R87). -/
def startLap (s : State) (c : Nat) : State :=
  if (ctxAt s c).between then onCtx s c (fun x => x.lapStart (coreAt s (coreOf c)).groups) else s

end Sys2Proof.Machine
end

