-- ==== Sys2Proof/Machine/Engine.lean ====
section
/-! DEFINITION. What the engines of a cluster do with a job (R70, R197, R199, R204–R208, R213–R217, R220, R230): the card and what it
shows, the limits of an operation, footprints, the engines' accesses, and the data work of TMMA, TCVT, TCOPY and CARITH. -/

namespace Sys2Proof.Machine

/-- An own-window address in its die-wide form; any other address as it is (R199). -/
def dieForm (clu va : Nat) : Nat :=
  if ownWindow ≤ va ∧ va < ownWindow + padSize then dieWindow + clu % 64 * 2 ^ 24 + (va - ownWindow) else va

/-- Whether a range shares a 32-byte block with the bytes lo to hi (R199). -/
def Range.meets (r : Range) (lo hi : Nat) : Bool := r.lo / 32 ≤ hi / 32 && lo / 32 ≤ r.hi / 32

/-- The status word of a job's card (R197). -/
def jobWord (j : Job) : Nat :=
  j.done % 2 ^ 32 * 2 ^ 32 + j.flags.toNat * 2 ^ 16 + j.code * 2 ^ 8 + (if j.state = 3 ∧ !j.begun then 1 else j.state)

/-- The code of a tile dimension, as in vtype (R209). -/
def tileCode (n : Nat) : Nat := if n = 256 then 3 else if n = 128 then 2 else if n = 64 then 1 else 0

/-- The resume field of a job's card (R209): 192 bits. -/
def jobResume (j : Job) : Nat :=
  let codes := if j.kind = .tmma then tileCode j.mDim + 4 * tileCode j.nDim else 0
  j.faddr % 2 ^ 64 * 2 ^ 128 + j.srkey.toNat * 2 ^ 64 + j.srep.toNat * 2 ^ 32 + j.rm * 2 ^ 4 + codes

/-- Whether a job stands on a card; work items and members do not (R227, R238). -/
def JobKind.carded : JobKind → Bool
  | .tmma | .tcvt | .tcopy => true
  | _ => false

/-- The card of a job shows its state, and its resume state where the engine writes it (R209). -/
def showJob (mem : Memory) (clu : Nat) (j : Job) (resume : Bool) : Memory :=
  if j.kind.carded then
    let k := padKey clu j.card
    let mem := writeBytes mem (k + 96) (natBytes 8 (jobWord j))
    if resume then writeBytes mem (k + 104) (natBytes 24 (jobResume j)) else mem
  else mem

/-- A field of a job's card (R197). -/
def Job.f (j : Job) (lo n : Nat) : Nat := bitField j.image.toNat lo n
def Job.fmtA (j : Job) : Tag := j.f 16 5
def Job.fmtB (j : Job) : Tag := j.f 21 5
def Job.fmtC (j : Job) : Tag := j.f 26 5
def Job.dim (j : Job) (k : Nat) : Nat := j.f (32 + 16 * k) 16
def Job.addrA (j : Job) : Nat := j.f 128 64
def Job.addrB (j : Job) : Nat := j.f 192 64
def Job.addrC (j : Job) : Nat := j.f 256 64
def Job.scale (j : Job) : Nat := j.f 384 64
def Job.sigma (j : Job) : Nat := j.f 448 64
/-- The pitches; a TCOPY pitch of 0 means dim0 (R217). -/
def Job.pitch (j : Job) (lo : Nat) : Nat := if j.kind = .tcopy ∧ j.f lo 16 = 0 then j.dim 0 else j.f lo 16
def Job.pitchA (j : Job) : Nat := j.pitch 320
def Job.pitchB (j : Job) : Nat := j.pitch 336
def Job.pitchC (j : Job) : Nat := j.pitch 352
/-- The formats' settings; no engine flushes (R207). -/
def Job.settings (j : Job) : Settings :=
  { prec := j.f 96 3, pinf := j.f 99 1 == 1, qinf := j.f 100 1 == 1, novf := j.f 101 1 == 1, flush := false }
def Job.hen (j : Job) : Bool := j.f 11 1 == 1
/-- The address of the card, as its instruction gave it (R210, R211). -/
def Job.cardVa (j : Job) : Nat := j.cardAt
/-- K of a TMMA, and the kept positions (R213). -/
def Job.kDim (j : Job) : Nat := j.dim 2
def Job.keep (j : Job) (k : Nat) : Bool := match j.mask with
  | some m => m.getLsbD k
  | none => true
def Job.kept (j : Job) : List Nat := (span 0 j.kDim).filter j.keep
/-- Rows and columns of a TCVT, zero taking the tile sizes of the issuer's vtype, as acceptance resolved them (R208). -/
def Job.rows (j : Job) : Nat := j.mDim
def Job.cols (j : Job) : Nat := j.nDim

/-- The extra ranges of a card (R197): base, length and direction. -/
def Job.extra (j : Job) : List (Nat × Nat × Bool) :=
  let hi := j.f 368 16 * 2 ^ 32
  ([(hi + j.f 512 32, j.f 544 32, j.f 576 1 == 1), (hi + j.f 640 32, j.f 672 32, j.f 704 1 == 1)]).filter
    (fun r => r.2.1 != 0)

/-- Bytes of n elements of a width (R44). -/
def rowBytes (w n : Nat) : Nat := (n * w + 7) / 8

/-- The hull of rows, in die-wide form (R199). -/
def rowsHull (clu va rows pitch bytes : Nat) : List Range :=
  if rows = 0 ∨ bytes = 0 then []
  else [{ lo := dieForm clu va, hi := dieForm clu va + (rows - 1) * pitch + bytes - 1 }]

/-- The bytes of a TCVT's scales (R216). -/
def Job.scaleBytes (j : Job) : Nat := match j.kind with
  | .tmma => (j.mDim + j.nDim) * (j.kDim / 32)
  | _ => j.rows * ((j.cols + 31) / 32)

/-- Whether a TCVT quantises (R216). -/
def Job.quantises (j : Job) : Bool := isBlockElem j.fmtC

/-- The bytes of the smoothing vector (R208, R215). -/
def Job.sigmaBytes (j : Job) : Nat := if j.kind = .tmma then 4 * j.kDim else 4 * j.cols

/-- The read and the write set of a card (R199, R215). -/
def Job.readSet (j : Job) (clu : Nat) : List Range :=
  let extra := (j.extra.filter (fun r => !r.2.2)).flatMap (fun r => rowsHull clu r.1 1 0 r.2.1)
  let sg := if j.sigma = 0 then [] else rowsHull clu j.sigma 1 0 j.sigmaBytes
  let sc := if j.scale = 0 then [] else rowsHull clu j.scale 1 0 j.scaleBytes
  extra ++ match j.kind with
    | .tmma =>
      rowsHull clu j.addrA j.mDim j.pitchA (rowBytes (tagWidth j.fmtA) j.kept.length) ++
      rowsHull clu j.addrB j.kDim j.pitchB (rowBytes (tagWidth j.fmtB) j.nDim) ++
      rowsHull clu j.addrC j.mDim j.pitchC (4 * j.nDim) ++ sc ++ sg
    | .tcvt =>
      rowsHull clu j.addrA j.rows j.pitchA (rowBytes (tagWidth j.fmtA) j.cols) ++ sg ++
      (if j.quantises then [] else sc)
    | _ => rowsHull clu j.addrA (j.dim 1) j.pitchA (j.dim 0)

def Job.writeSet (j : Job) (clu : Nat) : List Range :=
  let extra := (j.extra.filter (fun r => r.2.2)).flatMap (fun r => rowsHull clu r.1 1 0 r.2.1)
  let card := rowsHull clu j.cardVa 1 0 128
  extra ++ card ++ match j.kind with
    | .tmma => rowsHull clu j.addrC j.mDim j.pitchC (4 * j.nDim)
    | .tcvt => rowsHull clu j.addrC j.rows j.pitchC (rowBytes (tagWidth j.fmtC) j.cols) ++
      (if j.scale ≠ 0 ∧ j.quantises then rowsHull clu j.scale 1 0 j.scaleBytes else [])
    | _ => rowsHull clu j.addrC (j.dim 1) j.pitchC (j.dim 0)

/-- Two sets of ranges overlap (R199). -/
def overlaps (a b : List Range) : Bool := a.any (fun r => b.any (fun q => r.meets q.lo q.hi))

/-- A job that the cluster has accepted and that has not retired; one that is saved with its launch, which state 3 says, is accepted
again when the launch goes on (R200, R212). -/
def Job.live (j : Job) : Bool := j.state < 3

/-- An edge that makes a later job wait for an earlier one (R200). -/
def jobBefore (e j : Job) : Bool :=
  e.live &&
  (overlaps e.writes j.reads || overlaps e.reads j.writes || overlaps e.writes j.writes)

/-! Acceptance -/

/-- The operand format of A or B and whether its side of dim3 is legal (R205, R213). -/
def operandFmt (stored op : Nat) (cv : Bool) : Option Tag :=
  if cv then
    (if stored = tF16 ∨ stored = tB16 ∨ stored = tF32 then
      (if op = tF16 ∨ op = tB16 ∨ op = tX8 ∨ op = tY8 ∨ op = tE4 ∨ op = tP8 ∨ op = tQ8 then some op else none)
    else none)
  else if op = 0 then some stored else none

def Job.opA (j : Job) : Option Tag := operandFmt j.fmtA (bitField (j.dim 3) 0 5) ((j.dim 3).testBit 5)
def Job.opB (j : Job) : Option Tag := operandFmt j.fmtB (bitField (j.dim 3) 6 5) ((j.dim 3).testBit 11)

/-- The pairs that the array combines and the accumulators they may take (R205, R206). -/
def pairOk (a b c scale : Nat) : Bool :=
  let small (t : Nat) : Bool := t == tX8 || t == tY8 || t == tE4 || t == tP8 || t == tQ8
  let half (t : Nat) : Bool := t == tF16 || t == tB16
  let byte (t : Nat) : Bool := t == 0 || t == 1
  let mx (t : Nat) : Bool := t == tX8 || t == tY8 || t == tE4 || t == 0
  let acc := if byte a && byte b then (if scale = 0 then c == 4 else c == tF32) else c == tF32
  ((small a && small b) || (byte a && byte b) || (half a && (half b || small b)) || (half b && small a)) && acc &&
    (scale == 0 || (mx a && mx b))

/-- The last byte of n bytes from an address lies in the own scratchpad, as the first does (R208). -/
def inOwnPad (s : State) (a : Agent) (va : Nat) : Bool := match locate s a va with
  | .pad clu _ => clu == a.clu
  | _ => false

/-- The agent of an engine that runs a job (R324). -/
def Job.agent (j : Job) (clu : Nat) : Agent :=
  { die := dieOfClu clu, clu := clu, core := none, asid := j.asid, part := j.part, secure := j.secure, hyper := j.hyper,
    wide := true, ctx := match j.issuer with | some c => c % 4096 | none => clu * 16, launch := j.launch }

/-- The zero fields of a card, those of its status word among them, are zero (R197). -/
def cardZeros (w : Nat) : Bool :=
  [(15, 1), (31, 1), (102, 26), (577, 63), (705, 63), (771, 5), (789, 11)].all (fun f => bitField w f.1 f.2 == 0)

/-- The addresses and pitches of TMMA and TCVT: multiples of 32 in the own scratchpad (R208). -/
def padOk (s : State) (a : Agent) (va : Nat) : Bool := va % 32 == 0 && inOwnPad s a va

/-- The operation's own limits (R205, R206, R208, R213–R217, R220). -/
def Job.limits (s : State) (clu : Nat) (j : Job) : Bool :=
  let a := j.agent clu
  let optional (va : Nat) : Bool := va == 0 || padOk s a va
  let pitches := j.pitchA % 32 == 0 && j.pitchB % 32 == 0 && j.pitchC % 32 == 0
  match j.kind with
  | .tmma =>
    let size (n : Nat) : Bool := n == 32 || n == 64 || n == 128 || n == 256
    j.f 96 3 != 0 && size j.mDim && size j.nDim && j.kDim % 32 == 0 && 32 ≤ j.kDim && j.kDim ≤ 8192 &&
    j.dim 3 < 2 ^ 12 &&
    (match j.opA, j.opB with
      | some x, some y => pairOk x y j.fmtC j.scale
      | _, _ => false) &&
    padOk s a j.addrA && padOk s a j.addrB && padOk s a j.addrC && optional j.scale && optional j.sigma && pitches &&
    rowBytes (tagWidth j.fmtA) j.kept.length ≤ j.pitchA && rowBytes (tagWidth j.fmtB) j.nDim ≤ j.pitchB &&
    4 * j.nDim ≤ j.pitchC && j.f 8 3 ≤ 7 &&
    (j.mask.isNone || (j.f 576 1 == 1 && (j.kDim + 7) / 8 ≤ j.f 544 32)) && !(j.hen && j.fmtC == 4)
  | .tcvt =>
    let mode := if j.scale = 0 then okCvt j.fmtC j.fmtA 0 && j.fmtA != tM64 && j.fmtC != tM64
      else (isWideFloat j.fmtA && isBlockElem j.fmtC) || (isBlockElem j.fmtA && isWideFloat j.fmtC)
    j.f 96 3 != 0 && j.rows != 0 && j.cols != 0 && j.dim 2 == 0 && j.dim 3 == 0 && j.fmtB == 0 && mode &&
    j.addrB == 0 && j.f 336 16 == 0 && padOk s a j.addrA && padOk s a j.addrC && optional j.scale && optional j.sigma &&
    j.pitchA % 32 == 0 && j.pitchC % 32 == 0 &&
    rowBytes (tagWidth j.fmtA) j.cols ≤ j.pitchA && rowBytes (tagWidth j.fmtC) j.cols ≤ j.pitchC &&
    !(j.hen && !isFloat j.fmtA && j.fmtA != tK8)
  | _ =>
    j.f 8 7 == 0 && j.fmtA == 0 && j.fmtB == 0 && j.fmtC == 0 && j.f 96 6 == 0 && j.dim 0 != 0 && j.dim 1 != 0 &&
    j.dim 2 == 0 && j.dim 3 == 0 && j.addrB == 0 && j.f 336 16 == 0 && j.scale == 0 && j.sigma == 0 &&
    !overlaps j.reads j.writes

def JobKind.op : JobKind → Nat
  | .tmma => 1
  | .tcvt => 2
  | .tcopy => 3
  | _ => 0

/-- A tile dimension: the card's, or that of a code of vtype (R208). -/
def tileDim (card code : Nat) : Nat := if card = 0 then 32 * 2 ^ code else card

/-- The job of a card, with its dimensions, rounding mode and footprint resolved (R199, R208, R211). -/
def Job.resolve (j : Job) (clu : Nat) (vt : BitVec 17) (frm : Nat) : Job :=
  let j := { j with
    mDim := match j.kind with | .tmma => tileDim (j.dim 0) (vt.toNat / 2 ^ 13 % 4) | _ => j.dim 0
    nDim := match j.kind with | .tmma => tileDim (j.dim 1) (vt.toNat / 2 ^ 15 % 4) | _ => j.dim 1
    rm := if j.f 8 3 = 7 ∧ j.kind ≠ JobKind.tcopy then frm else j.f 8 3
    image := BitVec.ofNat 1024 (j.image.toNat % 2 ^ 768) }
  { j with reads := j.readSet clu, writes := j.writeSet clu }

/-! Running -/

/-- An access of an engine that does not perform: its code and address. -/
abbrev EngineFault := Nat × Nat

/-- The pieces of a run of bytes that no boundary of 4,096 divides. -/
def pieces (va : Nat) : Nat → Nat → List (Nat × Nat)
  | 0, _ => []
  | fuel + 1, n =>
    let k := min n (4096 - va % 4096)
    if n = 0 then [] else (va, k) :: pieces (va + k) fuel (n - k)

/-- The first sector of n bytes of a place on whose data an engine cannot use (R211, R339). -/
def badSector (s : State) (p : Place) (va n : Nat) : Option EngineFault :=
  let bad (k : Nat) (f : Option SectorFinding) : Option EngineFault :=
    if sectorOf p.key ≤ k && k < p.key + n then
      (match f with
        | some .uncorrectable => some (cMemue, va + (k - p.key))
        | some .tagFails => if p.raw then none else some (cIntegrity, va + (k - p.key))
        | _ => none)
    else none
  match firstSome s.pkg.sectors (fun e => bad e.1 (some e.2)) with
  | some f => some f
  | none => firstSome s.pkg.seals (fun e => bad e.1 (findingAt s.pkg e.1))

/-- Bytes lie inside a footprint (R201). -/
def inside (clu : Nat) (sets : List Range) (va n : Nat) : Bool :=
  sets.any (fun r => r.lo ≤ dieForm clu va && dieForm clu va + n ≤ r.hi + 1)

/-- What keeps an engine from an access: a byte outside the footprint, a condition of R139, or poisoned data (R201,
R211). -/
def engineStop (s : State) (a : Agent) (sets : List Range) (acc : Acc) (va n : Nat) : Option EngineFault :=
  if !inside a.clu sets va n then some (cFootprint, va)
  else firstSome (pieces va (n / 4096 + 2) n) (fun e => match decide s a acc e.1 with
    | .error d => some (d.code, e.1)
    | .ok p => if acc = .load then badSector s p e.1 e.2 else none)

/-- The first stop of a list of accesses. -/
def engineStops (s : State) (a : Agent) (sets : List Range) (acc : Acc) : List (Nat × Nat) → Option EngineFault
  | [] => none
  | (va, n) :: r => match engineStop s a sets acc va n with
    | some f => some f
    | none => engineStops s a sets acc r

/-- Rows of an operand as accesses. -/
def rowList (va rows pitch bytes : Nat) : List (Nat × Nat) := (span 0 rows).map (fun r => (va + r * pitch, bytes))

/-- The number in n bytes at an address that an engine may access. -/
def engineNat (s : State) (a : Agent) (va n : Nat) : Nat := match decide s a .load va with
  | .ok p => readNat s.mem p.key n
  | .error _ => 0

/-- The bits of n elements of a row (R44). -/
def rowElems (s : State) (a : Agent) (va w n : Nat) : List Nat :=
  let b := engineNat s a va (rowBytes w n)
  (span 0 n).map (fun i => bitField b (i * w) w)

/-- The number that the elements of a row make. -/
def packElems (w : Nat) : List Nat → Nat
  | [] => 0
  | b :: r => b % 2 ^ w + 2 ^ w * packElems w r

/-- A row stored. -/
def storeRow (s : State) (a : Agent) (va w : Nat) (es : List Nat) : State := match decide s a .store va with
  | .ok p => storeAt s a va p (natBytes (rowBytes w es.length) (packElems w es))
  | .error _ => s

/-- An MX scale as a value, none when it fails its check (R58, R59). -/
def scaleAt (s : State) (a : Agent) (va : Nat) : Option Val :=
  match decide s a .load va with
  | .ok p => if s.pkg.badScales.contains p.key then none else some (valOf (settingsOf 0) tK8 (readByte s.mem p.key).toNat)
  | .error _ => some (.nan false)

/-- The value of a scale whose check failed in a float block (R59). -/
def scaleVal? : Option Val → Val
  | some v => v
  | none => .nan false

/-- An element converted to its operand format, and the flags of the conversion (R213): division or multiplication by
σ is exact. -/
def operandVal (st : Settings) (stored op : Tag) (conv : Bool) (b : Nat) (sg : Option Val) (up : Bool) : Val × Flags :=
  let v := valOf st stored b
  if conv then
    let w := match sg with
      | none => (v, (0 : Flags))
      | some k => if up then mulVal v k else divVal v k
    let r := convertBits st op 0 0 false w.1
    (valOf st op r.1, w.2 ||| r.2)
  else if op = 0 ∧ sg.isNone then (v, 0) else (v, 0)

/-- The exact sum of a block's products (R70): a NaN, an infinity, or a fraction whose zero is negative only when every
product is −0. -/
def blockSum : List Val → Val
  | [] => .fin true 0 1
  | v :: r => match v, blockSum r with
    | .nan _, _ => .nan false
    | _, .nan _ => .nan false
    | .inf p, .inf q => if p = q then .inf p else .nan false
    | .inf p, _ => .inf p
    | _, .inf q => .inf q
    | .fin p n d, .fin q m e => if n = 0 ∧ m = 0 then .fin (p && q) 0 1 else (addVal 0 (.fin p n d) (.fin q m e)).1

/-- The value of a block whose products are listed; with none the sum is +0 (R214). -/
def blockOf (ps : List Val) : Val × Flags := match ps with
  | [] => (.fin false 0 1, 0)
  | _ => match blockSum ps with
    | .nan _ => (.nan false, fNV)
    | v => (v, 0)

/-- The position of k among the kept ones (R213). -/
def keptBefore (j : Job) (k : Nat) : Nat := ((span 0 k).filter j.keep).length

/-- One accumulation (R70, R207): into f32, or modulo 2^32. -/
def accumulate (j : Job) (m n blk acc : Nat) (ps : List Val) : Nat × Flags :=
  if j.fmtC = 4 then
    (wrap 32 ((acc : Int) + (ps.map valInt).foldl (· + ·) 0), 0)
  else
    let b := blockOf ps
    let t := addVal j.rm (valOf j.settings tF32 acc) b.1
    let sr := if j.rm = 6 then
        philox j.srkey.toNat (m % 2 ^ 32 + n % 2 ^ 32 * 2 ^ 32) (j.cardVa / 4 % 2 ^ 32) ((j.srep.toNat + blk) % 2 ^ 32)
      else 0
    let r := roundFloat j.settings tF32 j.rm false sr t.1
    (r.1, b.2 ||| t.2 ||| r.2)

/-- What a TMMA has read: rows of A over kept positions, rows of B, the scales by row and block and by block and
column. -/
structure Tile where
  a  : List (List Val)
  b  : List (List Val)
  sa : List (List (Option Val))
  sb : List (List (Option Val))
  fl : Flags

/-- σ of position k (R208). -/
def sigmaAt (s : State) (a : Agent) (j : Job) (k : Nat) : Option Val :=
  if j.sigma = 0 then none else some (valOf j.settings tF32 (engineNat s a (j.sigma + 4 * k) 4))

/-- The operands of a TMMA; scales are taken as 1 where there are none (R206). -/
def tileOf (s : State) (a : Agent) (j : Job) : Tile :=
  let ta := j.opA.getD 0
  let tb := j.opB.getD 0
  let kb := j.kDim / 32
  let ra := (span 0 j.mDim).map (fun m =>
    (List.zip j.kept (rowElems s a (j.addrA + m * j.pitchA) (tagWidth j.fmtA) j.kept.length)).map (fun e =>
      operandVal j.settings j.fmtA ta ((j.dim 3).testBit 5) e.2 (sigmaAt s a j e.1) false))
  let rb := (span 0 j.kDim).map (fun k =>
    if j.keep k then
      (rowElems s a (j.addrB + k * j.pitchB) (tagWidth j.fmtB) j.nDim).map (fun e =>
        operandVal j.settings j.fmtB tb ((j.dim 3).testBit 11) e (sigmaAt s a j k) true)
    else [])
  let one : Option Val := some (.fin false 1 1)
  { a := ra.map (fun r => r.map Prod.fst), b := rb.map (fun r => r.map Prod.fst)
    sa := (span 0 j.mDim).map (fun m => (span 0 kb).map (fun k =>
      if j.scale = 0 then one else scaleAt s a (j.scale + m * kb + k)))
    sb := (span 0 kb).map (fun k => (span 0 j.nDim).map (fun n =>
      if j.scale = 0 then one else scaleAt s a (j.scale + j.mDim * kb + k * j.nDim + n)))
    fl := orFlags ((ra ++ rb).map (fun r => orFlags (r.map Prod.snd))) }

/-- An element as the array multiplies it: under a scale an i8 element stands for its integer × 2^−6 (R58, R206). -/
def mxVal (scaled int : Bool) (v : Val) : Val := if scaled && int then scaleVal 121 false v else v

/-- The products of a block for one output (R70, R213). -/
def products (j : Job) (t : Tile) (m n blk : Nat) : List Val :=
  let scaled := j.scale != 0
  let ks := (span (32 * blk) 32).filter j.keep
  let ka := keptBefore j (32 * blk)
  let sa := scaleVal? ((t.sa.getD m []).getD blk none)
  let sb := scaleVal? ((t.sb.getD blk []).getD n none)
  let row := ((t.a.getD m []).drop ka).take ks.length
  (List.zip ks row).map (fun e =>
    let av := mxVal scaled (j.opA == some 0) e.2
    let bv := mxVal scaled (j.opB == some 0) ((t.b.getD e.1 []).getD n (.fin false 0 1))
    (mulVal (mulVal av sa).1 (mulVal bv sb).1).1) ++
  (if ks.length < 32 ∧ ks ≠ [] then [.fin false 0 1] else [])

/-- One output over the blocks from one on (R213). -/
def outputOver (j : Job) (t : Tile) (m n : Nat) : List Nat → Nat → Nat × Flags
  | [], acc => (acc, 0)
  | blk :: r, acc =>
    let a := accumulate j m n blk acc (products j t m n blk)
    let b := outputOver j t m n r a.1
    (b.1, a.2 ||| b.2)

/-- The histogram of a cluster with values counted into a bank (R72, R220). -/
def countInto (h : SMap (BitVec 32)) (bank : Nat) (st : Settings) (t : Tag) (bs : List Nat) : SMap (BitVec 32) :=
  (bs.flatMap (histCounters st t)).foldl (fun h k => bumpHist h (68 * bank + k)) h

def countClu (s : State) (clu : Nat) (j : Job) (t : Tag) (bs : List Nat) : State :=
  if j.hen then onClu s clu (fun x => { x with hist := countInto x.hist (j.f 12 3) j.settings t bs }) else s

/-- The scales of a list of addresses that fail their check (R59). -/
def badScalesOf (s : State) (a : Agent) (vas : List Nat) : List Nat := vas.filter (fun va => (scaleAt s a va).isNone)

/-- The records of failed scales, block by block. -/
def recordScales (s : State) (a : Agent) (base : Nat) (vas : List Nat) : State :=
  vas.foldl (fun s va => match decide s a .load va with
    | .ok p => recordScale s a va (va - base) p
    | .error _ => s) s

/-- The rows of C stored in ascending order (R213). -/
def storeRows (s : State) (a : Agent) (j : Job) (w : Nat) : Nat → List (List Nat) → State
  | _, [] => s
  | m, r :: rest => storeRows (storeRow s a (j.addrC + m * j.pitchC) w r) a j w (m + 1) rest

/-- How a run of an engine ends: its work is done; it waits for an access; or an access has stopped it. -/
inductive RunEnd where
  | done
  | wait
  | fault (f : EngineFault)
  deriving DecidableEq, Repr

/-- A TMMA over `units` K-blocks from done on (R212, R213): the state with C written and the job after it, or what
stopped it. -/
def runTmma (s : State) (clu : Nat) (j : Job) (units : Nat) : State × Job × RunEnd :=
  let a := j.agent clu
  let kb := j.kDim / 32
  let scales := if j.scale = 0 then [] else rowList j.scale 1 0 j.scaleBytes
  let sg := if j.sigma = 0 then [] else rowList j.sigma 1 0 j.sigmaBytes
  let reads := rowList j.addrA j.mDim j.pitchA (rowBytes (tagWidth j.fmtA) j.kept.length) ++
    ((span 0 j.kDim).filter j.keep).map (fun k => (j.addrB + k * j.pitchB, rowBytes (tagWidth j.fmtB) j.nDim)) ++
    rowList j.addrC j.mDim j.pitchC (4 * j.nDim) ++ scales ++ sg
  match engineStops s a j.reads .load (reads.filter (fun e => e.2 != 0)),
        engineStops s a j.writes .store (rowList j.addrC j.mDim j.pitchC (4 * j.nDim)) with
  | some f, _ => (s, j, .fault f)
  | none, some f => (s, j, .fault f)
  | none, none =>
    let bad := badScalesOf s a (if j.scale = 0 then [] else span j.scale j.scaleBytes)
    let s := recordScales s a j.scale bad
    let int := bad.find? (fun va =>
      if va < j.scale + j.mDim * kb then j.opA == some 0 else j.opB == some 0)
    match int with
    | some va => (s, j, .fault (cMemue, va))
    | none =>
      let t := tileOf s a j
      let blks := span j.done (min units (kb - j.done))
      let outs := (span 0 j.mDim).map (fun m =>
        (List.zip (span 0 j.nDim) (rowElems s a (j.addrC + m * j.pitchC) 32 j.nDim)).map (fun e =>
          outputOver j t m e.1 blks e.2))
      let rows := outs.map (fun r => r.map Prod.fst)
      let fl := orFlags (outs.map (fun r => orFlags (r.map Prod.snd)))
      let j := { j with done := j.done + blks.length, flags := j.flags ||| fl ||| t.fl }
      let s := storeRows s a j 32 0 rows
      let s := if j.done = kb then countClu s clu j tF32 rows.flatten else s
      (s, j, .done)

/-- An element of a TCVT row, divided by its column's σ (R216). -/
def tcvtVal (s : State) (a : Agent) (j : Job) (c b : Nat) : Val × Flags :=
  let v := valOf j.settings j.fmtA b
  match sigmaAt s a j c with
  | none => (v, 0)
  | some k => divVal v k

/-- A row of a TCVT: the converted elements with flags, and the scales it generates (R216). -/
def tcvtRow (s : State) (a : Agent) (j : Job) (r : Nat) : List (Nat × Flags) × List Nat :=
  let bits := rowElems s a (j.addrA + r * j.pitchA) (tagWidth j.fmtA) j.cols
  let vals := (List.zip (span 0 j.cols) bits).map (fun e => tcvtVal s a j e.1 e.2)
  let blocks := (j.cols + 31) / 32
  let sr (c : Nat) : Nat := if j.rm = 6 then
      philox j.srkey.toNat (r % 2 ^ 32 + c % 2 ^ 32 * 2 ^ 32) (j.cardVa / 4 % 2 ^ 32) (j.srep.toNat % 2 ^ 32)
    else 0
  if j.scale = 0 then
    ((List.zip (span 0 j.cols) vals).map (fun e =>
      let t := if isInt j.fmtA && isInt j.fmtC && j.sigma == 0 then (wrapInt j.fmtC (valInt e.2.1), (0 : Flags))
        else convertBits j.settings j.fmtC j.rm (sr e.1) false e.2.1
      (t.1, e.2.2 ||| t.2)), [])
  else if j.quantises then
    let code : BitVec 6 := BitVec.ofNat 6 j.fmtC
    let scs := (span 0 blocks).map (fun b => blockScale code (((vals.map Prod.fst).drop (32 * b)).take 32))
    ((List.zip (span 0 j.cols) vals).map (fun e =>
      let t := blockBits j.settings j.fmtC j.rm (sr e.1) (scs.getD (e.1 / 32) 0) j.fmtA e.2.1
      (t.1, e.2.2 ||| t.2)), scs)
  else
    let scs := (span 0 blocks).map (fun b => match scaleAt s a (j.scale + r * blocks + b) with
      | some _ => engineNat s a (j.scale + r * blocks + b) 1
      | none => 0xFF)
    ((List.zip (span 0 j.cols) vals).map (fun e =>
      let t := blockBits j.settings j.fmtC j.rm (sr e.1) (scs.getD (e.1 / 32) 0) j.fmtA e.2.1
      (t.1, e.2.2 ||| t.2)), [])

/-- Rows of a TCVT from one on (R216); the rows before one that an access stops stay written (R201). -/
def tcvtRows (s : State) (clu : Nat) (j : Job) : Nat → State × Job × RunEnd
  | 0 => (s, j, .done)
  | n + 1 =>
    if j.rows ≤ j.done then (s, j, .done)
    else
      let a := j.agent clu
      let r := j.done
      let blocks := (j.cols + 31) / 32
      let src := (j.addrA + r * j.pitchA, rowBytes (tagWidth j.fmtA) j.cols)
      let dst := (j.addrC + r * j.pitchC, rowBytes (tagWidth j.fmtC) j.cols)
      let sc := if j.scale = 0 then [] else [(j.scale + r * blocks, blocks)]
      let sg := if j.sigma = 0 then [] else [(j.sigma, j.sigmaBytes)]
      match engineStops s a j.reads .load (src :: sg ++ (if j.quantises then [] else sc)),
            engineStops s a j.writes .store (dst :: (if j.quantises then sc else [])) with
      | some f, _ => (s, j, .fault f)
      | none, some f => (s, j, .fault f)
      | none, none =>
        let bad := if j.scale = 0 ∨ j.quantises then [] else badScalesOf s a (span (j.scale + r * blocks) blocks)
        let s := recordScales s a j.scale bad
        match bad, j.fmtA == 0 with
        | va :: _, true => (s, j, .fault (cMemue, va))
        | _, _ =>
          let src := rowElems s a (j.addrA + r * j.pitchA) (tagWidth j.fmtA) j.cols
          let t := tcvtRow s a j r
          let s := countClu s clu j j.fmtA src
          let s := storeRow s a (j.addrC + r * j.pitchC) (tagWidth j.fmtC) (t.1.map Prod.fst)
          let s := if t.2.isEmpty then s else storeRow s a (j.scale + r * blocks) 8 t.2
          tcvtRows s clu { j with done := r + 1, flags := j.flags ||| orFlags (t.1.map Prod.snd) } n

/-- What one byte of a TCOPY meets: its place, the load-store domain, a page to wait for, or what stops it; a violation of
worlds is logged (R201, R321, R324, R361). -/
inductive ByteAt where
  | at_ (p : Place)
  | away
  | wait
  | bad (s : State) (f : EngineFault)

/-- The byte of an engine's access at an address (R201, R321, R340). -/
def byteAt (s : State) (a : Agent) (sets : List Range) (acc : Acc) (va : Nat) : ByteAt :=
  if !inside a.clu sets va 1 then .bad s (cFootprint, va)
  else match locate s a va with
    | .domain => if domainOpen s a.part va then .away else .bad s (cAccess, va)
    | _ => match decide s a acc va with
      | .error d => .bad (noteDenial s a d) (d.code, va)
      | .ok p =>
        if pageBusy s p then .wait
        else match (if acc = .load then badSector s p va 1 else none) with
          | some f => .bad (recordSector s a va p (if f.1 = cMemue then .uncorrectable else .tagFails)) f
          | none => .at_ p

/-- What the domain has answered, as the code of an engine's fault (R139, R361–R363). -/
def domainCode : DomainResult → Nat
  | .vpage => cVpage
  | .access => cAccess
  | _ => cMemue

/-- A byte of a TCOPY that a request in the domain moves: it is sent, and its answer is awaited (R321, R361). -/
def askByte (s : State) (clu : Nat) (j : Job) (va : Nat) (kind : DomainKind) : State × Job :=
  match j.domWait with
  | some _ => (s, { j with stalled := true })
  | none =>
    let r := sendRequest s (j.agent clu).ctx j.part j.launch va 1 false 0 kind (some (clu, j.id)) .scalar false
    (r.1, { j with stalled := true, domWait := some r.2 })

/-- A byte stored by a TCOPY where it goes: false while it waits for the domain. -/
def putByte (s : State) (clu : Nat) (j : Job) (dst : Nat) (to_ : ByteAt) (b : Byte) : State × Job × Option RunEnd :=
  match to_ with
  | .at_ q => (storeAt s (j.agent clu) dst q [b], { j with done := j.done + 1 }, none)
  | _ =>
    let r := askByte s clu j dst (.store [b])
    (r.1, r.2, some .wait)

/-- Bytes of a TCOPY from `done` on, one by one in ascending order (R217). -/
def copyBytes (s : State) (clu : Nat) (j : Job) : Nat → State × Job × RunEnd
  | 0 => (s, j, .done)
  | n + 1 =>
    let a := j.agent clu
    let row := j.done / j.dim 0
    let col := j.done % j.dim 0
    if j.dim 1 ≤ row then (s, j, .done)
    else
      let src := j.addrA + row * j.pitchA + col
      let dst := j.addrC + row * j.pitchC + col
      match byteAt s a j.reads .load src, byteAt s a j.writes .store dst with
      | .bad s f, _ => (s, j, .fault f)
      | _, .bad s f => (s, j, .fault f)
      | .wait, _ | _, .wait => (s, { j with stalled := true }, .wait)
      | from_, to_ =>
        let k := { j with stalled := false, domGot := none }
        match j.domGot with
        | some (.load, .data bs) => match putByte s clu k dst to_ (bs.headD 0) with
          | (s, k, none) => copyBytes s clu k n
          | (s, k, some e) => (s, k, e)
        | some (.store _, .done) => copyBytes s clu { k with done := k.done + 1 } n
        | some (kind, res) => (s, k, .fault (domainCode res, if kind = .load then src else dst))
        | none => match from_ with
          | .at_ p => match putByte (charge s a p 1) clu k dst to_ ((placeBytes s p 1).headD 0) with
            | (s, k, none) => copyBytes s clu k n
            | (s, k, some e) => (s, k, e)
          | _ =>
            let r := askByte s clu k src .load
            (r.1, r.2, .wait)

/-! CARITH items -/

/-- q of every ciphertext (R222). -/
def qMod : Nat := 0xFFFFFFFF00000001

/-- Δ(p) (R224). -/
def delta (p : Nat) : Nat := qMod / 2 ^ (p + 1)

/-- Words of a batch, reduced modulo q as they are read (R222). -/
def batchWords (s : State) (clu : Nat) (d : BitVec 256) : List Nat :=
  (span 0 (descBytes d / 8)).map (fun k => readNat s.mem (descKeyAt clu d + 8 * k) 8 % qMod)

/-- A coefficient of the result of a CARITH form from those of ca, cb and cd; `body` says that it is the body (R230). -/
def carithOf (fn : Nat) (imm : Int) (p : Nat) (body : Bool) (a b d : Nat) : Nat :=
  let q : Int := qMod
  let z : Int := match fn with
    | 0 => a + b
    | 1 => a - b
    | 2 => -a
    | 3 => imm * a
    | 4 => if body then a + imm * delta p else a
    | 5 => a
    | _ => d + imm * a
  (z % q).toNat

/-- The first word of a batch whose row cannot be used (R211). -/
def badBatch (s : State) (clu : Nat) (d : BitVec 256) : Option EngineFault :=
  badSector s { key := descKeyAt clu d, pa := none, far := false, dev := false, nsp := false, raw := false } (descBase d) (descBytes d)

/-- Every coefficient of a CARITH's result: all of its source coefficients are read first (R230, R231). A batch starts with B
coefficients of index 0, so the body's are the last B. -/
def carithAll (s : State) (clu : Nat) (j : Job) (fn : Nat) (imm : Int) : List Nat :=
  let a := batchWords s clu j.batchA
  let b := if fn < 2 then batchWords s clu j.batchB else a
  let d := if fn = 6 then batchWords s clu j.batchD else a
  let n := (paramSet (descPset j.batchA)).n * descB j.batchA
  (List.zip (List.zip a b) (List.zip d (span 0 a.length))).map (fun e =>
    carithOf fn imm (descP j.batchA) (n ≤ e.2.2) e.1.1 e.1.2 e.2.1)

/-- The data work of a CARITH for n coefficient indices from `done` on; a stop at the end of an index leaves the others, as they
were computed from the sources, for later (R227, R231). -/
def runCarith (s : State) (clu : Nat) (j : Job) (fn : Nat) (imm : Int) (n : Nat) : State × Job × RunEnd :=
  match (if j.done = 0 then firstSome ([j.batchA] ++ (if fn < 2 then [j.batchB] else []) ++ (if fn = 6 then [j.batchD] else []))
      (badBatch s clu) else none) with
  | some f => (s, j, .fault f)
  | none =>
    let out := if j.done = 0 then carithAll s clu j fn imm else j.rest
    let b := descB j.batchA
    ({ s with mem := writeBytes s.mem (descKeyAt clu j.batchD + 8 * b * j.done) ((out.take (n * b)).flatMap (natBytes 8)) },
      { j with done := j.done + n, rest := out.drop (n * b) }, .done)

/-- The units of a job that stands at `done`: K-blocks, rows, bytes, or coefficient indices. -/
def Job.units (j : Job) : Nat := match j.kind with
  | .tmma => j.kDim / 32
  | .tcvt => j.rows
  | .carith _ _ => (paramSet (descPset j.batchA)).n + 1
  | _ => j.dim 0 * j.dim 1

/-- The bytes a TCOPY performs before it can stop: to the next 4 KiB of copied bytes or the end of a row (R217). -/
def Job.stopUnits (j : Job) : Nat := match j.kind with
  | .tcopy => min (4096 - j.done % 4096) (j.dim 0 - j.done % j.dim 0)
  | _ => 1

/-- A job performs some units of its work; none is left over for a fault but what it has performed (R211, R212). -/
def runJob (s : State) (clu : Nat) (j : Job) (n : Nat) : State × Job × RunEnd := match j.kind with
  | .carith fn imm => runCarith s clu j fn imm n
  | .tmma => runTmma s clu j n
  | .tcvt => tcvtRows s clu j n
  | .tcopy => copyBytes s clu j n
  | .crfn _ _ | .member _ => (s, j, .done)

/-- A running job performs what its stop still lets it: to the end of its K-block, row, coefficient index or 4 KiB of copy (R212,
R217, R227). -/
def stopRun (s : State) (clu : Nat) (j : Job) : State × Job × RunEnd := runJob s clu j (min j.stopUnits (j.units - j.done))

/-- The engine that runs a kind of job: the operation decides, for a staged input too, so that the tensor engine runs one of TMMA or
TCVT (R202, R204, R227; log 73). -/
def JobKind.engine : JobKind → Engine
  | .tmma | .tcvt => .tensor
  | .tcopy => .copy
  | _ => .sequencer

end Sys2Proof.Machine
end

