-- ==== Sys2Proof/Machine/Stops.lean ====
section
/-! DEFINITION. The stop of a launch (R273), the abort of a launch by hardware, the fence of a partition (R347, R348),
the coverage that views lose (R309, R317), and how jobs show their status (R197, R209, R212). -/

namespace Sys2Proof.Machine

/-- A job of a stopped launch: the running one stops at the end of its unit, as at a preemption, and then each takes state 6 on its
card; one that its last access stops ends in state 5, and one that has ended stays as it is (R212). -/
def cancelJob (s : State) (clu : Nat) (j : Job) : State :=
  if 4 ≤ j.state then s
  else
    let t := if j.state = 2 then stopRun s clu j else (s, j, .done)
    let k := match t.2.2 with
      | .fault f => { t.2.1 with state := 5, code := f.1, faddr := f.2 }
      | _ => { t.2.1 with state := 6 }
    { t.1 with mem := showJob t.1.mem clu k true }

/-- The jobs of a launch on a cluster stop, oldest first, and leave it (R212). -/
def cancelJobs (s : State) (clu launch : Nat) : State :=
  let s := ((cluAt s clu).jobs.filter (fun j => j.launch == launch)).foldl (fun s j => cancelJob s clu j) s
  onClu s clu (fun x => { x with jobs := x.jobs.filter (fun j => j.launch != launch) })

/-- A cluster after a launch of it has stopped: no job, pool or saved lap of the launch (R212, R262, R273). -/
def stopOnClu (s : State) (launch clu : Nat) : State :=
  let s := cancelJobs s clu launch
  let x := cluAt s clu
  let gone := x.saved.filter (fun v => (ctxAt s v.num).work.launch == launch)
  let s := { s with ctxs := gone.foldl (fun m v => remove m v.num) s.ctxs }
  setClu s clu
    { x with pools := x.pools.filter (fun p => p.launch != launch),
             saved := x.saved.filter (fun v => !gone.contains v) }

/-- The contexts of a launch are freed, their buffers and state discarded (R273). -/
def stopContexts (s : State) (die launch : Nat) : State :=
  (ctxsOfDie die).foldl (fun s c =>
    if (ctxAt s c).work.launch = launch ∧ (ctxAt s c).occ ≠ .free then freeCtx s c else s) s

/-- The four 16-bit slots of a header word (R264). -/
def slotsOf (w : Word) : List Nat := [field w 0 16, field w 16 16, field w 32 16, field w 48 16]

/-- Word k of a launch header, and of a leg entry. -/
def hw (h : List Word) (k : Nat) : Word := h.getD k 0

/-- The records a header names with valid slots: outputs, and inputs with their modes (R264). -/
def outRecords (h : List Word) : List Nat := ((slotsOf (hw h 25)).filter (fun v => v.testBit 14)).map (fun v => v % 4096)
def inRecords (h : List Word) : List (Nat × Nat) :=
  ((slotsOf (hw h 24)).filter (fun v => v.testBit 14)).map (fun v => (v % 4096, v / 4096 % 4))

/-- A publication record of a die. -/
def PubRec.free : PubRec :=
  { version := 0, state := 0, forced := false, stopreq := false, ended := false, slots := [], producer := 0,
    consumers := [], inputs := [] }
def recAt (d : Die) (r : Nat) : PubRec := get PubRec.free d.records r
def onRec (d : Die) (r : Nat) (f : PubRec → PubRec) : Die := { d with records := set PubRec.free d.records r (f (recAt d r)) }

/-- A stop of the producer settles its records at their latest versions; one that had settled stays as it is (R273,
R299). -/
def settleForced (d : Die) : List Nat → Die
  | [] => d
  | r :: rs => settleForced (onRec d r (fun p =>
      if p.state = 4 then p else { p with state := 4, forced := true, ended := true, stopreq := false })) rs

/-- The stop of a launch on every cluster with a completion status (R273, R274); its completion record is written by
LAUNCH_COMPLETE. A launch that has been stopped keeps its status. -/
def stopLaunch (s : State) (die id status : Nat) (hardware : Bool) : State :=
  match find? (dieAt s die).launches id with
  | none => s
  | some l =>
    if l.stopped.isSome then s
    else
      let s := stopContexts s die id
      let s := (clusOfDie die).foldl (fun s k => stopOnClu s id k) s
      let s := abortPasses s die id
      let s := onDie s die (fun d => settleForced d (outRecords l.header))
      onLaunch s die id (fun l =>
        { l with stopped := some status, killed := l.killed + (l.count - l.retired - l.lost), roundOn := false,
                 byHw := hardware })

/-- Whether views still touch a frame, or cells of it drain (R309). -/
def arenaLive (d : Die) (frame : Nat) : Bool :=
  d.views.any (fun e => e.2.frame == frame && e.2.lo < e.2.hi) || d.draining.any (fun e => e.1 == frame)

/-- The cells that a byte range of a frame touches. -/
def cellsOf (lo hi : Nat) : List Nat := if lo < hi then span (lo / 4096) ((hi - 1) / 4096 + 1 - lo / 4096) else []

/-- The record of an arena whose last cell has become free: once until a cell of it is covered again (R317). -/
def arenaEmpty (s : State) (frame : Nat) (part : BitVec 16) : State :=
  let o := ownerDie frame
  match find? (dieAt s o).covered frame with
  | none => s
  | some base =>
    if arenaLive (dieAt s o) frame then s
    else
      let s := record s o { kind := 0x0A, code := 0, rung := 0, part := part, ctx := o * 1024, info := 0, va := base.toNat,
                            pa := frame * 2 ^ 30 }
      onDie s o (fun d => { d with covered := remove d.covered frame })

/-- What the load streams of every context have read ahead is read again, where a cell has lost its coverage (R288). -/
def discardEverywhere (s : State) : State :=
  ((s.ctxs.filter (fun e => !e.2.streams.isEmpty)).map Prod.fst).foldl (fun s c => onCtx s c Ctx.discardLoads) s

/-- What follows when a range of a frame loses a view: entries that load streams have filled ahead are discarded, and cells left
uncovered drain when units defer their work, and are free at once otherwise (R288, R309, log 3). -/
def loseCoverage (s : State) (frame lo hi : Nat) (part : BitVec 16) : State :=
  let o := ownerDie frame
  let s := if (cellsOf lo hi).any (fun k => coverage s frame k == 0) then discardEverywhere s else s
  if s.defer then
    let gone := (cellsOf lo hi).filter (fun k => coverage s frame k == 0 && !(dieAt s o).draining.contains (frame, k))
    onDie s o (fun d => { d with draining := d.draining ++ gone.map (fun k => (frame, k)) })
  else arenaEmpty s frame part

/-- The views of a partition on a die end (R348). -/
def endViews (s : State) (die : Nat) (part : BitVec 16) : State :=
  ((dieAt s die).views.filter (fun e => e.2.part == part)).foldl (fun s e =>
    loseCoverage (onDie s die (fun d => { d with views := remove d.views e.1 })) e.2.frame e.2.lo e.2.hi part) s

/-- The launches of a partition on a die that are still to be stopped. -/
def livePart (d : Die) (part : BitVec 16) : List Nat :=
  (d.launches.filter (fun e => e.2.part == part && e.2.stopped.isNone)).map Prod.fst

/-- A partition fence on one die: launches stop with status 7, contexts are discarded, views end, clusters are
withheld (R348). -/
def fenceDie (s : State) (die : Nat) (part : BitVec 16) : State :=
  let s := (livePart (dieAt s die) part).foldl (fun s id => stopLaunch s die id 7 false) s
  let s := (ctxsOfDie die).foldl (fun s c =>
    if (ctxAt s c).partid = part ∧ (ctxAt s c).occ ≠ .free then freeCtx s c else s) s
  let s := endViews s die part
  (clusOfDie die).foldl (fun s k => if (cluAt s k).part = part then onClu s k (fun x => { x with fenced := true }) else s) s

/-- A partition fence in the whole package with its record, which names the kind that caused it (R344, R347, R348). -/
def fencePartition (s : State) (die ctx : Nat) (part : BitVec 16) (cause : Nat) : State :=
  let s := record s die { kind := 0x07, code := 0, rung := 5, part := part, ctx := ctx, info := cause, va := 0, pa := 0 }
  allDies.foldl (fun s d => fenceDie s d part) s

/-- A launch abort with its record: the launch stops with its status (R211, R347). -/
def abortLaunch (s : State) (die id status code : Nat) : State :=
  match find? (dieAt s die).launches id with
  | none => s
  | some l =>
    if l.stopped.isSome then s
    else stopLaunch (record s die
      { kind := 0x06, code := code, rung := 4, part := l.part, ctx := die * 1024, info := id, va := 0, pa := 0 }) die id status false

/-- A launch abort by hardware: the launch stops with its status; a second one of the partition within 2^24 cycles on
the die fences it (R347). -/
def abortByHardware (s : State) (die id status cause code : Nat) : State :=
  match find? (dieAt s die).launches id with
  | none => s
  | some l =>
    if l.stopped.isSome then s
    else
      let now := (dieAt s die).cycle
      let last := find? (dieAt s die).hwAborts l.part.toNat
      let s := if cause = 0x0C then s else
        record s die { kind := 0x06, code := code, rung := 4, part := l.part, ctx := die * 1024, info := id, va := 0, pa := 0 }
      let s := stopLaunch s die id status true
      let s := onDie s die (fun d => { d with hwAborts := put d.hwAborts l.part.toNat now })
      match last with
      | some t => if now - t < 2 ^ 24 then fencePartition s die (die * 1024) l.part cause else s
      | none => s

end Sys2Proof.Machine
end

