-- ==== Sys2Proof/Machine/TraceUnit.lean ====
section
/-! DEFINITION. Debug authority (R356), what trace captures, the records of a cluster's trace buffer (R351), and the die's
trace sink (R352, R354). -/

namespace Sys2Proof.Machine

/-- Grants of a world: 0 none, 1 observe, 2 control (R356). -/
def grantOf (s : State) (secure : Bool) : Nat :=
  if secure then s.pkg.dbgauth.toNat / 4 % 4 else s.pkg.dbgauth.toNat % 4

/-- Whether a partition's debug policy, when it has one, consents to observation and to control (R356). -/
def consents (s : State) (part : BitVec 16) (control : Bool) : Bool :=
  match find? s.pkg.keys part.toNat with
  | some k => match k.policy with
    | some p => if control then p.2 else p.1
    | none => true
  | none => true

/-- The debug unit may observe, or control, a context (R356). -/
def mayObserve (s : State) (c : Nat) : Bool :=
  let x := ctxAt s c
  1 ≤ grantOf s x.secure && consents s x.partid false
def mayControl (s : State) (c : Nat) : Bool :=
  let x := ctxAt s c
  2 ≤ grantOf s x.secure && consents s x.partid true

/-- Trace captures a context: capture is on, for its world, under its authority (R160, R356). -/
def traced (s : State) (c : Nat) : Bool :=
  let t := (cluAt s (cluOf c)).trace
  t.ctl.getLsbD 0 && (if (ctxAt s c).secure then t.ctl.getLsbD 5 else t.ctl.getLsbD 4) && mayObserve s c

/-- A trace record with a type, the number of its context in the cluster, a tick and a body (R351). -/
def traceRecord (ty cf tick body : Nat) : BitVec 128 :=
  BitVec.ofNat 128 (ty * 2 ^ 124 + cf % 16 * 2 ^ 120 + tick % 2 ^ 16 * 2 ^ 104 + body % 2 ^ 104)

/-- SYNC and MARK hold the whole cycle in place of the tick (R351). -/
def syncRecord (cycle : Nat) : BitVec 128 := BitVec.ofNat 128 (cycle % 2 ^ 64 * 2 ^ 56)
def markRecord (cycle serial other : Nat) (received : Bool) : BitVec 128 :=
  BitVec.ofNat 128 (4 * 2 ^ 124 + cycle % 2 ^ 64 * 2 ^ 56 + serial % 2 ^ 16 * 2 ^ 40 + other % 4 * 2 ^ 38 +
    received.toNat * 2 ^ 37)
def lostRecord (cycle n : Nat) : BitVec 128 := traceRecord 5 0 cycle (n % 2 ^ 56 * 2 ^ 48)

/-- The agent that writes a die's sink ring, of the debug unit's world (R334, R352). -/
def sinkAgent (s : State) (die : Nat) : Agent :=
  { unitAgent die 0 0 (get 0 s.pkg.worlds (2 ^ 12 + 0x800) == 1) with hyper := true }

/-- Whether the sink of a die takes records: enabled, neither frozen nor full (R349, R352). -/
def sinkOpen (d : Die) : Bool := d.tsctl.getLsbD 0 && !d.tsctl.getLsbD 1 && !d.tsctl.getLsbD 2

/-- A ring that has no room for one more record is full, and freezes (R352). -/
def fullSink (d : Die) : Die := if d.tslen.toNat < d.tswr + 16 then { d with tsctl := d.tsctl ||| 0b110 } else d

/-- A record at the end of the sink's ring; a store that the region refuses writes none, and leaves the record of a violation (R336,
R352; log 26). -/
def sinkRecord (s : State) (die : Nat) (r : BitVec 128) : State :=
  let d := dieAt s die
  if !sinkOpen d then s
  else if d.tslen.toNat < d.tswr + 16 then onDie s die fullSink
  else
    let pa := d.tsbase.toNat + d.tswr
    let a := sinkAgent s die
    match regionDecision s.pkg a .store pa with
    | none =>
      let p : Place := { key := pa, pa := some pa, far := inFar pa, dev := false, nsp := false, raw := false }
      onDie (putChecked s a 0 p (natBytes 16 r.toNat)) die (fun d => fullSink { d with tswr := d.tswr + 16 })
    | some _ => if (regionOf s.pkg pa).secure && !a.secure then logViolation s a pa else s

/-- Records gathered by the sink from a cluster, oldest first, while it has room (R352). -/
def gather (s : State) (die : Nat) : List (BitVec 128) → State × List (BitVec 128)
  | [] => (s, [])
  | r :: rs =>
    let s := sinkRecord s die r
    if sinkOpen (dieAt s die) then gather s die rs else (s, r :: rs)

/-- The cluster's buffer gathered by its die's sink; what the sink cannot take stays (R352, R354). -/
def drainTrace (s : State) (k : Nat) : State :=
  if sinkOpen (dieAt s (dieOfClu k)) then
    let r := gather s (dieOfClu k) (cluAt s k).trace.records
    onClu r.1 k (fun x => { x with trace := { x.trace with records := r.2 } })
  else s

/-- One record into a cluster's buffer of 16,384; without room it is discarded and counted (R349). -/
def pushRecord (s : State) (k : Nat) (r : BitVec 128) : State :=
  let s := if 16384 ≤ (cluAt s k).trace.records.length then drainTrace s k else s
  onClu s k (fun x =>
    let t := x.trace
    if 16384 ≤ t.records.length then { x with trace := { t with discarded := t.discarded + 1 } }
    else { x with trace := { t with records := t.records ++ [r], written := t.written + 1 } })

/-- A record with what goes before it: the count of records lost at a power-down (R354), and a SYNC when the cycle's
upper bits differ from the last one's (R351). -/
def addRecord (s : State) (k : Nat) (r : BitVec 128) : State :=
  let cycle := (dieAt s (dieOfClu k)).cycle
  let s := if (cluAt s k).trace.lost = 0 then s else
    onClu (pushRecord s k (lostRecord cycle (cluAt s k).trace.lost)) k
      (fun x => { x with trace := { x.trace with lost := 0, lastSync := none } })
  let s := if (cluAt s k).trace.lastSync = some (cycle / 2 ^ 16) then s else
    onClu (pushRecord s k (syncRecord cycle)) k
      (fun x => { x with trace := { x.trace with lastSync := some (cycle / 2 ^ 16) } })
  pushRecord s k r

/-- The words of a run in progress, none of which has retired (R126). -/
def Ctx.runWords (x : Ctx) : List VEntry := match x.held with
  | some h => h.words
  | none => []

/-- The address of a context's oldest vector instruction that has not retired (R126, R135). -/
def Ctx.commitPc (x : Ctx) : Word := match x.runWords ++ x.vx ++ x.vq with
  | e :: _ => e.addr
  | [] => x.pc

/-- The signed distance of two addresses in words, in n bits (R351). -/
def wordsFrom (n : Nat) (a b : Word) : Nat := wrap n ((signed 64 (a - b).toNat) / 4)

/-- A PAIR record of a context's pointer pair (R351). -/
def addPair (s : State) (c : Nat) : State :=
  let x := ctxAt s c
  let cp := x.commitPc
  let r := traceRecord 1 (c % 16) (cycleOf s c) (field x.pc 2 56 * 2 ^ 48 + wordsFrom 48 cp x.pc)
  onCtx (addRecord s (cluOf c) r) c (fun x => { x with pair := some (x.pc, cp) })

/-- A stop or an action of a traced context: a PAIR and an EVENT (R351). -/
def addEvent (s : State) (c code : Nat) : State :=
  if traced s c then
    let s := addPair s c
    addRecord s (cluOf c) (traceRecord 3 (c % 16) (cycleOf s c) (code % 256 * 2 ^ 96))
  else s

/-- Whether the deltas of an SW record fit beside the context's latest PAIR (R351). -/
def deltasFit (x : Ctx) : Bool := match x.pair with
  | none => false
  | some (pc, cp) =>
    let a := signed 64 (x.pc - pc).toNat / 4
    let b := signed 64 (x.commitPc - cp).toNat / 4
    (-4096 ≤ a && a < 4096) && (-2048 ≤ b && b < 2048)

/-- A software record (R160, R351). -/
def addSoftware (s : State) (c code : Nat) (v : Word) : State :=
  if traced s c then
    let s := if deltasFit (ctxAt s c) then s else addPair s c
    let x := ctxAt s c
    let p := x.pair.getD (x.pc, x.commitPc)
    addRecord s (cluOf c) (traceRecord 2 (c % 16) (cycleOf s c)
      (code % 2 ^ 15 * 2 ^ 89 + v.toNat * 2 ^ 25 + wordsFrom 13 x.pc p.1 * 2 ^ 12 + wordsFrom 12 x.commitPc p.2))
  else s

/-! The comparators of the trigger sequencer -/

/-- The comparators of a cluster of a kind whose mask names a context, with bounds that a test accepts (R349). -/
def matching (t : Trace) (c kind : Nat) (ok : Word → Word → Bool) : List Nat :=
  (span 0 8).filter (fun k =>
    let w := get 0 t.cmpk k
    field w 0 3 == kind && flagAt w (8 + c % 16) && ok (get 0 t.cmpa k) (get 0 t.cmpb k))

/-- Comparators that match a context in this step, under the authority to observe it (R350, R356). -/
def noteHits (s : State) (c kind : Nat) (ok : Word → Word → Bool) : State :=
  if (cluAt s (cluOf c)).trace.cmpk.isEmpty || !mayObserve s c then s
  else
    let ks := matching (cluAt s (cluOf c)).trace c kind ok
    if ks.isEmpty then s
    else onClu s (cluOf c) (fun x => { x with trace := { x.trace with hits := x.trace.hits ++ ks.map (fun k => (k, c)) } })

/-- An access at an address (kind 2), and a stop with a fault code (kind 3) (R349). -/
def noteAccess (s : State) (c va : Nat) : State := noteHits s c 2 (fun a b => a.toNat ≤ va && va < b.toNat)
def noteStop (s : State) (c code : Nat) : State := noteHits s c 3 (fun a _ => a.toNat % 256 == code)

/-- The sequencer at the end of a step of n cycles: in state Sk comparator a arms it, and then each cycle in which comparator b matches
counts one event; the counter that reaches zero makes the action due. An instruction, an access or a stop matches in one cycle of the
step, and a slip class in each (R350). -/
def countTrigger (s : State) (clu m : Nat) : State :=
  let t := (cluAt s clu).trace
  if t.hits.isEmpty then s
  else
    let q := get 0 t.seq (t.ctl.toNat / 4 % 4)
    let of (k : Nat) : List Nat := (t.hits.filter (fun h => h.1 == k)).map Prod.snd
    let n := field q 6 1
    let b := of (field q 3 3)
    let each := field (get 0 t.cmpk (field q 3 3)) 0 3 == 4
    let count (t : Trace) (k : Nat) : Trace :=
      let v := get 0 t.ctr n
      let u := { t with ctr := set 0 t.ctr n (v - k) }
      if v ≠ 0 ∧ v ≤ k then { u with due := b.eraseDups } else u
    let t := if t.armed then (if b.isEmpty then t else count t (if each then m else 1))
      else if (of (field q 0 3)).isEmpty then t
      else if !b.isEmpty && each then count { t with armed := true } (m - 1) else { t with armed := true }
    onClu s clu (fun x => { x with trace := { t with hits := [] } })

end Sys2Proof.Machine
end

