-- ==== Sys2Proof/Machine/Ops.lean ====
section
/-! DEFINITION. The accesses of a context to memory (R173–R179, R200, R324, R339, R363), its streams (R167, R187–R190), and
taking an exception and returning from one (R135–R147). -/

namespace Sys2Proof.Machine

/-- A job, a work item or a member record of a context has an edge to a later access of it (R200, R227, R238): an access
that overlaps its write set, or a store that overlaps its read set. One that is still to be accepted again has it too (R212). -/
def jobEdge (j : Job) (lo hi : Nat) (store : Bool) : Bool :=
  (j.live || j.state == 3) &&
  (j.writes.any (fun r => r.meets lo hi) || (store && j.reads.any (fun r => r.meets lo hi)))

/-- An access of a context waits for a job it issued (R200). -/
def jobWaits (s : State) (c va n : Nat) (store : Bool) : Bool :=
  let lo := dieForm (cluOf c) va
  (cluAt s (cluOf c)).jobs.any (fun j => j.issuer == some c && jobEdge j lo (lo + n - 1) store)

/-- A data watchpoint in force on a context meets bytes of an access (R144, log 14). -/
def watchHit (x : Ctx) (va n : Nat) : Bool := x.wps.any (fun w => w.1 < va + n && va < w.2)

/-- What an access of a context meets: a place, the domain, a job to wait for, or the first condition of R139. -/
inductive Reach where
  | ok (p : Place)
  | domain
  | wait
  | deny (d : Denial)
  deriving DecidableEq, Repr

def denyWith (code : Nat) : Reach := .deny { code := code, logged := none }

/-- The conditions of an access of n bytes aligned to w, in the order of R139: ALIGN, PAGE or VPAGE, ACCESS, VIEW,
WATCH. `remote` says whether the operation may be sent to the domain (R179, R185) and `quiet` that no watchpoint is
matched. -/
def reach (s : State) (c : Nat) (a : Agent) (acc : Acc) (va n w : Nat) (remote quiet : Bool) : Reach :=
  let store := acc == .store || acc == .atomic
  if va % w ≠ 0 then denyWith cAlign
  else match locate s a va with
    | .domain =>
      if !(remote && domainOpen s a.part va) then denyWith cAccess
      else if !quiet && watchHit (ctxAt s c) va n then denyWith cWatch
      else if jobWaits s c va n store then .wait
      else .domain
    | _ => if walkBusy s a va then .wait else match decide s a acc va with
      | .error d => .deny d
      | .ok p =>
        if !quiet && watchHit (ctxAt s c) va n then denyWith cWatch
        else if jobWaits s c va n store || pageBusy s p then .wait
        else .ok p

/-- How an access of a context ends: with a result, with a fault, not yet, or with its lap rewound or killed. -/
inductive Access (α : Type) where
  | done (s : State) (r : α)
  | fault (s : State) (code : Nat)
  | wait (s : State)
  | gone (s : State)

/-- An access to device-class memory ends the buffering of its lap first (R149). -/
def beforeDevice (s : State) (c : Nat) (p : Place) : State × Bool :=
  if p.dev then breakLap s c else (s, true)

/-- Bytes that a context's load receives at a place; poisoned data fail the lap that would consume them (R150, R175,
R339). -/
def takeBytes (s : State) (c elem : Nat) (a : Agent) (va : Nat) (p : Place) (n : Nat) : Access (List Byte) :=
  match beforeDevice s c p with
  | (s, false) => .gone s
  | (s, true) =>
    let s := charge (noteLeaf (noteAccess s c va) a va) a p n
    match readFinding s p with
    | some .uncorrectable => .gone (consumePoison (recordSector s a va p .uncorrectable) c elem va p .uncorrectable)
    | some .tagFails => .gone (consumePoison (recordSector s a va p .tagFails) c elem va p .tagFails)
    | _ => .done s (ctxBytes s c va p n)

/-- Bytes stored by a context at a place (R149, R175). -/
def giveBytes (s : State) (c : Nat) (a : Agent) (va : Nat) (p : Place) (ms : List MaskedByte) : Access Unit :=
  match beforeDevice s c p with
  | (s, false) => .gone s
  | (s, true) => match ctxStore (noteLeaf (noteAccess s c va) a va) c a va p ms with
    | (s, true) => .done s ()
    | (s, false) => .gone s

/-- An access that returns data to its source. -/
def kindData : DomainKind → Bool
  | .store _ | .merge _ => false
  | _ => true

/-- An access that changes memory at its target. -/
def kindWrites : DomainKind → Bool
  | .load => false
  | _ => true

/-- The front waits for the answer to a request in the domain, with which one that acquires acquires (R177, R363). -/
def awaitDomain (s : State) (c : Nat) (va n : Nat) (sx : Bool) (d : XReg) (acq : Bool) (kind : DomainKind) : State :=
  let r := sendDomain s c va n sx d kind .scalar
  onCtx r.1 c (fun x => { x with fwait := .domain r.2 d acq (kindData kind) })

/-- A hit of a watchpoint at the instruction a one-shot step-over resumes does not stop it (R144). -/
def frontQuiet (x : Ctx) : Bool := x.stepOver.isSome && x.vx.isEmpty && x.vq.isEmpty

/-- The one-shot step-over has been used: tstat.step of the level it came from clears (R144). -/
def Ctx.endStep (x : Ctx) : Ctx := match x.stepOver with
  | none => x
  | some o =>
    let t := x.trap o.level
    { x.setTrap o.level { t with stat := t.stat &&& ~~~(0x80#64) } with stepOver := none }

/-- The witness register of a core advances once for a checked instruction (R152, R171). -/
def noteChecked (s : State) (c : Nat) (n : Nat) : State :=
  if n = 0 then s else onCore s (coreOf c) (fun k => { k with witness := stepWitness k.witness })

/-- The words of a run of VBFLY.H.f meet the comparators as they retire, in one step (R126, R349). -/
def noteWords (s : State) (c : Nat) (ws : List VEntry) : State :=
  ws.foldl (fun s e => noteHits s c 1 (fun a b => a.toNat ≤ e.addr.toNat && e.addr.toNat < b.toNat)) s

/-- A run of VBFLY.H.f ends with its last word, one of whose elements is checked (R117, R126). -/
def flushRun (s : State) (c : Nat) : State := match (ctxAt s c).held with
  | none => s
  | some h => noteChecked (onCtx (noteWords s c h.words) c (fun x => (flushHeld x).endStep)) c h.entry.positions.length

/-- A run of VBFLY.H.f ends before what the front stands at, which waits while the units leave the check of its element for their own
events; false while it does (R117, R126, R171). -/
def closeRun (s : State) (c : Nat) : State × Bool :=
  if s.defer && (ctxAt s c).held.isSome then
    (onCtx s c (fun x => { x with held := x.held.map (fun h => { h with ends := true }) }), false)
  else (flushRun s c, true)

/-- The front waits for load data (R170). -/
def dataWait (s : State) (c : Nat) : State := onCtx s c (fun x => { x with waitsData := true })

/-- The front stands at an ERET whose dump is still to be read (R170). -/
def dumpWait (s : State) (c : Nat) : State := onCtx s c (fun x => { x with dumping := true })

/-- A scalar load of n bytes (R176); a load from the domain is answered later. -/
def scalarLoad (s : State) (c va n : Nat) (sx : Bool) (d : XReg) (acq : Bool) : Access (List Byte) :=
  let a := frontAgent s c
  match reach s c a .load va n n true (frontQuiet (ctxAt s c)) with
  | .deny e => .fault (noteDenial s a e) e.code
  | .wait => .wait (dataWait s c)
  | .domain => .wait (awaitDomain s c va n sx d acq .load)
  | .ok p => takeBytes s c 0 a va p n

/-- A scalar store of bytes (R176); a store to the domain enters the buffer, or is answered later. -/
def scalarStore (s : State) (c va : Nat) (bs : List Byte) : Access Unit :=
  let a := frontAgent s c
  match reach s c a .store va bs.length bs.length true (frontQuiet (ctxAt s c)) with
  | .deny e => .fault (noteDenial s a e) e.code
  | .wait => .wait s
  | .domain =>
    if (ctxAt s c).lap.buffering then
      match intoBuffer s c va (wholeBytes bs) with
      | some s => .done s ()
      | none => match breakLap s c with
        | (s, false) => .gone s
        | (s, true) => .wait (awaitDomain s c va bs.length false 0 false (.store bs))
    else .wait (awaitDomain s c va bs.length false 0 false (.store bs))
  | .ok p => giveBytes s c a va p (wholeBytes bs)

/-- A read-modify-write of n bytes at a place by an agent: what was there, with the new bytes stored; poisoned data fail
the lap (R178, R339). The lap buffers nothing by then (R149). -/
def modifyBytes (s : State) (c elem : Nat) (a : Agent) (va : Nat) (p : Place) (n : Nat) (f : Nat → Nat) : Access Nat :=
  match takeBytes s c elem a va p n with
  | .done s bs =>
    let old := bytesNat bs
    .done (storeAt s a va p (natBytes n (f old))) old
  | .fault s k => .fault s k
  | .wait s => .wait s
  | .gone s => .gone s

/-- A scalar atomic on n bytes (R178): conditions first, then the commit of R149, then the step; `kind` is what is sent
when the address lies in the domain. -/
def scalarAtomic (s : State) (c va n : Nat) (d : XReg) (acq : Bool) (kind : Option DomainKind) (f : Nat → Nat) : Access Nat :=
  let a := frontAgent s c
  match reach s c a .atomic va n n kind.isSome (frontQuiet (ctxAt s c)) with
  | .deny e => .fault (noteDenial s a e) e.code
  | .wait => .wait (dataWait s c)
  | .domain => match breakLap s c with
    | (s, false) => .gone s
    | (s, true) => .wait (awaitDomain s c va n true d acq (kind.getD .load))
  | .ok p => match breakLap s c with
    | (s, false) => .gone s
    | (s, true) => modifyBytes s c 0 a va p n f

/-- An access of a stream in the domain: its answer when it has come, else it is sent, one at a time for each stream; an answer that
nothing asks for any more makes room for the next (R360–R363). -/
def askDomain (s : State) (c : Nat) (who : DomainStream) (va n : Nat) (kind : DomainKind) : State × Option DomainResult :=
  let x := ctxAt s c
  let send (s : State) : State × Option DomainResult :=
    let r := sendDomain s c va n false 0 kind who
    (onCtx r.1 c (fun x =>
      { x with domGot := remove x.domGot who.num
               domWait := put x.domWait who.num { req := r.2, writes := kindWrites kind } }), none)
  match find? x.domWait who.num, find? x.domGot who.num with
  | some _, _ => (s, none)
  | none, some g =>
    if g.va = va ∧ g.size = n ∧ g.kind = kind then
      (onCtx s c (fun x => { x with domGot := remove x.domGot who.num }), some g.result)
    else send s
  | none, none => send s

/-! Streams -/

/-- The bytes an element of a stream takes; a width of 4 bits counts as one byte (R173, R187). -/
def Stream.bytes (st : Stream) : Nat := max 1 (st.width / 8)

/-- The address of element k of a stream (R187). -/
def Stream.addr (st : Stream) (k : Nat) : Nat :=
  if st.width = 4 then (st.base.toNat + k / 2) % 2 ^ 64
  else (st.base + BitVec.ofNat 64 k * st.stride).toNat

/-- The bits of a byte that a 4-bit element holds (R44, R184). -/
def nibbleMask (k b : Nat) : MaskedByte :=
  if k % 2 = 0 then (0x0F, BitVec.ofNat 8 (b % 16)) else (0xF0, BitVec.ofNat 8 (b % 16 * 16))

/-- The masked bytes that an element's bits occupy at its address. -/
def elemBytes (w k b : Nat) : List MaskedByte :=
  if w = 4 then [nibbleMask k b] else wholeBytes (natBytes (w / 8) b)

/-- The bits of an element in the bytes at its address. -/
def elemOf (w k : Nat) (bs : List Byte) : Nat :=
  if w = 4 then (if k % 2 = 0 then bytesNat bs % 16 else bytesNat bs / 16 % 16) else bytesNat bs

/-- The elements of the head entry of a store stream performed from one on; the first that cannot be leaves the entry at
the head, with its fault when it meets one (R188, R189). -/
def drainElems (s : State) (c r : Nat) : List Nat → Access Unit
  | [] => .done s ()
  | i :: rest =>
    match find? (ctxAt s c).streams r with
    | none => .done s ()
    | some st => match st.entries with
      | [] => .done s ()
      | en :: more =>
        let upd (s : State) (en : StreamEntry) : State :=
          onCtx s c (fun x => { x with streams := put x.streams r { st with entries := en :: more } })
        if !en.live.getLsbD i || st.count ≤ en.first + i then drainElems s c r rest
        else
          let a := vectorAgent s c
          let k := en.first + i
          let va := st.addr k
          let b := regField en.bits (i * st.width) st.width
          match reach s c a .store va st.bytes st.bytes true false with
          | .deny e => .fault (upd (noteDenial s a e) { en with from_ := i, fault := some (e.code, BitVec.ofNat 64 va, i) })
              e.code
          | .wait => .wait (upd s { en with from_ := i })
          | .domain =>
            let ms := elemBytes st.width k b
            let done (s : State) : State := upd s { en with from_ := i + 1, fault := none }
            let past (s : State) : State := onLap s c (fun l => { l with buf := supersede l.buf va ms })
            let bad (s : State) (code : Nat) : State :=
              upd s { en with from_ := i, fault := some (code, BitVec.ofNat 64 va, i) }
            match (if (ctxAt s c).lap.buffering then intoBuffer s c va ms else none) with
            | some s => drainElems (done s) c r rest
            | none => match (if (ctxAt s c).lap.buffering then breakLap s c else (s, true)) with
              | (s, false) => .gone s
              | (s, true) => match askDomain s c (.bound r) va ms.length (storeKind ms) with
                | (s, none) => .wait (upd s { en with from_ := i })
                | (s, some .vpage) => .fault (bad s cVpage) cVpage
                | (s, some .access) => .fault (bad s cAccess) cAccess
                | (s, some _) => drainElems (done (past s)) c r rest
          | .ok p =>
            let p := if st.device then { p with dev := true } else p
            match giveBytes (upd s { en with from_ := i + 1, fault := none }) c a va p (elemBytes st.width k b) with
            | .done s _ => drainElems s c r rest
            | .fault s k => .fault s k
            | .wait s => .wait s
            | .gone s => .gone s

/-- The oldest entry of a store stream performed (R167). -/
def drainEntry (s : State) (c r : Nat) : Access Unit :=
  match find? (ctxAt s c).streams r with
  | none => .done s ()
  | some st => match st.entries with
    | [] => .done s ()
    | en :: _ =>
      if !st.store then .done s ()
      else match drainElems s c r (span en.from_ (st.strip - en.from_)) with
        | .done s _ =>
          .done (onCtx s c (fun x => match find? x.streams r with
            | some st => { x with streams := put x.streams r { st with entries := st.entries.drop 1 } }
            | none => x)) ()
        | r => r

/-- Every entry of a store stream performed; four at most stand in it (R167). -/
def drainStream (s : State) (c r : Nat) : Nat → Access Unit
  | 0 => .done s ()
  | n + 1 =>
    match find? (ctxAt s c).streams r with
    | none => .done s ()
    | some st => if st.entries.isEmpty || !st.store then .done s () else match drainEntry s c r with
      | .done s _ => drainStream s c r n
      | r => r

/-- The store streams of a list drained one after another. -/
def drainAll (s : State) (c : Nat) : List Nat → Access Unit
  | [] => .done s ()
  | r :: rest => match drainStream s c r 5 with
    | .done s _ => drainAll s c rest
    | r => r

/-- The registers bound to streams. -/
def boundRegs (x : Ctx) : List Nat := keys x.streams

/-- The access an outcome leaves behind when nothing is to follow from it. -/
def Access.state {α : Type} : Access α → State
  | .done s _ => s
  | .fault s _ => s
  | .wait s => s
  | .gone s => s

/-- The store streams of a list drained, each as far as it can be (R190). -/
def drainEach (s : State) (c : Nat) : List Nat → State
  | [] => s
  | r :: rest => drainEach (drainStream s c r 5).state c rest

/-- A stream unbound: its register keeps the last strip (R190). -/
def Ctx.unbind (x : Ctx) (r : Nat) : Ctx :=
  { x with streams := remove x.streams r, domWait := remove x.domWait r, domGot := remove x.domGot r }

/-! Taking an exception -/

/-- The priority of a fault code in R139. -/
def priority (code : Nat) : Nat :=
  if code = cIllegal then 1 else if code = cPriv then 2 else if code = cType then 3 else if code = cAlign then 4
  else if code = cPage ∨ code = cVpage then 5 else if code = cAccess then 6 else if code = cView then 7
  else if code = cWatch then 8 else if code = cFootprint then 9 else if code = cWiden then 10
  else if code = cParam then 11 else if code = cNoise then 12 else if code = cHurdle then 13
  else if code = cPuborder then 14 else if code = cTrapi ∨ code = cBkpt then 15 else 99

/-- Pending faults with their places; a job's has unit 1, and DEADLOCK, which no unit raises, has 0 (R137, R139, log 65). -/
def dueOf : Nat → List PendFault → List Due
  | _, [] => []
  | i, p :: r => { unit := p.job, code := p.code, val := p.val, call := false, slot := some i } :: dueOf (i + 1) r

/-- The faults that store streams met (R189). -/
def dueStreams : SMap Stream → List Due
  | [] => []
  | (_, st) :: r => match st.entries with
    | en :: _ => match st.store, en.fault with
      | true, some f => { unit := true, code := f.1, val := f.2.1, call := false, slot := none } :: dueStreams r
      | _, _ => dueStreams r
    | [] => dueStreams r

/-- The due fault of highest priority, the earliest among equals (R139). -/
def pickDue : List Due → Option Due
  | [] => none
  | d :: r => match pickDue r with
    | none => some d
    | some e => some (if priority d.code ≤ priority e.code then d else e)

/-- What stays pending: job faults but the one taken; a DEADLOCK that was not taken is dropped (R139). -/
def keepPending (slot : Option Nat) : Nat → List PendFault → List PendFault
  | _, [] => []
  | i, p :: r =>
    if slot = some i ∨ !p.job then keepPending slot (i + 1) r else p :: keepPending slot (i + 1) r

/-- The target level of a stop: the exception of WCALL holds in either world (R136). -/
def stopLevel (x : Ctx) (call : Bool) : Level :=
  if call then Level.ofNum (max 2 x.level.num)
  else if x.secure then .m else Level.ofNum (max 1 x.level.num)

/-- The 64 bytes of a dump entry (R138). -/
def VEntry.image (e : VEntry) : Nat :=
  e.srkey.toNat * 2 ^ 448 + e.mq.toNat * 2 ^ 384 + e.sc0.toNat * 2 ^ 320 + e.addr.toNat * 2 ^ 256 +
  e.srep.toNat * 2 ^ 224 + e.vtype.toNat * 2 ^ 207 + e.tagd.toNat * 2 ^ 202 + e.taga.toNat * 2 ^ 197 +
  e.tagb.toNat * 2 ^ 192 + e.vl % 2 ^ 15 * 2 ^ 177 + e.es % 2 ^ 15 * 2 ^ 162 + e.rm.toNat * 2 ^ 159 +
  e.word.toNat * 2 ^ 96 + e.sc1.toNat * 2 ^ 32

/-- The agent of a dump at a level: the context's own at K, partition 0 at H and 0xFFFF at M (R138). -/
def dumpAgent (s : State) (c : Nat) (l : Level) : Agent := match l with
  | .m => { frontAgent s c with part := 0xFFFF, secure := true }
  | .h => { frontAgent s c with part := 0, secure := false, hyper := true }
  | _ => frontAgent s c

/-- A dump of level K whose bytes lie in the load-store domain, which LD and ST may reach (R138, R179). -/
def dumpAway (s : State) (c : Nat) (l : Level) (addr : Nat) : Bool := match l with
  | .h | .m => false
  | _ => locate s (frontAgent s c) addr == .domain && domainOpen s (frontAgent s c).part addr

/-- The place of 64 bytes of a dump: a virtual address at K, a physical one at H and M (R138). -/
def dumpPlace (s : State) (c : Nat) (l : Level) (acc : Acc) (addr : Nat) : Option Place := match l with
  | .h | .m =>
    if inNear addr || inFar addr then
      match regionDecision s.pkg (dumpAgent s c l) acc addr with
      | some false => none
      | d => some { key := addr, pa := some addr, far := inFar addr, dev := false, nsp := false, raw := d.isSome }
    else none
  | _ => match decide s (frontAgent s c) acc addr with
    | .ok p => some p
    | .error _ => none

/-- A page that is being re-encrypted holds a dump of n entries back (R138, R340). -/
def dumpBusy (s : State) (c : Nat) (l : Level) (addr n : Nat) : Bool :=
  s.pkg.reenc.isSome && (span 0 n).any (fun k => match dumpPlace s c l .load (addr + 64 * k) with
    | some p => pageBusy s p
    | none => false)

/-- The scalar stores of an entry that leave for the domain, one after another (R138, R360, R361). -/
def sendEntry (s : State) (c addr : Nat) : List Word → State
  | [] => s
  | w :: r => sendEntry (sendDomain s c addr 8 false 0 (.store (natBytes 8 w.toNat)) .dump).1 c (addr + 8) r

/-- Stores of a dump of a context that the domain has still to take (R138, R361). -/
def dumpPending (s : State) (c : Nat) : Bool := s.pkg.domReqs.any (fun r => r.isOf c && r.stream == .dump && kindWrites r.kind)

/-- The denial of an access to a dump leaves its record (R138, R324, R336). -/
def noteDumpDenial (s : State) (c : Nat) (l : Level) (acc : Acc) (addr : Nat) : State :=
  let a := dumpAgent s c l
  match l with
  | .h | .m => if (regionOf s.pkg addr).secure && !a.secure then logViolation s a addr else s
  | _ => match decide s a acc addr with
    | .error d => noteDenial s a d
    | .ok _ => s

/-- An entry stored in the domain: into the lap store buffer while the lap buffers its stores, else it leaves (R138, R149). False
when a commit has killed the lap. -/
def dumpOut (s : State) (c addr w : Nat) : State × Bool :=
  let out (s : State) : State := sendEntry s c addr ((span 0 8).map (fun k => BitVec.ofNat 64 (w / 2 ^ (64 * k))))
  if (ctxAt s c).lap.buffering then
    match intoBuffer s c addr (wholeBytes (natBytes 64 w)) with
    | some s => (s, true)
    | none => match breakLap s c with
      | (s, true) => (out s, true)
      | (s, false) => (s, false)
  else (out s, true)

/-- The entries of a stop written from an address on; false at a fault (R138), and where a commit has killed the lap. At K they are
stores of the front, which end the buffering of the lap in device-class memory (R149). -/
def writeDump (s : State) (c : Nat) (l : Level) (addr : Nat) : List VEntry → State × Bool
  | [] => (s, true)
  | e :: r =>
    if dumpAway s c l addr then
      match dumpOut s c addr e.image with
      | (s, true) => writeDump s c l (addr + 64) r
      | (s, false) => (s, false)
    else match dumpPlace s c l .store addr with
    | none => (noteDumpDenial s c l .store addr, false)
    | some p =>
      let bs := natBytes 64 e.image
      let t : State × Bool := match l with
        | .h | .m => (storeSectors s (dumpAgent s c l) p bs, true)
        | _ => match beforeDevice (noteLeaf s (frontAgent s c) addr) c p with
          | (s, true) => ctxStore s c (frontAgent s c) addr p (wholeBytes bs)
          | r => r
      if t.2 then writeDump t.1 c l (addr + 64) r else t

/-- An entry at a stop: a baton it has popped is given back, since it is reissued whole (R168, log 15). -/
def returnBatons (x : Ctx) : List VEntry → Ctx
  | [] => x
  | e :: r =>
    let x := match e.popped, batonWait e.instr with
      | true, some q => x.giveBack q
      | _, _ => x
    returnBatons x r

/-- The flags of the elements that dumped entries have written (R68, R138). -/
def entryFlags : List VEntry → Flags
  | [] => 0
  | e :: r => e.flags ||| entryFlags r

/-- The status word of a stop (R137). -/
def statWord (x : Ctx) (nq : Nat) : Word :=
  BitVec.ofNat 64 (nq * 2 ^ 16 + x.lap.rewindable.toNat * 2 ^ 6 + x.loop.active.toNat * 2 ^ 5 + x.level.num)

/-- The cause word of a stop (R137). -/
def causeWord (d : Due) : Word := BitVec.ofNat 64 (d.call.toNat * 2 ^ 10 + d.unit.toNat * 2 ^ 8 + d.code)

/-- A stop as it stands when nothing runs any more: the context is not parked and watches the hurdle it waited on, its step-over is
used up, no word of its run of VBFLY.H.f has retired, what its queue has asked of the domain is asked again, and the appended entries
of each store stream have performed as far as they can (R126, R144, R190, R249, R252). -/
def settle (s : State) (c : Nat) : State :=
  let watch := match (ctxAt s c).park with
    | .hurdle va _ _ _ => some (false, va)
    | _ => (ctxAt s c).watched
  let s := onCtx (unpark s c) c (fun x =>
    { x.endStep.unrun with
      watched := watch, waitsData := false, dumping := false, readBack := [], domWait := remove x.domWait 1, domGot := remove x.domGot 1 })
  drainEach s c (boundRegs (ctxAt s c))

/-- Appended entries of a store stream wait for the answer of the domain, or for a page that is being re-encrypted (R190, R340,
R361). -/
def streamHeld (s : State) (c : Nat) (e : Nat × Stream) : Bool :=
  e.2.store && (match e.2.entries with
    | [] => false
    | en :: _ => en.fault.isNone && ((find? (ctxAt s c).domWait e.1).isSome ||
        match decide s (vectorAgent s c) .store (e.2.addr (en.first + en.from_)) with
        | .ok p => pageBusy s p
        | .error _ => false))

/-- A stop waits for the store streams whose entries have still to perform (R190). -/
def drainsOn (s : State) (c : Nat) : Bool := (ctxAt s c).streams.any (streamHeld s c)

/-- A double fault: a record, with the address of the dump as a virtual one at K, where it has a translation, and as a physical one
at H and M, the halt of the context and the fence of its partition (R138, R343, R348). -/
def doubleFault (s : State) (c : Nat) (l : Level) (addr code : Nat) : State :=
  let part := (ctxAt s c).partid
  let at_ : Nat × Nat := match l with
    | .h | .m => (0, addr)
    | _ => (addr, spotPa s (frontAgent s c) addr)
  let s := ctxRecord (addEvent s c code) c 0x0D 0 5 0 at_.1 at_.2
  let s := fencePartition s (dieOf c) c part 0x0D
  onCtx s c (fun x => { x with occ := .dead, stopping := none })

/-- A stop whose dump has been written: the trap CSRs of level T are written, the level is raised to T and the pc set to its tvec
(R135–R137). The es CSR stays as the front has left it, and a vector word of the handler takes it (R52, log 70). -/
def finishStop (s : State) (c : Nat) (d : Due) : State :=
  let x := ctxAt s c
  let es := x.vx ++ x.vq
  let l := stopLevel x d.call
  let tr := x.trap l
  let s := addEvent (noteStop s c d.code) c d.code
  onCtx s c (fun y =>
    let y := returnBatons y es
    let tr := { tr with
      cause := causeWord d
      val := d.val
      pc := x.pc
      cp := x.commitPc
      es := BitVec.ofNat 15 (match es with | e :: _ => e.es | [] => x.csr.es)
      stat := statWord x es.length }
    let y := y.setTrap l tr
    { y.discardLoads with
      csr := { y.csr with fflags := y.csr.fflags ||| entryFlags es }
      pend := keepPending d.slot 0 y.pend
      vx := [], vq := [], waits := [], level := l, pc := tr.vec, inHandler := true, stops := y.stops + 1, stopping := none })

/-- Taking an exception (R135–R138): the entries are dumped, and the handler is entered when the domain has taken what of them has
left for it; a fault while they are written is a double fault. A lap that a boundary has held back starts before (R87). -/
def enterHandler (s : State) (c : Nat) (d : Due) : State :=
  let s := startLap s c
  let x := ctxAt s c
  let l := stopLevel x d.call
  let addr := (x.trap l).dump.toNat
  match writeDump s c l addr (x.vx ++ x.vq) with
  | (s, false) => if (ctxAt s c).occ = .running then doubleFault s c l addr d.code else s
  | (s, true) =>
    if !(x.vx ++ x.vq).isEmpty && dumpPending s c then
      onCtx s c (fun x => { x with stopping := some { due := some d, written := true } })
    else finishStop s c d

/-- The entries that a stop would dump now (R126, R138). -/
def Ctx.toDump (x : Ctx) : Nat := x.runWords.length + x.vx.length + x.vq.length

/-- A stop of a context with the fault that reached it, if any: the due fault of highest priority is taken (R139). What
waits for a pointer pair of the program waits while a handler runs. A stop waits while its dump falls into a page that is being
re-encrypted, while appended store entries have still to perform, and while a run of VBFLY.H.f leaves more than a dump holds (R138,
R190, R340; log 89). -/
def takeStop (s : State) (c : Nat) (f : Option Due) : State :=
  let hold (s : State) : State := onCtx s c (fun x => { x with stopping := some { due := f, written := false } })
  let x := ctxAt s c
  let l := stopLevel x (match f with | some d => d.call | none => false)
  if dumpBusy s c l (x.trap l).dump.toNat x.toDump || 40 < x.toDump then hold s
  else
  let s := settle s c
  let x := ctxAt s c
  if x.occ ≠ .running then s
  else if drainsOn s c then hold s
  else match pickDue (f.toList ++ (if x.inHandler then [] else dueOf 0 x.pend ++ dueStreams x.streams)) with
  | none => onCtx s c (fun x => { x with stopping := none })
  | some d => enterHandler s c d

/-- A stop that waits goes on (R138, R190, R340). -/
def goOnStop (s : State) (c : Nat) (w : StopWait) : State := match w.written, w.due with
  | true, some d => if dumpPending s c then s else finishStop s c d
  | _, due => takeStop s c due

/-- A memory instruction of the queue has stored into the domain, and has still to take the answer (R360). -/
def Ctx.storesAway (x : Ctx) : Bool :=
  (find? x.domWait 1).any (fun w => w.writes) || (find? x.domGot 1).any (fun g => kindWrites g.kind)

/-- Nothing of a context's front stands unfinished at a die unit or in the domain, and no stop of it waits. -/
def frontFree (x : Ctx) : Bool := x.fwait == .none && x.stopping.isNone && !x.storesAway

/-- The units of a context may work: it runs, and no stop waits, but for one that finds more than a dump holds (R138). -/
def Ctx.unitsGo (x : Ctx) : Bool := x.occ == .running && (x.stopping.isNone || 40 < x.toDump)

/-- An access of the front at an address whose table walk has met data that it cannot use: it has used them as an address (R150,
R339). -/
def consumeWalk (s : State) (c code va : Nat) : State :=
  let pa := (noSpot s (frontAgent s c) va).logged.getD 0
  failLap s c code (code = cIntegrity) (some (sectorOf pa)) 0 0 va pa

/-- A fault of the front at its pc (R135); poisoned data reach no handler (R139). -/
def takeFront (s : State) (c code : Nat) (val : Word) : State :=
  if code = cMemue ∨ code = cIntegrity then consumeWalk s c code val.toNat
  else takeStop s c (some { unit := false, code := code, val := val, call := false, slot := none })

/-- A fault of the oldest vector instruction (R135, R143). -/
def takeVector (s : State) (c code : Nat) (val : Word) : State :=
  takeStop s c (some { unit := true, code := code, val := val, call := false, slot := none })

/-- A major opcode of the vector instructions (R163). -/
def vectorOpcode (w : BitVec 32) : Bool := 0x20 ≤ w.toNat % 128 && w.toNat % 128 ≤ 0x4B

/-- ILLEGAL or TYPE of a vector word ends a run of VBFLY.H.f: its last word writes its vd first; the fault waits while that word
still stands in the queue, or while its check is still to come (R126, R171). False while it waits. -/
def endRunFor (s : State) (c code : Nat) (w : BitVec 32) : State × Bool :=
  if vectorOpcode w && (code == cIllegal || code == cType) then
    let x := ctxAt s c
    match (x.vx ++ x.vq).getLast? with
    | some e => match e.instr with
      | .vbflyHF _ _ _ => (s, false)
      | _ => (s, true)
    | none => closeRun s c
  else (s, true)

/-- A fault of a word at the front, with the word (R31, R126). -/
def takeRaw (s : State) (c code : Nat) (w : BitVec 32) : State := match endRunFor s c code w with
  | (s, true) => takeFront s c code (w.setWidth 64)
  | (s, false) => s

/-- PRIV, TYPE and ILLEGAL with the word (R31). -/
def takeWord (s : State) (c code : Nat) (i : Instr) : State := takeRaw s c code (wordOf i)

/-! Return from an exception -/

/-- The least of a vl and the trim limit of the lap (R142). -/
def trimmed (x : Ctx) (vl : Nat) : Nat := match x.lap.trim with
  | some t => min vl t
  | none => vl

/-- Bits of a dump entry. -/
def imgBits (n : Nat) (w lo : Nat) : BitVec n := BitVec.ofNat n (w / 2 ^ lo)

/-- An entry read back from its image; its word is decoded again (R138, R147), and a trim of the lap limits it as it limits every
younger instruction (R141, R142). A word that is no instruction raises ILLEGAL when it starts. -/
def entryFrom (x : Ctx) (w es : Nat) : VEntry :=
  let word := imgBits 32 w 96
  { instr := match decodeWord word with
      | .ok i => i
      | .error _ => .illegalWord
    addr := imgBits 64 w 256, vl := trimmed x (bitField w 177 15), es := es, rm := imgBits 3 w 159, vtype := imgBits 17 w 207
    tagd := imgBits 5 w 202, taga := imgBits 5 w 197, tagb := imgBits 5 w 192, srkey := imgBits 64 w 448
    srep := imgBits 32 w 224, mq := imgBits 64 w 384, sc0 := imgBits 64 w 320, sc1 := imgBits 64 w 32, flags := 0
    word := word, popped := false, begun := false, waits := false, bound := x.marks.map (fun m => m.obj) }

/-- The entries of a dump, the first restarted at tes; none when one cannot be read (R138, R147). -/
def readDump (s : State) (c : Nat) (l : Level) (addr tes : Nat) (first : Bool) : Nat → Option (List VEntry)
  | 0 => some []
  | n + 1 => match dumpPlace s c l .load addr with
    | none => none
    | some p =>
      let w := bytesNat (match l with
        | .h | .m => placeBytes s p 64
        | _ => ctxBytes s c addr p 64)
      let e := entryFrom (ctxAt s c) w (if first then tes else bitField w 162 15)
      (readDump s c l (addr + 64) tes false n).map (fun r => e :: r)

/-- The reads of a dump leave their leaves and their bytes behind, and meet a poisoned sector if there is one (R272, R326,
R339). -/
def touchDump (s : State) (c : Nat) (l : Level) (addr : Nat) : Nat → State × Option (Nat × Place × SectorFinding)
  | 0 => (s, none)
  | n + 1 => match dumpPlace s c l .load addr with
    | none => (s, none)
    | some p =>
      let a := dumpAgent s c l
      let s := charge (if l = .k then noteLeaf s a addr else s) a p 64
      match readFinding s p with
      | some f => if f = .uncorrectable ∨ f = .tagFails then (recordSector s a addr p f, some (addr, p, f))
                  else touchDump s c l (addr + 64) n
      | none => touchDump s c l (addr + 64) n

/-- The denial that the reading of a dump has met leaves its record (R138, R324). -/
def noteUnread (s : State) (c : Nat) (l : Level) (addr : Nat) : Nat → State
  | 0 => s
  | n + 1 => match dumpPlace s c l .load addr with
    | none => noteDumpDenial s c l .load addr
    | some _ => noteUnread s c l (addr + 64) n

/-- The entries of a dump of which some lie in the domain, from the words that were read from it one by one (R138, R361). -/
def backEntries (x : Ctx) (tes : Nat) : Nat → List Word → List VEntry
  | 0, _ => []
  | n + 1, ws =>
    let w := (ws.take 8).reverse.foldl (fun a v => a * 2 ^ 64 + v.toNat) 0
    let es := if ws.length = x.readBack.length then tes else bitField w 162 15
    entryFrom x w es :: backEntries x tes n (ws.drop 8)

/-- What an ERET has of the next word of such a dump: it waits for the word, reads it, or meets a fault (R138). -/
def readWordBack (s : State) (c : Nat) (l : Level) (va : Nat) : State :=
  let keep (s : State) (bs : List Byte) : State :=
    onCtx s c (fun x => { x with readBack := put x.readBack va (BitVec.ofNat 64 (bytesNat bs)) })
  if dumpAway s c l va then
    match askDomain s c .dump va 8 .load with
    | (s, none) => dumpWait s c
    | (s, some (.data bs)) => keep s (mergeBytes (ctxAt s c).lap.buf va bs)
    | (s, some .poisoned) =>
      consumePoison s c 0 va { key := va, pa := none, far := false, dev := false, nsp := false, raw := false } .uncorrectable
    | (s, some _) => doubleFault s c l va 0
  else match dumpPlace s c l .load va with
    | some p => keep s (ctxBytes s c va p 8)
    | none => doubleFault (noteDumpDenial s c l .load va) c l va 0

/-- ERET at level T (R147, R159): the dumped entries are reissued, the pc and the level restored; tstat.step suppresses the
watchpoint of the first instruction resumed (R144). -/
def resume (s : State) (c : Nat) (tr : TrapRegs) (pl : Level) (es : List VEntry) : State :=
  onCtx s c (fun x =>
    { x with
      vq := x.vq ++ es, pc := tr.pc, level := pl, inHandler := false, waitsData := false, dumping := false, readBack := []
      stepOver := if flagAt tr.stat 7 then some { level := x.level, elem := tr.es.toNat } else none
      csr := { x.csr with es := if es.isEmpty then tr.es.toNat else x.csr.es, retired := x.csr.retired + 1 } })

/-- ERET (R147): its checks, the reading of the dump, and the resumption. -/
def returnFrom (s : State) (c : Nat) : State :=
  let x := ctxAt s c
  let tr := x.trap x.level
  let pl := Level.ofNum (field tr.stat 0 2)
  let nq := field tr.stat 16 8
  let at_ := tr.dump.toNat
  if x.level.num < pl.num ∨ (x.level = .h ∧ pl = .m) then takeWord s c cPriv .eret
  else if 40 < nq then takeFront s c cParam (BitVec.ofNat 64 nq)
  else if dumpBusy s c x.level at_ nq then dumpWait s c
  else if (span 0 nq).any (fun k => dumpAway s c x.level (at_ + 64 * k)) then
    if x.readBack.length < 8 * nq then readWordBack s c x.level (at_ + 8 * x.readBack.length)
    else resume s c tr pl (backEntries x tr.es.toNat nq (x.readBack.map Prod.snd))
  else match readDump s c x.level at_ tr.es.toNat true nq, touchDump s c x.level at_ nq with
    | none, _ => doubleFault (noteUnread s c x.level at_ nq) c x.level at_ 0
    | some _, (s, some (va, p, f)) => consumePoison s c 0 va p f
    | some es, (s, none) => resume s c tr pl es

end Sys2Proof.Machine
end

