-- ==== Sys2Proof/Machine/VectorMemory.lean ====
section
/-! DEFINITION. The vector memory instructions, element by element (R141–R144, R182–R186, R306), load-stream fills (R167,
R189), and SBIND and SUNBIND (R187, R190). -/

namespace Sys2Proof.Machine

/-- How an instruction of the vector queue ends: done with its flags; a fault of an element, with its code and value;
not yet, with what it has done so far; or its lap rewound or killed. -/
inductive VOut where
  | done (s : State) (flags : Flags)
  | fault (s : State) (code : Nat) (val : Word) (elem : Nat)
  | wait (s : State)
  | gone (s : State)

/-- The oldest instruction in execution of a context, changed: what it has done stays with it until it retires. -/
def onHead (s : State) (c : Nat) (f : VEntry → VEntry) : State :=
  onCtx s c (fun x => { x with vx := match x.vx with
    | e :: r => f e :: r
    | [] => [] })

/-- An instruction goes on at element i later (R145, R306); `fresh` says that i is its first active element, so that it has done
nothing yet (R141). -/
def progress (s : State) (c i : Nat) (fresh : Bool) : State :=
  onHead s c (fun e => { e with es := i, begun := e.begun || !fresh, waits := true })

/-- A hit at an element does not stop the first instruction that a one-shot step-over resumes (R144). -/
def elemQuiet (x : Ctx) (i : Nat) : Bool := match x.stepOver with
  | some o => o.elem == i
  | none => false

/-- The address of element i: unit, strided or indexed (R183). -/
def unitAddr (w : Nat) (base : Word) (i : Nat) : Nat :=
  if w = 4 then (base.toNat + i / 2) % 2 ^ 64 else (base.toNat + i * (w / 8)) % 2 ^ 64
def stridedAddr (base stride : Word) (i : Nat) : Nat := (base + BitVec.ofNat 64 i * stride).toNat
def indexedAddr (x : Ctx) (e : VEntry) (ix : VNum) (i : Nat) : Nat :=
  (BitVec.ofInt 64 ((e.sc0.toNat : Int) + (regSrc x ix e.tb).int i)).toNat

/-- The active elements with their addresses. -/
def addresses (x : Ctx) (e : VEntry) (mk : Bool) (addr : Nat → Nat) : List (Nat × Nat) :=
  (activeAt x e mk).map (fun i => (i, addr i))

/-- An element stalls on a watermark bound when the instruction was decoded: a byte of it lies in [base + mark,
base + len) (R306). -/
def stalls (x : Ctx) (bound : List Word) (va n : Nat) : Bool :=
  x.marks.any (fun m => bound.contains m.obj && m.mark < m.len && m.base + m.mark < va + n && va < m.base + m.len)

/-- A trim at element j of the instruction that retires: the lap's limit falls, and it and every younger instruction of the context act
with a vl no greater, but not the older ones that it passes (R141, R142, R168). -/
def trimAt (s : State) (c j : Nat) : State :=
  onCtx s c (fun x =>
    let cut (e : VEntry) : VEntry := { e with vl := min e.vl j }
    { x with
      lap := { x.lap with trim := some (match x.lap.trim with | some t => min t j | none => j) }
      vx := match x.vx with
        | e :: r => cut e :: r.take x.passed ++ (r.drop x.passed).map cut
        | [] => []
      vq := x.vq.map cut })

/-- What one element of a load meets: its bytes, a fault or a no-speculation page with the code to raise at a first
element, a delay, or the end of the lap's run. -/
inductive Elem where
  | got (s : State) (bs : List Byte)
  | bad (s : State) (code : Nat)
  | nospec (s : State)
  | wait (s : State)
  | gone (s : State)

/-- A place in no memory of this part, for the record of poisoned data from the domain (R363). -/
def domainPlace (va : Nat) : Place := { key := va, pa := none, far := false, dev := false, nsp := false, raw := false }

/-- One element of a vector load (R184, R306). -/
def loadElem (s : State) (c elem va n : Nat) (bound : List Word) (quiet dev : Bool) : Elem :=
  let a := vectorAgent s c
  if stalls (ctxAt s c) bound va n then .wait s
  else match reach s c a .load va n n true quiet with
    | .deny e => .bad (noteDenial s a e) e.code
    | .wait => .wait s
    | .domain => match askDomain s c .vector va n .load with
      | (s, none) => .wait s
      | (s, some (.data bs)) => .got s (mergeBytes (ctxAt s c).lap.buf va bs)
      | (s, some .vpage) => .bad s cVpage
      | (s, some .access) => .bad s cAccess
      | (s, some _) => .gone (consumePoison s c elem va (domainPlace va) .uncorrectable)
    | .ok p =>
      if p.nsp then .nospec s
      else match takeBytes s c elem a va (if dev then { p with dev := true } else p) n with
        | .done s bs => .got s bs
        | .fault s k => .bad s k
        | .wait s => .wait s
        | .gone s => .gone s

/-- The same element where it is the first of its load and a no-speculation page does not hold it back (R141). -/
def loadFirst (s : State) (c elem va n : Nat) (bound : List Word) (quiet : Bool) : Elem :=
  match loadElem s c elem va n bound quiet false with
  | .nospec s =>
    let a := vectorAgent s c
    match reach s c a .load va n n true quiet with
    | .ok p => match takeBytes s c elem a va p n with
      | .done s bs => .got s bs
      | .fault s k => .bad s k
      | .wait s => .wait s
      | .gone s => .gone s
    | _ => .bad s cAccess
  | r => r

/-- A scale that a load reads from memory and whose check fails is read as 0xFF, which decodes as NaN, and leaves its record; one that
the lap store buffer holds carries a new check (R58, R59; log 74). -/
def checkScale (s : State) (c elem va : Nat) (scale : Bool) (bs : List Byte) : State × List Byte :=
  if s.pkg.badScales.isEmpty || !scale || (find? (ctxAt s c).lap.buf va).any (fun m => m.1 == 0xFF) then (s, bs)
  else
    let a := vectorAgent s c
    match decide s a .load va with
    | .ok p => if s.pkg.badScales.contains p.key then (recordScale s a va elem p, [0xFF]) else (s, bs)
    | .error _ => (s, bs)

/-- How the elements of a load end: all loaded, or up to a trim; the number counts the elements that the instruction
then has (R141). -/
inductive Loaded where
  | upTo (s : State) (n : Nat)
  | fault (s : State) (code : Nat) (va elem : Nat)
  | wait (s : State)
  | gone (s : State)

/-- The elements of a vector load in ascending order (R184): `first` is the element whose fault is raised, and `put`
writes an element's bytes into its register. -/
def loadElems (s : State) (c n vl : Nat) (e : VEntry) (first : Option Nat) (put : Ctx → Nat → List Byte → Ctx) :
    List (Nat × Nat) → Loaded
  | [] => .upTo s vl
  | (i, va) :: rest =>
    let quiet := elemQuiet (ctxAt s c) i
    let one := if first = some i then loadFirst s c i va n e.bound quiet else loadElem s c i va n e.bound quiet false
    match one with
    | .got s bs =>
      let r := checkScale s c i va (e.td == tK8) bs
      loadElems (onCtx r.1 c (fun x => put x i r.2)) c n vl e first put rest
    | .bad s code =>
      if code = cWatch ∨ first = some i then .fault s code va i else .upTo (trimAt s c i) i
    | .nospec s => .upTo (trimAt s c i) i
    | .wait s => .wait (progress s c i (first == some i))
    | .gone s => .gone s

/-- The element of a load whose fault is raised: the lowest active one of the whole instruction (R141). -/
def firstOf (e : VEntry) (l : List (Nat × Nat)) : Option Nat :=
  if e.begun then none else (l.head?).map (fun p => p.1)

/-- VLD in each mode: the elements, then the tail from the number that the instruction has (R184). -/
def vectorLoad (t : VNum) (mk : Bool) (addr : Ctx → VEntry → Nat → Nat) (s : State) (c : Nat) (e : VEntry) : VOut :=
  let x := ctxAt s c
  let w := tagWidth e.td
  let as := addresses x e mk (addr x e)
  match loadElems s c (max 1 (w / 8)) e.vl e (firstOf e as)
      (fun x i bs => setElem x t.toNat w i (elemOf w i bs)) as with
  | .upTo s n => .done (onCtx s c (fun x => tailFrom x e.vtype t.toNat e.td n)) 0
  | .fault s code va i => .fault s code (BitVec.ofNat 64 va) i
  | .wait s => .wait s
  | .gone s => .gone s

/-- MLD (R186). -/
def maskLoad (t : MNum) (mk : Bool) (s : State) (c : Nat) (e : VEntry) : VOut :=
  let x := ctxAt s c
  let as := addresses x e mk (fun i => (e.sc0.toNat + i / 8) % 2 ^ 64)
  match loadElems s c 1 e.vl e (firstOf e as)
      (fun x i bs => setMaskBit x t.toNat i ((bytesNat bs).testBit (i % 8))) as with
  | .upTo s n => .done (onCtx s c (fun x => maskTail x e.vtype t.toNat n)) 0
  | .fault s code va i => .fault s code (BitVec.ofNat 64 va) i
  | .wait s => .wait s
  | .gone s => .gone s

/-- One element of a vector store: masked bytes at an address (R143, R184); a store to the domain waits for its
acknowledgement unless the lap buffers it. -/
def storeElem (s : State) (c va n : Nat) (ms : List MaskedByte) (quiet : Bool) : Elem :=
  let a := vectorAgent s c
  match reach s c a .store va n n true quiet with
  | .deny e => .bad (noteDenial s a e) e.code
  | .wait => .wait s
  | .domain =>
    if (ctxAt s c).lap.buffering then
      match intoBuffer s c va ms with
      | some s => .got s []
      | none => match breakLap s c with
        | (s, true) => .wait s
        | (s, false) => .gone s
    else match askDomain s c .vector va n (storeKind ms) with
      | (s, none) => .wait s
      | (s, some .vpage) => .bad s cVpage
      | (s, some .access) => .bad s cAccess
      | (s, some _) => .got (onLap s c (fun l => { l with buf := supersede l.buf va ms })) []
  | .ok p => match giveBytes s c a va p ms with
    | .done s _ => .got s []
    | .fault s k => .bad s k
    | .wait s => .wait s
    | .gone s => .gone s

/-- The elements of a vector store in ascending order (R143, R184); `fresh` says that none has been stored yet. -/
def storeElems (s : State) (c n : Nat) (e : VEntry) (bytes : Nat → List MaskedByte) (fresh : Bool) :
    List (Nat × Nat) → VOut
  | [] => .done s 0
  | (i, va) :: rest =>
    match storeElem s c va n (bytes i) (elemQuiet (ctxAt s c) i) with
    | .got s _ => storeElems s c n e bytes false rest
    | .bad s code => .fault s code (BitVec.ofNat 64 va) i
    | .nospec s => .wait (progress s c i fresh)
    | .wait s => .wait (progress s c i fresh)
    | .gone s => .gone s

/-- VST in each mode (R184). -/
def vectorStore (t : VNum) (mk : Bool) (addr : Ctx → VEntry → Nat → Nat) (s : State) (c : Nat) (e : VEntry) : VOut :=
  let x := ctxAt s c
  let w := tagWidth e.td
  storeElems s c (max 1 (w / 8)) e (fun i => elemBytes w i (elem x t.toNat w i)) true
    (addresses x e mk (addr x e))

/-- MST: the bits of active positions, each byte merged (R186). -/
def maskStore (t : MNum) (mk : Bool) (s : State) (c : Nat) (e : VEntry) : VOut :=
  let x := ctxAt s c
  let bit (i : Nat) : MaskedByte :=
    (BitVec.ofNat 8 (2 ^ (i % 8)), if (x.m t.toNat).getLsbD i then BitVec.ofNat 8 (2 ^ (i % 8)) else 0)
  storeElems s c 1 e (fun i => [bit i]) true (addresses x e mk (fun i => (e.sc0.toNat + i / 8) % 2 ^ 64))

/-- An insertion into a list that ascends by a key. -/
def insertBy (key : Nat → Nat) (p : Nat × Nat) : List (Nat × Nat) → List (Nat × Nat)
  | [] => [p]
  | q :: r => if key p.1 ≤ key q.1 then p :: q :: r else q :: insertBy key p r

/-- A list in ascending order of a key. -/
def sortBy (key : Nat → Nat) : List (Nat × Nat) → List (Nat × Nat)
  | [] => []
  | p :: r => insertBy key p (sortBy key r)

/-- The elements of VAMO that meet no condition, in ascending order, and the first that meets one (R140, R185). -/
def amoReach (s : State) (c n : Nat) (e : VEntry) (remote : Bool) :
    List (Nat × Nat) → List (Nat × Nat) × Option (Nat × Nat × Reach)
  | [] => ([], none)
  | (i, va) :: r =>
    match reach s c (vectorAgent s c) .atomic va n n remote (elemQuiet (ctxAt s c) i) with
    | .ok _ | .domain =>
      let t := amoReach s c n e remote r
      ((i, va) :: t.1, t.2)
    | d => ([], some (i, va, d))

/-- The elements of VAMO performed one after another; `op` gives the new value from the old one and the element's data,
and each element's old value goes to its register (R185). -/
def amoElems (s : State) (c n t : Nat) (op : Nat → Nat → Nat) (kind : Option (Nat → DomainKind)) (data : Nat → Nat) :
    List (Nat × Nat) → Elem
  | [] => .got s []
  | (i, va) :: rest =>
    let a := vectorAgent s c
    let keep (s : State) (old : Nat) : State := onCtx s c (fun x => setElem x t (8 * n) i old)
    match reach s c a .atomic va n n kind.isSome true with
    | .deny d => .bad s d.code
    | .wait => .wait (progress s c i false)
    | .domain => match askDomain s c .vector va n (match kind with | some k => k (data i) | none => .load) with
      | (s, none) => .wait (progress s c i false)
      | (s, some (.data bs)) => amoElems (keep s (bytesNat bs)) c n t op kind data rest
      | (s, some .vpage) => .bad (progress s c i false) cVpage
      | (s, some .access) => .bad (progress s c i false) cAccess
      | (s, some _) => .gone (consumePoison s c i va (domainPlace va) .uncorrectable)
    | .ok p => match modifyBytes s c i a va p n (fun old => op old (data i)) with
      | .done s old => amoElems (keep s old) c n t op kind data rest
      | .fault s k => .bad s k
      | .wait s => .wait s
      | .gone s => .gone s

/-- Whether an address lies in the domain window. -/
def inDomain (va : Nat) : Bool := domainBase ≤ va && va < domainEnd

/-- An element of a vector atomic has its place in the order: device-class accesses ascend (R174), and so do those that wait for
the domain. -/
def ordered (s : State) (c n : Nat) (va : Nat) : Bool :=
  inDomain va || match reach s c (vectorAgent s c) .atomic va n n false true with
    | .ok p => p.dev
    | _ => false

/-- VAMO (R185): the elements below the first that meets a condition are applied, in a free order where none of them must
ascend (log 7), and then that condition is raised; one that meets it at its first element does nothing before (R7, R140). -/
def vectorAmo (t ix : VNum) (mk : Bool) (op : Nat → Nat → Nat) (kind : Option (Nat → DomainKind))
    (s : State) (c : Nat) (e : VEntry) : VOut :=
  let x := ctxAt s c
  let w := tagWidth e.td
  let n := w / 8
  let data := fun i => elem x t.toNat w i
  let (good, bad) := amoReach s c n e kind.isSome (addresses x e mk (indexedAddr x e ix))
  match (if good.isEmpty && bad.isSome then (s, true) else breakLap s c) with
  | (s, false) => .gone s
  | (s, true) =>
    let order := if good.any (fun p => ordered s c n p.2) then good else sortBy (Config.vamoKey s.steps) good
    match amoElems s c n t.toNat op kind data order with
    | .got s _ => match bad with
      | none => .done (onCtx s c (fun x => tailFrom x e.vtype t.toNat e.td e.vl)) 0
      | some (i, va, .deny d) => .fault (noteDenial s (vectorAgent s c) d) d.code (BitVec.ofNat 64 va) i
      | some (i, _, _) => .wait (progress s c i good.isEmpty)
    | .bad s code =>
      let i := match (ctxAt s c).vx with | h :: _ => h.es | [] => e.es
      .fault s code (BitVec.ofNat 64 (indexedAddr x e ix i)) i
    | .nospec s => .wait s
    | .wait s => .wait s
    | .gone s => .gone s

/-- The new value of an atomic on n bytes by its function (R178, R185). -/
def amoAddOp (n old v : Nat) : Nat := (old + v) % 2 ^ (8 * n)
def amoMinOp (n : Nat) (sg : Bool) (old v : Nat) : Nat :=
  if sg then (if signed (8 * n) old ≤ signed (8 * n) v then old else v) else min old v
def amoMaxOp (n : Nat) (sg : Bool) (old v : Nat) : Nat :=
  if sg then (if signed (8 * n) old ≤ signed (8 * n) v then v else old) else max old v

/-! Streams -/

/-- The elements of a load-stream entry filled in order from one on (R167, R188, R189): elements at and above the count
read 0; a fault, a stall or poisoned data leaves the entry unfinished, with the code (0 for a delay), the address and
the element at which the fill goes on. Device-class memory is read only on demand of an instruction that waits to pop (R174,
R189). -/
def fillElems (s : State) (c r : Nat) (st : Stream) (bound : List Word) (demand : Bool) (en : StreamEntry) :
    List Nat → State × StreamEntry
  | [] => (s, { en with fault := none })
  | i :: rest =>
    let k := en.first + i
    if st.count ≤ k then fillElems s c r st bound demand { en with from_ := i + 1 } rest
    else
      let va := st.addr k
      let a := vectorAgent s c
      let halt (s : State) (code : Nat) : State × StreamEntry :=
        (s, { en with from_ := i, fault := some (code, BitVec.ofNat 64 va, i) })
      let keep (bs : List Byte) : StreamEntry :=
        { en with from_ := i + 1, bits := setField en.bits (i * st.width) st.width (elemOf st.width k bs) }
      if stalls (ctxAt s c) bound va st.bytes || (st.device && !demand) then halt s 0
      else match reach s c a .load va st.bytes st.bytes true false with
        | .deny d => halt (noteDenial s a d) d.code
        | .wait => halt s 0
        | .domain => match askDomain s c (.bound r) va st.bytes .load with
          | (s, none) => halt s 0
          | (s, some (.data bs)) => fillElems s c r st bound demand (keep (mergeBytes (ctxAt s c).lap.buf va bs)) rest
          | (s, some .vpage) => halt s cVpage
          | (s, some .access) => halt s cAccess
          | (s, some _) => halt s cMemue
        | .ok p =>
          let dev := p.dev || st.device
          if dev && !demand then halt s 0
          else match readFinding s p with
          | some .uncorrectable => halt s cMemue
          | some .tagFails => halt s cIntegrity
          | _ => match takeBytes s c k a va { p with dev := dev } st.bytes with
            | .done s bs =>
              let t := checkScale s c k va (st.width == 8 && ((ctxAt s c).tag r).toNat == tK8) bs
              fillElems t.1 c r st bound demand { keep t.2 with dev := en.dev || dev } rest
            | .fault s code => halt s code
            | .wait s => halt s 0
            | .gone s => halt s 0

/-- An entry whose fill starts at a stream element. -/
def StreamEntry.fresh (first : Nat) : StreamEntry :=
  { bits := 0, first := first, live := 0, from_ := 0, fault := none, dev := false }

/-- A fill of a load stream: its unfinished last entry goes on, else a new one starts when fewer than four stand there
and elements remain (R167, R189). -/
def fillStream (s : State) (c r : Nat) (bound : List Word) (demand : Bool) : State :=
  match find? (ctxAt s c).streams r with
  | none => s
  | some st =>
    if st.store then s
    else
      let store (s : State) (es : List StreamEntry) (fill : Nat) : State :=
        onCtx s c (fun x => match find? x.streams r with
          | some st => { x with streams := put x.streams r { st with entries := es, fill := fill } }
          | none => x)
      match st.entries.reverse with
      | en :: before =>
        if en.fault.isSome then
          let t := fillElems s c r st bound demand en (span en.from_ (st.strip - en.from_))
          store t.1 ((t.2 :: before).reverse) st.fill
        else if st.entries.length < 4 ∧ st.fill < st.count then
          let t := fillElems s c r st bound demand (StreamEntry.fresh st.fill) (span 0 st.strip)
          store t.1 (st.entries ++ [t.2]) (st.fill + st.strip)
        else s
      | [] =>
        if st.fill < st.count then
          let t := fillElems s c r st bound demand (StreamEntry.fresh st.fill) (span 0 st.strip)
          store t.1 [t.2] (st.fill + st.strip)
        else s

/-- A descriptor's fields (R187). A strip of 0 takes VLMAX, also where that is more than a register holds of the width; the elements
past the register are then lost (log 75). -/
def streamOf (w vlmax : Nat) : Option Stream :=
  let code := bitField w 192 3
  let strip := bitField w 208 15
  let width := 4 * 2 ^ code
  if bitField w 223 33 ≠ 0 ∨ bitField w 198 10 ≠ 0 ∨ bitField w 195 1 ≠ 0 ∨ 4 < code then none
  else if 16384 / width < strip ∨ (code = 0 ∧ bitField w 64 64 ≠ 0) then none
  else some { base := BitVec.ofNat 64 w, stride := BitVec.ofNat 64 (w / 2 ^ 64), count := bitField w 128 64
              strip := if strip = 0 then vlmax else strip, width := width, store := bitField w 196 1 == 1
              device := bitField w 197 1 == 1, pos := 0, fill := 0, entries := [] }

/-- The address at which the oldest entry of a stream has stopped (R189). -/
def headFaultAddr (x : Ctx) (r : Nat) : Word := match find? x.streams r with
  | some st => match st.entries with
    | en :: _ => match en.fault with
      | some f => f.2.1
      | none => 0
    | [] => 0
  | none => 0

/-- SUNBIND: a store stream's entries perform first (R190). -/
def unbindStream (s : State) (c : Nat) (e : VEntry) (r : Nat) : VOut :=
  match find? (ctxAt s c).streams r with
  | none => .done s 0
  | some _ => match drainStream s c r 5 with
    | .done s _ => .done (onCtx s c (fun x => x.unbind r)) 0
    | .fault s code =>
      .fault s code (headFaultAddr (ctxAt s c) r) e.es
    | .wait s => .wait s
    | .gone s => .gone s

/-- SBIND (R187). Its descriptor is its first element, which a no-speculation page does not hold back (R141). -/
def bindStream (k : BitVec 4) (s : State) (c : Nat) (e : VEntry) : VOut :=
  let r := 48 + k.toNat
  let va := e.sc0.toNat
  match loadFirst s c e.es va 32 [] (ctxAt s c).stepOver.isSome with
  | .bad s code => .fault s code e.sc0 e.es
  | .nospec s | .wait s => .wait s
  | .gone s => .gone s
  | .got s bs =>
    let bound := (ctxAt s c).streams
    match streamOf (bytesNat bs) (vlmaxOf e.vtype (ctxAt s c).groups) with
    | none => .done s 0
    | some st =>
      if (find? bound r).isNone && 8 ≤ bound.length then .done s 0
      else match unbindStream s c e r with
        | .done s _ => .done (onCtx s c (fun x => { x with streams := put x.streams r st })) 0
        | o => o

end Sys2Proof.Machine
end

