-- ==== Sys2Proof/Machine/Jobs.lean ====
section
/-! DEFINITION. Engine jobs in a cluster: their acceptance (R198, R211, R214), their start by their edges and batons (R168, R200),
their end (R201, R211, R219), and the instructions that issue them and read their status (R211, R218). -/

namespace Sys2Proof.Machine

/-- A new job on a card that an address names. -/
def newJob (k : JobKind) (card cardAt : Nat) (image : BitVec 1024) (x : Ctx) (issuer : Option Nat) : Job :=
  { id := 0, kind := k, card := card, cardAt := cardAt, image := image, issuer := issuer, launch := x.work.launch, asid := x.asid.toNat,
    part := x.actsFor, secure := x.secure, hyper := x.level == .h, state := 1, begun := false, bw := false, bp := false,
    mask := none, mDim := 0, nDim := 0, rm := 0, srkey := 0, srep := 0, reads := [], writes := [], batchD := 0, batchA := 0, batchB := 0, done := 0, flags := 0,
    code := 0, faddr := 0, retry := 0, doom := none, staged := none, rest := [], stalled := false, domWait := none,
    domGot := none }

/-- A job with its place in a cluster's list. -/
def onJob (s : State) (clu id : Nat) (f : Job → Job) : State :=
  onClu s clu (fun x => { x with jobs := x.jobs.map (fun j => if j.id = id then f j else j) })

/-- The card of a job shows what the job holds. -/
def showAt (s : State) (clu : Nat) (j : Job) (resume : Bool) : State := { s with mem := showJob s.mem clu j resume }

/-- A pending fault of a job before those of jobs accepted later (R139). -/
def pendInOrder (f : PendFault) : List PendFault → List PendFault
  | [] => [f]
  | p :: r => if p.job && f.order < p.order then f :: p :: r else p :: pendInOrder f r

/-- A fault of a job at the next pointer pair of its issuer, in the order of acceptance (R139, R198). -/
def faultIssuer (s : State) (j : Job) (code : Nat) : State := match j.issuer with
  | some c => onCtx s c (fun x =>
      if x.work.launch = j.launch ∧ x.occ ≠ .free then
        { x with pend := pendInOrder { code := code, val := BitVec.ofNat 64 j.cardVa, job := true, order := j.id } x.pend }
      else x)
  | none => s

/-- A job that has ended posts its b3 baton when there is room, and then leaves the cluster (R201, R211); a staged input
stays until the lap it is for is dispatched or killed (R203). A WFE of its issuer ends as it does (R161). -/
def postJob (s : State) (clu : Nat) (j : Job) : State :=
  let gone (s : State) : State := onClu s clu (fun x => { x with jobs := x.jobs.filter (fun k => k.id != j.id) })
  match j.issuer with
  | none => if j.staged.isSome then s else gone s
  | some c =>
    let x := ctxAt s c
    if x.occ = .free ∨ x.work.launch ≠ j.launch then gone s
    else if !j.bp then gone (if j.kind.carded then onCtx s c wakeWfe else s)
    else if batonRoom x 3 then gone (onCtx s c (fun x => wakeWfe (x.post 3)))
    else onCtx s c wakeWfe

/-- The batons that ended jobs of a cluster still owe, oldest first. -/
def postJobs (s : State) (clu : Nat) : State :=
  ((cluAt s clu).jobs.filter (fun j => 4 ≤ j.state)).foldl (fun s j => postJob s clu j) s

/-- A job that may not run ends in a state, once it has popped its baton (R168, R201). -/
def Job.cancel (j : Job) : Job := if j.bw then { j with state := 1, doom := some (6, 0, 0) } else { j with state := 6 }

/-- Jobs that a failed one leaves without their input take state 6, and those that depend on them in turn, also one that stands in
state 3; the list holds the later jobs in order (R201, R212). -/
def cancelAfter (failed : List (List Range)) : List Job → List Job
  | [] => []
  | j :: r =>
    if (j.state = 1 || j.state = 3) && j.doom.isNone && j.kind.carded && failed.any (fun w => overlaps w j.reads) then
      j.cancel :: cancelAfter (j.writes :: failed) r
    else j :: cancelAfter failed r

/-- The jobs of a list from one id on cancelled where they depend on it. -/
def cancelFrom (id : Nat) (w : List Range) : List Job → List Job
  | [] => []
  | j :: r => if j.id = id then j :: cancelAfter [w] r else j :: cancelFrom id w r

/-- The cards of a list shown, with or without their resume fields. -/
def showJobs (mem : Memory) (clu : Nat) (resume : Bool) : List Job → Memory
  | [] => mem
  | j :: r => showJobs (showJob mem clu j resume) clu resume r

/-- A job ends in state 4, 5 or 6: its card shows it, with the resume field at a fault (R209); jobs that would read what was not
written are cancelled, and batons are posted (R201, R211). -/
def finishJob (s : State) (clu : Nat) (j : Job) : State :=
  let s := onJob s clu j.id (fun _ => j)
  let old := (cluAt s clu).jobs
  let js := if j.state = 4 then old else cancelFrom j.id j.writes old
  let fallen := ((List.zip old js).filter (fun e => e.1.state != e.2.state)).map Prod.snd
  let s := onClu s clu (fun x => { x with jobs := js })
  let s := { s with mem := showJobs (showJob s.mem clu j (j.state == 5)) clu false fallen }
  postJobs s clu

/-- Poisoned data, or a second mismatch, of a job or a work item of a context's lap kill the lap where it is still resident, and end its
launch otherwise (R151, R211, R219). -/
def loseLap (s : State) (a : Agent) (c launch code faddr : Nat) : State :=
  let x := ctxAt s c
  if x.work.launch = launch ∧ x.occ ≠ .free ∧ x.occ ≠ .saved then killLap s c code faddr (spotPa s a faddr)
  else if code = cWitness then abortByHardware s a.die launch 7 0x06 code
  else abortLaunch s a.die launch 7 code

/-- A job ends in state 5 with a code that its issuer takes, or whose data kill its lap or its launch (R198, R201,
R211). -/
def failJob (s : State) (clu : Nat) (j : Job) (code faddr : Nat) : State :=
  let s := finishJob s clu { j with state := 5, code := code, faddr := faddr }
  if code = cMemue ∨ code = cIntegrity ∨ code = cWitness then
    match j.issuer with
    | some c => loseLap s (j.agent clu) c j.launch code faddr
    | none => s
  else faultIssuer s j code

/-- A launch is preempted on a cluster (R276). -/
def preemptedOn (s : State) (clu id : Nat) : Bool := match find? (dieAt s (dieOfClu clu)).launches id with
  | some l => l.preempted.contains clu
  | none => false

/-- Jobs that have been saved with their launch are to be accepted again: the launch runs on the cluster (R212). -/
def Job.waitsAgain (s : State) (clu : Nat) (j : Job) : Bool := j.state == 3 && !s.pkg.quiesced && !preemptedOn s clu j.launch

/-- The limits on accepted jobs leave room for one more of an issuer (R198). -/
def jobLimits (s : State) (clu : Nat) (c : Option Nat) : Bool :=
  let js := (cluAt s clu).jobs.filter (fun j => j.kind.carded && j.live)
  js.length < 64 && (c.isNone || (js.filter (fun j => j.issuer == c)).length < 16)

/-- A new job may be accepted: there is room for it, and every saved job of a launch that goes on has been accepted before it
(R198, R212). -/
def jobRoom (s : State) (clu : Nat) (c : Option Nat) : Bool :=
  jobLimits s clu c && !(cluAt s clu).jobs.any (Job.waitsAgain s clu)

/-- The context that issued a job still runs the lap that issued it. -/
def issuerLives (s : State) (j : Job) : Bool := match j.issuer with
  | some c => (ctxAt s c).occ != .free && (ctxAt s c).work.launch == j.launch
  | none => false

/-- A job need not wait for a baton, or one is there (R168). -/
def batonThere (s : State) (j : Job) : Bool :=
  !j.bw || match j.issuer with
    | some c => 0 < (ctxAt s c).tokens 2
    | none => false

/-- The baton of a job popped from b2 of its issuer (R168). -/
def popBaton (s : State) (j : Job) : State := match j.bw && issuerLives s j, j.issuer with
  | true, some c => onCtx s c (fun x => x.pop 2)
  | _, _ => s

/-- The jobs of a cluster that may not run leave state 1 as soon as their batons are popped (R168). -/
def dropDoomed (s : State) (clu : Nat) : State :=
  ((cluAt s clu).jobs.filter (fun j => j.doom.isSome && j.state == 1)).foldl (fun s j =>
    if batonThere s j || !issuerLives s j then
      let s := popBaton s j
      let k := { j with bw := false, doom := none }
      match j.doom with
      | some (5, code, va) => failJob s clu k code va
      | _ => finishJob s clu { k with state := 6 }
    else s) s

/-- A job that may not run from its acceptance on ends in state 5, once it has popped its baton (R168, R198). -/
def refuseJob (s : State) (clu : Nat) (j : Job) (code faddr : Nat) : State :=
  if j.bw then dropDoomed (onJob s clu j.id (fun j => { j with doom := some (5, code, faddr) })) clu
  else failJob s clu j code faddr

/-- Bytes that acceptance stores at an address, piece by piece: what stops it, with its address (R198, R214). -/
def storeSpan (s : State) (a : Agent) : List (Nat × Nat) → List Byte → State × Option EngineFault
  | [], _ => (s, none)
  | (va, n) :: r, bs => match decide s a .store va with
    | .error d => (noteDenial s a d, some (d.code, va))
    | .ok p => storeSpan (storeAt s a va p (bs.take n)) a r (bs.drop n)

/-- The mask of a sparse tile stored in extra range 0, all of it or nothing (R214). -/
def storeMask (s : State) (clu : Nat) (j : Job) : State × Option EngineFault := match j.kind, j.mask, j.extra with
  | .tmma, some m, r :: _ =>
    let n := (j.kDim + 7) / 8
    match storeSpan s (j.agent clu) (pieces r.1 (n / 4096 + 2) n) (natBytes n (m.toNat % 2 ^ j.kDim)) with
    | (t, none) => (t, none)
    | (_, some f) => match decide s (j.agent clu) .store f.2 with
      | .error d => (noteDenial s (j.agent clu) d, some f)
      | .ok _ => (s, some f)
  | _, _, _ => (s, none)

/-- A card accepted: the job stands in the cluster's list in state 1, or ends in state 5 (R198, R211, R214). -/
def acceptJob (s : State) (clu : Nat) (j : Job) (good : Bool) : State :=
  let id := (cluAt s clu).nextJob
  let j := { j with id := id }
  let s := onClu s clu (fun x => { x with jobs := x.jobs ++ [j], nextJob := id + 1 })
  let s := showAt s clu j true
  if good && j.limits s clu then
    match storeMask s clu j with
    | (s, none) => s
    | (s, some f) => refuseJob s clu j f.1 f.2
  else refuseJob s clu j cParam 0

/-- Bytes that an engine reads at an address, piece by piece, charged as they move (R214, R272). -/
def loadSpan (s : State) (a : Agent) : List (Nat × Nat) → State × Except EngineFault (List Byte)
  | [] => (s, .ok [])
  | (va, n) :: r => match decide s a .load va with
    | .error d => (noteDenial s a d, .error (d.code, va))
    | .ok p => match badSector s p va n, loadSpan (charge s a p n) a r with
      | some f, _ => (s, .error f)
      | none, (s, .error f) => (s, .error f)
      | none, (t, .ok bs) => (t, .ok (placeBytes s p n ++ bs))

/-- The kept positions of a sparse tile, as a resumed job reads them from extra range 0 (R214). -/
def loadMask (s : State) (clu : Nat) (j : Job) : State × Except EngineFault (Option VReg) := match j.kind, j.mask, j.extra with
  | .tmma, some _, r :: _ =>
    let n := (j.kDim + 7) / 8
    let t := loadSpan s (j.agent clu) (pieces r.1 (n / 4096 + 2) n)
    (t.1, t.2.map (fun bs => some (BitVec.ofNat 16384 (bytesNat bs))))
  | _, m, _ => (s, .ok m)

/-- A stopped job with what its card holds for its resumption (R197, R209). -/
def Job.resumed (j : Job) (mem : Memory) (clu : Nat) : Job :=
  if j.kind.carded then
    let w := readNat mem (padKey clu j.card + 104) 24
    let j := { j with
      srkey := BitVec.ofNat 64 (bitField w 64 64), srep := BitVec.ofNat 32 (bitField w 32 32), rm := bitField w 4 3
      mDim := if j.kind = JobKind.tmma then tileDim 0 (bitField w 0 2) else j.mDim
      nDim := if j.kind = JobKind.tmma then tileDim 0 (bitField w 2 2) else j.nDim }
    { j with reads := j.readSet clu, writes := j.writeSet clu }
  else j

/-- A stopped job accepted again: it stands after every job that has been accepted, and goes on from done (R212, R214). -/
def acceptAgain (s : State) (clu : Nat) (j : Job) : State :=
  let id := (cluAt s clu).nextJob
  let k := { j.resumed s.mem clu with id := id, state := 1, begun := false }
  let put (s : State) (k : Job) : State :=
    onClu s clu (fun x => { x with jobs := x.jobs.filter (fun i => i.id != j.id) ++ [k], nextJob := id + 1 })
  match loadMask s clu k with
  | (s, .ok m) => showAt (put s { k with mask := m }) clu k true
  | (s, .error f) => refuseJob (put s k) clu k f.1 f.2

/-- Jobs of cards and CARITH items start when their engine takes them; a refresh moves with its pass (R227, R236). -/
def JobKind.starts : JobKind → Bool
  | .crfn _ _ | .member _ => false
  | _ => true

/-- A work item that moves with a key pass stands again after every job that has been accepted (R212, R227). -/
def placeAgain (s : State) (clu : Nat) (j : Job) : State := onClu s clu (fun x =>
  { x with jobs := x.jobs.filter (fun i => i.id != j.id) ++ [{ j with id := x.nextJob, state := 1 }], nextJob := x.nextJob + 1 })

/-- The saved jobs of launches that go on are accepted again in the order in which they were accepted, as far as the limits let them
(R198, R212). -/
def acceptSaved (s : State) (clu : Nat) : Nat → State
  | 0 => s
  | n + 1 => match (cluAt s clu).jobs.find? (Job.waitsAgain s clu) with
    | none => s
    | some j =>
      if !j.kind.starts then acceptSaved (placeAgain s clu j) clu n
      else if j.kind.carded && !jobLimits s clu j.issuer then s
      else acceptSaved (acceptAgain s clu j) clu n

/-- A job may leave state 1: its edges are met and its b2 baton is there (R168, R200). -/
def Job.ready (s : State) (before : List Job) (j : Job) : Bool :=
  j.state == 1 && j.doom.isNone && !before.any (fun e => jobBefore e j) && batonThere s j

/-- The oldest job of an engine that may start (R200). -/
def nextJobOf (s : State) (eng : Engine) (before : List Job) : List Job → Option Job
  | [] => none
  | j :: r =>
    if j.kind.starts && j.kind.engine == eng && j.ready s before then some j else nextJobOf s eng (before ++ [j]) r

/-- Whether an engine runs a job. -/
def engineBusy (s : State) (clu : Nat) (eng : Engine) : Bool :=
  (cluAt s clu).jobs.any (fun j => j.kind.engine == eng && j.state == 2)

/-- A job starts: it pops its baton and takes state 2 (R200, R211). -/
def beginJob (s : State) (clu : Nat) (j : Job) : State :=
  let s := popBaton s j
  let j := { j with state := 2, begun := true, bw := false }
  showAt (onJob s clu j.id (fun _ => j)) clu j false

/-- A running job runs to its end, or as far as its accesses perform (R211, R213, R216, R217). -/
def endJob (s : State) (clu : Nat) (j : Job) : State :=
  match runJob s clu j (j.units - j.done) with
  | (s, j, .done) => dropDoomed (finishJob s clu { j with state := 4 }) clu
  | (s, j, .wait) => onJob s clu j.id (fun _ => j)
  | (s, j, .fault f) => dropDoomed (failJob s clu j f.1 f.2) clu

/-- The number of output elements among which the witness unit chooses. -/
def Job.candidates (j : Job) : Nat := match j.kind with
  | .tmma | .tcvt => j.mDim * j.nDim
  | _ => 0

/-- The contexts of a core that have an instruction of the vector unit in execution in a world, or hold a run there. -/
def pipeHolds (s : State) (k : Nat) (secure : Bool) : Bool :=
  (ctxsOfCore k).any (fun c => (ctxAt s c).secure == secure &&
    ((ctxAt s c).held.isSome || (ctxAt s c).vx.any (fun e => !accessEngine e.instr)))

/-- The cores of a cluster into which its sequencer issues its steps: those in service (R154, R163). -/
def stepCores (s : State) (clu : Nat) : List Nat := (span (clu * 4) 4).filter (fun k => 0 < (coreAt s k).groups)

/-- The sequencer has won a start on every core, in a world; while units leave nothing for their own events, it has when the
pipelines let that world in (R164, R166, log 3). -/
def sequencerMay (s : State) (clu : Nat) (secure : Bool) : Bool :=
  (stepCores s clu).all (fun k =>
    if s.defer then (coreAt s k).pipeSecure == secure && (coreAt s k).seqWon
    else (coreAt s k).pipeSecure == secure || !pipeHolds s k (coreAt s k).pipeSecure)

/-- The starts that a step of the sequencer takes (R164, R166). -/
def takeStarts (s : State) (clu : Nat) (secure : Bool) : State :=
  (stepCores s clu).foldl (fun s k => onCore s k (fun x =>
    { x with
      pipeSecure := secure, seqWon := false, lastIssuer := 4
      lastStart := if s.defer then x.lastStart else (dieAt s (dieOfClu clu)).cycle })) s

/-- The witness registers of the cores of a cluster advance for the instructions of its sequencer, one on each core (R171, log 51). -/
def checkSequencer (s : State) (clu : Nat) : State :=
  (span (clu * 4) 4).foldl (fun s k => onCore s k (fun x => { x with witness := stepWitness x.witness })) s

/-- The witness unit of an engine advances for a job that it has checked, once for each; the cores of the cluster check the items of
the sequencer (R171, R219). -/
def noteJob (s : State) (clu : Nat) (j : Job) : State :=
  let s := if j.candidates = 0 ∨ j.retry ≠ 0 then s else onClu s clu (fun x => { x with witness := stepWitness x.witness })
  if j.kind.engine = .sequencer then checkSequencer s clu else s

/-- A job ends, or its witness finds a mismatch; an item of the sequencer waits for a start of its world, which it takes: the
first re-executes it, a second ends it in state 5 with code 0x12; the unit advances once for each checked job, at its end, however
it ends (R219, log 76). The work of an item of the sequencer is checked by the cores, and one that mismatches is executed again
(R171). -/
def closeJob (s : State) (clu : Nat) (j : Job) (mismatch : Bool) : State :=
  let sequenced := j.kind.engine == .sequencer
  if sequenced && !sequencerMay s clu j.secure then s
  else
  let n := j.candidates
  let s := noteJob (if sequenced then takeStarts s clu j.secure else s) clu j
  if mismatch && n != 0 then
    let at_ := (cluAt s clu).witness.toNat % n
    let s := record s (dieOfClu clu)
      { kind := 0x10, code := cWitness, rung := 2, part := j.part, ctx := (j.agent clu).ctx,
        info := at_ / j.nDim + at_ % j.nDim * 2 ^ 16, va := j.cardVa, pa := 0 }
    if j.retry = 0 then onJob s clu j.id (fun j => { j with retry := 1 })
    else dropDoomed (failJob s clu j cWitness 0) clu
  else if mismatch && sequenced then s
  else endJob s clu j

/-- Jobs of a cluster that can start run to their end, while units leave nothing for their own events (log 3); an item of the sequencer
waits for a start of its world (R166). -/
def pumpEngine (s : State) (clu : Nat) (eng : Engine) : State :=
  if engineBusy s clu eng || (eng == .sequencer && (match nextJobOf s eng [] (cluAt s clu).jobs with
    | some j => !sequencerMay s clu j.secure
    | none => true)) then s
  else match nextJobOf s eng [] (cluAt s clu).jobs with
    | none => s
    | some j =>
      let s := beginJob s clu j
      closeJob s clu { j with state := 2, begun := true, bw := false } false

def pumpJobs (s : State) (clu : Nat) : Nat → State
  | 0 => s
  | n + 1 =>
    let t := acceptSaved s clu (cluAt s clu).jobs.length
    let t := pumpEngine (pumpEngine (pumpEngine t clu .tensor) clu .copy) clu .sequencer
    if (cluAt t clu).jobs = (cluAt s clu).jobs then t else pumpJobs t clu n

/-- The jobs of a cluster go on as far as they can, unless units defer their work; those that may not run leave, and those of launches
that go on are accepted again (R168, R212). -/
def goJobs (s : State) (clu : Nat) : State :=
  let s := acceptSaved (dropDoomed s clu) clu (cluAt s clu).jobs.length
  if s.defer then s else pumpJobs s clu ((cluAt s clu).jobs.length + 1)

/-- A job of a launch that is preempted on its cluster: a running one stops at the end of its unit, once its accesses perform, in
state 3 with its resume field written, and one that has not started is saved as it stands: its baton is still to be popped, and its
card goes on showing state 1 (R168, R197, R212). -/
def holdJob (s : State) (clu : Nat) (j : Job) : State :=
  if j.state = 1 ∧ j.doom.isNone then onJob s clu j.id (fun j => { j with state := 3 })
  else if !j.kind.starts then s
  else if j.state = 2 then match stopRun s clu j with
    | (s, j, .done) =>
      if j.units ≤ j.done then dropDoomed (finishJob (noteJob s clu j) clu { j with state := 4 }) clu
      else
        let j := { j with state := 3 }
        showAt (onJob s clu j.id (fun _ => j)) clu j true
    | (s, j, .wait) => onJob s clu j.id (fun _ => j)
    | (s, j, .fault f) => dropDoomed (failJob s clu j f.1 f.2) clu
  else s

/-- The running jobs of a cluster whose accesses waited go on, those of a preempted launch or a quiesced part to their stop (R212, R340,
R361, R371). -/
def wakeJobs (s : State) (clu : Nat) : State :=
  goJobs (((cluAt s clu).jobs.filter (fun j => j.state == 2 && j.stalled && j.domWait.isNone)).foldl (fun s j =>
    if s.pkg.quiesced || preemptedOn s clu j.launch then holdJob s clu j else endJob s clu j) s) clu

/-- The offset of a card in the own scratchpad, else the fault of its address (R198, R218). -/
def cardOffset (s : State) (c va : Nat) : Except Nat Nat :=
  if va % 128 ≠ 0 then .error cAlign
  else match locate s (vectorAgent s c) va with
    | .pad clu off => if clu = cluOf c ∧ off < poolBase then .ok off else .error cAccess
    | _ => .error cAccess

/-- The job that a word asks for by the card at an offset (R198, R211). -/
def cardJob (s : State) (c : Nat) (k : JobKind) (off : Nat) (e : VEntry) (mask : Option VReg) (bw bp : Bool) : Job :=
  let clu := cluOf c
  let w := readNat s.mem (padKey clu off) 128
  { newJob k off e.sc0.toNat (BitVec.ofNat 1024 w) (ctxAt s c) (some c) with
    bw := bw, bp := bp, mask := mask, srkey := e.srkey, srep := e.srep }.resolve clu e.vtype e.rm.toNat

/-- TMMA, TCVT and TCOPY when they start (R149, R200, R211): the context's appended stores perform, in the domain too, and its buffer
commits first; what its load streams have read ahead is read again, after the job where R200 says so. -/
def issueJob (k : JobKind) (mask : Option VReg) (bw bp : Bool) (s : State) (c : Nat) (e : VEntry) : VOut :=
  let va := e.sc0.toNat
  match cardOffset s c va with
  | .error code => .fault s code e.sc0 e.es
  | .ok off =>
    let clu := cluOf c
    if !jobRoom s clu (some c) then .wait s
    else match drainAll s c (boundRegs (ctxAt s c)) with
    | .fault s _ => .wait s
    | .wait s => .wait s
    | .gone s => .gone s
    | .done s _ => match breakLap s c with
      | (s, false) => .gone s
      | (s, true) =>
        if domainPending s c then .wait s
        else
          let j := cardJob s c k off e mask bw bp
          .done (goJobs (acceptJob (onCtx s c Ctx.discardLoads) clu j (j.f 0 8 == k.op && cardZeros j.image.toNat)) clu) 0

/-- The status word that JSTAT reads: the live one of an accepted job, else the card's (R218). -/
def statusAt (s : State) (clu off : Nat) : Word :=
  match ((cluAt s clu).jobs.filter (fun j => j.kind.carded && j.card == off && j.state < 4)).getLast? with
  | some j => BitVec.ofNat 64 (jobWord j)
  | none => readWord s.mem (padKey clu off + 96)

/-- JSTAT: an acquire of what a retired job has written (R218, R281). -/
def readStatus (d : XReg) (s : State) (c : Nat) (e : VEntry) : VOut :=
  match cardOffset s c e.sc0.toNat with
  | .error code => .fault s code e.sc0 e.es
  | .ok off => .done (onCtx s c (fun x => x.discardLoads.setX d (statusAt s (cluOf c) off))) 0

end Sys2Proof.Machine
end

