-- ==== Sys2Proof/Machine/Queue.lean ====
section
/-! DEFINITION. The vector queue of a context (R163–R168, R188, R189, R191): what each of its instructions does when it
retires, when an instruction may start, its start and its retirement, and the issue of an instruction by the front. -/

namespace Sys2Proof.Machine

/-- An instruction that computes on the registers of its context. -/
def onRegs (f : Effect) (s : State) (c : Nat) (e : VEntry) : VOut :=
  let r := f (ctxAt s c) e
  .done (setCtx s c r.1) r.2

/-- EHIST read and clear: banks 8 to 15 are the cluster's 0 to 7 (R130). -/
def readHist (d : VNum) (bank : Nat) (s : State) (c : Nat) (_e : VEntry) : VOut :=
  let x := ctxAt s c
  .done (setCtx s c (if bank < 8 then readBank x d x.regs.hb bank else readBank x d (cluAt s (cluOf c)).hist (bank - 8))) 0

def clearHist (bank : Nat) (s : State) (c : Nat) (_e : VEntry) : VOut :=
  .done (if bank < 8 then onCtx s c (fun x => { x with regs := { x.regs with hb := clearBank x.regs.hb bank } })
    else onClu s (cluOf c) (fun k => { k with hist := clearBank k.hist (bank - 8) })) 0

/-- Nothing but what its batons do. -/
def onlyBatons (s : State) (_c : Nat) (_e : VEntry) : VOut := .done s 0

/-- The address of element i by mode (R183). -/
def byUnit (_x : Ctx) (e : VEntry) (i : Nat) : Nat := unitAddr (tagWidth e.td) e.sc0 i
def byStride (_x : Ctx) (e : VEntry) (i : Nat) : Nat := stridedAddr e.sc0 e.sc1 i
def byIndex (ix : VNum) (x : Ctx) (e : VEntry) (i : Nat) : Nat := indexedAddr x e ix i

/-- Whether an atomic's elements compare as signed values. -/
def amoSigned (e : VEntry) : Bool := isSigned e.td
def amoBytes (e : VEntry) : Nat := tagWidth e.td / 8

/-- VAMO by its function; add, min and max may be sent to the domain (R179, R185). -/
def amoRun (t ix : VNum) (mk : Bool) (op : VEntry → Nat → Nat → Nat) (kind : Option (VEntry → Nat → DomainKind))
    (s : State) (c : Nat) (e : VEntry) : VOut :=
  vectorAmo t ix mk (op e) (kind.map (fun k => k e)) s c e

/-- An instruction that cannot be executed raises its fault at the entry's address (R147); a word of an edited dump entry that is a
legal instruction, but none of the vector queue, raises ILLEGAL too (log 77). -/
def badWord (code : Nat) (s : State) (_c : Nat) (e : VEntry) : VOut := .fault s code (e.word.setWidth 64) e.es

/-- What each instruction of the vector queue does (R94–R134, R182–R191, R211, R218). -/
def retireEffect : Instr → State → Nat → VEntry → VOut
  | .vadd d a b _ k => onRegs (vaddEffect d a b k)
  | .vaddSub d a b _ k => onRegs (vaddSubEffect d a b k)
  | .vaddRsub d a b _ k => onRegs (vaddRsubEffect d a b k)
  | .vaddAdds d a b _ k => onRegs (vaddAddsEffect d a b k)
  | .vaddSubs d a b _ k => onRegs (vaddSubsEffect d a b k)
  | .vaddAbsd d a b _ k => onRegs (vaddAbsdEffect d a b k)
  | .vmul d a b _ k => onRegs (vmulEffect d a b k)
  | .vmulMulh d a b _ k => onRegs (vmulMulhEffect d a b k)
  | .vmulMulhn d a b _ k => onRegs (vmulMulhnEffect d a b k)
  | .vmulDiv d a b _ k => onRegs (vmulDivEffect d a b k)
  | .vmulRem d a b _ k => onRegs (vmulRemEffect d a b k)
  | .vfma d a b _ k => onRegs (vfmaEffect d a b k)
  | .vfmaFms d a b _ k => onRegs (vfmaFmsEffect d a b k)
  | .vfmaFnma d a b _ k => onRegs (vfmaFnmaEffect d a b k)
  | .vfmaFnms d a b _ k => onRegs (vfmaFnmsEffect d a b k)
  | .vminmaxMin d a b _ k => onRegs (vminmaxMinEffect d a b k)
  | .vminmaxMax d a b _ k => onRegs (vminmaxMaxEffect d a b k)
  | .vminmaxMinnum d a b _ k => onRegs (vminmaxMinnumEffect d a b k)
  | .vminmaxMaxnum d a b _ k => onRegs (vminmaxMaxnumEffect d a b k)
  | .vlogicAnd d a b _ k => onRegs (vlogicAndEffect d a b k)
  | .vlogicOr d a b _ k => onRegs (vlogicOrEffect d a b k)
  | .vlogicXor d a b _ k => onRegs (vlogicXorEffect d a b k)
  | .vlogicAndn d a b _ k => onRegs (vlogicAndnEffect d a b k)
  | .vlogicSll d a b _ k => onRegs (vlogicSllEffect d a b k)
  | .vlogicSrl d a b _ k => onRegs (vlogicSrlEffect d a b k)
  | .vlogicSra d a b _ k => onRegs (vlogicSraEffect d a b k)
  | .vcmpEq d a b _ k => onRegs (vcmpEqEffect d a b k)
  | .vcmpNe d a b _ k => onRegs (vcmpNeEffect d a b k)
  | .vcmpLt d a b _ k => onRegs (vcmpLtEffect d a b k)
  | .vcmpLe d a b _ k => onRegs (vcmpLeEffect d a b k)
  | .vcmpGt d a b _ k => onRegs (vcmpGtEffect d a b k)
  | .vcmpGe d a b _ k => onRegs (vcmpGeEffect d a b k)
  | .vcmpUnord d a b _ k => onRegs (vcmpUnordEffect d a b k)
  | .vsel d a b _ => onRegs (vselEffect d a b)
  | .vcvt d a _ k => onRegs (vcvtEffect d a k)
  | .vcvtSat d a _ k => onRegs (vcvtSatEffect d a k)
  | .vcvtBlk d a b _ k => onRegs (vcvtBlkEffect d a b k)
  | .vcvtScale d a f _ k => onRegs (vcvtScaleEffect d a f k)
  | .vmodAddm d a b _ k => onRegs (vmodAddmEffect d a b k)
  | .vmodSubm d a b _ k => onRegs (vmodSubmEffect d a b k)
  | .vmodMulm d a b _ k => onRegs (vmodMulmEffect d a b k)
  | .vmodMacm d a b _ k => onRegs (vmodMacmEffect d a b k)
  | .vxAdd d a i sel _ k => onRegs (vxAddEffect d a i sel k)
  | .vxSub d a i sel _ k => onRegs (vxSubEffect d a i sel k)
  | .vxMul d a i sel _ k => onRegs (vxMulEffect d a i sel k)
  | .vxMin d a i sel _ k => onRegs (vxMinEffect d a i sel k)
  | .vxMax d a i sel _ k => onRegs (vxMaxEffect d a i sel k)
  | .vxAnd d a i sel _ k => onRegs (vxAndEffect d a i sel k)
  | .vxOr d a i sel _ k => onRegs (vxOrEffect d a i sel k)
  | .vxFma d a i sel _ k => onRegs (vxFmaEffect d a i sel k)
  | .vsfuExp2 d a _ k => onRegs (vsfuExp2Effect d a k)
  | .vsfuLog2 d a _ k => onRegs (vsfuLog2Effect d a k)
  | .vsfuRcp d a _ k => onRegs (vsfuRcpEffect d a k)
  | .vsfuRsq d a _ k => onRegs (vsfuRsqEffect d a k)
  | .vsfuSqrt d a _ k => onRegs (vsfuSqrtEffect d a k)
  | .vsfuRcpstep d a b _ k => onRegs (vsfuRcpstepEffect d a b k)
  | .vsfuRsqstep d a b _ k => onRegs (vsfuRsqstepEffect d a b k)
  | .vsmaxUpd d a b _ k => onRegs (vsmaxUpdEffect d a b k)
  | .vsmaxNorm d a b _ k => onRegs (vsmaxNormEffect d a b k)
  | .vredSum d a _ k => onRegs (vredSumEffect d a k)
  | .vredMin d a _ k => onRegs (vredMinEffect d a k)
  | .vredMax d a _ k => onRegs (vredMaxEffect d a k)
  | .vredAnd d a _ k => onRegs (vredAndEffect d a k)
  | .vredOr d a _ k => onRegs (vredOrEffect d a k)
  | .vredXor d a _ k => onRegs (vredXorEffect d a k)
  | .vredWsum d a b _ k => onRegs (vredWsumEffect d a b k)
  | .vslideUp d a i sel _ k => onRegs (vslideUpEffect d a i sel k)
  | .vslideDown d a i sel _ k => onRegs (vslideDownEffect d a i sel k)
  | .vslideRot d a i sel _ k => onRegs (vslideRotEffect d a i sel k)
  | .vperm d a b _ k => onRegs (vpermEffect d a b k)
  | .vcompCompress d a _ => onRegs (vcompCompressEffect d a)
  | .vcompExpand d a _ => onRegs (vcompExpandEffect d a)
  | .vcompIota d a _ k => onRegs (vcompIotaEffect d a k)
  | .vcompCidx d a _ => onRegs (vcompCidxEffect d a)
  | .vbflyH d a n => onRegs (vbflyHEffect d a n)
  | .vbflyHF d a n => onRegs (vbflyHFEffect d a n)
  | .vbflyCt d a b n => onRegs (vbflyCtEffect d a b n)
  | .vbflyGs d a b n => onRegs (vbflyGsEffect d a b n)
  | .vdecomp d a i sel _ k lvl => onRegs (vdecompEffect d a i sel k lvl)
  | .vmv d a _ k => onRegs (vmvEffect d a k)
  | .vmvBcast d i sel _ k => onRegs (vmvBcastEffect d i sel k)
  | .vmvTox x a _ => onRegs (vmvToxEffect x a)
  | .vmvFromx d i sel _ k => onRegs (vmvFromxEffect d i sel k)
  | .vmvWid d _ k => onRegs (vmvWidEffect d k)
  | .ehistAcc a bank _ k => onRegs (ehistAccEffect a bank k)
  | .ehistRead d bank _ => readHist d bank.toNat
  | .ehistClr bank _ => clearHist bank.toNat
  | .mlogAnd d a b => onRegs (mlogAndEffect d a b)
  | .mlogOr d a b => onRegs (mlogOrEffect d a b)
  | .mlogXor d a b => onRegs (mlogXorEffect d a b)
  | .mlogAndn d a b => onRegs (mlogAndnEffect d a b)
  | .mlogOrn d a b => onRegs (mlogOrnEffect d a b)
  | .mlogXnor d a b => onRegs (mlogXnorEffect d a b)
  | .mlogNot d a => onRegs (mlogNotEffect d a)
  | .mcnt x a => onRegs (mcntEffect x a)
  | .mcntFirst x a => onRegs (mcntFirstEffect x a)
  | .msetvl x a => onRegs (msetvlEffect x a)
  | .mmv d a => onRegs (mmvEffect d a)
  | .mmvSet d => onRegs (mmvSetEffect d)
  | .mmvClr d => onRegs (mmvClrEffect d)
  | .vld t _ k _ _ => vectorLoad t k byUnit
  | .vldS t _ _ k _ _ => vectorLoad t k byStride
  | .vldX t _ ix k _ _ => vectorLoad t k (byIndex ix)
  | .vst t _ k _ _ => vectorStore t k byUnit
  | .vstS t _ _ k _ _ => vectorStore t k byStride
  | .vstX t _ ix k _ _ => vectorStore t k (byIndex ix)
  | .vamoAdd t _ ix k _ _ => amoRun t ix k (fun e => amoAddOp (amoBytes e)) (some (fun _ v => .add (BitVec.ofNat 64 v)))
  | .vamoAnd t _ ix k _ _ => amoRun t ix k (fun _ => Nat.land) none
  | .vamoOr t _ ix k _ _ => amoRun t ix k (fun _ => Nat.lor) none
  | .vamoXor t _ ix k _ _ => amoRun t ix k (fun _ => Nat.xor) none
  | .vamoMin t _ ix k _ _ => amoRun t ix k (fun e => amoMinOp (amoBytes e) (amoSigned e))
      (some (fun e v => .min (BitVec.ofNat 64 v) (amoSigned e)))
  | .vamoMax t _ ix k _ _ => amoRun t ix k (fun e => amoMaxOp (amoBytes e) (amoSigned e))
      (some (fun e v => .max (BitVec.ofNat 64 v) (amoSigned e)))
  | .vamoSwap t _ ix k _ _ => amoRun t ix k (fun _ _ v => v) none
  | .mld t _ k _ _ => maskLoad t k
  | .mst t _ k _ _ => maskStore t k
  | .sbind k _ => bindStream k
  | .sunbind k => fun s c e => unbindStream s c e (48 + k.toNat)
  | .btnWait _ | .btnPost _ | .btnWaitPost _ => onlyBatons
  | .tmma _ mK bw bp => fun s c e =>
    issueJob .tmma (if mK = 15 then none else some ((ctxAt s c).m mK.toNat)) bw bp s c e
  | .tcvt _ bw bp => issueJob .tcvt none bw bp
  | .tcopy _ bw bp => issueJob .tcopy none bw bp
  | .jstat d _ => readStatus d
  | _ => badWord cIllegal

/-- An instruction that ends the buffering of its lap before it retires (R149): a post by BTN; VAMO and jobs do so
themselves. -/
def postsByBtn : Instr → Bool
  | .btnPost _ | .btnWaitPost _ => true
  | _ => false

/-- An instruction continues the run of VBFLY.H.f whose last word named register d (R126). -/
def continuesRun (d : VNum) : Instr → Bool
  | .vbflyHF _ a _ | .vcvt _ a _ _ | .vcvtSat _ a _ _ | .vcvtBlk _ a _ _ _ => a == d
  | _ => false

/-- The run ends before an instruction that does not continue it, or that raises TYPE (R126). -/
def endRunBefore (s : State) (c : Nat) (i : Instr) (ok : Bool) : State := match (ctxAt s c).held with
  | some h => if ok && continuesRun h.d i then s else flushRun s c
  | none => s

/-! The witness unit -/

/-- The elements of an instruction among which the witness unit chooses (R97, R117), each by the position that it stands for: none
for memory instructions, engine jobs, BTN, and EHIST read and clear. A node of a reduction's tree stands for element 0, and the
last word of a run of VBFLY.H.f for the whole run. -/
def witnessList (x : Ctx) (e : VEntry) : List Nat :=
  let act := activeAt x e (mkOf e.instr)
  let at_ (m : VReg) : List Nat := act.filter (fun i => m.getLsbD i)
  match e.instr with
  | .ehistRead _ _ _ | .ehistClr _ _ | .btnWait _ | .btnPost _ | .btnWaitPost _ | .tmma _ _ _ _ | .tcvt _ _ _ | .tcopy _ _ _
  | .jstat _ _ | .vbflyHF _ _ _ => []
  | .vcvtScale _ _ _ _ _ => (act.map (fun i => i / 32)).eraseDups
  | .vredSum _ _ _ _ | .vredMin _ _ _ _ | .vredMax _ _ _ _ | .vredAnd _ _ _ _ | .vredOr _ _ _ _ | .vredXor _ _ _ _
  | .vredWsum _ _ _ _ _ => List.replicate (2 ^ treeDepth 15 e.vl 0) 0
  | .vcompCompress _ _ _ => (at_ (x.m 0)).map (bitsBelow (x.m 0))
  | .vcompCidx _ a _ => (at_ (x.m a.toNat)).map (bitsBelow (x.m a.toNat))
  | .vcompExpand _ _ _ => at_ (x.m 0)
  | .vslideUp _ _ s sel _ _ => act.filter (fun i => slideBy e s sel ≤ i)
  | .vmvFromx _ _ _ _ _ => act.filter (fun i => i == 0)
  | i => if accessEngine i then [] else if (xDest i).isSome then [0] else act

/-- How many candidates an instruction has for the witness unit (R152). -/
def candidates (x : Ctx) (e : VEntry) : Nat := (witnessList x e).length

/-- The candidate chosen, with the state of the core's witness register after the choice (R152). -/
def chooseElem (w : BitVec 32) (n : Nat) : BitVec 32 × Nat := (stepWitness w, (stepWitness w).toNat % n)

/-! Starting -/

/-- The entry of a stream that comes after n others lets a reader start: it is filled or has met a fault, or the count is used up
(R167, R188, R189). -/
def entryReady (x : Ctx) (n r : Nat) : Bool := match find? x.streams r with
  | some st => match st.entries.drop n with
    | en :: _ => match en.fault with
      | some f => f.1 != 0
      | none => true
    | [] => st.count ≤ st.pos + n * st.strip
  | none => true

/-- The oldest reader of a stream may pop it. -/
def streamReady (x : Ctx) (r : Nat) : Bool := entryReady x 0 r

/-- An instruction that has not begun may pop a stream after those in execution that read it (R167). -/
def sourceReady (x : Ctx) (r : Nat) : Bool := entryReady x (x.vx.filter (fun p => (boundSources x p).contains r)).length r

/-- Fills of a stream until its reader may pop, four at most (R167). -/
def fillUntil (s : State) (c r : Nat) (bound : List Word) (ready : Ctx → Nat → Bool) : Nat → State
  | 0 => s
  | n + 1 => if ready (ctxAt s c) r then s else fillUntil (fillStream s c r bound true) c r bound ready n

/-- Streams an entry reads, filled on demand while units leave nothing for their own events; a device-class stream fills
only then (R189). -/
def fillFor (s : State) (c : Nat) (bound : List Word) (ready : Ctx → Nat → Bool) : List Nat → State
  | [] => s
  | r :: rest => fillFor (fillUntil s c r bound ready 4) c bound ready rest

/-- The mask registers that an entry reads. -/
def masksRead (i : Instr) : List Nat := (if mkOf i then [0] else []) ++ maskSrcs i

/-- Whether an instruction in execution produces what another reads (R117, R165). -/
def producesFor (p e : VEntry) : Bool :=
  p.writesV.any (fun r => e.readsV.contains r) ||
  (match maskDest p.instr with | some m => (masksRead e.instr).contains m | none => false)

/-- The element up to which each instruction in execution has written, oldest first: one of memory, or one that waits, up to its own,
the last one, where the lanes have taken it in this cycle, none, and a consumer no further than its producers (R145, R165). -/
def written (fresh : Bool) (done : List (VEntry × Option Nat)) : List VEntry → List (VEntry × Option Nat)
  | [] => done
  | p :: r =>
    let held := (done.filter (fun d => producesFor d.1 p)).filterMap Prod.snd
    let own := if p.waits || accessEngine p.instr || (fresh && r.isEmpty) then [p.es] else []
    written fresh (done ++ [(p, (own ++ held).min?)]) r

/-- The vector unit has started an instruction of a context in this cycle, while its units leave their work for their own events. -/
def startedNow (s : State) (c : Nat) : Bool :=
  let k := coreAt s (coreOf c)
  s.defer && k.lastIssuer == c % 4 && k.lastStart == cycleOf s c

/-- An element-wise instruction may start on its producers: each has written its element es (R165). -/
def chainReady (s : State) (c : Nat) (e : VEntry) : Bool :=
  (written (startedNow s c) [] (ctxAt s c).vx).all (fun d => match d.2 with
    | some j => !producesFor d.1 e || e.es < j
    | none => true)

/-- The world of the pipeline allows a start: it is the issuer's, or, while units leave nothing for their own events, the
pipeline can be switched at once (R166). -/
def worldAllows (s : State) (c : Nat) (e : VEntry) : Bool :=
  let k := coreAt s (coreOf c)
  accessEngine e.instr ||
    ((k.pipeSecure == (ctxAt s c).secure || (!s.defer && !pipeHolds s (coreOf c) k.pipeSecure)) && 0 < k.groups)

/-- A baton lets an instruction start (R168). -/
def batonReady (x : Ctx) (i : Instr) : Bool := match batonWait i with
  | some q => 0 < x.tokens q
  | none => true

/-- The instructions that have still to append to store streams: the last word of a run, and those in execution (R126, R167). -/
def Ctx.toAppend (x : Ctx) : List VEntry := x.held.toList.map (fun h => h.entry) ++ x.vx

/-- Instructions of the access engine that perform accesses. -/
def vectorAccess (i : Instr) : Bool := accessEngine i && match i with
  | .btnWait _ | .btnPost _ | .btnWaitPost _ => false
  | _ => true

/-- A store stream holds entries that go to device-class memory, by its descriptor or by the page of the next element, and have met
no fault (R174). -/
def deviceEntries (s : State) (c r : Nat) : Bool := match find? (ctxAt s c).streams r with
  | none => false
  | some st => match st.entries with
    | [] => false
    | en :: _ => st.store && en.fault.isNone &&
        (st.device || match decide s (vectorAgent s c) .store (st.addr (en.first + en.from_)) with
          | .ok p => p.dev
          | .error _ => false)

/-- The store streams of a context with entries for device-class memory. -/
def deviceStreams (s : State) (c : Nat) : List Nat := (boundRegs (ctxAt s c)).filter (deviceEntries s c)

/-- Entries for device-class memory perform before any later access of the context to that class, as far as nothing holds them
(R174). -/
def drainDevice (s : State) (c : Nat) : State := match deviceStreams s c with
  | [] => s
  | rs => (drainAll s c rs).state

/-- The next access of the stream of a register goes to device-class memory, by its descriptor or by its page (R174). -/
def deviceStream (s : State) (c r : Nat) : Bool := match find? (ctxAt s c).streams r with
  | none => false
  | some st => st.device ||
      match decide s (vectorAgent s c) (if st.store then .store else .load) (st.addr (if st.store then st.pos else st.fill)) with
      | .ok p => p.dev
      | .error _ => false

/-- An instruction pops a load stream of device-class memory, or appends to a store stream of it (R174). -/
def touchesDevice (s : State) (c : Nat) (e : VEntry) : Bool :=
  (boundSources (ctxAt s c) e ++ boundDests (ctxAt s c) e).any (deviceStream s c)

/-- The load streams that an instruction reads and that may be filled for it now: one of device-class memory only after the accesses
before it (R174). -/
def fillable (s : State) (c : Nat) (e : VEntry) : List Nat :=
  (boundSources (ctxAt s c) e).filter (fun r =>
    !((ctxAt s c).vx.any (fun p => vectorAccess p.instr) && deviceStream s c r))

/-- The destinations' store streams have room, made by performing their oldest entries when need be (R167, log 3). -/
def roomFor (s : State) (c : Nat) (e : VEntry) : State :=
  (boundDests (ctxAt s c) e).foldl (fun s r =>
    let x := ctxAt s c
    if appendRoom x x.toAppend r then s else (drainEntry s c r).state) s

/-- The units have room for one more instruction of a context in execution; a run in progress, which retires as one step, is one
(R126, R163; log 89). -/
def unitRoom (x : Ctx) : Bool := x.vx.length + x.held.toList.length < 8

/-- The head of a context's queue starts, when it is ready: it leaves the queue and pops its baton (R163–R168). -/
def startHead (s : State) (c : Nat) : Option State :=
  match (ctxAt s c).vq with
  | [] => none
  | e :: rest =>
    let s := if s.defer then s else roomFor (fillFor s c e.bound sourceReady (fillable s c e)) c e
    let x := ctxAt s c
    if x.unitsGo ∧ unitRoom x ∧ worldAllows s c e ∧ batonReady x e.instr ∧
        (boundSources x e).all (sourceReady x) ∧ (boundDests x e).all (appendRoom x x.toAppend) ∧ chainReady s c e ∧
        !((wholeVector e.instr || (xDest e.instr).isSome) && x.vx.any (fun p => producesFor p e)) then
      let x := match batonWait e.instr with
        | some q => x.popOwn q
        | none => x
      let s := setCtx s c
        { x with vq := rest, vx := x.vx ++ [{ e with popped := (batonWait e.instr).isSome }], waits := remove x.waits 1 }
      some (if accessEngine e.instr then s
        else onCore s (coreOf c) (fun k =>
          { k with pipeSecure := x.secure, lastIssuer := c % 4, lastStart := cycleOf s c }))
    else none

/-! Retiring -/

/-- What became of the oldest instruction in execution: it has retired; it cannot yet; or a stop, a rewind or a kill has
ended the context's run. -/
inductive Retired where
  | moved (s : State)
  | stuck (s : State)
  | ended (s : State)

/-- The register of a bound source after a pop, where the instruction has already written its lower elements there. -/
def keepWritten (old : Ctx) (e : VEntry) (x : Ctx) : Ctx :=
  match e.begun, shapeOf e.instr with
  | true, some sh => match sh.wr, sh.d with
    | true, some d =>
      let n := e.es * tagWidth e.td
      x.setV d.toNat (keepLow (old.v d.toNat) n ||| (x.v d.toNat &&& ~~~(keepLow (BitVec.allOnes 16384) n)))
    | _, _ => x
  | _, _ => x

/-- The first fault that the entry's pops would meet (R189). -/
def popFaults (x : Ctx) : List Nat → Option (Nat × Word)
  | [] => none
  | r :: rest => match popFault x r with
    | some f => some f
    | none => popFaults x rest

/-- A baton that arrives in b0 ends a WFE (R161). -/
def wakeWfeFor (q : Nat) (x : Ctx) : Ctx := if q = 0 then wakeWfe x else x

/-- An instruction that has done its work leaves: its appends, its flags, its baton, its x register and es (R68, R95,
R144, R168, R188). A word of VBFLY.H.f stays with its run, which retires as one step (R126). -/
def leaveUnit (s : State) (c : Nat) (e : VEntry) (fl : Flags) : State :=
  match e.instr with
  | .vbflyHF _ _ _ => onCtx s c (fun x => { x with vx := x.vx.drop 1, waits := remove x.waits 2 })
  | _ =>
  let s := noteHits s c 1 (fun a b => a.toNat ≤ e.addr.toNat && e.addr.toNat < b.toNat)
  onCtx s c (fun x =>
    let x := appendAll x.endStep e (match x.vx with | h :: _ => h.vl | [] => e.vl)
    let x := match batonPost e.instr with
      | some q => wakeWfeFor q (x.post q)
      | none => x
    { x with vx := x.vx.drop 1, waits := if x.passed = 0 then remove x.waits 2 else x.waits
             csr := { x.csr with fflags := x.csr.fflags ||| fl ||| e.flags, retired := x.csr.retired + 1 } })

/-- The tags and the settings that an entry records keep the rules of R25, as those of an edited dump entry may not
(R147). -/
def entryOk (x : Ctx) (e : VEntry) : Bool := match shapeOf e.instr with
  | some sh => sh.typeOk x e.vtype e.tagd e.taga e.tagb
  | none => true

/-- The instructions that work element by element on what they chain onto (R117, R165). -/
def chains (i : Instr) : Bool := match i with
  | .vsmaxUpd _ _ _ _ _ | .vsmaxNorm _ _ _ _ _ | .vcvtScale _ _ _ _ _ | .tmma _ _ _ _ | .tcvt _ _ _ | .tcopy _ _ _
  | .btnWait _ | .btnPost _ | .btnWaitPost _ => false
  | i => (shapeOf i).isSome && !wholeVector i && (xDest i).isNone && !accessEngine i

/-- Of two instructions, in program order, one reads or writes what the other writes. -/
def dependsOn (p e : VEntry) : Bool :=
  producesFor p e || producesFor e p || p.writesV.any (fun r => e.writesV.contains r) ||
  (match maskDest p.instr, maskDest e.instr with | some a, some b => a == b | _, _ => false)

/-- The register that an instruction binds to a stream, or unbinds. -/
def bindsReg : Instr → Option Nat
  | .sbind k _ | .sunbind k => some (48 + k.toNat)
  | _ => none

/-- Of two instructions, one binds or unbinds a register that the other reads or writes, or that it binds or unbinds; or both pop a
strip of one stream (R25, R167). -/
def sharesStream (x : Ctx) (p e : VEntry) : Bool :=
  let uses (k : VEntry) (r : Nat) : Bool := k.readsV.contains r || k.writesV.contains r || bindsReg k.instr == some r
  (bindsReg p.instr).any (uses e) || (bindsReg e.instr).any (uses p) ||
  (boundSources x p).any (fun r => (boundSources x e).contains r)

/-- An instruction of engine jobs: one that issues a job, or a JSTAT, which acquires (R200, R218). -/
def engineWord : Instr → Bool
  | .tmma _ _ _ _ | .tcvt _ _ _ | .tcopy _ _ _ | .jstat _ _ => true
  | _ => false

/-- The address of each element of a memory instruction, and whether it stores (R183). -/
def elemAddr : Instr → Option ((Ctx → VEntry → Nat → Nat) × Bool)
  | .vld _ _ _ _ _ => some (byUnit, false)
  | .vldS _ _ _ _ _ _ => some (byStride, false)
  | .vldX _ _ ix _ _ _ => some (byIndex ix, false)
  | .vst _ _ _ _ _ => some (byUnit, true)
  | .vstS _ _ _ _ _ _ => some (byStride, true)
  | .vstX _ _ ix _ _ _ => some (byIndex ix, true)
  | .vamoAdd _ _ ix _ _ _ | .vamoAnd _ _ ix _ _ _ | .vamoOr _ _ ix _ _ _ | .vamoXor _ _ ix _ _ _ | .vamoMin _ _ ix _ _ _
  | .vamoMax _ _ ix _ _ _ | .vamoSwap _ _ ix _ _ _ => some (byIndex ix, true)
  | .mld _ _ _ _ _ => some (fun _ e i => (e.sc0.toNat + i / 8) % 2 ^ 64, false)
  | .mst _ _ _ _ _ => some (fun _ e i => (e.sc0.toNat + i / 8) % 2 ^ 64, true)
  | _ => none

/-- The job that a word would issue now; a JSTAT, or a word whose card may not be read, has none. -/
def wordJob (s : State) (c : Nat) (e : VEntry) : Option Job :=
  match cardOffset s c e.sc0.toNat, e.instr with
  | .ok off, .tmma _ _ bw bp => some (cardJob s c .tmma off e none bw bp)
  | .ok off, .tcvt _ bw bp => some (cardJob s c .tcvt off e none bw bp)
  | .ok off, .tcopy _ bw bp => some (cardJob s c .tcopy off e none bw bp)
  | _, _ => none

/-- Bytes of an access meet what a job reads or writes, its card among them, in the way that gives an edge (R200). -/
def meetsJob (j : Job) (clu lo n : Nat) (store : Bool) : Bool :=
  let a := dieForm clu lo
  let card := dieForm clu j.cardAt
  j.writes.any (fun r => r.meets a (a + n - 1)) ||
  (store && (j.reads.any (fun r => r.meets a (a + n - 1)) || (card < a + n && a < card + 128)))

/-- A memory instruction has an edge to a job (R200). -/
def accessMeets (s : State) (c : Nat) (m : VEntry) (j : Job) : Bool :=
  let x := ctxAt s c
  match elemAddr m.instr, m.instr with
  | some (at_, store), _ =>
    (activeAt x m (mkOf m.instr)).any (fun i => meetsJob j (cluOf c) (at_ x m i) (max 1 (tagWidth m.td / 8)) store)
  | none, .sbind _ _ => meetsJob j (cluOf c) m.sc0.toNat 32 false
  | none, _ => vectorAccess m.instr

/-- Two instructions keep their order: a memory access and a word of engine jobs that an edge joins, or an access after a JSTAT, which
acquires (R200, R218). -/
def jobOrder (s : State) (c : Nat) (p e : VEntry) : Bool :=
  (vectorAccess p.instr && engineWord e.instr && (wordJob s c e).any (accessMeets s c p)) ||
  (vectorAccess e.instr && engineWord p.instr && (match p.instr with
    | .jstat _ _ => true
    | _ => (wordJob s c p).any (accessMeets s c e)))

/-- Of two instructions, one accesses memory and the other a stream of device-class memory (R174). -/
def deviceOrder (s : State) (c : Nat) (p e : VEntry) : Bool :=
  (touchesDevice s c e && (vectorAccess p.instr || touchesDevice s c p)) || (touchesDevice s c p && vectorAccess e.instr)

/-- An instruction waits for an older one that has not retired (R25, R167, R174, R200). -/
def follows (s : State) (c : Nat) (p e : VEntry) : Bool :=
  dependsOn p e || sharesStream (ctxAt s c) p e || jobOrder s c p e || deviceOrder s c p e

/-- A chained consumer acts on the elements below j; what it pops and its tail are left for its retirement (R145). -/
def runBelow (s : State) (c j : Nat) (e : VEntry) : State × Option VEntry :=
  let old := ctxAt s c
  let part := { e with vl := min e.vl j, vtype := e.vtype &&& 0x1FFDF#17 }
  let s := onCtx s c (fun x => { popStreams x (boundSources x e) with vx := [part] })
  match retireEffect e.instr s c part with
  | .done s fl =>
    (onCtx s c (fun x => { x with vx := old.vx, streams := old.streams }),
      some { e with es := min e.vl j, flags := e.flags ||| fl, begun := true, waits := true })
  | _ => (setCtx s c old, none)

/-- The consumers of an instruction that stands at an element: each has written the elements below that of its producers (R145,
R165). `chain` lists those that have gone so far, and `others` the instructions that have yet to act, on which none may depend. -/
def followAll (s : State) (c : Nat) (chain others : List VEntry) : List VEntry → State × List VEntry
  | [] => (s, [])
  | e :: rest =>
    let js := (chain.filter (fun p => producesFor p e)).map (fun p => p.es)
    match (if chains e.instr && entryOk (ctxAt s c) e && !others.any (fun p => dependsOn p e) then js.min? else none) with
    | none =>
      let r := followAll s c chain (others ++ [e]) rest
      (r.1, e :: r.2)
    | some j =>
      match (if e.es < min e.vl j then runBelow s c j e else (s, some e)) with
      | (s, some k) =>
        let r := followAll s c (chain ++ [k]) others rest
        (r.1, k :: r.2)
      | (s, none) =>
        let r := followAll s c chain (others ++ [e]) rest
        (r.1, e :: r.2)

/-- The oldest instruction in execution waits or stops at its element es, and its consumers with it (R145). -/
def follow (s : State) (c : Nat) : State := match (ctxAt s c).vx, (ctxAt s c).held with
  | h :: rest, none =>
    let r := followAll s c [h] [] rest
    onCtx r.1 c (fun x => { x with vx := h :: r.2 })
  | _, _ => s

/-- The load streams that an instruction has popped stand as they did before (R189, log 15). -/
def unpop (old : Ctx) (e : VEntry) (x : Ctx) : Ctx :=
  (boundSources old e).foldl (fun x r => match find? old.streams r with
    | some st => { x with streams := put x.streams r st }
    | none => x) x

/-- A word of a run keeps the strips that it has popped until the run ends (R126). -/
def keepPops (old : Ctx) (e : VEntry) (x : Ctx) : Ctx := match e.instr with
  | .vbflyHF _ _ _ =>
    { x with held := x.held.map (fun h => { h with pops := h.pops ++ headStrips old (boundSources old e) }) }
  | _ => x

/-- There is room for what an instruction posts (R168). -/
def postRoom (x : Ctx) (i : Instr) : Bool := match batonPost i with
  | some q => batonRoom x q
  | none => true

/-- The oldest instruction of the unit that does not execute the head, out of those in execution, with those that stand before it and
after it, where it waits for none of them. -/
def otherUnit (s : State) (c : Nat) : Option (List VEntry × VEntry × List VEntry) := match (ctxAt s c).vx with
  | [] => none
  | h :: r =>
    let own := h :: r.takeWhile (fun e => accessEngine e.instr == accessEngine h.instr)
    match (h :: r).drop own.length with
    | [] => none
    | e :: rest => if own.any (fun p => follows s c p e) then none else some (own, e, rest)

/-- The oldest instruction in execution of a context does its work and retires, when it can (R95, R135, R143, R163, R189); an access
waits for the device-class entries of store streams before it (R174). -/
def retireOldest (s : State) (c : Nat) : Retired :=
  let s := drainDevice s c
  let x := ctxAt s c
  match x.vx with
  | [] => .stuck s
  | e :: _ =>
      if (vectorAccess e.instr || touchesDevice s c e) && !(deviceStreams s c).isEmpty then .stuck s else
      let s := if s.defer then s else fillFor s c e.bound streamReady (boundSources x e)
      let x := ctxAt s c
      if !(boundSources x e).all (streamReady x) then .stuck s
      else match popFaults x (boundSources x e) with
      | some (code, val) =>
        if code = cMemue ∨ code = cIntegrity then
          .ended (consumePoison s c e.es val.toNat (domainPlace val.toNat)
            (if code = cMemue then .uncorrectable else .tagFails))
        else if x.fwait ≠ .none then .stuck s
        else .ended (takeVector s c code val)
      | none =>
        match (if postsByBtn e.instr then breakLap s c else (s, true)) with
        | (s, false) => .ended s
        | (s, true) =>
          let s := endRunBefore s c e.instr (entryOk (ctxAt s c) e)
          let old := ctxAt s c
          let s := onCtx s c (fun x => keepWritten old e (popStreams x (boundSources x e)))
          let back (s : State) : State := onCtx s c (unpop old e)
          let n := candidates (ctxAt s c) e
          match (if entryOk x e then retireEffect e.instr s c e else badWord cType s c e) with
          | .done s fl =>
            let s := if (ctxAt s c).held.isNone then noteWords s c old.runWords else s
            .moved (drainDevice (noteChecked (leaveUnit (onCtx s c (keepPops old e)) c e fl) c n) c)
          | .fault s code val i =>
            let s := follow (onHead (back s) c (fun e => { e with es := i, begun := e.begun || i != e.es })) c
            if (ctxAt s c).fwait ≠ .none then .stuck s else .ended (takeVector s c code val)
          | .wait s => .stuck (follow (back s) c)
          | .gone s => .ended s

/-- An instruction that has passed n older ones stands behind them again. -/
def standBehind (n : Nat) (x : Ctx) : Ctx :=
  { x with passed := 0, vx := match x.vx with
    | e :: r => r.take n ++ e :: r.drop n
    | [] => [] }

/-- Past an instruction that waits for room to post, the oldest one of the other unit retires, where it waits for nothing before it
and nothing stops it; what it has done stays with it where it has still to wait (R168, R191, log 67). -/
def passPost (s : State) (c : Nat) : Retired :=
  let x := ctxAt s c
  match otherUnit s c with
  | none => .stuck s
  | some (own, e, rest) =>
    let n := own.length
    if x.held.isSome || !postRoom x e.instr then .stuck s
    else match retireOldest (setCtx s c { x with vx := e :: own ++ rest, passed := n }) c with
      | .moved s => .moved (onCtx s c (fun x => { x with passed := 0 }))
      | .stuck s => .stuck (onCtx s c (standBehind n))
      | .ended _ => .stuck s

/-- The instruction in execution that may retire next: the oldest one, or, while that one waits for room to post, one of the other
unit (R168, R191). -/
def retiresNext (s : State) (c : Nat) : Option VEntry := match (ctxAt s c).vx with
  | [] => none
  | e :: _ => if postRoom (ctxAt s c) e.instr then some e else (otherUnit s c).map (fun t => t.2.1)

/-- An instruction in execution of a context retires: the oldest one, or, while that one waits for room to post, one of the other
unit (R168, R191); or the run that the front has ended does (R126). -/
def retireHead (s : State) (c : Nat) : Retired :=
  let x := ctxAt s c
  match x.vx with
  | [] => if x.unitsGo && x.held.any (fun h => h.ends) then .moved (flushRun s c) else .stuck s
  | e :: _ =>
    if !x.unitsGo then .stuck s
    else if postRoom x e.instr then retireOldest s c
    else passPost s c

/-- The queue of a context runs as far as it can: at most 40 instructions stand in it, each of which starts and retires
(log 3). -/
def runQueue (s : State) (c : Nat) : Nat → State
  | 0 => s
  | n + 1 => match (if (ctxAt s c).vx.isEmpty then Retired.stuck s else retireHead s c) with
    | .moved s => runQueue s c n
    | .ended s => s
    | .stuck s => match startHead s c with
      | some s => runQueue s c n
      | none => s

/-- The queue of a context goes on, and what its store streams hold for device-class memory, unless units defer their work. -/
def goQueue (s : State) (c : Nat) : State :=
  if s.defer then s else
    let s := drainDevice s c
    runQueue s c (2 * ((ctxAt s c).vq.length + (ctxAt s c).vx.length) + 1)

/-! Issue -/

/-- The vector queue has room (R163). -/
def queueRoom (x : Ctx) : Bool := x.vq.length < 32

/-- The front places an instruction in the vector queue in its decoded form (R26, R163); TYPE is raised before that (R25,
R31), with the entries before it unharmed, and es is taken by the instruction (R52). -/
def issue (i : Instr) (s : State) : Host.Outcome State Fault Refusal :=
  let c := s.turn
  let x := ctxAt s c
  match shapeOf i with
  | none => .next (takeWord s c cIllegal i)
  | some sh =>
    if !sh.typeOk x x.csr.vtype (tagOr x sh.d) (tagOr x sh.a) (tagOr x sh.b) then .next (takeWord s c cType i)
    else if !queueRoom x then .next s
    else
      .next (goQueue (setCtx s c { x with pc := x.pc + 4, vq := x.vq ++ [entryOf x i sh], csr := { x.csr with es := 0 } }) c)

end Sys2Proof.Machine
end

