-- ==== Sys2Proof/Machine/Scalar.lean ====
section
/-! DEFINITION. Scalar instructions of the front: the ALU (R73, R74), the immediate forms (R75, R76), branches and jumps
(R78–R80), and the vector configuration that the front executes itself (R91–R93). -/

namespace Sys2Proof.Machine

/-- What an instruction of this machine answers. -/
abbrev Result := Host.Outcome State Fault Refusal

/-- The front writes an x register and goes on with the next word. -/
def writeX (s : State) (d : XReg) (v : Word) : State := onCtx s s.turn (fun x => (x.setX d v).advance)

/-- The value of an x register of the context whose turn it is. -/
def xOf (s : State) (r : XReg) : Word := (ctxAt s s.turn).x r

/-- Quotients and remainders, which never fault (R74). -/
def quotS (a b : Word) : Word := if b = 0 then BitVec.allOnes 64 else BitVec.sdiv a b
def quotU (a b : Word) : Word := if b = 0 then BitVec.allOnes 64 else a / b
def remS (a b : Word) : Word := if b = 0 then a else BitVec.srem a b
def remU (a b : Word) : Word := if b = 0 then a else a % b

/-- Counts of bits (R73). -/
def leadingZeros (a : Word) : Nat := if a = 0 then 64 else 63 - Nat.log2 a.toNat
def trailingZeros (a : Word) : Nat := ((span 0 64).takeWhile (fun k => !a.getLsbD k)).length
def onesIn (a : Word) : Nat := ((span 0 64).filter (fun k => a.getLsbD k)).length

/-- The high 64 bits of the exact products (R73). -/
def highS (a b : Word) : Word := BitVec.ofInt 64 (a.toInt * b.toInt / 2 ^ 64)
def highU (a b : Word) : Word := BitVec.ofNat 64 (a.toNat * b.toNat / 2 ^ 64)

/-- 1 or 0. -/
def truth (b : Bool) : Word := if b then 1 else 0

/-- The scaled immediate of LIH and PCREL (R76). -/
def highImm (imm : BitVec 20) : Word := (imm.signExtend 64) <<< (15 : Nat)

/-- ADD (R73). -/
def valAdd (a b : Word) : Word := a + b
def execAdd (d a b : XReg) (s : State) : Result := .next (writeX s d (valAdd (xOf s a) (xOf s b)))

/-- SUB (R73). -/
def valSub (a b : Word) : Word := a - b
def execSub (d a b : XReg) (s : State) : Result := .next (writeX s d (valSub (xOf s a) (xOf s b)))

/-- AND (R73). -/
def valAnd (a b : Word) : Word := a &&& b
def execAnd (d a b : XReg) (s : State) : Result := .next (writeX s d (valAnd (xOf s a) (xOf s b)))

/-- OR (R73). -/
def valOr (a b : Word) : Word := a ||| b
def execOr (d a b : XReg) (s : State) : Result := .next (writeX s d (valOr (xOf s a) (xOf s b)))

/-- XOR (R73). -/
def valXor (a b : Word) : Word := a ^^^ b
def execXor (d a b : XReg) (s : State) : Result := .next (writeX s d (valXor (xOf s a) (xOf s b)))

/-- SLL (R73). -/
def valSll (a b : Word) : Word := a <<< (b.toNat % 64)
def execSll (d a b : XReg) (s : State) : Result := .next (writeX s d (valSll (xOf s a) (xOf s b)))

/-- SRL (R73). -/
def valSrl (a b : Word) : Word := a >>> (b.toNat % 64)
def execSrl (d a b : XReg) (s : State) : Result := .next (writeX s d (valSrl (xOf s a) (xOf s b)))

/-- SRA (R73). -/
def valSra (a b : Word) : Word := a.sshiftRight (b.toNat % 64)
def execSra (d a b : XReg) (s : State) : Result := .next (writeX s d (valSra (xOf s a) (xOf s b)))

/-- SLT (R73). -/
def valSlt (a b : Word) : Word := truth (a.slt b)
def execSlt (d a b : XReg) (s : State) : Result := .next (writeX s d (valSlt (xOf s a) (xOf s b)))

/-- SLTU (R73). -/
def valSltu (a b : Word) : Word := truth (a.ult b)
def execSltu (d a b : XReg) (s : State) : Result := .next (writeX s d (valSltu (xOf s a) (xOf s b)))

/-- MIN (R73). -/
def valMin (a b : Word) : Word := if a.slt b then a else b
def execMin (d a b : XReg) (s : State) : Result := .next (writeX s d (valMin (xOf s a) (xOf s b)))

/-- MAX (R73). -/
def valMax (a b : Word) : Word := if a.slt b then b else a
def execMax (d a b : XReg) (s : State) : Result := .next (writeX s d (valMax (xOf s a) (xOf s b)))

/-- MINN (R73). -/
def valMinn (a b : Word) : Word := if a.ult b then a else b
def execMinn (d a b : XReg) (s : State) : Result := .next (writeX s d (valMinn (xOf s a) (xOf s b)))

/-- MAXN (R73). -/
def valMaxn (a b : Word) : Word := if a.ult b then b else a
def execMaxn (d a b : XReg) (s : State) : Result := .next (writeX s d (valMaxn (xOf s a) (xOf s b)))

/-- MUL (R73). -/
def valMul (a b : Word) : Word := a * b
def execMul (d a b : XReg) (s : State) : Result := .next (writeX s d (valMul (xOf s a) (xOf s b)))

/-- MULH (R73). -/
def valMulh (a b : Word) : Word := highS a b
def execMulh (d a b : XReg) (s : State) : Result := .next (writeX s d (valMulh (xOf s a) (xOf s b)))

/-- MULHN (R73). -/
def valMulhn (a b : Word) : Word := highU a b
def execMulhn (d a b : XReg) (s : State) : Result := .next (writeX s d (valMulhn (xOf s a) (xOf s b)))

/-- DIV (R74). -/
def valDiv (a b : Word) : Word := quotS a b
def execDiv (d a b : XReg) (s : State) : Result := .next (writeX s d (valDiv (xOf s a) (xOf s b)))

/-- DIVN (R74). -/
def valDivn (a b : Word) : Word := quotU a b
def execDivn (d a b : XReg) (s : State) : Result := .next (writeX s d (valDivn (xOf s a) (xOf s b)))

/-- REM (R74). -/
def valRem (a b : Word) : Word := remS a b
def execRem (d a b : XReg) (s : State) : Result := .next (writeX s d (valRem (xOf s a) (xOf s b)))

/-- REMN (R74). -/
def valRemn (a b : Word) : Word := remU a b
def execRemn (d a b : XReg) (s : State) : Result := .next (writeX s d (valRemn (xOf s a) (xOf s b)))

/-- CLZ (R73). -/
def execClz (d a : XReg) (s : State) : Result := .next (writeX s d (BitVec.ofNat 64 (leadingZeros (xOf s a))))

/-- CTZ (R73). -/
def execCtz (d a : XReg) (s : State) : Result := .next (writeX s d (BitVec.ofNat 64 (trailingZeros (xOf s a))))

/-- POPC (R73). -/
def execPopc (d a : XReg) (s : State) : Result := .next (writeX s d (BitVec.ofNat 64 (onesIn (xOf s a))))

/-- ADDI (R75). -/
def valAddi (a i : Word) : Word := a + i
def execAddi (d a : XReg) (imm : BitVec 15) (s : State) : Result :=
  .next (writeX s d (valAddi (xOf s a) (imm.signExtend 64)))

/-- ANDI (R75). -/
def valAndi (a i : Word) : Word := a &&& i
def execAndi (d a : XReg) (imm : BitVec 15) (s : State) : Result :=
  .next (writeX s d (valAndi (xOf s a) (imm.signExtend 64)))

/-- ORI (R75). -/
def valOri (a i : Word) : Word := a ||| i
def execOri (d a : XReg) (imm : BitVec 15) (s : State) : Result :=
  .next (writeX s d (valOri (xOf s a) (imm.signExtend 64)))

/-- XORI (R75). -/
def valXori (a i : Word) : Word := a ^^^ i
def execXori (d a : XReg) (imm : BitVec 15) (s : State) : Result :=
  .next (writeX s d (valXori (xOf s a) (imm.signExtend 64)))

/-- SLTI (R75). -/
def valSlti (a i : Word) : Word := truth (a.slt i)
def execSlti (d a : XReg) (imm : BitVec 15) (s : State) : Result :=
  .next (writeX s d (valSlti (xOf s a) (imm.signExtend 64)))

/-- SLTIN (R75). -/
def valSltin (a i : Word) : Word := truth (a.ult i)
def execSltin (d a : XReg) (imm : BitVec 15) (s : State) : Result :=
  .next (writeX s d (valSltin (xOf s a) (imm.signExtend 64)))

/-- SLLI (R75). -/
def execSlli (d a : XReg) (sh : BitVec 6) (s : State) : Result := .next (writeX s d (xOf s a <<< sh.toNat))

/-- SRLI (R75). -/
def execSrli (d a : XReg) (sh : BitVec 6) (s : State) : Result := .next (writeX s d (xOf s a >>> sh.toNat))

/-- SRAI (R75). -/
def execSrai (d a : XReg) (sh : BitVec 6) (s : State) : Result := .next (writeX s d ((xOf s a).sshiftRight sh.toNat))

/-- LIH (R76). -/
def execLih (d : XReg) (imm : BitVec 20) (s : State) : Result := .next (writeX s d (highImm imm))

/-- PCREL: the pc is the address of the word itself (R76). -/
def execPcrel (d : XReg) (imm : BitVec 20) (s : State) : Result :=
  .next (writeX s d ((ctxAt s s.turn).pc + highImm imm))

/-- A branch: the target when the condition holds, else the next word (R78). -/
def branchIf (cond : Bool) (off : BitVec 12) (s : State) : State :=
  onCtx s s.turn (fun x => if cond then x.jump (x.pc + (off.signExtend 64) <<< (2 : Nat)) else x.advance)

/-- BR.EQ (R78). -/
def execBrEq (a b : XReg) (off : BitVec 12) (s : State) : Result := .next (branchIf (xOf s a == xOf s b) off s)

/-- BR.NE (R78). -/
def execBrNe (a b : XReg) (off : BitVec 12) (s : State) : Result := .next (branchIf (xOf s a != xOf s b) off s)

/-- BR.LT (R78). -/
def execBrLt (a b : XReg) (off : BitVec 12) (s : State) : Result := .next (branchIf ((xOf s a).slt (xOf s b)) off s)

/-- BR.GE (R78). -/
def execBrGe (a b : XReg) (off : BitVec 12) (s : State) : Result := .next (branchIf (!(xOf s a).slt (xOf s b)) off s)

/-- BR.LTN (R78). -/
def execBrLtn (a b : XReg) (off : BitVec 12) (s : State) : Result := .next (branchIf ((xOf s a).ult (xOf s b)) off s)

/-- BR.GEN (R78). -/
def execBrGen (a b : XReg) (off : BitVec 12) (s : State) : Result := .next (branchIf (!(xOf s a).ult (xOf s b)) off s)

/-- JAL (R79). -/
def execJal (d : XReg) (off : BitVec 20) (s : State) : Result :=
  .next (onCtx s s.turn (fun x => (x.setX d (x.pc + 4)).jump (x.pc + (off.signExtend 64) <<< (2 : Nat))))

/-- JALR: xa is read before xd is written; a misaligned target raises ALIGN at the JALR (R80). -/
def execJalr (d a : XReg) (imm : BitVec 15) (s : State) : Result :=
  let t := xOf s a + imm.signExtend 64
  if t.toNat % 4 ≠ 0 then .next (takeFront s s.turn cAlign t)
  else .next (onCtx s s.turn (fun x => (x.setX d (x.pc + 4)).jump t))

/-! Vector configuration -/

/-- vtype written under R40: an invalid value is discarded whole; a VLMAX below vl becomes vl, under the lane groups of the lap
(R43, R153). -/
def Ctx.setVtype (x : Ctx) (groups : Nat) (v : Word) : Ctx :=
  let t : BitVec 17 := v.setWidth 17
  if v.toNat < 2 ^ 17 ∧ vtOk t then
    { x with csr := { x.csr with vtype := t, vl := min x.csr.vl (vlmaxOf t groups) } }
  else x

/-- The least of a request, VLMAX and the lap's elements (R91). -/
def vlFor (x : Ctx) (groups : Nat) (req : Word) : Nat :=
  min req.toNat (min (vlmaxOf x.csr.vtype groups) (if x.loop.active then x.loop.laprem else x.work.nd))

/-- VSETVL (R91). -/
def execVsetvl (d a b : XReg) (s : State) : Result :=
  .next (onCtx s s.turn (fun x =>
    let req := if a = 0 then BitVec.allOnes 64 else x.x a
    let y := if b = 0 then x else x.setVtype x.groups (x.x b)
    let n := vlFor y x.groups req
    ({ y with csr := { y.csr with vl := n } }.setX d (BitVec.ofNat 64 n)).advance))

/-- VCFG: vtype whole, and the old value into xd (R92). -/
def execVcfg (d : XReg) (value : BitVec 17) (s : State) : Result :=
  .next (onCtx s s.turn (fun x => ((x.setVtype x.groups (value.setWidth 64)).setX d (x.csr.vtype.setWidth 64)).advance))

/-- VTAG: one tag (R93). -/
def execVtag (d : VNum) (code : BitVec 5) (s : State) : Result :=
  .next (onCtx s s.turn (fun x => (x.setTag d.toNat code).advance))

end Sys2Proof.Machine
end

