-- ==== Sys2Proof/Machine/ScalarMemory.lean ====
section
/-! DEFINITION. Scalar loads, stores, atomics, fences and stream barriers of the front (R176–R181, R286), and the batons
that the front moves itself (R191). -/

namespace Sys2Proof.Machine

/-- The front goes on with the next word. -/
def goOn (s : State) : State := onCtx s s.turn Ctx.advance

/-- A stop of the front at an access, with its address (R139). -/
def stopAt (s : State) (code va : Nat) : State := takeFront s s.turn code (BitVec.ofNat 64 va)

/-- The value that a load of n bytes gives its register (R176). -/
def loadedWord (n : Nat) (sx : Bool) (bs : List Byte) : Word :=
  if sx then BitVec.ofInt 64 (signed (8 * n) (bytesNat bs)) else BitVec.ofNat 64 (bytesNat bs)

/-- The address of LD and ST (R176). -/
def ldAddr (s : State) (a : XReg) (off : BitVec 10) : Nat := (xOf s a + off.signExtend 64).toNat

/-- The ord codes that acquire: .acq and .ar (R21). -/
def acquires (ord : BitVec 2) : Bool := ord == 1 || ord == 3

/-- The ord codes that release: .rel and .ar (R21). -/
def releases (ord : BitVec 2) : Bool := ord == 2 || ord == 3

/-- An acquire of the front has performed: what its load streams have read ahead is read again, after it; every other later access
performs later in any case (R177, R281, log 6). -/
def acquired (acq : Bool) (s : State) : State := if acq then onCtx s s.turn Ctx.discardLoads else s

/-- LD (R176, R177): each nonzero ord of LD acquires, at the scope that it names (R20). A load from the domain acquires when its answer
comes. -/
def execLd (t a : XReg) (off : BitVec 10) (ord sz : BitVec 2) (sx : Bool) (s : State) : Result :=
  let va := ldAddr s a off
  let n := 2 ^ sz.toNat
  match scalarLoad s s.turn va n sx t (ord != 0) with
  | .done s bs => .next (acquired (ord != 0) (writeX s t (loadedWord n sx bs)))
  | .fault s code => .next (stopAt s code va)
  | .wait s => .next s
  | .gone s => .next s

/-- How the commit of a lap store buffer ends: it may not be committed and its lap is killed, or streams that cannot perform
stop the front, or hold it (R82, R189, R328). -/
inductive Closing where
  | closed (s : State)
  | ended (s : State)

/-- The store streams of a list drained for the front. A handler does not wait for one whose entry has met a fault, which is taken when
it has returned (R189, log 65). -/
def drainNamed (s : State) (c : Nat) (rs : List Nat) : Access Unit :=
  if (ctxAt s c).inHandler then
    let s := drainEach s c rs
    if (ctxAt s c).streams.any (fun e => rs.contains e.1 && e.2.store && (match e.2.entries with
      | [] => false
      | en :: _ => en.fault.isNone)) then .wait s
    else .done s ()
  else drainAll s c rs

/-- The entries appended to a context's store streams perform, and its lap store buffer commits, which ends the lap's
rewindability (R149, R189). -/
def sendAll (s : State) (c : Nat) : Closing :=
  match drainNamed s c (boundRegs (ctxAt s c)) with
  | .fault s _ => .ended (takeStop s c none)
  | .wait s => .ended s
  | .gone s => .ended s
  | .done s _ => match breakLap s c with
    | (s, true) => .closed s
    | (s, false) => .ended s

/-- What has left for the domain has performed there, or the context waits for it (R290). -/
def Closing.away (k : Closing) (c : Nat) : Closing := match k with
  | .closed s => if domainPending s c then .ended s else .closed s
  | k => k

/-- Every earlier access of a context performs, before its release or fence does (R177, R180, R281, R290). -/
def performAll (s : State) (c : Nat) : Closing := (sendAll s c).away c

/-- A release performs every earlier access first, when its own access can be performed (R149, R177, R281). -/
def releaseFirst (s : State) (acc : Acc) (va n : Nat) (remote : Bool) : Closing :=
  match reach s s.turn (frontAgent s s.turn) acc va n n remote (frontQuiet (ctxAt s s.turn)) with
  | .ok _ | .domain => performAll s s.turn
  | _ => .closed s

/-- ST (R176, R177). -/
def execSt (t a : XReg) (off : BitVec 10) (ord sz : BitVec 2) (s : State) : Result :=
  let va := ldAddr s a off
  let n := 2 ^ sz.toNat
  match (if ord = 0 then .closed s else releaseFirst s .store va n true) with
  | .ended s => .next s
  | .closed s => match scalarStore s s.turn va (natBytes n (xOf s t).toNat) with
    | .done s _ => .next (goOn s)
    | .fault s code => .next (stopAt s code va)
    | .wait s => .next s
    | .gone s => .next s

/-- Bytes of an atomic (R178). -/
def atomicBytes (w : Bool) : Nat := if w then 8 else 4

/-- The end of an atomic: the old value, sign-extended, into xd; and its acquire (R178, R285). -/
def endAtomic (d : XReg) (n va : Nat) (ord : BitVec 2) : Access Nat → Result
  | .done s old => .next (acquired (acquires ord) (writeX s d (BitVec.ofInt 64 (signed (8 * n) old))))
  | .fault s code => .next (stopAt s code va)
  | .wait s => .next s
  | .gone s => .next s

/-- AMO with a function of the old bytes and the low bytes of xb; `kind` is what may be sent to the domain (R178,
R179). A release performs every earlier access first (R281). -/
def runAmo (d a b : XReg) (ord : BitVec 2) (w : Bool) (op : Nat → Nat → Nat → Nat) (kind : Option (Word → DomainKind)) (s : State) : Result :=
  let n := atomicBytes w
  let va := (xOf s a).toNat
  let v := (xOf s b).toNat % 2 ^ (8 * n)
  match (if releases ord then releaseFirst s .atomic va n kind.isSome else .closed s) with
  | .ended s => .next s
  | .closed s =>
    endAtomic d n va ord (scalarAtomic s s.turn va n d (acquires ord) (kind.map (fun k => k (BitVec.ofNat 64 v))) (fun old => op n old v))

/-- AMO.ADD (R178). -/
def execAmoAdd (d a b : XReg) (ord : BitVec 2) (_scope : BitVec 3) (w : Bool) (s : State) : Result :=
  runAmo d a b ord w amoAddOp (some .add) s
/-- AMO.AND (R178). -/
def execAmoAnd (d a b : XReg) (ord : BitVec 2) (_scope : BitVec 3) (w : Bool) (s : State) : Result :=
  runAmo d a b ord w (fun _ => Nat.land) none s
/-- AMO.OR (R178). -/
def execAmoOr (d a b : XReg) (ord : BitVec 2) (_scope : BitVec 3) (w : Bool) (s : State) : Result :=
  runAmo d a b ord w (fun _ => Nat.lor) none s
/-- AMO.XOR (R178). -/
def execAmoXor (d a b : XReg) (ord : BitVec 2) (_scope : BitVec 3) (w : Bool) (s : State) : Result :=
  runAmo d a b ord w (fun _ => Nat.xor) none s
/-- AMO.MIN (R178). -/
def execAmoMin (d a b : XReg) (ord : BitVec 2) (_scope : BitVec 3) (w : Bool) (s : State) : Result :=
  runAmo d a b ord w (fun n => amoMinOp n true) (some (fun v => .min v true)) s
/-- AMO.MAX (R178). -/
def execAmoMax (d a b : XReg) (ord : BitVec 2) (_scope : BitVec 3) (w : Bool) (s : State) : Result :=
  runAmo d a b ord w (fun n => amoMaxOp n true) (some (fun v => .max v true)) s
/-- AMO.MINN, which is none of the functions that the domain performs (R178, R179). -/
def execAmoMinn (d a b : XReg) (ord : BitVec 2) (_scope : BitVec 3) (w : Bool) (s : State) : Result :=
  runAmo d a b ord w (fun n => amoMinOp n false) none s
/-- AMO.MAXN, likewise (R178, R179). -/
def execAmoMaxn (d a b : XReg) (ord : BitVec 2) (_scope : BitVec 3) (w : Bool) (s : State) : Result :=
  runAmo d a b ord w (fun n => amoMaxOp n false) none s
/-- AMO.SWAP (R178). -/
def execAmoSwap (d a b : XReg) (ord : BitVec 2) (_scope : BitVec 3) (w : Bool) (s : State) : Result :=
  runAmo d a b ord w (fun _ _ v => v) none s

/-- CAS: xd holds the expected value (R178). -/
def execCas (d a b : XReg) (ord : BitVec 2) (_scope : BitVec 3) (w : Bool) (s : State) : Result :=
  let n := atomicBytes w
  let va := (xOf s a).toNat
  let want := (xOf s d).toNat % 2 ^ (8 * n)
  let v := (xOf s b).toNat % 2 ^ (8 * n)
  match (if releases ord then releaseFirst s .atomic va n true else .closed s) with
  | .ended s => .next s
  | .closed s => endAtomic d n va ord (scalarAtomic s s.turn va n d (acquires ord) (some (.cas (BitVec.ofNat 64 want) (BitVec.ofNat 64 v)))
    (fun old => if old = want then v else old))

/-- A fence covers every stream of the context and its lap store buffer, which it commits: appended store entries perform
first; one that acquires has its load streams read again (R149, R180, R189). -/
def fenceAll (acq : Bool) (s : State) : State := match performAll s s.turn with
  | .ended s => s
  | .closed s => goOn (acquired acq s)

/-- FENCE (R180). -/
def execFence (ord : BitVec 2) (_scope : BitVec 3) (s : State) : Result := .next (fenceAll (acquires ord) s)

/-- FENCE.sc: one total order holds because the module's steps are taken one after another (R286, log 6). -/
def execFenceSc (_scope : BitVec 3) (s : State) : Result := .next (fenceAll true s)

/-- The registers that the bound bits of SBAR name (R181). -/
def sbarRegs (names : BitVec 20) : List Nat := ((span 0 16).filter (fun k => names.getLsbD k)).map (fun k => 48 + k)

/-- Filled entries of the named load streams discarded, with what their fills have asked of the domain (R181). -/
def discardNamed (x : Ctx) : List Nat → Ctx
  | [] => x
  | r :: rest =>
    let x := match find? x.streams r with
      | some st => { x.forget (fun k => k == r) with streams := put x.streams r st.discard }
      | none => x
    discardNamed x rest

/-- SBAR: the accesses of the named streams before it perform, those in the domain too, before any after it (R149, R181). -/
def execSbar (names : BitVec 20) (s : State) : Result :=
  match drainNamed s s.turn (sbarRegs names) with
  | .fault s _ => .next (takeStop s s.turn none)
  | .wait s => .next s
  | .gone s => .next s
  | .done s _ => match breakLap s s.turn with
    | (s, false) => .next s
    | (s, true) => if domainPending s s.turn then .next s else .next (goOn (onCtx s s.turn (fun x => discardNamed x (sbarRegs names))))

/-! Batons -/

/-- A blocked wait at a place, timed from the cycle at which it began (R169). -/
def Ctx.waitOn (x : Ctx) (place now : Nat) (on : WaitOn) : Ctx :=
  if (find? x.waits place).any (fun w => w.on == on) then x
  else { x with waits := put x.waits place { on := on, since := now, returned := 0, inFlight := false } }

/-- A blocked wait of the front. -/
def blockOn (s : State) (on : WaitOn) : State :=
  onCtx s s.turn (fun x => x.waitOn 0 (cycleOf s s.turn) on)

/-- The batons that ended passes of a die still owe. -/
def settlePasses (s : State) (die : Nat) : State :=
  (keys ((dieAt s die).passes.filter (fun e => 3 ≤ e.2.state))).foldl (fun s id => settlePass s die id) s

/-- The front's pop and post of a BTN in one step, when both can be taken; it waits otherwise (R149, R191). -/
def frontBaton (take give : Bool) (s : State) : State :=
  let x := ctxAt s s.turn
  if take && x.tokens 3 == 0 then blockOn s (.batonEmpty 3)
  else if give && !batonRoom x 2 then blockOn s (.batonFull 2)
  else match (if give then breakLap s s.turn else (s, true)) with
    | (s, false) => s
    | (s, true) =>
      let s := onCtx s s.turn (fun x =>
        let x := if take then x.popOwn 3 else x
        let x := if give then x.post 2 else x
        { x with waits := remove x.waits 0 }.advance)
      let s := if take then settlePasses (postJobs s (cluOf s.turn)) (dieOf s.turn) else s
      if give then goJobs s (cluOf s.turn) else s

/-- BTN that waits: on b3 at the front, else in the vector queue (R191). -/
def execBtnWait (q : BitVec 2) (s : State) : Result :=
  if q = 3 then .next (frontBaton true false s) else issue (.btnWait q) s

/-- BTN that posts: to b2 at the front, else in the vector queue (R191). -/
def execBtnPost (q : BitVec 2) (s : State) : Result :=
  if q = 2 then .next (frontBaton false true s) else issue (.btnPost q) s

/-- BTN that waits and posts to the partner of its queue (R19, R191). -/
def execBtnWaitPost (q : BitVec 2) (s : State) : Result :=
  if q = 3 then .next (frontBaton true true s) else issue (.btnWaitPost q) s

end Sys2Proof.Machine
end

