-- ==== Sys2Proof/Machine/Sched.lean ====
section
/-! DEFINITION. The leg scheduler of a cluster: leg entries (R265), lap sizes and element records (R257–R259), the choice of
the next lap (R260, R270, R275), and the dispatch of a lap (R49, R50, R203, R387). -/

namespace Sys2Proof.Machine

/-- The entry of leg k (1 and up) of a launch (R265). -/
def Launch.leg (l : Launch) (k : Nat) : List Word := l.legs.getD (k - 1) []
def legVtype (e : List Word) : BitVec 17 := (hw e 1).setWidth 17
def legCarry (e : List Word) : Nat := field (hw e 1) 20 4
def legStages (e : List Word) : Nat := field (hw e 1) 24 3
/-- The tag that a leg entry gives register n (R37, R265). -/
def legTag (e : List Word) (n : Nat) : BitVec 5 := (hw e (2 + n / 12)).extractLsb' (5 * (n % 12)) 5

/-- The widths and extents of the WID fields of a header (R264). -/
def headerFields (h : List Word) : Nat := field (hw h 0) 16 4
def headerWidth (h : List Word) (k : Nat) : Nat := field (hw h 1) (7 * k) 7
def headerExtent (h : List Word) (k : Nat) : Nat := field (hw h (2 + k / 2)) (32 * (k % 2)) 32
def headerWidths (h : List Word) : List Nat := (span 0 (headerFields h)).map (headerWidth h)
def headerExtents (h : List Word) : List Nat := (span 0 (headerFields h)).map (headerExtent h)
/-- The full count: the product of the extents (R264). -/
def fullCount (h : List Word) : Nat := (headerExtents h).foldl (· * ·) 1

/-- The deadline class, W, the refinement budget, and the bounds of a header (R264). -/
def isDeadline (h : List Word) : Bool := flagAt (hw h 0) 0
def headerClim (h : List Word) : Nat := let n := field (hw h 0) 40 6; if n = 0 then 40 else n
def headerW (h : List Word) : Nat := field (hw h 18) 0 48
def headerNear (h : List Word) : Nat := field (hw h 19) 0 48
def headerFar (h : List Word) : Nat := field (hw h 20) 0 48
def headerVcyc (h : List Word) : Nat := field (hw h 21) 0 32
def headerVmax (h : List Word) : Nat := field (hw h 21) 32 16
def headerD (h : List Word) : Nat := field (hw h 22) 0 48

/-- The element count of a launch (R271). -/
def Launch.total (l : Launch) : Nat := min l.count (fullCount l.header)

/-- A core that takes laps: a lane group is in service (R154). -/
def inService (s : State) (c : Nat) : Bool := 0 < (coreAt s (coreOf c)).groups

/-- The fewest lane groups in service on a core of a cluster that is itself in service (R258). -/
def cluGroups (s : State) (clu : Nat) : Nat :=
  ((span (clu * 4) 4).map (fun k => (coreAt s k).groups)).foldl (fun m g => if g = 0 then m else min m g) 8

/-- The bits of the widest carry of a leg (R258). -/
def widestCarry (e : List Word) : Nat := ((span 56 (legCarry e)).map (fun n => tagWidth (legTag e n).toNat)).foldl max 0

/-- The lap size of a leg on a cluster (R258). -/
def lapSize (s : State) (clu : Nat) (e : List Word) : Nat :=
  let n := vlmaxOf (legVtype e) (cluGroups s clu)
  if legCarry e = 0 then n else min n (16384 / widestCarry e)

/-- The slots of 64 bytes that an element's record takes in the pool of a leg (R257, R258). -/
def recordSlots (e : List Word) : Nat :=
  let bytes := ((span 56 (legCarry e)).map (fun n => max 1 (tagWidth (legTag e n).toNat / 8))).foldl (· + ·) 8
  if (bytes + 7) / 8 * 8 ≤ 64 then 1 else 2

/-- The slots reserved for each element of a launch (R259). -/
def launchSlots (l : Launch) : Nat := (l.legs.map recordSlots).foldl max 1

/-- The launches of a cluster's die. -/
def launchesOf (s : State) (clu : Nat) : SMap Launch := (dieAt s (dieOfClu clu)).launches

/-- The elements of a launch that are resident in a cluster (R259). -/
def residentElems (s : State) (clu launch : Nat) : Nat :=
  let x := cluAt s clu
  let running := (ctxsOfClu clu).map (fun c =>
    let y := ctxAt s c
    if y.occ ≠ .free ∧ y.work.launch = launch then y.work.nd else 0)
  let saved := (x.saved.map (fun v => ctxAt s v.num)).map (fun y => if y.work.launch = launch then y.work.nd else 0)
  let pooled := (x.pools.filter (fun p => p.launch == launch)).map (fun p => p.elems.length)
  (running ++ saved ++ pooled).foldl (· + ·) 0

/-- The slots that the elements resident in a cluster reserve; its storage has 8,192 (R196, R259). -/
def reservedSlots (s : State) (clu : Nat) : Nat :=
  ((launchesOf s clu).map (fun e => launchSlots e.2 * residentElems s clu e.1)).foldl (· + ·) 0

/-- A cluster that runs laps: available, on, cool and neither scrubbed nor fenced (R268, R341, R348, R353, R358). -/
def cluOpen (x : Cluster) : Bool := x.scrub.isNone && x.power == .on && !x.fenced && !x.hot

/-- A launch that may dispatch laps: it runs, its round is on, and it is not to stop (R271, R273, R295, R296). -/
def Launch.live (l : Launch) : Bool := l.ready && l.stopped.isNone && l.roundOn && !l.restop

/-- A launch occupies at most clim clusters at once (R264): a new lap goes where it has elements already, or to one more
cluster while it may have more. -/
def mayOccupy (s : State) (clu id : Nat) (l : Launch) : Bool :=
  residentElems s clu id != 0 ||
    Nat.blt (l.clusters.filter (fun k => residentElems s k id != 0)).length (headerClim l.header)

/-- The next new lap of a launch on a cluster: its first index and size, when one can be cut (R259, R275). -/
def newLap (s : State) (clu id : Nat) (l : Launch) : Option (Nat × Nat) :=
  let n := min (lapSize s clu (l.leg 1)) (l.total - l.cut)
  if l.live && l.clusters.contains clu && mayOccupy s clu id l && l.cut < l.total && n != 0 &&
      reservedSlots s clu + n * launchSlots l ≤ 8192 then some (l.cut, n) else none

/-- What a free context may be given (R260). -/
inductive Cand where
  | saved (i : Nat)
  | pool (launch leg : Nat)
  | fresh (launch : Nat)
  deriving DecidableEq, Repr

/-- The cycle at which a pool's oldest element entered. -/
def Pool.oldest (p : Pool) : Nat := match p.elems with
  | e :: _ => e.entered
  | [] => 0

/-- A pool whose launch is not preempted on its cluster and still runs (R262). -/
def poolLive (s : State) (clu : Nat) (p : Pool) : Bool := match find? (launchesOf s clu) p.launch with
  | some l => l.live && !l.preempted.contains clu && !p.elems.isEmpty
  | none => false

def poolFull (s : State) (clu : Nat) (p : Pool) : Bool := match find? (launchesOf s clu) p.launch with
  | some l => lapSize s clu (l.leg p.leg) ≤ p.elems.length
  | none => false

/-- The oldest element of a pool entered a number of cycles ago, or more (R260). -/
def poolAged (s : State) (clu age : Nat) (p : Pool) : Bool :=
  !p.elems.isEmpty && Nat.ble (p.oldest + age) (dieAt s (dieOfClu clu)).cycle

/-- The pool of least age key in a list; the lower launch and leg among equals. -/
def firstPool (key : Pool → Nat) : List Pool → Option Pool
  | [] => none
  | p :: r => match firstPool key r with
    | none => some p
    | some q => some (if key p ≤ key q then p else q)

/-- The place of a launch's saved lap in the cluster's list, preempted ones alone. -/
def savedOf (s : State) (launch : Nat) : Nat → List Saved → Option Nat
  | _, [] => none
  | i, v :: r =>
    if !v.yielded ∧ (ctxAt s v.num).work.launch = launch then some i else savedOf s launch (i + 1) r

/-- A saved lap may run on: its round is not one that a re-fire stops, which discards it (R296). -/
def savedLive (s : State) (v : Saved) : Bool := match launchOf s v.num with
  | some l => l.stopped.isNone && !l.restop
  | none => true

/-- The place of the first yielded lap in the cluster's list (R90). -/
def yieldedOf (s : State) : Nat → List Saved → Option Nat
  | _, [] => none
  | i, v :: r => if v.yielded && savedLive s v then some i else yieldedOf s (i + 1) r

/-- The ready lap, on a cluster, of launches of equal standing: a saved one, a full pool, an aged one, or a new lap (R260). Among
equal deadlines the saved laps of all of them go first, and new laps go in the order of the launches' ids (log 79). -/
def readyAmong (s : State) (clu : Nat) (ls : List (Nat × Launch)) : Option Cand :=
  let x := cluAt s clu
  match firstSome ls (fun e => if e.2.stopped.isSome || e.2.restop then none else savedOf s e.1 0 x.saved) with
  | some i => some (.saved i)
  | none =>
    let ps := x.pools.filter (fun p => ls.any (fun e => e.1 == p.launch) && poolLive s clu p)
    match firstPool (fun p => p.leg) (ps.filter (poolFull s clu)) with
    | some p => some (.pool p.launch p.leg)
    | none => match firstPool Pool.oldest (ps.filter (fun p => p.aged || poolAged s clu 4096 p)) with
      | some p => some (.pool p.launch p.leg)
      | none => firstSome ls (fun e => (newLap s clu e.1 e.2).map (fun _ => .fresh e.1))

/-- The ready lap of one launch on a cluster (R260). -/
def readyLap (s : State) (clu id : Nat) (l : Launch) : Option Cand := readyAmong s clu [(id, l)]

/-- Launches in the order in which they are served: by deadline, best-effort ones after them by age (R260, R270). -/
def serveKey (e : Nat × Launch) : Nat :=
  if isDeadline e.2.header then e.2.promise else 2 ^ 80 + e.2.admitted * 2 ^ 16 + e.1

def insertLaunch (e : Nat × Launch) : List (Nat × Launch) → List (Nat × Launch)
  | [] => [e]
  | f :: r => if serveKey e ≤ serveKey f then e :: f :: r else f :: insertLaunch e r

def servedOrder : List (Nat × Launch) → List (Nat × Launch)
  | [] => []
  | e :: r => insertLaunch e (servedOrder r)

/-- Context-cycles that best-effort laps held between two cycles (R270). -/
def heldBetween (lo hi : Nat) : SMap Nat → Nat
  | [] => 0
  | [(c, n)] => n * (hi - max lo c)
  | (c, n) :: (d, m) :: r => n * (min hi d - max lo c) + heldBetween lo hi ((d, m) :: r)

/-- Best-effort laps have held less than a sixteenth of the cluster's context-cycles over the last 65,536 (R270). -/
def beStarved (s : State) (clu : Nat) : Bool :=
  let now := (dieAt s (dieOfClu clu)).cycle
  heldBetween (now - 65536) now (cluAt s clu).beHist < 65536

/-- Two launches of one deadline, or one launch (R260). -/
def equalStanding (e f : Nat × Launch) : Bool := serveKey e == serveKey f

/-- The first ready lap of a list of launches in the order in which they are served; those of equal deadline are served together
(R260). -/
def firstReady (s : State) (clu : Nat) : List (Nat × Launch) → Option Cand
  | [] => none
  | e :: r => match readyAmong s clu (e :: r.takeWhile (equalStanding e)) with
    | some c => some c
    | none => firstReady s clu r

/-- The lap that a free context of a cluster is given (R260, R270). -/
def nextCand (s : State) (clu : Nat) : Option Cand :=
  let x := cluAt s clu
  match yieldedOf s 0 x.saved with
  | some i => some (.saved i)
  | none => match firstPool Pool.oldest (x.pools.filter (fun p => (p.overdue || poolAged s clu 16384 p) && poolLive s clu p)) with
    | some p => some (.pool p.launch p.leg)
    | none =>
      let ls := servedOrder (launchesOf s clu)
      let be := firstReady s clu (ls.filter (fun e => !isDeadline e.2.header))
      if beStarved s clu && be.isSome then be else firstReady s clu ls

/-- The free contexts of a cluster that may take a lap, lowest first (R154, R260); none takes one while the part is quiesced
(R371). -/
def freeContexts (s : State) (clu : Nat) : List Nat :=
  if cluOpen (cluAt s clu) && !s.pkg.quiesced then
    (ctxsOfClu clu).filter (fun c => (ctxAt s c).occ == .free && inService s c)
  else []

/-- The contexts of a cluster that are free, or will be as it wakes (R276, R353). -/
def spareContexts (s : State) (clu : Nat) : List Nat :=
  let x := cluAt s clu
  if x.scrub.isNone && x.power != .off && !x.fenced && !x.hot && !s.pkg.quiesced then
    (ctxsOfClu clu).filter (fun c => (ctxAt s c).occ == .free && inService s c)
  else []

/-! Dispatch -/

/-- The number whose bits [(i + 1) w − 1 : i w] are the w-bit values of a list. -/
def packBits (w : Nat) : List Nat → Nat
  | [] => 0
  | b :: r => b % 2 ^ w + 2 ^ w * packBits w r

/-- The carry registers of a lap: register v(56 + k) holds the k-th carried value of each element at its position (R50,
R258). -/
def carryRegs (e : List Word) (es : List PoolElem) : SMap VReg :=
  (span 0 (legCarry e)).foldl (fun m k =>
    let n := packBits (tagWidth (legTag e (56 + k)).toNat) (es.map (fun p => (p.carry.getD k 0).toNat))
    set 0 m (56 + k) (BitVec.ofNat 16384 n)) []

/-- The tag file of a leg entry (R265). -/
def legTags (e : List Word) : SMap (BitVec 5) := (span 0 64).foldl (fun m n => set 0 m n (legTag e n)) []

/-- The argument words of a header in x1 to x7 (R50, R264). -/
def argRegs (h : List Word) : SMap Word := (span 1 7).foldl (fun m k => set 0 m k (hw h (10 + k))) []

/-- The K trap CSRs at lap dispatch (R387). -/
def trapAtDispatch (p : PartDie) (c : Nat) : TrapRegs :=
  { TrapRegs.reset with vec := p.ptvec, dump := p.pdump + BitVec.ofNat 64 (4096 * (c % 1024)) }

/-- A context as a lap of a leg finds it (R49, R50, R387); the first segment's checkpoint is this state (R148). -/
def dispatched (s : State) (c : Nat) (id leg : Nat) (l : Launch) (l0 : Nat) (es : List PoolElem) : Ctx :=
  let x := (ctxAt s c).freed
  let e := l.leg leg
  let die := dieOf c
  let regs := { Regs.reset with
    x := argRegs l.header, v := carryRegs e es, tag := legTags e }
  let csr := { x.csr with
    vl := es.length, vtype := legVtype e, frm := BitVec.ofNat 3 (field (hw l.header 0) 9 3), srkey := hw l.header 9,
    srep := hw l.header 10, legno := BitVec.ofNat 16 leg }
  let pc := hw e 0
  let ck : Checkpoint :=
    { pc := pc, level := .u, ind := [], carried := [], vl := es.length, fflags := 0, es := 0, lapno := 0, laprem := 0,
      trim := none, handler := false, streams := [], whole := some (regs, csr) }
  { x with
    regs := regs
    csr := csr
    pc := pc
    level := .u
    trapK := trapAtDispatch (partDie (dieAt s die) l.part.toNat) c
    asid := l.asid
    partid := l.part
    lap := { Lap.none with ckpt := some ck, rewindable := true, buffering := true }
    groups := (coreAt s (coreOf c)).groups
    work := { launch := id, nd := es.length, l0 := l0, lins := es.map (fun p => p.lin), wids := es.map (fun p => p.wid),
              fieldW := headerWidths l.header, extent := headerExtents l.header, round := l.round }
    occ := .running
    since := (dieAt s die).cycle }

/-- Elements of new laps: consecutive linear indices, with nothing carried (R50, R275). -/
def newElems (l : Launch) (l0 n now : Nat) : List PoolElem :=
  (span l0 n).map (fun i =>
    { lin := i, wid := BitVec.ofNat 64 (widOfLin (headerWidths l.header) (headerExtents l.header) i), carry := [],
      entered := now })

/-- The staged inputs of a leg that have ended in a cluster, by slot (R203). -/
def stagedJob (s : State) (clu launch leg slot : Nat) : Option Job :=
  (cluAt s clu).jobs.find? (fun j => j.staged == some (launch, leg, slot))

/-- The staged inputs of a lap: all retired in state 4, one of them failed, or not yet (R203). -/
def stagesDone (s : State) (clu launch leg n : Nat) : Bool :=
  (span 0 n).all (fun k => match stagedJob s clu launch leg k with | some j => j.state == 4 | none => false)
def stageFailed (s : State) (clu launch leg n : Nat) : Option Job :=
  firstSome (span 0 n) (fun k => match stagedJob s clu launch leg k with
    | some j => if j.state = 5 ∨ j.state = 6 then some j else none
    | none => none)

/-- The staged inputs of a leg leave the cluster's list with their lap, those among them that have still to end, when one has
failed, too (R203; log 92). -/
def dropStages (s : State) (clu launch leg : Nat) : State :=
  onClu s clu (fun x => { x with jobs := x.jobs.filter (fun j => match j.staged with
    | some (a, b, _) => !(a == launch && b == leg)
    | none => true) })

/-- A pool without its oldest n elements; an empty one is gone, and what is left is as old as its oldest (R257, R260). -/
def takeFromPool (launch leg n now : Nat) : List Pool → List Pool
  | [] => []
  | p :: r =>
    if p.launch = launch ∧ p.leg = leg then
      match p.elems.drop n with
      | [] => r
      | e :: es => { p with elems := e :: es, aged := e.entered + 4096 ≤ now, overdue := e.entered + 16384 ≤ now } :: r
    else p :: takeFromPool launch leg n now r

/-- The pool of a launch and leg. -/
def poolOf (x : Cluster) (launch leg : Nat) : Option Pool := x.pools.find? (fun p => p.launch == launch && p.leg == leg)

/-- Elements that retire as killed because their staged input failed: the record names the card (R151, R203). -/
def killElems (s : State) (clu id : Nat) (l : Launch) (n code card : Nat) : State :=
  let s := record s (dieOfClu clu) { kind := 0x05, code := code, rung := 3, part := l.part, ctx := clu * 16, info := n,
                                     va := card, pa := 0 }
  onLaunch s (dieOfClu clu) id (fun l => { l with lost := l.lost + n, killed := l.killed + n })

/-- A lap of a leg given to a context, or, where a staged input failed, killed; nothing while a staged input runs. `take`
takes the elements from where they stand. -/
def giveLap (s : State) (c id leg : Nat) (l : Launch) (l0 : Nat) (es : List PoolElem) (take : State → State) : State :=
  let clu := cluOf c
  let n := legStages (l.leg leg)
  match stageFailed s clu id leg n with
  | some j => dropStages (killElems (take s) clu id l es.length j.code j.cardVa) clu id leg
  | none =>
    if stagesDone s clu id leg n then
      let s := dropStages (take s) clu id leg
      setCtx s c (dispatched s c id leg l l0 es)
    else s

/-- A list without its n-th entry. -/
def dropNth {α : Type} : Nat → List α → List α
  | _, [] => []
  | 0, _ :: r => r
  | n + 1, a :: r => a :: dropNth n r

/-- Pools of a launch on a cluster whose ages go on (or stop): while they are stopped, `entered` holds the age (R262). -/
def resumeAges (launch now : Nat) : List Pool → List Pool
  | [] => []
  | p :: r =>
    (if p.launch = launch then { p with elems := p.elems.map (fun e => { e with entered := now - e.entered }) } else p) ::
      resumeAges launch now r
def stopAges (launch now : Nat) (ps : List Pool) : List Pool := resumeAges launch now ps

/-- A launch runs on a cluster again: its pools age and its saved jobs are accepted again in their order (R212, R262, R276). -/
def resumeOn (s : State) (clu id : Nat) : State :=
  match find? (launchesOf s clu) id with
  | none => s
  | some l =>
    if l.preempted.contains clu then
      let now := (dieAt s (dieOfClu clu)).cycle
      let s := onLaunch s (dieOfClu clu) id (fun l => { l with preempted := l.preempted.filter (fun k => k != clu) })
      let s := onClu s clu (fun x => { x with pools := resumeAges id now x.pools })
      goJobs s clu
    else s

/-- The save area holds a slot of 256 KiB for each context of a die (R332). -/
def slotSize : Nat := 2 ^ 18
def slotAt (s : State) (c : Nat) : Nat := (dieAt s (dieOf c)).hsave.toNat + slotSize * (c % 1024)

/-- The partition whose key a context's slot is kept under (R332, R334). -/
def Ctx.slotPart (x : Ctx) : BitVec 16 := if x.secure then 0xFFFF else x.partid

/-- The slot of a context is written as its lap is saved, under the key of the context's partition; one outside the near tier is not,
nor one of an N-world context in a region of the S world, which leaves the record of a violation (R276, R332, R336; log 12). -/
def writeSlot (s : State) (c : Nat) : State :=
  let x := ctxAt s c
  let pa := slotAt s c
  if !inNear (pa + slotSize - 1) then s
  else match (span 0 64).find? (fun j => (regionOf s.pkg (pa + 4096 * j)).secure && !x.secure) with
    | some j => logViolation s (unitAgent (dieOf c) 0 x.slotPart x.secure) (pa + 4096 * j)
    | none => writeArea s pa slotSize (some (keyOf s.pkg x.slotPart))

/-- The slot of a saved lap is read as the lap is restored: data of it that cannot be used kill the lap (R151, R332, R339). -/
def readSlot (s : State) (num c : Nat) : State :=
  let pa := slotAt s (num % 4096)
  match s.pkg.sectors.find? (fun e => pa ≤ e.1 && e.1 < pa + slotSize && (e.2 == .uncorrectable || e.2 == .tagFails)) with
  | none => s
  | some e =>
    let p : Place := { key := e.1, pa := some e.1, far := false, dev := false, nsp := false, raw := false }
    let x := ctxAt s c
    killLap (recordSector s (unitAgent (dieOf c) 0 x.slotPart x.secure) 0 p e.2) c (if e.2 == .tagFails then cIntegrity else cMemue) 0 e.1

/-- A saved lap on a context: what its context held, with the context's own traps at H and M (R90, R276). A lap that has been saved
inside keeps the number of lane groups under which it has started, whichever core it runs on, until its next lap_start takes that
of the core (R42, R82; log 90). -/
def restoreSaved (s : State) (c i : Nat) : State :=
  let clu := cluOf c
  match (cluAt s clu).saved[i]? with
  | none => s
  | some v =>
    let x := ctxAt s c
    let y := ctxAt s v.num
    let s := onClu { s with ctxs := remove s.ctxs v.num } clu (fun k => { k with saved := dropNth i k.saved })
    let s := setCtx s c { y.takeMarks (fun _ => true) with
      trapH := x.trapH, trapM := x.trapM, occ := .running, stopReq := none, halting := x.halting, since := (dieAt s (dieOf c)).cycle }
    readSlot (resumeOn (renameLap s clu v.num c) clu y.work.launch) v.num c

/-- The consumer entries of a record in which a launch is bound to a version (R293). -/
def bindEntries (id v : Nat) (cs : List (Nat × Nat × Nat)) : List (Nat × Nat × Nat) :=
  cs.map (fun e => if e.1 = id then (e.1, e.2.1, v) else e)

/-- A launch bound to the latest version of each of its input records (R295). -/
def bindLatest (s : State) (die id : Nat) : State :=
  match find? (dieAt s die).launches id with
  | none => s
  | some l =>
    let ins := (inRecords l.header).map Prod.fst
    let s := onDie s die (fun d => ins.foldl (fun d r =>
      onRec d r (fun p => { p with consumers := bindEntries id p.version p.consumers })) d)
    onLaunch s die id (fun l => { l with bound := ins.map (fun r => (r, (recAt (dieAt s die) r).version)) })

/-- A candidate given to a free context (R260). -/
def giveCand (s : State) (c : Nat) : Cand → State
  | .saved i => restoreSaved s c i
  | .pool id leg =>
    let clu := cluOf c
    match find? (launchesOf s clu) id, poolOf (cluAt s clu) id leg with
    | some l, some p =>
      let n := min (lapSize s clu (l.leg leg)) p.elems.length
      let now := (dieAt s (dieOf c)).cycle
      let s := resumeOn s clu id
      giveLap s c id leg l (match p.elems with | e :: _ => e.lin | [] => 0) (p.elems.take n)
        (fun s => onClu s clu (fun x => { x with pools := takeFromPool id leg n now x.pools }))
    | _, _ => s
  | .fresh id =>
    let clu := cluOf c
    match find? (launchesOf s clu) id with
    | none => s
    | some l => match newLap s clu id l with
      | none => s
      | some (l0, n) =>
        let s := resumeOn (if l.cut = 0 then bindLatest s (dieOf c) id else s) clu id
        giveLap s c id 1 l l0 (newElems l l0 n (dieAt s (dieOf c)).cycle)
          (fun s => onLaunch s (dieOf c) id (fun l => { l with cut := l.cut + n }))

/-- A lap waits on a cluster for a context while none is free (R90, R276). -/
def lapWaits (s : State) (clu : Nat) : Bool := (freeContexts s clu).isEmpty && (nextCand s clu).isSome

/-! Pools filled by NEXT -/

/-- The carried values of the element at position i for a leg (R258). -/
def carriedAt (x : Ctx) (e : List Word) (i : Nat) : List Word :=
  (span 0 (legCarry e)).map (fun k =>
    let w := tagWidth (legTag e (56 + k)).toNat
    BitVec.ofNat 64 (regField (x.v (56 + k)) (i * w) w))

/-- An element at the end of a leg's pool (R257). -/
def intoPool (launch leg : Nat) (e : PoolElem) : List Pool → List Pool
  | [] => [{ launch := launch, leg := leg, elems := [e], aged := false, overdue := false }]
  | p :: r => if p.launch = launch ∧ p.leg = leg then { p with elems := p.elems ++ [e] } :: r
              else p :: intoPool launch leg e r

end Sys2Proof.Machine
end

