-- ==== Sys2Proof/Machine/Laps.lean ====
section
/-! DEFINITION. Hardware laps (R81–R84, R87), the end of a leg (R88, R89) and YIELD (R90). -/

namespace Sys2Proof.Machine

/-- The appended entries of the context's store streams perform, and its lap store buffer commits, at the close of a lap (R82,
R148). A run of VBFLY.H.f ends before it, though no vector word has followed (R126; log 87). -/
def commitLap (s : State) (c : Nat) : Closing := match closeRun s c with
  | (s, true) => sendAll s c
  | (s, false) => .ended s

/-- The induction registers of a loop advanced by n elements (R48, R82). -/
def advanceInd (x : Ctx) (ind : BitVec 8) (n : Nat) : List Nat → Ctx
  | [] => x
  | k :: r =>
    let y := if ind.getLsbD k then
        x.setX (BitVec.ofNat 5 (8 + k)) (x.x (BitVec.ofNat 5 (8 + k)) + BitVec.ofNat 64 n * x.istep k)
      else x
    advanceInd y ind n r

/-- close_lap of R82 on the registers: n is the lesser of vl and laprem; a stop that waits for a lap's end is due. -/
def Ctx.closeLap (x : Ctx) : Ctx :=
  let n := min x.vl x.loop.laprem
  let y := advanceInd x x.loop.ind n (span 0 8)
  { y with loop := { y.loop with laprem := y.loop.laprem - n }, stopReq := y.stopReq.map (fun _ => 0) }

/-- The loop ends: vl keeps the value it reads, under a new untrimmed limit, and no checkpoint is left (R82, R142,
R148). -/
def Ctx.endLoop (x : Ctx) : Ctx :=
  { x with csr := { x.csr with vl := x.vl }, lap := Lap.none, loop := { Loop.none with start := x.loop.start } }

/-- Whether a context may leave its core at the boundary of a lap: the die has asked it to stop, or it has yielded (R90, R276). -/
def Ctx.leaves (x : Ctx) : Bool := x.stopReq.isSome || x.yielding

/-- The next lap starts, unless the boundary before it holds the context back: it starts then when the context runs on, on the core
it has then (R82, R87, R90). -/
def Ctx.nextLap (x : Ctx) (groups : Nat) (held : Bool) : Ctx :=
  if held then { x with between := true, lap := Lap.none } else x.lapStart groups

/-- The loop that a LOOP opens over a count (R82). -/
def openLoop (x : Ctx) (count : Nat) (ind : BitVec 8) (cvb : BitVec 6) (cvg : BitVec 2) : Ctx :=
  { x with loop := { active := true, start := x.pc + 4, ind := ind, cvb := cvb, cvn := 2 ^ cvg.toNat, lapno := 0,
                     laprem := count, count := count } }

/-- LOOP (R82): an active loop closes first; the count is read after that. -/
def execLoop (a : XReg) (ind : BitVec 8) (cvb : BitVec 6) (cvg : BitVec 2) (s : State) : Result :=
  let c := s.turn
  let g := (coreAt s (coreOf c)).groups
  match commitLap s c with
  | .ended s => .next s
  | .closed s => .next (onCtx s c (fun x =>
      let y := if x.loop.active then x.closeLap.endLoop else x
      ((openLoop y (y.x a).toNat ind cvb cvg).nextLap g (x.loop.active && y.leaves)).advance))

/-- LAPEND (R82). -/
def execLapend (s : State) : Result :=
  let c := s.turn
  let g := (coreAt s (coreOf c)).groups
  if !(ctxAt s c).loop.active then .next (goOn s)
  else match commitLap s c with
    | .ended s => .next s
    | .closed s => .next (onCtx s c (fun x =>
        let y := x.closeLap
        if y.loop.laprem = 0 then y.endLoop.advance
        else ({ y with loop := { y.loop with lapno := y.loop.lapno + 1 } }.nextLap g y.leaves).jump y.loop.start))

/-- LAPEXIT (R82). -/
def execLapexit (s : State) : Result :=
  let c := s.turn
  if !(ctxAt s c).loop.active then .next (goOn s)
  else match commitLap s c with
    | .ended s => .next s
    | .closed s => .next (onCtx s c (fun x => x.closeLap.endLoop.advance))

/-- YIELD asks for what YIELD_SWITCH does (R90). -/
def execYield (s : State) : Result := .next (goOn (onCtx s s.turn (fun x => { x with yielding := true })))

/-! NEXT -/

/-- Engine jobs and work items that a context issued and that have not retired (R88, R227). -/
def ownJobs (s : State) (c : Nat) : Bool :=
  (cluAt s (cluOf c)).jobs.any (fun j => j.issuer == some c && j.state < 4)

/-- The jobs that the current pass of a context holds back until it runs: its own, and those that an edge orders after one of them
(R88, R200, R238). -/
def heldByPass (pass : Option Nat) : List Job → List Job → List Job
  | held, [] => held
  | held, j :: r =>
    let own : Bool := match j.kind with
      | .member id | .crfn id _ => pass == some id
      | _ => false
    heldByPass pass (if own || held.any (fun e => jobBefore e j) then j :: held else held) r

/-- Those of them that no key pass holds back which has still to run (R88, R227, R238). -/
def earlierJobs (s : State) (c : Nat) : Bool :=
  let js := (cluAt s (cluOf c)).jobs
  let held := (heldByPass (ctxAt s c).pass [] js).map (fun j => j.id)
  js.any (fun j => j.issuer == some c && j.state < 4 && !held.contains j.id)

/-- The first element whose successor names no leg of the table (R88). -/
def badSuccessor (legs : Nat) : Nat → List Nat → Option Nat
  | _, [] => none
  | i, k :: r => if k ≠ 0 ∧ legs < k then some i else badSuccessor legs (i + 1) r

/-- The elements of a lap handed to the pools of their successors, in ascending position (R88, R257, R258). -/
def handOver (s : State) (c now : Nat) (l : Launch) : Nat → List Nat → State
  | _, [] => s
  | i, k :: r =>
    let x := ctxAt s c
    let s := if k = 0 then s else
      onClu s (cluOf c) (fun u =>
        let e : PoolElem := { lin := x.work.lins.getD i 0, wid := x.work.wids.getD i 0, carry := carriedAt x (l.leg k) i,
                              entered := if l.preempted.contains (cluOf c) then 0 else now }
        { u with pools := intoPool x.work.launch k e u.pools })
    handOver s c now l (i + 1) r

/-- The lap of a context ends: its elements go to their successors or retire, and the context is free (R88, R296). -/
def endLap (s : State) (c : Nat) (l : Launch) (succ : List Nat) : State :=
  let x := ctxAt s c
  let now := cycleOf s c
  let s := if l.restop then s else handOver s c now l 0 succ
  let s := onLaunch s (dieOf c) x.work.launch (fun l =>
    { l with retired := l.retired + if l.restop then 0 else (succ.filter (fun k => k == 0)).length })
  freeCtx s c

/-- NEXT with its successors, once earlier work has retired (R82, R88, R89, R190, R241): the active loop closes; a
successor that is no leg raises PARAM at the NEXT; else the context's current pass is run, whose refreshes and what follows them NEXT
waits for too, and streams are unbound. `pop` takes the strips that NEXT reads, which stay in their registers. NEXT is a release:
what has left for the domain performs there first (R290). -/
def runNext (succ : Ctx → List Nat) (pop : Ctx → Ctx) (s : State) : State :=
  let c := s.turn
  match (commitLap s c).away c with
  | .ended s => s
  | .closed s =>
    let s := onCtx s c (fun x => if x.loop.active then x.closeLap.endLoop else { x with lap := Lap.none })
    let x := ctxAt s c
    let l? := launchOf s c
    let ks := succ (pop x)
    if !x.vq.isEmpty || !x.vx.isEmpty || earlierJobs s c then s
    else match l?.bind (fun l => badSuccessor l.legs.length 0 ks) with
    | some i => takeFront s c cParam (BitVec.ofNat 64 i)
    | none =>
      let s := leavePass s c
      if ownJobs s c then s
      else match l? with
      | none => freeCtx s c
      | some l => endLap (onCtx s c (fun x =>
            { pop x with streams := [], batons := [], owed := [], csr := { x.csr with retired := x.csr.retired + 1 } })) c l ks

/-- The successors in the n16 image from register va on (R88). -/
def successorsAt (a : VNum) (x : Ctx) : List Nat :=
  (span 0 x.work.nd).map (fun i => regField (x.v ((a.toNat + i / 1024) % 64)) (i % 1024 * 16) 16)

/-- The registers that NEXT reads, which pop a strip where they are bound (R88). -/
def nextRegs (a : VNum) (nd : Nat) : List Nat := (span 0 ((nd + 1023) / 1024)).map (fun k => (a.toNat + k) % 64)

/-- The bound load streams among the registers that NEXT reads, ready to be popped or not (R88, R189). -/
def nextStreams (x : Ctx) (a : VNum) : List Nat :=
  ((nextRegs a x.work.nd).filter (fun r => match find? x.streams r with
    | some st => !st.store
    | none => false)).eraseDups

/-- NEXT per element (R88). A fault of the strip that it would pop is one of the access engine (R189). -/
def execNextPerElement (a : VNum) (s : State) : Result :=
  let c := s.turn
  let rs := nextStreams (ctxAt s c) a
  let s := fillFor s c [] streamReady rs
  let x := ctxAt s c
  if !rs.all (streamReady x) then .next (blockOn s (.loadEmpty (rs.headD 0 - 48)))
  else match popFaults x rs with
    | some (code, val) =>
      if code = cMemue ∨ code = cIntegrity then
        .next (consumePoison s c 0 val.toNat (domainPlace val.toNat) (if code = cMemue then .uncorrectable else .tagFails))
      else .next (takeStop s c (some { unit := true, code := code, val := val, call := false, slot := none }))
    | none => .next (runNext (successorsAt a) (fun y => popStreams y rs) s)

/-- NEXT with one successor (R88). -/
def execNextUniform (r : XReg) (s : State) : Result :=
  .next (runNext (fun x => List.replicate x.work.nd (x.x r).toNat) id s)

end Sys2Proof.Machine
end

