-- ==== Sys2Proof/Machine/System.lean ====
section
/-! DEFINITION. The system instructions (R155–R162): the CSRs by number (R49, R137, R330, R333, R346, R349, R357), what a
write of each does, traps, breakpoints, trace records and WFE; halting for the debugger (R355, R356). -/

namespace Sys2Proof.Machine

/-! Halting for the debugger -/

/-- A context halts at its pointer pair: the stop goes to the debugger and its instructions stay queued, each with the
batons it has popped back in their queues (R135, R158, R350; log 15). -/
def haltNow (s : State) (c code : Nat) : State :=
  let s := addEvent (noteStop s c code) c code
  onCtx s c (fun x =>
    let y := returnBatons x x.vx
    { y.discardLoads with
      vq := x.vx.map (fun e => { e with popped := false }) ++ x.vq, vx := [], waits := [], occ := .halted, halting := none
      dbgStep := false, stops := x.stops + 1 })

/-- The answer to a request of the debug unit of a cluster, in dbgstat (R349). -/
def debugAnswer (s : State) (clu n : Nat) : State :=
  onClu s clu (fun x => { x with trace := { x.trace with dbgstat := BitVec.ofNat 2 n } })

/-- A halt that has been asked for takes effect at the pointer pair of its context, when its store streams have performed what has
been appended to them, or waits; a context without a lap halts in its next one (R190, R355). The request is answered then. -/
def takeHalt (s : State) (c : Nat) : State :=
  match (ctxAt s c).halting with
  | none => s
  | some h =>
    if (ctxAt s c).occ ≠ .running ∨ !frontFree (ctxAt s c) then s
    else
      let s := settle (startLap s c) c
      if (ctxAt s c).occ ≠ .running ∨ drainsOn s c then s
      else
        let s := haltNow s c h.code
        match h.asker with
        | some k => debugAnswer s k 0
        | none => s

/-- A halt asked of a context that runs, or that has no lap; one that is halted already stays so. -/
def askHalt (s : State) (c code : Nat) (asker : Option Nat) : State :=
  let x := ctxAt s c
  if x.occ = .running ∨ x.occ = .free then
    takeHalt (onCtx s c (fun x => { x with halting := some { code := code, asker := asker } })) c
  else s

/-- A halt of a context that a breakpoint, a trigger or a single step asks for (R158, R350, R356). -/
def haltCtx (s : State) (c code : Nat) : State := if (ctxAt s c).occ = .running then askHalt s c code none else s

/-- A halted context runs again, for good or for one instruction (R356). -/
def resumeCtx (s : State) (c : Nat) (one : Bool) : State :=
  onCtx s c (fun x => if x.occ = .halted then { x with occ := .running, dbgStep := one } else { x with halting := none })

/-- A cluster in a power state that keeps its contexts wakes for a request; one that is too hot is held as it is (R355, R358). -/
def wakeClu (s : State) (clu : Nat) : State :=
  onClu s clu (fun x => if (x.power = .gated ∨ x.power = .retention) ∧ !x.hot then
    { x with power := .on, since := (dieAt s (dieOfClu clu)).cycle, idle := (dieAt s (dieOfClu clu)).cycle } else x)

/-- A request of the debug unit that is refused: its record, and the answer (R356). -/
def debugRefused (s : State) (clu target : Nat) : State :=
  let r : ErrRec :=
    { kind := 0x09, code := cAccess, rung := 1, part := (ctxAt s target).partid, ctx := target,
      info := if (ctxAt s target).secure then 1 else 0, va := 0, pa := 0 }
  debugAnswer (record s (dieOfClu clu) r) clu 1

/-- A request of the debug unit: 1 halt, 2 resume, 3 step, with its answer in dbgstat, which shows a halt that has still to take
effect as busy (R349, R355, R356). -/
def debugRequest (s : State) (clu op target : Nat) : State :=
  if op = 0 ∨ 3 < op then s
  else if !mayControl s target then debugRefused s clu target
  else if (cluAt s (cluOf target)).power = .off then debugAnswer s clu 2
  else
    let s := wakeClu s (cluOf target)
    if op = 1 then
      let s := askHalt (debugAnswer s clu 3) target 0x44 (some clu)
      if (ctxAt s target).halting.isNone then debugAnswer s clu 0 else s
    else debugAnswer (resumeCtx s target (op == 3)) clu 0

/-! Reading CSRs -/

/-- The tags of one tagw register (R37). -/
def tagWord (x : Ctx) (j : Nat) : Word :=
  BitVec.ofNat 64 (packBits 5 ((span (12 * j) (if j < 5 then 12 else 4)).map (fun n => (x.tag n).toNat)))

/-- bstat (R49). -/
def batonWord (x : Ctx) : Word := BitVec.ofNat 64 (packBits 4 ((span 0 4).map (fun q => get 0 x.batons q)))

/-- sbound (R49). -/
def boundWord (x : Ctx) : Word :=
  BitVec.ofNat 64 (packBits 1 ((span 48 16).map (fun r => if (find? x.streams r).isSome then 1 else 0)))

/-- The nine trap CSRs of a level, from its tvec on (R137). -/
def trapWord (t : TrapRegs) : Nat → Word
  | 0 => t.vec
  | 1 => t.cause
  | 2 => t.val
  | 3 => t.pc
  | 4 => t.cp
  | 5 => t.es.setWidth 64
  | 6 => t.stat
  | 7 => t.scratch
  | _ => t.dump

/-- The power code of a cluster (R346). -/
def Power.code : Power → Nat
  | .on => 0
  | .gated => 1
  | .retention => 2
  | .off => 3

/-- The power states of n clusters of a die from one on (R346). -/
def powerWord (s : State) (die k n : Nat) : Word :=
  BitVec.ofNat 64 (packBits 2 ((span k n).map (fun c => (cluAt s (die * 64 + c)).power.code)))

/-- Word k of a record of the physical log; a hypervisor reads zero for one of secure firmware (R346). -/
def logWord (p : Package) (sel k : Nat) (hyper : Bool) : Word :=
  let r := get (0 : BitVec 256) p.plog sel
  if hyper && r.extractLsb' 48 16 == 0xFFFF then 0 else r.extractLsb' (64 * k) 64

/-- The table key of a world selector, as a context of a die names it: fronts by ctxid, blocks from 2^12 on (R333). -/
def worldKey (die sel : Nat) : Option Nat :=
  if sel < 0x280 then some (die * 1024 + sel)
  else if 0x800 ≤ sel ∧ sel ≤ 0x80A then some (2 ^ 12 + sel)
  else none

/-- A user CSR (R49). -/
def userCsr (s : State) (c n : Nat) : Word :=
  let x := ctxAt s c
  let nat (k : Nat) : Word := BitVec.ofNat 64 k
  if 0x018 ≤ n ∧ n ≤ 0x01F then x.istep (n - 0x018)
  else if 0x020 ≤ n ∧ n ≤ 0x025 then tagWord x (n - 0x020)
  else match n with
  | 0x000 => nat x.vl
  | 0x001 => nat (vlmax s c)
  | 0x002 => x.csr.vtype.setWidth 64
  | 0x003 => x.csr.fflags.setWidth 64
  | 0x004 => x.csr.frm.setWidth 64
  | 0x005 => nat x.csr.es
  | 0x006 => nat (if x.loop.active then x.loop.lapno else 0)
  | 0x007 => nat (if x.loop.active then x.loop.laprem else 0)
  | 0x008 => x.csr.mq
  | 0x009 => x.csr.srkey
  | 0x00A => x.csr.srep
  | 0x00B => x.csr.legno.setWidth 64
  | 0x00C => nat c
  | 0x00D => nat (cycleOf s c)
  | 0x00E => x.csr.retired
  | 0x00F => batonWord x
  | 0x010 => x.csr.slips
  | 0x011 => x.csr.slipv
  | 0x012 => x.csr.slipm
  | 0x013 => x.csr.slipi
  | 0x028 => x.csr.wfield.setWidth 64
  | 0x030 => boundWord x
  | _ => 0

/-- A CSR of K (R137). -/
def kernelCsr (s : State) (c n : Nat) : Word :=
  let x := ctxAt s c
  let p := partDie (dieAt s (dieOf c)) x.partid.toNat
  match n with
  | 0x109 => x.asid.setWidth 64
  | 0x10A => x.partid.setWidth 64
  | 0x10B => p.eqbase
  | 0x10C => p.ptvec
  | 0x10D => p.pdump
  | _ => trapWord x.trapK (n - 0x100)

/-- A CSR of H (R137, R333, R346). -/
def hyperCsr (s : State) (c n : Nat) : Word :=
  let d := dieAt s (dieOf c)
  let p := s.pkg
  match n with
  | 0x189 => d.hasid
  | 0x18A => d.hasvec
  | 0x18B => d.hasroot
  | 0x18C => d.hasctl
  | 0x18D => d.hsave
  | 0x190 => BitVec.ofNat 64 p.logCount
  | 0x191 => p.hlogsel.setWidth 64
  | 0x192 => logWord p p.hlogsel.toNat 0 true
  | 0x193 => logWord p p.hlogsel.toNat 1 true
  | 0x194 => logWord p p.hlogsel.toNat 2 true
  | 0x195 => logWord p p.hlogsel.toNat 3 true
  | 0x196 => p.hfence
  | 0x197 => powerWord s (dieOf c) 0 32
  | 0x198 => powerWord s (dieOf c) 32 8
  | 0x199 => d.hcorr
  | _ => trapWord (ctxAt s c).trapH (n - 0x180)

/-- A CSR of M (R137, R333, R346). -/
def machineCsr (s : State) (c n : Nat) : Word :=
  let p := s.pkg
  match n with
  | 0x1C9 => p.mregsel
  | 0x1CA => p.mregbase
  | 0x1CB => p.mreglim
  | 0x1CC => (get { base := 0, lim := 0, attr := 0 } p.regions p.mregsel.toNat).attr
  | 0x1CD => p.mwsel
  | 0x1CE => match worldKey (dieOf c) p.mwsel.toNat with
    | some k => BitVec.ofNat 64 (get 0 p.worlds k)
    | none => 0
  | 0x1CF => p.mkeycmd
  | 0x1E0 => p.mlogsel.setWidth 64
  | 0x1E1 => logWord p p.mlogsel.toNat 0 false
  | 0x1E2 => logWord p p.mlogsel.toNat 1 false
  | 0x1E3 => logWord p p.mlogsel.toNat 2 false
  | 0x1E4 => logWord p p.mlogsel.toNat 3 false
  | 0x1E8 => p.dbgauth.setWidth 64
  | _ => trapWord (ctxAt s c).trapM (n - 0x1C0)

/-- A trace or debug CSR of the issuing context's cluster, or of its die's sink (R349). -/
def debugCsr (s : State) (c n : Nat) : Word :=
  let t := (cluAt s (cluOf c)).trace
  let d := dieAt s (dieOf c)
  if 0x208 ≤ n ∧ n ≤ 0x20F then get 0 t.cmpa (n - 0x208)
  else if 0x210 ≤ n ∧ n ≤ 0x217 then get 0 t.cmpb (n - 0x210)
  else if 0x218 ≤ n ∧ n ≤ 0x21F then get 0 t.cmpk (n - 0x218)
  else if 0x220 ≤ n ∧ n ≤ 0x223 then get 0 t.seq (n - 0x220)
  else match n with
  | 0x200 => t.ctl.setWidth 64
  | 0x201 => BitVec.ofNat 64 (t.discarded % 2 ^ 32 * 2 ^ 32 + t.written % 2 ^ 32)
  | 0x224 => (get 0 t.ctr 0).setWidth 64
  | 0x225 => (get 0 t.ctr 1).setWidth 64
  | 0x240 => d.tsbase
  | 0x241 => d.tslen
  | 0x242 => BitVec.ofNat 64 d.tswr
  | 0x243 => d.tsctl.setWidth 64
  | 0x260 => t.dbgreq.setWidth 64
  | 0x261 => t.dbgstat.setWidth 64
  | 0x262 => BitVec.ofNat 64 t.dbgctl.toNat
  | _ => 0

/-- A monitor CSR (R357). -/
def monitorCsr (s : State) (c n : Nat) : Word :=
  let d := dieAt s (dieOf c)
  if n < 0x328 then (get 0 d.temps (n - 0x300)).setWidth 64
  else if n < 0x330 then (get 0 d.volts (n - 0x328)).setWidth 64
  else (get 0 d.procs (n - 0x330)).setWidth 64

/-- The value of a CSR for a context. -/
def csrRead (s : State) (c n : Nat) : Word :=
  if n < 0x100 then userCsr s c n
  else if n < 0x180 then kernelCsr s c n
  else if n < 0x1C0 then hyperCsr s c n
  else if n < 0x200 then machineCsr s c n
  else if n < 0x280 then debugCsr s c n
  else monitorCsr s c n

/-! Who may reach a CSR -/

/-- The least level of a CSR (R29). -/
def csrLevel (n : Nat) : Level :=
  if n < 0x100 then .u else if n < 0x180 then .k else if n < 0x1C0 then .h else if n < 0x200 then .m else .k

/-- A CSR word raises PRIV: the level or the world is too low, or a debug grant is missing (R29, R349). -/
def csrDenied (s : State) (c n : Nat) (new : Option Word) : Bool :=
  let x := ctxAt s c
  let l := csrLevel n
  Nat.blt x.level.num l.num || (l == .m && !x.secure) ||
  (0x200 ≤ n && n < 0x280 &&
    (grantOf s x.secure < 1 ||
     match n, new with
     | 0x262, some _ => grantOf s x.secure < 2
     | 0x260, some v => grantOf s (ctxAt s (field v 0 12)).secure < 2
     | _, _ => false))

/-- A request of the debug unit for which the grant over its target's world is missing is refused, beside PRIV (R349, R356; log 39). -/
def debugTurned (s : State) (c n : Nat) (new : Option Word) : State := match n, new with
  | 0x260, some v =>
    if 1 ≤ (ctxAt s c).level.num ∧ grantOf s (ctxAt s (field v 0 12)).secure < 2 then debugRefused s (cluOf c) (field v 0 12) else s
  | _, _ => s

/-! Writing CSRs -/

/-- A word with the bits of a mask alone. -/
def keepBits (v : Word) (mask : Nat) : Word := v &&& BitVec.ofNat 64 mask

/-- The tag file with one tagw register written (R37). -/
def setTags (x : Ctx) (v : Word) : List Nat → Ctx
  | [] => x
  | n :: r => setTags (x.setTag n (v.extractLsb' (5 * (n % 12)) 5)) v r

/-- A trap CSR of a level written, its zero fields dropped (R137). -/
def setTrapWord (t : TrapRegs) (v : Word) : Nat → TrapRegs
  | 0 => { t with vec := keepBits v (2 ^ 64 - 4) }
  | 1 => { t with cause := keepBits v 0x5FF }
  | 2 => { t with val := v }
  | 3 => { t with pc := keepBits v (2 ^ 64 - 4) }
  | 4 => { t with cp := keepBits v (2 ^ 64 - 4) }
  | 5 => { t with es := v.setWidth 15 }
  | 6 => { t with stat := keepBits v 0xFF00E3 }
  | 7 => { t with scratch := v }
  | _ => { t with dump := keepBits v (2 ^ 64 - 64) }

/-- A user CSR written (R37, R40, R43, R47, R49); VLMAX is that of the lap (R153). -/
def writeUser (x : Ctx) (n : Nat) (v : Word) : Ctx :=
  if 0x018 ≤ n ∧ n ≤ 0x01F then { x with csr := { x.csr with istep := set 0 x.csr.istep (n - 0x018) v } }
  else if 0x020 ≤ n ∧ n ≤ 0x025 then setTags x v (span (12 * (n - 0x020)) (if n < 0x025 then 12 else 4))
  else match n with
  | 0x000 => { x with csr := { x.csr with vl := min v.toNat (vlmaxOf x.csr.vtype x.groups) } }
  | 0x002 => x.setVtype x.groups v
  | 0x003 => { x with csr := { x.csr with fflags := v.setWidth 5 } }
  | 0x004 => { x with csr := { x.csr with frm := if v.setWidth 3 = 7#3 then 0 else v.setWidth 3 } }
  | 0x005 => { x with csr := { x.csr with es := field v 0 15 } }
  | 0x008 => { x with csr := { x.csr with mq := v ||| 1 } }
  | 0x009 => { x with csr := { x.csr with srkey := v } }
  | 0x00A => { x with csr := { x.csr with srep := v } }
  | 0x028 => if field v 0 3 = 6 then x else { x with csr := { x.csr with wfield := v.setWidth 3 } }
  | _ => x

/-- What a partition holds on a die, changed (R137). -/
def onPartDie (s : State) (die part : Nat) (f : PartDie → PartDie) : State :=
  onDie s die (fun d => { d with parts := put d.parts part (f (partDie d part)) })

/-- A CSR of K written (R137). -/
def writeKernel (s : State) (c n : Nat) (v : Word) : State :=
  let on := onPartDie s (dieOf c) (ctxAt s c).partid.toNat
  match n with
  | 0x10B => on (fun p => { p with eqbase := keepBits v (2 ^ 64 - 64) })
  | 0x10C => on (fun p => { p with ptvec := keepBits v (2 ^ 64 - 4) })
  | 0x10D => on (fun p => { p with pdump := keepBits v (2 ^ 64 - 2 ^ 22) })
  | _ => onCtx s c (fun x => { x with trapK := setTrapWord x.trapK v (n - 0x100) })

/-- A live launch of a die has a cluster in its set: one that has been stopped lives until its record is written (R275, R291,
R292). -/
def cluReserved (s : State) (clu : Nat) : Bool :=
  (dieAt s (dieOfClu clu)).launches.any (fun e => e.2.clusters.contains clu)

/-- The image word of a resident entry, as the die reads it past the memory port in the world of the partition (R320, R327, R336;
log 68). -/
def imageWord (s : State) (die asid : Nat) (sp : ASpace) (i : Nat) : Word :=
  tableWord s (unitAgent die asid sp.part (sp.part == 0xFFFF)) sp (sp.image + 8 * i)

/-- The resident entries of an address space, from one on, read from its image (R320, R327). -/
def reloadFrom (s : State) (die asid : Nat) (sp : ASpace) (t : SMap Word) : List Nat → SMap Word
  | [] => t
  | i :: r => reloadFrom s die asid sp (set 0 t (asid * 2048 + i) (imageWord s die asid sp i)) r

/-- hasctl command 1 (R320, R333): a number that is live is left as it is. What a partition holds on the die starts at 0
with its first address space there (R137). -/
def createSpace (s : State) (die part : Nat) : State :=
  let d := dieAt s die
  let asid := d.hasid.toNat
  if (find? d.aspaces asid).isSome then s
  else
    let p : BitVec 16 := BitVec.ofNat 16 part
    let fresh := (asidOf d p).isNone
    let sp : ASpace := { part := p, image := d.hasvec.toNat, root := d.hasroot.toNat }
    onDie s die (fun d =>
      { d with
        aspaces := put d.aspaces asid sp
        resident := reloadFrom s die asid sp d.resident (span 0 2048)
        parts := if fresh then put d.parts part { eqbase := 0, ptvec := 0, pdump := 0 } else d.parts })

/-- A covered leaf is gone: the views of its frame end, for the address space that held it no longer reaches it (R317). -/
def dropFrame (s : State) (frame : Nat) : State :=
  let o := ownerDie frame
  ((dieAt s o).views.filter (fun e => e.2.frame == frame)).foldl (fun s e =>
    loseCoverage (onDie s o (fun d => { d with views := remove d.views e.1 })) e.2.frame e.2.lo e.2.hi e.2.part) s

/-- The frame of a resident entry that reaches an arena. -/
def coveredFrame (e : Word) : Option Nat := if vectorEntryOk e && leafCov e then some (leafFrame e / 2 ^ 30) else none

/-- hasctl command 2: the leaves of the address space are gone, covered ones too (R317, R333). -/
def destroySpace (s : State) (die : Nat) : State :=
  let asid := (dieAt s die).hasid.toNat
  let gone := (dieAt s die).resident.filter (fun e => e.1 / 2048 == asid)
  let s := onDie s die (fun d =>
    { d with aspaces := remove d.aspaces asid, resident := removeRange d.resident (asid * 2048) (asid * 2048 + 2048) })
  (gone.filterMap (fun e => coveredFrame e.2)).foldl dropFrame s

/-- hasctl: a command is carried out, or discarded whole; an assignment is done when its scrub is (R291, R333, R341). -/
def hasCommand (s : State) (die : Nat) (v : Word) : State :=
  let part := field v 0 16
  let clu := field v 16 6
  match field v 62 2 with
  | 1 => createSpace s die part
  | 2 => destroySpace s die
  | 3 =>
    let k := die * 64 + clu
    if 39 < clu ∨ cluReserved s k then s
    else onDie (onClu s k (fun x => { x with scrub := some (BitVec.ofNat 16 part), since := (dieAt s die).cycle })) die
      (fun d => { d with hasctl := v })
  | _ => s

/-- A CSR of H written (R137, R333, R346). -/
def writeHyper (s : State) (c n : Nat) (v : Word) : State :=
  let die := dieOf c
  match n with
  | 0x189 => onDie s die (fun d => { d with hasid := keepBits v 0x3F })
  | 0x18A => onDie s die (fun d => { d with hasvec := keepBits v (2 ^ 48 - 2 ^ 14) })
  | 0x18B => onDie s die (fun d => { d with hasroot := keepBits v (2 ^ 48 - 2 ^ 14) })
  | 0x18C => hasCommand s die (keepBits v 0xC0000000003FFFFF)
  | 0x18D => onDie s die (fun d => { d with hsave := keepBits v (2 ^ 48 - 2 ^ 21) })
  | 0x191 => onPkg s (fun p => { p with hlogsel := v.setWidth 13 })
  | 0x196 =>
    let part : BitVec 16 := v.setWidth 16
    if part = 0 ∨ part = 0xFFFF then s
    else if flagAt v 16 then onPkg (fencePartition s die c part 0) (fun p => { p with hfence := 0 })
    else onPkg s (fun p => { p with hfence := part.setWidth 64 })
  | _ => onCtx s c (fun x => { x with trapH := setTrapWord x.trapH v (n - 0x180) })

/-- A region entry committed: entries 0 and 1 are read-only (R335, R336). -/
def commitRegion (p : Package) (v : Word) : Package :=
  if p.mregsel.toNat < 2 then p
  else
    let r : Region := { base := p.mregbase, lim := p.mreglim, attr := keepBits v 0x800000000003FFFF }
    { p with regions := put p.regions p.mregsel.toNat r }

/-- The key store's entry for a partition. -/
def keyRec (p : Package) (part : Nat) : KeyRec :=
  (find? p.keys part).getD { installed := false, erased := false, gen := 0, policy := none }

/-- The end of a page's re-encryption; the jobs whose accesses have waited go on (R340). -/
def finishPage (s : State) : State := (keys s.clus).foldl wakeJobs (endPage s)

/-- mkeycmd (R340): a command while a page is re-encrypted is discarded. -/
def keyCommand (s : State) (v : Word) : State :=
  let part := field v 0 16
  let pg := field v 16 36
  if s.pkg.reenc.isSome then s
  else match field v 62 2 with
  | 1 =>
    let k := keyRec s.pkg part
    let n : KeyRec := { installed := true, erased := false, gen := k.gen + 1,
                        policy := Config.keyPolicy (BitVec.ofNat 16 part) (k.gen + 1) }
    withOwners s { s.pkg with mkeycmd := 0, keys := put s.pkg.keys part n }
  | 2 =>
    if get 0 s.pkg.pageVer pg = 0xFFFFFFFF#32 then onPkg s (fun p => { p with mkeycmd := 1 })
    else
      let s := onPkg s (fun p => { p with reenc := some pg, mkeycmd := v })
      if s.defer then s else finishPage s
  | 3 => onPkg s (fun p =>
      let k := keyRec p part
      let n : KeyRec := { installed := false, erased := true, gen := k.gen, policy := none }
      { p with mkeycmd := 0, keys := put p.keys part n })
  | _ => onPkg s (fun p => { p with mkeycmd := 0 })

/-- mdbgauth (R356): a write without an authenticated unlock, a reserved grant, or a grant raised under the seal discards the write; the
seal stays until package reset (log 34). -/
def grantDebug (p : Package) (v : Word) : Package :=
  let w : BitVec 5 := v.setWidth 5
  let n := w.toNat % 4
  let g := w.toNat / 4 % 4
  let sealed_ := p.dbgauth.getLsbD 4
  if !p.unlocked ∨ n = 3 ∨ g = 3 ∨ (sealed_ ∧ (p.dbgauth.toNat % 4 < n ∨ p.dbgauth.toNat / 4 % 4 < g)) then p
  else { p with dbgauth := w ||| (if sealed_ then 0b10000 else 0) }

/-- A CSR of M written (R137, R333–R336, R340, R346, R356). A world written for a front waits for the move of its cluster, which
judges whether it mixes worlds (R291, R334; log 27). -/
def writeMachine (s : State) (c n : Nat) (v : Word) : State :=
  match n with
  | 0x1C9 => onPkg s (fun p => { p with mregsel := keepBits v 0xFF })
  | 0x1CA => onPkg s (fun p => { p with mregbase := keepBits v (2 ^ 48 - 2 ^ 12) })
  | 0x1CB => onPkg s (fun p => { p with mreglim := keepBits v (2 ^ 48 - 2 ^ 12) })
  | 0x1CC => withOwners s (commitRegion s.pkg v)
  | 0x1CD => onPkg s (fun p => { p with mwsel := keepBits v 0xFFF })
  | 0x1CE => match worldKey (dieOf c) s.pkg.mwsel.toNat with
    | some k =>
      onPkg s (fun p => { p with worlds := set 0 p.worlds k (field v 0 1) })
    | none => s
  | 0x1CF => keyCommand s (keepBits v 0xC00FFFFFFFFFFFFF)
  | 0x1E0 => onPkg s (fun p => { p with mlogsel := v.setWidth 13 })
  | 0x1E8 => onPkg s (fun p => grantDebug p v)
  | _ => onCtx s c (fun x => { x with trapM := setTrapWord x.trapM v (n - 0x1C0) })

/-- The contexts of a cluster have no PAIR record any more: capture begins (R351). -/
def forgetPairs (s : State) (clu : Nat) : State :=
  (ctxsOfClu clu).foldl (fun s c => if (ctxAt s c).pair.isNone then s else onCtx s c (fun x => { x with pair := none })) s

/-- trcctl's capture bit, written: a capture that begins starts with a SYNC and new PAIRs (R349, R351). -/
def setTraceCtl (s : State) (clu : Nat) (v : BitVec 6) : State :=
  let begins := v.getLsbD 0 && !(cluAt s clu).trace.ctl.getLsbD 0
  let s := onClu s clu (fun x => { x with trace := { x.trace with
    ctl := v, lastSync := if begins then none else x.trace.lastSync } })
  if begins then forgetPairs s clu else s

/-- A trace or debug CSR written; a reserved kind or action discards the write (R349). -/
def writeDebug (s : State) (c n : Nat) (v : Word) : State :=
  let clu := cluOf c
  let on (f : Trace → Trace) : State := onClu s clu (fun x => { x with trace := f x.trace })
  let die := dieOf c
  if 0x208 ≤ n ∧ n ≤ 0x20F then on (fun t => { t with cmpa := set 0 t.cmpa (n - 0x208) v })
  else if 0x210 ≤ n ∧ n ≤ 0x217 then on (fun t => { t with cmpb := set 0 t.cmpb (n - 0x210) v })
  else if 0x218 ≤ n ∧ n ≤ 0x21F then
    (if 5 ≤ field v 0 3 then s else on (fun t => { t with cmpk := set 0 t.cmpk (n - 0x218) (keepBits v 0xFFFF07) }))
  else if 0x220 ≤ n ∧ n ≤ 0x223 then
    (if 5 ≤ field v 7 3 then s else on (fun t => { t with seq := set 0 t.seq (n - 0x220) (keepBits v 0xFFF) }))
  else match n with
  | 0x200 => onClu (setTraceCtl s clu (v.setWidth 6)) clu (fun x => { x with trace := { x.trace with armed := false } })
  | 0x224 => on (fun t => { t with ctr := set 0 t.ctr 0 (v.setWidth 32) })
  | 0x225 => on (fun t => { t with ctr := set 0 t.ctr 1 (v.setWidth 32) })
  | 0x240 => onDie s die (fun d => { d with tsbase := keepBits v (2 ^ 48 - 2 ^ 12) })
  | 0x241 => onDie s die (fun d => { d with tslen := keepBits v (2 ^ 32 - 2 ^ 12) })
  | 0x243 => onDie s die (fun d =>
      let fresh := flagAt v 0 && !d.tsctl.getLsbD 0
      { d with tsctl := (v.setWidth 3 &&& 0b011) ||| (if fresh then 0 else d.tsctl &&& 0b100)
               tswr := if fresh then 0 else d.tswr })
  | 0x260 => debugRequest (on (fun t => { t with dbgreq := v.setWidth 16 })) clu (field v 12 4) (field v 0 12)
  | 0x262 => on (fun t => { t with dbgctl := flagAt v 0 })
  | _ => s

/-- A CSR written for a context. -/
def csrWrite (s : State) (c n : Nat) (v : Word) : State :=
  if n < 0x100 then onCtx s c (fun x => writeUser x n v)
  else if n < 0x180 then writeKernel s c n v
  else if n < 0x1C0 then writeHyper s c n v
  else if n < 0x200 then writeMachine s c n v
  else writeDebug s c n v

/-- A CSR word: the old value to xd, the new one to the CSR (R155). -/
def runCsr (i : Instr) (d : XReg) (n : Nat) (new : Word → Option Word) (s : State) : State :=
  let c := s.turn
  let t := if n = 0x003 then flushRun s c else s
  let old := csrRead t c n
  if csrDenied t c n (new old) then takeWord (debugTurned t c n (new old)) c cPriv i
  else match new old with
    | none => writeX t d old
    | some v => csrWrite (writeX t d old) c n v

/-- CSR read (R155). -/
def execCsrr (d : XReg) (csr : BitVec 12) (s : State) : Result :=
  .next (runCsr (.csrr d csr) d csr.toNat (fun _ => none) s)

/-- CSR write (R155). -/
def execCsrw (d a : XReg) (csr : BitVec 12) (s : State) : Result :=
  .next (runCsr (.csrw d a csr) d csr.toNat (fun _ => some (xOf s a)) s)

/-- CSR set (R155). -/
def execCsrs (d a : XReg) (csr : BitVec 12) (s : State) : Result :=
  .next (runCsr (.csrs d a csr) d csr.toNat (fun old => some (old ||| xOf s a)) s)

/-- CSR clear (R155). -/
def execCsrc (d a : XReg) (csr : BitVec 12) (s : State) : Result :=
  .next (runCsr (.csrc d a csr) d csr.toNat (fun old => some (old &&& ~~~(xOf s a))) s)

/-- TRAP (R156). -/
def execTrap (code : BitVec 20) (s : State) : Result := .next (takeFront s s.turn cTrapi (code.setWidth 64))

/-- WCALL (R157). -/
def execWcall (code : BitVec 20) (s : State) : Result :=
  if (ctxAt s s.turn).level = .u then .next (takeWord s s.turn cPriv (.wcall code))
  else .next (takeStop s s.turn
    (some { unit := false, code := cTrapi, val := code.setWidth 64, call := true, slot := none }))

/-- BKPT: for the debugger when it holds authority and asks for it, else for the handler (R158). -/
def execBkpt (code : BitVec 20) (s : State) : Result :=
  let c := s.turn
  if mayControl s c && (cluAt s (cluOf c)).trace.dbgctl then .next (haltCtx s c cBkpt)
  else .next (takeFront s c cBkpt (code.setWidth 64))

/-- ERET (R147, R159). -/
def execEret (s : State) : Result :=
  if (ctxAt s s.turn).level = .u then .next (takeWord s s.turn cPriv .eret) else .next (returnFrom s s.turn)

/-- TRACE (R160). -/
def execTrace (a : XReg) (code : BitVec 15) (s : State) : Result :=
  .next (goOn (addSoftware s s.turn code.toNat (xOf s a)))

/-- WFE parks the context for 65,536 cycles at most (R161). -/
def execWfe (s : State) : Result :=
  .next (onCtx (goOn s) s.turn (fun x => { x with park := .wfe (cycleOf s s.turn + 65536) false }))

/-! TLBI -/

/-- One resident entry reloaded from its image word (R317, R327). -/
def reloadEntry (s : State) (die asid i : Nat) : State :=
  match find? (dieAt s die).aspaces asid with
  | none => s
  | some sp =>
    let old := get 0 (dieAt s die).resident (asid * 2048 + i)
    let new := imageWord s die asid sp i
    if old = new then s
    else
      let s := onDie s die (fun d => { d with resident := set 0 d.resident (asid * 2048 + i) new })
      match coveredFrame old with
      | some f => if coveredFrame new = some f then s else dropFrame s f
      | none => s

/-- The scalar buffers of a die without the leaves that a test names (R326, R328). -/
def dropLeaves (s : State) (die : Nat) (gone : StbEntry → Bool) : State :=
  (span (die * 256) 160).foldl (fun s k =>
    if (coreAt s k).stb.any gone then onCore s k (fun x => { x with stb := x.stb.filter (fun e => !gone e) }) else s) s

/-- A shootdown names the leaves of an address space, live or not: of one, of the issuer's partition, or of all (R162, R327). -/
def shootNames (s : State) (die : Nat) (h : Shoot) (asid : Nat) : Bool :=
  if h.fn = 2 then (find? (dieAt s die).aspaces asid).any (fun e => e.part == (ctxAt s h.ctx.toNat).partid)
  else h.fn == 3 || asid == h.asid

/-- The live address spaces that a shootdown names: one, those of the issuer's partition, or all (R162). -/
def shootSpaces (s : State) (die : Nat) (h : Shoot) : List Nat :=
  (keys (dieAt s die).aspaces).filter (shootNames s die h)

/-- A shootdown whose every agent has acknowledged: entries reloaded, the slot free, the TLBI retired (R327). -/
def finishShoot (s : State) (die slot : Nat) : State :=
  match find? (dieAt s die).shoots slot with
  | none => s
  | some h =>
    let c := h.ctx.toNat
    let spaces := shootSpaces s die h
    let va := h.va.toNat
    let s := dropLeaves s die (fun e => shootNames s die h e.asid && (h.fn != 1 || e.page == va / 2 ^ 14))
    let s := spaces.foldl (fun s a =>
      if h.fn = 1 then (if va < 2 ^ 41 then reloadEntry s die a (va / 2 ^ 30) else s)
      else (span 0 2048).foldl (fun s i => reloadEntry s die a i) s) s
    let s := onDie s die (fun d => { d with shoots := remove d.shoots slot })
    onCtx s c (fun x => if x.fwait = .shootdown slot then { x with fwait := .none }.advance else x)

/-- A free shootdown slot of a die: the lowest of seven, and for a handler of eight (R330). -/
def freeSlot (d : Die) (handler : Bool) : Option Nat :=
  (span 0 (if handler then 8 else 7)).find? (fun k => (find? d.shoots k).isNone)

/-- The translation agents of a die: one of each core (R327). -/
def shootAgents : Nat := 160

/-- The agents that hold no translation, and acknowledge at once: those of clusters in RETENTION or OFF (R329). -/
def shootIdle (s : State) (die : Nat) : List Nat :=
  (span 0 shootAgents).filter (fun k =>
    let p := (cluAt s (die * 64 + k / 4)).power
    p == .retention || p == .off)

/-- A TLBI that waits for a slot: its place among those that wait, by the cycle at which it has reached the die (R330). -/
def askSlot (s : State) (c : Nat) : State :=
  let die := dieOf c
  let asks := (dieAt s die).shootAsks.filter (fun e => (ctxAt s e.2).waitsData)
  let asks := if asks.any (fun e => e.2 == c) then asks else asks.filter (fun e => e.2 != c) ++ [(cycleOf s c, c)]
  dataWait (onDie s die (fun d => { d with shootAsks := asks })) c

/-- A TLBI may take a slot: those that have reached its die before it, or in its cycle with a lower ctxid, have theirs or may not take
this one (R330). -/
def slotTurn (s : State) (c : Nat) : Bool :=
  match (dieAt s (dieOf c)).shootAsks.find? (fun e => e.2 == c) with
  | none => !s.defer
  | some (t, _) =>
    (!s.defer || Nat.blt t (cycleOf s c)) &&
      !(dieAt s (dieOf c)).shootAsks.any (fun e =>
        e.2 != c && (Nat.blt e.1 t || (e.1 == t && Nat.blt e.2 c)) && (freeSlot (dieAt s (dieOf c)) (ctxAt s e.2).inHandler).isSome)

/-- TLBI: every earlier access performs first, then a slot is taken and the agents are asked (R162, R327, R330). At K, an address
space that does not exist is none of the partition's own (log 78). -/
def runTlbi (i : Instr) (fn : Nat) (asid va : Word) (s : State) : State :=
  let c := s.turn
  let x := ctxAt s c
  let die := dieOf c
  let foreign := fn < 2 && x.level == .k && match find? (dieAt s die).aspaces asid.toNat with
    | some sp => sp.part != x.partid
    | none => true
  if x.level = .u then takeWord s c cPriv i
  else if foreign then takeFront s c cAccess asid
  else match performAll s c with
  | .ended s => s
  | .closed s =>
    let s := askSlot s c
    match (if slotTurn s c then freeSlot (dieAt s die) (ctxAt s c).inHandler else none) with
    | none => s
    | some k =>
      let h : Shoot := { ctx := BitVec.ofNat 12 c, fn := if fn = 2 ∧ x.level ≠ .k then 3 else fn, asid := asid.toNat
                         va := va, acked := shootIdle s die }
      let s := onDie s die (fun d =>
        { d with shoots := put d.shoots k h, shootAsks := d.shootAsks.filter (fun e => e.2 != c) })
      let s := onCtx s c (fun x => { x with fwait := .shootdown k, waitsData := false })
      if s.defer then s else finishShoot s die k

/-- TLBI.as (R162). -/
def execTlbiAs (a : XReg) (s : State) : Result := .next (runTlbi (.tlbiAs a) 0 (xOf s a) 0 s)
/-- TLBI.va (R162). -/
def execTlbiVa (a b : XReg) (s : State) : Result := .next (runTlbi (.tlbiVa a b) 1 (xOf s a) (xOf s b) s)
/-- TLBI.all (R162). -/
def execTlbiAll (s : State) : Result := .next (runTlbi .tlbiAll 2 0 0 s)

/-- An agent acknowledges a shootdown; the last acknowledgement ends it (R328, R329). -/
def execShootdownAck (s : State) : Result :=
  match s.signal with
  | .shootdown die slot agent =>
    match find? (dieAt s die.toNat).shoots slot.toNat with
    | none => .next s
    | some h =>
      if shootAgents ≤ agent ∨ agent ∈ h.acked then .next s
      else
        let h := { h with acked := agent :: h.acked }
        let s := onDie s die.toNat (fun d => { d with shoots := put d.shoots slot.toNat h })
        .next (if h.acked.length = shootAgents then finishShoot s die.toNat slot.toNat else s)
  | _ => .next s

/-! Stops at the pointer pair and what ends a WFE -/

/-- ILLEGAL of a fetched word, which ends a run of VBFLY.H.f where it is one of a vector opcode (R28, R31, R126). -/
def execIllegalWord (s : State) : Result := match s.signal with
  | .word w => .next (takeRaw s s.turn cIllegal w)
  | _ => .next (takeFront s s.turn cIllegal 0)

/-- A fetch that may not be performed, at the fetched instruction (R80, R324). -/
def execFetchFault (s : State) : Result := match s.signal with
  | .fetch code => .next (takeFront s s.turn code.toNat (ctxAt s s.turn).pc)
  | _ => .next (takeFront s s.turn cPage (ctxAt s s.turn).pc)

/-- A pending fault is taken at the pointer pair (R139); nothing while a handler runs or the front waits for a die unit. -/
def execPendingFaultTake (s : State) : Result := match s.signal with
  | .ctx c =>
    let x := ctxAt s c.toNat
    if x.occ = .running ∧ frontFree x ∧ !x.inHandler then .next (takeStop s c.toNat none) else .next s
  | _ => .next s

/-- A context stops at its pointer pair: a due fault enters its handler, and a halt that the debug unit has asked for halts
it (R135, R356). -/
def execStopAtPointerPair (s : State) : Result := match s.signal with
  | .ctx c =>
    let n := c.toNat
    let x := ctxAt s n
    let r := (cluAt s (cluOf n)).trace.dbgreq
    if x.occ ≠ .running ∨ !frontFree x then .next s
    else if x.halting.isSome then .next (takeHalt s n)
    else if r.toNat / 2 ^ 12 = 1 ∧ r.setWidth 12 = c ∧ mayControl s n then .next (haltCtx s n 0x44)
    else if x.inHandler then .next s
    else .next (takeStop s n none)
  | _ => .next s

/-- A WFE ends at an event addressed to its context (R161). -/
def execWfeWake (s : State) : Result := match s.signal with
  | .ctx c => match (ctxAt s c.toNat).park with
    | .wfe _ true => .next (unpark s c.toNat)
    | _ => .next s
  | _ => .next s

/-- A WFE ends after 65,536 cycles (R161). -/
def execWfeTimeout (s : State) : Result := match s.signal with
  | .ctx c => match (ctxAt s c.toNat).park with
    | .wfe t _ => .next (if t ≤ cycleOf s c.toNat then unpark s c.toNat else s)
    | _ => .next s
  | _ => .next s

/-- The action of a trigger sequencer whose counter has reached zero (R350, R351). -/
def fireTrigger (s : State) (clu : Nat) : State :=
  let t := (cluAt s clu).trace
  if t.due.isEmpty then s
  else
    let q := get 0 t.seq (t.ctl.toNat / 4 % 4)
    let act := field q 7 3
    let ctl : BitVec 6 := if act = 1 then t.ctl ||| 1 else t.ctl
    let s := setTraceCtl s clu ctl
    let s := t.due.foldl (fun s c => if act = 0 then s else addEvent s c (0x40 + act)) s
    let s := if act = 4 then t.due.foldl (fun s c => if mayControl s c then haltCtx s c 0x44 else s) s else s
    onClu s clu (fun x =>
      let v := x.trace.ctl &&& 0b110011 ||| BitVec.ofNat 6 (field q 10 2 * 4)
      let v := if act = 2 ∨ act = 3 then v &&& 0b111110 else v
      { x with trace := { x.trace with
        ctl := if act = 3 then v ||| 0b10 else v, armed := false, due := [] } })

/-- TRACE_TRIGGER_FIRE (R350). -/
def execTraceTriggerFire (s : State) : Result := match s.signal with
  | .clu die clu => .next (fireTrigger s (cluKey die clu))
  | _ => .next s

end Sys2Proof.Machine
end

