-- ==== Sys2Proof/Machine/Sync.lean ====
section
/-! DEFINITION. Hurdles (R245–R252), rings (R253–R256) and watermarks (R304–R307). -/

namespace Sys2Proof.Machine

/-- The key at which an address of a context lies, by which agents name one object (R246). -/
def placeKey (s : State) (c va : Nat) : Option Nat := match locate s (frontAgent s c) va with
  | .pad clu off => some (padKey clu off)
  | .page _ pa => some pa
  | _ => none

/-- The page of an address is of device class (R322). -/
def devicePage (s : State) (a : Agent) (va : Nat) : Bool := match locate s a va with
  | .page e _ => leafDev e
  | _ => false

/-- The conditions of an access to n bytes of an object, of which device-class memory, as ACCESS, stands before VIEW and WATCH (R7,
R139, R246). -/
def reachObject (s : State) (c : Nat) (acc : Acc) (va n : Nat) : Reach :=
  let a := frontAgent s c
  match reach s c a acc va n n false (frontQuiet (ctxAt s c)) with
  | .deny e => if (e.code = cView ∨ e.code = cWatch) ∧ devicePage s a va then denyWith cAccess else .deny e
  | .ok p => if p.dev then denyWith cAccess else .ok p
  | r => if devicePage s a va then denyWith cAccess else r

/-- An object of n bytes, aligned to w, that the front reads in one atomic step, in a scratchpad window or in idempotent
memory (R246): the conditions of its access first, then the commit of R149, then what `act` does with its bits. Where the
form is a release, every earlier access performs first (R251, R256, R307). -/
def withObject (s : State) (acc : Acc) (va n : Nat) (rel : Bool) (act : State → Place → Nat → State) : State :=
  let c := s.turn
  let a := frontAgent s c
  match reachObject s c acc va n with
  | .deny e => stopAt (noteDenial s a e) e.code va
  | .wait | .domain => s
  | .ok p => match (if rel then performAll s c else match breakLap s c with
        | (s, true) => .closed s
        | (s, false) => .ended s) with
      | .ended s => s
      | .closed s => match takeBytes s c 0 a va p n with
        | .done s bs => act s p (bytesNat bs)
        | .fault s code => stopAt s code va
        | .wait s => s
        | .gone s => s

/-- An object rewritten. -/
def putObject (s : State) (va : Nat) (p : Place) (n bits : Nat) : State :=
  storeAt s (frontAgent s s.turn) va p (natBytes n bits)

/-! Hurdles -/

/-- The fields of a hurdle (R245); its zero fields are ignored. -/
structure Hurdle where
  waiters  : Nat
  last     : Nat
  ocount   : Nat
  overrun  : Bool
  phase    : Nat
  arrived  : Nat
  expected : Nat
  deriving DecidableEq, Repr

def hurdleOf (w : Nat) : Hurdle :=
  { waiters := bitField w 64 16, last := bitField w 48 16, ocount := bitField w 32 16, overrun := bitField w 28 1 == 1,
    phase := bitField w 24 4, arrived := bitField w 12 12, expected := bitField w 0 12 }

def Hurdle.bits (h : Hurdle) : Nat :=
  h.waiters * 2 ^ 64 + h.last * 2 ^ 48 + h.ocount * 2 ^ 32 + h.overrun.toNat * 2 ^ 28 + h.phase * 2 ^ 24 +
  h.arrived * 2 ^ 12 + h.expected

/-- An arrival of n by a context, and the excess that it discards; one of 0 without excess changes nothing (R248). -/
def Hurdle.arrive (h : Hurdle) (n c : Nat) : Hurdle × Nat :=
  let t := h.arrived + n
  let extra := if h.expected = 0 then n else t - h.expected
  if n = 0 ∧ extra = 0 then (h, 0) else
  let t := if h.expected = 0 then 0 else min t h.expected
  let h := { h with
    overrun := h.overrun || extra != 0
    ocount := min 0xFFFF (h.ocount + extra)
    last := if n = 0 then h.last else c }
  (if h.expected ≠ 0 ∧ t = h.expected then { h with phase := (h.phase + 1) % 16, arrived := 0 } else { h with arrived := t },
   extra)

/-- A wait that has found the phase different completes: 1 in its register, and the context runs on, after an acquire (R249, R251). -/
def passHurdle (s : State) (c : Nat) (d : XReg) : State := onCtx (unpark s c) c (fun x => x.discardLoads.setX d 1)

/-- The phase at which a wait that a check has passed is held until its wake (R249, R252). -/
def passedPhase : Nat := 16

/-- A wait on a hurdle ends with 0, and its context watches the hurdle (R249, R252). -/
def endWait (s : State) (c : Nat) : State := match (ctxAt s c).park with
  | .hurdle va _ _ d => onCtx (unpark s c) c (fun x => { x.setX d 0 with watched := some (false, va) })
  | _ => s

/-- A context parked on the hurdle at a key checks its wait against a phase; one that watches it has an event (R249, R252). -/
def checkWaiter (s : State) (key phase c : Nat) : State :=
  let x := ctxAt s c
  match x.park with
  | .hurdle va p t d =>
    if placeKey s c va.toNat ≠ some key then s
    else if t < cycleOf s c ∧ p ≠ passedPhase then endWait s c
    else if p ≠ phase then
      (if s.defer then onCtx s c (fun x => { x with park := .hurdle va passedPhase t d }) else passHurdle s c d)
    else s
  | _ => match x.watched with
    | some (false, va) => if placeKey s c va.toNat = some key then onCtx s c wakeWfe else s
    | _ => s

/-- The contexts that are parked, or that watch an object. -/
def waitingContexts (s : State) : List Nat :=
  (s.ctxs.filter (fun e => e.2.occ != .free && e.2.occ != .saved && (e.2.park != .none || e.2.watched.isSome))).map Prod.fst

/-- Every wait on a hurdle is checked after an update of it; a phase change is an event for those that watch it (R249,
R252). -/
def checkWaiters (s : State) (key old new : Nat) : State :=
  (waitingContexts s).foldl (fun s c =>
    match (ctxAt s c).park with
    | .hurdle _ _ _ _ => checkWaiter s key new c
    | _ => if old = new then s else checkWaiter s key new c) s

/-- The count of HURDLE.arrive and aw, the phase of wait, and the bound (R247). -/
def countOf (v : Word) : Nat := field v 0 12
def boundOf (v : Word) : Nat := min (2 ^ 20) (field v 16 48)

/-- The context parks on a hurdle, whose waiters it joins, an update that those who wait there check; x[d] holds 0 from then on, the
result of a wait that a stop ends (R249, R252). -/
def parkOn (s : State) (d : XReg) (va : Nat) (p : Place) (phase bound : Nat) : State :=
  let c := s.turn
  let h := hurdleOf (readNat s.mem p.key 16)
  let s := checkWaiters (putObject s va p 16 { h with waiters := (h.waiters + 1) % 2 ^ 16 }.bits) p.key h.phase h.phase
  onCtx s c (fun x =>
    { (x.setX d 0).advance with park := .hurdle (BitVec.ofNat 64 va) phase (cycleOf s c + bound) d })

/-- A wait for a phase other than one: at once, which acquires; with no bound; or parked (R249, R251). -/
def waitOn (s : State) (d : XReg) (va : Nat) (p : Place) (h : Hurdle) (phase bound : Nat) : State :=
  if h.phase ≠ phase then acquired true (writeX s d 1)
  else if bound = 0 then
    onCtx (writeX s d 0) s.turn (fun x => { x with watched := some (false, BitVec.ofNat 64 va) })
  else parkOn s d va p phase bound

/-- An overrunning arrival is followed by HURDLE at the next instruction (R248). -/
def overrunStop (s : State) (va extra : Nat) : State := if extra = 0 then s else stopAt s cHurdle va

/-- HURDLE.arrive (R247, R248, R251). -/
def execHurdleArrive (d a b : XReg) (_scope : BitVec 3) (s : State) : Result :=
  let va := (xOf s a).toNat
  let n := countOf (xOf s b)
  .next (withObject s .atomic va 16 true (fun s p w =>
    let old := (hurdleOf w).phase
    let (h, extra) := (hurdleOf w).arrive n s.turn
    let s := if n = 0 ∧ extra = 0 then s else putObject s va p 16 h.bits
    overrunStop (writeX (checkWaiters s p.key old h.phase) d (BitVec.ofNat 64 old)) va extra))

/-- HURDLE.wait (R247, R249, R251). -/
def execHurdleWait (d a b : XReg) (_scope : BitVec 3) (s : State) : Result :=
  let va := (xOf s a).toNat
  let v := xOf s b
  .next (withObject s .atomic va 16 false (fun s p w => waitOn s d va p (hurdleOf w) (field v 0 4) (boundOf v)))

/-- HURDLE.aw: an arrival that does not advance the phase waits for its advance, unless it overruns (R248, R249). -/
def execHurdleAw (d a b : XReg) (_scope : BitVec 3) (s : State) : Result :=
  let va := (xOf s a).toNat
  let v := xOf s b
  .next (withObject s .atomic va 16 true (fun s p w =>
    let old := (hurdleOf w).phase
    let (h, extra) := (hurdleOf w).arrive (countOf v) s.turn
    let s := if countOf v = 0 ∧ extra = 0 then s else putObject s va p 16 h.bits
    let s := checkWaiters s p.key old h.phase
    if extra = 0 then waitOn s d va p h old (boundOf v)
    else
      let s := acquired (h.phase != old) (writeX s d (if h.phase = old then 0 else 1))
      let s := if h.phase = old then
          onCtx s s.turn (fun x => { x with watched := some (false, BitVec.ofNat 64 va) }) else s
      overrunStop s va extra))

/-- HURDLE.init (R250, R251). -/
def execHurdleInit (d a b : XReg) (_scope : BitVec 3) (s : State) : Result :=
  let va := (xOf s a).toNat
  let v := xOf s b
  .next (withObject s .atomic va 16 true (fun s p w =>
    if field v 0 12 = 0 then writeX s d 1
    else
      let old := hurdleOf w
      let h : Hurdle := { waiters := old.waiters, last := 0, ocount := 0, overrun := false, phase := field v 12 4,
                          arrived := 0, expected := field v 0 12 }
      let s := checkWaiters (putObject s va p 16 h.bits) p.key old.phase h.phase
      writeX s d 0))

/-- The phase of the hurdle on which a context is parked, as it reads now. -/
def parkedPhase (s : State) (c : Nat) : Option Nat := match (ctxAt s c).park with
  | .hurdle va _ _ _ => (placeKey s c va.toNat).map (fun k => (hurdleOf (readNat s.mem k 16)).phase)
  | _ => none

/-- A parked hurdle wait is checked: up to the cycle of its bound it completes when the phase differs; after it, by what the checks up
to then have found (R249). -/
def checkParked (s : State) (c : Nat) : State := match (ctxAt s c).park with
  | .hurdle _ p t d =>
    if p = passedPhase then passHurdle s c d
    else if t < cycleOf s c then endWait s c
    else if (parkedPhase s c).any (fun q => q != p) then passHurdle s c d
    else s
  | _ => s

/-- The check in the cycle in which a bound passes: the next n cycles are the first after that cycle (R249). -/
def checkBound (s : State) (n c : Nat) : State := match (ctxAt s c).park with
  | .hurdle va p t d =>
    if cycleOf s c ≤ t ∧ t < cycleOf s c + n ∧ (parkedPhase s c).any (fun q => q != p) then
      onCtx s c (fun x => { x with park := .hurdle va passedPhase t d })
    else s
  | _ => s

/-- A parked context wakes after a phase change of its hurdle (R252). -/
def execHurdleWake (s : State) : Result := match s.signal with
  | .ctx c => .next (checkParked s c.toNat)
  | _ => .next s

/-- A parked wait reads the phase again (R249). -/
def execHurdleRecheck (s : State) : Result := match s.signal with
  | .ctx c => .next (checkParked s c.toNat)
  | _ => .next s

/-- HURDLE_WAIT_TIMEOUT: the cycle of the bound has passed (R249, R252). -/
def execHurdleWaitTimeout (s : State) : Result := match s.signal with
  | .ctx c => .next (checkParked s c.toNat)
  | _ => .next s

/-! Rings -/

/-- The fields of a ring header (R253). -/
def ringHead (w : Nat) : Nat := bitField w 0 64
def ringTail (w : Nat) : Nat := bitField w 64 64
def ringLcap (w : Nat) : Nat := bitField w 192 5
def ringUsed (w : Nat) : Nat := (ringTail w + 2 ^ 64 - ringHead w) % 2 ^ 64
def ringBroken (w : Nat) : Bool := 16 < ringLcap w || 2 ^ ringLcap w < ringUsed w
def ringBits (head tail lcap : Nat) : Nat := head % 2 ^ 64 + tail % 2 ^ 64 * 2 ^ 64 + lcap * 2 ^ 192

/-- The address of the entry that a counter names (R253). -/
def entryAddr (va w n : Nat) : Nat := (va + 64 + 8 * (n % 2 ^ ringLcap w)) % 2 ^ 64

/-- A successful operation is an event for the contexts that watch the ring (R252). -/
def ringEvent (s : State) (key : Nat) : State :=
  (waitingContexts s).foldl (fun s c => match (ctxAt s c).watched with
    | some (true, va) => if placeKey s c va.toNat = some key then onCtx s c wakeWfe else s
    | _ => s) s

/-- A failed operation makes the ring the context's watched object (R252). -/
def watchRing (s : State) (va : Nat) : State :=
  onCtx s s.turn (fun x => { x with watched := some (true, BitVec.ofNat 64 va) })

/-- The entry that an operation touches; a fault leaves the ring as it was (R255). -/
def withEntry (s : State) (acc : Acc) (va : Nat) (act : State → Place → State) : State :=
  match reachObject s s.turn acc va 8 with
  | .deny e => stopAt (noteDenial s (frontAgent s s.turn) e) e.code va
  | .wait | .domain => s
  | .ok p => act s p

/-- A ring operation on a header of 64 bytes: the entry that it touches, if any, is translated before any change, the commit of R149
among them; then the header is taken (R7, R255). -/
def withRing (s : State) (acc : Acc) (va : Nat) (rel : Bool) (entry : Nat → Option Nat) (act : State → Place → Nat → State) : State :=
  let c := s.turn
  let go (s : State) : State := withObject s .atomic va 64 rel act
  match reachObject s c .atomic va 64 with
  | .ok p => match readFinding s p, entry (bytesNat (ctxBytes s c va p 64)) with
    | none, some e => withEntry s acc e (fun s _ => go s)
    | _, _ => go s
  | _ => go s

/-- The entry that a push or a pop of a header touches: none where it fails (R255). -/
def pushEntry (va w : Nat) : Option Nat :=
  if ringBroken w ∨ ringUsed w = 2 ^ ringLcap w then none else some (entryAddr va w (ringTail w))
def popEntry (va w : Nat) : Option Nat :=
  if ringBroken w ∨ ringUsed w = 0 then none else some (entryAddr va w (ringHead w))

/-- QPUSH (R254, R255, R256). -/
def execQpush (d a b : XReg) (_scope : BitVec 3) (s : State) : Result :=
  let va := (xOf s a).toNat
  let v := xOf s b
  .next (withRing s .store va true (pushEntry va) (fun s p w =>
    if ringBroken w then watchRing (writeX s d 2) va
    else if ringUsed w = 2 ^ ringLcap w then watchRing (writeX s d 0) va
    else
      let e := entryAddr va w (ringTail w)
      withEntry s .store e (fun s q =>
        let s := putObject s e q 8 v.toNat
        let s := putObject s va p 64 (ringBits (ringHead w) (ringTail w + 1) (ringLcap w))
        writeX (ringEvent s p.key) d 1)))

/-- The results of QPOP and QPEEK: the value in xd and the predicate in xb (R254). -/
def writePair (s : State) (d b : XReg) (v : Word) (pred : Nat) : State :=
  onCtx s s.turn (fun x => ((x.setX d v).setX b (BitVec.ofNat 64 pred)).advance)

/-- QPOP and QPEEK; one that succeeds acquires (R255, R256). -/
def runPop (d a b : XReg) (pop : Bool) (s : State) : State :=
  let va := (xOf s a).toNat
  withRing s .load va false (popEntry va) (fun s p w =>
    if ringBroken w then watchRing (writePair s d b 0 2) va
    else if ringUsed w = 0 then watchRing (writePair s d b 0 0) va
    else
      let e := entryAddr va w (ringHead w)
      withEntry s .load e (fun s q => match takeBytes s s.turn 0 (frontAgent s s.turn) e q 8 with
        | .done s bs =>
          let s := if pop then putObject s va p 64 (ringBits (ringHead w + 1) (ringTail w) (ringLcap w)) else s
          acquired true (writePair (ringEvent s p.key) d b (BitVec.ofNat 64 (bytesNat bs)) 1)
        | .fault s code => stopAt s code e
        | .wait s => s
        | .gone s => s))

/-- QPOP (R254–R256). -/
def execQpop (d a b : XReg) (_scope : BitVec 3) (s : State) : Result := .next (runPop d a b true s)
/-- QPEEK (R254–R256). -/
def execQpeek (d a b : XReg) (_scope : BitVec 3) (s : State) : Result := .next (runPop d a b false s)

/-! Watermarks -/

/-- The fields of a watermark (R304). -/
def markBase (w : Nat) : Nat := bitField w 0 64
def markLen (w : Nat) : Nat := bitField w 64 64
def markMark (w : Nat) : Nat := bitField w 128 64
def markBits (base len mark : Nat) : Nat := base + len * 2 ^ 64 + mark * 2 ^ 128

/-- The scope instance of an issuer holds a context (R21, R278). -/
def inScope (scope : BitVec 3) (c k : Nat) : Bool :=
  if scope = 0 then c == k else if scope = 1 then coreOf c == coreOf k else if scope = 2 then cluOf c == cluOf k
  else if scope = 3 then dieOf c == dieOf k else true

/-- A publish reaches the bindings of a context to the object at a key: at once, or later by its own event (R307). -/
def sendMark (s : State) (key mark k : Nat) : State :=
  onCtx s k (fun x =>
    let x := { x with marks := x.marks.map (fun m =>
      if placeKey s k m.obj.toNat = some key then { m with sent := mark } else m) }
    if s.defer then x else x.takeMarks (fun m => placeKey s k m.obj.toNat == some key))

/-- The contexts that hold a binding. -/
def boundContexts (s : State) : List Nat := (s.ctxs.filter (fun e => !e.2.marks.isEmpty)).map Prod.fst

/-- WMARK.pub (R306, R307). -/
def execWmarkPub (d a b : XReg) (scope : BitVec 3) (s : State) : Result :=
  let va := (xOf s a).toNat
  let v := (xOf s b).toNat
  .next (withObject s .atomic va 32 true (fun s p w =>
    let new := min (markLen w) (max (markMark w) v)
    let s := putObject s va p 32 (markBits (markBase w) (markLen w) new)
    let s := ((boundContexts s).filter (inScope scope s.turn)).foldl (fun s k => sendMark s p.key new k) s
    writeX s d (BitVec.ofNat 64 (markMark w))))

/-- A binding names the object at a key: objects are told apart by their places (R246, R306). -/
def namesObject (s : State) (c key : Nat) (m : MarkBind) : Bool := placeKey s c m.obj.toNat == some key

/-- A binding of a context made, or the mark of the object's binding refreshed (R306). -/
def bindMark (s : State) (c va key w : Nat) : Option (List MarkBind) :=
  let x := ctxAt s c
  let obj := BitVec.ofNat 64 va
  if x.marks.any (namesObject s c key) then
    some (x.marks.map (fun m => if namesObject s c key m then { m with mark := markMark w, sent := markMark w } else m))
  else if 2 ≤ x.marks.length ∨ markLen w = 0 ∨ 2 ^ 64 < markBase w + markLen w then none
  else some (x.marks ++ [{ obj := obj, base := markBase w, len := markLen w, mark := markMark w, sent := markMark w }])

/-- WMARK.bind, an acquire (R306). -/
def execWmarkBind (d a : XReg) (_scope : BitVec 3) (s : State) : Result :=
  let va := (xOf s a).toNat
  .next (withObject s .load va 32 false (fun s p w => acquired true (match bindMark s s.turn va p.key w with
    | none => writeX s d (BitVec.allOnes 64)
    | some ms => writeX (onCtx s s.turn (fun x => { x with marks := ms })) d (BitVec.ofNat 64 (markMark w)))))

/-- WMARK.unbind (R305, R306). -/
def execWmarkUnbind (a : XReg) (s : State) : Result :=
  let va := (xOf s a).toNat
  .next (withObject s .load va 32 false (fun s p _ =>
    goOn (onCtx s s.turn (fun x => { x with marks := x.marks.filter (fun m => !namesObject s s.turn p.key m) }))))

/-- A publish reaches the mark copy of a bound context (R307). -/
def execWmarkCopyUpdate (s : State) : Result := match s.signal with
  | .mark c addr => .next (onCtx s c.toNat (fun x => x.takeMarks (fun m => m.obj == addr)))
  | _ => .next s

end Sys2Proof.Machine
end

