-- ==== Sys2Proof/Machine/Views.lean ====
section
/-! DEFINITION. Handles, views and the coverage of cells (R308–R317), and the handle instructions (R313). -/

namespace Sys2Proof.Machine

/-! Handles -/

/-- The fields of a handle id (R311). -/
def idSerial (id : Word) : Nat := field id 22 42
def idSlot (id : Word) : Nat := field id 2 20
def idDie (id : Word) : Nat := field id 0 2
def handleOf (serial slot die : Nat) : Word := BitVec.ofNat 64 (serial * 2 ^ 22 + slot * 4 + die)

/-- The view that an id names for a context; none for a foreign id (R311). -/
def viewOf (s : State) (c : Nat) (id : Word) : Option View :=
  match find? (dieAt s (idDie id)).views (idSlot id) with
  | none => none
  | some v =>
    if v.serial = idSerial id ∧ v.serial ≠ 0 ∧ v.part = (ctxAt s c).partid ∧ ownerDie v.frame = idDie id then some v
    else none

/-- The bases of the covered leaves by which a context's address space reaches a frame (R313). -/
def basesOf (s : State) (c frame : Nat) : List Nat :=
  let asid := (ctxAt s c).asid.toNat
  ((dieAt s (dieOf c)).resident.filter (fun e => e.1 / 2048 == asid && coveredFrame e.2 == some frame)).map
    (fun e => e.1 % 2048 * 2 ^ 30)

/-- The one covered leaf that converts between offsets and addresses (R313). -/
def baseOf (s : State) (c frame : Nat) : Option Nat := match basesOf s c frame with
  | [b] => some b
  | _ => none

/-! Intervals -/

/-- The lowest number that an ascending list of numbers from one on leaves out. -/
def lowestFree : Nat → List Nat → Nat
  | n, [] => n
  | n, k :: r => if k = n then lowestFree (n + 1) r else n

/-- Intervals of a die (R310). -/
def maxViews : Nat := 1048576

/-- A new view at the die that owns its arena, with its id; null when no interval is free (R310, R311). -/
def addView (s : State) (frame lo hi : Nat) (part : BitVec 16) : State × Word :=
  let o := ownerDie frame
  let d := dieAt s o
  let slot := lowestFree 0 (keys d.views)
  if maxViews ≤ slot then (s, 0)
  else
    let v : View := { serial := d.serial, part := part, frame := frame, lo := lo, hi := hi }
    (onDie s o (fun d => { d with views := put d.views slot v, serial := if d.serial + 1 = 2 ^ 42 then 1 else d.serial + 1 }),
     handleOf d.serial slot o)

/-- The view of an id with a new range. -/
def setRange (s : State) (id : Word) (v : View) (lo hi : Nat) : State :=
  onDie s (idDie id) (fun d => { d with views := put d.views (idSlot id) { v with lo := lo, hi := hi } })

/-- The arena's virtual base that an arena-empty record will name (R317). -/
def noteArena (s : State) (frame base : Nat) : State :=
  onDie s (ownerDie frame) (fun d => { d with covered := put d.covered frame (BitVec.ofNat 64 base) })

/-- A view that covers cells may be the arena's last coverage, whose base its holder's context gives; one that touches no cell
covers nothing again (R309, R317). -/
def noteView (s : State) (v : View) (base : Nat) : State := if v.lo < v.hi then noteArena s v.frame base else s

/-- The cells k to k + n − 1 of a frame are FREE (R309). -/
def cellsFree (d : Die) (frame k n : Nat) : Bool :=
  !d.views.any (fun e => e.2.frame == frame && e.2.lo < e.2.hi && e.2.lo < (k + n) * 4096 && k * 4096 < e.2.hi) &&
  !d.draining.any (fun e => e.1 == frame && k ≤ e.2 && e.2 < k + n)

/-- Cells of an arena (R308). -/
def arenaCells : Nat := 262144

/-- The lowest of a list of numbers. -/
def lowest : List Nat → Option Nat
  | [] => none
  | n :: r => match lowest r with
    | none => some n
    | some m => some (min n m)

/-- First fit (R313): the lowest run of n FREE cells starts at cell 0 or right after a cell in use. -/
def firstFit (d : Die) (frame n : Nat) : Option Nat :=
  let ends := (d.views.filter (fun e => e.2.frame == frame && e.2.lo < e.2.hi)).map (fun e => (e.2.hi - 1) / 4096 + 1)
  let drains := (d.draining.filter (fun e => e.1 == frame)).map (fun e => e.2 + 1)
  lowest ((0 :: ends ++ drains).filter (fun k => k + n ≤ arenaCells && cellsFree d frame k n))

/-! The instructions -/

/-- Every VIEW form performs what its context's lap has buffered (R315); one that takes coverage away waits for every
earlier access. -/
def viewStep (s : State) (all : Bool) (act : State → State) : State :=
  match (if all then performAll s s.turn else match breakLap s s.turn with
    | (s, true) => .closed s
    | (s, false) => .ended s) with
  | .ended s => s
  | .closed s => act s

/-- h[d] written, and the front goes on. -/
def writeH (s : State) (d : BitVec 4) (id : Word) : State := onCtx s s.turn (fun x => (x.setH d id).advance)

/-- The cells of two byte ranges of one space meet. -/
def sharesCell (lo hi lo2 hi2 : Nat) : Bool :=
  lo < hi && lo2 ≤ hi2 && lo / 4096 ≤ hi2 / 4096 && lo2 / 4096 ≤ (hi - 1) / 4096

/-- An accepted job of the context touches a cell of a range that loses coverage (R315). -/
def jobsTouch (s : State) (c frame : Nat) (lost : List (Nat × Nat)) : Bool :=
  let bases := basesOf s c frame
  (cluAt s (cluOf c)).jobs.any (fun j =>
    j.issuer == some c && j.kind.carded && j.state < 4 &&
    (j.reads ++ j.writes).any (fun r => bases.any (fun b => lost.any (fun l =>
      sharesCell (b + l.1) (b + l.2) r.lo r.hi))))

/-- VIEW.NEW (R313). -/
def execViewNew (hd : BitVec 4) (a b : XReg) (s : State) : Result :=
  let c := s.turn
  let x := ctxAt s c
  let base := (xOf s a).toNat
  let n := (xOf s b).toNat
  let frame := if base < 2 ^ 41 ∧ base % 2 ^ 30 = 0 then
      (match residentLeaf s (dieOf c) x.asid.toNat base with
        | some e => coveredFrame e
        | none => none)
    else none
  match frame with
  | none => .next (takeFront s c cParam 1)
  | some f =>
    if n = 0 ∨ 2 ^ 30 < n then .next (takeFront s c cParam 2)
    else .next (viewStep s false (fun s =>
      match firstFit (dieAt s (ownerDie f)) f ((n + 4095) / 4096) with
      | none => writeH s hd 0
      | some k =>
        let r := addView s f (k * 4096) (k * 4096 + n) x.partid
        writeH (if r.2 = 0 then r.1 else noteArena r.1 f base) hd r.2))

/-- VIEW.NARROW (R313, R315). -/
def execViewNarrow (ha : BitVec 4) (a b : XReg) (s : State) : Result :=
  let c := s.turn
  let id := (ctxAt s c).h ha
  match viewOf s c id with
  | none => .next (takeFront s c cView id)
  | some v => match baseOf s c v.frame with
    | none => .next (takeFront s c cView id)
    | some base =>
      let p := (xOf s a).toNat
      let n := (xOf s b).toNat
      if p < base + v.lo ∨ base + v.hi < p + n then .next (takeFront s c cWiden id)
      else
        let lo := p - base
        let lost := [(v.lo, lo), (lo + n, v.hi)]
        if jobsTouch s c v.frame lost then .next (dataWait s c)
        else .next (viewStep s true (fun s =>
          let s := noteView (setRange s id v lo (lo + n)) v base
          let s := loseCoverage s v.frame v.lo v.hi v.part
          goOn (onCtx s c Ctx.discardLoads)))

/-- VIEW.SPLIT (R313). -/
def execViewSplit (hd ha : BitVec 4) (a : XReg) (s : State) : Result :=
  let c := s.turn
  let id := (ctxAt s c).h ha
  match viewOf s c id with
  | none => .next (takeFront s c cView id)
  | some v => match baseOf s c v.frame with
    | none => .next (takeFront s c cView id)
    | some base =>
      let p := (xOf s a).toNat
      if p < base + v.lo ∨ base + v.hi < p then .next (takeFront s c cWiden id)
      else .next (viewStep s false (fun s =>
        let r := addView s v.frame (p - base) v.hi v.part
        writeH (if r.2 = 0 then s else setRange r.1 id v v.lo (p - base)) hd r.2))

/-- VIEW.DUP (R313). -/
def execViewDup (hd ha : BitVec 4) (s : State) : Result :=
  let c := s.turn
  let id := (ctxAt s c).h ha
  match viewOf s c id with
  | none => .next (takeFront s c cView id)
  | some v => .next (viewStep s false (fun s =>
      let r := addView s v.frame v.lo v.hi v.part
      writeH r.1 hd r.2))

/-- VIEW.DROP (R313, R315). -/
def execViewDrop (ha : BitVec 4) (s : State) : Result :=
  let c := s.turn
  let id := (ctxAt s c).h ha
  if id = 0 then .next (viewStep s true goOn)
  else match viewOf s c id with
  | none => .next (takeFront s c cView id)
  | some v =>
    if jobsTouch s c v.frame [(v.lo, v.hi)] then .next (dataWait s c)
    else .next (viewStep s true (fun s =>
      let s := match baseOf s c v.frame with
        | some b => noteView s v b
        | none => s
      let s := onDie s (idDie id) (fun d => { d with views := remove d.views (idSlot id) })
      let s := loseCoverage s v.frame v.lo v.hi v.part
      writeH (onCtx s c Ctx.discardLoads) ha 0))

/-- VIEW.QUERY code 0 (R313). -/
def execViewQuery (ha : BitVec 4) (a b : XReg) (s : State) : Result :=
  let c := s.turn
  let id := (ctxAt s c).h ha
  let give (lo hi : Nat) : State := viewStep s false (fun s => onCtx s c (fun x =>
    ((x.setX a (BitVec.ofNat 64 lo)).setX b (BitVec.ofNat 64 hi)).advance))
  if id = 0 then .next (give 0 0)
  else match viewOf s c id with
  | none => .next (takeFront s c cView id)
  | some v => match baseOf s c v.frame with
    | none => .next (takeFront s c cView id)
    | some base => .next (give (base + v.lo) (base + v.hi))

/-- VIEW.QUERY code 1: the id of a live view of the partition, or null (R313, R314). -/
def execViewId (ha : BitVec 4) (a : XReg) (s : State) : Result :=
  let c := s.turn
  let id := (ctxAt s c).h ha
  if id = 0 ∨ (viewOf s c id).isSome then .next (viewStep s false (fun s => writeX s a id))
  else .next (takeFront s c cView id)

/-- VIEW.QUERY code 2: the id is checked, and the one overwritten is not (R313, R314). -/
def execViewTake (ha : BitVec 4) (a : XReg) (s : State) : Result :=
  let c := s.turn
  let id := xOf s a
  if id = 0 ∨ (viewOf s c id).isSome then .next (viewStep s false (fun s => writeH s ha id))
  else .next (takeFront s c cView id)

/-- The last access to a draining cell performs (R309, R317). -/
def execCellFree (s : State) : Result := match s.signal with
  | .cell die frame cell =>
    let d := dieAt s die.toNat
    if ownerDie frame = die.toNat ∧ d.draining.contains (frame, cell) then
      let s := onDie s die.toNat (fun d => { d with draining := d.draining.filter (fun e => e != (frame, cell)) })
      .next (arenaEmpty s frame (regionOf s.pkg (frame * 2 ^ 30)).part)
    else .next s
  | _ => .next s

end Sys2Proof.Machine
end

