-- ==== Sys2Proof/Machine/Publication.lean ====
section
/-! DEFINITION. Publication records (R292–R294), the rounds of their consumers (R295–R297), the end of refinement and
settlement (R298, R299), and the PUB forms (R300–R303). -/

namespace Sys2Proof.Machine

/-- A launch names a record as an output, and as an input (R292). -/
def Launch.outputs (l : Launch) (r : Nat) : Bool := (outRecords l.header).contains r
def Launch.inputs (l : Launch) (r : Nat) : Bool := (inRecords l.header).any (fun e => e.1 == r)

/-- The version of an input record to which a launch is bound. -/
def Launch.boundTo (l : Launch) (r : Nat) : Nat := match l.bound.find? (fun e => e.1 == r) with
  | some e => e.2
  | none => 0

/-- An input record is ready in its mode (R295). -/
def inputReady (d : Die) (e : Nat × Nat) : Bool :=
  let p := recAt d e.1
  p.state == 4 || (e.2 != 2 && 1 ≤ p.version)

/-- Some REFIRE or FINISH input has a version newer than the one bound (R295). -/
def newerInput (d : Die) (l : Launch) : Bool :=
  (inRecords l.header).any (fun e => e.2 != 2 && Nat.blt (l.boundTo e.1) (recAt d e.1).version)

/-- A live round of a consumer of a record is bound to a version, which it has read at the dispatch of its first lap (R295, R301). -/
def versionBound (d : Die) (p : PubRec) (v : Nat) : Bool :=
  v != 0 && p.consumers.any (fun e => e.2.2 == v && match find? d.launches e.1 with
    | some l => l.roundOn && l.stopped.isNone && l.cut != 0
    | none => false)

/-- The version last published into a slot (R293). -/
def PubRec.slotVersion (p : PubRec) (j : Nat) : Nat := (get ((0 : Word), 0) p.slots j).2

/-! Rounds -/

/-- The contexts of a die that hold a lap of a launch. -/
def contextsOf (s : State) (die id : Nat) : List Nat :=
  (ctxsOfDie die).filter (fun c => (ctxAt s c).occ != .free && (ctxAt s c).work.launch == id)

/-- A stopped round whose last lap has stopped is over: its pools, saved laps, jobs and key passes are discarded, and its
elements are counted neither as retired nor as killed, those that a leg kill ended before the stop among them (R296). -/
def endStoppedRound (s : State) (die id : Nat) : State :=
  let s := (clusOfDie die).foldl (fun s k => stopOnClu s id k) s
  let s := abortPasses s die id
  onLaunch s die id (fun l => { l with
    roundOn := false, restop := false, retired := 0, killed := l.killed - l.lost, lost := 0, cut := 0, preempted := [] })

/-- The laps of a stopped round that have reached their stop are freed, their buffers discarded (R296). -/
def stopRound (s : State) (die id : Nat) : State :=
  match find? (dieAt s die).launches id with
  | none => s
  | some l =>
    if !l.restop then s
    else
      let now := (dieAt s die).cycle
      let due := (contextsOf s die id).filter (fun c => match (ctxAt s c).stopReq with
        | some t => t ≤ now
        | none => false)
      let s := due.foldl freeCtx s
      if (contextsOf s die id).isEmpty then endStoppedRound s die id else s

/-- A context is asked to stop, at a lap's end or at a cycle; a WFE ends with the request (R161, R276, R296). -/
def askStop (s : State) (c due : Nat) : State := onCtx s c (fun x => { wakeWfe x with stopReq := some (x.stopReq.getD due) })

/-- A re-fire: the round's laps are to stop, at a lap's end or after 1,200 cycles (R296). -/
def refire (s : State) (die id : Nat) : State :=
  let due := (dieAt s die).cycle + 1200
  let s := onLaunch s die id (fun l => { l with restop := true })
  let s := (contextsOf s die id).foldl (fun s c => askStop s c due) s
  if (contextsOf s die id).isEmpty then endStoppedRound s die id else s

/-- The consumers whose rounds a new version of a record stops: in REFIRE mode, bound to an older version, with a lap cut
already, and not stopping already; a round that has cut none binds the latest version when it does (R295, R301). -/
def refired (d : Die) (p : PubRec) : List Nat :=
  (p.consumers.filter (fun e => e.2.1 == 0 && Nat.blt e.2.2 p.version && match find? d.launches e.1 with
    | some l => l.roundOn && l.stopped.isNone && !l.restop && l.cut != 0
    | none => false)).map (fun e => e.1)

/-- The output records of a launch whose new round reopens them (R294). -/
def reopen (d : Die) : List Nat → Die
  | [] => d
  | r :: rs => reopen (onRec d r (fun p =>
      if p.state = 3 then { p with state := if 1 ≤ p.version then 2 else 1, ended := false } else p)) rs

/-- The producer ends refinement of a record (R294, R298, R299). -/
def PubRec.endRefinement (p : PubRec) (bound : List (Nat × Nat)) : PubRec :=
  if p.ended ∨ p.state = 4 then p
  else { p with ended := true, state := 3, inputs := bound }

def endRefinements (d : Die) (bound : List (Nat × Nat)) : List Nat → Die
  | [] => d
  | r :: rs => endRefinements (onRec d r (fun p => p.endRefinement bound)) bound rs

/-- Accesses of a launch of a die have left for the domain and have not performed: its laps' and its jobs' (R279, R361). -/
def launchAway (s : State) (die id : Nat) : Bool :=
  s.pkg.domReqs.any (fun r => r.launch == id && r.ctx.toNat / 1024 == die)

/-- A round starts: every input is ready, and it is the first or some input has a newer version (R295); what the laps of a round
that a re-fire has stopped sent to the domain has performed (R318). -/
def startRound (s : State) (die id : Nat) : State :=
  match find? (dieAt s die).launches id with
  | none => s
  | some l =>
    let d := dieAt s die
    if l.ready ∧ l.stopped.isNone ∧ !l.roundOn ∧ !l.restop ∧ !launchAway s die id ∧ (inRecords l.header).all (inputReady d) ∧
        (l.round = 0 ∨ newerInput d l) then
      let s := bindLatest s die id
      let s := onDie s die (fun d => reopen d (outRecords l.header))
      onLaunch s die id (fun l => { l with roundOn := true, round := l.round + 1, retired := 0, lost := 0, cut := 0 })
    else s

/-- A round ends when all of its elements have retired or been killed: refinement of the output records ends (R295,
R298). -/
def endRound (s : State) (die id : Nat) : State :=
  match find? (dieAt s die).launches id with
  | none => s
  | some l =>
    if l.ready ∧ l.stopped.isNone ∧ l.roundOn ∧ !l.restop ∧ l.total ≤ l.retired + l.lost then
      let s := onDie s die (fun d => endRefinements d l.bound (outRecords l.header))
      onLaunch s die id (fun l => { l with roundOn := false })
    else s

/-- ROUND_START (R295). -/
def execRoundStart (s : State) : Result := match s.signal with
  | .launch die id => .next (startRound s die.toNat id.toNat)
  | _ => .next s

/-- ROUND_STOP (R296). -/
def execRoundStop (s : State) : Result := match s.signal with
  | .launch die id => .next (stopRound s die.toNat id.toNat)
  | _ => .next s

/-- ROUND_END (R298). -/
def execRoundEnd (s : State) : Result := match s.signal with
  | .launch die id => .next (endRound s die.toNat id.toNat)
  | _ => .next s

/-- The conditions under which a record settles (R299). -/
def maySettle (d : Die) (p : PubRec) : Bool :=
  (p.state == 3 || (p.state == 1 && p.ended)) &&
  p.inputs.all (fun e => (recAt d e.1).state == 4 && (recAt d e.1).version == e.2)

/-- RECORD_SETTLE (R299). A stop request ends with it (R302). -/
def execRecordSettle (s : State) : Result := match s.signal with
  | .record die r =>
    let d := dieAt s die.toNat
    if maySettle d (recAt d r.toNat) then
      .next (onDie s die.toNat (fun d => onRec d r.toNat (fun p => { p with state := 4, stopreq := false })))
    else .next s
  | _ => .next s

/-! PUB -/

/-- A PUB form whose launch names the record in its role; PARAM otherwise (R301, R303). -/
def withRole (s : State) (a : XReg) (role : Launch → Nat → Bool) (act : Launch → Nat → State) : State :=
  let r := field (xOf s a) 0 12
  match launchOf s s.turn with
  | none => stopAt s cParam 1
  | some l => if role l r then act l r else stopAt s cParam 1

/-- Every PUB form ends the rewindability of its lap (R149, R303). -/
def afterBreak (s : State) (act : State → State) : State := match breakLap s s.turn with
  | (s, true) => act s
  | (s, false) => s

/-- A record of the issuer's die, as it stands. -/
def recOf (s : State) (r : Nat) : PubRec := recAt (dieAt s (dieOf s.turn)) r

/-- The versions of a record that a launch has published (R272). -/
def Launch.published (l : Launch) (r : Nat) : Nat := get 0 l.versions r

/-- A version published, and the rounds that it stops (R301). -/
def publish (s : State) (l : Launch) (r j v : Nat) (addr : Word) : State :=
  let die := dieOf s.turn
  let id := (ctxAt s s.turn).work.launch
  let s := onDie s die (fun d => onRec d r (fun p =>
    { p with slots := put p.slots j (addr, v), version := v, state := 2, inputs := l.bound }))
  let s := onLaunch s die id (fun l => { l with versions := put l.versions r (l.published r + 1) })
  (refired (dieAt s die) (recAt (dieAt s die) r)).foldl (fun s k => refire s die k) s

/-- The atomic step of PUBV (R301). -/
def publishStep (s : State) (d : XReg) (l : Launch) (r j v : Nat) (addr : Word) : State :=
  let die := dieOf s.turn
  let p := recOf s r
  if v ≤ p.version then stopAt s cPuborder r
  else if p.ended ∨ p.state = 4 then writeX s d 2
  else if versionBound (dieAt s die) p (p.slotVersion j) then writeX s d 1
  else if isDeadline l.header ∧ headerVmax l.header ≤ l.published r then
    let id := (ctxAt s s.turn).work.launch
    stopLaunch (onLaunch s die id (fun l => { l with overran := l.overran ||| 8 })) die id 4 false
  else writeX (publish s l r j v addr) d 0

/-- PUBV (R301). -/
def execPubv (d a b : XReg) (s : State) : Result :=
  let v := xOf s a
  let addr := xOf s b
  .next (withRole s a Launch.outputs (fun _ r =>
    if field v 12 2 = 3 then stopAt s cParam 2
    else if addr.toNat % 64 ≠ 0 then stopAt s cParam 3
    else match performAll s s.turn with
      | .ended s => s
      | .closed s => match launchOf s s.turn with
        | none => s
        | some l => publishStep s d l r (field v 12 2) (field v 16 16) addr))

/-- PUBF (R298, R302). -/
def execPubf (d a : XReg) (s : State) : Result :=
  .next (withRole s a Launch.outputs (fun l r => match performAll s s.turn with
    | .ended s => s
    | .closed s =>
      let s := onDie s (dieOf s.turn) (fun k => onRec k r (fun p => p.endRefinement l.bound))
      writeX s d (BitVec.ofNat 64 (recOf s r).version)))

/-- A launch names a record in either role. -/
def Launch.names (l : Launch) (r : Nat) : Bool := l.outputs r || l.inputs r

/-- STOPR (R302). -/
def execStopr (d a : XReg) (s : State) : Result :=
  .next (withRole s a Launch.names (fun _ r => afterBreak s (fun s =>
    let p := recOf s r
    if p.state = 3 ∨ p.state = 4 then writeX s d 1
    else writeX (onDie s (dieOf s.turn) (fun k => onRec k r (fun p => { p with stopreq := true }))) d 0)))

/-- REFCHK (R302). -/
def execRefchk (d a : XReg) (s : State) : Result :=
  .next (withRole s a Launch.outputs (fun _ r => afterBreak s (fun s =>
    writeX s d (BitVec.ofNat 64 (recOf s r).stopreq.toNat))))

/-- The slot that holds a version; 0 for version 0 (R302). -/
def PubRec.slotOf (p : PubRec) (v : Nat) : Nat :=
  if v = 0 then 0 else ((span 0 3).find? (fun j => p.slotVersion j == v)).getD 0

/-- The second result of REFQ for the version it reports (R302). -/
def refWord (d : Die) (p : PubRec) (v : Nat) : Nat :=
  packBits 1 ((span 0 3).map (fun j => (versionBound d p (p.slotVersion j)).toNat)) * 2 ^ 24 + p.slotOf v * 2 ^ 21 +
  p.stopreq.toNat * 2 ^ 20 + p.forced.toNat * 2 ^ 19 + p.state * 2 ^ 16 + v

/-- REFQ: a consumer reports its bound version, the producer the latest; it acquires where it reports a version (R289, R302). -/
def execRefq (d a b : XReg) (s : State) : Result :=
  .next (withRole s a Launch.names (fun l r => afterBreak s (fun s =>
    let p := recOf s r
    let v := if l.outputs r then p.version else l.boundTo r
    let addr := if v = 0 then 0 else (get ((0 : Word), 0) p.slots (p.slotOf v)).1
    acquired (v != 0) (onCtx s s.turn (fun x =>
      ((x.setX d addr).setX b (BitVec.ofNat 64 (refWord (dieAt s (dieOf s.turn)) p v))).advance)))))

end Sys2Proof.Machine
end

