-- ==== Sys2Proof/Machine/Launching.lean ====
section
/-! DEFINITION. Launches (R264–R267), admission (R268–R270, R275), predecessors and indirect counts (R271), stops by overrun
and deadline (R272, R273), completion records (R274), preemption (R276), yields (R90), pools that age (R260, R261) and
staged inputs (R203). -/

namespace Sys2Proof.Machine

/-! Checks of a header and of a leg table -/

/-- The launch ids of the predecessors that count (R264). -/
def headerNpred (h : List Word) : Nat := field (hw h 0) 20 4
def headerPreds (h : List Word) : List Nat := (slotsOf (hw h 23)).take (headerNpred h)
def headerLegs (h : List Word) : Nat := field (hw h 7) 0 7
def headerDone (h : List Word) : Nat := (hw h 8).toNat
def headerCount (h : List Word) : Nat := (hw h 5).toNat

/-- The zero fields of a header, and its die field, hold what they must (R264, R266). -/
def headerZeros (h : List Word) (die : Nat) : Bool :=
  let z (w lo n : Nat) : Bool := field (hw h w) lo n == 0
  z 0 46 18 && z 0 34 6 && z 0 24 8 && z 0 12 4 && z 0 1 8 && field (hw h 0) 32 2 == die && z 1 42 22 && z 7 7 57 &&
  (span 18 5).all (fun w => z w 48 16) && (slotsOf (hw h 24)).all (fun v => !v.testBit 15) &&
  (slotsOf (hw h 25)).all (fun v => !v.testBit 15 && v / 2 ^ 12 % 4 == 0) && (span 26 6).all (fun w => z w 0 64)

/-- The WID fields of a header (R46, R264). -/
def headerWids (h : List Word) : Bool :=
  let f := headerFields h
  1 ≤ f && f ≤ 6 &&
  (span 0 f).all (fun k =>
    1 ≤ headerWidth h k && headerWidth h k ≤ 64 && 1 ≤ headerExtent h k && headerExtent h k ≤ 2 ^ headerWidth h k) &&
  (span f (6 - f)).all (fun k => headerWidth h k == 0 && headerExtent h k == 0) &&
  (headerWidths h).foldl (· + ·) 0 ≤ 64 && fullCount h ≤ 2 ^ 48

/-- The class fields, npred, clim, frm and input modes of a header (R264). -/
def headerClass (h : List Word) : Bool :=
  (if isDeadline h then headerW h != 0 && headerD h != 0
   else headerW h == 0 && headerNear h == 0 && headerFar h == 0 && headerVcyc h == 0 && headerVmax h == 0 &&
     headerD h == 0) &&
  headerNpred h ≤ 4 && field (hw h 0) 40 6 ≤ 40 && field (hw h 0) 9 3 != 7 && (inRecords h).all (fun e => e.2 != 3)

/-- A deadline launch names no live best-effort launch as a predecessor (R266). -/
def headerOrder (h : List Word) (d : Die) : Bool :=
  !isDeadline h || (headerPreds h).all (fun p => match find? d.launches p with
    | some l => isDeadline l.header
    | none => true)

/-- The lowest code of the checks on a header alone that fail (R266). -/
def headerFault (h : List Word) (d : Die) (die : Nat) (indirect : Bool) : Option Nat :=
  if !headerZeros h die then some 1
  else if !headerWids h then some 2
  else if headerLegs h = 0 ∨ 64 < headerLegs h then some 3
  else if !headerClass h then some 4
  else if (hw h 6).toNat % 128 ≠ 0 ∨ headerDone h % 128 ≠ 0 ∨ (indirect ∧ headerCount h % 8 ≠ 0) then some 5
  else if !headerOrder h d then some 6
  else none

/-- The zero fields of a leg entry, those of its tag words among them (R37, R265). -/
def legZeros (e : List Word) : Bool :=
  field (hw e 1) 27 37 == 0 && field (hw e 1) 17 3 == 0 && (span 12 4).all (fun k => hw e k == 0) &&
  (span 2 5).all (fun k => field (hw e k) 60 4 == 0) && field (hw e 7) 20 44 == 0

/-- An entry address, vtype, tags, carries and staged inputs that a leg may have (R265). -/
def legFields (e : List Word) : Bool :=
  field (hw e 0) 0 2 == 0 && vtOk (legVtype e) && (span 0 64).all (fun n => (legTag e n).toNat ≤ 0x12) && legCarry e ≤ 8 &&
  legStages e ≤ 4 && (span 8 (legStages e)).all (fun k =>
    (hw e k).toNat % 128 == 0 && ownWindow ≤ (hw e k).toNat && (hw e k).toNat < ownWindow + padSize)

/-- The lowest code of the checks on leg entries that fail (R266). -/
def legsFault (legs : List (List Word)) : Option Nat :=
  if !legs.all legZeros then some 1 else if !legs.all legFields then some 3 else none

/-! Reading by the front -/

/-- What reading words has come to: the words, a stop, or an access that still waits. -/
inductive Reading (α : Type) where
  | got (s : State) (ws : α)
  | ended (s : State)
  | held (s : State)

/-- The condition of highest priority that words of a scalar load meet, with the address of the first that meets it (R7, R139). -/
def worstOf (s : State) (c : Nat) : List Nat → Option (Nat × Denial)
  | [] => none
  | va :: r => match reach s c (frontAgent s c) .load va 8 8 true (frontQuiet (ctxAt s c)), worstOf s c r with
    | .deny e, some (v, f) => some (if priority e.code ≤ priority f.code then (va, e) else (v, f))
    | .deny e, none => some (va, e)
    | _, w => w

/-- The addresses of n words from one on. -/
def wordsAt (va n : Nat) : List Nat := (span 0 n).map (fun k => (va + 8 * k) % 2 ^ 64)

/-- A word of the domain that the front reads: the one that it has, or its answer, or it waits for that (R321, R361). -/
def awayWord (s : State) (c va : Nat) : Access (List Byte) :=
  match find? (ctxAt s c).readBack va with
  | some w => .done s (natBytes 8 w.toNat)
  | none => match askDomain s c .dump va 8 .load with
    | (s, none) => .wait (dataWait s c)
    | (s, some (.data bs)) =>
      let bs := mergeBytes (ctxAt s c).lap.buf va bs
      .done (onCtx s c (fun x => { x with readBack := put x.readBack va (BitVec.ofNat 64 (bytesNat bs)) })) bs
    | (s, some .vpage) => .fault s cVpage
    | (s, some .access) => .fault s cAccess
    | (s, some _) => .gone (consumePoison s c 0 va (domainPlace va) .uncorrectable)

/-- Words from an address on, read by the front in scalar-stream loads, also from the domain (R172, R266). -/
def readWords (s : State) (c va : Nat) : Nat → Reading (List Word)
  | 0 => .got s []
  | n + 1 =>
    let a := frontAgent s c
    match reach s c a .load va 8 8 true (frontQuiet (ctxAt s c)) with
    | .deny e => .ended (takeFront (noteDenial s a e) c e.code (BitVec.ofNat 64 va))
    | .wait => .held (dataWait s c)
    | k => match (match k with
        | .ok p => takeBytes s c 0 a va p 8
        | _ => awayWord s c va) with
      | .done s bs => match readWords s c ((va + 8) % 2 ^ 64) n with
        | .got s ws => .got s (BitVec.ofNat 64 (bytesNat bs) :: ws)
        | r => r
      | .fault s code => .ended (takeFront s c code (BitVec.ofNat 64 va))
      | .wait s => .held s
      | .gone s => .ended s

/-- The entries of a leg table (R265). -/
def readLegs (s : State) (c va : Nat) : Nat → Reading (List (List Word))
  | 0 => .got s []
  | n + 1 => match readWords s c va 16 with
    | .ended s => .ended s
    | .held s => .held s
    | .got s e => match readLegs s c ((va + 128) % 2 ^ 64) n with
      | .got s es => .got s (e :: es)
      | r => r

/-! The completion record -/

/-- Words c0 to c9 of a completion record (R274). -/
def recordWords (id status endcyc : Nat) (l : Launch) : List Nat :=
  [l.overran.toNat * 2 ^ 32 + l.clamp.toNat * 2 ^ 24 + status * 2 ^ 16 + id, l.admitted, l.promise, endcyc, l.raw.toNat, l.killed,
   l.work, l.near, l.far, l.recov]

/-- The die's agent for a launch (R274). -/
def launchAgent (die : Nat) (l : Launch) : Agent := unitAgent die l.asid.toNat l.part l.secure

/-- A completion record written: its first three words at acceptance, all of it at the end; an address that cannot be
written leaves a record of kind 0x11 (R274). -/
def writeRecord (s : State) (die id : Nat) (l : Launch) (whole : Bool) : State :=
  let a := launchAgent die l
  let va := headerDone l.header
  match decide s a .store va with
  | .error _ => record s die { kind := 0x11, code := 0, rung := 0, part := l.part, ctx := die * 1024, info := id, va := va, pa := 0 }
  | .ok p =>
    if whole then
      let ws := recordWords id (l.stopped.getD 2) (dieAt s die).cycle l
      storeSectors s a p (ws.flatMap (natBytes 8) ++ List.replicate 48 0)
    else storeAt s a va p (((recordWords id 1 0 l).take 3).flatMap (natBytes 8))

/-! Admission -/

/-- The remaining work of a launch in context-cycles, with its preemptions (R268). -/
def demand (h : List Word) (work : Nat) : Nat :=
  16 * (headerW h + headerVcyc h * headerVmax h) - work + 51968 * headerClim h

/-- A deadline launch in the calendar: deadline, demand, near and far bytes to come (R268). -/
structure Entry where
  d    : Nat
  dem  : Nat
  near : Nat
  far  : Nat
  deriving DecidableEq, Repr

/-- The live deadline launches of a die that have not been stopped (R268, R273). -/
def calendar (d : Die) : List Launch :=
  (d.launches.filter (fun e => isDeadline e.2.header && e.2.stopped.isNone)).map Prod.snd

def entryOfLaunch (l : Launch) : Entry :=
  { d := l.promise, dem := demand l.header l.work, near := headerNear l.header - l.near,
    far := headerFar l.header - l.far }

/-- The cycles that a cluster needs to wake (R268, R353). -/
def Power.wake : Power → Nat
  | .on => 0
  | .gated => 16
  | .retention => 3000
  | .off => 60000

/-- The cores of a cluster in service (R154). -/
def coresOn (s : State) (k : Nat) : Nat := ((span (k * 4) 4).filter (fun i => 0 < (coreAt s i).groups)).length

/-- The clusters of a die that are available to a partition (R268, R341, R348, R358). -/
def available (s : State) (die : Nat) (part : BitVec 16) : List Nat :=
  (clusOfDie die).filter (fun k =>
    let x := cluAt s k
    x.part == part && x.scrub.isNone && !x.fenced && !x.hot && 0 < coresOn s k)

/-- Four times cap(t) of R268, with k of 4 cores of a cluster in service (R154), less the recovery cycles of live launches
(R269). -/
def capacity (s : State) (die : Nat) (ks : List Nat) (t : Nat) : Nat :=
  (ks.map (fun k => 15 * coresOn s k * (t - (cluAt s k).power.wake - 2224))).foldl (· + ·) 0 -
    4 * ((dieAt s die).launches.map (fun e => e.2.recov)).foldl (· + ·) 0

/-- The sum of a figure over the entries due by d. -/
def dueBy (es : List Entry) (d : Nat) (f : Entry → Nat) : Nat := ((es.filter (fun e => e.d ≤ d)).map f).foldl (· + ·) 0

/-- The latest promise among a candidate's live deadline predecessors (R268). -/
def lastPromise (d : Die) (h : List Word) : Option Nat :=
  let ps := (headerPreds h).filterMap (fun p => match find? d.launches p with
    | some l => if isDeadline l.header then some l.promise else none
    | none => none)
  if ps.isEmpty then none else some (ps.foldl max 0)

/-- Every test of R268 passes for a candidate with a relative deadline. -/
def fits (s : State) (die : Nat) (part : BitVec 16) (h : List Word) (rel : Nat) : Bool :=
  let d := dieAt s die
  let now := d.cycle
  let ks := available s die part
  let cand : Entry := { d := now + rel, dem := demand h 0, near := headerNear h, far := headerFar h }
  let es := cand :: (calendar d).map entryOfLaunch
  let cap := capacity s die ks
  (es.filter (fun e => now ≤ e.d)).all (fun e =>
    let t := e.d - now
    4 * dueBy es e.d Entry.dem ≤ cap t && dueBy es e.d Entry.near ≤ 3000 * t && dueBy es e.d Entry.far ≤ 480 * t &&
    (match lastPromise d h with
      | none => true
      | some p => Nat.blt e.d cand.d ||
        (4 * cand.dem ≤ cap (e.d - p) && cand.near ≤ 3000 * (e.d - p) && cand.far ≤ 480 * (e.d - p))))

/-- The least number from lo to hi at which a test passes that passes from some number on, hi among them. -/
def least (test : Nat → Bool) : Nat → Nat → Nat → Nat
  | 0, _, hi => hi
  | n + 1, lo, hi =>
    let mid := (lo + hi) / 2
    if hi ≤ lo then hi else if test mid then least test n lo mid else least test n (mid + 1) hi

/-- The answer of a rejection without a deadline that passes (R267, R268). -/
def noDeadline : Nat := 2 ^ 64 - 1

/-- A list that holds a number twice. -/
def twice : List Nat → Bool
  | [] => false
  | a :: r => r.contains a || twice r

/-- The records that a launch names let it in (R292). -/
def recordsOk (d : Die) (h : List Word) : Bool :=
  let ins := (inRecords h).map Prod.fst
  !twice (outRecords h ++ ins) && (outRecords h).all (fun r => (recAt d r).producer == 0) &&
  ins.all (fun r => (recAt d r).consumers.length < 8)

/-- The answer of R268 to a launch, with the limits of R267, which count every launch until its record is written, and the
rejections of R292, R358 and R371. -/
def verdict (s : State) (die : Nat) (part : BitVec 16) (h : List Word) : Nat :=
  let d := dieAt s die
  let dl := isDeadline h
  let full := 1024 ≤ (d.launches.filter (fun e => isDeadline e.2.header)).length
  if s.pkg.quiesced || 4096 ≤ d.launches.length || (dl && (d.warm || full)) || !recordsOk d h then
    noDeadline
  else if !dl then 0
  else if fits s die part h (headerD h) then d.cycle + headerD h
  else if fits s die part h (2 ^ 48 - 1) then 2 ^ 63 + least (fits s die part h) 48 1 (2 ^ 48 - 1)
  else noDeadline

/-- The demand that the calendar has reserved on a cluster, times a common multiple of 1 to 40 (R275). -/
def reservedDemand (d : Die) (k : Nat) : Nat :=
  (((calendar d).filter (fun l => l.clusters.contains k)).map (fun l =>
    demand l.header l.work * 5342931457063200 / headerClim l.header)).foldl (· + ·) 0

/-- A list of clusters with one put in its place by a key, the lower number first among equals. -/
def insertClu (key : Nat → Nat) (k : Nat) : List Nat → List Nat
  | [] => [k]
  | j :: r => if key k ≤ key j then k :: j :: r else j :: insertClu key k r

/-- The cluster set of a launch (R275). -/
def clusterSet (s : State) (die : Nat) (part : BitVec 16) (h : List Word) : List Nat :=
  let ks := available s die part
  if isDeadline h then (ks.foldr (insertClu (reservedDemand (dieAt s die))) []).take (headerClim h) else ks

/-- The next launch id from one on that no live launch has (R274). -/
def freeId (d : Die) : Nat → Nat → Nat
  | 0, id => id
  | n + 1, id => if (find? d.launches id).isSome then freeId d n (if id = 0xFFFF then 1 else id + 1) else id

/-- The records that an accepted launch names (R292–R294). -/
def enterRecords (d : Die) (id : Nat) (h : List Word) : Die :=
  let live (p : PubRec) : PubRec := { p with state := if p.state = 0 then 1 else p.state }
  let d := (outRecords h).foldl (fun d r => onRec d r (fun p => { live p with producer := id })) d
  (inRecords h).foldl (fun d e => onRec d e.1 (fun p =>
    let p := live p
    { p with consumers := p.consumers ++ [(id, e.2, 0)] })) d

/-- A launch accepted with its promise: its id, its records and the first words of its completion record (R268, R274,
R275). -/
def accept (s : State) (die : Nat) (r : AdmReq) (promise : Nat) : State × Nat :=
  let d := dieAt s die
  let id := freeId d d.launches.length d.nextId
  let full := fullCount r.header
  let l : Launch :=
    { header := r.header, legs := r.legs, indirect := r.indirect, part := r.part, asid := r.asid, secure := r.secure,
      admitted := d.cycle, promise := promise, clusters := clusterSet s die r.part r.header, ready := false,
      count := if r.indirect then 0 else full, clamp := false, raw := BitVec.ofNat 64 (if r.indirect then 0 else full),
      cut := 0, retired := 0, lost := 0, killed := 0, work := 0, near := 0, far := 0, recov := 0, overran := 0,
      stopped := none, round := 0, roundOn := false, restop := false, bound := [], versions := [], preempted := [],
      byHw := false }
  let s := onDie s die (fun d =>
    let d := enterRecords d id r.header
    { d with launches := put d.launches id l, nextId := if id = 0xFFFF then 1 else id + 1 })
  (writeRecord s die id l false, id)

/-- A request decided: the state after it, the answer, and the id of an accepted launch. -/
def decideRequest (s : State) (die : Nat) (r : AdmReq) : State × Nat × Nat :=
  let v := verdict s die r.part r.header
  if v < 2 ^ 63 then
    let (s, id) := accept s die r v
    (s, v, id)
  else (s, v, 0)

/-- The answer reaches the register of the context that waits for it; one for a lap that has ended reaches none. That of an accepted
launch is an acquire (R266, R274). -/
def deliverAnswer (s : State) (c v : Nat) : State :=
  if 4096 ≤ c then s
  else onCtx s c (fun x => match x.fwait with
    | .admission d =>
      let x := if v < 2 ^ 63 then x.discardLoads else x
      { (x.setX d (BitVec.ofNat 64 v)) with fwait := .none }.advance
    | _ => x)

/-- The oldest request of a die decided (R267). -/
def decideHead (s : State) (die : Nat) : State :=
  match (dieAt s die).requests with
  | [] => s
  | r :: rest =>
    let s := onDie s die (fun d => { d with requests := rest })
    let (s, v, _) := decideRequest s die r
    deliverAnswer s r.ctx v

/-- A request among those of its die: by the cycle of its arrival, then by ctxid (R267). -/
def insertRequest (r : AdmReq) : List AdmReq → List AdmReq
  | [] => [r]
  | q :: rest =>
    if r.at_ < q.at_ ∨ (r.at_ = q.at_ ∧ r.ctx < q.ctx) then r :: q :: rest else q :: insertRequest r rest

/-- ADMISSION_DECISION (R268). -/
def execAdmissionDecision (s : State) : Result := match s.signal with
  | .die die => .next (decideHead s die.toNat)
  | _ => .next s

/-! LAUNCH -/

/-- A header whose addresses in the own window are in their die-wide form, by which the die's units reach them (R199,
R274). -/
def dieHeader (clu : Nat) (h : List Word) : List Word :=
  (h.set 5 (BitVec.ofNat 64 (dieForm clu (headerCount h)))).set 8 (BitVec.ofNat 64 (dieForm clu (headerDone h)))

/-- A launch submitted: every earlier access performs, and the front waits for the answer (R266). -/
def submit (s : State) (d : XReg) (h : List Word) (legs : List (List Word)) (indirect : Bool) : State :=
  let c := s.turn
  let a := frontAgent s c
  match decide s a .store (headerDone h) with
  | .error e => stopAt (noteDenial s a e) e.code (headerDone h)
  | .ok _ => match performAll s c with
    | .ended s => s
    | .closed s =>
      let x := ctxAt s c
      let r : AdmReq :=
        { at_ := cycleOf s c, ctx := c, header := dieHeader (cluOf c) h, legs := legs, indirect := indirect, part := x.partid,
          asid := x.asid, secure := x.secure }
      let s := onDie s (dieOf c) (fun d => { d with requests := insertRequest r d.requests })
      let s := onCtx s c (fun x => { x with fwait := .admission d, readBack := [] })
      if s.defer then s else decideHead s (dieOf c)

/-- The stop of the front at the condition of highest priority among words that it is to read, if there is one (R7, R139). -/
def stopAtWorst (s : State) (c : Nat) (vas : List Nat) : Option State :=
  (worstOf s c vas).map (fun w => stopAt (noteDenial s (frontAgent s c) w.2) w.2.code w.1)

/-- LAUNCH (R266): the conditions of all words of the header, and then of the leg table, are judged before it is read (R139). -/
def runLaunch (d a : XReg) (indirect : Bool) (s : State) : State :=
  let c := s.turn
  let va := (xOf s a).toNat
  if va % 256 ≠ 0 then stopAt s cAlign va
  else match stopAtWorst s c (wordsAt va 32) with
  | some t => t
  | none => match readWords s c va 32 with
  | .held t => t
  | .ended t => t
  | .got t h => match headerFault h (dieAt t (dieOf c)) 0 indirect with
    | some k => stopAt t cParam k
    | none => match stopAtWorst t c (wordsAt (hw h 6).toNat (16 * headerLegs h)) with
      | some t => t
      | none => match readLegs t c (hw h 6).toNat (headerLegs h) with
      | .held t => t
      | .ended t => t
      | .got t legs => match legsFault legs with
        | some k => stopAt t cParam k
        | none => submit t d h legs indirect

/-- LAUNCH, direct (R266). -/
def execLaunch (d a : XReg) (s : State) : Result := .next (runLaunch d a false s)
/-- LAUNCH, indirect (R266, R271). -/
def execLaunchInd (d a : XReg) (s : State) : Result := .next (runLaunch d a true s)

/-! Predecessors and counts -/

/-- A launch whose count is known may dispatch; one without inputs begins its only round (R271, R295). -/
def begin_ (l : Launch) : Launch :=
  if (inRecords l.header).isEmpty then { l with ready := true, roundOn := true, round := 1 } else { l with ready := true }

/-- A launch whose count cannot be read ends with status 7 and count 0; its record names the physical address where there is one (R271,
R343). -/
def abortCount (s : State) (die id code : Nat) (l : Launch) : State :=
  let s := record s die
    { kind := 0x06, code := code, rung := 4, part := l.part, ctx := die * 1024, info := id, va := headerCount l.header
      pa := spotPa s (launchAgent die l) (headerCount l.header) }
  stopLaunch s die id 7 false

/-- An indirect count read by one atomic load at .die (R271). -/
def readCount (s : State) (die id : Nat) (l : Launch) : State :=
  let a := launchAgent die l
  let va := headerCount l.header
  match decide s a .load va with
  | .error e => abortCount (noteDenial s a e) die id e.code l
  | .ok p => match readFinding s p with
    | some .uncorrectable => abortCount (recordSector s a va p .uncorrectable) die id cMemue l
    | some .tagFails => abortCount (recordSector s a va p .tagFails) die id cIntegrity l
    | _ =>
      let v := bytesNat (placeBytes s p 8)
      let full := fullCount l.header
      onLaunch s die id (fun l =>
        begin_ { l with raw := BitVec.ofNat 64 v, count := min v full, clamp := Nat.blt full v })

/-- PREDECESSORS_COMPLETE (R271). -/
def execPredecessorsComplete (s : State) : Result := match s.signal with
  | .launch die id =>
    let d := dieAt s die.toNat
    match find? d.launches id.toNat with
    | none => .next s
    | some l =>
      if l.ready ∨ l.stopped.isSome ∨ (headerPreds l.header).any (fun p => (find? d.launches p).isSome) then .next s
      else if l.indirect then .next (readCount s die.toNat id.toNat l)
      else .next (onLaunch s die.toNat id.toNat begin_)
  | _ => .next s

/-! Stops and completion -/

/-- The bounds that a launch has broken (R272). -/
def overruns (l : Launch) : BitVec 4 :=
  if isDeadline l.header then
    BitVec.ofNat 4 ((Nat.blt (16 * (headerW l.header + headerVcyc l.header * headerVmax l.header)) l.work).toNat +
      2 * (Nat.blt (headerNear l.header) l.near).toNat + 4 * (Nat.blt (headerFar l.header) l.far).toNat)
  else 0

/-- LAUNCH_OVERRUN_STOP (R272, R273). -/
def execLaunchOverrunStop (s : State) : Result := match s.signal with
  | .launch die id => match find? (dieAt s die.toNat).launches id.toNat with
    | none => .next s
    | some l =>
      if l.stopped.isSome ∨ overruns l = 0 then .next s
      else .next (stopLaunch (onLaunch s die.toNat id.toNat (fun l => { l with overran := l.overran ||| overruns l }))
        die.toNat id.toNat 4 false)
  | _ => .next s

/-- Every element of a launch has retired or been killed, in a round that has run (R274). -/
def Launch.allDone (l : Launch) : Bool := l.ready && 1 ≤ l.round && l.total ≤ l.retired + l.lost

/-- DEADLINE_STOP: status 3 when only refinement was cut off, else 8 (R273, R274). -/
def execDeadlineStop (s : State) : Result := match s.signal with
  | .launch die id => match find? (dieAt s die.toNat).launches id.toNat with
    | none => .next s
    | some l =>
      if l.stopped.isSome ∨ !isDeadline l.header ∨ (dieAt s die.toNat).cycle < l.promise then .next s
      else .next (stopLaunch s die.toNat id.toNat (if l.allDone then 3 else 8) false)
  | _ => .next s

/-- A launch may complete: its elements have all retired or been killed, its outputs have settled, and its inputs have, at
the versions of its last round (R274, R297). Its completion record releases every write of the launch (R289). -/
def mayComplete (d : Die) (l : Launch) : Bool :=
  l.stopped.isSome || (l.allDone && !l.roundOn && !l.restop && (outRecords l.header).all (fun r => (recAt d r).state == 4) &&
    (inRecords l.header).all (fun e => (recAt d e.1).state == 4 && (recAt d e.1).version == l.boundTo e.1))

/-- The records of a launch that is no longer live; one that no live launch names is free again (R292). -/
def leaveRecords (d : Die) (id : Nat) (h : List Word) : Die :=
  (outRecords h ++ (inRecords h).map Prod.fst).foldl (fun d r => onRec d r (fun p =>
    let p := { p with producer := if p.producer = id then 0 else p.producer, consumers := p.consumers.filter (fun e => e.1 != id) }
    if p.producer = 0 ∧ p.consumers.isEmpty then PubRec.free else p)) d

/-- The end of a launch: its completion record, and its records, jobs and passes let go (R274). -/
def completeLaunch (s : State) (die id : Nat) (l : Launch) : State :=
  let s := (clusOfDie die).foldl (fun s k => stopOnClu s id k) s
  let s := abortPasses s die id
  let s := writeRecord s die id l true
  onDie s die (fun d =>
    let d := leaveRecords d id l.header
    { d with launches := remove d.launches id
             ended := put d.ended id (l.part.toNat, recordWords id (l.stopped.getD 2) d.cycle l) })

/-- LAUNCH_COMPLETE (R274). -/
def execLaunchComplete (s : State) : Result := match s.signal with
  | .launch die id => match find? (dieAt s die.toNat).launches id.toNat with
    | none => .next s
    | some l =>
      if mayComplete (dieAt s die.toNat) l && !launchAway s die.toNat id.toNat then
        .next (completeLaunch s die.toNat id.toNat l)
      else .next s
  | _ => .next s

/-! Laps -/

/-- A cluster asks for a new lap of a launch: a context of it is free, no other lap goes first there, and the staged inputs of its
first leg have retired (R203, R260, R275). -/
def asksFor (s : State) (clu id : Nat) (l : Launch) : Bool :=
  !(freeContexts s clu).isEmpty && nextCand s clu == some (.fresh id) && stagesDone s clu id 1 (legStages (l.leg 1))

/-- A lap of a launch has come to a cluster in this cycle: where it asks for another one, the clusters without one have asked first
(R275). -/
def servedNow (s : State) (clu id : Nat) : Bool :=
  (ctxsOfClu clu).any (fun c =>
    let x := ctxAt s c
    x.occ != .free && x.work.launch == id && x.since == cycleOf s c)

/-- The cycle in which a cluster began to ask for a lap of a launch (R275). -/
def askedAt (s : State) (clu id : Nat) : Nat := match (cluAt s clu).asking with
  | some (n, t) => if n = id then t else cycleOf s (clu * 16)
  | none => cycleOf s (clu * 16)

/-- Of a list of clusters, one of those that have asked longest for a lap of a launch, the first in the list. -/
def longestAsker (s : State) (id : Nat) : List Nat → Option Nat
  | [] => none
  | k :: r => match longestAsker s id r with
    | none => some k
    | some j => some (if askedAt s k id ≤ askedAt s j id then k else j)

/-- The cluster that takes a new lap: of those of the launch's set that ask for one and have received none in this cycle, the one that
began to ask first, the lowest of several (R275). -/
def takerOf (s : State) (clu id : Nat) : Nat := match find? (launchesOf s clu) id with
  | some l => (longestAsker s id ((clusOfDie (dieOfClu clu)).filter (fun k =>
      l.clusters.contains k && !servedNow s k id && asksFor s k id l))).getD clu
  | none => clu

/-- The lowest free context of a cluster takes the lap that is due (R260); a new lap goes to the cluster that has asked for it first
(R275). -/
def dispatchLap (s : State) (clu : Nat) : State :=
  match freeContexts s clu, nextCand s clu with
  | c :: _, some (.fresh id) => match freeContexts s (takerOf s clu id) with
    | k :: _ => giveCand s k (.fresh id)
    | [] => giveCand s c (.fresh id)
  | c :: _, some k => giveCand s c k
  | _, _ => s

/-- What a cluster asks for, from when on, where it asks for a new lap (R260, R275). -/
def noteAsking (s : State) (clu : Nat) : State :=
  let want := match nextCand s clu with
    | some (.fresh id) => if (find? (launchesOf s clu) id).any (asksFor s clu id) then some id else none
    | _ => none
  match want, (cluAt s clu).asking with
  | some id, some (n, _) => if n = id then s else onClu s clu (fun x => { x with asking := some (id, cycleOf s (clu * 16)) })
  | some id, none => onClu s clu (fun x => { x with asking := some (id, cycleOf s (clu * 16)) })
  | none, some _ => onClu s clu (fun x => { x with asking := none })
  | none, none => s

/-- LAP_DISPATCH (R260). -/
def execLapDispatch (s : State) : Result := match s.signal with
  | .clu die clu => .next (dispatchLap s (cluKey die clu))
  | _ => .next s

/-- The age at which a pool's oldest element makes it aged or overdue (R260, R261); the pool of a preempted launch does not
age (R262). -/
def oldEnough (s : State) (clu : Nat) (p : Pool) (age : Nat) : Bool :=
  poolLive s clu p && p.oldest + age ≤ (dieAt s (dieOfClu clu)).cycle

def onPools (s : State) (clu launch leg age : Nat) (f : Pool → Pool) : State :=
  onClu s clu (fun x => { x with pools := x.pools.map (fun p =>
    if p.launch = launch ∧ p.leg = leg ∧ oldEnough s clu p age then f p else p) })

/-- POOL_AGED (R260). -/
def execPoolAged (s : State) : Result := match s.signal with
  | .pool die clu launch leg =>
    .next (onPools s (cluKey die clu) launch.toNat leg.toNat 4096 (fun p => { p with aged := true }))
  | _ => .next s

/-- POOL_OVERDUE (R261). -/
def execPoolOverdue (s : State) : Result := match s.signal with
  | .pool die clu launch leg =>
    .next (onPools s (cluKey die clu) launch.toNat leg.toNat 16384 (fun p => { p with overdue := true }))
  | _ => .next s

/-! Preemption and yields -/

/-- How late a context's lap is due; a best-effort lap is the latest (R276). -/
def lateness (s : State) (c : Nat) : Nat := match launchOf s c with
  | some l => if isDeadline l.header then l.promise else 2 ^ 80
  | none => 0

/-- The context of a list that the die preempts: the latest deadline, then the lap most recently dispatched (R276). -/
def victim (s : State) : List Nat → Option Nat
  | [] => none
  | c :: r => match victim s r with
    | none => some c
    | some k =>
      if lateness s k < lateness s c ∨ (lateness s k = lateness s c ∧ (ctxAt s k).since ≤ (ctxAt s c).since) then some c
      else some k

/-- The deadline launch of earliest deadline that has a ready lap on a cluster, with that lap (R276). -/
def earliestReady (s : State) (clu : Nat) : Option (Launch × Cand) :=
  firstSome ((servedOrder (launchesOf s clu)).filter (fun e => isDeadline e.2.header))
    (fun e => (readyLap s clu e.1 e.2).map (fun k => (e.2, k)))

/-- The clusters on which a ready lap may run: a new one on each of its launch's set, a saved one or one of a pool on its own (R262,
R275, R276). -/
def lapClusters (clu : Nat) (l : Launch) : Cand → List Nat
  | .fresh _ => l.clusters
  | _ => [clu]

/-- A lap of a later deadline is told to stop, when an earlier launch's ready lap finds no free context on its clusters (R276, log
80). -/
def preempt (s : State) (clu : Nat) : State :=
  match earliestReady s clu with
  | none => s
  | some (l, k) =>
    let ks := lapClusters clu l k
    if ks.any (fun j => !(spareContexts s j).isEmpty) then s
    else
      let cs := (ks.flatMap ctxsOfClu).filter (fun c =>
        (ctxAt s c).occ == .running && (ctxAt s c).stopReq.isNone && Nat.blt l.promise (lateness s c))
      match victim s cs with
      | none => s
      | some c => askStop s c (cycleOf s c + 1200)

/-- LAUNCH_PREEMPT (R276). -/
def execLaunchPreempt (s : State) : Result := match s.signal with
  | .clu die clu => .next (preempt s (cluKey die clu))
  | _ => .next s

/-- The jobs of a launch stop, each as it stands when its turn comes: the running one at its boundary, the accepted ones as they are
(R212). -/
def holdJobs (s : State) (clu id : Nat) : State :=
  (((cluAt s clu).jobs.filter (fun j => j.launch == id)).map (fun j => j.id)).foldl (fun s k =>
    match (cluAt s clu).jobs.find? (fun j => j.id == k) with
    | some j => holdJob s clu j
    | none => s) s

/-- A launch is preempted on a cluster where a lap of it is saved by preemption and none runs: its jobs and pools stop
(R212, R262, R276). -/
def notePreempted (s : State) (clu id : Nat) : State :=
  match find? (launchesOf s clu) id with
  | none => s
  | some l =>
    if l.preempted.contains clu ∨ (savedOf s id 0 (cluAt s clu).saved).isNone ∨
        (ctxsOfClu clu).any (fun c => (ctxAt s c).occ != .free && (ctxAt s c).work.launch == id) then s
    else
      let s := onLaunch s (dieOfClu clu) id (fun l => { l with preempted := clu :: l.preempted })
      let now := (dieAt s (dieOfClu clu)).cycle
      holdJobs (onClu s clu (fun x => { x with pools := stopAges id now x.pools })) clu id

/-- What a context holds, as it is saved: its instructions stand in its queue, with the batons that they have popped back in
theirs, and its load streams empty (R90, R168, R190, R276; log 15). -/
def Ctx.toSave (x : Ctx) : Ctx :=
  let y := returnBatons x x.vx
  { y.discardLoads with
    vq := x.vx.map (fun e => { e with popped := false }) ++ x.vq, vx := [], waits := [], occ := .saved, stopReq := none }

/-- The launches that have become preempted on a cluster as laps of theirs were saved, yielded, killed or ended (R276). -/
def notePreemptions (s : State) (clu : Nat) : State :=
  ((((cluAt s clu).saved.filter (fun v => !v.yielded)).map (fun v => (ctxAt s v.num).work.launch)).eraseDups).foldl
    (fun s id => notePreempted s clu id) s

/-- A lap saved from its context, which is free; it waits for what the lap has sent to the domain and for the entries appended to its
store streams. A YIELD that is pending stays so in a lap that is preempted (R90, R135, R190, R276). -/
def saveCtx (s : State) (c : Nat) (yielded : Bool) : State :=
  let s := settle s c
  if (ctxAt s c).occ ≠ .running ∨ drainsOn s c ∨ domainPending s c then s
  else
    let s := addEvent s c 0
    let clu := cluOf c
    let n := 4096 * (cluAt s clu).nextSave + c
    let x := ctxAt s c
    let s := setCtx (setCtx s n { x.toSave with yielding := x.yielding && !yielded }) c x.freed
    let s := renameLap (writeSlot s c) clu c n
    onClu s clu (fun k => { k with saved := k.saved ++ [{ num := n, yielded := yielded }], nextSave := k.nextSave + 1 })

/-- A preempted lap that has reached its stop is saved (R276). -/
def saveStopped (s : State) (c : Nat) : State :=
  let x := ctxAt s c
  match x.stopReq with
  | none => s
  | some t =>
    if x.occ = .running ∧ t ≤ cycleOf s c ∧ frontFree x ∧ !((launchOf s c).any (fun l => l.restop)) then
      notePreemptions (saveCtx s c false) (cluOf c)
    else s

/-- CONTEXT_SAVE (R276). -/
def execContextSave (s : State) : Result := match s.signal with
  | .ctx c => .next (saveStopped s c.toNat)
  | _ => .next s

/-- CONTEXT_RESTORE (R276): a saved lap that is due goes to a free context of its cluster. -/
def execContextRestore (s : State) : Result := match s.signal with
  | .clu die clu =>
    let k := cluKey die clu
    match freeContexts s k, nextCand s k with
    | c :: _, some (.saved i) => .next (giveCand s c (.saved i))
    | _, _ => .next s
  | _ => .next s

/-- A YIELD of a context takes effect outside a loop, also one that a LAPEXIT has left, or at the boundary between two laps of it (R90;
log 94). -/
def Ctx.mayYield (x : Ctx) : Bool := x.yielding && (!x.loop.active || x.between)

/-- A yield takes effect: the context goes to the lap that waits; with none, or with a free context, nothing is replaced
(R90). -/
def switchYield (s : State) (c : Nat) : State :=
  let x := ctxAt s c
  let clu := cluOf c
  if x.occ ≠ .running ∨ !x.mayYield ∨ !frontFree x then s
  else if !(freeContexts s clu).isEmpty then onCtx s c (fun x => { x with yielding := false })
  else match nextCand s clu with
    | none => onCtx s c (fun x => { x with yielding := false })
    | some k =>
      let s := saveCtx s c true
      if (ctxAt s c).occ = .free then notePreemptions (giveCand s c k) clu else s

/-- YIELD_SWITCH (R90). -/
def execYieldSwitch (s : State) : Result := match s.signal with
  | .ctx c => .next (switchYield s c.toNat)
  | _ => .next s

/-! Staged inputs -/

/-- The operation that a card names. -/
def kindOf (op : Nat) : JobKind := if op = 2 then .tcvt else if op = 3 then .tcopy else .tmma

/-- A leg's staged-input card issued as a job without a context; a zero dimension has no issuer's vtype to take (R203, R208, R214). A
card in the element storage, which no access reaches, ends with ACCESS and shows nothing (R196). -/
def issueStaged (s : State) (clu id leg slot : Nat) : State :=
  match find? (launchesOf s clu) id with
  | none => s
  | some l =>
    let e := l.leg leg
    if !l.live ∨ l.preempted.contains clu ∨ legStages e ≤ slot ∨ (stagedJob s clu id leg slot).isSome ∨
        !l.clusters.contains clu ∨ !jobRoom s clu none then s
    else
      let off := (hw e (8 + slot)).toNat - ownWindow
      let w := readNat s.mem (padKey clu off) 128
      let op := w % 256
      let x : Ctx := { Ctx.reset with asid := l.asid, partid := l.part, secure := l.secure, work := { Work.none with launch := id } }
      let j := { newJob (kindOf op) off (hw e (8 + slot)).toNat (BitVec.ofNat 1024 w) x none with
        staged := some (id, leg, slot), srkey := hw l.header 9, srep := (hw l.header 10).setWidth 32 }
      let zero := op = 1 ∧ (j.dim 0 = 0 ∨ j.dim 1 = 0)
      let j := j.resolve clu (legVtype e) (field (hw l.header 0) 9 3)
      if poolBase ≤ off then onClu s clu (fun k =>
        { k with jobs := k.jobs ++ [{ j with id := k.nextJob, state := 5, code := cAccess }], nextJob := k.nextJob + 1 })
      else goJobs (acceptJob s clu j (1 ≤ op ∧ op ≤ 3 ∧ !zero && cardZeros w)) clu

/-- STAGED_INPUT_ISSUE (R203). -/
def execStagedInputIssue (s : State) : Result := match s.signal with
  | .input die clu launch leg slot =>
    if 1 ≤ leg.toNat then .next (issueStaged s (cluKey die clu) launch.toNat leg.toNat slot.toNat) else .next s
  | _ => .next s

end Sys2Proof.Machine
end

