-- ==== Sys2Proof/Machine/Ciphertext.lean ====
section
/-! DEFINITION. Ciphertext and table registers (R221–R232), CARITH (R230, R231), refreshes and their steps (R233–R236) and
key passes (R237–R244). -/

namespace Sys2Proof.Machine

/-- The limit of noise charges, in VU (R225). -/
def noiseLimit : Nat := 1024

/-- The code of the first condition of R222 that a nonempty descriptor breaks: 6 for its fields, 7 for its place (R226). -/
def descFault (d : BitVec 256) : Option Nat :=
  let z (lo n : Nat) : Bool := bitField d.toNat lo n == 0
  if !(z 161 15 && z 144 16 && z 132 8 && z 108 20 && z 64 32) ∨ 3 < descPset d ∨ descP d = 0 ∨
      (paramSet (descPset d)).maxP < descP d ∨ descB d = 0 ∨ 2048 < descB d then some 6
  else if descBase d % 64 ≠ 0 ∨ descBase d < ownWindow ∨ ownWindow + poolBase < descBase d + descBytes d then some 7
  else none

/-- A descriptor from its fields (R221). -/
def descOf (base b pset p rfo key charge : Nat) : BitVec 256 :=
  BitVec.ofNat 256 (charge * 2 ^ 192 + key * 2 ^ 176 + rfo * 2 ^ 160 + p * 2 ^ 140 + pset * 2 ^ 128 + b * 2 ^ 96 + base)

/-- A key id is installed for a partition in the key streamer of a die (R226). -/
def keyInstalled (s : State) (die : Nat) (part : BitVec 16) (key : Nat) : Bool :=
  (find? (dieAt s die).keys (part.toNat * 65536 + key)).isSome

/-- The lowest of the codes whose conditions hold (R226). -/
def lowestCode : List (Nat × Bool) → Option Nat
  | [] => none
  | (k, b) :: r => match lowestCode r with
    | none => if b then some k else none
    | some j => some (if b && Nat.blt k j then k else j)

/-- Descriptors differ in a field. -/
def differ (f : BitVec 256 → Nat) : List (BitVec 256) → Bool
  | [] => false
  | d :: r => r.any (fun e => f e != f d)

/-- Codes 1 to 5 of R226 for the sources and the destination of an instruction. -/
def operandCodes (srcs : List (BitVec 256)) (dest : BitVec 256) : List (Nat × Bool) :=
  let all := dest :: srcs
  [(1, all.any (fun d => d == 0)), (2, differ descPset all), (3, differ descKey srcs), (4, differ descP srcs),
   (5, differ descB all)]

/-! Loading, storing and reading descriptors -/

/-- A descriptor that CLD has read: checked, then written (R228). -/
def finishCld (s : State) (c : Nat) (cd : BitVec 4) (bs : List Byte) : State :=
  let d := BitVec.ofNat 256 (bytesNat bs)
  let stop (code v : Nat) : State := takeFront s c code (BitVec.ofNat 64 v)
  let done := onCtx s c (fun x => (x.setC cd d).advance)
  if d = 0 then done
  else match descFault d with
    | some k => stop cParam k
    | none =>
      if !keyInstalled s (dieOf c) (ctxAt s c).partid (descKey d) then stop cParam 12
      else if noiseLimit < descCharge d then stop cNoise (descCharge d)
      else done

/-- CLD (R228). -/
def execCld (cd : BitVec 4) (a : XReg) (s : State) : Result :=
  let c := s.turn
  let va := (xOf s a).toNat
  match scalarLoad s c va 32 false (cd.setWidth 5) false with
  | .done s bs => .next (finishCld s c cd bs)
  | .fault s code => .next (stopAt s code va)
  | .wait s => .next s
  | .gone s => .next s

/-- CST (R228). -/
def execCst (cd : BitVec 4) (a : XReg) (s : State) : Result :=
  let c := s.turn
  let va := (xOf s a).toNat
  match scalarStore s c va (natBytes 32 ((ctxAt s c).c cd).toNat) with
  | .done s _ => .next (goOn s)
  | .fault s code => .next (stopAt s code va)
  | .wait s => .next s
  | .gone s => .next s

/-- The field that CINFO reads (R229). -/
def cinfoWord (d : BitVec 256) (sel : Nat) : Nat := match sel with
  | 0 => descBase d
  | 1 => descB d
  | 2 => descPset d
  | 3 => descP d
  | 4 => descCharge d
  | 5 => descKey d
  | 6 => descRfo d
  | _ => noiseLimit - descCharge d

/-- CINFO (R229). -/
def execCinfo (d : XReg) (c : BitVec 4) (sel : BitVec 3) (s : State) : Result :=
  .next (writeX s d (BitVec.ofNat 64 (cinfoWord ((ctxAt s s.turn).c c) sel.toNat)))

/-- The widths of a table and its entries (R232). -/
def tabPin (t : BitVec 576) : Nat := bitField t.toNat 512 8
def tabPout (t : BitVec 576) : Nat := bitField t.toNat 520 8
def tabEntry (t : BitVec 576) (j : Nat) : Nat := bitField t.toNat (8 * j) 8

/-- A table image is valid (R232). -/
def tableOk (t : BitVec 576) : Bool :=
  1 ≤ tabPin t && tabPin t ≤ 6 && 1 ≤ tabPout t && tabPout t ≤ 6 && bitField t.toNat 528 48 == 0 &&
  (span 0 64).all (fun j => if j < 2 ^ tabPin t then Nat.blt (tabEntry t j) (2 ^ tabPout t) else tabEntry t j == 0)

/-- A table image that TLD has read (R232). -/
def finishTld (s : State) (c : Nat) (t : BitVec 3) (bs : List Byte) : State :=
  let v := BitVec.ofNat 576 (bytesNat bs)
  if tableOk v then onCtx s c (fun x => (x.setT t v).advance) else takeFront s c cParam 8

/-- TLD: nine words of the scalar stream, or one request to the domain (R232). -/
def execTld (t : BitVec 3) (a : XReg) (s : State) : Result :=
  let c := s.turn
  let va := (xOf s a).toNat
  match worstOf s c (wordsAt va 9) with
  | some (v, e) => .next (stopAt (noteDenial s (frontAgent s c) e) e.code v)
  | none => match reach s c (frontAgent s c) .load va 72 8 true (frontQuiet (ctxAt s c)) with
    | .domain => .next (awaitDomain s c va 72 false (t.setWidth 5) false .load)
    | _ => match readWords s c va 9 with
      | .got s ws => .next (finishTld s c t (ws.flatMap (fun w => natBytes 8 w.toNat)))
      | .ended s => .next s
      | .held s => .next s

/-! CARITH -/

/-- A work item of the front's context handed to the sequencer (R227). -/
def handItem (s : State) (k : JobKind) (d a b : BitVec 256) : State :=
  let c := s.turn
  let clu := cluOf c
  let rng (e : BitVec 256) : List Range := rowsHull clu (descBase e) 1 0 (descBytes e)
  let id := (cluAt s clu).nextJob
  let srcs := match k with
    | .carith fn _ => if fn < 2 then [a, b] else if fn = 6 then [a, d] else [a]
    | _ => [a]
  let j := { newJob k 0 0 0 (ctxAt s c) (some c) with
    id := id, batchD := d, batchA := a, batchB := b, reads := srcs.flatMap rng, writes := rng d }
  goJobs (onClu s clu (fun x => { x with jobs := x.jobs ++ [j], nextJob := id + 1 })) clu

/-- CARITH at the front (R225, R226, R231). -/
def runCar (fn : Nat) (d a : BitVec 4) (b : Option (BitVec 4)) (imm : Int) (s : State) : State :=
  let c := s.turn
  let x := ctxAt s c
  let cd := x.c d
  let ca := x.c a
  let cb := match b with | some r => x.c r | none => ca
  let srcs := if fn < 2 then [ca, cb] else if fn = 6 then [cd, ca] else [ca]
  let w := (imm * imm).toNat
  let ch := if fn < 2 then descCharge ca + descCharge cb
    else if fn = 3 then descCharge ca * w
    else if fn = 6 then descCharge cd + descCharge ca * w
    else descCharge ca
  match lowestCode (operandCodes srcs cd) with
  | some k => stopAt s cParam k
  | none =>
    if noiseLimit < ch then stopAt s cNoise (min ch (2 ^ 64 - 1))
    else match performAll s c with
      | .ended s => s
      | .closed s =>
        let r := descOf (descBase cd) (descB ca) (descPset ca) (descP ca) 0 (descKey ca) ch
        goOn (handItem (onCtx s c (fun x => x.setC d r)) (.carith fn imm) r ca cb)

/-- CARITH add (R230). -/
def execCadd (d a b : BitVec 4) (s : State) : Result := .next (runCar 0 d a (some b) 0 s)
/-- CARITH sub (R230). -/
def execCsub (d a b : BitVec 4) (s : State) : Result := .next (runCar 1 d a (some b) 0 s)
/-- CARITH neg (R230). -/
def execCneg (d a : BitVec 4) (s : State) : Result := .next (runCar 2 d a none 0 s)
/-- CARITH muli (R230). -/
def execCmuli (d a : BitVec 4) (imm : BitVec 8) (s : State) : Result := .next (runCar 3 d a none imm.toInt s)
/-- CARITH addp (R230). -/
def execCaddp (d a : BitVec 4) (imm : BitVec 8) (s : State) : Result := .next (runCar 4 d a none imm.toInt s)
/-- CARITH mov (R230). -/
def execCmov (d a : BitVec 4) (s : State) : Result := .next (runCar 5 d a none 0 s)
/-- CARITH mac (R230). -/
def execCmac (d a : BitVec 4) (imm : BitVec 8) (s : State) : Result := .next (runCar 6 d a none imm.toInt s)

/-! Key passes: headers and records -/

/-- The offset of a pass header in the own scratchpad, else the fault of its address (R239). -/
def headerAt (s : State) (c va : Nat) : Except Nat Nat :=
  if va % 64 ≠ 0 then .error cAlign
  else match locate s (frontAgent s c) va with
    | .pad clu off => if clu = cluOf c ∧ off < poolBase then .ok off else .error cAccess
    | _ => .error cAccess

/-- The bits of a header as the context sees them (R175, R237). -/
def headerBits (s : State) (c va off : Nat) : Nat :=
  bytesNat (mergeBytes (ctxAt s c).lap.buf va (readBytes s.mem (padKey (cluOf c) off) 64))

/-- The key and the parameter set of a header. -/
def headKey (w : Nat) : Nat := bitField w 64 16
def headPset (w : Nat) : Nat := bitField w 80 4

/-- The first offset of the accumulators in a work area (R238). -/
def accBase (pset : Nat) : Nat := 16384 + (paramSet pset).slice

/-- A header that a pass may take: in state 0, with a work area that R238 allows (R237, R239). -/
def headerOk (w : Nat) : Bool :=
  let work := bitField w 128 64
  let wlen := bitField w 96 32
  bitField w 448 3 == 0 && bitField w 451 5 == 0 && bitField w 192 256 == 0 && bitField w 84 12 == 0 && bitField w 0 64 == 0 &&
  headPset w ≤ 3 && work % 4096 == 0 && ownWindow ≤ work && work + wlen ≤ ownWindow + poolBase && accBase (headPset w) ≤ wlen

/-- The ciphertexts of a member (R238). -/
def Member.count (m : Member) : Nat := (m.ents.map (fun e => descB e.out)).foldl (· + ·) 0

/-- A context's part in a member record: a job whose write set is the work area and the header (R238). -/
def memberJob (s : State) (id : Nat) (m : Member) : State :=
  let c := s.turn
  let clu := cluOf c
  let n := (cluAt s clu).nextJob
  let head := m.header - padKey clu 0 + ownWindow
  let j := { newJob (.member id) 0 0 0 (ctxAt s c) (some c) with
    id := n, writes := rowsHull clu m.work 1 0 m.wlen ++ rowsHull clu head 1 0 64 }
  onClu s clu (fun x => { x with jobs := x.jobs ++ [j], nextJob := n + 1 })

/-- The member that a header makes of its cluster (R237). -/
def memberOf (clu off w : Nat) : Member :=
  { clu := clu, header := padKey clu off, work := bitField w 128 64, wlen := bitField w 96 32, ents := [], accs := [],
    done := 0, cur := 0, state := 1 }

/-- The free pass record of lowest id (R240, R244). -/
def freePass (d : Die) : Option Nat := (span 0 64).find? (fun k => (find? d.passes k).isNone)

/-- The member of a cluster in a pass. -/
def Pass.memberIn (p : Pass) (clu : Nat) : Option Member := p.members.find? (fun m => m.clu == clu)

/-- A context's current pass (R240). -/
def withPass (s : State) (id : Nat) : State := onCtx s s.turn (fun x => { x with pass := some id })

/-- KPASS.open (R239, R240). -/
def execKpassOpen (d a : XReg) (s : State) : Result :=
  let c := s.turn
  let die := dieOf c
  let va := (xOf s a).toNat
  match headerAt s c va with
  | .error code => .next (stopAt s code va)
  | .ok off =>
    let w := headerBits s c va off
    let x := ctxAt s c
    if !headerOk w then .next (stopAt s cParam 9)
    else if !keyInstalled s die x.partid (headKey w) then .next (stopAt s cParam 12)
    else .next (afterBreak s (fun s => match freePass (dieAt s die) with
      | none => writeX s d (BitVec.allOnes 64)
      | some id =>
        let m := memberOf (cluOf c) off w
        let p : Pass :=
          { launch := x.work.launch, part := x.partid, key := BitVec.ofNat 16 (headKey w), pset := headPset w, state := 1,
            slice := 0, members := [m], joined := [c], ran := [], askers := [] }
        writeX (withPass (memberJob (setPass s die id p) id m) id) d (BitVec.ofNat 64 id)))

/-- The pass of its own launch that a KPASS names (R240). -/
def passNamed (s : State) (v : Word) : Option Pass :=
  match find? (dieAt s (dieOf s.turn)).passes v.toNat with
  | some p => if p.launch = (ctxAt s s.turn).work.launch then some p else none
  | none => none

/-- A context joins an open pass, on a member that its cluster has or that its header makes (R240). -/
def joinPass (s : State) (d : XReg) (id : Nat) (p : Pass) (new : Option Member) : State :=
  let c := s.turn
  let p := match new with
    | some m => { p with members := p.members ++ [m] }
    | none => p
  match p.memberIn (cluOf c) with
  | none => s
  | some m =>
    let s := setPass s (dieOf c) id { p with joined := if p.joined.contains c then p.joined else p.joined ++ [c] }
    let s := if p.joined.contains c then s else memberJob s id m
    writeX (withPass s id) d 0

/-- KPASS.join (R239, R240). -/
def execKpassJoin (d a b : XReg) (s : State) : Result :=
  let c := s.turn
  let id := (xOf s a).toNat
  let va := (xOf s b).toNat
  match (if b = 0 then .ok none else (headerAt s c va).map some) with
  | .error code => .next (stopAt s code va)
  | .ok off? => match passNamed s (xOf s a) with
    | none => .next (stopAt s cParam 9)
    | some p =>
      let w := match off? with | some off => headerBits s c va off | none => 0
      if (p.memberIn (cluOf c)).isSome = off?.isSome ∨
          (off?.isSome ∧ (!headerOk w ∨ headKey w ≠ p.key.toNat ∨ headPset w ≠ p.pset)) then .next (stopAt s cParam 9)
      else if off?.isSome ∧ !keyInstalled s (dieOf c) (ctxAt s c).partid (headKey w) then .next (stopAt s cParam 12)
      else .next (afterBreak s (fun s =>
        if p.state ≠ 1 then writeX s d 1 else joinPass s d id p (off?.map (fun off => memberOf (cluOf c) off w))))

/-- KPASS.run (R241). -/
def execKpassRun (d a b : XReg) (s : State) : Result :=
  let id := (xOf s a).toNat
  let ask := flagAt (xOf s b) 0
  match passNamed s (xOf s a) with
  | none => .next (stopAt s cParam 9)
  | some _ => .next (afterBreak s (fun s => match runPass s s.turn id ask with
    | (s, true) => writeX (onCtx s s.turn (fun x => { x with pass := none })) d 0
    | (s, false) => writeX s d 1))

/-- KPASS.abort (R242). -/
def execKpassAbort (d a : XReg) (s : State) : Result :=
  let id := (xOf s a).toNat
  match passNamed s (xOf s a) with
  | none => .next (stopAt s cParam 9)
  | some p => .next (afterBreak s (fun s =>
      if 3 ≤ p.state then writeX s d 1 else writeX (endPassZeroed s (dieOf s.turn) id 4) d 0))

/-- KPASS.status: an acquire of the pass's writes where it shows that the pass has ended (R218, R242). -/
def execKpassStatus (d a : XReg) (s : State) : Result :=
  let va := (xOf s a).toNat
  match headerAt s s.turn va with
  | .error code => .next (stopAt s code va)
  | .ok off => .next (afterBreak s (fun s =>
      let w := readWord s.mem (padKey (cluOf s.turn) off + 56)
      acquired (3 ≤ field w 0 3 && field w 0 3 ≤ 5) (writeX s d w)))

/-! CRFN -/

/-- A lane group of a cluster is retired (R226). -/
def groupsRetired (s : State) (clu : Nat) : Bool := (span (clu * 4) 4).any (fun k => (coreAt s k).groups != 8)

/-- Codes 9 and 10 of R226: the current pass takes no refresh of a batch from this context, or has no room for it. -/
def passCode (p : Option Pass) (launch c : Nat) (ca : BitVec 256) : Nat :=
  match p with
  | none => 9
  | some p => match p.memberIn (cluOf c) with
    | none => 9
    | some m =>
      if p.launch ≠ launch ∨ p.state ≠ 1 ∨ !p.joined.contains c ∨ p.ran.contains c ∨ p.key.toNat ≠ descKey ca ∨
          p.pset ≠ descPset ca then 9
      else if 128 < m.count + descB ca ∨
          m.wlen < accBase p.pset + (m.count + descB ca) * (paramSet p.pset).acc then 10
      else 0

/-- An entry appended to the member record of a cluster (R234, R238). -/
def appendEntry (s : State) (die id : Nat) (p : Pass) (e : PassEntry) : State :=
  let clu := cluOf s.turn
  let ms := p.members.map (fun m => if m.clu = clu then
      { m with ents := m.ents ++ [e], accs := m.accs ++ List.replicate (descB e.out) [] } else m)
  let s := setPass s die id { p with members := ms }
  { s with mem := showEntries s.mem (ms.filter (fun m => m.clu == clu)) }

/-- CRFN (R226, R234). -/
def execCrfn (d a : BitVec 4) (t : BitVec 3) (s : State) : Result :=
  let c := s.turn
  let die := dieOf c
  let x := ctxAt s c
  let ca := x.c a
  let cd := x.c d
  let tab := x.t t
  let p := match x.pass with | some id => find? (dieAt s die).passes id | none => none
  let k := passCode p x.work.launch c ca
  let codes := operandCodes [ca] cd ++
    [(4, tabPin tab != descP ca), (8, Nat.blt (paramSet (descPset ca)).maxP (tabPout tab)), (9, k == 9), (10, k == 10),
     (11, groupsRetired s (cluOf c)), (12, !keyInstalled s die x.partid (descKey ca))]
  match lowestCode codes with
  | some k => .next (stopAt s cParam k)
  | none => match performAll s c with
    | .ended s => .next s
    | .closed s => match x.pass, p with
      | some id, some p => match p.memberIn (cluOf c) with
        | none => .next s
        | some m =>
          let r := descOf (descBase cd) (descB ca) (descPset ca) (tabPout tab) 1 (descKey ca) 16
          let e : PassEntry :=
            { tab := tab, out := r, src := ca, ctx := c, accoff := accBase p.pset + m.count * (paramSet p.pset).acc, est := 0 }
          let s := appendEntry (onCtx s c (fun x => x.setC d r)) die id p e
          .next (goOn (handItem s (.crfn id m.ents.length) r ca ca))
      | _, _ => .next s

/-! The arithmetic of a refresh -/

/-- A polynomial by its coefficients modulo q, from the constant one on. -/
abbrev Poly := List Nat

/-- Sums and differences modulo q. -/
def addMod (a b : Nat) : Nat := (a + b) % qMod
def subMod (a b : Nat) : Nat := (a + (qMod - b % qMod)) % qMod
def polyAdd (a b : Poly) : Poly := (List.zip a b).map (fun e => addMod e.1 e.2)
def polySub (a b : Poly) : Poly := (List.zip a b).map (fun e => subMod e.1 e.2)

/-- X^e times a polynomial modulo X^N + 1, for e below 2N (R235). -/
def monomial (n e : Nat) (a : Poly) : Poly :=
  (span 0 n).map (fun k =>
    let j := (k + 2 * n - e % (2 * n)) % (2 * n)
    if j < n then a.getD j 0 % qMod else subMod 0 (a.getD (j - n) 0))

/-- The exact negacyclic product modulo (X^N + 1, q) of a polynomial and one with signed coefficients (R235). -/
def polyMul (n : Nat) (a : Poly) (b : List Int) : Poly :=
  (span 0 n).map (fun k =>
    let z := (span 0 n).foldl (fun (z : Int) i =>
      let v : Int := a.getD i 0
      if i ≤ k then z + v * b.getD (k - i) 0 else z - v * b.getD (k + n - i) 0) 0
    (z % (qMod : Int)).toNat)

/-- msw(x): the modulus switch to 2N (R235). -/
def msw (n x : Nat) : Nat := (4 * n * x + qMod) / (2 * qMod) % (2 * n)

/-- dig_l(x) for β and ℓ, level 0 being the most significant (R127, R235). -/
def digit (β levels l x : Nat) : Int :=
  digitAt β (levels - 1 - l) ((2 * x * 2 ^ (levels * β) + qMod) / (2 * qMod) % 2 ^ (levels * β))

/-- The test polynomial of a table (R233). -/
def testPoly (n : Nat) (t : BitVec 576) : Poly :=
  (span 0 n).map (fun j => delta (tabPout t) * tabEntry t (j * 2 ^ tabPin t / n) % qMod)

/-- A coefficient of an installed key: zero under PST (R223), else a free value (log 10). -/
def keyCoeff (p : Pass) (at_ : Nat) : Nat :=
  if p.pset = 3 then 0 else (Config.keyCoefficient p.part p.key at_).toNat % qMod

/-- Polynomial u of row r of BSK_i, and coefficient k of a row of the key-switching key, by their places. -/
def bskPoly (p : Pass) (ps : ParamSet) (i r u : Nat) : Poly :=
  (span 0 ps.big).map (fun k => keyCoeff p (((i * 2 * ps.bl + r) * 2 + u) * ps.big + k))
def kskCoeff (p : Pass) (ps : ParamSet) (row k : Nat) : Nat := keyCoeff p (2 ^ 48 + row * (ps.n + 1) + k)

/-- extprod of a pair of polynomials and BSK_i: polynomial u of the result (R235). -/
def extprod (p : Pass) (ps : ParamSet) (i u : Nat) (a b : Poly) : Poly :=
  (span 0 (2 * ps.bl)).foldl (fun acc r =>
    let src := if r < ps.bl then a else b
    polyAdd acc (polyMul ps.big (bskPoly p ps i r u) (src.map (digit ps.bβ ps.bl (r % ps.bl))))) (List.replicate ps.big 0)

/-- Step 0: the switched mask, and the accumulator (0, X^−(msw(b) + h) × v) (R235). -/
def stepZero (ps : ParamSet) (t : BitVec 576) (ct : List Nat) : List Nat :=
  let n := ps.big
  let e := (msw n (ct.getD ps.n 0) + n / 2 ^ (tabPin t + 1)) % (2 * n)
  (ct.take ps.n).map (msw n) ++ List.replicate n 0 ++ monomial n (2 * n - e) (testPoly n t)

/-- A blind-rotation step (R235). -/
def stepRotate (p : Pass) (ps : ParamSet) (i : Nat) (st : List Nat) : List Nat :=
  let n := ps.big
  let a := (st.drop ps.n).take n
  let b := st.drop (ps.n + n)
  let e := st.getD i 0
  let da := polySub (monomial n e a) a
  let db := polySub (monomial n e b) b
  st.take ps.n ++ polyAdd a (extprod p ps i 0 da db) ++ polyAdd b (extprod p ps i 1 da db)

/-- Sample extraction of coefficient 0: its mask, and the output (0, …, 0, b') (R235). -/
def stepExtract (ps : ParamSet) (st : List Nat) : List Nat :=
  let n := ps.big
  let a := (st.drop ps.n).take n
  (span 0 n).map (fun i => if i = 0 then a.getD 0 0 else subMod 0 (a.getD (n - i) 0)) ++ List.replicate ps.n 0 ++
    [st.getD (ps.n + n) 0]

/-- The number of key-switch blocks of 64 rows (R236). -/
def ParamSet.blocks (ps : ParamSet) : Nat := ps.big * ps.kl / 64

/-- The steps of a refresh (R236, R237). -/
def ParamSet.steps (ps : ParamSet) : Nat := ps.n + 2 + ps.blocks

/-- A key-switch block: 64 rows, weighted by the digits of the mask, taken from the output (R235). -/
def stepSwitch (p : Pass) (ps : ParamSet) (blk : Nat) (st : List Nat) : List Nat :=
  let mask := st.take ps.big
  let rows := (span (64 * blk) 64).map (fun r => (r, digit ps.kβ ps.kl (r % ps.kl) (mask.getD (r / ps.kl) 0)))
  mask ++ (List.zip (span 0 (ps.n + 1)) (st.drop ps.big)).map (fun e =>
    let z := rows.foldl (fun (z : Int) r => z - r.2 * kskCoeff p ps r.1 e.1) (e.2 : Int)
    (z % (qMod : Int)).toNat)

/-- One step of a refresh on what the steps before it have left (R235, R236). -/
def refreshOf (p : Pass) (ps : ParamSet) (t : BitVec 576) (k : Nat) (ct st : List Nat) : List Nat :=
  if k = 0 then stepZero ps t ct
  else if k ≤ ps.n then stepRotate p ps (k - 1) st
  else if k = ps.n + 1 then stepExtract ps st
  else stepSwitch p ps (k - ps.n - 2) st

/-! The events of a pass -/

/-- The entry that ciphertext j of a member belongs to, with its index and the place of j in its batch (R236). -/
def entryAt : Nat → Nat → List PassEntry → Option (Nat × PassEntry × Nat)
  | _, _, [] => none
  | i, j, e :: r => if j < descB e.out then some (i, e, j) else entryAt (i + 1) (j - descB e.out) r

/-- Ciphertext j of a batch (R222). -/
def ciphertext (s : State) (clu : Nat) (d : BitVec 256) (j : Nat) : List Nat :=
  (span 0 ((paramSet (descPset d)).n + 1)).map (fun i => readNat s.mem (descKeyAt clu d + 8 * (i * descB d + j)) 8 % qMod)

/-- Ciphertext j of a batch written (R222). -/
def putCiphertext (mem : Memory) (clu : Nat) (d : BitVec 256) (j : Nat) : Nat → List Nat → Memory
  | _, [] => mem
  | i, w :: r => putCiphertext (writeBytes mem (descKeyAt clu d + 8 * (i * descB d + j)) (natBytes 8 w)) clu d j (i + 1) r

/-- The pass runs: its launch is preempted on no member's cluster, and the part is not quiesced (R243, R371). -/
def passMoves (s : State) (die : Nat) (p : Pass) : Bool :=
  p.state == 2 && !s.pkg.quiesced && match find? (dieAt s die).launches p.launch with
    | some l => !p.members.any (fun m => l.preempted.contains m.clu)
    | none => true

/-- The world of a key pass: that of the launch whose contexts issued its refreshes (R166, R334). -/
def Pass.secure (d : Die) (p : Pass) : Bool := match find? d.launches p.launch with
  | some l => l.secure
  | none => false

/-- The edges of a refresh's work item are met (R200, R227). -/
def itemReady (s : State) (clu id entry : Nat) : Bool :=
  let js := (cluAt s clu).jobs
  match js.find? (fun j => j.kind == .crfn id entry) with
  | none => true
  | some j => !(js.takeWhile (fun e => e.id != j.id)).any (fun e => jobBefore e j)

/-- The work item of a refresh retires (R227). -/
def dropItem (s : State) (clu id entry : Nat) : State :=
  onClu s clu (fun x => { x with jobs := x.jobs.filter (fun j => j.kind != .crfn id entry) })

/-- A list with its n-th entry changed. -/
def setNth {α : Type} (n : Nat) (a : α) (l : List α) : List α := l.take n ++ a :: l.drop (n + 1)

/-- A pass with a member changed, which its header and its entries show. -/
def putMember (s : State) (die id : Nat) (p : Pass) (m : Member) : State :=
  let s := setPass s die id { p with members := p.members.map (fun k => if k.clu = m.clu then m else k) }
  { s with mem := showEntries s.mem [m] }

/-- A member whose current ciphertext has completed the step in progress. -/
def Member.stepDone (m : Member) (steps : Nat) : Member :=
  let wrap := m.cur + 1 = m.count
  { m with done := if wrap then m.done + 1 else m.done, cur := if wrap ∧ m.done + 1 ≠ steps then 0 else m.cur + 1 }

/-- An entry whose source cannot be read: its batch is zeroed, its est is 3, and the rest of the pass runs on; the lap that issued its
refresh is lost as it is for a job of its own (R151, R211; log 50). -/
def zeroEntry (s : State) (die id : Nat) (p : Pass) (m : Member) (i : Nat) (e : PassEntry) (f : EngineFault) : State :=
  let k := descKeyAt m.clu e.out
  let s := { s with mem := clearRange s.mem k (k + descBytes e.out) }
  let s := goJobs (dropItem (putMember s die id p { m with ents := setNth i { e with est := 3 } m.ents }) m.clu id i) m.clu
  let a : Agent := { unitAgent die 0 p.part (p.secure (dieAt s die)) with clu := m.clu, ctx := e.ctx % 4096, launch := p.launch }
  loseLap s a e.ctx p.launch f.1 f.2

/-- The step of a refresh that a member comes to next may be taken: its pass runs, its slice is there, and the edges of an item
that it begins are met (R200, R227, R236, R241). -/
def stepReady (s : State) (die id : Nat) (p : Pass) (m : Member) : Bool :=
  passMoves s die p && m.done ≤ p.slice && m.cur < m.count && m.done < (paramSet p.pset).steps &&
  match entryAt 0 m.cur m.ents with
  | some (i, _, j) => !(m.done == 0 && j == 0) || itemReady s m.clu id i
  | none => false

/-- One step of the refresh of one ciphertext (R235, R236, R238): the input is read at step 0, the output written at the last
key-switch block, and what the steps have come to stands in the work area between (log 50). An entry that is zeroed has no step
left to compute (R211). -/
def refreshStep (s : State) (die id : Nat) (p : Pass) (m : Member) : State :=
  let ps := paramSet p.pset
  match entryAt 0 m.cur m.ents with
  | none => s
  | some (i, e, j) =>
    if e.est = 3 then putMember s die id p (m.stepDone ps.steps)
    else match (if m.done = 0 then badBatch s m.clu e.src else none) with
    | some f => zeroEntry s die id p m i e f
    | none =>
      let st := refreshOf p ps e.tab m.done (ciphertext s m.clu e.src j) (m.accs.getD m.cur [])
      let last := m.done + 1 = ps.steps
      let mem := if last then putCiphertext s.mem m.clu e.out j 0 (st.drop ps.big)
        else writeBytes s.mem (m.at_ (e.accoff + j * ps.acc)) ((if m.done ≤ ps.n then st.drop ps.n else st).flatMap (natBytes 8))
      let ended := last && j + 1 == descB e.out
      let e := { e with est := if ended then 2 else 1 }
      let m := { m.stepDone ps.steps with ents := setNth i e m.ents, accs := setNth m.cur st m.accs }
      let s := putMember { s with mem := mem } die id p m
      if ended then goJobs (dropItem s m.clu id i) m.clu else s

/-- A step of a member's refreshes by its cluster's sequencer, in the world of their issuers, with the start that it has won on each
core: the cores' witness units check it, and a mismatch leaves it to be executed again (R164, R166, R171, R236). -/
def stepMember (s : State) (die clu id : Nat) (mismatch : Bool) : State :=
  match find? (dieAt s die).passes id with
  | none => s
  | some p => match p.memberIn clu with
    | none => s
    | some m =>
      let w := p.secure (dieAt s die)
      if stepReady s die id p m && sequencerMay s clu w then
        let s := checkSequencer (takeStarts s clu w) clu
        if mismatch then s else refreshStep s die id p m
      else s

/-- REFRESH_STEP (R171, R236). -/
def execRefreshStep (s : State) : Result := match s.signal with
  | .member die clu id => .next (stepMember s die.toNat (cluKey die clu) id.toNat false)
  | .memberMiss die clu id => .next (stepMember s die.toNat (cluKey die clu) id.toNat true)
  | _ => .next s

/-- The coefficients that the slice of a step carries: those of BSK_i by row, polynomial and place, a key-switch block by row and
place, and nothing for step 0 and step n + 1 (R223, R241; log 50). -/
def sliceWords (p : Pass) (ps : ParamSet) (k : Nat) : List Nat :=
  if k = 0 ∨ k = ps.n + 1 then []
  else if k ≤ ps.n then
    (span 0 (2 * ps.bl)).flatMap (fun r => (span 0 2).flatMap (fun u => bskPoly p ps (k - 1) r u))
  else (span (64 * (k - ps.n - 2)) 64).flatMap (fun row => (span 0 (ps.n + 1)).map (kskCoeff p ps row))

/-- A slice delivered into the slice buffer of every member (R238, R241). -/
def putSlice (mem : Memory) (ws : List Nat) : List Member → Memory
  | [] => mem
  | m :: r => putSlice (writeBytes mem (m.at_ 16384) (ws.flatMap (natBytes 8))) ws r

/-- A member has completed a number of steps for all of its ciphertexts (R241). -/
def Member.reached (m : Member) (n : Nat) : Bool := m.ents.isEmpty || n ≤ m.done

/-- SLICE_DELIVERY (R241): the next slice, once every member has completed the one before. -/
def execSliceDelivery (s : State) : Result := match s.signal with
  | .pass die id => match find? (dieAt s die.toNat).passes id.toNat with
    | none => .next s
    | some p =>
      if passMoves s die.toNat p ∧ p.slice + 1 < (paramSet p.pset).steps ∧ p.members.all (fun m => m.reached (p.slice + 1)) then
        let s := { s with mem := putSlice s.mem (sliceWords p (paramSet p.pset) (p.slice + 1)) p.members }
        .next (setPass s die.toNat id.toNat { p with slice := p.slice + 1 })
      else .next s
  | _ => .next s

/-- PASS_END (R240, R241): every ciphertext of the pass has finished, or an ended pass still owes batons. -/
def execPassEnd (s : State) : Result := match s.signal with
  | .pass die id => match find? (dieAt s die.toNat).passes id.toNat with
    | none => .next s
    | some p =>
      if 3 ≤ p.state then .next (settlePass s die.toNat id.toNat)
      else if p.state = 2 ∧ p.members.all (fun m => m.reached (paramSet p.pset).steps) then
        .next (closePass s die.toNat id.toNat 3 p)
      else .next s
  | _ => .next s

/-- PASS_FAULT (R243): an error in key material ends a running pass in state 5, and its launch is aborted. -/
def execPassFault (s : State) : Result := match s.signal with
  | .pass die id => match find? (dieAt s die.toNat).passes id.toNat with
    | none => .next s
    | some p =>
      if p.state = 2 then
        let s := record s die.toNat
          { kind := 0x0F, code := 0, rung := 4, part := p.part, ctx := die.toNat * 1024,
            info := id.toNat + p.key.toNat * 2 ^ 16, va := 0, pa := 0 }
        .next (abortByHardware (endPassZeroed s die.toNat id.toNat 5) die.toNat p.launch 7 0x06 0)
      else .next s
  | _ => .next s

end Sys2Proof.Machine
end

