-- ==== Sys2Proof/Machine/CoreEvents.lean ====
section
/-! DEFINITION. What the units of a core and the engines of a cluster do on their own: starts and retirements of the vector unit
(R163–R166), a switch of its world (R166), the witness check (R152–R154, R171), stream fills and drains (R167), the deadlock
probe (R169), and the start and end of engine jobs (R200, R211). -/

namespace Sys2Proof.Machine

/-! Starts -/

/-- The heads of a core that the access engine executes start where they are ready (R163). -/
def startAccess (s : State) : List Nat → State
  | [] => s
  | c :: r => match (ctxAt s c).vq with
    | e :: _ => startAccess (if accessEngine e.instr then (startHead s c).getD s else s) r
    | [] => startAccess s r

/-- A context's head is for the vector unit and may start (R164). -/
def readyHead (s : State) (c : Nat) : Bool := match (ctxAt s c).vq with
  | e :: _ => !accessEngine e.instr && (startHead s c).isSome
  | [] => false

/-- The deadline of a context's launch: its promised cycle; work without one follows every deadline (R164). -/
def deadlineOf (s : State) (c : Nat) : Nat := match launchOf s c with
  | some l => if isDeadline l.header then l.promise else 2 ^ 80
  | none => 2 ^ 80

/-- A context's head chains onto the instruction that was started in the previous cycle (R164, R165). -/
def chainsOn (s : State) (c : Nat) : Bool :=
  let x := ctxAt s c
  let k := coreAt s (coreOf c)
  c % 4 == k.lastIssuer && k.lastStart + 1 == cycleOf s c &&
    (match x.vq, (x.vx.filter (fun p => !accessEngine p.instr)).getLast? with
    | e :: _, some p => producesFor p e
    | _, _ => false)

/-- The order of R164 among candidates: deadline, chaining, then round robin after the issuer chosen last. -/
def issueRank (s : State) (c : Nat) : Nat × Nat :=
  (2 * deadlineOf s c + (if chainsOn s c then 0 else 1), (c % 4 + 4 - (coreAt s (coreOf c)).lastIssuer) % 5)

/-- The first of a list of contexts in the order of R164. -/
def firstIssuer (s : State) : List Nat → Option Nat
  | [] => none
  | c :: r => match firstIssuer s r with
    | none => some c
    | some k =>
      let a := issueRank s c
      let b := issueRank s k
      some (if a.1 < b.1 ∨ (a.1 = b.1 ∧ a.2 ≤ b.2) then c else k)

/-- The deadline of a launch, as of a context's (R164). -/
def launchDeadline (d : Die) (id : Nat) : Nat := match find? d.launches id with
  | some l => if isDeadline l.header then l.promise else 2 ^ 80
  | none => 2 ^ 80

/-- The deadlines of the work of a world that the sequencer of a cluster has ready: steps of refreshes, and items of CARITH that run
(R164, R227, R236). -/
def sequencerWork (s : State) (clu : Nat) (secure : Bool) : List Nat :=
  let die := dieOfClu clu
  let d := dieAt s die
  (d.passes.filter (fun e => match e.2.memberIn clu with
    | some m => e.2.secure d == secure && stepReady s die e.1 e.2 m
    | none => false)).map (fun e => launchDeadline d e.2.launch) ++
  ((cluAt s clu).jobs.filter (fun j => j.kind.engine == .sequencer && j.kind.starts && j.state == 2 && j.secure == secure)).map
    (fun j => launchDeadline d j.launch)

/-- The rank of the sequencer among the five issuers: the last in the round-robin order, with the earliest of its deadlines; none
while a start that it has won is still to be used (R164). -/
def sequencerRank (s : State) (core : Nat) : Option (Nat × Nat) :=
  let k := coreAt s core
  if k.seqWon then none else (sequencerWork s (core / 4) k.pipeSecure).min?.map (fun d => (2 * d + 1, (8 - k.lastIssuer) % 5))

/-- The vector unit starts one ready instruction of the world in its pipeline, unless a switch is due: a context's, or one of the
sequencer's, which REFRESH_STEP or JOB_END brings to its end once it has won a start on every core (R164, R166). -/
def startVector (s : State) (core : Nat) : State :=
  if 64 ≤ (coreAt s core).otherWaits then s
  else
    let own := onCore s core (fun k => { k with seqWon := true, lastIssuer := 4, lastStart := (dieAt s (dieOfClu (core / 4))).cycle })
    match firstIssuer s ((ctxsOfCore core).filter (readyHead s)), sequencerRank s core with
    | some c, some b =>
      let a := issueRank s c
      if a.1 < b.1 ∨ (a.1 = b.1 ∧ a.2 ≤ b.2) then (startHead s c).getD s else own
    | some c, none => (startHead s c).getD s
    | none, some _ => own
    | none, none => s

/-- The number of a core, ctxid / 4. -/
def coreNum (k : CoreId) : Nat := k.toNat

/-- VECTOR_START (R163, R164). -/
def execVectorStart (s : State) : Result := match s.signal with
  | .core k => .next (startVector (startAccess s (ctxsOfCore (coreNum k))) (coreNum k))
  | _ => .next s

/-- The state that an attempt to retire leaves. -/
def Retired.state : Retired → State
  | .moved s => s
  | .stuck s => s
  | .ended s => s

/-- VECTOR_RETIRE: the oldest instruction in execution of a context retires, where it can (R95, R163, R168). -/
def execVectorRetire (s : State) : Result := match s.signal with
  | .ctx c => .next (retireHead s c.toNat).state
  | _ => .next s

/-! The world in the pipeline -/

/-- A context of a core, or the sequencer of its cluster, has a ready instruction of a world, were that world in the pipeline
(R166). -/
def worldReady (s : State) (core : Nat) (secure : Bool) : Bool :=
  let s := onCore s core (fun k => { k with pipeSecure := secure })
  (ctxsOfCore core).any (fun c => (ctxAt s c).secure == secure && readyHead s c) || !(sequencerWork s (core / 4) secure).isEmpty

/-- The instructions in execution of a context retire as far as they can; eight at most are there (R163). -/
def finishRunning (s : State) (c : Nat) : Nat → State
  | 0 => s
  | n + 1 => if (ctxAt s c).vx.isEmpty then s else match retireHead s c with
    | .moved s => finishRunning s c n
    | .ended s => s
    | .stuck s => s

/-- What the pipeline of a context's world has not finished stops: from its first instruction of the vector unit on, the instructions
stand in the queue again, with the batons that they have popped (R166, R168). -/
def standBack (x : Ctx) : Ctx :=
  let x := x.unrun
  let keep := x.vx.takeWhile (fun e => accessEngine e.instr)
  let back := x.vx.drop keep.length
  { returnBatons x back with vx := keep, vq := back.map (fun e => { e with popped := false }) ++ x.vq }

/-- A switch of worlds: what is in the pipeline finishes or stops, and the other world enters it (R166). -/
def switchWorld (s : State) (core : Nat) : State :=
  let k := coreAt s core
  if worldReady s core (!k.pipeSecure) && (!worldReady s core k.pipeSecure || 64 ≤ k.otherWaits) then
    let s := ((ctxsOfCore core).filter (fun c => (ctxAt s c).secure == k.pipeSecure)).foldl
      (fun s c => onCtx (finishRunning s c 8) c standBack) s
    onCore s core (fun x => { x with pipeSecure := !k.pipeSecure, otherWaits := 0, seqWon := false })
  else s

/-- WORLD_SWITCH (R166). -/
def execWorldSwitch (s : State) : Result := match s.signal with
  | .core k => .next (switchWorld s (coreNum k))
  | _ => .next s

/-! The witness check -/

/-- A lane group of a core leaves service, with its record (R153, R344). -/
def retireGroup (s : State) (c g : Nat) : State :=
  let s := ctxRecord s c 0x0E 0 2 g 0 0
  onCore s (coreOf c) (fun k => { k with retiredGroups := k.retiredGroups ||| BitVec.ofNat 8 (2 ^ g) })

/-- A core without a lane group has left service: the laps on its other contexts stop at their next boundary, or at the
pointer pair when none comes within 1,200 cycles (R154). -/
def leaveCore (s : State) (core : Nat) : State :=
  (ctxsOfCore core).foldl (fun s c => if (ctxAt s c).occ = .running ∨ (ctxAt s c).occ = .halted then askStop s c (cycleOf s c + 1200) else s) s

/-- A mismatch in an instruction that reaches retirement, among the elements of a list (R150, R151, R153, R154): the lap is rewound or
killed; a second one of a lap in the same lane group retires the group, and a core without a group leaves service. -/
def mismatchAt (s : State) (c : Nat) (e : VEntry) (list : List Nat) : State :=
  let x := ctxAt s c
  let w := chooseElem (coreAt s (coreOf c)).witness list.length
  let s := onCore s (coreOf c) (fun k => { k with witness := w.1 })
  let elem := list.getD w.2 0
  let lane := (Config.laneOf elem (tagWidth e.td)).toNat
  let g := lane / 8
  if x.lap.missed.contains g ∧ 0 < x.lap.rewinds then
    let s := retireGroup s c g
    if (coreAt s (coreOf c)).groups = 0 then
      leaveCore (killLap s c cWitness e.addr.toNat 0) (coreOf c)
    else failLap s c cWitness false none lane elem e.addr.toNat 0
  else
    failLap (onLap s c (fun l => { l with missed := g :: l.missed })) c cWitness false none lane elem e.addr.toNat 0

/-- The run of VBFLY.H.f that retires before anything else of a context does: it ends before the next instruction in execution, or
before what the front stands at (R126). -/
def runEnds (x : Ctx) : Option Held := match x.held with
  | none => none
  | some h => match x.vx with
    | [] => if h.ends then some h else none
    | e :: _ => if entryOk x e && continuesRun h.d e.instr then none else some h

/-- The witness unit checks the instruction of a context that reaches retirement next, which retires when the recomputation agrees: a
run that ends, in an element of its last word, the oldest instruction in execution, or the one that passes it (R117, R152, R168,
R171). -/
def checkWitness (s : State) (c : Nat) (mismatch : Bool) : State :=
  let x := ctxAt s c
  if !x.unitsGo then s
  else match runEnds x with
  | some h =>
    if mismatch && !h.entry.positions.isEmpty then mismatchAt s c h.entry h.entry.positions else flushRun s c
  | none => match retiresNext s c with
    | none => s
    | some e =>
      if mismatch && !(witnessList x e).isEmpty then mismatchAt s c e (witnessList x e) else (retireHead s c).state

/-- WITNESS_CHECK (R152, R153, R171). -/
def execWitnessCheck (s : State) : Result := match s.signal with
  | .witness c mismatch => .next (checkWitness s c.toNat mismatch)
  | _ => .next s

/-! Streams -/

/-- What the oldest instruction that has not begun waits on: its baton, a load stream or a store stream (R167–R169). -/
def headWait (x : Ctx) : Option WaitOn := match x.vq with
  | [] => none
  | e :: _ =>
    if !batonReady x e.instr then (batonWait e.instr).map .batonEmpty
    else match (boundSources x e).find? (fun r => !sourceReady x r) with
      | some r => some (.loadEmpty (r - 48))
      | none => ((boundDests x e).find? (fun r => !appendRoom x x.toAppend r)).map (fun r => .storeFull (r - 48))

/-- What the oldest instruction in execution waits on: the queue that it would post to, or a load stream (R168, R169, R189). -/
def retireWait (x : Ctx) : Option WaitOn := match x.vx with
  | [] => none
  | e :: _ =>
    if !postRoom x e.instr then (batonPost e.instr).map .batonFull
    else ((boundSources x e).find? (fun r => !streamReady x r)).map (fun r => .loadEmpty (r - 48))

/-- The wait of a context at one of its three places. The front waits on a baton, or at a NEXT on a load stream; where the vector
queue is full, it waits through the oldest instruction in that queue (R163, R169). -/
def waitAt (x : Ctx) : Nat → Option WaitOn
  | 0 => (find? x.waits 0).map (fun w => w.on)
  | 1 => headWait x
  | _ => retireWait x

/-- STREAM_FILL: the access engine fills an entry of a load stream; a device-class one only where an instruction waits to pop it
(R167, R174, R189). The loads stall on the watermarks that the context binds (R306). -/
def execStreamFill (s : State) : Result := match s.signal with
  | .stream c k =>
    let x := ctxAt s c.toNat
    let asked := (span 0 3).any (fun p =>
      waitAt x p == some (.loadEmpty k.toNat) && !(p == 1 && x.vx.any (fun e => vectorAccess e.instr)))
    if x.occ = .running then .next (fillStream s c.toNat (48 + k.toNat) (x.marks.map (fun m => m.obj)) asked) else .next s
  | _ => .next s

/-- STREAM_DRAIN: the access engine performs the oldest entry of a store stream (R167, R189). -/
def execStreamDrain (s : State) : Result := match s.signal with
  | .stream c k =>
    if (ctxAt s c.toNat).occ = .running then .next (drainEntry s c.toNat (48 + k.toNat)).state else .next s
  | _ => .next s

/-! The deadlock probe -/

/-- Jobs of a context that have not ended. -/
def jobsOf (s : State) (c : Nat) : List Job :=
  (cluAt s (cluOf c)).jobs.filter (fun j => j.issuer == some c && j.state < 4)

/-- A card instruction that stands in the vector queue has a job that would post to b3, or pop b2 (R168). -/
def jobWords (give : Bool) : Instr → Bool
  | .tmma _ _ bw bp | .tcvt _ bw bp | .tcopy _ bw bp => if give then bp else bw
  | _ => false

/-- The place through which an instruction of the vector queue is waited for: in execution, or not begun; else the front that
has yet to issue it (R163, R169). -/
def placeOf (x : Ctx) (ok : Instr → Bool) : Nat :=
  if x.vx.any (fun e => ok e.instr) then 2 else if x.vq.any (fun e => ok e.instr) then 1 else 0

/-- A pass of the context's die owes the context a baton of b3 (R241). -/
def passOwes (s : State) (c : Nat) : Bool := (dieAt s (dieOf c)).passes.any (fun e => e.2.askers.contains c)

/-- An instruction in execution waits through the oldest one: that is itself, or one of its own unit, or one that it depends on
(R168, R169, R191). -/
def throughOldest (s : State) (c : Nat) (ok : Instr → Bool) : Bool := match (ctxAt s c).vx with
  | [] => false
  | h :: _ => match (ctxAt s c).vx.find? (fun e => ok e.instr) with
    | some e => accessEngine e.instr == accessEngine h.instr || (otherUnit s c).isNone
    | none => false

/-- The jobs of a list, oldest first, that wait on a baton that is not there, or behind one of the list that does (R168, R200). -/
def heldJobs (tokens : Nat) : List Job → List Job → List Job
  | held, [] => held
  | held, j :: r =>
    heldJobs tokens (if j.state == 1 && ((j.bw && tokens == 0) || held.any (fun e => jobBefore e j)) then held ++ [j] else held) r

/-- Every one of some jobs of a context waits, in the end, on b2, which its front posts; there is one (R168, R169). -/
def heldByFront (s : State) (c : Nat) (js : List Job) : Bool :=
  let held := heldJobs ((ctxAt s c).tokens 2) [] (jobsOf s c)
  !js.isEmpty && js.all (fun j => held.contains j)

/-- The jobs of a context for which the next access of a stream waits, its fill or its drain (R169, R200). -/
def streamJobs (s : State) (c r : Nat) : List Job := match find? (ctxAt s c).streams r with
  | none => []
  | some st =>
    let k := if st.store then (match st.entries with | en :: _ => en.first + en.from_ | [] => st.pos) else st.fill
    let lo := dieForm (cluOf c) (st.addr k)
    (jobsOf s c).filter (fun j => jobEdge j lo (lo + st.bytes - 1) st.store)

/-- The place to which the wait on a stream leads: its fill or its drain is itself blocked by jobs that wait on the front, or, for a
fill of device-class memory, by an access before it (R169, R174, R200). -/
def throughStream (s : State) (c k : Nat) : Option Nat :=
  if heldByFront s c (streamJobs s c (48 + k)) then some 0
  else if (ctxAt s c).vx.any (fun e => vectorAccess e.instr) && (find? (ctxAt s c).streams (48 + k)).any (fun st => !st.store) &&
      deviceStream s c (48 + k) then some 2
  else none

/-- The place to which a blocked wait leads; none at an instruction, a job, a pass or an engine that is not waiting on a baton
or a stream of the context (R168, R169, R241). -/
def leadsTo (s : State) (c : Nat) : WaitOn → Option Nat
  | .batonEmpty 3 =>
    let posters := (jobsOf s c).filter (fun j => j.bp)
    if passOwes s c || !(posters.isEmpty || heldByFront s c posters) then none
    else if posters.isEmpty then some (placeOf (ctxAt s c) (jobWords true))
    else some 0
  | .batonFull 2 =>
    if (jobsOf s c).any (fun j => j.bw && j.state == 1) then none else some (placeOf (ctxAt s c) (jobWords false))
  | .batonEmpty q =>
    let x := ctxAt s c
    let posts (i : Instr) : Bool := batonPost i == some q
    if placeOf x posts = 2 ∧ !throughOldest s c posts then none else some (placeOf x posts)
  | .batonFull q => some (if (ctxAt s c).vq.any (fun e => batonWait e.instr == some q) then 1 else 0)
  | .loadEmpty k | .storeFull k => throughStream s c k

/-- The place where a wait is met on the chain: the front passes to the oldest instruction of a full vector queue, and that one
to the instructions in execution where eight of them leave it no room (R163). -/
def throughQueue (x : Ctx) (p : Nat) : Nat :=
  let p := if p = 0 ∧ (find? x.waits 0).isNone ∧ 32 ≤ x.vq.length then 1 else p
  if p = 1 ∧ 8 ≤ x.vx.length then 2 else p

/-- The chain of blocked waits from a place back to the origin: the full queues on it, or none when it ends elsewhere
(R169). -/
def followChain (s : State) (c origin : Nat) : Nat → Nat → Option (List Nat)
  | 0, _ => none
  | n + 1, p => match waitAt (ctxAt s c) p with
    | none => none
    | some w =>
      let full := match w with
        | .batonFull q => [q]
        | _ => []
      match leadsTo s c w with
      | none => none
      | some q =>
        let q := throughQueue (ctxAt s c) q
        if q = origin then some full else (followChain s c origin n q).map (fun r => full ++ r)

/-- The first wait of a list that a test accepts. -/
def firstWait (ok : Wait → Bool) : SMap Wait → Option (Nat × Wait)
  | [] => none
  | (p, w) :: r => if ok w then some (p, w) else firstWait ok r

def setWait (s : State) (c p : Nat) (w : Wait) : State := onCtx s c (fun x => { x with waits := put x.waits p w })

/-- DEADLOCK_PROBE: a wait that has lasted 1,024 cycles sends its probe; one at most is in flight for a context (R169). -/
def execDeadlockProbe (s : State) : Result := match s.signal with
  | .ctx c =>
    let c := c.toNat
    let x := ctxAt s c
    if x.waits.any (fun e => e.2.inFlight) then .next s
    else match firstWait (fun w => w.since + 1024 ≤ cycleOf s c) x.waits with
      | some (p, w) => .next (setWait s c p { w with inFlight := true })
      | none => .next s
  | _ => .next s

/-- The tval of DEADLOCK (R139). -/
def waitVal : WaitOn → Nat
  | .batonEmpty q => q
  | .batonFull q => q
  | .loadEmpty k => 16 + k
  | .storeFull k => 16 + k

/-- A reserve entry in every full queue of a cycle of waits (R169). -/
def grantReserve (x : Ctx) (qs : List Nat) : Ctx :=
  { x with reserve := (x.reserve ++ qs.filter (fun q => 4 ≤ get 0 x.batons q)).eraseDups }

/-- A probe comes back to its wait, or is dropped (R169). -/
def probeBack (s : State) (c p : Nat) (w : Wait) : State :=
  let now := cycleOf s c
  if waitAt (ctxAt s c) p ≠ some w.on then onCtx s c (fun x => { x with waits := remove x.waits p })
  else match followChain s c p 4 p with
    | none => setWait s c p { w with since := now, returned := 0, inFlight := false }
    | some full =>
      if w.returned = 0 then
        goQueue (onCtx (setWait s c p { w with since := now, returned := 1, inFlight := false }) c
          (fun x => grantReserve x full)) c
      else onCtx s c (fun x =>
        { x with waits := remove x.waits p
                 pend := x.pend ++ [{ code := cDeadlock, val := BitVec.ofNat 64 (waitVal w.on), job := false, order := 0 }] })

/-- PROBE_RETURN: the first return grants the reserve entries, the second makes DEADLOCK pending (R139, R169). -/
def execProbeReturn (s : State) : Result := match s.signal with
  | .ctx c => match firstWait (fun w => w.inFlight) (ctxAt s c.toNat).waits with
    | some (p, w) => .next (probeBack s c.toNat p w)
    | none => .next s
  | _ => .next s

/-! Engine jobs -/

/-- JOB_START: the oldest job of an idle engine whose edges and baton allow it starts (R200, R211). -/
def execJobStart (s : State) : Result := match s.signal with
  | .engine die clu eng =>
    let k := cluKey die clu
    if engineBusy s k eng || (cluAt s k).power != .on then .next s
    else match nextJobOf s eng [] (cluAt s k).jobs with
      | some j => .next (beginJob s k j)
      | none => .next s
  | _ => .next s

/-- JOB_END: a running job ends, in state 4 or 5, or is executed again after a mismatch (R201, R211, R219). -/
def execJobEnd (s : State) : Result := match s.signal with
  | .job die clu id mismatch =>
    let k := cluKey die clu
    match (cluAt s k).jobs.find? (fun j => j.id == id && j.state == 2 && j.kind.starts) with
    | some j =>
      let s := closeJob s k j mismatch
      .next (acceptSaved s k (cluAt s k).jobs.length)
    | none => .next s
  | _ => .next s

end Sys2Proof.Machine
end

