-- ==== Sys2Proof/Machine/Upkeep.lean ====
section
/-! DEFINITION. The events of the memory ports (R339), of the scrub (R341), of re-encryption (R340), of the trace sinks (R352),
of cluster power (R353, R354), of the monitors (R357, R358), and the resets (R342, R348). -/

namespace Sys2Proof.Machine

/-! Memory -/

/-- A context's read at an address: its agent and place, when the address lies in the sector, or in a scratchpad, whose rows carry
their own check (R192; log 72), and the read may be performed. -/
def sectorReader (s : State) (c pa va : Nat) : Option (Agent × Place) :=
  let ok (a : Agent) : Option (Agent × Place) := match decide s a .load va with
    | .ok p => if p.pa.all (fun q => q / 64 == pa / 64) then some (a, p) else none
    | .error _ => none
  match ok (frontAgent s c) with
  | some r => some r
  | none => ok (vectorAgent s c)

/-- Who reads a sector of a tier that no context's access meets: a walk, another unit of a die, or a command of the host, for the
partition of its region (R336, R344, R347; log 72). -/
def portReader (s : State) (pa : Nat) : Option (Agent × Place) :=
  if inNear pa || inFar pa then
    let g := regionOf s.pkg pa
    some (unitAgent (ownerDie (pa / 2 ^ 30)) 0 (if g.secure then 0xFFFF else g.part) g.secure,
      { key := pa, pa := some pa, far := inFar pa, dev := false, nsp := false, raw := false })
  else none

/-- The reader of a sector, and the address that it names. -/
def whoReads (s : State) (c pa va : Nat) : Option (Agent × Nat × Place) := match sectorReader s c pa va with
  | some (a, p) => some (a, va, p)
  | none => (portReader s pa).map (fun r => (r.1, 0, r.2))

/-- A sector becomes poisoned, with the record of the read that found it; a raw read's record has no partition's queue (R339,
R343, R344). -/
def poisonSector (s : State) (a : Agent) (va : Nat) (p : Place) (f : SectorFinding) : State :=
  let s := onPkg s (fun k => { k with sectors := put k.sectors (sectorOf p.key) f })
  recordSector s (if p.raw then { a with part := 0 } else a) va p f

/-- What the memory port finds in a sector that is read (R339): a correction is counted, of a scratchpad row too (R347), a failure
poisons the sector; a raw read checks no tag, and a scratchpad has none. A scale's check that fails is met by those that read the
scale (R59). -/
def readSector (s : State) (c pa va : Nat) (f : SectorFinding) : State :=
  match whoReads s c pa va with
  | none => s
  | some (a, va, p) => match f with
    | .clean => s
    | .correctable => onDie s a.die (fun d => { d with hcorr := if d.hcorr = BitVec.allOnes 64 then d.hcorr else d.hcorr + 1 })
    | .uncorrectable => poisonSector s a va p f
    | .tagFails => if p.raw || p.pa.isNone then s else poisonSector s a va p f
    | .scale => onPkg s (fun k => { k with badScales := p.key :: k.badScales.filter (fun j => j != p.key) })

/-- SECTOR_READ (R339). -/
def execSectorRead (s : State) : Result := match s.signal with
  | .sector pa c va f => .next (readSector s c.toNat pa.toNat va.toNat f)
  | _ => .next s

/-- PAGE_REENCRYPTION_DONE (R340). -/
def execPageReencryptionDone (s : State) : Result := .next (finishPage s)

/-- The world of a cluster after its move: that of the entries of its sixteen fronts; entries that would mix worlds are discarded,
and each front stays as it was (R334, log 27). -/
def moveWorld (s : State) (clu : Nat) : State :=
  let cs := ctxsOfClu clu
  let world (c : Nat) : Nat := get 0 s.pkg.worlds c
  let w := world (clu * 16)
  if cs.all (fun c => world c == w) then
    cs.foldl (fun s c => if (ctxAt s c).secure = (w == 1) then s else onCtx s c (fun x => { x with secure := w == 1 })) s
  else onPkg s (fun p => { p with worlds := cs.foldl (fun m c => set 0 m c (ctxAt s c).secure.toNat) p.worlds })

/-- A cluster whose scrub is done: every byte of it is zero, and it belongs to its new partition (R341). The command is discarded where
a RESTORE has put a launch back on the cluster meanwhile (R291; log 88). -/
def finishScrub (s : State) (clu : Nat) : State :=
  let x := cluAt s clu
  match x.scrub with
  | none => s
  | some part =>
    if (dieAt s (dieOfClu clu)).cycle < x.since + 1200000 then s
    else if cluReserved s clu then onClu s clu (fun x => { x with scrub := none }) else
    let s := (ctxsOfClu clu).foldl (fun s c => freeCtx s c) s
    let s := { s with mem := clearRange s.mem (padKey clu 0) (padKey clu padSize) }
    let s := onPkg s (fun p =>
      { p with sectors := removeRange p.sectors (padKey clu 0) (padKey clu padSize)
               badScales := p.badScales.filter (fun k => k < padKey clu 0 || padKey clu padSize ≤ k) })
    let s := onClu s clu (fun x =>
      { x with
        part := part, scrub := none, fenced := false, hist := [], jobs := [], pools := []
        since := (dieAt s (dieOfClu clu)).cycle
        trace := { x.trace with records := [], hits := [], due := [] } })
    let s := moveWorld s clu
    onDie s (dieOfClu clu) (fun d => { d with hasctl := if field d.hasctl 16 6 = clu % 64 then 0 else d.hasctl })

/-- CLUSTER_SCRUB_DONE (R341). -/
def execClusterScrubDone (s : State) : Result := match s.signal with
  | .clu die clu => .next (finishScrub s (cluKey die clu))
  | _ => .next s

/-! Trace markers -/

/-- A die's marker of a period of 2^20 cycles leaves for every other die, each with its MARK record (R351, R352). -/
def sendMarkers (s : State) (die : Nat) : State :=
  let d := dieAt s die
  if d.marker = BitVec.ofNat 16 (d.cycle / 2 ^ 20) then s
  else
    let n := d.marker + 1
    let s := onDie s die (fun d => { d with marker := n })
    (allDies.filter (fun k => k != die)).foldl (fun s k => sinkRecord s die (markRecord d.cycle n.toNat k false)) s

/-- TRACE_MARKER_SEND (R352). -/
def execTraceMarkerSend (s : State) : Result := match s.signal with
  | .die d => .next (sendMarkers s d.toNat)
  | _ => .next s

/-- A die has sent a marker of a serial: serials count from 1, modulo 2^16 (R352). -/
def markerSent (d : Die) (serial : BitVec 16) : Bool :=
  2 ^ 36 ≤ d.cycle || (serial != 0 && Nat.ble serial.toNat d.marker.toNat)

/-- TRACE_MARKER_RECEIVE: the record bears the serial that was sent (R352). -/
def execTraceMarkerReceive (s : State) : Result := match s.signal with
  | .marker d other serial =>
    if d = other ∨ markerSent (dieAt s other.toNat) serial = false then .next s
    else .next (sinkRecord s d.toNat (markRecord (dieAt s d.toNat).cycle serial.toNat other.toNat true))
  | _ => .next s

/-! Power -/

/-- A cluster holds a lap, a job, a pool or a work item (R353). -/
def cluBusy (s : State) (clu : Nat) : Bool :=
  let x := cluAt s clu
  !x.jobs.isEmpty || !x.pools.isEmpty || !x.saved.isEmpty ||
    s.ctxs.any (fun e => Nat.blt e.1 4096 && e.1 / 16 == clu && e.2.occ != .free)

/-- A cluster in another power state from now on. -/
def setPower (s : State) (clu : Nat) (p : Power) : State :=
  onClu s clu (fun x => { x with power := p, since := (dieAt s (dieOfClu clu)).cycle })

/-- A cluster that has been in a power state for n cycles. -/
def stoodFor (s : State) (clu n : Nat) (p : Power) : Bool :=
  let x := cluAt s clu
  x.power == p && Nat.ble (x.since + n) (dieAt s (dieOfClu clu)).cycle

/-- CLOCK_GATE: after 64 idle cycles (R353). -/
def execClockGate (s : State) : Result := match s.signal with
  | .clu die clu =>
    let k := cluKey die clu
    let x := cluAt s k
    if x.power = .on ∧ !cluBusy s k ∧ x.idle + 64 ≤ (dieAt s die.toNat).cycle ∧ x.since + 64 ≤ (dieAt s die.toNat).cycle then
      .next (setPower s k .gated) else .next s
  | _ => .next s

/-- What the fronts and cores of a cluster hold is lost with their power: they read as at reset after the wake, but for their
world and for the lane groups that have left service (R153, R353; log 1). -/
def dropFronts (s : State) (clu : Nat) : State :=
  let s := (ctxsOfClu clu).foldl (fun s c =>
    if (find? s.ctxs c).isSome then onCtx s c (fun x => { Ctx.reset with secure := x.secure }) else s) s
  (span (clu * 4) 4).foldl (fun s k =>
    if (find? s.cores k).isSome then onCore s k (fun x => { Core.reset with retiredGroups := x.retiredGroups }) else s) s

/-- The trace buffer of a cluster before a power-down: gathered by the sink, and what the sink does not take is discarded and
counted for the LOST record (R354). -/
def emptyTrace (s : State) (clu : Nat) : State :=
  onClu (drainTrace s clu) clu (fun x =>
    { x with trace := { x.trace with
        records := [], lost := x.trace.lost + x.trace.records.length, discarded := x.trace.discarded + x.trace.records.length,
        lastSync := none } })

/-- ENTER_RETENTION: after 2^20 cycles clock-gated; the scratchpad and the histogram banks are kept, and nothing else, but for the
count of discarded records for the LOST record (R353, R354). A cluster that is held for its heat stays clock-gated (R358). -/
def execEnterRetention (s : State) : Result := match s.signal with
  | .clu die clu =>
    let k := cluKey die clu
    if stoodFor s k (2 ^ 20) .gated && !(cluAt s k).hot && !cluBusy s k then
      let s := onClu (emptyTrace s k) k (fun x => { x with witness := 1, trace := { Trace.reset with lost := x.trace.lost } })
      .next (setPower (dropFronts s k) k .retention)
    else .next s
  | _ => .next s

/-- ENTER_OFF: after 2^24 cycles in RETENTION, outside every live launch's cluster set; nothing is kept, and the scratchpad and
the banks read zero after the wake (R353). The count of discarded records stays for the LOST record (R354). -/
def execEnterOff (s : State) : Result := match s.signal with
  | .clu die clu =>
    let k := cluKey die clu
    if stoodFor s k (2 ^ 24) .retention && !cluReserved s k && !cluBusy s k then
      let s := emptyTrace s k
      let s := { s with mem := clearRange s.mem (padKey k 0) (padKey k padSize) }
      let s := onClu s k (fun x =>
        { x with hist := [], witness := 1, trace := { Trace.reset with lost := x.trace.lost } })
      .next (setPower (dropFronts s k) k .off)
    else .next s
  | _ => .next s

/-- CLUSTER_WAKE: a cluster that a live launch reserves or that holds work comes back to ON, unless it is held for its heat
(R353, R358). -/
def execClusterWake (s : State) : Result := match s.signal with
  | .clu die clu =>
    let k := cluKey die clu
    let x := cluAt s k
    if x.power = .on ∨ x.hot ∨ !(cluReserved s k || cluBusy s k) then .next s
    else .next (onClu (setPower s k .on) k (fun x => { x with idle := x.since }))
  | _ => .next s

/-! Monitors -/

/-- Readings put into a table, one after another. -/
def putReadings (m : SMap (BitVec 16)) (k : Nat) : List (BitVec 16) → SMap (BitVec 16)
  | [] => m
  | v :: r => putReadings (set 0 m k v) (k + 1) r

/-- A temperature in quarter degrees (R357). -/
def quarters (d : Die) (clu : Nat) : Int := (get (0 : BitVec 16) d.temps clu).toInt

/-- The launches of a die that have a lap or a job on a cluster (R358). -/
def launchesOn (s : State) (clu : Nat) : List Nat :=
  (keys ((launchesOf s clu).filter (fun e => e.2.stopped.isNone))).filter (fun id =>
    (cluAt s clu).jobs.any (fun j => j.launch == id) ||
    (cluAt s clu).saved.any (fun v => (ctxAt s v.num).work.launch == id) ||
    (ctxsOfClu clu).any (fun c => (ctxAt s c).occ != .free && (ctxAt s c).work.launch == id))

/-- A thermal stop of a launch, with its record (R344, R347, R358). -/
def thermalStop (s : State) (clu : Nat) (t : Int) (id : Nat) : State :=
  let die := dieOfClu clu
  match find? (launchesOf s clu) id with
  | none => s
  | some l =>
    if l.stopped.isSome then s
    else
      let r : ErrRec := { kind := 0x0C, code := 0, rung := 4, part := l.part, ctx := die * 1024
                          info := clu % 64 + wrap 16 t * 2 ^ 16, va := 0, pa := 0 }
      abortByHardware (record s die r) die id 6 0x0C 0

/-- A cluster at its new temperature: from 105.00 °C on its launches stop and it is held clock-gated until it falls below
90.00 °C (R358). -/
def heatCluster (s : State) (clu : Nat) : State :=
  let t := quarters (dieAt s (dieOfClu clu)) (clu % 64)
  if 420 ≤ t then
    let s := (launchesOn s clu).foldl (fun s id => thermalStop s clu t id) s
    let s := if (cluAt s clu).power = .on then setPower s clu .gated else s
    onClu s clu (fun x => { x with hot := true })
  else if (cluAt s clu).hot ∧ t < 360 then onClu s clu (fun x => { x with hot := false })
  else s

/-- A reading lies outside ±5 % of its nominal value (R358). -/
def voltsBad (nominal v : Nat) : Bool := Nat.blt (20 * v) (19 * nominal) || Nat.blt (21 * nominal) (20 * v)

/-- Since when each voltage monitor has been outside its range, with new readings from one on (R358). -/
def noteVolts (now : Nat) (out : SMap Nat) (k : Nat) : List (BitVec 16) → SMap Nat
  | [] => out
  | v :: r =>
    let out := if voltsBad (Config.nominalVolts k) v.toNat then (if (find? out k).isSome then out else put out k now) else remove out k
    noteVolts now out (k + 1) r

/-- New readings of a die's monitors and what follows from its temperatures: admission of deadline launches closes at 95.00 °C
and opens again below 90.00 °C (R357, R358). -/
def refreshMonitors (s : State) (die : Nat) (temps volts procs : List (BitVec 16)) : State :=
  let s := onDie s die (fun d =>
    { d with
      refreshed := some d.cycle, voltsOut := noteVolts d.cycle d.voltsOut 0 (volts.take 8)
      temps := putReadings d.temps 0 (temps.take 40), volts := putReadings d.volts 0 (volts.take 8)
      procs := putReadings d.procs 0 (procs.take 16) })
  let hot (k : Nat) : Bool := (380 : Int) ≤ quarters (dieAt s die) k
  let cool (k : Nat) : Bool := quarters (dieAt s die) k < 360
  let s := onDie s die (fun d =>
    { d with warm := if (span 0 40).any hot then true else if (span 0 40).all cool then false else d.warm })
  (clusOfDie die).foldl heatCluster s

/-- MONITOR_REFRESH, 1,024 cycles after the last one (R357, R358). -/
def execMonitorRefresh (s : State) : Result := match s.signal with
  | .monitors d temps volts procs =>
    .next (if (dieAt s d.toNat).refreshed.all (fun t => Nat.ble (t + 1024) (dieAt s d.toNat).cycle) then
      refreshMonitors s d.toNat temps volts procs else s)
  | _ => .next s

/-! Resets -/

/-- The launches of a die end with a status, their completion records written (R274, R348). -/
def endLaunches (s : State) (die status : Nat) : State :=
  (keys (dieAt s die).launches).foldl (fun s id =>
    let s := stopLaunch s die id status false
    match find? (dieAt s die).launches id with
    | some l => completeLaunch s die id l
    | none => s) s

/-- The partitions to which clusters of a die belong; the hypervisor and secure firmware are not fenced (R346). -/
def cluParts (s : State) (die : Nat) : List (BitVec 16) :=
  (((clusOfDie die).map (fun k => (cluAt s k).part)).filter (fun p => p != 0 && p != 0xFFFF)).eraseDups

/-- A die reset (R319, R348): its launches end with status 5, its tables are cleared, lane groups return, and the partitions with
clusters on it are fenced there. -/
def resetDie (s : State) (die cause : Nat) : State :=
  let s := record s die { kind := 0x08, code := 0, rung := 6, part := 0, ctx := die * 1024, info := cause, va := 0, pa := 0 }
  let s := endLaunches s die 5
  let s := onDie s die (fun d =>
    { d with
      aspaces := [], resident := [], views := [], records := [], passes := [], draining := [], covered := [], shoots := []
      shootAsks := [], requests := [], serial := 1 })
  let s := (span (die * 256) 160).foldl (fun s k =>
    if (find? s.cores k).isSome then onCore s k (fun x => { x with retiredGroups := 0, stb := [] }) else s) s
  (cluParts s die).foldl (fun s p =>
    fenceDie (record s die
      { kind := 0x07, code := 0, rung := 5, part := p, ctx := die * 1024, info := 0x08, va := 0, pa := 0 }) die p) s

/-- VOLTAGE_RESET: a monitor of a die has been out of its range for 1,024 cycles (R358). -/
def execVoltageReset (s : State) : Result := match s.signal with
  | .die d =>
    .next (if (dieAt s d.toNat).voltsOut.any (fun e => Nat.ble (e.2 + 1024) (dieAt s d.toNat).cycle) then resetDie s d.toNat 2 else s)
  | _ => .next s

/-- DIE_RESET, with a cause that R344 names (R347, R348). -/
def execDieReset (s : State) : Result := match s.signal with
  | .reset d cause => if cause = 1 ∨ cause = 2 then .next (resetDie s d.toNat cause.toNat) else .next s
  | _ => .next s

/-- A measurement extended by an image's digest (R342). -/
def extend (m digest : BitVec 512) : BitVec 512 := Config.shake256 [m, digest]

/-- The measurements that boot makes of the images it has verified, in order (R342). -/
def measure (k : Nat) : List (BitVec 512) → SMap (BitVec 512)
  | [] => []
  | d :: r => (k, extend 0 d) :: measure (k + 1) r

/-- The package after its reset and boot: the module as at reset, the images measured, and in recovery unless every signature
held (R342). The model's schedule goes on (log 3). -/
def resetPackage (s : State) (images : List (BitVec 512)) (ok : Bool) : State :=
  { State.reset with
    pkg := { Package.reset with meas := measure 0 (images.take 4), recovery := !(ok && images.length == 4) }
    turn := s.turn, turns := s.turns, agenda := s.agenda, signal := s.signal, defer := s.defer, steps := s.steps }

/-- PACKAGE_RESET (R342). -/
def execPackageReset (s : State) : Result := match s.signal with
  | .boot images ok => .next (resetPackage s images ok)
  | _ => .next s

end Sys2Proof.Machine
end

