-- ==== Sys2Proof/Machine/Fabric.lean ====
section
/-! DEFINITION. The load-store domain: the response to an access of this part and its timeout (R360, R363), an access that
arrives at this part (R362), and the packets that the ports drop (R359). -/

namespace Sys2Proof.Machine

/-! Responses -/

/-- A request of this part, taken from those that have left and wait for their responses; those that waited for it alone leave
(R360). -/
def takeRequest (s : State) (id : Nat) : Option (DomainReq × State) :=
  match s.pkg.domReqs.find? (fun r => r.id == id && !r.waits) with
  | none => none
  | some r => some (r, onPkg s (fun p =>
      { p with domReqs := leaveNext (cycleOf s r.ctx.toNat) [] (p.domReqs.filter (fun q => q.id != id)) }))

/-- A load of the front ends with its bytes: a descriptor, a table, or a word (R176, R228, R232). -/
def finishLoad (s : State) (c : Nat) (r : DomainReq) (bs : List Byte) : State :=
  let bs := mergeBytes (ctxAt s c).lap.buf r.va.toNat bs
  if r.size = 32 then finishCld s c (r.d.setWidth 4) bs
  else if r.size = 72 then finishTld s c (r.d.setWidth 3) bs
  else onCtx s c (fun x => (x.setX r.d (loadedWord r.size r.sext bs)).advance)

/-- An access of the front ends with its response (R141, R143, R362, R363): poisoned data fail the lap that would consume them, and a
store that has failed has no effect. One that acquires acquires then, so that its load streams are read again (R177, R281); a store
replaces what a buffer that no longer takes stores still holds for its bytes. -/
def finishFront (s : State) (c : Nat) (r : DomainReq) (acq : Bool) (result : DomainResult) : State :=
  let s := onCtx s c (fun x => { (if acq then x.discardLoads else x) with fwait := .none })
  match result, r.kind with
  | .vpage, _ => takeFront s c cVpage r.va
  | .access, _ => takeFront s c cAccess r.va
  | .done, .store bs => onCtx (onLap s c (fun l => { l with buf := supersede l.buf r.va.toNat (wholeBytes bs) })) c Ctx.advance
  | _, .store _ => onCtx s c Ctx.advance
  | .data bs, .load => finishLoad s c r bs
  | .data bs, _ => onCtx s c (fun x => (x.setX r.d (loadedWord r.size true bs)).advance)
  | _, _ => consumePoison s c 0 r.va.toNat (domainPlace r.va.toNat) .uncorrectable

/-- A store of a lap store buffer that its target has refused ends its lap, as one that a leaf refuses at the commit does (R143, R328;
log 20); a store of a dump that is refused is a double fault (R138). -/
def storeRefused (s : State) (c : Nat) (r : DomainReq) (code : Nat) : State := match r.stream with
  | .buffer => killLap s c code r.va.toNat 0
  | _ => doubleFault s c (stopLevel (ctxAt s c) false) r.va.toNat code

/-- The answer to a store that no instruction waits for. -/
def storeAnswered (s : State) (c : Nat) (r : DomainReq) : DomainResult → State
  | .vpage => storeRefused s c r cVpage
  | .access => storeRefused s c r cAccess
  | _ => s

/-- A part of a WRITE or a READ has its answer (R362, R367). -/
def hostAnswered (s : State) (id : Nat) (result : DomainResult) : State :=
  let fails : Bool := match result with
    | .data _ | .done => false
    | _ => true
  let bytes : List Byte := match result with
    | .data bs => bs
    | _ => []
  onPkg s (fun p => { p with hostAsks := p.hostAsks.map (fun h =>
    if h.parts.any (fun e => e.1 == some id) then
      { h with parts := h.parts.map (fun e => if e.1 = some id then (none, bytes) else e), failed := h.failed || fails }
    else h) })

/-- A response reaches the front, the access engine, the engine job or the command that waits for it; one for which nothing waits
leaves nothing behind. -/
def deliverDomain (s : State) (r : DomainReq) (result : DomainResult) : State :=
  let c := r.ctx.toNat
  if r.host then hostAnswered s r.id result
  else match r.job with
  | some (clu, id) =>
    wakeJobs (onJob s clu id (fun j =>
      if j.domWait = some r.id then { j with domWait := none, domGot := some (r.kind, result) } else j)) clu
  | none =>
    if !r.live then s
    else if r.stream = .buffer ∨ (r.stream = .dump ∧ kindWrites r.kind) then storeAnswered s c r result
    else if r.stream = .scalar then match (ctxAt s c).fwait with
      | .domain id _ acq _ => if id = r.id then finishFront s c r acq result else s
      | _ => s
    else if (find? (ctxAt s c).domWait r.stream.num).any (fun w => w.req == r.id) then
      goQueue (onCtx s c (fun x =>
        { x with domWait := remove x.domWait r.stream.num
                 domGot := put x.domGot r.stream.num { va := r.va.toNat, size := r.size, kind := r.kind, result := result } })) c
    else s

/-- DOMAIN_RESPONSE: an access that has had no response for 2^21 cycles has failed, and takes none (R360, R362, R363). -/
def execDomainResponse (s : State) : Result := match s.signal with
  | .domainResponse id result => match takeRequest s id with
    | some (r, t) => .next (if cycleOf s r.ctx.toNat < r.sent + 2 ^ 21 then deliverDomain t r result else s)
    | none => .next s
  | _ => .next s

/-- The record of an access without a response: its domain address goes to the physical log and to the partition's queue
(R363). -/
def recordTimeout (s : State) (r : DomainReq) : State :=
  record s (dieOf r.ctx.toNat)
    { kind := 0x02, code := cMemue, rung := 1, part := r.owner, ctx := r.ctx.toNat, info := 0, va := r.va.toNat, pa := r.va.toNat }

/-- DOMAIN_TIMEOUT: an access without a response for 2^21 cycles fails (R363). -/
def execDomainTimeout (s : State) : Result := match s.signal with
  | .domainRequest id => match takeRequest s id with
    | some (r, t) =>
      if cycleOf s r.ctx.toNat < r.sent + 2 ^ 21 then .next s
      else .next (deliverDomain (recordTimeout t r) r .poisoned)
    | none => .next s
  | _ => .next s

/-! Accesses that arrive -/

/-- The local partition that a domain partition id is bound to (R362). -/
def boundPart (p : Package) (dpid : BitVec 16) : Option Nat :=
  firstSome p.dpids (fun e => if e.2 = dpid ∧ dpid ≠ 0 then some e.1 else none)

/-- An export entry that R362 reads as valid: the form of R323, its world bit 0. -/
def exportOk (e : Word) : Bool := vectorEntryOk e && !leafSecure e

/-- The access that a domain access asks for (R324). -/
def kindAcc : DomainKind → Acc
  | .load => .load
  | .store _ | .merge _ => .store
  | _ => .atomic

/-- The value that a remote atomic leaves (R179, R185). -/
def kindApply (k : DomainKind) (n old : Nat) : Nat := match k with
  | .add v => amoAddOp n old (v.toNat % 2 ^ (8 * n))
  | .min v sg => amoMinOp n sg old (v.toNat % 2 ^ (8 * n))
  | .max v sg => amoMaxOp n sg old (v.toNat % 2 ^ (8 * n))
  | .cas want new => if old = want.toNat % 2 ^ (8 * n) then new.toNat % 2 ^ (8 * n) else old
  | _ => old

/-- An access performed at its place for its source (R339, R362); the address of its records is 0 (R344). -/
def performDomain (s : State) (a : Agent) (p : Place) (acc : DomainAccess) : State × DomainResult :=
  let s := afterPage s p
  match acc.kind with
  | .store bs => (storeAt s a 0 p bs, .done)
  | .merge ms => (storeMasked s a 0 p ms, .done)
  | k => match readFinding s p with
    | some .uncorrectable => (recordSector s a 0 p .uncorrectable, .poisoned)
    | some .tagFails => (recordSector s a 0 p .tagFails, .poisoned)
    | _ =>
      let bs := placeBytes s p acc.size
      if kindAcc k = .atomic then (storeAt s a 0 p (natBytes acc.size (kindApply k acc.size (bytesNat bs))), .data bs) else (s, .data bs)

/-- The world of a block: that of its selector entry (R333, R334). -/
def blockSecure (s : State) (block : Nat) : Bool := get 0 s.pkg.worlds (2 ^ 12 + block) == 1

/-- An access that arrives, judged and performed as an agent of the local partition of its dpid, in the world of its port (R334,
R362). -/
def arrive (s : State) (acc : DomainAccess) : State × DomainResult :=
  let e := get (0 : Word) s.pkg.targets (acc.dpid.toNat * 1024 + acc.offset.toNat / 2 ^ 30)
  match boundPart s.pkg acc.dpid with
  | none => (s, .vpage)
  | some part =>
    if !exportOk e then (s, .vpage)
    else
      let pa := leafFrame e + acc.offset.toNat % 2 ^ 30
      let die := ownerDie (pa / 2 ^ 30)
      let a := unitAgent die 0 (BitVec.ofNat 16 part) (blockSecure s (0x803 + acc.port.toNat))
      if !leafAllows e (kindAcc acc.kind) then (s, .access)
      else match regionDecision s.pkg a (kindAcc acc.kind) pa with
        | some false => (if (regionOf s.pkg pa).secure && !a.secure then logViolation s a pa else s, .access)
        | d =>
          if leafCov e && coverage s (pa / 2 ^ 30) (pa % 2 ^ 30 / 4096) == 0 then (s, .access)
          else performDomain s a { key := pa, pa := some pa, far := leafTier e, dev := leafDev e, nsp := leafNsp e, raw := d.isSome } acc

/-- DOMAIN_ACCESS_ARRIVAL: the access is performed and its response leaves for its source (R361, R362); in recovery the ports answer
none (R342). -/
def execDomainAccessArrival (s : State) : Result := match s.signal with
  | .domainAccess acc =>
    if s.pkg.recovery then .next s else
    let r := arrive s acc
    .next (onPkg r.1 (fun p => { p with answers := p.answers ++ [(acc.source, r.2)] }))
  | _ => .next s

/-- REFUSED_OPTION_PACKET: the port drops the packet and counts it (R359). -/
def execRefusedOptionPacket (s : State) : Result := match s.signal with
  | .port k => .next (onPkg s (fun p => { p with drops := set 0 p.drops k.toNat (get 0 p.drops k.toNat + 1) }))
  | _ => .next s

end Sys2Proof.Machine
end

