-- ==== Sys2Proof/Machine/Channels.lean ====
section
/-! DEFINITION. The remote host: command frames and their responses (R364–R366), the commands (R367), the management lock
(R369), attestation (R370), and quiesce, dump and restore (R371). -/

namespace Sys2Proof.Machine

/-! Frames and responses -/

/-- The statuses of R366. -/
def stOk : BitVec 8 := 0
def stReplay : BitVec 8 := 1
def stGap : BitVec 8 := 2
def stLockHeld : BitVec 8 := 3
def stNotHolder : BitVec 8 := 4
def stParam : BitVec 8 := 5
def stAccess : BitVec 8 := 6
def stRefused : BitVec 8 := 7

/-- An open channel by its id (R364). -/
def chanOf (p : Package) (id : BitVec 32) : Option Channel := p.channels.find? (fun k => k.id == id)

def onChan (s : State) (id : BitVec 32) (f : Channel → Channel) : State :=
  onPkg s (fun p => { p with channels := p.channels.map (fun k => if k.id = id then f k else k) })

/-- A response frame: its counter is 2^63 plus the number of responses before it, its payload begins with the sequence number
that it answers, and the channel is dead after the last counter (R364, R365). -/
def respond (s : State) (f : Frame) (op st : BitVec 8) (payload : List Byte) : State :=
  match chanOf s.pkg f.chan with
  | none => s
  | some k =>
    let r : Response :=
      { port := f.port, chan := f.chan, opcode := op, status := st, counter := 2 ^ 63 + k.sent
        payload := natBytes 8 f.seq.toNat ++ payload }
    onChan (onPkg s (fun p => { p with responses := p.responses ++ [r] })) f.chan
      (fun k => { k with sent := k.sent + 1, dead := k.dead || 2 ^ 63 + k.sent == 2 ^ 64 - 1 })

/-- The header of a response frame, sent in clear (R365). -/
def Response.header (r : Response) : BitVec 128 :=
  BitVec.ofNat 128 (r.payload.length % 2 ^ 16 * 2 ^ 112 + r.status.toNat * 2 ^ 104 + r.opcode.toNat * 2 ^ 96 + r.counter % 2 ^ 64 * 2 ^ 32 +
    r.chan.toNat)

/-- The frame that leaves for a response of a channel: header, encrypted payload and tag, under the IV of its counter (R364, R365). -/
def Response.frame (r : Response) (k : Channel) : List Byte :=
  let e := Config.gcm k.key (BitVec.ofNat 96 (r.chan.toNat * 2 ^ 64 + r.counter % 2 ^ 64)) r.header r.payload
  natBytes 16 r.header.toNat ++ e.1 ++ natBytes 16 e.2.toNat

/-- What a command comes to: the state, its status and its payload. -/
abbrev Answer := State × BitVec 8 × List Byte

/-- The holder of the management lock, unless its lease has expired (R369); I/O die 0 goes by the clock of die 0. -/
def lockHolder (s : State) : Option LockHold := match s.pkg.lock with
  | some h => if (dieAt s 0).cycle < h.until_ then some h else none
  | none => none

/-- A channel may issue a command that needs the lock: it is bound to partition 0 and holds the lock (R367). -/
def mayLocked (s : State) (k : Channel) : Bool := k.part == some 0 && (lockHolder s).any (fun h => h.chan == k.id)

/-- A command frame handled by the first row of R366 that applies; `locked` says that the command needs the lock (R367), and `late`
whether the response to one that is executed has to wait (R368). The answer to a command that is executed is kept, to be repeated. -/
def lateCommand (late : State → Bool) (f : Frame) (op : BitVec 8) (locked : Bool) (act : State → Channel → Answer) (s : State) : State :=
  match chanOf s.pkg f.chan with
  | none => onPkg s (fun p => { p with dropped := p.dropped + 1 })
  | some k =>
    if !f.tagOk ∨ k.dead then onPkg s (fun p => { p with dropped := p.dropped + 1 })
    else if f.seq.toNat < k.expect then
      let s := onPkg s (fun p => { p with cmdLog := p.cmdLog ++ [(f.chan, f.seq)] })
      respond s f op stReplay (if f.seq.toNat + 1 = k.expect then natBytes 1 k.lastSt.toNat ++ k.lastPay else [])
    else if k.expect < f.seq.toNat then
      onChan (respond s f op stGap (natBytes 8 k.expect)) f.chan (fun k => { k with dead := k.dead || f.seq.toNat == 2 ^ 63 - 1 })
    else
      let s := onChan s f.chan (fun k => { k with expect := k.expect + 1 })
      let a : Answer :=
        if !f.sound then (s, stParam, [])
        else if locked && !mayLocked s k then (s, stLockHeld, [])
        else act s k
      let s := onChan a.1 f.chan (fun k =>
        { k with lastOp := op, lastSt := a.2.1, lastPay := a.2.2, dead := k.dead || f.seq.toNat == 2 ^ 63 - 1 })
      if a.2.1 == stOk && late s then (if op = 0x18 then onPkg s (fun p => { p with awaited := p.awaited ++ [f] }) else s)
      else respond s f op a.2.1 a.2.2

/-- A command whose effects have performed by its response (R368). -/
def command (f : Frame) (op : BitVec 8) (locked : Bool) (act : State → Channel → Answer) (s : State) : State :=
  lateCommand (fun _ => false) f op locked act s

/-- A command does what its meaning says of the frame in the signal. -/
def ok (s : State) (payload : List Byte) : Answer := (s, stOk, payload)

/-! BIND, WRITE, READ -/

/-- BIND: the token has been checked against the partition's attested policy (R367). -/
def execBind (s : State) : Result := match s.signal with
  | .bindTo f part tokenOk => .next (command f 0x01 false (fun s _ =>
      if tokenOk then ok (onChan s f.chan (fun k => { k with part := some part })) [] else (s, stAccess, [])) s)
  | _ => .next s

/-- The command processor as an agent of a channel's partition on a die, in the world of its block; none where the partition holds
no address space (R333, R334, R367). -/
def hostAgent (s : State) (k : Channel) (die : Nat) : Option Agent := match k.part with
  | none => none
  | some part => (asidOf (dieAt s die) part).map (fun asid => unitAgent die asid part (blockSecure s 0x802))

/-- The own window belongs to no agent outside a cluster. -/
def inOwnWindow (va : Nat) : Bool := ownWindow ≤ va && va < ownWindow + padSize

/-- The place of an access of the command processor. -/
def hostPlace (s : State) (a : Agent) (acc : Acc) (va : Nat) : Except Denial Place :=
  if inOwnWindow va then .error { code := cAccess, logged := none } else decide s a acc va

/-- The pieces of a run of bytes that lie in one sector each. -/
def sectorsOf : List Byte → Nat → Nat → List (Nat × List Byte)
  | _, _, 0 => []
  | bs, va, fuel + 1 =>
    if bs.isEmpty then [] else
      let n := 64 - va % 64
      (va, bs.take n) :: sectorsOf (bs.drop n) (va + n) fuel

/-- The place of a piece, or the domain, which the access may leave for (R321, R361, R362). -/
def hostReach (s : State) (a : Agent) (acc : Acc) (va : Nat) : Except Denial (Option Place) :=
  if locate s a va = .domain ∧ domainOpen s a.part va then .ok none else (hostPlace s a acc va).map some

/-- The places of pieces; the first that cannot be accessed. -/
def hostPlaces (s : State) (a : Agent) (acc : Acc) : List (Nat × List Byte) → Except (Denial × Nat) (List (Option Place × Nat × List Byte))
  | [] => .ok []
  | (va, bs) :: r => match hostReach s a acc va with
    | .error d => .error (d, va)
    | .ok p => match hostPlaces s a acc r with
      | .error e => .error e
      | .ok ps => .ok ((p, va, bs) :: ps)

/-- A piece leaves for the domain (R361, R367). -/
def sendHost (s : State) (a : Agent) (va n : Nat) (kind : DomainKind) : State × Nat :=
  sendRequest s a.ctx a.part 0 va n false 0 kind none .scalar true

/-- Pieces stored one after another, with the parts of the command; whole sectors need no read (R338). -/
def storePieces (s : State) (a : Agent) : List (Option Place × Nat × List Byte) → State × List (Option Nat × List Byte)
  | [] => (s, [])
  | (some p, va, bs) :: r => storePieces (storeWhole (afterPage s p) a va p bs) a r
  | (none, va, bs) :: r =>
    let (s, id) := sendHost s a va bs.length (.store bs)
    let (s, more) := storePieces s a r
    (s, (some id, []) :: more)

/-- A command whose effects are to perform: its response waits for the parts that have left for the domain (R368). -/
def hostResult (s : State) (f : Frame) (op : BitVec 8) (parts : List (Option Nat × List Byte)) : Answer :=
  if parts.any (fun e => e.1.isSome) then
    ok (onPkg s (fun p => { p with hostAsks := p.hostAsks ++ [{ frame := f, op := op, parts := parts, failed := false }] })) []
  else ok s (parts.flatMap Prod.snd)

/-- A command has parts in the domain. -/
def hostWaits (f : Frame) (s : State) : Bool := s.pkg.hostAsks.any (fun h => h.frame == f)

/-- A WRITE or a READ of n bytes, for the agent of its die: a wrong length is judged before the channel's space (R367). -/
def moveBytes (s : State) (k : Channel) (die n : Nat) (act : Agent → Answer) : Answer :=
  if n = 0 ∨ 4000 < n then (s, stParam, [])
  else match hostAgent s k die with
    | none => (s, stAccess, [])
    | some a => act a

/-- WRITE: every byte is judged before any is stored (R367). -/
def execWrite (s : State) : Result := match s.signal with
  | .writeTo f die va data =>
    .next (lateCommand (hostWaits f) f 0x02 false (fun s k => moveBytes s k die.toNat data.length (fun a =>
      match hostPlaces s a .store (sectorsOf data va.toNat 64) with
      | .error (d, _) => (noteDenial s a d, stAccess, [])
      | .ok ps =>
        let (s, parts) := storePieces s a ps
        hostResult s f 0x02 parts)) s)
  | _ => .next s

/-- The parts of a READ, and the record of the first whose data are poisoned (R339). -/
def readPieces (s : State) (a : Agent) : List (Option Place × Nat × List Byte) → State × Option (List (Option Nat × List Byte))
  | [] => (s, some [])
  | (none, va, bs) :: r =>
    let (s, id) := sendHost s a va bs.length .load
    let (s, rest) := readPieces s a r
    (s, rest.map (fun more => (some id, []) :: more))
  | (some p, va, bs) :: r =>
    let s := afterPage s p
    match readFinding s p with
    | some .uncorrectable => (recordSector s a va p .uncorrectable, none)
    | some .tagFails => (recordSector s a va p .tagFails, none)
    | _ =>
      let (t, rest) := readPieces s a r
      (t, rest.map (fun more => (none, placeBytes s p bs.length) :: more))

/-- READ (R367). -/
def execRead (s : State) : Result := match s.signal with
  | .readFrom f die va len =>
    .next (lateCommand (hostWaits f) f 0x03 false (fun s k => moveBytes s k die.toNat len.toNat (fun a =>
      match hostPlaces s a .load (sectorsOf (List.replicate len.toNat 0) va.toNat 64) with
      | .error (d, _) => (noteDenial s a d, stAccess, [])
      | .ok ps => match readPieces s a ps with
        | (s, some parts) => hostResult s f 0x03 parts
        | (s, none) => (s, stAccess, []))) s)
  | _ => .next s

/-! LAUNCH and STATUS -/

/-- Words that the command processor reads; the address at which it cannot (R367). -/
def hostWords (s : State) (a : Agent) (va : Nat) : Nat → Except (State × Nat) (List Word)
  | 0 => .ok []
  | n + 1 => match hostPlace s a .load va with
    | .error d => .error (noteDenial s a d, va)
    | .ok p => match readFinding s p with
      | some .uncorrectable => .error (recordSector s a va p .uncorrectable, va)
      | some .tagFails => .error (recordSector s a va p .tagFails, va)
      | _ => match hostWords s a (va + 8) n with
        | .error e => .error e
        | .ok ws => .ok (BitVec.ofNat 64 (bytesNat (placeBytes s p 8)) :: ws)

/-- The entries of a leg table. -/
def hostLegs (s : State) (a : Agent) (va : Nat) : Nat → Except (State × Nat) (List (List Word))
  | 0 => .ok []
  | n + 1 => match hostWords s a va 16 with
    | .error e => .error e
    | .ok e => match hostLegs s a (va + 128) n with
      | .error e => .error e
      | .ok es => .ok (e :: es)

/-- The requests that stand before a command's at a die are decided first (R267). -/
def decideAll (s : State) (die : Nat) : Nat → State
  | 0 => s
  | n + 1 => if (dieAt s die).requests.isEmpty then s else decideAll (decideHead s die) die n

/-- A failed check, and an address that cannot be read or written (R367). -/
def paramAnswer (s : State) (code : Nat) : Answer := (s, stParam, natBytes 1 code)
def addressAnswer (s : State) (va : Nat) : Answer := (s, stAccess, natBytes 8 va)

/-- A header submitted by a command: the checks and reads of R266, and the answer of the die with the launch's id (R367). -/
def submitHost (s : State) (a : Agent) (die va : Nat) : Answer :=
  if va % 256 ≠ 0 then paramAnswer s 0
  else match hostWords s a va 32 with
  | .error (s, at_) => addressAnswer s at_
  | .ok h => match headerFault h (dieAt s die) die false with
    | some k => paramAnswer s k
    | none => match hostLegs s a (hw h 6).toNat (headerLegs h) with
      | .error (s, at_) => addressAnswer s at_
      | .ok legs => match legsFault legs with
        | some k => paramAnswer s k
        | none => match hostPlace s a .store (headerDone h) with
          | .error d => addressAnswer (noteDenial s a d) (headerDone h)
          | .ok _ =>
            let s := decideAll s die (dieAt s die).requests.length
            let r : AdmReq :=
              { at_ := (dieAt s die).cycle, ctx := die * 1024, header := h, legs := legs, indirect := false, part := a.part,
                asid := BitVec.ofNat 6 a.asid, secure := a.secure }
            let (s, v, id) := decideRequest s die r
            ok s (natBytes 8 v ++ natBytes 2 id)

/-- LAUNCH (R266, R367). -/
def execLaunchCommand (s : State) : Result := match s.signal with
  | .submit f die header => .next (command f 0x04 false (fun s k => match hostAgent s k die.toNat with
      | none => addressAnswer s header.toNat
      | some a => submitHost s a die.toNat header.toNat) s)
  | _ => .next s

/-- The completion record of a launch of a partition: the words written at acceptance while it lives, else the whole record
(R274). -/
def recordOf (d : Die) (part : BitVec 16) (id : Nat) : Option (List Nat) :=
  match find? d.launches id with
  | some l => if l.part = part then some ((recordWords id 1 0 l).take 3) else none
  | none => match find? d.ended id with
    | some (p, ws) => if p = part.toNat then some ws else none
    | none => none

/-- STATUS (R367). -/
def execStatus (s : State) : Result := match s.signal with
  | .statusOf f die id => .next (command f 0x05 false (fun s k => match k.part.bind (fun p => recordOf (dieAt s die.toNat) p id.toNat) with
      | some ws => ok s (ws.flatMap (natBytes 8) ++ List.replicate (128 - 8 * ws.length) 0)
      | none => (s, stAccess, [])) s)
  | _ => .next s

/-! The management lock -/

/-- The cycles of a millisecond (R2). -/
def msCycles : Nat := 600000

/-- LOCK: taken when it is free or its lease has expired, renewed by its holder, else reported (R369). -/
def execLock (s : State) : Result := match s.signal with
  | .lockFor f requester lease => .next (command f 0x08 false (fun s _ =>
      let now := (dieAt s 0).cycle
      if lease = 0 ∨ 60000 < lease.toNat then (s, stParam, [])
      else
        let taken := ok (onPkg s (fun p =>
          { p with lock := some { chan := f.chan, req := requester, until_ := now + lease.toNat * msCycles } })) (natBytes 2 lease.toNat)
        match lockHolder s with
        | none => taken
        | some h =>
          if h.chan = f.chan ∧ h.req = requester then taken
          else (s, stLockHeld, natBytes 4 h.chan.toNat ++ natBytes 2 h.req.toNat ++ natBytes 2 ((h.until_ - now) / msCycles))) s)
  | _ => .next s

/-- UNLOCK (R367, R369). -/
def execUnlock (s : State) : Result := match s.signal with
  | .unlockFor f requester => .next (command f 0x09 false (fun s _ =>
      if (lockHolder s).any (fun h => h.chan == f.chan && h.req == requester) then ok (onPkg s (fun p => { p with lock := none })) []
      else (s, stNotHolder, [])) s)
  | _ => .next s

/-- LOCK_LEASE_EXPIRY: an expired lease frees the lock without a response (R369). -/
def execLockLeaseExpiry (s : State) : Result :=
  .next (if s.pkg.lock.isSome && (lockHolder s).isNone then onPkg s (fun p => { p with lock := none }) else s)

/-! DOMAIN -/

/-- DOMAIN sub-op 0: a partition's dpid and route bitmap (R362, R367). -/
def execDomainSetRoute (s : State) : Result := match s.signal with
  | .route f part dpid route => .next (command { f with formed := f.formed && dpid != 0 } 0x10 true (fun s _ => ok (onPkg s (fun p =>
        { p with dpids := set 0 p.dpids part.toNat dpid, routes := set 0 p.routes part.toNat route })) []) s)
  | _ => .next s

/-- The dpids that have an export table (R362). -/
def exportTables (p : Package) : List Nat := (p.targets.map (fun e => e.1 / 1024)).eraseDups

/-- DOMAIN sub-op 1: an export entry of a dpid; at most 64 dpids have tables (R362, R367). -/
def execDomainSetExport (s : State) : Result := match s.signal with
  | .target f dpid index entry => .next (command { f with formed := f.formed && dpid != 0 && Nat.blt index.toNat 1024 } 0x10 true (fun s _ =>
      if !(exportTables s.pkg).contains dpid.toNat ∧ 64 ≤ (exportTables s.pkg).length ∧ entry ≠ 0 then (s, stRefused, [])
      else ok (onPkg s (fun p => { p with targets := set 0 p.targets (dpid.toNat * 1024 + index.toNat) entry })) []) s)
  | _ => .next s

/-! Quiesce, dump and restore -/

/-- A lap preempted for the quiesce: saved at once, or when its front has its answer from a die unit or the domain; one that the
debugger has halted halts again where it goes on (R276, R371). -/
def quiesceCtx (s : State) (c : Nat) : State :=
  let x := ctxAt s c
  if x.occ ≠ .running ∧ x.occ ≠ .halted then s
  else if frontFree x then
    let s := if x.occ = .halted then
        onCtx s c (fun x => { x with occ := .running, halting := some { code := 0x44, asker := none } }) else s
    notePreemptions (saveCtx s c false) (cluOf c)
  else onCtx s c (fun x => { x with stopReq := some (cycleOf s c) })

/-- The jobs of a cluster stop at their boundaries (R212, R371). -/
def quiesceJobs (s : State) (clu : Nat) : State :=
  (((cluAt s clu).jobs.map (fun j => j.launch)).eraseDups).foldl (fun s id => holdJobs s clu id) s

/-- Admission closes on every die, and every lap, job and pass of the part stops (R371); a pass stands while its launch is
preempted on a member's cluster (R243). -/
def quiesce (s : State) : State :=
  let s := onPkg s (fun p => { p with quiesced := true, stoppedAt := allDies.map (fun d => (d, (dieAt s d).cycle)) })
  let s := allDies.foldl (fun s d => decideAll s d (dieAt s d).requests.length) s
  let s := ((keys s.ctxs).filter (fun c => Nat.blt c 4096)).foldl quiesceCtx s
  allClus.foldl quiesceJobs s

/-- A lap or a job of the part has still to stop (R371). -/
def stillRuns (s : State) : Bool :=
  s.ctxs.any (fun e => Nat.blt e.1 4096 && (e.2.occ == .running || e.2.occ == .halted)) || s.clus.any (fun e => e.2.jobs.any (fun j => j.state == 2))

/-- QUIESCE: its response waits until all have stopped (R368, R371). -/
def execQuiesce (s : State) : Result := match s.signal with
  | .frame f => .next (lateCommand stillRuns f 0x18 true (fun s _ => ok (quiesce s) []) s)
  | _ => .next s

/-- The frame that a signal carries (R365). -/
def frameOf : Signal → Option Frame
  | .bindTo f _ _ | .writeTo f _ _ _ | .readFrom f _ _ _ | .submit f _ _ | .statusOf f _ _ | .lockFor f _ _ | .unlockFor f _
  | .route f _ _ _ | .target f _ _ _ | .frame f | .area f _ | .unlisted f _ => some f
  | _ => none

/-- A frame comes while a command of its channel still executes: the commands of one channel execute one at a time (R368). -/
def frameWaits (s : State) (sig : Signal) : Bool :=
  (frameOf sig).any (fun f =>
    s.pkg.awaited.any (fun g => g.chan == f.chan) || s.pkg.hostAsks.any (fun h => h.frame.chan == f.chan))

/-- A frame held back until the commands before it have their responses (R366, R368). -/
def holdFrame (s : State) (i : Instr) (sig : Signal) : State :=
  onPkg s (fun p => { p with heldBack := p.heldBack ++ [(i, sig)] })

/-- A command whose parts have all been answered: its response leaves, and the frames of its channel that were held back come
(R367, R368). -/
def answerHost (s : State) (h : HostAsk) : State :=
  if h.parts.any (fun e => e.1.isSome) then s
  else
    let st := if h.failed then stAccess else stOk
    let pay := if h.failed || h.op != 0x03 then [] else h.parts.flatMap Prod.snd
    let s := onChan (respond s h.frame h.op st pay) h.frame.chan (fun k => { k with lastSt := st, lastPay := pay })
    let mine (e : Instr × Signal) : Bool := (frameOf e.2).any (fun f => f.chan == h.frame.chan)
    onPkg { s with agenda := s.pkg.heldBack.filter mine ++ s.agenda } (fun p =>
      { p with hostAsks := p.hostAsks.filter (fun g => g != h), heldBack := p.heldBack.filter (fun e => !mine e) })

/-- The responses to the QUIESCE commands leave when all has stopped, and the frames held back come then (R368, R371). -/
def answerStopped (s : State) : State :=
  if s.pkg.awaited.isEmpty || (s.pkg.quiesced && stillRuns s) then s
  else
    let s := s.pkg.awaited.foldl (fun s f => respond s f 0x18 stOk []) s
    onPkg { s with agenda := s.pkg.heldBack ++ s.agenda } (fun p => { p with awaited := [], heldBack := [] })

/-- The responses that commands still owe leave as soon as their effects have performed (R368). -/
def answerQuiet (s : State) : State := answerStopped (s.pkg.hostAsks.foldl answerHost s)

/-- A figure of every cluster, and of every die, of those that are not empty. -/
def perClu {α : Type} (s : State) (f : Cluster → List α) : List (Nat × List α) :=
  (allClus.map (fun k => (k, f (cluAt s k)))).filter (fun e => !e.2.isEmpty)
def perDie {α : Type} (s : State) (f : Die → List α) : List (Nat × List α) :=
  (allDies.map (fun d => (d, f (dieAt s d)))).filter (fun e => !e.2.isEmpty)

/-- The part's saved state, for an area (R371; log 12). -/
def imageOf (s : State) (pa : Nat) : Image :=
  { pa := pa, saved := perClu s Cluster.saved, ctxs := s.ctxs.filter (fun e => Nat.ble 4096 e.1)
    cells := s.mem.filter (fun e => Nat.ble (2 ^ 56) e.1), pools := perClu s Cluster.pools, records := perDie s Die.records
    views := perDie s Die.views, launches := perDie s Die.launches, jobs := perClu s Cluster.jobs, passes := perDie s Die.passes
    covered := perDie s Die.covered
    cycles := if s.pkg.quiesced then s.pkg.stoppedAt else allDies.map (fun d => (d, (dieAt s d).cycle)) }

/-- An area of the far tier, 2 MiB aligned (R367). -/
def areaOk (pa : Nat) : Bool := inFar pa && pa % 2 ^ 21 == 0

/-- The bytes of the far tier that an image takes from its place on (R331, R371). -/
def imageBytes (s : State) (pa : Nat) : Nat := min (Config.imageLength s.steps) (0x1E000000000 - pa)

/-- DUMP: the image stands from the named place on; the response holds its length, which no rule states (R371; log 12). -/
def execDump (s : State) : Result := match s.signal with
  | .area f pa => .next (command { f with formed := f.formed && areaOk pa.toNat } 0x19 true (fun s _ =>
      ok (onPkg (writeArea s pa.toNat (imageBytes s pa.toNat) none) (fun p =>
        { p with images := imageOf s pa.toNat :: p.images.filter (fun i => i.pa != pa.toNat) })) (Config.answerBytes s.steps)) s)
  | _ => .next s

/-- What a list of an image holds for a cluster or a die. -/
def ofImage {α : Type} (l : List (Nat × List α)) (k : Nat) : List α := get [] l k

/-- A cluster as its image has it. -/
def restoreClu (i : Image) (s : State) (k : Nat) : State :=
  let js := ofImage i.jobs k
  let vs := ofImage i.saved k
  onClu s k (fun x =>
    { x with saved := vs, pools := ofImage i.pools k, jobs := js
             nextJob := js.foldl (fun n j => max n (j.id + 1)) x.nextJob
             nextSave := vs.foldl (fun n v => max n (v.num / 4096 + 1)) x.nextSave })

/-- A deadline launch of an image readmitted with D equal to its remaining time; a rejected one ends with status 7 (R371). -/
def readmit (die at_ : Nat) (s : State) (e : Nat × Launch) : State :=
  let l := e.2
  let rel := l.promise - at_
  let back (l : Launch) (s : State) : State := onDie s die (fun d => { d with launches := put d.launches e.1 l })
  if fits s die l.part (l.header.set 22 (BitVec.ofNat 64 rel)) rel then back { l with promise := (dieAt s die).cycle + rel } s
  else stopLaunch (back l s) die e.1 7 false

/-- A die as its image has it. -/
def restoreDie (i : Image) (s : State) (die : Nat) : State :=
  let ls := ofImage i.launches die
  let mine (e : Nat × Launch) : Bool := isDeadline e.2.header && e.2.stopped.isNone
  let vs := ofImage i.views die
  let s := onDie s die (fun d =>
    { d with
      records := ofImage i.records die, views := vs, passes := ofImage i.passes die, covered := ofImage i.covered die
      launches := ls.filter (fun e => !mine e)
      serial := vs.foldl (fun n v => max n (v.2.serial + 1)) d.serial })
  (servedOrder (ls.filter mine)).foldl (readmit die (get 0 i.cycles die)) s

/-- An image loaded; admission is open again (R371). -/
def restoreImage (s : State) (i : Image) : State :=
  let s := { s with
    mem := s.mem.filter (fun e => Nat.blt e.1 (2 ^ 56)) ++ i.cells
    ctxs := s.ctxs.filter (fun e => Nat.blt e.1 4096) ++ i.ctxs }
  let s := allClus.foldl (restoreClu i) s
  let s := onPkg s (fun p => { p with quiesced := false, stoppedAt := [] })
  let s := allDies.foldl (restoreDie i) s
  allClus.foldl goJobs s

/-- RESTORE (R367, R371). -/
def execRestore (s : State) : Result := match s.signal with
  | .area f pa => .next (command { f with formed := f.formed && areaOk pa.toNat } 0x1A true (fun s _ =>
      if !s.pkg.quiesced then (s, stRefused, [])
      else match s.pkg.images.find? (fun i => i.pa == pa.toNat) with
        | some i => ok (restoreImage s i) []
        | none => (s, stParam, [])) s)
  | _ => .next s

/-- The opcodes of R367. -/
def listedOpcode (op : BitVec 8) : Bool :=
  [0x01, 0x02, 0x03, 0x04, 0x05, 0x08, 0x09, 0x10, 0x18, 0x19, 0x1A].contains op.toNat

/-- UNLISTED_OPCODE: PARAM, and the command is consumed (R367). -/
def execUnlistedOpcode (s : State) : Result := match s.signal with
  | .unlisted f op =>
    if listedOpcode op then .next s else .next (command f op false (fun s _ => (s, stParam, [])) s)
  | _ => .next s

/-! Attestation -/

/-- The codes of SPDM's messages and errors (PRESUMED from SPDM 1.3, to which R370 refers: log 9). -/
def spdmVersion : BitVec 8 := 0x04
def spdmCapabilities : BitVec 8 := 0x61
def spdmAlgorithms : BitVec 8 := 0x63
def spdmDigests : BitVec 8 := 0x01
def spdmCertificate : BitVec 8 := 0x02
def spdmChallengeAuth : BitVec 8 := 0x03
def spdmMeasurements : BitVec 8 := 0x60
def spdmKeyExchangeRsp : BitVec 8 := 0x64
def spdmFinishRsp : BitVec 8 := 0x65
def spdmError : BitVec 8 := 0x7F
def errInvalid : Nat := 0x01
def errBusy : Nat := 0x03
def errUnsupported : Nat := 0x07

/-- An SPDM answer at a port. -/
def answer (s : State) (port : BitVec 3) (code : BitVec 8) (payload : List Byte) : State :=
  onPkg s (fun p => { p with responses := p.responses ++
    [{ port := port, chan := 0, opcode := code, status := 0, counter := 0, payload := payload }] })

/-- An answer whose contents the manual names and does not fix; in recovery there is none (R370). -/
def openAnswer (code : BitVec 8) (s : State) : Result := match s.signal with
  | .port k => .next (if s.pkg.recovery then s else answer s k code (Config.answerBytes s.steps))
  | _ => .next s

/-- GET_VERSION: one version, 1.3, also in recovery (R370; its places are those of SPDM 1.3). -/
def execSpdmGetVersion (s : State) : Result := match s.signal with
  | .port k => .next (answer s k spdmVersion [0, 1, 0x00, 0x13])
  | _ => .next s

/-- The flags of CERT, CHAL, MEAS with signatures, ENCRYPT, MAC and KEY_EX (R370; their places are those of SPDM 1.3). -/
def capabilityFlags : Nat := 0x2D6

/-- GET_CAPABILITIES (R370). -/
def execSpdmGetCapabilities (s : State) : Result := match s.signal with
  | .port k => .next (if s.pkg.recovery then s else answer s k spdmCapabilities (natBytes 4 capabilityFlags))
  | _ => .next s

/-- NEGOTIATE_ALGORITHMS: SLH-DSA-SHAKE-256s stands in the extended asymmetric algorithm fields (R370, log 9). -/
def execSpdmNegotiateAlgorithms (s : State) : Result := match s.signal with
  | .port k => .next (if s.pkg.recovery then s
      else answer s k spdmAlgorithms (Config.answerBytes s.steps ++ natBytes 4 Config.slhDsaShake256s.toNat))
  | _ => .next s
/-- GET_DIGESTS (R370). -/
def execSpdmGetDigests (s : State) : Result := openAnswer spdmDigests s
/-- GET_CERTIFICATE (R370). -/
def execSpdmGetCertificate (s : State) : Result := openAnswer spdmCertificate s
/-- CHALLENGE (R370). -/
def execSpdmChallenge (s : State) : Result := openAnswer spdmChallengeAuth s

/-- The measurements that an index names: 1 to 8, or all of them (R370). -/
def measured (p : Package) (index : Nat) : Option (List Byte) :=
  let m (k : Nat) : List Byte := natBytes 64 (get (0 : BitVec 512) p.meas k).toNat
  if 1 ≤ index ∧ index ≤ 8 then some (m (index - 1))
  else if index = 0xFF then some ((span 0 8).flatMap m)
  else none

/-- GET_MEASUREMENTS: the measurements, and what signs them (R342, R370). -/
def execSpdmGetMeasurements (s : State) : Result := match s.signal with
  | .measurement k index =>
    .next (if s.pkg.recovery then s else match measured s.pkg index.toNat with
      | some bs => answer s k spdmMeasurements (bs ++ Config.answerBytes s.steps)
      | none => answer s k spdmError (natBytes 1 errInvalid))
  | _ => .next s

/-- KEY_EXCHANGE: a session more, or Busy beyond sixteen (R370). -/
def execSpdmKeyExchange (s : State) : Result := match s.signal with
  | .port k =>
    .next (if s.pkg.recovery then s
      else if 16 ≤ s.pkg.sessions.length then answer s k spdmError (natBytes 1 errBusy)
      else
        let id := Config.sessionId s.pkg.nextSess
        answer (onPkg s (fun p => { p with sessions := p.sessions ++ [id], nextSess := p.nextSess + 1 })) k spdmKeyExchangeRsp
          (natBytes 4 id.toNat ++ Config.answerBytes s.steps))
  | _ => .next s

/-- FINISH: the session's channel opens, with the session's id (R364). -/
def execSpdmFinish (s : State) : Result := match s.signal with
  | .session k id =>
    .next (if s.pkg.recovery then s
      else if s.pkg.sessions.contains id && (chanOf s.pkg id).isNone && Nat.blt s.pkg.channels.length 16 then
        let n : Channel :=
          { id := id, key := Config.channelKey id, expect := 0, sent := 0, part := none, dead := false, lastOp := 0, lastSt := 0, lastPay := [] }
        answer (onPkg s (fun p => { p with channels := p.channels ++ [n] })) k spdmFinishRsp (Config.answerBytes s.steps)
      else answer s k spdmError (natBytes 1 errInvalid))
  | _ => .next s

/-- UNSUPPORTED_REQUEST (R370). -/
def execUnsupportedRequest (s : State) : Result := match s.signal with
  | .port k => .next (if s.pkg.recovery then s else answer s k spdmError (natBytes 1 errUnsupported))
  | _ => .next s

/-- RECOVERY_FRAME: in recovery the mask ROM verifies a signed configuration record and firmware, and boots from them (R342, R370); a
measurement starts again only as the package does. -/
def execRecoveryFrame (s : State) : Result := match s.signal with
  | .recovery _ images good =>
    .next (if s.pkg.recovery && good && images.length == 4 then
      resetPackage s images good else s)
  | _ => .next s

end Sys2Proof.Machine
end

