-- ==== Sys2Proof/Machine/Vector.lean ====
section
/-! DEFINITION. The instructions that pass through the vector queue (R94–R134, R182–R190, R211, R218): the front issues each of
them (R26, R163), and what it does stands in Queue.lean with its row of retireEffect. -/

namespace Sys2Proof.Machine

/-- VADD (R99). -/
def execVadd (d a b : VNum) (rm : BitVec 3) (mk : Bool) (s : State) : Result :=
  issue (.vadd d a b rm mk) s

/-- VADD_SUB (R99). -/
def execVaddSub (d a b : VNum) (rm : BitVec 3) (mk : Bool) (s : State) : Result :=
  issue (.vaddSub d a b rm mk) s

/-- VADD_RSUB (R99). -/
def execVaddRsub (d a b : VNum) (rm : BitVec 3) (mk : Bool) (s : State) : Result :=
  issue (.vaddRsub d a b rm mk) s

/-- VADD_ADDS (R99). -/
def execVaddAdds (d a b : VNum) (rm : BitVec 3) (mk : Bool) (s : State) : Result :=
  issue (.vaddAdds d a b rm mk) s

/-- VADD_SUBS (R99). -/
def execVaddSubs (d a b : VNum) (rm : BitVec 3) (mk : Bool) (s : State) : Result :=
  issue (.vaddSubs d a b rm mk) s

/-- VADD_ABSD (R99). -/
def execVaddAbsd (d a b : VNum) (rm : BitVec 3) (mk : Bool) (s : State) : Result :=
  issue (.vaddAbsd d a b rm mk) s

/-- VMUL (R100). -/
def execVmul (d a b : VNum) (rm : BitVec 3) (mk : Bool) (s : State) : Result :=
  issue (.vmul d a b rm mk) s

/-- VMUL_MULH (R100). -/
def execVmulMulh (d a b : VNum) (rm : BitVec 3) (mk : Bool) (s : State) : Result :=
  issue (.vmulMulh d a b rm mk) s

/-- VMUL_MULHN (R100). -/
def execVmulMulhn (d a b : VNum) (rm : BitVec 3) (mk : Bool) (s : State) : Result :=
  issue (.vmulMulhn d a b rm mk) s

/-- VMUL_DIV (R100). -/
def execVmulDiv (d a b : VNum) (rm : BitVec 3) (mk : Bool) (s : State) : Result :=
  issue (.vmulDiv d a b rm mk) s

/-- VMUL_REM (R100). -/
def execVmulRem (d a b : VNum) (rm : BitVec 3) (mk : Bool) (s : State) : Result :=
  issue (.vmulRem d a b rm mk) s

/-- VFMA (R101). -/
def execVfma (d a b : VNum) (rm : BitVec 3) (mk : Bool) (s : State) : Result :=
  issue (.vfma d a b rm mk) s

/-- VFMA_FMS (R101). -/
def execVfmaFms (d a b : VNum) (rm : BitVec 3) (mk : Bool) (s : State) : Result :=
  issue (.vfmaFms d a b rm mk) s

/-- VFMA_FNMA (R101). -/
def execVfmaFnma (d a b : VNum) (rm : BitVec 3) (mk : Bool) (s : State) : Result :=
  issue (.vfmaFnma d a b rm mk) s

/-- VFMA_FNMS (R101). -/
def execVfmaFnms (d a b : VNum) (rm : BitVec 3) (mk : Bool) (s : State) : Result :=
  issue (.vfmaFnms d a b rm mk) s

/-- VMINMAX_MIN (R102). -/
def execVminmaxMin (d a b : VNum) (rm : BitVec 3) (mk : Bool) (s : State) : Result :=
  issue (.vminmaxMin d a b rm mk) s

/-- VMINMAX_MAX (R102). -/
def execVminmaxMax (d a b : VNum) (rm : BitVec 3) (mk : Bool) (s : State) : Result :=
  issue (.vminmaxMax d a b rm mk) s

/-- VMINMAX_MINNUM (R102). -/
def execVminmaxMinnum (d a b : VNum) (rm : BitVec 3) (mk : Bool) (s : State) : Result :=
  issue (.vminmaxMinnum d a b rm mk) s

/-- VMINMAX_MAXNUM (R102). -/
def execVminmaxMaxnum (d a b : VNum) (rm : BitVec 3) (mk : Bool) (s : State) : Result :=
  issue (.vminmaxMaxnum d a b rm mk) s

/-- VLOGIC_AND (R103). -/
def execVlogicAnd (d a b : VNum) (rm : BitVec 3) (mk : Bool) (s : State) : Result :=
  issue (.vlogicAnd d a b rm mk) s

/-- VLOGIC_OR (R103). -/
def execVlogicOr (d a b : VNum) (rm : BitVec 3) (mk : Bool) (s : State) : Result :=
  issue (.vlogicOr d a b rm mk) s

/-- VLOGIC_XOR (R103). -/
def execVlogicXor (d a b : VNum) (rm : BitVec 3) (mk : Bool) (s : State) : Result :=
  issue (.vlogicXor d a b rm mk) s

/-- VLOGIC_ANDN (R103). -/
def execVlogicAndn (d a b : VNum) (rm : BitVec 3) (mk : Bool) (s : State) : Result :=
  issue (.vlogicAndn d a b rm mk) s

/-- VLOGIC_SLL (R103). -/
def execVlogicSll (d a b : VNum) (rm : BitVec 3) (mk : Bool) (s : State) : Result :=
  issue (.vlogicSll d a b rm mk) s

/-- VLOGIC_SRL (R103). -/
def execVlogicSrl (d a b : VNum) (rm : BitVec 3) (mk : Bool) (s : State) : Result :=
  issue (.vlogicSrl d a b rm mk) s

/-- VLOGIC_SRA (R103). -/
def execVlogicSra (d a b : VNum) (rm : BitVec 3) (mk : Bool) (s : State) : Result :=
  issue (.vlogicSra d a b rm mk) s

/-- VCMP_EQ (R104). -/
def execVcmpEq (d : MNum) (a b : VNum) (rm : BitVec 3) (mk : Bool) (s : State) : Result :=
  issue (.vcmpEq d a b rm mk) s

/-- VCMP_NE (R104). -/
def execVcmpNe (d : MNum) (a b : VNum) (rm : BitVec 3) (mk : Bool) (s : State) : Result :=
  issue (.vcmpNe d a b rm mk) s

/-- VCMP_LT (R104). -/
def execVcmpLt (d : MNum) (a b : VNum) (rm : BitVec 3) (mk : Bool) (s : State) : Result :=
  issue (.vcmpLt d a b rm mk) s

/-- VCMP_LE (R104). -/
def execVcmpLe (d : MNum) (a b : VNum) (rm : BitVec 3) (mk : Bool) (s : State) : Result :=
  issue (.vcmpLe d a b rm mk) s

/-- VCMP_GT (R104). -/
def execVcmpGt (d : MNum) (a b : VNum) (rm : BitVec 3) (mk : Bool) (s : State) : Result :=
  issue (.vcmpGt d a b rm mk) s

/-- VCMP_GE (R104). -/
def execVcmpGe (d : MNum) (a b : VNum) (rm : BitVec 3) (mk : Bool) (s : State) : Result :=
  issue (.vcmpGe d a b rm mk) s

/-- VCMP_UNORD (R104). -/
def execVcmpUnord (d : MNum) (a b : VNum) (rm : BitVec 3) (mk : Bool) (s : State) : Result :=
  issue (.vcmpUnord d a b rm mk) s

/-- VSEL (R105). -/
def execVsel (d a b : VNum) (rm : BitVec 3) (s : State) : Result :=
  issue (.vsel d a b rm) s

/-- VCVT (R106). -/
def execVcvt (d a : VNum) (rm : BitVec 3) (mk : Bool) (s : State) : Result :=
  issue (.vcvt d a rm mk) s

/-- VCVT_SAT (R106). -/
def execVcvtSat (d a : VNum) (rm : BitVec 3) (mk : Bool) (s : State) : Result :=
  issue (.vcvtSat d a rm mk) s

/-- VCVT_BLK (R107). -/
def execVcvtBlk (d a b : VNum) (rm : BitVec 3) (mk : Bool) (s : State) : Result :=
  issue (.vcvtBlk d a b rm mk) s

/-- VCVT_SCALE (R108). -/
def execVcvtScale (d a : VNum) (fmt : BitVec 6) (rm : BitVec 3) (mk : Bool) (s : State) : Result :=
  issue (.vcvtScale d a fmt rm mk) s

/-- VMOD_ADDM (R109). -/
def execVmodAddm (d a b : VNum) (rm : BitVec 3) (mk : Bool) (s : State) : Result :=
  issue (.vmodAddm d a b rm mk) s

/-- VMOD_SUBM (R109). -/
def execVmodSubm (d a b : VNum) (rm : BitVec 3) (mk : Bool) (s : State) : Result :=
  issue (.vmodSubm d a b rm mk) s

/-- VMOD_MULM (R109). -/
def execVmodMulm (d a b : VNum) (rm : BitVec 3) (mk : Bool) (s : State) : Result :=
  issue (.vmodMulm d a b rm mk) s

/-- VMOD_MACM (R109). -/
def execVmodMacm (d a b : VNum) (rm : BitVec 3) (mk : Bool) (s : State) : Result :=
  issue (.vmodMacm d a b rm mk) s

/-- VX_ADD (R110). -/
def execVxAdd (d a : VNum) (r : BitVec 5) (sel : Bool) (rm : BitVec 3) (mk : Bool) (s : State) : Result :=
  issue (.vxAdd d a r sel rm mk) s

/-- VX_SUB (R110). -/
def execVxSub (d a : VNum) (r : BitVec 5) (sel : Bool) (rm : BitVec 3) (mk : Bool) (s : State) : Result :=
  issue (.vxSub d a r sel rm mk) s

/-- VX_MUL (R110). -/
def execVxMul (d a : VNum) (r : BitVec 5) (sel : Bool) (rm : BitVec 3) (mk : Bool) (s : State) : Result :=
  issue (.vxMul d a r sel rm mk) s

/-- VX_MIN (R110). -/
def execVxMin (d a : VNum) (r : BitVec 5) (sel : Bool) (rm : BitVec 3) (mk : Bool) (s : State) : Result :=
  issue (.vxMin d a r sel rm mk) s

/-- VX_MAX (R110). -/
def execVxMax (d a : VNum) (r : BitVec 5) (sel : Bool) (rm : BitVec 3) (mk : Bool) (s : State) : Result :=
  issue (.vxMax d a r sel rm mk) s

/-- VX_AND (R110). -/
def execVxAnd (d a : VNum) (r : BitVec 5) (sel : Bool) (rm : BitVec 3) (mk : Bool) (s : State) : Result :=
  issue (.vxAnd d a r sel rm mk) s

/-- VX_OR (R110). -/
def execVxOr (d a : VNum) (r : BitVec 5) (sel : Bool) (rm : BitVec 3) (mk : Bool) (s : State) : Result :=
  issue (.vxOr d a r sel rm mk) s

/-- VX_FMA (R110). -/
def execVxFma (d a : VNum) (r : BitVec 5) (sel : Bool) (rm : BitVec 3) (mk : Bool) (s : State) : Result :=
  issue (.vxFma d a r sel rm mk) s

/-- VSFU_EXP2 (R111). -/
def execVsfuExp2 (d a : VNum) (rm : BitVec 3) (mk : Bool) (s : State) : Result :=
  issue (.vsfuExp2 d a rm mk) s

/-- VSFU_LOG2 (R111). -/
def execVsfuLog2 (d a : VNum) (rm : BitVec 3) (mk : Bool) (s : State) : Result :=
  issue (.vsfuLog2 d a rm mk) s

/-- VSFU_RCP (R111). -/
def execVsfuRcp (d a : VNum) (rm : BitVec 3) (mk : Bool) (s : State) : Result :=
  issue (.vsfuRcp d a rm mk) s

/-- VSFU_RSQ (R111). -/
def execVsfuRsq (d a : VNum) (rm : BitVec 3) (mk : Bool) (s : State) : Result :=
  issue (.vsfuRsq d a rm mk) s

/-- VSFU_SQRT (R111). -/
def execVsfuSqrt (d a : VNum) (rm : BitVec 3) (mk : Bool) (s : State) : Result :=
  issue (.vsfuSqrt d a rm mk) s

/-- VSFU_RCPSTEP (R113). -/
def execVsfuRcpstep (d a b : VNum) (rm : BitVec 3) (mk : Bool) (s : State) : Result :=
  issue (.vsfuRcpstep d a b rm mk) s

/-- VSFU_RSQSTEP (R113). -/
def execVsfuRsqstep (d a b : VNum) (rm : BitVec 3) (mk : Bool) (s : State) : Result :=
  issue (.vsfuRsqstep d a b rm mk) s

/-- VSMAX_UPD (R114). -/
def execVsmaxUpd (d a b : VNum) (rm : BitVec 3) (mk : Bool) (s : State) : Result :=
  issue (.vsmaxUpd d a b rm mk) s

/-- VSMAX_NORM (R115). -/
def execVsmaxNorm (d a b : VNum) (rm : BitVec 3) (mk : Bool) (s : State) : Result :=
  issue (.vsmaxNorm d a b rm mk) s

/-- VRED_SUM (R119). -/
def execVredSum (d a : VNum) (rm : BitVec 3) (mk : Bool) (s : State) : Result :=
  issue (.vredSum d a rm mk) s

/-- VRED_MIN (R119). -/
def execVredMin (d a : VNum) (rm : BitVec 3) (mk : Bool) (s : State) : Result :=
  issue (.vredMin d a rm mk) s

/-- VRED_MAX (R119). -/
def execVredMax (d a : VNum) (rm : BitVec 3) (mk : Bool) (s : State) : Result :=
  issue (.vredMax d a rm mk) s

/-- VRED_AND (R119). -/
def execVredAnd (d a : VNum) (rm : BitVec 3) (mk : Bool) (s : State) : Result :=
  issue (.vredAnd d a rm mk) s

/-- VRED_OR (R119). -/
def execVredOr (d a : VNum) (rm : BitVec 3) (mk : Bool) (s : State) : Result :=
  issue (.vredOr d a rm mk) s

/-- VRED_XOR (R119). -/
def execVredXor (d a : VNum) (rm : BitVec 3) (mk : Bool) (s : State) : Result :=
  issue (.vredXor d a rm mk) s

/-- VRED_WSUM (R119). -/
def execVredWsum (d a b : VNum) (rm : BitVec 3) (mk : Bool) (s : State) : Result :=
  issue (.vredWsum d a b rm mk) s

/-- VSLIDE_UP (R120). -/
def execVslideUp (d a : VNum) (r : BitVec 5) (sel : Bool) (rm : BitVec 3) (mk : Bool) (s : State) : Result :=
  issue (.vslideUp d a r sel rm mk) s

/-- VSLIDE_DOWN (R120). -/
def execVslideDown (d a : VNum) (r : BitVec 5) (sel : Bool) (rm : BitVec 3) (mk : Bool) (s : State) : Result :=
  issue (.vslideDown d a r sel rm mk) s

/-- VSLIDE_ROT (R120). -/
def execVslideRot (d a : VNum) (r : BitVec 5) (sel : Bool) (rm : BitVec 3) (mk : Bool) (s : State) : Result :=
  issue (.vslideRot d a r sel rm mk) s

/-- VPERM (R121). -/
def execVperm (d a b : VNum) (rm : BitVec 3) (mk : Bool) (s : State) : Result :=
  issue (.vperm d a b rm mk) s

/-- VCOMP_COMPRESS (R123). -/
def execVcompCompress (d a : VNum) (rm : BitVec 3) (s : State) : Result :=
  issue (.vcompCompress d a rm) s

/-- VCOMP_EXPAND (R123). -/
def execVcompExpand (d a : VNum) (rm : BitVec 3) (s : State) : Result :=
  issue (.vcompExpand d a rm) s

/-- VCOMP_IOTA (R123). -/
def execVcompIota (d : VNum) (a : MNum) (rm : BitVec 3) (mk : Bool) (s : State) : Result :=
  issue (.vcompIota d a rm mk) s

/-- VCOMP_CIDX (R123). -/
def execVcompCidx (d : VNum) (a : MNum) (rm : BitVec 3) (s : State) : Result :=
  issue (.vcompCidx d a rm) s

/-- VBFLY_H (R125). -/
def execVbflyH (d a : VNum) (dist : BitVec 4) (s : State) : Result :=
  issue (.vbflyH d a dist) s

/-- VBFLY_H_F (R126). -/
def execVbflyHF (d a : VNum) (dist : BitVec 4) (s : State) : Result :=
  issue (.vbflyHF d a dist) s

/-- VBFLY_CT (R125). -/
def execVbflyCt (d a b : VNum) (dist : BitVec 4) (s : State) : Result :=
  issue (.vbflyCt d a b dist) s

/-- VBFLY_GS (R125). -/
def execVbflyGs (d a b : VNum) (dist : BitVec 4) (s : State) : Result :=
  issue (.vbflyGs d a b dist) s

/-- VDECOMP (R127). -/
def execVdecomp (d a : VNum) (r : BitVec 5) (sel : Bool) (rm : BitVec 3) (mk : Bool) (lvl : BitVec 3) (s : State) : Result :=
  issue (.vdecomp d a r sel rm mk lvl) s

/-- VMV (R128). -/
def execVmv (d a : VNum) (rm : BitVec 3) (mk : Bool) (s : State) : Result :=
  issue (.vmv d a rm mk) s

/-- VMV_BCAST (R128). -/
def execVmvBcast (d : VNum) (r : BitVec 5) (sel : Bool) (rm : BitVec 3) (mk : Bool) (s : State) : Result :=
  issue (.vmvBcast d r sel rm mk) s

/-- VMV_TOX (R128). -/
def execVmvTox (r : XReg) (a : VNum) (rm : BitVec 3) (s : State) : Result :=
  issue (.vmvTox r a rm) s

/-- VMV_FROMX (R128). -/
def execVmvFromx (d : VNum) (r : BitVec 5) (sel : Bool) (rm : BitVec 3) (mk : Bool) (s : State) : Result :=
  issue (.vmvFromx d r sel rm mk) s

/-- VMV_WID (R129). -/
def execVmvWid (d : VNum) (rm : BitVec 3) (mk : Bool) (s : State) : Result :=
  issue (.vmvWid d rm mk) s

/-- EHIST_ACC (R130). -/
def execEhistAcc (a : VNum) (bank : BitVec 2) (rm : BitVec 3) (mk : Bool) (s : State) : Result :=
  issue (.ehistAcc a bank rm mk) s

/-- EHIST_READ (R130). -/
def execEhistRead (d : VNum) (bank : BitVec 5) (rm : BitVec 3) (s : State) : Result :=
  issue (.ehistRead d bank rm) s

/-- EHIST_CLR (R130). -/
def execEhistClr (bank : BitVec 5) (rm : BitVec 3) (s : State) : Result :=
  issue (.ehistClr bank rm) s

/-- MLOG_AND (R132). -/
def execMlogAnd (d a b : MNum) (s : State) : Result :=
  issue (.mlogAnd d a b) s

/-- MLOG_OR (R132). -/
def execMlogOr (d a b : MNum) (s : State) : Result :=
  issue (.mlogOr d a b) s

/-- MLOG_XOR (R132). -/
def execMlogXor (d a b : MNum) (s : State) : Result :=
  issue (.mlogXor d a b) s

/-- MLOG_ANDN (R132). -/
def execMlogAndn (d a b : MNum) (s : State) : Result :=
  issue (.mlogAndn d a b) s

/-- MLOG_ORN (R132). -/
def execMlogOrn (d a b : MNum) (s : State) : Result :=
  issue (.mlogOrn d a b) s

/-- MLOG_XNOR (R132). -/
def execMlogXnor (d a b : MNum) (s : State) : Result :=
  issue (.mlogXnor d a b) s

/-- MLOG_NOT (R132). -/
def execMlogNot (d a : MNum) (s : State) : Result :=
  issue (.mlogNot d a) s

/-- MCNT (R133). -/
def execMcnt (r : XReg) (a : MNum) (s : State) : Result :=
  issue (.mcnt r a) s

/-- MCNT_FIRST (R133). -/
def execMcntFirst (r : XReg) (a : MNum) (s : State) : Result :=
  issue (.mcntFirst r a) s

/-- MSETVL (R134). -/
def execMsetvl (r : XReg) (a : MNum) (s : State) : Result :=
  issue (.msetvl r a) s

/-- MMV (R132). -/
def execMmv (d a : MNum) (s : State) : Result :=
  issue (.mmv d a) s

/-- MMV_SET (R132). -/
def execMmvSet (d : MNum) (s : State) : Result :=
  issue (.mmvSet d) s

/-- MMV_CLR (R132). -/
def execMmvClr (d : MNum) (s : State) : Result :=
  issue (.mmvClr d) s

/-- VLD (R184). -/
def execVld (t : VNum) (b : XReg) (mk bw bp : Bool) (s : State) : Result :=
  issue (.vld t b mk bw bp) s

/-- VLD_S (R184). -/
def execVldS (t : VNum) (b r : XReg) (mk bw bp : Bool) (s : State) : Result :=
  issue (.vldS t b r mk bw bp) s

/-- VLD_X (R184). -/
def execVldX (t : VNum) (b : XReg) (ix : VNum) (mk bw bp : Bool) (s : State) : Result :=
  issue (.vldX t b ix mk bw bp) s

/-- VST (R184). -/
def execVst (t : VNum) (b : XReg) (mk bw bp : Bool) (s : State) : Result :=
  issue (.vst t b mk bw bp) s

/-- VST_S (R184). -/
def execVstS (t : VNum) (b r : XReg) (mk bw bp : Bool) (s : State) : Result :=
  issue (.vstS t b r mk bw bp) s

/-- VST_X (R184). -/
def execVstX (t : VNum) (b : XReg) (ix : VNum) (mk bw bp : Bool) (s : State) : Result :=
  issue (.vstX t b ix mk bw bp) s

/-- VAMO_ADD (R185). -/
def execVamoAdd (t : VNum) (b : XReg) (ix : VNum) (mk bw bp : Bool) (s : State) : Result :=
  issue (.vamoAdd t b ix mk bw bp) s

/-- VAMO_AND (R185). -/
def execVamoAnd (t : VNum) (b : XReg) (ix : VNum) (mk bw bp : Bool) (s : State) : Result :=
  issue (.vamoAnd t b ix mk bw bp) s

/-- VAMO_OR (R185). -/
def execVamoOr (t : VNum) (b : XReg) (ix : VNum) (mk bw bp : Bool) (s : State) : Result :=
  issue (.vamoOr t b ix mk bw bp) s

/-- VAMO_XOR (R185). -/
def execVamoXor (t : VNum) (b : XReg) (ix : VNum) (mk bw bp : Bool) (s : State) : Result :=
  issue (.vamoXor t b ix mk bw bp) s

/-- VAMO_MIN (R185). -/
def execVamoMin (t : VNum) (b : XReg) (ix : VNum) (mk bw bp : Bool) (s : State) : Result :=
  issue (.vamoMin t b ix mk bw bp) s

/-- VAMO_MAX (R185). -/
def execVamoMax (t : VNum) (b : XReg) (ix : VNum) (mk bw bp : Bool) (s : State) : Result :=
  issue (.vamoMax t b ix mk bw bp) s

/-- VAMO_SWAP (R185). -/
def execVamoSwap (t : VNum) (b : XReg) (ix : VNum) (mk bw bp : Bool) (s : State) : Result :=
  issue (.vamoSwap t b ix mk bw bp) s

/-- MLD (R186). -/
def execMld (t : MNum) (b : XReg) (mk bw bp : Bool) (s : State) : Result :=
  issue (.mld t b mk bw bp) s

/-- MST (R186). -/
def execMst (t : MNum) (b : XReg) (mk bw bp : Bool) (s : State) : Result :=
  issue (.mst t b mk bw bp) s

/-- SBIND (R187). -/
def execSbind (k : BitVec 4) (b : XReg) (s : State) : Result :=
  issue (.sbind k b) s

/-- SUNBIND (R190). -/
def execSunbind (k : BitVec 4) (s : State) : Result :=
  issue (.sunbind k) s

/-- TMMA (R213). -/
def execTmma (c : XReg) (mK : BitVec 4) (bw bp : Bool) (s : State) : Result :=
  issue (.tmma c mK bw bp) s

/-- TCVT (R216). -/
def execTcvt (c : XReg) (bw bp : Bool) (s : State) : Result :=
  issue (.tcvt c bw bp) s

/-- TCOPY (R217). -/
def execTcopy (c : XReg) (bw bp : Bool) (s : State) : Result :=
  issue (.tcopy c bw bp) s

/-- JSTAT (R218). -/
def execJstat (d a : XReg) (s : State) : Result :=
  issue (.jstat d a) s

end Sys2Proof.Machine
end

