-- ==== Sys2Proof/Machine/Dispatch.lean ====
section
/-! DEFINITION. Dispatch: one arm per constructor, each one call of that instruction's meaning. -/

namespace Sys2Proof.Machine

open Sys2Proof

/-- The meaning of each row of the opcode table, for the context whose turn it is or for the unit that the signal
names. -/
def exec (i : Instr) (s : State) : Host.Outcome State Fault Refusal :=
  match i with
  | .add d a b => Sys2Proof.Machine.execAdd d a b s
  | .sub d a b => Sys2Proof.Machine.execSub d a b s
  | .and d a b => Sys2Proof.Machine.execAnd d a b s
  | .or d a b => Sys2Proof.Machine.execOr d a b s
  | .xor d a b => Sys2Proof.Machine.execXor d a b s
  | .sll d a b => Sys2Proof.Machine.execSll d a b s
  | .srl d a b => Sys2Proof.Machine.execSrl d a b s
  | .sra d a b => Sys2Proof.Machine.execSra d a b s
  | .slt d a b => Sys2Proof.Machine.execSlt d a b s
  | .sltu d a b => Sys2Proof.Machine.execSltu d a b s
  | .min d a b => Sys2Proof.Machine.execMin d a b s
  | .max d a b => Sys2Proof.Machine.execMax d a b s
  | .minn d a b => Sys2Proof.Machine.execMinn d a b s
  | .maxn d a b => Sys2Proof.Machine.execMaxn d a b s
  | .mul d a b => Sys2Proof.Machine.execMul d a b s
  | .mulh d a b => Sys2Proof.Machine.execMulh d a b s
  | .mulhn d a b => Sys2Proof.Machine.execMulhn d a b s
  | .div d a b => Sys2Proof.Machine.execDiv d a b s
  | .divn d a b => Sys2Proof.Machine.execDivn d a b s
  | .rem d a b => Sys2Proof.Machine.execRem d a b s
  | .remn d a b => Sys2Proof.Machine.execRemn d a b s
  | .clz d a => Sys2Proof.Machine.execClz d a s
  | .ctz d a => Sys2Proof.Machine.execCtz d a s
  | .popc d a => Sys2Proof.Machine.execPopc d a s
  | .addi d a imm => Sys2Proof.Machine.execAddi d a imm s
  | .andi d a imm => Sys2Proof.Machine.execAndi d a imm s
  | .ori d a imm => Sys2Proof.Machine.execOri d a imm s
  | .xori d a imm => Sys2Proof.Machine.execXori d a imm s
  | .slti d a imm => Sys2Proof.Machine.execSlti d a imm s
  | .sltin d a imm => Sys2Proof.Machine.execSltin d a imm s
  | .slli d a sh => Sys2Proof.Machine.execSlli d a sh s
  | .srli d a sh => Sys2Proof.Machine.execSrli d a sh s
  | .srai d a sh => Sys2Proof.Machine.execSrai d a sh s
  | .lih d imm => Sys2Proof.Machine.execLih d imm s
  | .pcrel d imm => Sys2Proof.Machine.execPcrel d imm s
  | .ld t a off ord sz sx => Sys2Proof.Machine.execLd t a off ord sz sx s
  | .st t a off ord sz => Sys2Proof.Machine.execSt t a off ord sz s
  | .amoAdd d a b ord scope w => Sys2Proof.Machine.execAmoAdd d a b ord scope w s
  | .amoAnd d a b ord scope w => Sys2Proof.Machine.execAmoAnd d a b ord scope w s
  | .amoOr d a b ord scope w => Sys2Proof.Machine.execAmoOr d a b ord scope w s
  | .amoXor d a b ord scope w => Sys2Proof.Machine.execAmoXor d a b ord scope w s
  | .amoMin d a b ord scope w => Sys2Proof.Machine.execAmoMin d a b ord scope w s
  | .amoMax d a b ord scope w => Sys2Proof.Machine.execAmoMax d a b ord scope w s
  | .amoMinn d a b ord scope w => Sys2Proof.Machine.execAmoMinn d a b ord scope w s
  | .amoMaxn d a b ord scope w => Sys2Proof.Machine.execAmoMaxn d a b ord scope w s
  | .amoSwap d a b ord scope w => Sys2Proof.Machine.execAmoSwap d a b ord scope w s
  | .cas d a b ord scope w => Sys2Proof.Machine.execCas d a b ord scope w s
  | .fence ord scope => Sys2Proof.Machine.execFence ord scope s
  | .fenceSc scope => Sys2Proof.Machine.execFenceSc scope s
  | .sbar names => Sys2Proof.Machine.execSbar names s
  | .brEq a b off => Sys2Proof.Machine.execBrEq a b off s
  | .brNe a b off => Sys2Proof.Machine.execBrNe a b off s
  | .brLt a b off => Sys2Proof.Machine.execBrLt a b off s
  | .brGe a b off => Sys2Proof.Machine.execBrGe a b off s
  | .brLtn a b off => Sys2Proof.Machine.execBrLtn a b off s
  | .brGen a b off => Sys2Proof.Machine.execBrGen a b off s
  | .jal d off => Sys2Proof.Machine.execJal d off s
  | .jalr d a imm => Sys2Proof.Machine.execJalr d a imm s
  | .loop a ind cvb cvg => Sys2Proof.Machine.execLoop a ind cvb cvg s
  | .nextPerElement a => Sys2Proof.Machine.execNextPerElement a s
  | .nextUniform r => Sys2Proof.Machine.execNextUniform r s
  | .vsetvl d a b => Sys2Proof.Machine.execVsetvl d a b s
  | .vcfg d value => Sys2Proof.Machine.execVcfg d value s
  | .vtag d code => Sys2Proof.Machine.execVtag d code s
  | .vadd d a b rm mk => Sys2Proof.Machine.execVadd d a b rm mk s
  | .vaddSub d a b rm mk => Sys2Proof.Machine.execVaddSub d a b rm mk s
  | .vaddRsub d a b rm mk => Sys2Proof.Machine.execVaddRsub d a b rm mk s
  | .vaddAdds d a b rm mk => Sys2Proof.Machine.execVaddAdds d a b rm mk s
  | .vaddSubs d a b rm mk => Sys2Proof.Machine.execVaddSubs d a b rm mk s
  | .vaddAbsd d a b rm mk => Sys2Proof.Machine.execVaddAbsd d a b rm mk s
  | .vmul d a b rm mk => Sys2Proof.Machine.execVmul d a b rm mk s
  | .vmulMulh d a b rm mk => Sys2Proof.Machine.execVmulMulh d a b rm mk s
  | .vmulMulhn d a b rm mk => Sys2Proof.Machine.execVmulMulhn d a b rm mk s
  | .vmulDiv d a b rm mk => Sys2Proof.Machine.execVmulDiv d a b rm mk s
  | .vmulRem d a b rm mk => Sys2Proof.Machine.execVmulRem d a b rm mk s
  | .vfma d a b rm mk => Sys2Proof.Machine.execVfma d a b rm mk s
  | .vfmaFms d a b rm mk => Sys2Proof.Machine.execVfmaFms d a b rm mk s
  | .vfmaFnma d a b rm mk => Sys2Proof.Machine.execVfmaFnma d a b rm mk s
  | .vfmaFnms d a b rm mk => Sys2Proof.Machine.execVfmaFnms d a b rm mk s
  | .vminmaxMin d a b rm mk => Sys2Proof.Machine.execVminmaxMin d a b rm mk s
  | .vminmaxMax d a b rm mk => Sys2Proof.Machine.execVminmaxMax d a b rm mk s
  | .vminmaxMinnum d a b rm mk => Sys2Proof.Machine.execVminmaxMinnum d a b rm mk s
  | .vminmaxMaxnum d a b rm mk => Sys2Proof.Machine.execVminmaxMaxnum d a b rm mk s
  | .vlogicAnd d a b rm mk => Sys2Proof.Machine.execVlogicAnd d a b rm mk s
  | .vlogicOr d a b rm mk => Sys2Proof.Machine.execVlogicOr d a b rm mk s
  | .vlogicXor d a b rm mk => Sys2Proof.Machine.execVlogicXor d a b rm mk s
  | .vlogicAndn d a b rm mk => Sys2Proof.Machine.execVlogicAndn d a b rm mk s
  | .vlogicSll d a b rm mk => Sys2Proof.Machine.execVlogicSll d a b rm mk s
  | .vlogicSrl d a b rm mk => Sys2Proof.Machine.execVlogicSrl d a b rm mk s
  | .vlogicSra d a b rm mk => Sys2Proof.Machine.execVlogicSra d a b rm mk s
  | .vcmpEq d a b rm mk => Sys2Proof.Machine.execVcmpEq d a b rm mk s
  | .vcmpNe d a b rm mk => Sys2Proof.Machine.execVcmpNe d a b rm mk s
  | .vcmpLt d a b rm mk => Sys2Proof.Machine.execVcmpLt d a b rm mk s
  | .vcmpLe d a b rm mk => Sys2Proof.Machine.execVcmpLe d a b rm mk s
  | .vcmpGt d a b rm mk => Sys2Proof.Machine.execVcmpGt d a b rm mk s
  | .vcmpGe d a b rm mk => Sys2Proof.Machine.execVcmpGe d a b rm mk s
  | .vcmpUnord d a b rm mk => Sys2Proof.Machine.execVcmpUnord d a b rm mk s
  | .vsel d a b rm => Sys2Proof.Machine.execVsel d a b rm s
  | .vcvt d a rm mk => Sys2Proof.Machine.execVcvt d a rm mk s
  | .vcvtSat d a rm mk => Sys2Proof.Machine.execVcvtSat d a rm mk s
  | .vcvtBlk d a b rm mk => Sys2Proof.Machine.execVcvtBlk d a b rm mk s
  | .vcvtScale d a fmt rm mk => Sys2Proof.Machine.execVcvtScale d a fmt rm mk s
  | .vmodAddm d a b rm mk => Sys2Proof.Machine.execVmodAddm d a b rm mk s
  | .vmodSubm d a b rm mk => Sys2Proof.Machine.execVmodSubm d a b rm mk s
  | .vmodMulm d a b rm mk => Sys2Proof.Machine.execVmodMulm d a b rm mk s
  | .vmodMacm d a b rm mk => Sys2Proof.Machine.execVmodMacm d a b rm mk s
  | .vxAdd d a r sel rm mk => Sys2Proof.Machine.execVxAdd d a r sel rm mk s
  | .vxSub d a r sel rm mk => Sys2Proof.Machine.execVxSub d a r sel rm mk s
  | .vxMul d a r sel rm mk => Sys2Proof.Machine.execVxMul d a r sel rm mk s
  | .vxMin d a r sel rm mk => Sys2Proof.Machine.execVxMin d a r sel rm mk s
  | .vxMax d a r sel rm mk => Sys2Proof.Machine.execVxMax d a r sel rm mk s
  | .vxAnd d a r sel rm mk => Sys2Proof.Machine.execVxAnd d a r sel rm mk s
  | .vxOr d a r sel rm mk => Sys2Proof.Machine.execVxOr d a r sel rm mk s
  | .vxFma d a r sel rm mk => Sys2Proof.Machine.execVxFma d a r sel rm mk s
  | .vsfuExp2 d a rm mk => Sys2Proof.Machine.execVsfuExp2 d a rm mk s
  | .vsfuLog2 d a rm mk => Sys2Proof.Machine.execVsfuLog2 d a rm mk s
  | .vsfuRcp d a rm mk => Sys2Proof.Machine.execVsfuRcp d a rm mk s
  | .vsfuRsq d a rm mk => Sys2Proof.Machine.execVsfuRsq d a rm mk s
  | .vsfuSqrt d a rm mk => Sys2Proof.Machine.execVsfuSqrt d a rm mk s
  | .vsfuRcpstep d a b rm mk => Sys2Proof.Machine.execVsfuRcpstep d a b rm mk s
  | .vsfuRsqstep d a b rm mk => Sys2Proof.Machine.execVsfuRsqstep d a b rm mk s
  | .vsmaxUpd d a b rm mk => Sys2Proof.Machine.execVsmaxUpd d a b rm mk s
  | .vsmaxNorm d a b rm mk => Sys2Proof.Machine.execVsmaxNorm d a b rm mk s
  | .vredSum d a rm mk => Sys2Proof.Machine.execVredSum d a rm mk s
  | .vredMin d a rm mk => Sys2Proof.Machine.execVredMin d a rm mk s
  | .vredMax d a rm mk => Sys2Proof.Machine.execVredMax d a rm mk s
  | .vredAnd d a rm mk => Sys2Proof.Machine.execVredAnd d a rm mk s
  | .vredOr d a rm mk => Sys2Proof.Machine.execVredOr d a rm mk s
  | .vredXor d a rm mk => Sys2Proof.Machine.execVredXor d a rm mk s
  | .vredWsum d a b rm mk => Sys2Proof.Machine.execVredWsum d a b rm mk s
  | .vslideUp d a r sel rm mk => Sys2Proof.Machine.execVslideUp d a r sel rm mk s
  | .vslideDown d a r sel rm mk => Sys2Proof.Machine.execVslideDown d a r sel rm mk s
  | .vslideRot d a r sel rm mk => Sys2Proof.Machine.execVslideRot d a r sel rm mk s
  | .vperm d a b rm mk => Sys2Proof.Machine.execVperm d a b rm mk s
  | .vcompCompress d a rm => Sys2Proof.Machine.execVcompCompress d a rm s
  | .vcompExpand d a rm => Sys2Proof.Machine.execVcompExpand d a rm s
  | .vcompIota d a rm mk => Sys2Proof.Machine.execVcompIota d a rm mk s
  | .vcompCidx d a rm => Sys2Proof.Machine.execVcompCidx d a rm s
  | .vbflyH d a dist => Sys2Proof.Machine.execVbflyH d a dist s
  | .vbflyHF d a dist => Sys2Proof.Machine.execVbflyHF d a dist s
  | .vbflyCt d a b dist => Sys2Proof.Machine.execVbflyCt d a b dist s
  | .vbflyGs d a b dist => Sys2Proof.Machine.execVbflyGs d a b dist s
  | .vdecomp d a r sel rm mk lvl => Sys2Proof.Machine.execVdecomp d a r sel rm mk lvl s
  | .vmv d a rm mk => Sys2Proof.Machine.execVmv d a rm mk s
  | .vmvBcast d r sel rm mk => Sys2Proof.Machine.execVmvBcast d r sel rm mk s
  | .vmvTox r a rm => Sys2Proof.Machine.execVmvTox r a rm s
  | .vmvFromx d r sel rm mk => Sys2Proof.Machine.execVmvFromx d r sel rm mk s
  | .vmvWid d rm mk => Sys2Proof.Machine.execVmvWid d rm mk s
  | .ehistAcc a bank rm mk => Sys2Proof.Machine.execEhistAcc a bank rm mk s
  | .ehistRead d bank rm => Sys2Proof.Machine.execEhistRead d bank rm s
  | .ehistClr bank rm => Sys2Proof.Machine.execEhistClr bank rm s
  | .mlogAnd d a b => Sys2Proof.Machine.execMlogAnd d a b s
  | .mlogOr d a b => Sys2Proof.Machine.execMlogOr d a b s
  | .mlogXor d a b => Sys2Proof.Machine.execMlogXor d a b s
  | .mlogAndn d a b => Sys2Proof.Machine.execMlogAndn d a b s
  | .mlogOrn d a b => Sys2Proof.Machine.execMlogOrn d a b s
  | .mlogXnor d a b => Sys2Proof.Machine.execMlogXnor d a b s
  | .mlogNot d a => Sys2Proof.Machine.execMlogNot d a s
  | .mcnt r a => Sys2Proof.Machine.execMcnt r a s
  | .mcntFirst r a => Sys2Proof.Machine.execMcntFirst r a s
  | .msetvl r a => Sys2Proof.Machine.execMsetvl r a s
  | .mmv d a => Sys2Proof.Machine.execMmv d a s
  | .mmvSet d => Sys2Proof.Machine.execMmvSet d s
  | .mmvClr d => Sys2Proof.Machine.execMmvClr d s
  | .vld t b mk bw bp => Sys2Proof.Machine.execVld t b mk bw bp s
  | .vldS t b r mk bw bp => Sys2Proof.Machine.execVldS t b r mk bw bp s
  | .vldX t b ix mk bw bp => Sys2Proof.Machine.execVldX t b ix mk bw bp s
  | .vst t b mk bw bp => Sys2Proof.Machine.execVst t b mk bw bp s
  | .vstS t b r mk bw bp => Sys2Proof.Machine.execVstS t b r mk bw bp s
  | .vstX t b ix mk bw bp => Sys2Proof.Machine.execVstX t b ix mk bw bp s
  | .vamoAdd t b ix mk bw bp => Sys2Proof.Machine.execVamoAdd t b ix mk bw bp s
  | .vamoAnd t b ix mk bw bp => Sys2Proof.Machine.execVamoAnd t b ix mk bw bp s
  | .vamoOr t b ix mk bw bp => Sys2Proof.Machine.execVamoOr t b ix mk bw bp s
  | .vamoXor t b ix mk bw bp => Sys2Proof.Machine.execVamoXor t b ix mk bw bp s
  | .vamoMin t b ix mk bw bp => Sys2Proof.Machine.execVamoMin t b ix mk bw bp s
  | .vamoMax t b ix mk bw bp => Sys2Proof.Machine.execVamoMax t b ix mk bw bp s
  | .vamoSwap t b ix mk bw bp => Sys2Proof.Machine.execVamoSwap t b ix mk bw bp s
  | .mld t b mk bw bp => Sys2Proof.Machine.execMld t b mk bw bp s
  | .mst t b mk bw bp => Sys2Proof.Machine.execMst t b mk bw bp s
  | .sbind k b => Sys2Proof.Machine.execSbind k b s
  | .sunbind k => Sys2Proof.Machine.execSunbind k s
  | .btnWait q => Sys2Proof.Machine.execBtnWait q s
  | .btnPost q => Sys2Proof.Machine.execBtnPost q s
  | .btnWaitPost q => Sys2Proof.Machine.execBtnWaitPost q s
  | .tmma c mK bw bp => Sys2Proof.Machine.execTmma c mK bw bp s
  | .tcvt c bw bp => Sys2Proof.Machine.execTcvt c bw bp s
  | .tcopy c bw bp => Sys2Proof.Machine.execTcopy c bw bp s
  | .jstat d a => Sys2Proof.Machine.execJstat d a s
  | .cld c a => Sys2Proof.Machine.execCld c a s
  | .cst c a => Sys2Proof.Machine.execCst c a s
  | .cadd d a b => Sys2Proof.Machine.execCadd d a b s
  | .csub d a b => Sys2Proof.Machine.execCsub d a b s
  | .cneg d a => Sys2Proof.Machine.execCneg d a s
  | .cmuli d a imm => Sys2Proof.Machine.execCmuli d a imm s
  | .caddp d a imm => Sys2Proof.Machine.execCaddp d a imm s
  | .cmov d a => Sys2Proof.Machine.execCmov d a s
  | .cmac d a imm => Sys2Proof.Machine.execCmac d a imm s
  | .crfn d a t => Sys2Proof.Machine.execCrfn d a t s
  | .tld t a => Sys2Proof.Machine.execTld t a s
  | .kpassOpen d a => Sys2Proof.Machine.execKpassOpen d a s
  | .kpassJoin d a b => Sys2Proof.Machine.execKpassJoin d a b s
  | .kpassRun d a b => Sys2Proof.Machine.execKpassRun d a b s
  | .kpassAbort d a => Sys2Proof.Machine.execKpassAbort d a s
  | .kpassStatus d a => Sys2Proof.Machine.execKpassStatus d a s
  | .cinfo d c sel => Sys2Proof.Machine.execCinfo d c sel s
  | .hurdleArrive d a b scope => Sys2Proof.Machine.execHurdleArrive d a b scope s
  | .hurdleWait d a b scope => Sys2Proof.Machine.execHurdleWait d a b scope s
  | .hurdleAw d a b scope => Sys2Proof.Machine.execHurdleAw d a b scope s
  | .hurdleInit d a b scope => Sys2Proof.Machine.execHurdleInit d a b scope s
  | .qpush d a b scope => Sys2Proof.Machine.execQpush d a b scope s
  | .qpop d a b scope => Sys2Proof.Machine.execQpop d a b scope s
  | .qpeek d a b scope => Sys2Proof.Machine.execQpeek d a b scope s
  | .wmarkPub d a b scope => Sys2Proof.Machine.execWmarkPub d a b scope s
  | .wmarkBind d a scope => Sys2Proof.Machine.execWmarkBind d a scope s
  | .wmarkUnbind a => Sys2Proof.Machine.execWmarkUnbind a s
  | .pubv d a b => Sys2Proof.Machine.execPubv d a b s
  | .pubf d a => Sys2Proof.Machine.execPubf d a s
  | .stopr d a => Sys2Proof.Machine.execStopr d a s
  | .refchk d a => Sys2Proof.Machine.execRefchk d a s
  | .refq d a b => Sys2Proof.Machine.execRefq d a b s
  | .viewNew hd r t => Sys2Proof.Machine.execViewNew hd r t s
  | .viewNarrow ha r t => Sys2Proof.Machine.execViewNarrow ha r t s
  | .viewSplit hd ha r => Sys2Proof.Machine.execViewSplit hd ha r s
  | .viewDup hd ha => Sys2Proof.Machine.execViewDup hd ha s
  | .viewDrop ha => Sys2Proof.Machine.execViewDrop ha s
  | .viewQuery ha r t => Sys2Proof.Machine.execViewQuery ha r t s
  | .viewId ha r => Sys2Proof.Machine.execViewId ha r s
  | .viewTake ha r => Sys2Proof.Machine.execViewTake ha r s
  | .launch d a => Sys2Proof.Machine.execLaunch d a s
  | .launchInd d a => Sys2Proof.Machine.execLaunchInd d a s
  | .csrr d csr => Sys2Proof.Machine.execCsrr d csr s
  | .csrw d a csr => Sys2Proof.Machine.execCsrw d a csr s
  | .csrs d a csr => Sys2Proof.Machine.execCsrs d a csr s
  | .csrc d a csr => Sys2Proof.Machine.execCsrc d a csr s
  | .trap code => Sys2Proof.Machine.execTrap code s
  | .bkpt code => Sys2Proof.Machine.execBkpt code s
  | .trace a code => Sys2Proof.Machine.execTrace a code s
  | .wcall code => Sys2Proof.Machine.execWcall code s
  | .tlbiAs a => Sys2Proof.Machine.execTlbiAs a s
  | .tlbiVa a b => Sys2Proof.Machine.execTlbiVa a b s
  | .lapend => Sys2Proof.Machine.execLapend s
  | .lapexit => Sys2Proof.Machine.execLapexit s
  | .yield => Sys2Proof.Machine.execYield s
  | .eret => Sys2Proof.Machine.execEret s
  | .wfe => Sys2Proof.Machine.execWfe s
  | .tlbiAll => Sys2Proof.Machine.execTlbiAll s
  | .yieldSwitch => Sys2Proof.Machine.execYieldSwitch s
  | .clusterScrubDone => Sys2Proof.Machine.execClusterScrubDone s
  | .shootdownAck => Sys2Proof.Machine.execShootdownAck s
  | .stopAtPointerPair => Sys2Proof.Machine.execStopAtPointerPair s
  | .pendingFaultTake => Sys2Proof.Machine.execPendingFaultTake s
  | .vectorStart => Sys2Proof.Machine.execVectorStart s
  | .vectorRetire => Sys2Proof.Machine.execVectorRetire s
  | .worldSwitch => Sys2Proof.Machine.execWorldSwitch s
  | .witnessCheck => Sys2Proof.Machine.execWitnessCheck s
  | .streamFill => Sys2Proof.Machine.execStreamFill s
  | .streamDrain => Sys2Proof.Machine.execStreamDrain s
  | .deadlockProbe => Sys2Proof.Machine.execDeadlockProbe s
  | .probeReturn => Sys2Proof.Machine.execProbeReturn s
  | .jobStart => Sys2Proof.Machine.execJobStart s
  | .jobEnd => Sys2Proof.Machine.execJobEnd s
  | .stagedInputIssue => Sys2Proof.Machine.execStagedInputIssue s
  | .refreshStep => Sys2Proof.Machine.execRefreshStep s
  | .sliceDelivery => Sys2Proof.Machine.execSliceDelivery s
  | .passEnd => Sys2Proof.Machine.execPassEnd s
  | .passFault => Sys2Proof.Machine.execPassFault s
  | .lapDispatch => Sys2Proof.Machine.execLapDispatch s
  | .poolAged => Sys2Proof.Machine.execPoolAged s
  | .poolOverdue => Sys2Proof.Machine.execPoolOverdue s
  | .admissionDecision => Sys2Proof.Machine.execAdmissionDecision s
  | .predecessorsComplete => Sys2Proof.Machine.execPredecessorsComplete s
  | .launchPreempt => Sys2Proof.Machine.execLaunchPreempt s
  | .contextSave => Sys2Proof.Machine.execContextSave s
  | .contextRestore => Sys2Proof.Machine.execContextRestore s
  | .launchOverrunStop => Sys2Proof.Machine.execLaunchOverrunStop s
  | .deadlineStop => Sys2Proof.Machine.execDeadlineStop s
  | .launchComplete => Sys2Proof.Machine.execLaunchComplete s
  | .hurdleWake => Sys2Proof.Machine.execHurdleWake s
  | .hurdleRecheck => Sys2Proof.Machine.execHurdleRecheck s
  | .hurdleWaitTimeout => Sys2Proof.Machine.execHurdleWaitTimeout s
  | .wfeWake => Sys2Proof.Machine.execWfeWake s
  | .wfeTimeout => Sys2Proof.Machine.execWfeTimeout s
  | .roundStart => Sys2Proof.Machine.execRoundStart s
  | .roundStop => Sys2Proof.Machine.execRoundStop s
  | .roundEnd => Sys2Proof.Machine.execRoundEnd s
  | .recordSettle => Sys2Proof.Machine.execRecordSettle s
  | .wmarkCopyUpdate => Sys2Proof.Machine.execWmarkCopyUpdate s
  | .cellFree => Sys2Proof.Machine.execCellFree s
  | .sectorRead => Sys2Proof.Machine.execSectorRead s
  | .domainAccessArrival => Sys2Proof.Machine.execDomainAccessArrival s
  | .domainTimeout => Sys2Proof.Machine.execDomainTimeout s
  | .traceTriggerFire => Sys2Proof.Machine.execTraceTriggerFire s
  | .traceMarkerSend => Sys2Proof.Machine.execTraceMarkerSend s
  | .traceMarkerReceive => Sys2Proof.Machine.execTraceMarkerReceive s
  | .clockGate => Sys2Proof.Machine.execClockGate s
  | .enterRetention => Sys2Proof.Machine.execEnterRetention s
  | .enterOff => Sys2Proof.Machine.execEnterOff s
  | .clusterWake => Sys2Proof.Machine.execClusterWake s
  | .monitorRefresh => Sys2Proof.Machine.execMonitorRefresh s
  | .voltageReset => Sys2Proof.Machine.execVoltageReset s
  | .dieReset => Sys2Proof.Machine.execDieReset s
  | .packageReset => Sys2Proof.Machine.execPackageReset s
  | .spdmGetVersion => Sys2Proof.Machine.execSpdmGetVersion s
  | .spdmGetCapabilities => Sys2Proof.Machine.execSpdmGetCapabilities s
  | .spdmNegotiateAlgorithms => Sys2Proof.Machine.execSpdmNegotiateAlgorithms s
  | .spdmGetDigests => Sys2Proof.Machine.execSpdmGetDigests s
  | .spdmGetCertificate => Sys2Proof.Machine.execSpdmGetCertificate s
  | .spdmChallenge => Sys2Proof.Machine.execSpdmChallenge s
  | .spdmGetMeasurements => Sys2Proof.Machine.execSpdmGetMeasurements s
  | .spdmKeyExchange => Sys2Proof.Machine.execSpdmKeyExchange s
  | .spdmFinish => Sys2Proof.Machine.execSpdmFinish s
  | .unsupportedRequest => Sys2Proof.Machine.execUnsupportedRequest s
  | .recoveryFrame => Sys2Proof.Machine.execRecoveryFrame s
  | .bind => Sys2Proof.Machine.execBind s
  | .write => Sys2Proof.Machine.execWrite s
  | .read => Sys2Proof.Machine.execRead s
  | .launchCommand => Sys2Proof.Machine.execLaunchCommand s
  | .status => Sys2Proof.Machine.execStatus s
  | .lock => Sys2Proof.Machine.execLock s
  | .unlock => Sys2Proof.Machine.execUnlock s
  | .lockLeaseExpiry => Sys2Proof.Machine.execLockLeaseExpiry s
  | .domainSetRoute => Sys2Proof.Machine.execDomainSetRoute s
  | .domainSetExport => Sys2Proof.Machine.execDomainSetExport s
  | .quiesce => Sys2Proof.Machine.execQuiesce s
  | .dump => Sys2Proof.Machine.execDump s
  | .restore => Sys2Proof.Machine.execRestore s
  | .illegalWord => Sys2Proof.Machine.execIllegalWord s
  | .fetchFault => Sys2Proof.Machine.execFetchFault s
  | .domainResponse => Sys2Proof.Machine.execDomainResponse s
  | .refusedOptionPacket => Sys2Proof.Machine.execRefusedOptionPacket s
  | .unlistedOpcode => Sys2Proof.Machine.execUnlistedOpcode s
  | .pageReencryptionDone => Sys2Proof.Machine.execPageReencryptionDone s

end Sys2Proof.Machine
end

