-- ==== Sys2Proof/Machine/Usage.lean ====
section
/-! DEFINITION. Which registers and CSRs an instruction reads and writes, as R149 counts them for a lap's rewindability, and the
front's interlocks with its vector queue (R51, R117, R163). -/

namespace Sys2Proof.Machine

/-! x registers -/

/-- The x registers that an instruction reads at the front (R73–R93, R176–R181, R211–R329). -/
def xReads : Instr → List XReg
  | .add _ a b | .sub _ a b | .and _ a b | .or _ a b | .xor _ a b | .sll _ a b | .srl _ a b | .sra _ a b | .slt _ a b
  | .sltu _ a b | .min _ a b | .max _ a b | .minn _ a b | .maxn _ a b | .mul _ a b | .mulh _ a b | .mulhn _ a b
  | .div _ a b | .divn _ a b | .rem _ a b | .remn _ a b => [a, b]
  | .clz _ a | .ctz _ a | .popc _ a | .addi _ a _ | .andi _ a _ | .ori _ a _ | .xori _ a _ | .slti _ a _ | .sltin _ a _
  | .slli _ a _ | .srli _ a _ | .srai _ a _ => [a]
  | .ld _ a _ _ _ _ => [a]
  | .st t a _ _ _ => [t, a]
  | .amoAdd _ a b _ _ _ | .amoAnd _ a b _ _ _ | .amoOr _ a b _ _ _ | .amoXor _ a b _ _ _ | .amoMin _ a b _ _ _
  | .amoMax _ a b _ _ _ | .amoMinn _ a b _ _ _ | .amoMaxn _ a b _ _ _ | .amoSwap _ a b _ _ _ => [a, b]
  | .cas d a b _ _ _ => [d, a, b]
  | .brEq a b _ | .brNe a b _ | .brLt a b _ | .brGe a b _ | .brLtn a b _ | .brGen a b _ => [a, b]
  | .jalr _ a _ | .loop a _ _ _ | .nextUniform a => [a]
  | .vsetvl _ a b => [a, b]
  | .cld _ a | .cst _ a | .tld _ a => [a]
  | .kpassOpen _ a | .kpassAbort _ a | .kpassStatus _ a => [a]
  | .kpassJoin _ a b | .kpassRun _ a b => [a, b]
  | .hurdleArrive _ a b _ | .hurdleWait _ a b _ | .hurdleAw _ a b _ | .hurdleInit _ a b _ | .qpush _ a b _
  | .wmarkPub _ a b _ | .pubv _ a b => [a, b]
  | .qpop _ a _ _ | .qpeek _ a _ _ | .wmarkBind _ a _ | .wmarkUnbind a | .pubf _ a | .stopr _ a | .refchk _ a
  | .refq _ a _ => [a]
  | .viewNew _ a b | .viewNarrow _ a b => [a, b]
  | .viewSplit _ _ a | .viewTake _ a => [a]
  | .launch _ a | .launchInd _ a | .csrw _ a _ | .csrs _ a _ | .csrc _ a _ | .trace a _ | .tlbiAs a => [a]
  | .tlbiVa a b => [a, b]
  | i => (scalarsOf i).1.toList ++ (scalarsOf i).2.toList

/-- The x registers that an instruction writes. -/
def xWrites : Instr → List XReg
  | .add d _ _ | .sub d _ _ | .and d _ _ | .or d _ _ | .xor d _ _ | .sll d _ _ | .srl d _ _ | .sra d _ _ | .slt d _ _
  | .sltu d _ _ | .min d _ _ | .max d _ _ | .minn d _ _ | .maxn d _ _ | .mul d _ _ | .mulh d _ _ | .mulhn d _ _
  | .div d _ _ | .divn d _ _ | .rem d _ _ | .remn d _ _ => [d]
  | .clz d _ | .ctz d _ | .popc d _ | .addi d _ _ | .andi d _ _ | .ori d _ _ | .xori d _ _ | .slti d _ _ | .sltin d _ _
  | .slli d _ _ | .srli d _ _ | .srai d _ _ | .lih d _ | .pcrel d _ => [d]
  | .ld t _ _ _ _ _ => [t]
  | .amoAdd d _ _ _ _ _ | .amoAnd d _ _ _ _ _ | .amoOr d _ _ _ _ _ | .amoXor d _ _ _ _ _ | .amoMin d _ _ _ _ _
  | .amoMax d _ _ _ _ _ | .amoMinn d _ _ _ _ _ | .amoMaxn d _ _ _ _ _ | .amoSwap d _ _ _ _ _ | .cas d _ _ _ _ _ => [d]
  | .jal d _ | .jalr d _ _ | .vsetvl d _ _ | .vcfg d _ => [d]
  | .kpassOpen d _ | .kpassJoin d _ _ | .kpassRun d _ _ | .kpassAbort d _ | .kpassStatus d _ | .cinfo d _ _ => [d]
  | .hurdleArrive d _ _ _ | .hurdleWait d _ _ _ | .hurdleAw d _ _ _ | .hurdleInit d _ _ _ | .qpush d _ _ _
  | .wmarkPub d _ _ _ | .wmarkBind d _ _ | .pubv d _ _ | .pubf d _ | .stopr d _ | .refchk d _ => [d]
  | .qpop d _ b _ | .qpeek d _ b _ | .refq d _ b => [d, b]
  | .viewQuery _ a b => [a, b]
  | .viewId _ a => [a]
  | .launch d _ | .launchInd d _ | .csrr d _ | .csrw d _ _ | .csrs d _ _ | .csrc d _ _ => [d]
  | i => (xDest i).toList

/-! The other files, and CSRs -/

/-- What an instruction reads of the ciphertext, table and handle registers. -/
def fileReads : Instr → List Res
  | .cst c _ | .cinfo _ c _ => [.c c.toNat]
  | .cadd _ a b | .csub _ a b => [.c a.toNat, .c b.toNat]
  | .cneg _ a | .cmuli _ a _ | .caddp _ a _ | .cmov _ a => [.c a.toNat]
  | .cmac d a _ => [.c d.toNat, .c a.toNat]
  | .crfn d a t => [.c d.toNat, .c a.toNat, .t t.toNat]
  | .viewNarrow h _ _ | .viewSplit _ h _ | .viewDup _ h | .viewDrop h | .viewQuery h _ _ | .viewId h _ => [.h h.toNat]
  | _ => []

/-- What it writes of them. -/
def fileWrites : Instr → List Res
  | .cld c _ => [.c c.toNat]
  | .cadd d _ _ | .csub d _ _ | .cneg d _ | .cmuli d _ _ | .caddp d _ _ | .cmov d _ | .cmac d _ _ | .crfn d _ _ => [.c d.toNat]
  | .tld t _ => [.t t.toNat]
  | .viewNew h _ _ | .viewSplit h _ _ | .viewDup h _ | .viewDrop h | .viewTake h _ => [.h h.toNat]
  | _ => []

/-- The histogram banks of the context; banks 8 to 15 are the cluster's (R130). -/
def ownBank (bank : Nat) : List Res := if bank < 8 then [.hb bank] else []
def bankReads : Instr → List Res
  | .ehistAcc _ bank _ _ => [.hb bank.toNat]
  | .ehistRead _ bank _ => ownBank bank.toNat
  | _ => []
def bankWrites : Instr → List Res
  | .ehistAcc _ bank _ _ => [.hb bank.toNat]
  | .ehistClr bank _ => ownBank bank.toNat
  | _ => []

/-- The registers that a user CSR stands for: a tagw register is its tags (R37); fflags, es and vl never end rewindability
(R149). -/
def csrRes (n : Nat) : List Res :=
  if 0x020 ≤ n ∧ n ≤ 0x025 then (span (12 * (n - 0x020)) (if n < 0x025 then 12 else 4)).map .tag
  else if n = 0x000 ∨ n = 0x003 ∨ n = 0x005 ∨ 0x100 ≤ n then []
  else [.csr n]

/-- The CSRs that an instruction reads, those on which its effect depends among them: a vl that is written is clamped by the VLMAX of
vtype (R42, R43, R149). -/
def csrReads : Instr → List Res
  | .csrr _ n => if n = 0x001 then [.csr 0x002] else csrRes n.toNat
  | .csrs _ _ n | .csrc _ _ n => if n = 0x000 then [.csr 0x002] else csrRes n.toNat
  | .csrw d _ n => if n = 0x000 then [.csr 0x002] else if d = 0 then [] else csrRes n.toNat
  | .vsetvl _ _ b => if b = 0 then [.csr 0x002] else []
  | .vcfg d _ => if d = 0 then [] else [.csr 0x002]
  | .vmvWid _ _ _ => [.csr 0x028]
  | _ => []

def csrWrites : Instr → List Res
  | .csrw _ _ n | .csrs _ _ n | .csrc _ _ n => csrRes n.toNat
  | .vsetvl _ _ b => if b = 0 then [] else [.csr 0x002]
  | .vcfg _ _ => [.csr 0x002]
  | .vtag d _ => [.tag d.toNat]
  | .btnWait _ | .btnPost _ | .btnWaitPost _ => [.csr 0x00F]
  | .sbind _ _ | .sunbind _ => [.csr 0x030]
  | _ => []

/-- What a vector word reads in its decoded form (R26, R149): vtype, its operands' tags, frm under DYN, mq for an m64 word, and
srkey and srep under SR. -/
def decodeReads (x : Ctx) (i : Instr) (sh : Shape) : List Res :=
  let e := entryOf x i sh
  let ops := sh.d.toList ++ sh.a.toList ++ sh.b.toList
  [.csr 0x002] ++ ops.map (fun r => .tag r.toNat) ++ (if rmOf i = some 7 then [.csr 0x004] else []) ++
    (if ops.any (fun r => (x.tag r.toNat).toNat == tM64) then [.csr 0x008] else []) ++
    (if e.rm = 6 then [.csr 0x009, .csr 0x00A] else [])

/-- What an instruction reads, and what it writes (R149). -/
def resReads (x : Ctx) (i : Instr) : List Res :=
  ((xReads i).filter (fun r => r != 0)).map (fun r => .x r.toNat) ++ fileReads i ++ bankReads i ++ csrReads i ++
    match shapeOf i with
    | some sh => (entryOf x i sh).readsV.map .v ++ ((if mkOf i then [0] else []) ++ maskSrcs i).map .m ++ decodeReads x i sh
    | none => []

def resWrites (x : Ctx) (i : Instr) : List Res :=
  ((xWrites i).filter (fun r => r != 0)).map (fun r => .x r.toNat) ++ fileWrites i ++ bankWrites i ++ csrWrites i ++
    match shapeOf i with
    | some sh => (entryOf x i sh).writesV.map .v ++ (maskDest i).toList.map .m
    | none => []

/-- Whether a checkpoint holds a register (R48, R148). -/
def Checkpoint.holds (k : Checkpoint) : Res → Bool
  | .x n => k.whole.isSome || k.ind.any (fun e => e.1 == n)
  | .v n => k.whole.isSome || k.carried.any (fun e => e.1 == n)
  | _ => k.whole.isSome

/-- Instructions that open or close a lap, whose own uses belong to no lap that goes on. -/
def bounds : Instr → Bool
  | .loop _ _ _ _ | .lapend | .lapexit | .nextPerElement _ | .nextUniform _ => true
  | _ => false

/-- The lap after an instruction that read and wrote: a write to a register that the lap read before writing and that its
checkpoint does not hold ends its rewindability, and its buffer is kept (R149). -/
def Lap.note (l : Lap) (reads writes : List Res) : Lap :=
  match l.ckpt with
  | .none => l
  | .some k =>
    if !l.rewindable then l
    else
      let rs := (reads.filter (fun r => !l.writes.contains r && !l.reads.contains r)).eraseDups ++ l.reads
      let ends := writes.any (fun w => rs.contains w && !k.holds w)
      let ws := (writes.filter (fun w => !l.writes.contains w)).eraseDups ++ l.writes
      { l with reads := rs, writes := ws, rewindable := !ends, buffering := l.buffering && !ends }

/-! Interlocks -/

/-- Instructions whose effect closes a lap, returns from a handler, or changes translations: they wait for the context's
vector instructions to retire. -/
def closes : Instr → Bool
  | .loop _ _ _ _ | .lapend | .lapexit | .nextPerElement _ | .nextUniform _ | .eret | .tlbiAs _ | .tlbiVa _ _ | .tlbiAll => true
  | _ => false

/-- Fences and releases, which every earlier access performs before, and what hands data to units outside the context (R177,
R180, R251, R256, R307). -/
def releasesAll : Instr → Bool
  | .fence _ _ | .fenceSc _ | .sbar _ => true
  | .st _ _ _ ord _ => ord != 0
  | .amoAdd _ _ _ o _ _ | .amoAnd _ _ _ o _ _ | .amoOr _ _ _ o _ _ | .amoXor _ _ _ o _ _ | .amoMin _ _ _ o _ _
  | .amoMax _ _ _ o _ _ | .amoMinn _ _ _ o _ _ | .amoMaxn _ _ _ o _ _ | .amoSwap _ _ _ o _ _ | .cas _ _ _ o _ _ => releases o
  | .hurdleArrive _ _ _ _ | .hurdleAw _ _ _ _ | .hurdleInit _ _ _ _ | .qpush _ _ _ _ | .wmarkPub _ _ _ _ | .wmarkUnbind _
  | .pubv _ _ _ | .pubf _ _ | .launch _ _ | .launchInd _ _ | .viewNarrow _ _ _ | .viewDrop _ => true
  | .cadd _ _ _ | .csub _ _ _ | .cneg _ _ | .cmuli _ _ _ | .caddp _ _ _ | .cmov _ _ | .cmac _ _ _ | .crfn _ _ _
  | .kpassOpen _ _ | .kpassJoin _ _ _ | .kpassRun _ _ _ => true
  | _ => false

/-- Scalar accesses, which wait while a card of the context has not been accepted, or while a JSTAT, which acquires, has not read its
card (R200, R218). -/
def scalarAccess : Instr → Bool
  | .ld _ _ _ _ _ _ | .st _ _ _ _ _ | .amoAdd _ _ _ _ _ _ | .amoAnd _ _ _ _ _ _ | .amoOr _ _ _ _ _ _ | .amoXor _ _ _ _ _ _
  | .amoMin _ _ _ _ _ _ | .amoMax _ _ _ _ _ _ | .amoMinn _ _ _ _ _ _ | .amoMaxn _ _ _ _ _ _ | .amoSwap _ _ _ _ _ _
  | .cas _ _ _ _ _ _ | .cld _ _ | .cst _ _ | .tld _ _ | .qpop _ _ _ _ | .qpeek _ _ _ _ | .hurdleWait _ _ _ _
  | .wmarkBind _ _ _ => true
  | _ => false

def isCard : Instr → Bool
  | .tmma _ _ _ _ | .tcvt _ _ _ | .tcopy _ _ _ | .jstat _ _ => true
  | _ => false

/-- The address of a scalar access. -/
def accessAddr (x : Ctx) : Instr → Option Nat
  | .ld _ a off _ _ _ | .st _ a off _ _ => some (x.x a + off.signExtend 64).toNat
  | .amoAdd _ a _ _ _ _ | .amoAnd _ a _ _ _ _ | .amoOr _ a _ _ _ _ | .amoXor _ a _ _ _ _ | .amoMin _ a _ _ _ _
  | .amoMax _ a _ _ _ _ | .amoMinn _ a _ _ _ _ | .amoMaxn _ a _ _ _ _ | .amoSwap _ a _ _ _ _ | .cas _ a _ _ _ _ | .cld _ a
  | .cst _ a | .tld _ a => some (x.x a).toNat
  | _ => none

/-- A scalar access to device-class memory waits for the accesses of the vector queue and of the streams that it uses before it
(R174). -/
def holdsDevice (s : State) (c : Nat) (i : Instr) : Bool :=
  let x := ctxAt s c
  ((x.vx ++ x.vq).any (fun e => vectorAccess e.instr || touchesDevice s c e) || !(deviceStreams s c).isEmpty) && match accessAddr x i with
    | some va => (match decide s (frontAgent s c) .load va with
        | .ok p => p.dev
        | .error _ => match decide s (frontAgent s c) .store va with
          | .ok p => p.dev
          | .error _ => false)
    | none => false

/-- The CSR words that wait for every earlier vector instruction: those of vl, fflags and wfield (R51). -/
def orderedCsr : Instr → Bool
  | .csrr _ n | .csrw _ _ n | .csrs _ _ n | .csrc _ _ n => n == 0x000 || n == 0x003 || n == 0x028
  | _ => false

/-- Words that act under a vl which an MSETVL before them still has to write, or that may clamp it (R43, R51). -/
def usesVl (i : Instr) : Bool := match i with
  | .vsetvl _ _ _ | .vcfg _ _ => true
  | .csrw _ _ n | .csrs _ _ n | .csrc _ _ n => n == 0x000 || n == 0x002
  | i => (shapeOf i).isSome

/-- Words whose groups are legal or not by the bindings that an SBIND or SUNBIND before them still has to make (R25). -/
def usesBindings (i : Instr) : Bool := match shapeOf i with
  | some sh => !(sh.d.toList ++ sh.a.toList ++ sh.b.toList).isEmpty
  | none => false

def isBinding : Instr → Bool
  | .sbind _ _ | .sunbind _ => true
  | _ => false

def isMsetvl : Instr → Bool
  | .msetvl _ _ => true
  | _ => false

/-- The front waits before an instruction: for a register that a vector instruction is still to write (R117), for a vl that is
still to be set, for the order of R51, for bindings, for earlier work, or for room in the vector queue (R25, R163). -/
def holdsFront (x : Ctx) (i : Instr) : Bool :=
  let es := x.vx ++ x.vq
  !es.isEmpty &&
    (closes i || releasesAll i || orderedCsr i ||
     (xReads i ++ xWrites i).any (fun r => r != 0 && es.any (fun e => xDest e.instr == some r)) ||
     (usesVl i && es.any (fun e => isMsetvl e.instr)) ||
     (usesBindings i && es.any (fun e => isBinding e.instr)) ||
     (scalarAccess i && es.any (fun e => isCard e.instr)) ||
     ((shapeOf i).isSome && !queueRoom x))

end Sys2Proof.Machine
end

