-- ==== Sys2Proof/Machine/Turn.lean ====
section
/-! DEFINITION. What a step runs: the event that has come, or, for the context whose turn it is, a stop that is due, the end of
a park, or the instruction at its pc (R80, R135, R139, R161, R249, R273, R276, R324); and what follows every step: the cycles of the
dies and what counts them (R49, R170, R264–R273), waits that are timed (R169), the lap's uses (R149), the trigger sequencers
(R350), and the turn that comes next. -/

namespace Sys2Proof.Machine

/-- What a step is to do: run an instruction or an event, or let time pass. -/
inductive Turn where
  | run (i : Instr) (s : State)
  | pass (s : State)

/-! Fetching -/

/-- A word at its context: the instruction it stands for, or ILLEGAL (R28). -/
def runWord (s : State) (w : BitVec 32) : Turn := match decodeWord w with
  | .ok i =>
    if holdsFront (ctxAt s s.turn) i || holdsDevice s s.turn i then .pass s else .run i { s with signal := .none }
  | .error _ => .run .illegalWord { s with signal := .word w }

/-- The instruction at the pc of the context whose turn it is: a fetch without translation or permission is a fault of the
fetched instruction, a page that is being re-encrypted holds it, and poisoned words fail the lap (R80, R150, R324, R339, R340). -/
def fetchTurn (s : State) : Turn :=
  let c := s.turn
  let a := frontAgent s c
  let pc := (ctxAt s c).pc.toNat
  if walkBusy s a pc then .pass s
  else match decide s a .fetch pc with
  | .error d => .run .fetchFault { noteDenial s a d with signal := .fetch (BitVec.ofNat 8 d.code) }
  | .ok p =>
    if pageBusy s p then .pass s
    else
      let s := noteLeaf s a pc
      match readFinding s p with
      | some .uncorrectable => .pass (consumePoison (recordSector s a pc p .uncorrectable) c 0 pc p .uncorrectable)
      | some .tagFails => .pass (consumePoison (recordSector s a pc p .tagFails) c 0 pc p .tagFails)
      | _ => runWord s (BitVec.ofNat 32 (bytesNat (placeBytes s p 4)))

/-! What a context does at its turn -/

/-- A context can run: it holds a running lap on a cluster that is on and not being scrubbed. -/
def awake (s : State) (c : Nat) : Bool :=
  let k := cluAt s (cluOf c)
  (ctxAt s c).occ == .running && k.power == .on && k.scrub.isNone

/-- A stop that the die or the debugger has asked for, or a yield, that is due: a yield outside a loop, or at the boundary between
two laps (R90, R273, R276, R296; log 94). -/
def dueStop (s : State) (c : Nat) : Option Turn :=
  let x := ctxAt s c
  let ctx : CtxId := BitVec.ofNat 12 c
  if !frontFree x then none
  else if x.stopReq.any (fun t => Nat.ble t (cycleOf s c)) then
    some (if (launchOf s c).any (fun l => l.restop) then
      .run .roundStop { s with signal := .launch (BitVec.ofNat 2 (dieOf c)) (BitVec.ofNat 16 x.work.launch) }
      else .run .contextSave { s with signal := .ctx ctx })
  else if x.halting.isSome then some (.pass (takeHalt s c))
  else if x.mayYield then some (.run .yieldSwitch { s with signal := .ctx ctx })
  else none

/-- A fault that waits for a pointer pair of the program, or that a store stream has met, is due (R139, R189). -/
def faultDue (x : Ctx) : Bool := frontFree x && !x.inHandler && (!x.pend.isEmpty || !(dueStreams x.streams).isEmpty)

/-- A parked context checks what it waits for (R161, R249, R252). -/
def parkedTurn (s : State) (c : Nat) : Turn :=
  let t := { s with signal := .ctx (BitVec.ofNat 12 c) }
  match (ctxAt s c).park with
  | .none => .pass s
  | .wfe until_ woken => if woken then .run .wfeWake t else if until_ ≤ cycleOf s c then .run .wfeTimeout t else .pass s
  | .hurdle _ p until_ _ =>
    if p = passedPhase ∨ (until_ ≥ cycleOf s c ∧ (parkedPhase s c).any (fun q => q != p)) then .run .hurdleRecheck t
    else if until_ < cycleOf s c then .run .hurdleWaitTimeout t
    else .pass s

/-- The turn of a context: what is due at its pointer pair first; then a lap that a boundary has held back starts, its vector queue
goes on as far as it can, and the front executes the instruction at its pc. -/
def contextTurn (s : State) : Turn :=
  let c := s.turn
  if !awake s c then .pass s
  else match (ctxAt s c).stopping with
  | some w => .pass (goOnStop (if 40 < (ctxAt s c).toDump then goQueue s c else s) c w)
  | none => match dueStop s c with
  | some t => t
  | none =>
    let s := startLap s c
    if faultDue (ctxAt s c) then .run .pendingFaultTake { s with signal := .ctx (BitVec.ofNat 12 c) }
    else if (ctxAt s c).park ≠ .none then parkedTurn s c
    else
      let s := goQueue s c
      if awake s c && frontFree (ctxAt s c) && (ctxAt s c).park == .none then fetchTurn s else .pass s

/-! After a step -/

/-- The context of the turn has completed an instruction: its counter or its pc has moved, with no stop. -/
def movedOn (x y : Ctx) : Bool :=
  y.occ == .running && x.stops == y.stops && x.lap.rewinds == y.lap.rewinds && (x.pc != y.pc || x.csr.retired != y.csr.retired)

/-- What follows an instruction of the front (R144, R149, R349, R356): the lap's uses are noted, a step-over is used up, a
retired instruction meets the comparators, and a single step halts again. -/
def afterFront (s t : State) (c : Nat) (i : Instr) : State :=
  let x := ctxAt s c
  if !(movedOn x (ctxAt t c)) then t
  else
    let t := if bounds i || x.work.launch != (ctxAt t c).work.launch then t
      else onLap t c (fun l => l.note (resReads x i) (resWrites x i))
    let t := onCtx t c (fun y => { y with waitsData := false, dumping := false })
    let t := if i ≠ .eret ∧ frontQuiet x ∧ (shapeOf i).isNone then onCtx t c Ctx.endStep else t
    let t := if (shapeOf i).isSome then t
      else noteHits t c 1 (fun a b => a.toNat ≤ x.pc.toNat && x.pc.toNat < b.toNat)
    if x.dbgStep then haltCtx t c 0x44 else t

/-- A BTN. -/
def isBtn : Instr → Bool
  | .btnWait _ | .btnPost _ | .btnWaitPost _ => true
  | _ => false

/-- The oldest unretired instruction of the vector queue waits for a baton, as a BTN (R170). -/
def btnWaits (x : Ctx) : Bool := match x.vx, x.vq with
  | e :: _, _ => isBtn e.instr && !postRoom x e.instr
  | [], e :: _ => isBtn e.instr && !batonReady x e.instr
  | [], [] => false

/-- A memory instruction that returns no data. -/
def onlyStores : Instr → Bool
  | .vst _ _ _ _ _ | .vstS _ _ _ _ _ _ | .vstX _ _ _ _ _ _ | .mst _ _ _ _ _ => true
  | _ => false

/-- The oldest unretired instruction of the vector queue waits for load data, a load stream's entry or a store stream's space (R170). -/
def dataWaits (x : Ctx) : Bool := match x.vx with
  | e :: _ => (e.waits && vectorAccess e.instr && !onlyStores e.instr) ||
      (retireWait x).any (fun w => match w with | .loadEmpty _ => true | _ => false)
  | [] => (headWait x).any (fun w => match w with | .loadEmpty _ | .storeFull _ => true | _ => false)

/-- The front waits for load data, or for a die unit: an admission, or a shootdown (R170). -/
def frontWaits (x : Ctx) : Bool := x.waitsData || match x.fwait with
  | .none => false
  | .admission _ | .shootdown _ => true
  | .domain _ _ _ data => data

/-- The slip class of a context in a cycle: 0 slips, 1 slipv, 2 slipm, 3 slipi (R170). A stop that waits saves a dump, and an ERET that
waits restores one. -/
def slipClass (x : Ctx) : Nat :=
  let front (p : WaitOn → Bool) : Bool := (find? x.waits 0).any (fun w => p w.on)
  if x.park != .none || x.dumping || x.stopping.isSome || btnWaits x ||
      front (fun w => match w with | .batonEmpty _ | .batonFull _ => true | _ => false) then 3
  else if frontWaits x || dataWaits x || front (fun w => match w with | .loadEmpty _ => true | _ => false) then 2
  else if x.vq.isEmpty && x.vx.isEmpty then 0 else 1

/-- n cycles more in the slip counter of a class. -/
def Ctx.slip (x : Ctx) (n : Nat) : Ctx :=
  let w : Word := BitVec.ofNat 64 n
  match slipClass x with
  | 0 => { x with csr := { x.csr with slips := x.csr.slips + w } }
  | 1 => { x with csr := { x.csr with slipv := x.csr.slipv + w } }
  | 2 => { x with csr := { x.csr with slipm := x.csr.slipm + w } }
  | _ => { x with csr := { x.csr with slipi := x.csr.slipi + w } }

/-- The waits of a context's queue are timed from where they began, and end with it (R169). -/
def Ctx.timeWaits (x : Ctx) (now : Nat) : Ctx :=
  let at_ (x : Ctx) (p : Nat) (w : Option WaitOn) : Ctx := match w with
    | some on => x.waitOn p now on
    | none => if (find? x.waits p).isSome then { x with waits := remove x.waits p } else x
  at_ (at_ x 1 (headWait x)) 2 (retireWait x)

/-- A context resident on a cluster (R170). -/
def resident (c : Nat) (x : Ctx) : Bool := Nat.blt c 4096 && x.occ != .free

/-- n cycles pass for every resident context. -/
def tickContexts (s : State) (n : Nat) : State :=
  { s with ctxs := s.ctxs.map (fun e =>
      if resident e.1 e.2 then (e.1, (e.2.timeWaits (cycleOf s e.1)).slip n) else e) }

/-- The contexts of a die that hold a lap of a launch, in recovery or not (R150, R269). -/
def lapsHeld (s : State) (die id : Nat) (recovering : Bool) : Nat :=
  (s.ctxs.filter (fun e => resident e.1 e.2 && dieOf e.1 == die && e.2.work.launch == id &&
    (e.2.lap.rewinds != 0) == recovering)).length

/-- The jobs of a launch of a die that run and pass a test. -/
def jobsRunning (s : State) (die id : Nat) (ok : Job → Bool) : Nat :=
  ((s.clus.filter (fun e => dieOfClu e.1 == die)).map (fun e =>
    (e.2.jobs.filter (fun j => j.launch == id && j.state == 2 && ok j)).length)).foldl (· + ·) 0

/-- A key pass of a launch runs on a member with a retired lane group (R243). -/
def passSlowed (s : State) (die id : Nat) : Bool :=
  (dieAt s die).passes.any (fun e => e.2.launch == id && e.2.state == 2 && e.2.members.any (fun m => groupsRetired s m.clu))

/-- The recovery cycles of a launch in n cycles: laps that execute again after a rewind, jobs that execute
again after a mismatch, and what a retired lane group costs its key passes (R150, R219, R243, R269; log 81). -/
def recovering (s : State) (die id n : Nat) : Nat :=
  n * (lapsHeld s die id true + jobsRunning s die id (fun j => j.retry != 0)) +
  if passSlowed s die id then min n (Config.extraCycles s.steps) else 0

/-- n cycles charged to the launches of a die, in sixteenths of a cluster-cycle: its laps, and its staged inputs; what executes again
counts as recovery (R203, R269, R272). -/
def chargeLaunches (s : State) (die n : Nat) (d : Die) : Die :=
  { d with launches := d.launches.map (fun e => (e.1, { e.2 with
      work := e.2.work + n * (lapsHeld s die e.1 false + 16 * jobsRunning s die e.1 (fun j => j.staged.isSome && j.retry == 0))
      recov := e.2.recov + recovering s die e.1 n })) }

/-- The clusters that a step may have changed: those listed, and those of listed contexts. -/
def touchedClus (s : State) : List Nat :=
  (keys s.clus ++ (s.ctxs.filter (fun e => Nat.blt e.1 4096)).map (fun e => cluOf e.1)).eraseDups

/-- The contexts of a cluster that best-effort laps hold (R270). -/
def bestEffortHeld (s : State) (clu : Nat) : Nat :=
  (s.ctxs.filter (fun e => resident e.1 e.2 && cluOf e.1 == clu && (launchOf s e.1).any (fun l => !isDeadline l.header))).length

/-- The entries of a history that the last 65,536 cycles still need. -/
def trimHistory (lo : Nat) : SMap Nat → SMap Nat
  | a :: b :: r => if b.1 ≤ lo then trimHistory lo (b :: r) else a :: b :: r
  | m => m

/-- A cluster after a step: since when it has been idle, and the best-effort laps it holds (R270, R353). -/
def noteCluster (s : State) (t : State) (clu : Nat) : State :=
  let now := (dieAt s (dieOfClu clu)).cycle
  let n := bestEffortHeld t clu
  let h := (cluAt t clu).beHist
  let t := if cluBusy s clu || cluBusy t clu then onClu t clu (fun x => { x with idle := now }) else t
  if (match h.getLast? with | some e => e.2 | none => 0) = n then t
  else onClu t clu (fun x => { x with beHist := trimHistory (now - 65536) (put x.beHist now n) })

/-- The clusters of launches that have laps to cut (R275). -/
def askedClus (s : State) : List Nat :=
  s.dies.flatMap (fun e => e.2.launches.flatMap (fun l => if l.2.live && Nat.blt l.2.cut l.2.total then l.2.clusters else []))

/-- The sequencers look at what has matched, and their actions are taken at once where no unit defers its work (R350). -/
def lookTriggers (n : Nat) (s : State) (clu : Nat) : State :=
  if (cluAt s clu).trace.hits.isEmpty && (cluAt s clu).trace.due.isEmpty then s
  else
    let s := countTrigger s clu n
    if s.defer then s else fireTrigger s clu

/-- Each resident context meets the comparators of its slip class in every cycle of a step of n (R349). -/
def noteSlips (s : State) (n : Nat) : State :=
  if n = 0 then s else (s.ctxs.filter (fun e => resident e.1 e.2)).foldl (fun s e =>
    noteHits s e.1 4 (fun a _ => a.toNat % 4 == slipClass e.2)) s

/-- How long the other world of a core has had a ready instruction (R166). -/
def timeWorlds (s : State) (n : Nat) : State :=
  if s.defer then
    ((s.ctxs.filter (fun e => resident e.1 e.2)).map (fun e => coreOf e.1)).eraseDups.foldl (fun s k =>
      onCore s k (fun x => { x with otherWaits := if worldReady s k (!x.pipeSecure) then x.otherWaits + n else 0 })) s
  else s

/-- The cycles of a step pass on every die (R3). -/
def tick (s : State) (n : Nat) : State :=
  allDies.foldl (fun t d => onDie t d (fun x => { chargeLaunches s d n x with cycle := x.cycle + n })) s

/-- The turn that comes next. -/
def nextTurn (s : State) : State := match s.turns with
  | c :: r => { s with turn := c, turns := r, steps := s.steps + 1 }
  | [] => { s with steps := s.steps + 1 }

/-- The front's own instruction, of those that a turn runs. -/
def frontOf (i : Instr) : Option Instr := if i.encode.isSome then some i else none

/-- What the spec orders within one cycle takes a cycle at least, so that no two come in one, and they are decided in the order in which
they come: requests at the admission controller, a pass record, a hurdle, a ring, a watermark, a publication record or the interval
engines, the end of a round, and command frames (R243, R256, R267, R303, R316, R366, R369; log 3). -/
def takesCycle : Instr → Bool
  | .launch _ _ | .launchInd _ _ | .kpassOpen _ _ | .kpassJoin _ _ _ | .kpassRun _ _ _ | .kpassAbort _ _ | .kpassStatus _ _
  | .crfn _ _ _ | .hurdleArrive _ _ _ _ | .hurdleWait _ _ _ _ | .hurdleAw _ _ _ _ | .hurdleInit _ _ _ _ | .qpush _ _ _ _
  | .qpop _ _ _ _ | .qpeek _ _ _ _ | .wmarkPub _ _ _ _ | .wmarkBind _ _ _ | .wmarkUnbind _ | .pubv _ _ _ | .pubf _ _ | .stopr _ _
  | .refchk _ _ | .refq _ _ _ | .viewNew _ _ _ | .viewNarrow _ _ _ | .viewSplit _ _ _ | .viewDup _ _ | .viewDrop _
  | .viewQuery _ _ _ | .viewId _ _ | .viewTake _ _ => true
  | .roundEnd | .roundStop | .passFault | .launchCommand | .bind | .write | .read | .status | .lock | .unlock | .lockLeaseExpiry
  | .domainSetRoute | .domainSetExport | .quiesce | .dump | .restore | .unlistedOpcode => true
  | _ => false

/-- A step has accepted jobs, or written a record: those of one cycle are ordered too (R211, R345). -/
def ordersWork (s t : State) : Bool :=
  s.pkg.logCount != t.pkg.logCount || t.clus.any (fun e => (cluAt s e.1).nextJob != e.2.nextJob)

/-- The instruction at the pc of a context. -/
def frontInstr (s : State) (c : Nat) : Option Instr :=
  match decide s (frontAgent s c) .fetch (ctxAt s c).pc.toNat with
  | .ok p => match decodeWord (BitVec.ofNat 32 (bytesNat (placeBytes s p 4))) with
    | .ok i => some i
    | .error _ => none
  | .error _ => none

/-- The fronts whose instruction stood unfinished at a die unit or in the domain, and has been completed there: what follows it (R144,
R149, R349). -/
def afterAnswers (s t : State) : State :=
  (s.ctxs.filter (fun e => e.2.fwait != .none && (ctxAt t e.1).fwait == .none)).foldl (fun t e =>
    match frontInstr s e.1 with
    | some i => afterFront s t e.1 i
    | none => t) t

/-- What follows a step from s that has led to t: `ran` is the instruction or the event that it has executed, if any. -/
def afterStep (s t : State) (ran : Option Instr) : State :=
  let t := match ran.bind frontOf with
    | some i => afterFront s t s.turn i
    | none => afterAnswers s t
  let n := Config.stepCycles s.steps + (ran.any takesCycle || ordersWork s t).toNat
  let ks := touchedClus t
  let t := ks.foldl notePreemptions t
  let t := noteSlips t n
  let t := ks.foldl (lookTriggers n) t
  let t := ks.foldl (fun t k => if (cluAt t k).trace.records.isEmpty then t else drainTrace t k) t
  let t := ks.foldl (noteCluster s) t
  let t := (waitingContexts t).foldl (fun t c => checkBound t n c) t
  let t := (t.clus.map Prod.fst ++ askedClus t).eraseDups.foldl noteAsking t
  answerQuiet (nextTurn (tick (tickContexts (timeWorlds t n) n) n))

/-- The state with the word of an instruction where the next step fetches: the context of turn 0 runs, unparked and with nothing
due, at the first byte of its cluster's scratchpad (log 5). -/
def placeWord (s : State) (w : Nat) : State :=
  let x := ctxAt s 0
  let x := { x with
    pc := BitVec.ofNat 64 ownWindow, occ := .running, park := .none, vq := [], vx := [], pend := [], streams := [],
    fwait := .none, domWait := [], domGot := [], stopping := none, dumping := false, yielding := false, stopReq := none
    between := false, stepOver := none, waitsData := false, readBack := [] }
  let s := onClu (setCtx s 0 x) 0 (fun k => { k with power := .on, scrub := none })
  { s with mem := writeBytes s.mem (padKey 0 0) (natBytes 4 w), turn := 0, agenda := [] }

end Sys2Proof.Machine
end

