-- ==== Sys2Proof/Machine/Step.lean ====
section
/-! DEFINITION. One step of the module (log 3): the first event of the agenda if there is one, else the turn of a context. -/

namespace Sys2Proof.Machine

/-- The event at the head of the agenda: an entry that is no event, or whose signal is not one of that event, is no input the
module has. A frame whose channel still executes a command is held back (R368). -/
def eventStep (i : Instr) (sig : Signal) (s : State) : Host.Outcome State Fault Refusal :=
  if i.accepts sig && sig.legal then
    if frameWaits s sig then .next (afterStep s (holdFrame s i sig) .none) else
    match exec i { s with signal := sig } with
    | .next t => .next (afterStep s t (some i))
    | .fault f => .fault f
    | .refused r => .refused r
  else .refused .notAnEvent

/-- The turn of a context. -/
def turnStep (s : State) : Host.Outcome State Fault Refusal :=
  if Nat.blt s.turn 4096 && ctxOk (BitVec.ofNat 12 s.turn) then
    match contextTurn s with
    | .run i u =>
      match exec i u with
      | .next t => .next (afterStep u t (some i))
      | .fault f => .fault f
      | .refused r => .refused r
    | .pass t => .next (afterStep s t .none)
  else .fault .noSuchContext

/-- One step. -/
def step (s : State) : Host.Outcome State Fault Refusal := match s.agenda with
  | (i, sig) :: rest => eventStep i sig { s with agenda := rest }
  | [] => turnStep s

/-- The state in which the next step fetches and runs the instruction whose bits are w. -/
def State.withFetchWord (s : State) (nbits w : Nat) : State := placeWord s (w % 2 ^ nbits)

end Sys2Proof.Machine
end

