-- ==== Sys2Proof/Safety.lean ====
section
/-! DEFINITION. The terms in which claims are made: what the scalar rules compute, when a context is plain, what a step may
change, and what taking an exception leaves. -/

namespace Sys2Proof.Safety

open Sys2Proof.Machine

/-! States -/

/-- The context whose turn it is. -/
def me (s : State) : Ctx := ctxAt s s.turn

/-- The state in which that context is x, and nothing else is changed. -/
def withMe (s : State) (x : Ctx) : State := setCtx s s.turn x

/-- A context that has gone on to the next word with one more instruction retired (R49). -/
def wentOn (x : Ctx) : Ctx := { x with pc := x.pc + 4, csr := { x.csr with retired := x.csr.retired + 1 } }

/-- A context that has transferred control with one more instruction retired (R49). -/
def wentTo (x : Ctx) (pc : Word) : Ctx := { x with pc := pc, csr := { x.csr with retired := x.csr.retired + 1 } }

/-- Every byte of memory reads as before, and every context but c is as before. -/
def onlyCtx (s t : State) (c : Nat) : Prop := t.mem = s.mem ∧ ∀ k, k ≠ c → ctxAt t k = ctxAt s k

/-- Bytes outside the n from a key on read as before. -/
def elsewhere (s t : State) (key n : Nat) : Prop := ∀ a, a < key ∨ key + n ≤ a → readByte t.mem a = readByte s.mem a

/-! What the scalar rules compute -/

/-- 1 for a condition that holds, else 0. -/
def oneIf (b : Bool) : Word := if b then 1 else 0

/-- The results of R73 and R74: the destination and the value, from the registers' values. -/
def aluResult (x : XReg → Word) : Instr → Option (XReg × Word)
  | .add d a b => some (d, BitVec.ofNat 64 ((x a).toNat + (x b).toNat))
  | .sub d a b => some (d, BitVec.ofInt 64 ((x a).toInt - (x b).toInt))
  | .and d a b => some (d, x a &&& x b)
  | .or d a b => some (d, x a ||| x b)
  | .xor d a b => some (d, x a ^^^ x b)
  | .sll d a b => some (d, x a <<< ((x b).toNat % 64))
  | .srl d a b => some (d, BitVec.ofNat 64 ((x a).toNat / 2 ^ ((x b).toNat % 64)))
  | .sra d a b => some (d, BitVec.ofInt 64 ((x a).toInt / 2 ^ ((x b).toNat % 64)))
  | .slt d a b => some (d, oneIf ((x a).toInt < (x b).toInt))
  | .sltu d a b => some (d, oneIf ((x a).toNat < (x b).toNat))
  | .min d a b => some (d, BitVec.ofInt 64 (min (x a).toInt (x b).toInt))
  | .max d a b => some (d, BitVec.ofInt 64 (max (x a).toInt (x b).toInt))
  | .minn d a b => some (d, BitVec.ofNat 64 (min (x a).toNat (x b).toNat))
  | .maxn d a b => some (d, BitVec.ofNat 64 (max (x a).toNat (x b).toNat))
  | .mul d a b => some (d, BitVec.ofNat 64 ((x a).toNat * (x b).toNat))
  | .mulh d a b => some (d, BitVec.ofInt 64 ((x a).toInt * (x b).toInt / 2 ^ 64))
  | .mulhn d a b => some (d, BitVec.ofNat 64 ((x a).toNat * (x b).toNat / 2 ^ 64))
  | .div d a b => some (d, if x b = 0 then 0xFFFFFFFFFFFFFFFF else BitVec.ofInt 64 ((x a).toInt.tdiv (x b).toInt))
  | .divn d a b => some (d, if x b = 0 then 0xFFFFFFFFFFFFFFFF else BitVec.ofNat 64 ((x a).toNat / (x b).toNat))
  | .rem d a b => some (d, if x b = 0 then x a else BitVec.ofInt 64 ((x a).toInt.tmod (x b).toInt))
  | .remn d a b => some (d, if x b = 0 then x a else BitVec.ofNat 64 ((x a).toNat % (x b).toNat))
  | .clz d a => some (d, BitVec.ofNat 64 (64 - (x a).toNat.size))
  | .ctz d a => some (d, BitVec.ofNat 64 (((List.range 64).find? (fun k => (x a).getLsbD k)).getD 64))
  | .popc d a => some (d, BitVec.ofNat 64 ((List.range 64).countP (fun k => (x a).getLsbD k)))
  | _ => none

/-- The results of R75 and R76, from the registers' values and the pc. -/
def immResult (x : XReg → Word) (pc : Word) : Instr → Option (XReg × Word)
  | .addi d a i => some (d, BitVec.ofInt 64 ((x a).toInt + i.toInt))
  | .andi d a i => some (d, x a &&& BitVec.ofInt 64 i.toInt)
  | .ori d a i => some (d, x a ||| BitVec.ofInt 64 i.toInt)
  | .xori d a i => some (d, x a ^^^ BitVec.ofInt 64 i.toInt)
  | .slti d a i => some (d, oneIf ((x a).toInt < i.toInt))
  | .sltin d a i => some (d, oneIf ((x a).toNat < (BitVec.ofInt 64 i.toInt).toNat))
  | .slli d a sh => some (d, BitVec.ofNat 64 ((x a).toNat * 2 ^ sh.toNat))
  | .srli d a sh => some (d, BitVec.ofNat 64 ((x a).toNat / 2 ^ sh.toNat))
  | .srai d a sh => some (d, BitVec.ofInt 64 ((x a).toInt / 2 ^ sh.toNat))
  | .lih d i => some (d, BitVec.ofInt 64 (i.toInt * 2 ^ 15))
  | .pcrel d i => some (d, pc + BitVec.ofInt 64 (i.toInt * 2 ^ 15))
  | _ => none

/-- The conditions of R78, with the offset in words. -/
def branch (x : XReg → Word) : Instr → Option (Bool × BitVec 12)
  | .brEq a b o => some (x a == x b, o)
  | .brNe a b o => some (x a != x b, o)
  | .brLt a b o => some ((x a).toInt < (x b).toInt, o)
  | .brGe a b o => some ((x b).toInt ≤ (x a).toInt, o)
  | .brLtn a b o => some ((x a).toNat < (x b).toNat, o)
  | .brGen a b o => some ((x b).toNat ≤ (x a).toNat, o)
  | _ => none

/-- A distance of words, in bytes (R78, R79). -/
def wordsOff {n : Nat} (o : BitVec n) : Word := BitVec.ofInt 64 (o.toInt * 4)

/-! Exceptions -/

/-- A context of a plain program point: running inside a lap, with nothing in its vector queue, no stream, no held values, not parked,
and no fault or stop that waits. -/
abbrev plain (x : Ctx) : Prop :=
  x.occ = .running ∧ x.vx = [] ∧ x.vq = [] ∧ x.streams = [] ∧ x.held = none ∧ x.park = .none ∧ x.pend = [] ∧ x.between = false ∧
  x.stopping = none

/-- Memory in which every sector, row and scale reads clean, under the key of its owner (R59, R338, R339). -/
abbrev cleanMemory (s : State) : Prop := s.pkg.sectors = [] ∧ s.pkg.seals = [] ∧ s.pkg.badScales = []

/-- The level that handles a stop of a context (R136): the higher of the front's and K, or M in the secure world; of WCALL the higher
of the front's and H. -/
def handlingLevel (x : Ctx) (call : Bool) : Level := match x.level with
  | .m => .m
  | .h => if x.secure && !call then .m else .h
  | _ => if call then .h else if x.secure then .m else .k

/-- A fault that is taken at a plain point of a context: the trap CSRs of the handling level hold its cause, value, both pointers,
es and the level and queue length it came from; a step-over has ended (R144); the front stands at the vector base at that level;
every register of R35, every other flag and CSR, the other levels' trap CSRs, memory and every other context are as before
(R135–R138). -/
def took (s t : State) (code : Nat) (val : Word) (call : Bool) : Prop :=
  let x := (me s).endStep
  let l := handlingLevel x call
  let tr := x.trap l
  onlyCtx s t s.turn ∧
  ctxAt t s.turn = { x.setTrap l { tr with
      cause := BitVec.ofNat 64 (code + if call then 2 ^ 10 else 0), val := val, pc := x.pc, cp := x.pc
      es := BitVec.ofNat 15 x.csr.es
      stat := BitVec.ofNat 64 (x.level.num + (if x.loop.active then 2 ^ 5 else 0) + (if x.lap.rewindable then 2 ^ 6 else 0)) } with
    level := l, pc := tr.vec, inHandler := true, waits := [], waitsData := false, dumping := false, readBack := [],
    domWait := remove x.domWait 1, domGot := remove x.domGot 1, stopping := none, stops := x.stops + 1 }

/-! Scalar memory -/

/-- What the context whose turn it is has sent to other parts of the domain has performed (R290). -/
abbrev settled (s : State) : Prop := domainPending s s.turn = false

/-- The batons of a context stand in their queues alone: none is in a reserve entry, and none is owed (R168, R169). -/
abbrev plainBatons (x : Ctx) : Prop := x.reserve = [] ∧ x.owed = []

/-- A scalar access of n bytes that the rules allow to perform at a place whose sector reads clean, in memory that is not of the
device class (R139, R172, R173, R324, R339). -/
abbrev mayAccess (s : State) (acc : Acc) (va n : Nat) (p : Place) : Prop :=
  reach s s.turn (frontAgent s s.turn) acc va n n true (frontQuiet (me s)) = .ok p ∧ sectorState s p = none ∧ p.dev = false ∧
  p.raw = false

/-- A context whose lap buffers no store, and holds none (R148, R149). -/
abbrev unbuffered (x : Ctx) : Prop := x.lap.buffering = false ∧ x.lap.buf = []

/-- A lap that can no longer be rewound, with its stores no longer held (R149). -/
def unrewindable (x : Ctx) : Ctx := { x with lap := { x.lap with buf := [], rewindable := false, buffering := false } }

/-- The low n bytes of a word, as a number. -/
def lowBytes (n : Nat) (w : Word) : Nat := w.toNat % 2 ^ (8 * n)

/-- A number of n bytes, sign-extended to a word. -/
def signExtended (n v : Nat) : Word := BitVec.ofInt 64 (if v < 2 ^ (8 * n - 1) then (v : Int) else (v : Int) - 2 ^ (8 * n))

/-- The lesser or the greater of two numbers of n bytes under signed comparison. -/
def signedLeast (n a b : Nat) : Nat := if (signExtended n a).toInt ≤ (signExtended n b).toInt then a else b
def signedGreatest (n a b : Nat) : Nat := if (signExtended n a).toInt ≤ (signExtended n b).toInt then b else a

/-- The atomics of R178: the registers d, a and b, the bytes, and the new value from the old one and the operand. -/
def atomicRule (x : XReg → Word) : Instr → Option (XReg × XReg × Nat × (Nat → Nat))
  | .amoAdd d a b _ _ w => let n := if w then 8 else 4; some (d, a, n, fun o => (o + lowBytes n (x b)) % 2 ^ (8 * n))
  | .amoAnd d a b _ _ w => let n := if w then 8 else 4; some (d, a, n, fun o => o &&& lowBytes n (x b))
  | .amoOr d a b _ _ w => let n := if w then 8 else 4; some (d, a, n, fun o => o ||| lowBytes n (x b))
  | .amoXor d a b _ _ w => let n := if w then 8 else 4; some (d, a, n, fun o => o ^^^ lowBytes n (x b))
  | .amoMin d a b _ _ w => let n := if w then 8 else 4; some (d, a, n, fun o => signedLeast n o (lowBytes n (x b)))
  | .amoMax d a b _ _ w => let n := if w then 8 else 4; some (d, a, n, fun o => signedGreatest n o (lowBytes n (x b)))
  | .amoMinn d a b _ _ w => let n := if w then 8 else 4; some (d, a, n, fun o => min o (lowBytes n (x b)))
  | .amoMaxn d a b _ _ w => let n := if w then 8 else 4; some (d, a, n, fun o => max o (lowBytes n (x b)))
  | .amoSwap d a b _ _ w => let n := if w then 8 else 4; some (d, a, n, fun _ => lowBytes n (x b))
  | .cas d a b _ _ w => let n := if w then 8 else 4
      some (d, a, n, fun o => if o = lowBytes n (x d) then lowBytes n (x b) else o)
  | _ => none

/-- The address and width of a scalar access that must be aligned (R173, R176, R178). -/
def accessOf (x : XReg → Word) : Instr → Option (Word × Nat)
  | .ld _ a o _ sz _ => some (x a + BitVec.ofInt 64 o.toInt, 2 ^ sz.toNat)
  | .st _ a o _ sz => some (x a + BitVec.ofInt 64 o.toInt, 2 ^ sz.toNat)
  | i => (atomicRule x i).map (fun r => (x r.2.1, r.2.2.1))

/-- No job of the cluster, comparator, or key pass of the die has anything to do. -/
abbrev noUnits (s : State) : Prop :=
  (cluAt s (cluOf s.turn)).jobs = [] ∧ (cluAt s (cluOf s.turn)).trace.cmpk = [] ∧ (dieAt s (dieOf s.turn)).passes = []

/-! System instructions -/

/-- The grant of debug authority over its world that a form of a trace or debug CSR needs is there (R349, R356). -/
def granted (s : State) (n : Nat) (writes : Bool) : Prop :=
  n < 0x200 ∨ 0x280 ≤ n ∨ (if writes ∧ n = 0x262 then 2 else 1) ≤ grantOf s (me s).secure

/-- What a CSR of H or M, or a trace or debug CSR, reads after a value has been written to it, by its table; none where the write does
more than that, as a command of hasctl, mkeycmd, hfence or dbgreq, the start of capture, or a table of the package that another
register indexes (R137, R333, R335, R340, R346, R349, R356). -/
def unitCsrAfter (s : State) (n : Nat) (v : Word) : Option Word :=
  let t := (cluAt s (cluOf s.turn)).trace
  let old := csrRead s s.turn n
  if 0x208 ≤ n ∧ n ≤ 0x217 then some v
  else if 0x218 ≤ n ∧ n ≤ 0x21F then some (if 5 ≤ v.toNat % 8 then old else v &&& 0xFFFF07)
  else if 0x220 ≤ n ∧ n ≤ 0x223 then some (if 5 ≤ v.toNat / 2 ^ 7 % 8 then old else v &&& 0xFFF)
  else match n with
  | 0x10B => some (v &&& 0xFFFFFFFFFFFFFFC0)
  | 0x10C => some (v &&& 0xFFFFFFFFFFFFFFFC)
  | 0x10D => some (v &&& 0xFFFFFFFFFFC00000)
  | 0x189 => some (v &&& 0x3F)
  | 0x18A | 0x18B => some (v &&& 0xFFFFFFFFC000)
  | 0x18D => some (v &&& 0xFFFFFFE00000)
  | 0x191 | 0x1E0 => some (v &&& 0x1FFF)
  | 0x1C9 => some (v &&& 0xFF)
  | 0x1CA | 0x1CB => some (v &&& 0xFFFFFFFFF000)
  | 0x1CC => some (if s.pkg.mregsel.toNat < 2 then old else v &&& 0x800000000003FFFF)
  | 0x1CD => some (v &&& 0xFFF)
  | 0x200 => if v.getLsbD 0 = true ∧ t.ctl.getLsbD 0 = false then none else some (v &&& 0x3F)
  | 0x224 | 0x225 => some (v &&& 0xFFFFFFFF)
  | 0x240 => some (v &&& 0xFFFFFFFFF000)
  | 0x241 => some (v &&& 0xFFFFF000)
  | 0x262 => some (v &&& 1)
  | _ => none

/-- What a CSR reads after a value has been written to it (R37, R40, R43, R47, R49, R137): the user CSRs that programs write and the
trap CSRs of the three levels. -/
def csrAfter (x : Ctx) (groups n : Nat) (v : Word) : Option Word :=
  if 0x018 ≤ n ∧ n ≤ 0x01F then some v
  else if 0x020 ≤ n ∧ n ≤ 0x024 then some (v &&& 0x0FFFFFFFFFFFFFFF)
  else match n with
  | 0x000 => some (BitVec.ofNat 64 (min v.toNat (vlmaxOf x.csr.vtype groups)))
  | 0x002 => some (if v.toNat < 2 ^ 17 ∧ v.toNat / 64 % 8 ≠ 0 ∧ v.toNat / 4 % 8 ≤ 4 then v else x.csr.vtype.setWidth 64)
  | 0x003 => some (v &&& 0x1F)
  | 0x004 => some (if v &&& 7 = 7 then 0 else v &&& 7)
  | 0x005 => some (v &&& 0x7FFF)
  | 0x008 => some (v ||| 1)
  | 0x009 => some v
  | 0x00A => some v
  | 0x025 => some (v &&& 0xFFFFF)
  | 0x028 => some (if v &&& 7 = 6 then x.csr.wfield.setWidth 64 else v &&& 7)
  | 0x100 | 0x180 | 0x1C0 => some (v &&& 0xFFFFFFFFFFFFFFFC)
  | 0x101 | 0x181 | 0x1C1 => some (v &&& 0x5FF)
  | 0x102 | 0x182 | 0x1C2 => some v
  | 0x103 | 0x183 | 0x1C3 => some (v &&& 0xFFFFFFFFFFFFFFFC)
  | 0x104 | 0x184 | 0x1C4 => some (v &&& 0xFFFFFFFFFFFFFFFC)
  | 0x105 | 0x185 | 0x1C5 => some (v &&& 0x7FFF)
  | 0x106 | 0x186 | 0x1C6 => some (v &&& 0xFF00E3)
  | 0x107 | 0x187 | 0x1C7 => some v
  | 0x108 | 0x188 | 0x1C8 => some (v &&& 0xFFFFFFFFFFFFFFC0)
  | _ => none

/-- The least level that may reach a CSR (R29). -/
def leastLevel (n : Nat) : Level :=
  if n < 0x100 then .u else if n < 0x180 then .k else if n < 0x1C0 then .h else if n < 0x200 then .m else .k

/-- A front stands below a level, or in the N world before a form of M (R29). -/
def below (x : Ctx) (l : Level) : Bool := Nat.blt x.level.num l.num || (l == .m && !x.secure)

/-- The privileged forms of R29 with the level that each needs. -/
def privilegedForm : Instr → Option Level
  | .csrr _ n | .csrw _ _ n | .csrs _ _ n | .csrc _ _ n => some (leastLevel n.toNat)
  | .wcall _ | .eret | .tlbiAs _ | .tlbiVa _ _ | .tlbiAll => some .k
  | _ => none

/-! Vector instructions -/

/-- An instruction of the vector queue that computes on the registers of its context alone, in the vector unit (R163): no baton
moves with it, and it neither hands a card over nor reads one. -/
def computes (i : Instr) : Bool :=
  (shapeOf i).isSome && !accessEngine i && (batonWait i).isNone && (batonPost i).isNone && !(i matches .tmma .. | .tcvt .. |
    .tcopy .. | .jstat ..)

/-- An instruction of the vector queue that the front can issue and the units can run to its end at once: a plain point, legal tags
and groups (R25), and, for the vector unit, a lane group in service and no instruction of another world in the pipeline (R42, R163,
R166). -/
abbrev vectorReady (s : State) (i : Instr) (sh : Shape) : Prop :=
  plain (me s) ∧ shapeOf i = some sh ∧ s.defer = false ∧
  sh.typeOk (me s) (me s).csr.vtype (tagOr (me s) sh.d) (tagOr (me s) sh.a) (tagOr (me s) sh.b) = true ∧
  (accessEngine i = true ∨ (0 < (coreAt s (coreOf s.turn)).groups ∧
    ((coreAt s (coreOf s.turn)).pipeSecure = (me s).secure ∨
      pipeHolds s (coreOf s.turn) (coreAt s (coreOf s.turn)).pipeSecure = false)))

/-- A word of VBFLY.H.f, which stays with its run: it retires when the run ends (R126). -/
def staysInRun (i : Instr) : Bool := i matches .vbflyHF ..

/-- vl as VLMAX bounds it (R43). -/
abbrev vlBounded (x : Ctx) : Prop := x.vl ≤ vlmaxOf x.csr.vtype 8

/-- The tag of a register, its elements' width, and its elements as patterns, integers and residues (R23, R54, R60). -/
def tagOf (x : Ctx) (r : VNum) : Tag := (x.tag r.toNat).toNat
def widthOf (x : Ctx) (r : VNum) : Nat := tagWidth (tagOf x r)
def bitsAt (x : Ctx) (r : VNum) (k : Nat) : Nat := elem x r.toNat (widthOf x r) k
def intAt (x : Ctx) (r : VNum) (k : Nat) : Int :=
  if isSigned (tagOf x r) then (BitVec.ofNat (widthOf x r) (bitsAt x r k)).toInt else bitsAt x r k
def resAt (x : Ctx) (r : VNum) (k : Nat) : Nat := bitsAt x r k % x.csr.mq.toNat

/-- The scalar of VX in the tag of va, as a pattern and as an integer: xr's low bits, or the immediate (R110). -/
def scalarPattern (x : Ctx) (a : VNum) (r : BitVec 5) (sel : Bool) : Nat :=
  (if sel then r.signExtend (widthOf x a) else (x.x r).setWidth (widthOf x a)).toNat
def scalarAt (x : Ctx) (a : VNum) (r : BitVec 5) (sel : Bool) : Int :=
  if isSigned (tagOf x a) then (BitVec.ofNat (widthOf x a) (scalarPattern x a r sel)).toInt else scalarPattern x a r sel

/-- An exact integer in the tag of a register: its low bits, or clamped into the tag's range (R61, R99). -/
def wrapped (x : Ctx) (d : VNum) (z : Int) : Nat := (z % 2 ^ widthOf x d).toNat
def clamped (x : Ctx) (d : VNum) (z : Int) : Nat :=
  wrapped x d (if isSigned (tagOf x d) then max (-2 ^ (widthOf x d - 1)) (min (2 ^ (widthOf x d - 1) - 1) z)
    else max 0 (min (2 ^ widthOf x d - 1) z))

/-- The width of the promoted type of two integer tags: the wider of two of one signedness, else the signed one where it is the wider
and twice the unsigned one where it is not (R61). -/
def promotedWidth (x : Ctx) (a b : VNum) : Nat := tagWidth ((promote (tagOf x a) (tagOf x b)).getD 0)

/-- The number of set bits of a mask register below a position. -/
def setBelow (m : VReg) (k : Nat) : Nat := (List.range k).countP (fun j => m.getLsbD j)

/-- What the element functions on integers, patterns and residues put at a position: the destination, the mask gate, and the bits,
none where the position is left alone (R99–R103, R105, R106, R109, R110, R120, R121, R123, R125, R127–R129). -/
def elementRule (x : Ctx) (i : Instr) : Option (VNum × Bool × (Nat → Option Nat)) :=
  let n := x.vl
  let ints (d a b : VNum) : Bool := isInt (tagOf x d) && isInt (tagOf x a) && isInt (tagOf x b)
  let ifInts (d a b : VNum) (k : Bool) (f : Nat → Nat) : Option (VNum × Bool × (Nat → Option Nat)) :=
    if ints d a b then some (d, k, fun j => some (f j)) else none
  match i with
  | .vadd d a b _ k => ifInts d a b k (fun j => wrapped x d (intAt x a j + intAt x b j))
  | .vaddSub d a b _ k => ifInts d a b k (fun j => wrapped x d (intAt x a j - intAt x b j))
  | .vaddRsub d a b _ k => ifInts d a b k (fun j => wrapped x d (intAt x b j - intAt x a j))
  | .vaddAdds d a b _ k => ifInts d a b k (fun j => clamped x d (intAt x a j + intAt x b j))
  | .vaddSubs d a b _ k => ifInts d a b k (fun j => clamped x d (intAt x a j - intAt x b j))
  | .vaddAbsd d a b _ k => ifInts d a b k (fun j => wrapped x d (intAt x a j - intAt x b j).natAbs)
  | .vmul d a b _ k => ifInts d a b k (fun j => wrapped x d (intAt x a j * intAt x b j))
  | .vmulMulh d a b _ k => ifInts d a b k (fun j => wrapped x d (intAt x a j * intAt x b j / 2 ^ promotedWidth x a b))
  | .vmulMulhn d a b _ k => ifInts d a b k (fun j => wrapped x d (bitsAt x a j * bitsAt x b j / 2 ^ promotedWidth x a b))
  | .vmulDiv d a b _ k => ifInts d a b k (fun j =>
      wrapped x d (if intAt x b j = 0 then -1 else (intAt x a j).tdiv (intAt x b j)))
  | .vmulRem d a b _ k => ifInts d a b k (fun j =>
      wrapped x d (if intAt x b j = 0 then intAt x a j else (intAt x a j).tmod (intAt x b j)))
  | .vfma d a b _ k => ifInts d a b k (fun j => wrapped x d (intAt x a j * intAt x b j + intAt x d j))
  | .vfmaFms d a b _ k => ifInts d a b k (fun j => wrapped x d (intAt x a j * intAt x b j - intAt x d j))
  | .vfmaFnma d a b _ k => ifInts d a b k (fun j => wrapped x d (-(intAt x a j * intAt x b j) - intAt x d j))
  | .vfmaFnms d a b _ k => ifInts d a b k (fun j => wrapped x d (intAt x d j - intAt x a j * intAt x b j))
  | .vminmaxMin d a b _ k | .vminmaxMinnum d a b _ k => ifInts d a b k (fun j => wrapped x d (min (intAt x a j) (intAt x b j)))
  | .vminmaxMax d a b _ k | .vminmaxMaxnum d a b _ k => ifInts d a b k (fun j => wrapped x d (max (intAt x a j) (intAt x b j)))
  | .vlogicAnd d a b _ k => some (d, k, fun j => some (bitsAt x a j &&& bitsAt x b j))
  | .vlogicOr d a b _ k => some (d, k, fun j => some (bitsAt x a j ||| bitsAt x b j))
  | .vlogicXor d a b _ k => some (d, k, fun j => some (bitsAt x a j ^^^ bitsAt x b j))
  | .vlogicAndn d a b _ k => some (d, k, fun j =>
      some (BitVec.ofNat (widthOf x d) (bitsAt x a j) &&& ~~~ BitVec.ofNat (widthOf x d) (bitsAt x b j)).toNat)
  | .vlogicSll d a b _ k => some (d, k, fun j =>
      some (wrapped x d (bitsAt x a j * 2 ^ (intAt x b j % widthOf x d).toNat)))
  | .vlogicSrl d a b _ k => some (d, k, fun j =>
      some (wrapped x d (bitsAt x a j / 2 ^ (intAt x b j % widthOf x d).toNat)))
  | .vlogicSra d a b _ k => some (d, k, fun j =>
      some (wrapped x d ((BitVec.ofNat (widthOf x d) (bitsAt x a j)).toInt / 2 ^ (intAt x b j % widthOf x d).toNat)))
  | .vsel d a b _ => ifInts d a b false (fun j => wrapped x d (if (x.m 0).getLsbD j then intAt x a j else intAt x b j))
  | .vcvt d a _ k => ifInts d a a k (fun j => wrapped x d (intAt x a j))
  | .vcvtSat d a _ k => ifInts d a a k (fun j => clamped x d (intAt x a j))
  | .vmodAddm d a b _ k => some (d, k, fun j => some ((resAt x a j + resAt x b j) % x.csr.mq.toNat))
  | .vmodSubm d a b _ k => some (d, k, fun j => some (((resAt x a j : Int) - resAt x b j) % x.csr.mq.toNat).toNat)
  | .vmodMulm d a b _ k => some (d, k, fun j => some (resAt x a j * resAt x b j % x.csr.mq.toNat))
  | .vmodMacm d a b _ k => some (d, k, fun j => some ((resAt x d j + resAt x a j * resAt x b j) % x.csr.mq.toNat))
  | .vxAdd d a r sel _ k => ifInts d a a k (fun j => wrapped x d (intAt x a j + scalarAt x a r sel))
  | .vxSub d a r sel _ k => ifInts d a a k (fun j => wrapped x d (intAt x a j - scalarAt x a r sel))
  | .vxMul d a r sel _ k => ifInts d a a k (fun j => wrapped x d (intAt x a j * scalarAt x a r sel))
  | .vxMin d a r sel _ k => ifInts d a a k (fun j => wrapped x d (min (intAt x a j) (scalarAt x a r sel)))
  | .vxMax d a r sel _ k => ifInts d a a k (fun j => wrapped x d (max (intAt x a j) (scalarAt x a r sel)))
  | .vxFma d a r sel _ k => ifInts d a a k (fun j => wrapped x d (intAt x a j * scalarAt x a r sel + intAt x d j))
  | .vxAnd d a r sel _ k => ifInts d a a k (fun j => bitsAt x a j &&& scalarPattern x a r sel)
  | .vxOr d a r sel _ k => ifInts d a a k (fun j => bitsAt x a j ||| scalarPattern x a r sel)
  | .vslideUp d a r sel _ k => some (d, k, fun j =>
      let by_ := if sel then r.toNat else (x.x r).toNat
      if by_ ≤ j then some (bitsAt x a (j - by_)) else none)
  | .vslideDown d a r sel _ k => some (d, k, fun j =>
      let by_ := if sel then r.toNat else (x.x r).toNat
      some (if j + by_ < n then bitsAt x a (j + by_) else 0))
  | .vslideRot d a r sel _ k => some (d, k, fun j =>
      some (bitsAt x a ((j + if sel then r.toNat else (x.x r).toNat) % n)))
  | .vperm d a b _ k => some (d, k, fun j => some (if bitsAt x b j < n then bitsAt x a (bitsAt x b j) else 0))
  | .vcompExpand d a _ => some (d, false, fun j =>
      if (x.m 0).getLsbD j then some (bitsAt x a (setBelow (x.m 0) j)) else none)
  | .vcompIota d a _ k => some (d, k, fun j => some (wrapped x d (setBelow (x.m a.toNat) j)))
  | .vbflyCt d a b e => some (d, false, fun j =>
      let p := j ^^^ 2 ^ e.toNat
      let w := resAt x b (min j p / 2 ^ (e.toNat + 1))
      let u : Int := resAt x a (min j p)
      let t : Int := w * resAt x a (max j p)
      some (if n ≤ p then bitsAt x a j else ((if j < p then u + t else u - t) % x.csr.mq.toNat).toNat))
  | .vbflyGs d a b e => some (d, false, fun j =>
      let p := j ^^^ 2 ^ e.toNat
      let w := resAt x b (min j p / 2 ^ (e.toNat + 1))
      let u : Int := resAt x a (min j p)
      let t : Int := resAt x a (max j p)
      some (if n ≤ p then bitsAt x a j else ((if j < p then u + t else (u - t) * w) % x.csr.mq.toNat).toNat))
  | .vmv d a _ k => some (d, k, fun j => some (bitsAt x a j))
  | .vmvBcast d r sel _ k => if isInt (tagOf x d) then some (d, k, fun _ => some (scalarPattern x d r sel)) else none
  | .vmvWid d _ k => some (d, k, fun j => some (wrapped x d
      (if x.csr.wfield = 7 then widAt x j else widField x.work.fieldW x.csr.wfield.toNat (widAt x j) : Nat)))
  | _ => none

/-- What the comparisons on integers and the mask functions put at a bit (R104, R132). -/
def maskRule (x : Ctx) (i : Instr) : Option (MNum × Bool × (Nat → Bool)) :=
  let ints (a b : VNum) (k : Bool) (d : MNum) (f : Nat → Bool) : Option (MNum × Bool × (Nat → Bool)) :=
    if isInt (tagOf x a) && isInt (tagOf x b) then some (d, k, f) else none
  match i with
  | .vcmpEq d a b _ k => if tagOf x a = tM64 then some (d, k, fun j => resAt x a j == resAt x b j)
      else ints a b k d (fun j => intAt x a j == intAt x b j)
  | .vcmpNe d a b _ k => if tagOf x a = tM64 then some (d, k, fun j => resAt x a j != resAt x b j)
      else ints a b k d (fun j => intAt x a j != intAt x b j)
  | .vcmpLt d a b _ k => ints a b k d (fun j => intAt x a j < intAt x b j)
  | .vcmpLe d a b _ k => ints a b k d (fun j => intAt x a j ≤ intAt x b j)
  | .vcmpGt d a b _ k => ints a b k d (fun j => intAt x b j < intAt x a j)
  | .vcmpGe d a b _ k => ints a b k d (fun j => intAt x b j ≤ intAt x a j)
  | .vcmpUnord d a b _ k => ints a b k d (fun _ => false)
  | .mlogAnd d a b => some (d, false, fun j => (x.m a.toNat).getLsbD j && (x.m b.toNat).getLsbD j)
  | .mlogOr d a b => some (d, false, fun j => (x.m a.toNat).getLsbD j || (x.m b.toNat).getLsbD j)
  | .mlogXor d a b => some (d, false, fun j => xor ((x.m a.toNat).getLsbD j) ((x.m b.toNat).getLsbD j))
  | .mlogAndn d a b => some (d, false, fun j => (x.m a.toNat).getLsbD j && !(x.m b.toNat).getLsbD j)
  | .mlogOrn d a b => some (d, false, fun j => (x.m a.toNat).getLsbD j || !(x.m b.toNat).getLsbD j)
  | .mlogXnor d a b => some (d, false, fun j => !xor ((x.m a.toNat).getLsbD j) ((x.m b.toNat).getLsbD j))
  | .mlogNot d a => some (d, false, fun j => !(x.m a.toNat).getLsbD j)
  | .mmv d a => some (d, false, fun j => (x.m a.toNat).getLsbD j)
  | .mmvSet d => some (d, false, fun _ => true)
  | .mmvClr d => some (d, false, fun _ => false)
  | _ => none

/-- What the reductions of integers leave in element 0, from the active elements (R69, R119). -/
def reductionRule (x : Ctx) (act : List Nat) (i : Instr) : Option (VNum × Nat) :=
  let p (d a : VNum) : Tag := (promote (tagOf x a) (tagOf x d)).getD 0
  let w (d a : VNum) : Nat := tagWidth (p d a)
  let ints (d a : VNum) (v : Nat) : Option (VNum × Nat) :=
    if isInt (tagOf x d) && isInt (tagOf x a) then some (d, v) else none
  match i with
  | .vredSum d a _ _ => ints d a (wrapped x d (act.map (intAt x a)).sum)
  | .vredMin d a _ _ => ints d a (wrapped x d ((act.map (intAt x a)).foldr min
      (if isSigned (p d a) then 2 ^ (w d a - 1) - 1 else 2 ^ w d a - 1)))
  | .vredMax d a _ _ => ints d a (wrapped x d ((act.map (intAt x a)).foldr max
      (if isSigned (p d a) then -2 ^ (w d a - 1) else 0)))
  | .vredAnd d a _ _ => ints d a (wrapped x d ((act.map (intAt x a)).foldr (fun z (u : BitVec 64) => BitVec.ofInt 64 z &&& u)
      (BitVec.allOnes (w d a) |>.setWidth 64)).toNat)
  | .vredOr d a _ _ => ints d a (wrapped x d ((act.map (intAt x a)).foldr (fun z (u : BitVec 64) => BitVec.ofInt 64 z ||| u)
      0).toNat)
  | .vredXor d a _ _ => ints d a (wrapped x d ((act.map (intAt x a)).foldr (fun z (u : BitVec 64) => BitVec.ofInt 64 z ^^^ u)
      0).toNat)
  | .vredWsum d a b _ _ => if isInt (tagOf x b) then ints d a (wrapped x d (act.map (fun j => intAt x a j * intAt x b j)).sum)
      else none
  | _ => none

/-! Vector memory, batons and jobs -/

/-- The baton that an instruction waits on is there, and there is room for the one that it posts (R168). -/
abbrev batonsReady (x : Ctx) (i : Instr) : Prop :=
  (∀ q, batonWait i = some q → 0 < get 0 x.batons q) ∧ (∀ q, batonPost i = some q → get 0 x.batons q < 4)

/-- The vector register, the gate and the address of each element of a vector memory instruction (R183). -/
def vectorAddr (x : Ctx) : Instr → Option (VNum × Bool × (Nat → Nat))
  | .vld t b k _ _ | .vst t b k _ _ => some (t, k, fun j => ((x.x b).toNat + j * widthOf x t / 8) % 2 ^ 64)
  | .vldS t b r k _ _ | .vstS t b r k _ _ => some (t, k, fun j => (x.x b + BitVec.ofNat 64 j * x.x r).toNat)
  | .vldX t b ix k _ _ | .vstX t b ix k _ _ => some (t, k, fun j => (x.x b + BitVec.ofInt 64 (intAt x ix j)).toNat)
  | .vamoAdd t b ix k _ _ | .vamoAnd t b ix k _ _ | .vamoOr t b ix k _ _ | .vamoXor t b ix k _ _ | .vamoMin t b ix k _ _
  | .vamoMax t b ix k _ _ | .vamoSwap t b ix k _ _ => some (t, k, fun j => (x.x b + BitVec.ofInt 64 (intAt x ix j)).toNat)
  | _ => none

/-- The new value of VAMO from the old one and the element, on n bytes, signed or not (R185). -/
def vamoRule (n : Nat) (sg : Bool) : Instr → Option (Nat → Nat → Nat)
  | .vamoAdd .. => some (fun o v => (o + v) % 2 ^ (8 * n))
  | .vamoAnd .. => some (fun o v => o &&& v)
  | .vamoOr .. => some (fun o v => o ||| v)
  | .vamoXor .. => some (fun o v => o ^^^ v)
  | .vamoMin .. => some (fun o v => if sg then signedLeast n o v else min o v)
  | .vamoMax .. => some (fun o v => if sg then signedGreatest n o v else max o v)
  | .vamoSwap .. => some (fun _ v => v)
  | _ => none

/-- The active elements of the context's vector (R18, R52). -/
def activeElem (x : Ctx) (mk : Bool) (j : Nat) : Prop := x.csr.es ≤ j ∧ j < x.vl ∧ (mk = true → (x.m 0).getLsbD j = true)

/-- An element's access may perform at a place whose sector reads clean, in memory that is not of the device class and that may be
reached ahead of the program (R139, R141, R174, R324, R339). -/
abbrev mayElement (s : State) (acc : Acc) (va n : Nat) (p : Place) : Prop :=
  reach s s.turn (vectorAgent s s.turn) acc va n n true false = .ok p ∧ sectorState s p = none ∧ p.dev = false ∧
  p.raw = false ∧ p.nsp = false

/-- The bytes of an element of a width; a 4-bit element takes its half of one byte (R44). -/
def elemSize (w : Nat) : Nat := max 1 (w / 8)
def inMemory (m : Memory) (w key j : Nat) : Nat :=
  if w = 4 then readNat m key 1 / 16 ^ (j % 2) % 16 else readNat m key (w / 8)

/-- Two elements of a width at places share no bit. -/
def apart (w j k pj pk : Nat) : Prop :=
  pj + elemSize w ≤ pk ∨ pk + elemSize w ≤ pj ∨ (w = 4 ∧ j % 2 ≠ k % 2)

/-- A byte lies in none of the places of the elements that a predicate holds for. -/
def outside (act : Nat → Prop) (p : Nat → Place) (n a : Nat) : Prop := ∀ j, act j → a < (p j).key ∨ (p j).key + n ≤ a

/-- A context that has retired one instruction of its vector queue at a plain point: its registers but those named, its loop and level
are as before, and its traps but for a step-over that ends (R95, R144, R163). -/
def queueDone (x y : Ctx) : Prop :=
  y.pc = x.pc + 4 ∧ y.vq = [] ∧ y.vx = [] ∧ y.csr = { x.csr with retired := x.csr.retired + 1, es := 0 } ∧
  y.regs.c = x.regs.c ∧ y.regs.t = x.regs.t ∧ y.regs.h = x.regs.h ∧ y.regs.hb = x.regs.hb ∧ y.regs.tag = x.regs.tag ∧
  y.trapK = x.endStep.trapK ∧ y.trapH = x.endStep.trapH ∧ y.trapM = x.endStep.trapM ∧ y.level = x.level ∧ y.loop = x.loop

/-- The batons of a context after an instruction that waits on one queue and posts to another (R168, R191). -/
def batonsMoved (x y : Ctx) (i : Instr) : Prop :=
  ∀ q, get 0 y.batons q + (if batonWait i = some q then 1 else 0) = get 0 x.batons q + (if batonPost i = some q then 1 else 0)

/-- The card of a job at an offset of a scratchpad that copies n bytes in one row (R197, R217). -/
def copyCard (src dst n : Nat) : Nat := 3 + n * 2 ^ 32 + 2 ^ 48 + (ownWindow + src) * 2 ^ 128 + (ownWindow + dst) * 2 ^ 256

/-! Ciphertexts -/

/-- A plain context with an empty lap store buffer and nothing on its way to another part, in a module whose units leave nothing for
their own events. -/
abbrev calm (s : State) : Prop := plain (me s) ∧ (me s).lap.buf = [] ∧ s.defer = false ∧ settled s

/-- The fields of a descriptor that CINFO reads, by selector (R221, R229). -/
def descField (d : BitVec 256) (sel : BitVec 3) : Nat :=
  let w := d.toNat
  let f (lo n : Nat) : Nat := w / 2 ^ lo % 2 ^ n
  if sel = 0 then f 0 64 else if sel = 1 then f 96 12 else if sel = 2 then f 128 4 else if sel = 3 then f 140 4
  else if sel = 4 then f 192 64 else if sel = 5 then f 176 16 else if sel = 6 then f 160 1 else 1024 - f 192 64

/-- The CARITH forms: the destination, the sources, the noise charge from those of the sources, and each coefficient from those of
the first source, of the second and of the destination, the body's and the mask's (R225, R230). -/
def carithRule : Instr → Option (BitVec 4 × List (BitVec 4) × (Nat → Nat → Nat → Nat) × (Nat → Bool → Int → Int → Int → Int))
  | .cadd d a b => some (d, [a, b], fun p q _ => p + q, fun _ _ p q _ => p + q)
  | .csub d a b => some (d, [a, b], fun p q _ => p + q, fun _ _ p q _ => p - q)
  | .cneg d a => some (d, [a], fun p _ _ => p, fun _ _ p _ _ => -p)
  | .cmuli d a i => some (d, [a], fun p _ _ => p * (i.toInt * i.toInt).toNat, fun _ _ p _ _ => i.toInt * p)
  | .caddp d a i => some (d, [a], fun p _ _ => p, fun m body p _ _ => if body then p + i.toInt * (qMod / 2 ^ (m + 1) : Nat) else p)
  | .cmov d a => some (d, [a], fun p _ _ => p, fun _ _ p _ _ => p)
  | .cmac d a i => some (d, [a, d], fun p _ r => r + p * (i.toInt * i.toInt).toNat, fun _ _ p _ r => r + i.toInt * p)
  | _ => none

/-- Descriptors of one parameter set and batch size that are legal (R222). -/
abbrev legalBatches (l : List (BitVec 256)) (pset b : Nat) : Prop :=
  ∀ d ∈ l, d ≠ 0 ∧ descFault d = none ∧ descPset d = pset ∧ descB d = b

/-! Objects in memory -/

/-- Bits [lo + n − 1 : lo] of a number. -/
def bitsOf (w lo n : Nat) : Nat := w / 2 ^ lo % 2 ^ n

/-- An object of n bytes at a place that the front may access as an atomic does, whose sector reads clean (R246). -/
abbrev mayObject (s : State) (va n : Nat) (p : Place) : Prop :=
  reach s s.turn (frontAgent s s.turn) .atomic va n n false (frontQuiet (me s)) = .ok p ∧ sectorState s p = none ∧
  p.dev = false ∧ p.raw = false

/-- No context but the one whose turn it is is parked or watches an object. -/
abbrev aloneWaiting (s : State) : Prop := ∀ k ∈ waitingContexts s, k = s.turn

/-- The front has gone on with a value in a register, its lap no longer rewindable; other registers are as before. -/
def gaveX (x y : Ctx) (d : XReg) (v : Word) : Prop :=
  y.pc = x.pc + 4 ∧ y.regs = (x.setX d v).regs ∧ y.csr = { x.csr with retired := x.csr.retired + 1 } ∧
  y.lap = (unrewindable x).lap

/-- A hurdle of the given fields at a key (R245). -/
def hurdleAt (m : Memory) (key waiters last ocount ov phase arrived expected : Nat) : Prop :=
  let w := readNat m key 16
  bitsOf w 0 12 = expected ∧ bitsOf w 12 12 = arrived ∧ bitsOf w 24 4 = phase ∧ bitsOf w 28 1 = ov ∧ bitsOf w 32 16 = ocount ∧
  bitsOf w 48 16 = last ∧ bitsOf w 64 16 = waiters

/-- A ring header of the given fields at a key (R253). -/
def ringAt (m : Memory) (key head tail lcap : Nat) : Prop :=
  let w := readNat m key 64
  bitsOf w 0 64 = head ∧ bitsOf w 64 64 = tail ∧ bitsOf w 192 5 = lcap

/-- A watermark of the given fields at a key (R304). -/
def markAt (m : Memory) (key base len mark : Nat) : Prop :=
  let w := readNat m key 32
  bitsOf w 0 64 = base ∧ bitsOf w 64 64 = len ∧ bitsOf w 128 64 = mark

/-! Records, views and launches -/

/-- The registers of a context after the front has written handle h[d], its lap no longer rewindable. -/
def gaveH (x y : Ctx) (d : BitVec 4) (id : Word) : Prop :=
  y.pc = x.pc + 4 ∧ y.regs = (x.setH d id).regs ∧ y.csr = { x.csr with retired := x.csr.retired + 1 } ∧
  y.lap = (unrewindable x).lap

/-- A context has a trap pending entry of code and value at its pc: what enters the trap CSRs of its handling level (R137). -/
def stoppedWith (x y : Ctx) (code : Nat) (val : Word) : Prop :=
  let tr := y.trap (handlingLevel x false)
  tr.cause = BitVec.ofNat 64 code ∧ tr.val = val ∧ tr.pc = x.pc ∧ y.regs = x.regs ∧ y.level = handlingLevel x false ∧
  y.pc = tr.vec

/-- The words of a launch header at an offset of the own scratchpad, and those of leg entry k (R264, R265). -/
def padWords (s : State) (off n : Nat) : List Word :=
  (List.range n).map (fun i => readWord s.mem (padKey (cluOf s.turn) off + 8 * i))

/-! What comes from outside -/

/-- No lap, job, pool or saved lap is on a cluster (R353). -/
abbrev idleClu (s : State) (k : Nat) : Prop :=
  (cluAt s k).jobs = [] ∧ (cluAt s k).pools = [] ∧ (cluAt s k).saved = [] ∧
  ∀ e ∈ s.ctxs, e.1 < 4096 → e.1 / 16 = k → e.2.occ = .free

/-- A command that its channel takes: the channel is open and alive, the frame's tag and form are good, and its sequence number is the
one expected (R364–R367). -/
abbrev mayCommand (s : State) (f : Frame) (k : Channel) : Prop :=
  chanOf s.pkg f.chan = some k ∧ f.tagOk = true ∧ k.dead = false ∧ f.seq.toNat = k.expect ∧ f.sound = true

/-- The part has answered a command of a channel: the response with its counter, the answered sequence number and a payload, and the
channel that expects the next command and keeps its answer (R364–R366). -/
def answered (s t : State) (f : Frame) (k : Channel) (op st : BitVec 8) (pay : List Byte) : Prop :=
  t.pkg.responses = s.pkg.responses ++ [{ port := f.port, chan := f.chan, opcode := op, status := st, counter := 2 ^ 63 + k.sent,
                                          payload := natBytes 8 f.seq.toNat ++ pay }] ∧
  ∃ m, chanOf t.pkg f.chan = some m ∧ m.expect = k.expect + 1 ∧ m.sent = k.sent + 1 ∧ m.lastOp = op ∧ m.lastSt = st ∧ m.lastPay = pay

/-- The part has sent an SPDM answer at a port and done nothing else (R370). -/
def saidAt (s : State) (port : BitVec 3) (code : BitVec 8) (pay : List Byte) : State :=
  { s with pkg := { s.pkg with responses := s.pkg.responses ++
    [{ port := port, chan := 0, opcode := code, status := 0, counter := 0, payload := pay }] } }

/-! The whole machine -/

/-- The context whose turn it is stands inside a lap, with nothing due, nothing in its vector queue, no stream entry that goes to
a device (R174), and a front that is free to fetch (R87, R135, R139, R161). -/
abbrev readyToFetch (s : State) : Prop :=
  s.agenda = [] ∧ s.turn < 4096 ∧ ctxOk (BitVec.ofNat 12 s.turn) = true ∧ awake s s.turn = true ∧ (dueStop s s.turn).isNone = true ∧
  faultDue (me s) = false ∧ (me s).park = .none ∧ frontFree (me s) = true ∧ (me s).vq = [] ∧ (me s).vx = [] ∧ (me s).between = false ∧
  deviceStreams s s.turn = []

/-- The word at the pc may be fetched from a place that is not being re-encrypted, nor are the tables of its walk, and whose sector
reads clean (R80, R324, R339, R340). -/
abbrev mayFetch (s : State) (p : Place) : Prop :=
  walkBusy s (frontAgent s s.turn) (me s).pc.toNat = false ∧
  Machine.decide s (frontAgent s s.turn) .fetch (me s).pc.toNat = .ok p ∧ pageBusy s p = false ∧ sectorState s p = none

/-- The word that stands at a place. -/
def wordAt (s : State) (p : Place) : BitVec 32 := BitVec.ofNat 32 (bytesNat (placeBytes s p 4))

/-- The state in which a fetched word is executed: its leaf is cached (R326), and no signal is taken. -/
def fetched (s : State) (sig : Signal) : State := { noteLeaf s (frontAgent s s.turn) (me s).pc.toNat with signal := sig }

/-- What an instruction gives, with what follows it on its next state. -/
def followed (o : Host.Outcome State Fault Refusal) (f : State → State) : Host.Outcome State Fault Refusal := match o with
  | .next t => .next (f t)
  | .fault r => .fault r
  | .refused r => .refused r

/-- Memory, and the scratchpads of every saved image, are in their canonical form. -/
abbrev memoryForm (s : State) : Prop :=
  Memory.wf s.mem = true ∧ ∀ i ∈ s.pkg.images, Memory.wf i.cells = true ∧ ∀ e ∈ i.cells, 2 ^ 56 ≤ e.1

/-- A context of the N world stands below M, and so does the checkpoint to which its lap would return (R29, R136). -/
abbrev worldKept (x : Ctx) : Prop :=
  x.secure = false → x.level ≠ .m ∧ x.lap.ckpt.all (fun k => k.level != .m) = true

/-- Every context, resident, saved or of an image, keeps its world, and the region entries of the firmware stand (R29, R136, R335). -/
abbrev guarded (s : State) : Prop :=
  (∀ e ∈ s.ctxs, worldKept e.2) ∧ (∀ i ∈ s.pkg.images, ∀ e ∈ i.ctxs, worldKept e.2) ∧
  find? s.pkg.regions 0 = find? Package.firmwareRegions 0 ∧ find? s.pkg.regions 1 = find? Package.firmwareRegions 1

end Sys2Proof.Safety
end

