-- ==== Sys2Proof/Certificates/Slice0/Obligations.lean ====
section
/-! DEFINITION. What is claimed of the model, one definition each. -/

open Sys2Proof Sys2Proof.Machine Sys2Proof.Safety

/-! Encodings -/

/-- Decoding the word of a well-formed instruction gives the instruction back, with every operand (R13, R14, R27). -/
def Obligations.EncodedWordDecodesBack : Prop :=
  ∀ (i : Instr) (w : Nat), i.WellFormed → i.encode = some w → decodeWord (BitVec.ofNat 32 w) = .ok i

/-- A word that decodes stands for one well-formed instruction, whose encoding is that word: every other word is rejected
(R28). -/
def Obligations.DecodedWordEncodesBack : Prop :=
  ∀ (w : BitVec 32) (i : Instr), decodeWord w = .ok i → i.WellFormed ∧ i.encode = some w.toNat

/-- Words that the manual works out decode to the instructions they stand for (R73, R76, R78, R81, R92, R93). -/
def Obligations.WorkedWordsDecode : Prop :=
  decodeWord 0x318A0001 = .ok (.add 6 6 5) ∧ decodeWord 0x28123489 = .ok (.lih 5 0x2469) ∧
  decodeWord 0x296B3C02 = .ok (.addi 5 5 0x5678) ∧ decodeWord 0x280FFF18 = .ok (.brNe 5 0 0xFFE) ∧
  decodeWord 0x200D101B = .ok (.loop 4 0x01 40 2) ∧ decodeWord 0x000094A2 = .ok (.vcfg 0 0x129) ∧
  decodeWord 0x04024021 = .ok (.vtag 1 4) ∧ decodeWord 0x0000001C = .ok .lapend ∧ decodeWord 0x0000001D = .ok .lapexit

/-! Registers -/

/-- x0 reads zero and ignores writes; another x register reads what was written to it last (R34, R35). -/
def Obligations.ScalarRegisterReadAfterWrite : Prop :=
  ∀ (x : Ctx) (d r : XReg) (v : Word),
    (x.setX d v).x 0 = 0 ∧ (x.setX d v).x r = (if r = d ∧ d ≠ 0 then v else x.x r) ∧
    x.setX 0 v = x ∧ (x.setX d v).regs.v = x.regs.v ∧ (x.setX d v).csr = x.csr

/-! The scalar front -/

/-- ADD to POPC, ADDI to SRAI, LIH and PCREL: each completes in every state, with the result of R73 to R76 in xd, the pc at the next
word, and nothing else changed. -/
def Obligations.ScalarFormsComputeTheirTables : Prop :=
  ∀ (i : Instr) (s : State) (d : XReg) (v : Word),
    aluResult (me s).x i = some (d, v) ∨ immResult (me s).x (me s).pc i = some (d, v) →
    exec i s = .next (withMe s (wentOn ((me s).setX d v)))

/-- BR moves the pc off12 words when its condition holds, else to the next word; JAL and JALR link and transfer; a JALR whose target
is no multiple of 4 raises ALIGN with the target at a plain point; nothing else changes (R78–R80). -/
def Obligations.TransfersMoveThePc : Prop :=
  (∀ (i : Instr) (s : State) (c : Bool) (o : BitVec 12), branch (me s).x i = some (c, o) →
    exec i s = .next (withMe s (wentTo (me s) ((me s).pc + if c then wordsOff o else 4)))) ∧
  (∀ (s : State) (d : XReg) (o : BitVec 20),
    exec (.jal d o) s = .next (withMe s (wentTo ((me s).setX d ((me s).pc + 4)) ((me s).pc + wordsOff o)))) ∧
  (∀ (s : State) (d a : XReg) (i : BitVec 15), ((me s).x a + BitVec.ofInt 64 i.toInt).toNat % 4 = 0 →
    exec (.jalr d a i) s =
      .next (withMe s (wentTo ((me s).setX d ((me s).pc + 4)) ((me s).x a + BitVec.ofInt 64 i.toInt)))) ∧
  (∀ (s : State) (d a : XReg) (i : BitVec 15), ((me s).x a + BitVec.ofInt 64 i.toInt).toNat % 4 ≠ 0 →
    plain (me s) → traced s s.turn = false →
    ∃ t, exec (.jalr d a i) s = .next t ∧ took s t 0x04 ((me s).x a + BitVec.ofInt 64 i.toInt) false)

/-- VTAG writes one tag; VCFG writes vtype whole when its P is not 0 and its reference code is at most 4, and nothing of it
otherwise, takes vl down to the lap's VLMAX, and gives xd the old vtype; VSETVL writes the least of its request, VLMAX and the elements
left to vl and xd, after it has written vtype from xb, if that is not x0, as VCFG does (R40, R43, R91–R93). -/
def Obligations.VectorConfigurationSetsLengthAndTypes : Prop :=
  (∀ (s : State) (d : VNum) (t : BitVec 5), exec (.vtag d t) s = .next (withMe s (wentOn ((me s).setTag d.toNat t)))) ∧
  (∀ (s : State) (d : XReg) (v : BitVec 17), ∃ t, exec (.vcfg d v) s = .next t ∧ onlyCtx s t s.turn ∧
    let x := me s
    let y := ctxAt t s.turn
    let ok := v.toNat / 64 % 8 ≠ 0 ∧ v.toNat / 4 % 8 ≤ 4
    (ok → y.csr.vtype = v ∧ y.csr.vl = min x.csr.vl (vlmaxOf v x.groups)) ∧
    (¬ ok → y.csr.vtype = x.csr.vtype ∧ y.csr.vl = x.csr.vl) ∧
    y.regs = (x.setX d (x.csr.vtype.setWidth 64)).regs ∧ y.pc = x.pc + 4 ∧ y.csr.retired = x.csr.retired + 1) ∧
  (∀ (s : State) (d a b : XReg), ∃ t, exec (.vsetvl d a b) s = .next t ∧ onlyCtx s t s.turn ∧
    let x := me s
    let y := ctxAt t s.turn
    let v := x.x b
    let vt := if b ≠ 0 ∧ v.toNat < 2 ^ 17 ∧ v.toNat / 64 % 8 ≠ 0 ∧ v.toNat / 4 % 8 ≤ 4 then v.setWidth 17 else x.csr.vtype
    let n := min (if a = 0 then 2 ^ 64 - 1 else (x.x a).toNat)
      (min (vlmaxOf vt x.groups) (if x.loop.active then x.loop.laprem else x.work.nd))
    y.csr.vl = n ∧ y.regs = (x.setX d (BitVec.ofNat 64 n)).regs ∧ y.csr.vtype = vt ∧ y.pc = x.pc + 4 ∧
    y.csr.retired = x.csr.retired + 1)

/-! Hardware laps -/

/-- LOOP at a plain point opens a loop after the word, over the count in xa, with vl the least of the count and VLMAX and a
checkpoint of the selected registers, the carried group and vl (R48, R81, R82, R148). -/
def Obligations.LoopOpensItsFirstLap : Prop :=
  ∀ (s : State) (a : XReg) (ind : BitVec 8) (cvb : BitVec 6) (cvg : BitVec 2),
    plain (me s) → (me s).lap.buf = [] → (me s).loop.active = false →
    ∃ t, exec (.loop a ind cvb cvg) s = .next t ∧ onlyCtx s t s.turn ∧
      let x := me s
      let y := ctxAt t s.turn
      let count := (x.x a).toNat
      let vl := min count (vlmaxOf x.csr.vtype (coreAt s (coreOf s.turn)).groups)
      y.pc = x.pc + 4 ∧ y.csr = { x.csr with vl := vl, retired := x.csr.retired + 1 } ∧ y.regs = x.regs ∧
      y.loop = { active := true, start := x.pc + 4, ind := ind, cvb := cvb, cvn := 2 ^ cvg.toNat, lapno := 0, laprem := count,
                 count := count } ∧
      y.lap.rewindable = true ∧ y.lap.buffering = true ∧ y.lap.buf = [] ∧
      ∃ k, y.lap.ckpt = some k ∧ k.pc = x.pc + 4 ∧ k.vl = vl ∧ k.lapno = 0 ∧ k.laprem = count ∧
        (∀ j : Fin 8, (8 + j.val, x.x (BitVec.ofNat 5 (8 + j.val))) ∈ k.ind ↔ ind.getLsbD j.val = true) ∧
        (cvb = 0 → k.carried = []) ∧
        (cvb ≠ 0 → ∀ r, cvb.toNat ≤ r → r < cvb.toNat + 2 ^ cvg.toNat → (r, x.v r) ∈ k.carried)

/-- LAPEND and LAPEXIT at a plain point: without a loop they only go on; in one, the selected registers advance by the lap's elements
times their step, and LAPEND goes back to the body's start while elements remain, where the next lap starts, at once or, of a context
that may leave its core there, when it goes on (R82, R87, R90); the loop ends otherwise (R48, R82). -/
def Obligations.LapsCloseAndRepeat : Prop :=
  ∀ (s : State), plain (me s) → (me s).lap.buf = [] →
    ((me s).loop.active = false →
      exec .lapend s = .next (withMe s (wentOn (me s))) ∧ exec .lapexit s = .next (withMe s (wentOn (me s)))) ∧
    ((me s).loop.active = true →
      ∃ t u, exec .lapend s = .next t ∧ exec .lapexit s = .next u ∧ onlyCtx s t s.turn ∧ onlyCtx s u s.turn ∧
        let x := me s
        let y := ctxAt t s.turn
        let z := ctxAt u s.turn
        let n := min x.vl x.loop.laprem
        let left := x.loop.laprem - n
        (∀ r : XReg, y.x r = z.x r ∧ z.x r =
          if 8 ≤ r.toNat ∧ r.toNat < 16 ∧ x.loop.ind.getLsbD (r.toNat - 8)
          then x.x r + BitVec.ofNat 64 n * x.istep (r.toNat - 8) else x.x r) ∧
        y.regs.v = x.regs.v ∧ y.csr.retired = x.csr.retired + 1 ∧ z.csr.retired = x.csr.retired + 1 ∧
        (left = 0 → y.loop.active = false ∧ y.pc = x.pc + 4 ∧ y.loop.lapno = 0 ∧ y.loop.laprem = 0 ∧ y.vl = x.vl) ∧
        (left ≠ 0 → y.loop = { x.loop with lapno := x.loop.lapno + 1, laprem := left } ∧ y.pc = x.loop.start ∧
          (x.stopReq = none → x.yielding = false →
            y.csr.vl = min left (vlmaxOf x.csr.vtype (coreAt s (coreOf s.turn)).groups) ∧ y.lap.rewindable = true) ∧
          (x.stopReq ≠ none ∨ x.yielding = true → y.between = true ∧ y.lap.rewindable = false)) ∧
        z.loop.active = false ∧ z.pc = x.pc + 4 ∧ z.loop.laprem = 0 ∧ z.vl = x.vl)

/-- NEXT at a plain point, outside a loop, of a context that owes nothing: each element whose successor is 0 retires with the launch,
each other element stands in the pool of its leg with its linear index and WID, and the context is free; a successor that is no leg
raises PARAM with the element's position (R88, R89). -/
def Obligations.NextHandsItsElementsOver : Prop :=
  ∀ (s : State) (i : Instr) (succ : Nat → Nat) (l : Launch),
    ((∃ r, i = .nextUniform r ∧ ∀ k, succ k = ((me s).x r).toNat) ∨
     (∃ a : VNum, i = .nextPerElement a ∧ ∀ k, succ k = regField ((me s).v ((a.toNat + k / 1024) % 64)) (k % 1024 * 16) 16)) →
    plain (me s) → (me s).lap.buf = [] → (me s).loop.active = false → (me s).pass = none → noUnits s → settled s →
    launchOf s s.turn = some l → l.restop = false →
    ((∀ k, k < (me s).work.nd → succ k ≤ l.legs.length) →
      ∃ t m, exec i s = .next t ∧ t.mem = s.mem ∧ (ctxAt t s.turn).occ = .free ∧
        find? (dieAt t (dieOf s.turn)).launches (me s).work.launch = some m ∧
        m.retired = l.retired + ((List.range (me s).work.nd).countP (fun k => succ k == 0)) ∧
        ∀ k, k < (me s).work.nd → succ k ≠ 0 →
          ∃ p ∈ (cluAt t (cluOf s.turn)).pools, p.launch = (me s).work.launch ∧ p.leg = succ k ∧
            ∃ e ∈ p.elems, e.lin = (me s).work.lins.getD k 0 ∧ e.wid = (me s).work.wids.getD k 0) ∧
    (∀ k, k < (me s).work.nd → l.legs.length < succ k → (∀ j, j < k → succ j ≤ l.legs.length) → traced s s.turn = false →
      ∃ t, exec i s = .next t ∧ ((ctxAt t s.turn).trap (handlingLevel (me s) false)).cause = 0x14 ∧
        ((ctxAt t s.turn).trap (handlingLevel (me s) false)).val = BitVec.ofNat 64 k ∧
        ((ctxAt t s.turn).trap (handlingLevel (me s) false)).pc = (me s).pc ∧
        (cluAt t (cluOf s.turn)).pools = (cluAt s (cluOf s.turn)).pools)

/-! Scalar memory -/

/-- LD: the bytes at its address, as the context sees them, little-endian, extended by sx into xt; memory, every other register,
every flag and every other context are as before; with an acquire, what load streams have read ahead is dropped (R175–R177, R281). -/
def Obligations.LoadsReturnTheBytesTheyAddress : Prop :=
  ∀ (s : State) (t a : XReg) (off : BitVec 10) (ord sz : BitVec 2) (sx : Bool) (p : Place),
    let va := ((me s).x a + BitVec.ofInt 64 off.toInt).toNat
    let n := 2 ^ sz.toNat
    let v := bytesNat (ctxBytes s s.turn va p n)
    mayAccess s .load va n p →
    ∃ u, exec (.ld t a off ord sz sx) s = .next u ∧ onlyCtx s u s.turn ∧
      ctxAt u s.turn = wentOn ((if ord ≠ 0 then (me s).discardLoads else me s).setX t
        (if sx then signExtended n v else BitVec.ofNat 64 v))

/-- ST of a context that buffers nothing: the low bytes of xt stand at its address, little-endian, and every other byte, register
and context is as before; with an ordering it also ends its lap's rewindability (R149, R176, R177). -/
def Obligations.StoresWriteTheBytesTheyAddress : Prop :=
  ∀ (s : State) (r a : XReg) (off : BitVec 10) (ord sz : BitVec 2) (p : Place),
    let va := ((me s).x a + BitVec.ofInt 64 off.toInt).toNat
    let n := 2 ^ sz.toNat
    mayAccess s .store va n p → unbuffered (me s) → plain (me s) → settled s →
    ∃ t, exec (.st r a off ord sz) s = .next t ∧
      readBytes t.mem p.key n = natBytes n ((me s).x r).toNat ∧ elsewhere s t p.key n ∧
      (∀ k, k ≠ s.turn → ctxAt t k = ctxAt s k) ∧
      ctxAt t s.turn = wentOn (if ord = 0 then me s else unrewindable (me s))

/-- ST in a lap that buffers its stores: no byte of memory changes, and the context itself reads what it has stored (R148, R175). -/
def Obligations.BufferedStoresAreSeenByTheirContextAlone : Prop :=
  ∀ (s : State) (r a : XReg) (off : BitVec 10) (sz : BitVec 2) (p : Place),
    let va := ((me s).x a + BitVec.ofInt 64 off.toInt).toNat
    let n := 2 ^ sz.toNat
    mayAccess s .store va n p → (me s).lap.buffering = true → (me s).lap.buf.length + n ≤ 32768 →
    ∃ t, exec (.st r a off 0 sz) s = .next t ∧ onlyCtx s t s.turn ∧
      ctxBytes t s.turn va p n = natBytes n ((me s).x r).toNat ∧
      (ctxAt t s.turn).regs = (me s).regs ∧ (ctxAt t s.turn).pc = (me s).pc + 4

/-- AMO and CAS of a context that buffers nothing: the old bytes, sign-extended, in xd and the new ones in memory, with every other
byte, register and context as before; they end the lap's rewindability (R149, R178). -/
def Obligations.AtomicsReadModifyAndWrite : Prop :=
  ∀ (s : State) (i : Instr) (d a : XReg) (n : Nat) (f : Nat → Nat) (p : Place),
    atomicRule (me s).x i = some (d, a, n, f) → i.WellFormed →
    reach s s.turn (frontAgent s s.turn) .atomic ((me s).x a).toNat n n (i matches .amoAdd .. | .amoMin .. | .amoMax .. |
      .cas ..) (frontQuiet (me s)) = .ok p →
    sectorState s p = none → p.dev = false → p.raw = false → unbuffered (me s) → plain (me s) → settled s →
    ∃ t, exec i s = .next t ∧
      readNat t.mem p.key n = f (readNat s.mem p.key n) ∧ elsewhere s t p.key n ∧
      (∀ k, k ≠ s.turn → ctxAt t k = ctxAt s k) ∧
      ctxAt t s.turn = wentOn ((unrewindable (me s)).setX d (signExtended n (readNat s.mem p.key n)))

/-- A scalar access whose address is no multiple of its width raises ALIGN with the address, with no other effect (R173, R176,
R178). -/
def Obligations.MisalignedScalarAccessesTrap : Prop :=
  ∀ (s : State) (i : Instr) (va : Word) (n : Nat), accessOf (me s).x i = some (va, n) → va.toNat % n ≠ 0 →
    plain (me s) → traced s s.turn = false → ∃ t, exec i s = .next t ∧ took s t 0x04 va false

/-- FENCE, FENCE.sc and SBAR at a plain point complete, end the lap's rewindability and change no register; what one store of the
lap has left in the buffer stands in memory after them (R149, R180, R181, R283; that an ordering is complete at once is log 6: the
model's choice). -/
def Obligations.FencesCommitTheLapStoreBuffer : Prop :=
  ∀ (s : State) (i : Instr), ((∃ o c, i = .fence o c) ∨ (∃ c, i = .fenceSc c) ∨ ∃ n, i = .sbar n) → plain (me s) → settled s →
    ((me s).lap.buf = [] → exec i s = .next (withMe s (wentOn (unrewindable (me s))))) ∧
    (∀ va bs p, runs (me s).lap.buf = [(va, wholeBytes bs)] → locate s (frontAgent s s.turn) va ≠ .domain →
      decide s (frontAgent s s.turn) .store va = .ok p → sectorState s p = none →
      ∃ t, exec i s = .next t ∧ readBytes t.mem p.key bs.length = bs ∧ elsewhere s t p.key bs.length ∧
        (∀ k, k ≠ s.turn → ctxAt t k = ctxAt s k) ∧ ctxAt t s.turn = wentOn (unrewindable (me s)))

/-- BTN at the front, in a cluster without jobs and a die without passes: a wait on b3 takes a token when there is one, a post to b2
gives one when there is room, and nothing else of the batons changes (R168, R191). -/
def Obligations.FrontBatonsMoveTokens : Prop :=
  ∀ (s : State), plain (me s) → (me s).lap.buf = [] → noUnits s → plainBatons (me s) →
    let b (x : Ctx) (q : Nat) := get 0 x.batons q
    (0 < b (me s) 3 → ∃ t, exec (.btnWait 3) s = .next t ∧ onlyCtx s t s.turn ∧ (ctxAt t s.turn).pc = (me s).pc + 4 ∧
      b (ctxAt t s.turn) 3 = b (me s) 3 - 1 ∧ (∀ q, q ≠ 3 → b (ctxAt t s.turn) q = b (me s) q) ∧
      (ctxAt t s.turn).regs = (me s).regs) ∧
    (b (me s) 2 < 4 → ∃ t, exec (.btnPost 2) s = .next t ∧ onlyCtx s t s.turn ∧ (ctxAt t s.turn).pc = (me s).pc + 4 ∧
      b (ctxAt t s.turn) 2 = b (me s) 2 + 1 ∧ (∀ q, q ≠ 2 → b (ctxAt t s.turn) q = b (me s) q) ∧
      (ctxAt t s.turn).regs = (me s).regs) ∧
    (0 < b (me s) 3 → b (me s) 2 < 4 → ∃ t, exec (.btnWaitPost 3) s = .next t ∧ onlyCtx s t s.turn ∧
      (ctxAt t s.turn).pc = (me s).pc + 4 ∧ b (ctxAt t s.turn) 3 = b (me s) 3 - 1 ∧ b (ctxAt t s.turn) 2 = b (me s) 2 + 1 ∧
      (∀ q, q ≠ 2 → q ≠ 3 → b (ctxAt t s.turn) q = b (me s) q) ∧ (ctxAt t s.turn).regs = (me s).regs)

/-! System instructions -/

/-- CSRR gives xd the CSR's value and changes nothing else, at every level that may reach the CSR, for every CSR; one of the debug range
needs the grant of its world too (R29, R155, R349). -/
def Obligations.CsrReadsGiveTheRegister : Prop :=
  ∀ (s : State) (d : XReg) (n : BitVec 12), granted s n.toNat false → below (me s) (leastLevel n.toNat) = false →
    (me s).held = none →
    exec (.csrr d n) s = .next (withMe s (wentOn ((me s).setX d (csrRead s s.turn n.toNat))))

/-- CSRW, CSRS and CSRC give xd the old value and leave the CSR reading what its entry keeps of the new one: a user CSR, a trap CSR, or
one of K, H, M, trace and debug that no command stands behind; no other x register, no vector, mask, tag or carried register but the
tags that tagw names, no byte of memory and no other context changes. No such word that is well-formed names a monitor (R37, R40,
R43, R49, R137, R155, R333, R335, R346, R349, R357). -/
def Obligations.CsrWritesReadBack : Prop :=
  ∀ (s : State) (i : Instr) (d a : XReg) (n : BitVec 12) (v w : Word),
    let old := csrRead s s.turn n.toNat
    ((i = .csrw d a n ∧ v = (me s).x a) ∨ (i = .csrs d a n ∧ v = old ||| (me s).x a) ∨
      (i = .csrc d a n ∧ v = old &&& ~~~ (me s).x a)) →
    (0x300 ≤ n.toNat → ¬ i.WellFormed) ∧
    (csrAfter (me s) (me s).groups n.toNat v = some w ∨ unitCsrAfter s n.toNat v = some w → granted s n.toNat true →
    below (me s) (leastLevel n.toNat) = false → (me s).held = none → (me s).lap.trim = none →
    ∃ t, exec i s = .next t ∧ onlyCtx s t s.turn ∧ csrRead t s.turn n.toNat = w ∧
      (ctxAt t s.turn).regs.x = ((me s).setX d old).regs.x ∧ (ctxAt t s.turn).regs.v = (me s).regs.v ∧
      (ctxAt t s.turn).regs.m = (me s).regs.m ∧ (ctxAt t s.turn).regs.h = (me s).regs.h ∧
      (n.toNat < 0x020 ∨ 0x026 ≤ n.toNat → (ctxAt t s.turn).regs.tag = (me s).regs.tag) ∧
      (∀ r, r < 64 → n.toNat ≠ 0x020 + r / 12 → (ctxAt t s.turn).tag r = (me s).tag r) ∧
      (ctxAt t s.turn).pc = (me s).pc + 4 ∧ (ctxAt t s.turn).csr.retired = (me s).csr.retired + 1)

/-- A privileged form below its level, a CSR word of any range among them, raises PRIV at a plain point, with its word, and has no other
effect; so does a word of a trace or debug CSR, but for a request by dbgreq, without a grant over its world (R29, R31, R349). -/
def Obligations.PrivilegedFormsTrapBelowTheirLevel : Prop :=
  ∀ (s : State) (i : Instr), plain (me s) → traced s s.turn = false →
    let traps := ∃ t, exec i s = .next t ∧ took s t 0x03 (BitVec.ofNat 64 (i.encode.getD 0 % 2 ^ 32)) false
    (∀ l, privilegedForm i = some l → below (me s) l = true → traps) ∧
    ∀ (d a : XReg) (n : BitVec 12), 0x200 ≤ n.toNat → n.toNat < 0x280 → grantOf s (me s).secure = 0 →
      i = .csrr d n ∨ (n ≠ 0x260 ∧ (i = .csrw d a n ∨ i = .csrs d a n ∨ i = .csrc d a n)) → traps

/-- The words of TRAP, WCALL and BKPT; TRAP, WCALL at K or above, and BKPT enter their handler with their code, WCALL at H at least
with its call bit; BKPT halts its context at the pointer pair instead where the debug unit holds authority over it and
halt-on-breakpoint is set (R136, R156–R158). -/
def Obligations.TrapsEnterTheirHandler : Prop :=
  ∀ (s : State) (code : BitVec 20),
    (Instr.trap code).encode = some (code.toNat * 2 ^ 7 + 0x61) ∧ (Instr.wcall code).encode = some (code.toNat * 2 ^ 7 + 0x66) ∧
    (Instr.bkpt code).encode = some (code.toNat * 2 ^ 7 + 0x63) ∧
    (plain (me s) → traced s s.turn = false →
      let debugged := mayControl s s.turn = true ∧ (cluAt s (cluOf s.turn)).trace.dbgctl = true
      (∃ t, exec (.trap code) s = .next t ∧ took s t 0x0F (code.setWidth 64) false) ∧
      (below (me s) .k = false → ∃ t, exec (.wcall code) s = .next t ∧ took s t 0x0F (code.setWidth 64) true) ∧
      (below (me s) .k = true → ∃ t, exec (.wcall code) s = .next t ∧ took s t 0x03 (BitVec.ofNat 64 (code.toNat * 2 ^ 7 + 0x66)) false) ∧
      (¬ debugged → ∃ t, exec (.bkpt code) s = .next t ∧ took s t 0x0E (code.setWidth 64) false) ∧
      (debugged → frontFree (me s) = true → ∃ t, exec (.bkpt code) s = .next t ∧ onlyCtx s t s.turn ∧ (ctxAt t s.turn).occ = .halted ∧
        (ctxAt t s.turn).pc = (me s).pc ∧ (ctxAt t s.turn).regs = (me s).regs ∧ (ctxAt t s.turn).csr = (me s).csr ∧
        (ctxAt t s.turn).level = (me s).level ∧ (ctxAt t s.turn).trapK = (me s).endStep.trapK ∧
        (ctxAt t s.turn).trapH = (me s).endStep.trapH ∧ (ctxAt t s.turn).trapM = (me s).endStep.trapM))

/-- A word that is no instruction and a fetch that may not be performed enter the handler at a plain point, with ILLEGAL and the
word, or the code of the denial and the pc, on every word and code, but that poisoned data, which no handler sees, rewind or kill
the lap (R139, R150). A pending fault is taken at the pointer pair outside handlers, marked as one of a unit where a job has
raised it; a halt request of the debugger halts its context there. The due action of a trigger sequencer is taken: the sequencer
is no longer armed and stands in its next state, capture begins with action 1, ends with 2, and ends and freezes with 3, and
action 4 halts each context of the action that the debugger may control, where it stands (R28, R31, R80, R135–R139, R324, R350,
R356). -/
def Obligations.StopsOfThePointerPairAreTaken : Prop :=
  (∀ (s : State) (w : BitVec 32), s.signal = .word w → plain (me s) → traced s s.turn = false →
    ∃ t, exec .illegalWord s = .next t ∧ took s t 0x01 (w.setWidth 64) false) ∧
  (∀ (s : State) (k : BitVec 8), s.signal = .fetch k → plain (me s) → traced s s.turn = false →
    (k.toNat ≠ cMemue → k.toNat ≠ cIntegrity → ∃ t, exec .fetchFault s = .next t ∧ took s t k.toNat (me s).pc false) ∧
    (k.toNat = cMemue ∨ k.toNat = cIntegrity → ∃ t, exec .fetchFault s = .next t ∧
      ((ctxAt t s.turn).occ = .free ∨ ((ctxAt t s.turn).lap.rewinds = (me s).lap.rewinds + 1 ∧ k.toNat = cMemue)))) ∧
  (∀ (s : State) (c : CtxId) (f : PendFault), s.signal = .ctx c →
    let n := c.toNat
    let x := ctxAt s n
    plain { x with pend := [] } → x.pend = [f] → x.inHandler = false → frontFree x = true → traced s n = false →
    let asks := (cluAt s (cluOf n)).trace.dbgreq = 0x1000 ||| c.setWidth 16
    ∀ i, (i = .pendingFaultTake ∨ (i = .stopAtPointerPair ∧ ¬ asks ∧ x.halting = none)) → ∃ t, exec i s = .next t ∧ onlyCtx s t n ∧
      let y := ctxAt t n
      let tr := y.trap (handlingLevel x false)
      tr.cause = BitVec.ofNat 64 ((if f.job then 0x100 else 0) + f.code) ∧ tr.val = f.val ∧ tr.pc = x.pc ∧ tr.cp = x.pc ∧
      y.regs = x.regs ∧ y.level = handlingLevel x false ∧ y.pc = tr.vec ∧ y.inHandler = true ∧ y.pend = []) ∧
  (∀ (s : State) (c : CtxId), s.signal = .ctx c →
    let n := c.toNat
    let x := ctxAt s n
    plain x → frontFree x = true → traced s n = false → mayControl s n = true →
    (cluAt s (cluOf n)).trace.dbgreq = 0x1000 ||| c.setWidth 16 → ∃ t, exec .stopAtPointerPair s = .next t ∧ t.mem = s.mem ∧
      (∀ k, k ≠ n → ctxAt t k = ctxAt s k) ∧ (ctxAt t n).occ = .halted ∧ (ctxAt t n).pc = x.pc ∧ (ctxAt t n).regs = x.regs ∧
      (ctxAt t n).csr = x.csr) ∧
  ∀ (s : State) (die : DieId) (clu : CluId), s.signal = .clu die clu →
    let k := cluKey die clu
    let t₀ := (cluAt s k).trace
    let q := (get 0 t₀.seq (t₀.ctl.toNat / 4 % 4)).toNat
    let act := bitsOf q 7 3
    t₀.due ≠ [] → (act = 4 → ∀ c ∈ t₀.due, plain (ctxAt s c) ∧ frontFree (ctxAt s c) = true) → ∃ t, exec .traceTriggerFire s = .next t ∧
      let v := (cluAt t k).trace
      v.due = [] ∧ v.armed = false ∧ v.ctl.toNat / 4 % 4 = bitsOf q 10 2 ∧
      (act = 0 ∨ act = 4 → v.ctl.getLsbD 0 = t₀.ctl.getLsbD 0 ∧ v.ctl.getLsbD 1 = t₀.ctl.getLsbD 1) ∧
      (act = 1 → v.ctl.getLsbD 0 = true) ∧ (act = 2 ∨ act = 3 → v.ctl.getLsbD 0 = false) ∧ (act = 3 → v.ctl.getLsbD 1 = true) ∧
      (act ≠ 4 → ∀ c, { ctxAt t c with pair := none } = { ctxAt s c with pair := none }) ∧
      (act = 4 → ∀ c, let x := ctxAt s c
        let y := ctxAt t c
        y.pc = x.pc ∧ y.regs = x.regs ∧ y.csr = x.csr ∧
        y.occ = if c ∈ t₀.due ∧ mayControl s c = true then .halted else x.occ)

/-- ERET at K, H or M to a level that is not above its own: the pc and the level are those of the trap CSRs, what it goes on with
suppresses watchpoints where the step-over bit is set, and no register, byte of memory or other context changes. Without dumped
entries, es is that of the trap CSR; with up to forty that lie in readable memory, they stand in the queue again with their words, the
first at that es. More than forty entries raise PARAM with the count, a level above its own PRIV with the word (R31, R136, R144,
R147, R159). -/
def Obligations.EretReturnsToTheSavedPoint : Prop :=
  ∀ (s : State), (me s).level ≠ .u →
    let x := me s
    let tr := x.trap x.level
    let pl := Level.ofNum (tr.stat.toNat % 4)
    let nq := bitsOf tr.stat.toNat 16 8
    let at_ (k : Nat) := tr.dump.toNat + 64 * k
    let back (t : State) := onlyCtx s t s.turn ∧
      let y := ctxAt t s.turn
      y.pc = tr.pc ∧ y.level = pl ∧ y.inHandler = false ∧
      y.stepOver = (if tr.stat.getLsbD 7 then some { level := x.level, elem := tr.es.toNat } else none) ∧
      y.trap x.level = tr ∧ y.regs = x.regs ∧ y.csr.retired = x.csr.retired + 1
    (pl.num ≤ x.level.num → nq = 0 →
      ∃ t, exec .eret s = .next t ∧ back t ∧ (ctxAt t s.turn).csr.es = tr.es.toNat ∧ (ctxAt t s.turn).vq = x.vq) ∧
    (∀ p : Nat → Place, pl.num ≤ x.level.num → 0 < nq → nq ≤ 40 → s.pkg.reenc = none →
      (∀ k, k < nq → dumpAway s s.turn x.level (at_ k) = false ∧ dumpPlace s s.turn x.level .load (at_ k) = some (p k) ∧
        (p k).raw = false ∧ sectorState s (p k) = none) →
      let word (k : Nat) := if x.level = .k then bytesNat (ctxBytes s s.turn (at_ k) (p k) 64) else readNat s.mem (p k).key 64
      ∃ t, exec .eret s = .next t ∧ back t ∧ (ctxAt t s.turn).csr.es = x.csr.es ∧
        (ctxAt t s.turn).vq.length = x.vq.length + nq ∧ (ctxAt t s.turn).vq.take x.vq.length = x.vq ∧
        ∀ k, k < nq → ∃ e, (ctxAt t s.turn).vq[x.vq.length + k]? = some e ∧ e.word.toNat = bitsOf (word k) 96 32 ∧
          e.es = (if k = 0 then tr.es.toNat else bitsOf (word k) 162 15) ∧ e.addr.toNat = bitsOf (word k) 256 64) ∧
    (plain x → traced s s.turn = false →
      (pl.num ≤ x.level.num → 40 < nq → ∃ t, exec .eret s = .next t ∧ took s t 0x14 (BitVec.ofNat 64 nq) false) ∧
      (x.level.num < pl.num → ∃ t, exec .eret s = .next t ∧ took s t 0x03 (BitVec.ofNat 64 (Instr.eret.encode.getD 0)) false))

/-- TRACE of a context that is not traced, WFE and YIELD: each goes on; WFE leaves its context parked for at most 65,536 cycles, and
YIELD asks for a switch at the lap boundary. A parked WFE ends at a wake event or when its cycles have passed (R90, R160, R161). -/
def Obligations.HintsGoOnAndWaitsEnd : Prop :=
  (∀ (s : State),
    (∀ a code, traced s s.turn = false → exec (.trace a code) s = .next (withMe s (wentOn (me s)))) ∧
    exec .wfe s = .next (withMe s (wentOn { me s with park := .wfe (cycleOf s s.turn + 65536) false })) ∧
    exec .yield s = .next (withMe s (wentOn { me s with yielding := true }))) ∧
  ∀ (s : State) (c : CtxId) (u : Nat) (w : Bool), s.signal = .ctx c → (ctxAt s c.toNat).park = .wfe u w →
    (w = true → exec .wfeWake s = .next (setCtx s c.toNat { ctxAt s c.toNat with park := .none })) ∧
    (u ≤ cycleOf s c.toNat → exec .wfeTimeout s = .next (setCtx s c.toNat { ctxAt s c.toNat with park := .none }))

/-- TLBI at K or above, of an address space of its partition, while no view is live: its accesses perform, every entry it names
reads as its image word, no scalar leaf that it names stays cached, and it retires (R162, R320, R326, R327); an acknowledgement is
noted, and the last of the 160 ends the shootdown and lets its TLBI go on (R328, R329; the 160 agents are the cores, and that TLBI
ends the rewindability is log 30: the model's choices). -/
def Obligations.ShootdownsReloadWhatTheyName : Prop :=
  (∀ (s : State) (a b : XReg), plain (me s) → (me s).lap.buf = [] → s.defer = false → (me s).level ≠ .u →
    (∀ d, (dieAt s d).views = []) → (dieAt s (dieOf s.turn)).shoots = [] → (dieAt s (dieOf s.turn)).shootAsks = [] →
    settled s → s.turn < 4096 →
    let die := dieOf s.turn
    let asid := ((me s).x a).toNat
    let entry (t : State) (k i : Nat) := get 0 (dieAt t die).resident (k * 2048 + i)
    let retired (t : State) := t.mem = s.mem ∧ (ctxAt t s.turn).pc = (me s).pc + 4 ∧ (ctxAt t s.turn).regs = (me s).regs ∧
      (ctxAt t s.turn).csr.retired = (me s).csr.retired + 1 ∧ (dieAt t die).shoots = []
    (∀ sp, find? (dieAt s die).aspaces asid = some sp → sp.part = (me s).partid →
      (∃ t, exec (.tlbiAs a) s = .next t ∧ retired t ∧
        (∀ i, i < 2048 → entry t asid i = imageWord s die asid sp i) ∧
        ∀ k e, k / 256 = die → k % 256 < 160 → e ∈ (coreAt t k).stb → e.asid ≠ asid) ∧
      (∃ t, exec (.tlbiVa a b) s = .next t ∧ retired t ∧
        (((me s).x b).toNat < 2 ^ 41 → entry t asid (((me s).x b).toNat / 2 ^ 30) =
          imageWord s die asid sp (((me s).x b).toNat / 2 ^ 30)) ∧
        ∀ k e, k / 256 = die → k % 256 < 160 → e ∈ (coreAt t k).stb → ¬ (e.asid = asid ∧ e.page = ((me s).x b).toNat / 2 ^ 14))) ∧
    (∃ t, exec .tlbiAll s = .next t ∧ retired t ∧
      (∀ k sp, (k, sp) ∈ (dieAt s die).aspaces → find? (dieAt s die).aspaces k = some sp →
        ((me s).level = .k → sp.part = (me s).partid) → ∀ i, i < 2048 → entry t k i = imageWord s die k sp i) ∧
      ∀ k e, k / 256 = die → k % 256 < 160 → e ∈ (coreAt t k).stb →
        (me s).level = .k ∧ ∀ sp, find? (dieAt s die).aspaces e.asid = some sp → sp.part ≠ (me s).partid)) ∧
  ∀ (s : State) (die : DieId) (slot : BitVec 3) (agent : Nat) (h : Shoot), s.signal = .shootdown die slot agent →
    find? (dieAt s die.toNat).shoots slot.toNat = some h → agent < 160 → agent ∉ h.acked →
    (h.acked.length + 1 ≠ 160 → ∃ t, exec .shootdownAck s = .next t ∧ t.mem = s.mem ∧ (∀ k, ctxAt t k = ctxAt s k) ∧
      find? (dieAt t die.toNat).shoots slot.toNat = some { h with acked := agent :: h.acked }) ∧
    (h.acked.length + 1 = 160 → ∃ t, exec .shootdownAck s = .next t ∧ slot.toNat ∉ keys (dieAt t die.toNat).shoots ∧
      let x := ctxAt s h.ctx.toNat
      (x.fwait = .shootdown slot.toNat → ctxAt t h.ctx.toNat = { wentOn x with fwait := .none }))

/-! The vector queue -/

/-- Every instruction of the vector unit that the front can issue runs to its end at a plain point: it retires, takes es, and
changes no register but its destinations, no CSR but fflags, which only gains bits, and vl for MSETVL, and no byte of memory; a word of
VBFLY.H.f is held in its run, which has still to retire (R25, R26, R52, R68, R95, R126, R163). -/
def Obligations.VectorInstructionsComplete : Prop :=
  ∀ (s : State) (i : Instr) (sh : Shape), computes i = true → vectorReady s i sh →
    ∃ t, exec i s = .next t ∧ onlyCtx s t s.turn ∧ t.dies = s.dies ∧ t.pkg = s.pkg ∧
      let x := me s
      let y := ctxAt t s.turn
      y.pc = x.pc + 4 ∧ y.vq = [] ∧ y.vx = [] ∧
      y.csr = { x.csr with retired := x.csr.retired + (if staysInRun i then 0 else 1), es := 0, fflags := y.csr.fflags,
                           vl := if i matches .msetvl _ _ then y.csr.vl else x.csr.vl } ∧
      x.csr.fflags &&& y.csr.fflags = x.csr.fflags ∧
      (∀ r, xDest i ≠ some r → y.x r = x.x r) ∧ (∀ m, maskDest i ≠ some m → y.m m = x.m m) ∧
      y.regs.c = x.regs.c ∧ y.regs.t = x.regs.t ∧ y.regs.h = x.regs.h ∧ y.regs.tag = x.regs.tag ∧
      (¬ (i matches .ehistAcc .. | .ehistClr ..) → y.regs.hb = x.regs.hb) ∧
      (vlBounded x → ∀ r, r ∉ (entryOf x i sh).writesV → (∀ d a b rm k, i = .vsmaxUpd d a b rm k → r ≠ b.toNat) →
        y.v r = x.v r) ∧
      (staysInRun i = true ↔ y.held ≠ none) ∧ (staysInRun i = true → y.csr.fflags = x.csr.fflags) ∧
      (let z := if staysInRun i then x else x.endStep
       y.trapK = z.trapK ∧ y.trapH = z.trapH ∧ y.trapM = z.trapM) ∧ y.level = x.level ∧ y.loop = x.loop ∧
      y.lap = x.lap ∧ y.batons = x.batons

/-- The element functions on integers, patterns and residues: an active element at or above es and below vl holds its function of the
sources as they stood before, the tail from vl is zero or kept as vtype says, and every other element of the destination is as before
(R18, R45, R52, R54, R60, R61, R95, R99–R103). -/
def Obligations.VectorElementsHoldTheirFunction : Prop :=
  ∀ (s : State) (i : Instr) (sh : Shape) (d : VNum) (mk : Bool) (f : Nat → Option Nat),
    vectorReady s i sh → vlBounded (me s) → elementRule (me s) i = some (d, mk, f) →
    ∃ t, exec i s = .next t ∧
      let x := me s
      let y := ctxAt t s.turn
      ∀ k, k * widthOf x d < 16384 * spanOf x.csr.vtype (tagOf x d) →
        bitsAt y d k =
          if k < x.vl then
            if x.csr.es ≤ k ∧ (mk = true → (x.m 0).getLsbD k = true) then (f k).getD (bitsAt x d k) else bitsAt x d k
          else if vtTail x.csr.vtype then 0 else bitsAt x d k

/-- The comparisons of integers and residues and the mask functions: a bit at or above es and below vl, active where the instruction
has a gate, holds its function, the tail from vl is zero or kept as vtype says, and every other bit is as before (R45, R104, R132). -/
def Obligations.MaskBitsHoldTheirFunction : Prop :=
  ∀ (s : State) (i : Instr) (sh : Shape) (d : MNum) (mk : Bool) (f : Nat → Bool),
    vectorReady s i sh → maskRule (me s) i = some (d, mk, f) →
    ∃ t, exec i s = .next t ∧
      let x := me s
      let y := ctxAt t s.turn
      ∀ k, k < 16384 → (y.m d.toNat).getLsbD k =
        if k < x.vl then
          if x.csr.es ≤ k ∧ (mk = true → (x.m 0).getLsbD k = true) then f k else (x.m d.toNat).getLsbD k
        else if vtTail x.csr.vtype then false else (x.m d.toNat).getLsbD k

/-- The reductions of integers leave their result over the active elements in element 0 and treat every other element of the
destination as tail; MCNT counts the set bits from es to below vl, MCNT.FIRST gives the first of them or all ones, and MSETVL takes
the count as vl too (R69, R119, R133, R134). -/
def Obligations.ReductionsAndCountsFoldTheActiveElements : Prop :=
  (∀ (s : State) (i : Instr) (sh : Shape) (d : VNum) (v : Nat), vectorReady s i sh → vlBounded (me s) →
    let x := me s
    let act := (List.range x.vl).filter (fun k => decide (x.csr.es ≤ k) && (!mkOf i || (x.m 0).getLsbD k))
    reductionRule x act i = some (d, v) →
    ∃ t, exec i s = .next t ∧ bitsAt (ctxAt t s.turn) d 0 = v ∧
      ∀ k, 0 < k → k * widthOf x d < 16384 * spanOf x.csr.vtype (tagOf x d) →
        bitsAt (ctxAt t s.turn) d k = if vtTail x.csr.vtype then 0 else bitsAt x d k) ∧
  (∀ (s : State) (r : XReg) (a : MNum) (sh : Shape),
    let x := me s
    let bits := (List.range x.vl).filter (fun k => decide (x.csr.es ≤ k) && (x.m a.toNat).getLsbD k)
    let counted (t : State) (v : Word) (vl : Nat) := (∀ q, (ctxAt t s.turn).x q = (x.setX r v).x q) ∧ (ctxAt t s.turn).csr.vl = vl
    (vectorReady s (.mcnt r a) sh →
      ∃ t, exec (.mcnt r a) s = .next t ∧ counted t (BitVec.ofNat 64 bits.length) x.csr.vl) ∧
    (vectorReady s (.mcntFirst r a) sh →
      ∃ t, exec (.mcntFirst r a) s = .next t ∧
        counted t (match bits with | k :: _ => BitVec.ofNat 64 k | [] => 0xFFFFFFFFFFFFFFFF) x.csr.vl) ∧
    (vectorReady s (.msetvl r a) sh →
      ∃ t, exec (.msetvl r a) s = .next t ∧ counted t (BitVec.ofNat 64 bits.length) bits.length))

/-- VMV.TOX and VMV.FROMX move element 0; VCOMP compress and index pack the selected positions from element 0 on, with the tail
after them (R123, R128). -/
def Obligations.ElementZeroAndPackedMoves : Prop :=
  ∀ (s : State) (sh : Shape) (rm : BitVec 3), vlBounded (me s) →
    let x := me s
    let after (y : Ctx) (d : VNum) (n : Nat) (f : Nat → Nat) := ∀ k, k * widthOf x d < 16384 * spanOf x.csr.vtype (tagOf x d) →
      bitsAt y d k = if k < n then f k else if vtTail x.csr.vtype then 0 else bitsAt x d k
    (∀ r a, vectorReady s (.vmvTox r a rm) sh → isInt (tagOf x a) = true →
      ∃ t, exec (.vmvTox r a rm) s = .next t ∧ ∀ q, (ctxAt t s.turn).x q = (x.setX r (BitVec.ofInt 64 (intAt x a 0))).x q) ∧
    (∀ d r, vectorReady s (.vmvFromx d r false rm false) sh → x.csr.es = 0 → isInt (tagOf x d) = true →
      ∃ t, exec (.vmvFromx d r false rm false) s = .next t ∧
        after (ctxAt t s.turn) d x.vl (fun k => if k = 0 then scalarPattern x d r false else bitsAt x d k)) ∧
    (∀ d a, vectorReady s (.vcompCompress d a rm) sh → x.csr.es = 0 →
      ∃ t, exec (.vcompCompress d a rm) s = .next t ∧
        let sel := (List.range x.vl).filter (fun k => (x.m 0).getLsbD k)
        after (ctxAt t s.turn) d sel.length (fun k => bitsAt x a (sel.getD k 0))) ∧
    (∀ d (m : MNum), vectorReady s (.vcompCidx d m rm) sh → x.csr.es = 0 →
      ∃ t, exec (.vcompCidx d m rm) s = .next t ∧
        let sel := (List.range x.vl).filter (fun k => (x.m m.toNat).getLsbD k)
        after (ctxAt t s.turn) d sel.length (fun k => wrapped x d (sel.getD k 0)))

/-- EHIST accumulate raises by one each counter of its bank that the active elements' encodings name, up to the greatest; read puts
the 68 counters of a bank, of the context or of the cluster, into vd, and clear zeroes them, with no other counter changed (R72,
R130). -/
def Obligations.HistogramsCountAndClear : Prop :=
  ∀ (s : State) (sh : Shape) (rm : BitVec 3),
    let x := me s
    let clu (t : State) := (cluAt t (cluOf s.turn)).hist
    let own (t : State) := (ctxAt t s.turn).regs.hb
    let named (a : VNum) (k : Nat) := ((List.range x.vl).filter (fun j => decide (x.csr.es ≤ j))).map (fun j =>
      (histCounters (settingsOf x.csr.vtype) (tagOf x a) (bitsAt x a j)).count k) |>.sum
    (∀ a bank, vectorReady s (.ehistAcc a bank rm false) sh →
      ∃ t, exec (.ehistAcc a bank rm false) s = .next t ∧ clu t = clu s ∧
        (∀ k, k < 68 → (get 0 (own t) (68 * bank.toNat + k)).toNat =
          min 0xFFFFFFFF ((get 0 x.regs.hb (68 * bank.toNat + k)).toNat + named a k)) ∧
        ∀ k, (k < 68 * bank.toNat ∨ 68 * bank.toNat + 68 ≤ k) → get 0 (own t) k = get 0 x.regs.hb k) ∧
    (∀ d bank, vectorReady s (.ehistRead d bank rm) sh →
      ∃ t, exec (.ehistRead d bank rm) s = .next t ∧ own t = own s ∧ clu t = clu s ∧
        ∀ k, k < 68 → elem (ctxAt t s.turn) d.toNat 32 k =
          (if bank.toNat < 8 then get 0 x.regs.hb (68 * bank.toNat + k) else get 0 (clu s) (68 * (bank.toNat - 8) + k)).toNat) ∧
    (∀ bank, vectorReady s (.ehistClr bank rm) sh →
      ∃ t, exec (.ehistClr bank rm) s = .next t ∧
        (∀ k, get 0 (own t) k = if bank.toNat < 8 ∧ k / 68 = bank.toNat then 0 else get 0 x.regs.hb k) ∧
        ∀ k, get 0 (clu t) k = if 8 ≤ bank.toNat ∧ k / 68 + 8 = bank.toNat then 0 else get 0 (clu s) k)

/-- A vector instruction whose tags or groups are not legal raises TYPE at a plain point, with its word, and has no other effect
(R25, R31). -/
def Obligations.TypeFaultsTrapBeforeIssue : Prop :=
  ∀ (s : State) (i : Instr) (sh : Shape), shapeOf i = some sh →
    sh.typeOk (me s) (me s).csr.vtype (tagOr (me s) sh.d) (tagOr (me s) sh.a) (tagOr (me s) sh.b) = false →
    plain (me s) → traced s s.turn = false →
    ∃ t, exec i s = .next t ∧ took s t 0x02 (BitVec.ofNat 64 (i.encode.getD 0 % 2 ^ 32)) false

/-- VLD in each mode, of memory that the rules allow to load: an active element holds the bits at its address, as the context sees
them, the tail is zero or kept, every other element of vt is as before, and memory and every other register are as before; a baton
waited on or posted moves (R18, R45, R173, R175, R183, R184, R191). -/
def Obligations.VectorLoadsFillActiveElements : Prop :=
  ∀ (s : State) (i : Instr) (sh : Shape) (t : VNum) (mk : Bool) (addr : Nat → Nat) (p : Nat → Place),
    (i matches .vld .. | .vldS .. | .vldX ..) → vectorReady s i sh → vlBounded (me s) → batonsReady (me s) i →
    plainBatons (me s) → (me s).marks = [] → (me s).lap.buf = [] → vectorAddr (me s) i = some (t, mk, addr) →
    (∀ j, activeElem (me s) mk j → mayElement s .load (addr j) (elemSize (widthOf (me s) t)) (p j)) →
    ∃ u, exec i s = .next u ∧ onlyCtx s u s.turn ∧
      let x := me s
      let y := ctxAt u s.turn
      queueDone x y ∧ batonsMoved x y i ∧ y.regs.x = x.regs.x ∧ y.regs.m = x.regs.m ∧
      (∀ r, r ∉ (entryOf x i sh).writesV → y.v r = x.v r) ∧
      ∀ k, k * widthOf x t < 16384 * spanOf x.csr.vtype (tagOf x t) →
        (activeElem x mk k → bitsAt y t k = inMemory s.mem (widthOf x t) (p k).key k) ∧
        (k < x.vl → ¬ activeElem x mk k → bitsAt y t k = bitsAt x t k) ∧
        (x.vl ≤ k → bitsAt y t k = if vtTail x.csr.vtype then 0 else bitsAt x t k)

/-- VST in each mode, of a context that buffers nothing, to memory that the rules allow to store: an active element stands at its
address unless a later one overlaps it there, and every other byte and every register is as before (R173, R183, R184, R191). -/
def Obligations.VectorStoresWriteActiveElements : Prop :=
  ∀ (s : State) (i : Instr) (sh : Shape) (t : VNum) (mk : Bool) (addr : Nat → Nat) (p : Nat → Place),
    (i matches .vst .. | .vstS .. | .vstX ..) → vectorReady s i sh → vlBounded (me s) → batonsReady (me s) i →
    plainBatons (me s) → unbuffered (me s) → vectorAddr (me s) i = some (t, mk, addr) →
    (∀ j, activeElem (me s) mk j → mayElement s .store (addr j) (elemSize (widthOf (me s) t)) (p j)) →
    ∃ u, exec i s = .next u ∧ (∀ k, k ≠ s.turn → ctxAt u k = ctxAt s k) ∧
      let x := me s
      let y := ctxAt u s.turn
      let w := widthOf x t
      queueDone x y ∧ batonsMoved x y i ∧ y.regs = x.regs ∧
      (∀ a, outside (activeElem x mk) p (elemSize w) a → readByte u.mem a = readByte s.mem a) ∧
      ∀ k, activeElem x mk k → (∀ j, k < j → activeElem x mk j → apart w k j (p k).key (p j).key) →
        inMemory u.mem w (p k).key k = bitsAt x t k

/-- VAMO, of a context that buffers nothing, on elements that share no byte: each active element receives the old value at its
address and the new one stands there; the tail from vl is zero or kept as vtype says, every other element, vector register and byte is
as before, and the lap is no longer rewindable (R45, R149, R185, R191; the serial order does not matter here, log 7). -/
def Obligations.VectorAtomicsReadModifyAndWrite : Prop :=
  ∀ (s : State) (i : Instr) (sh : Shape) (t : VNum) (mk : Bool) (addr : Nat → Nat) (f : Nat → Nat → Nat) (p : Nat → Place),
    let n := widthOf (me s) t / 8
    vamoRule n (isSigned (tagOf (me s) t)) i = some f → vectorReady s i sh → vlBounded (me s) → batonsReady (me s) i →
    plainBatons (me s) → unbuffered (me s) → vectorAddr (me s) i = some (t, mk, addr) →
    (∀ j, activeElem (me s) mk j → mayElement s .atomic (addr j) n (p j) ∧
      reach s s.turn (vectorAgent s s.turn) .atomic (addr j) n n false false = .ok (p j)) →
    (∀ j k, activeElem (me s) mk j → activeElem (me s) mk k → j ≠ k → (p j).key + n ≤ (p k).key ∨ (p k).key + n ≤ (p j).key) →
    ∃ u, exec i s = .next u ∧ (∀ k, k ≠ s.turn → ctxAt u k = ctxAt s k) ∧
      let x := me s
      let y := ctxAt u s.turn
      queueDone x y ∧ batonsMoved x y i ∧ y.regs.x = x.regs.x ∧ y.regs.m = x.regs.m ∧ y.lap.rewindable = false ∧
      (∀ a, outside (activeElem x mk) p n a → readByte u.mem a = readByte s.mem a) ∧
      (∀ r, r ∉ (entryOf x i sh).writesV → y.v r = x.v r) ∧
      (∀ k, k < x.vl → if x.csr.es ≤ k ∧ (mk = true → (x.m 0).getLsbD k = true) then
          bitsAt y t k = readNat s.mem (p k).key n ∧ readNat u.mem (p k).key n = f (readNat s.mem (p k).key n) (bitsAt x t k)
        else bitsAt y t k = bitsAt x t k) ∧
      ∀ k, x.vl ≤ k → k * widthOf x t < 16384 * spanOf x.csr.vtype (tagOf x t) →
        bitsAt y t k = if vtTail x.csr.vtype then 0 else bitsAt x t k

/-- MLD and MST, of a context that buffers nothing: bit k of a mask is bit k mod 8 of the byte k / 8 from the address on; an active
bit is loaded or stored, and every other bit of the mask and every other byte is as before (R45, R186, R191). -/
def Obligations.MasksMoveBitByBit : Prop :=
  ∀ (s : State) (i : Instr) (sh : Shape) (t : MNum) (b : XReg) (mk w q : Bool) (p : Nat → Place),
    vectorReady s i sh → batonsReady (me s) i → plainBatons (me s) → (me s).marks = [] → unbuffered (me s) →
    (∀ j k, p j = p k ∨ (p j).key ≠ (p k).key) → (∀ j k, j / 8 = k / 8 ↔ p j = p k) →
    let x := me s
    let addr := fun j => ((x.x b).toNat + j / 8) % 2 ^ 64
    (i = .mld t b mk w q → (∀ j, activeElem x mk j → mayElement s .load (addr j) 1 (p j)) →
      ∃ u, exec i s = .next u ∧ onlyCtx s u s.turn ∧
        let y := ctxAt u s.turn
        queueDone x y ∧ batonsMoved x y i ∧ y.regs.x = x.regs.x ∧ y.regs.v = x.regs.v ∧ (∀ m, m ≠ t.toNat → y.m m = x.m m) ∧
        ∀ k, k < 16384 →
          (activeElem x mk k → (y.m t.toNat).getLsbD k = (readByte s.mem (p k).key).getLsbD (k % 8)) ∧
          (k < x.vl → ¬ activeElem x mk k → (y.m t.toNat).getLsbD k = (x.m t.toNat).getLsbD k) ∧
          (x.vl ≤ k → (y.m t.toNat).getLsbD k = if vtTail x.csr.vtype then false else (x.m t.toNat).getLsbD k)) ∧
    (i = .mst t b mk w q → (∀ j, activeElem x mk j → mayElement s .store (addr j) 1 (p j)) →
      ∃ u, exec i s = .next u ∧ (∀ k, k ≠ s.turn → ctxAt u k = ctxAt s k) ∧
        let y := ctxAt u s.turn
        queueDone x y ∧ batonsMoved x y i ∧ y.regs = x.regs ∧
        (∀ a, outside (activeElem x mk) p 1 a → readByte u.mem a = readByte s.mem a) ∧
        ∀ k, k < 16384 → (∃ j, activeElem x mk j ∧ j / 8 = k / 8) → (readByte u.mem (p k).key).getLsbD (k % 8) =
          if x.csr.es ≤ k ∧ k < x.vl ∧ (mk = true → (x.m 0).getLsbD k = true) then (x.m t.toNat).getLsbD k
          else (readByte s.mem (p k).key).getLsbD (k % 8))

/-- BTN in the vector queue moves its tokens; SBIND binds a register to the stream that a legal descriptor names, and binds nothing
otherwise; SUNBIND ends a binding, and the register keeps its strip (R168, R187, R190, R191). -/
def Obligations.QueuedBatonsAndStreamBindings : Prop :=
  ∀ (s : State) (sh : Shape),
    let x := me s
    (∀ i, (i matches .btnWait _ | .btnPost _ | .btnWaitPost _) → i.WellFormed → vectorReady s i sh → batonsReady x i →
      plainBatons x → x.lap.buf = [] →
      ∃ t, exec i s = .next t ∧ onlyCtx s t s.turn ∧ queueDone x (ctxAt t s.turn) ∧ batonsMoved x (ctxAt t s.turn) i ∧
        (ctxAt t s.turn).regs = x.regs) ∧
    (∀ k b p, vectorReady s (.sbind k b) sh → x.marks = [] → x.lap.buf = [] → mayElement s .load (x.x b).toNat 32 p →
      ∃ t, exec (.sbind k b) s = .next t ∧ onlyCtx s t s.turn ∧ queueDone x (ctxAt t s.turn) ∧ (ctxAt t s.turn).regs = x.regs ∧
        let w := readNat s.mem p.key 32
        let code := w / 2 ^ 192 % 8
        let strip := w / 2 ^ 208 % 2 ^ 15
        let legal := w / 2 ^ 223 = 0 ∧ w / 2 ^ 198 % 2 ^ 10 = 0 ∧ w / 2 ^ 195 % 2 = 0 ∧ code ≤ 4 ∧
          strip * (4 * 2 ^ code) ≤ 16384 ∧ (code = 0 → w / 2 ^ 64 % 2 ^ 64 = 0)
        (legal → ∃ st, find? (ctxAt t s.turn).streams (48 + k.toNat) = some st ∧ st.base = BitVec.ofNat 64 w ∧
          st.stride = BitVec.ofNat 64 (w / 2 ^ 64) ∧ st.count = w / 2 ^ 128 % 2 ^ 64 ∧ st.width = 4 * 2 ^ code ∧
          st.strip = (if strip = 0 then vlmaxOf x.csr.vtype x.groups else strip) ∧
          st.store = (w / 2 ^ 196 % 2 == 1) ∧ st.device = (w / 2 ^ 197 % 2 == 1) ∧ st.entries = []) ∧
        (¬ legal → (ctxAt t s.turn).streams = [])) ∧
    (∀ (k : BitVec 4) st, x.occ = .running → x.vx = [] → x.vq = [] → x.held = none → x.park = .none → x.pend = [] →
      s.defer = false → x.streams = [(48 + k.toNat, st)] → (st.store = false ∨ st.entries = []) →
      ∃ t, exec (.sunbind k) s = .next t ∧ onlyCtx s t s.turn ∧ queueDone x (ctxAt t s.turn) ∧
        (ctxAt t s.turn).regs = x.regs ∧ (ctxAt t s.turn).streams = [])

/-- TMMA, TCVT and TCOPY of a context at a plain point, in a cluster without other jobs, memory without poison and no page in
re-encryption, of a partition without a route in the load-store domain: the instruction
retires once the engine has the card, and the card then shows that its job has ended, or that it has failed with a fault that
waits for the context; its batons move (R149, R197, R198, R211; that a job runs to its end at once where units defer nothing is
log 3: the model's choice). -/
def Obligations.JobsAreAcceptedAndEnd : Prop :=
  ∀ (s : State) (sh : Shape) (i : Instr) (b : XReg) (bw bp : Bool) (off : Nat),
    (i = .tcvt b bw bp ∨ i = .tcopy b bw bp ∨ ∃ m, i = .tmma b m bw bp) → vectorReady s i sh → noUnits s →
    (me s).lap.buf = [] → plainBatons (me s) → cleanMemory s → settled s → s.pkg.reenc = none →
    (∀ va, domainOpen s (me s).partid va = false) → ((me s).x b).toNat = ownWindow + off → off % 128 = 0 → off < poolBase →
    (bw = true → 0 < get 0 (me s).batons 2) → (bp = true → get 0 (me s).batons 3 < 4) →
    ∃ t, exec i s = .next t ∧
      let x := me s
      let y := ctxAt t s.turn
      let status := readNat t.mem (padKey (cluOf s.turn) off + 96) 8
      (∀ k, k ≠ s.turn → ctxAt t k = ctxAt s k) ∧ queueDone x y ∧ y.regs = x.regs ∧ y.lap.rewindable = false ∧
      (cluAt t (cluOf s.turn)).jobs = [] ∧
      ((status % 256 = 4 ∧ y.pend = [] ∧
          get 0 y.batons 2 = get 0 x.batons 2 - (if bw then 1 else 0) ∧ get 0 y.batons 3 = get 0 x.batons 3 + (if bp then 1 else 0)) ∨
        (status % 256 = 5 ∧ y.pend =
          [{ code := status / 256 % 256, val := x.x b, job := true, order := (cluAt s (cluOf s.turn)).nextJob }]))

/-- TCOPY of one row inside the own scratchpad: the bytes stand at their destination, the card shows state 4 and the bytes done, and
every other byte is as before. JSTAT of a card in a cluster without jobs gives xd the card's status word, and changes nothing else;
after the copy, that word (R197, R211, R217, R218). -/
def Obligations.CopiesMoveTheirBytes : Prop :=
  (∀ (s : State) (sh : Shape) (b : XReg) (off src dst n : Nat),
    vectorReady s (.tcopy b false false) sh → noUnits s → (me s).lap.buf = [] → ((me s).x b).toNat = ownWindow + off →
    off % 128 = 0 → off < poolBase → readNat s.mem (padKey (cluOf s.turn) off) 104 = copyCard src dst n → cleanMemory s → settled s →
    0 < n → n < 2 ^ 16 → src + n ≤ poolBase → dst + n ≤ poolBase →
    (src + n ≤ dst / 32 * 32 ∨ dst + n ≤ src / 32 * 32) → (dst + n ≤ off ∨ off + 128 ≤ dst) → (src + n ≤ off ∨ off + 128 ≤ src) →
    ∃ t, exec (.tcopy b false false) s = .next t ∧
      let k := padKey (cluOf s.turn)
      readBytes t.mem (k dst) n = readBytes s.mem (k src) n ∧ readNat t.mem (k off + 96) 8 = n * 2 ^ 32 + 4 ∧
      (∀ a, (a < k dst ∨ k dst + n ≤ a) → (a < k off + 96 ∨ k off + 128 ≤ a) → readByte t.mem a = readByte s.mem a) ∧
      queueDone (me s) (ctxAt t s.turn) ∧ (cluAt t (cluOf s.turn)).jobs = []) ∧
  ∀ (s : State) (sh : Shape) (d b : XReg) (off : Nat),
    vectorReady s (.jstat d b) sh → noUnits s → ((me s).x b).toNat = ownWindow + off → off % 128 = 0 → off < poolBase →
    ∃ t, exec (.jstat d b) s = .next t ∧ onlyCtx s t s.turn ∧ queueDone (me s) (ctxAt t s.turn) ∧
      (∀ r, (ctxAt t s.turn).x r = ((me s).setX d (readWord s.mem (padKey (cluOf s.turn) off + 96))).x r) ∧
      (ctxAt t s.turn).regs.v = (me s).regs.v ∧ (ctxAt t s.turn).regs.m = (me s).regs.m

/-! Ciphertexts -/

/-- CLD gives c[cd] a null or legal descriptor of an installed key and stops on any other; CST stores c[cd]; CINFO reads a field; TLD
gives t[td] a valid table image and stops on any other (R221, R222, R226, R228, R229, R232). -/
def Obligations.CiphertextRegistersLoadAndStore : Prop :=
  ∀ (s : State) (a : XReg), plain (me s) → (me s).lap.buf = [] →
    let x := me s
    let va := (x.x a).toNat
    (∀ (cd : BitVec 4) (p : Place), mayAccess s .load va 32 p →
      let d := BitVec.ofNat 256 (readNat s.mem p.key 32)
      (d = 0 ∨ (descFault d = none ∧ keyInstalled s (dieOf s.turn) x.partid (descKey d) = true ∧ descCharge d ≤ 1024) →
        ∃ t, exec (.cld cd a) s = .next t ∧ onlyCtx s t s.turn ∧ ctxAt t s.turn = wentOn (x.setC cd d)) ∧
      (d ≠ 0 → traced s s.turn = false →
        (∀ k, descFault d = some k → ∃ t, exec (.cld cd a) s = .next t ∧ took s t 0x14 (BitVec.ofNat 64 k) false) ∧
        (descFault d = none → keyInstalled s (dieOf s.turn) x.partid (descKey d) = false →
          ∃ t, exec (.cld cd a) s = .next t ∧ took s t 0x14 12 false))) ∧
    (∀ (cd : BitVec 4) (p : Place), mayAccess s .store va 32 p → x.lap.buffering = false →
      ∃ t, exec (.cst cd a) s = .next t ∧ readNat t.mem p.key 32 = (x.c cd).toNat ∧ elsewhere s t p.key 32 ∧
        (∀ k, k ≠ s.turn → ctxAt t k = ctxAt s k) ∧ ctxAt t s.turn = wentOn x) ∧
    (∀ (d : XReg) (c : BitVec 4) (sel : BitVec 3),
      exec (.cinfo d c sel) s = .next (withMe s (wentOn (x.setX d (BitVec.ofNat 64 (descField (x.c c) sel)))))) ∧
    (∀ (td : BitVec 3) (p : Place) (q : Nat → Place),
      reach s s.turn (frontAgent s s.turn) .load va 72 8 true (frontQuiet x) = .ok p →
      (∀ i, i < 9 → mayAccess s .load (va + 8 * i) 8 (q i) ∧ (q i).key = p.key + 8 * i) → va + 72 ≤ 2 ^ 64 →
      let v := BitVec.ofNat 576 (readNat s.mem p.key 72)
      (tableOk v = true → ∃ t, exec (.tld td a) s = .next t ∧ onlyCtx s t s.turn ∧ ctxAt t s.turn = wentOn (x.setT td v)) ∧
      (tableOk v = false → traced s s.turn = false → ∃ t, exec (.tld td a) s = .next t ∧ took s t 0x14 8 false))

/-- CARITH on legal batches of one parameter set, size, key and message width, whose noise stays within the limit, in a cluster
without jobs: c[cd] takes the sources' fields and the new charge, every coefficient of its batch is the form's modulo q from the
coefficients as they stood before, and every other byte and register is as before (R222, R224, R225, R227, R230, R231; that an
item performs in one step is log 49: the model's choice). -/
def Obligations.CiphertextArithmeticIsExactModuloQ : Prop :=
  ∀ (s : State) (i : Instr) (d : BitVec 4) (srcs : List (BitVec 4)) (ch : Nat → Nat → Nat → Nat)
    (f : Nat → Bool → Int → Int → Int → Int),
    carithRule i = some (d, srcs, ch, f) → calm s → noUnits s → cleanMemory s →
    sequencerMay s (cluOf s.turn) (me s).secure = true →
    let x := me s
    let ca := x.c (srcs.getD 0 0)
    let cb := x.c (srcs.getD 1 0)
    let cd := x.c d
    let charge := ch (descCharge ca) (descCharge cb) (descCharge cd)
    legalBatches (cd :: srcs.map x.c) (descPset ca) (descB ca) →
    (∀ r ∈ srcs, descKey (x.c r) = descKey ca ∧ descP (x.c r) = descP ca) → charge ≤ 1024 →
    let n := (paramSet (descPset ca)).n
    let at_ (m : Memory) (e : BitVec 256) (k : Nat) : Int := readNat m (padKey (cluOf s.turn) (descBase e - ownWindow) + 8 * k) 8
    let size := (n + 1) * descB ca * 8
    let dest := padKey (cluOf s.turn) (descBase cd - ownWindow)
    ∃ t, exec i s = .next t ∧ (∀ k, k ≠ s.turn → ctxAt t k = ctxAt s k) ∧ elsewhere s t dest size ∧
      (∀ k, k < (n + 1) * descB ca → at_ t.mem cd k =
        f (descP ca) (decide (n * descB ca ≤ k)) (at_ s.mem ca k) (at_ s.mem cb k) (at_ s.mem cd k) % qMod) ∧
      ctxAt t s.turn = wentOn (unrewindable (x.setC d
        (descOf (descBase cd) (descB ca) (descPset ca) (descP ca) 0 (descKey ca) charge))) ∧
      (cluAt t (cluOf s.turn)).jobs = []

/-- KPASS.open takes the free pass of lowest id with its header as its first member; join adds the context, run counts it and starts
the pass with the last, abort ends it and status reads the header; CRFN appends its batch to the pass and names the result (R226,
R234, R237–R242). -/
def Obligations.KeyPassesOpenJoinRunAndEnd : Prop :=
  ∀ (s : State) (d a b : XReg) (off : Nat), calm s →
    let x := me s
    let die := dieOf s.turn
    let clu := cluOf s.turn
    let pass (t : State) (k : Nat) := find? (dieAt t die).passes k
    let done (t : State) (v : Word) := (ctxAt t s.turn).pc = x.pc + 4 ∧ (ctxAt t s.turn).regs = (x.setX d v).regs ∧
      (ctxAt t s.turn).csr.retired = x.csr.retired + 1 ∧ (ctxAt t s.turn).lap.rewindable = false
    let w := readNat s.mem (padKey clu off) 64
    let header (r : XReg) := (x.x r).toNat = ownWindow + off ∧ off % 64 = 0 ∧ off < poolBase
    (header a → headerOk w = true → keyInstalled s die x.partid (headKey w) = true →
      (∀ k, k < 64 → pass s k = none → (∀ j, j < k → pass s j ≠ none) →
        ∃ t p m, exec (.kpassOpen d a) s = .next t ∧ done t (BitVec.ofNat 64 k) ∧ (ctxAt t s.turn).pass = some k ∧
          pass t k = some p ∧ p.state = 1 ∧ p.key.toNat = headKey w ∧ p.pset = headPset w ∧ p.launch = x.work.launch ∧
          p.joined = [s.turn] ∧ p.ran = [] ∧ p.members = [m] ∧ m.header = padKey clu off ∧ m.ents = [] ∧
          readNat t.mem (padKey clu off + 56) 1 % 8 = 1) ∧
      ((∀ j, j < 64 → pass s j ≠ none) →
        ∃ t, exec (.kpassOpen d a) s = .next t ∧ done t 0xFFFFFFFFFFFFFFFF ∧ (dieAt t die).passes = (dieAt s die).passes)) ∧
    (header a → ∃ t, exec (.kpassStatus d a) s = .next t ∧ done t (readWord s.mem (padKey clu off + 56)) ∧ t.mem = s.mem) ∧
    (∀ p, pass s (x.x a).toNat = some p → p.launch = x.work.launch →
      (p.state ≠ 1 → (p.memberIn clu).isSome = true →
        (∃ t, exec (.kpassJoin d a 0) s = .next t ∧ done t 1 ∧ pass t (x.x a).toNat = some p) ∧
        ∃ t, exec (.kpassRun d a b) s = .next t ∧ done t 1 ∧ pass t (x.x a).toNat = some p) ∧
      (p.state = 1 → ∀ m, p.memberIn clu = some m → p.joined.contains s.turn = false →
        ∃ t q, exec (.kpassJoin d a 0) s = .next t ∧ done t 0 ∧ (ctxAt t s.turn).pass = some (x.x a).toNat ∧
          pass t (x.x a).toNat = some q ∧ q = { p with joined := p.joined ++ [s.turn] }) ∧
      (p.state = 1 → p.joined.contains s.turn = true → p.ran.contains s.turn = false →
        (∃ m ∈ p.members, m.ents ≠ []) →
        ∃ t q, exec (.kpassRun d a b) s = .next t ∧ done t 0 ∧ (ctxAt t s.turn).pass = none ∧
          pass t (x.x a).toNat = some q ∧ q.ran = s.turn :: p.ran ∧
          q.askers = (if (x.x b).getLsbD 0 then s.turn :: p.askers else p.askers) ∧
          q.state = if p.joined.all (fun c => (s.turn :: p.ran).contains c) then 2 else 1) ∧
      (3 ≤ p.state → ∃ t, exec (.kpassAbort d a) s = .next t ∧ done t 1 ∧ pass t (x.x a).toNat = some p) ∧
      (p.state = 1 ∨ p.state = 2 → p.askers = [] →
        ∃ t, exec (.kpassAbort d a) s = .next t ∧ done t 0 ∧ pass t (x.x a).toNat = none)) ∧
    (∀ (cd ca : BitVec 4) (tr : BitVec 3) k p m, x.pass = some k → pass s k = some p → p.memberIn clu = some m →
      passCode (some p) x.work.launch s.turn (x.c ca) = 0 → x.c ca ≠ 0 → x.c cd ≠ 0 →
      descPset (x.c cd) = descPset (x.c ca) → descB (x.c cd) = descB (x.c ca) → tabPin (x.t tr) = descP (x.c ca) →
      tabPout (x.t tr) ≤ (paramSet (descPset (x.c ca))).maxP → groupsRetired s clu = false →
      keyInstalled s die x.partid (descKey (x.c ca)) = true → (∀ j ∈ (cluAt s clu).jobs, j.kind.starts = false ∧ j.doom = none) →
      ∃ t q n e, exec (.crfn cd ca tr) s = .next t ∧ (ctxAt t s.turn).pc = x.pc + 4 ∧
        (ctxAt t s.turn).regs = (x.setC cd (descOf (descBase (x.c cd)) (descB (x.c ca)) (descPset (x.c ca)) (tabPout (x.t tr)) 1
          (descKey (x.c ca)) 16)).regs ∧
        pass t k = some q ∧ q.memberIn clu = some n ∧ n.ents = m.ents ++ [e] ∧ e.src = x.c ca ∧ e.tab = x.t tr ∧ e.est = 0 ∧
        e.out = (ctxAt t s.turn).c cd)

/-! Synchronisation -/

/-- HURDLE while no other context waits: an arrival counts, and the last one advances the phase; the excess of one that overruns is
discarded, on a hurdle that expects nothing all of it, and raises HURDLE at the next instruction, also where the hurdle holds more
than it expects; an arrival of 0 without excess changes nothing; aw gives 1 where its arrival has advanced the phase, and waits
otherwise, but for an overrun, which gives 0; a wait completes, gives up with no bound, or parks; init sets the hurdle (R245,
R247–R250). -/
def Obligations.HurdlesCountAndAdvance : Prop :=
  ∀ (s : State) (d a b : XReg) (sc : BitVec 3) (p : Place) (wt la oc ov ph ar ex : Nat), calm s →
    let x := me s
    let va := (x.x a).toNat
    let n := (x.x b).toNat % 4096
    let bound := min (2 ^ 20) ((x.x b).toNat / 2 ^ 16)
    let y (t : State) := ctxAt t s.turn
    let la' := if n = 0 then la else s.turn
    let rest (t : State) := (∀ k, k ≠ s.turn → ctxAt t k = ctxAt s k) ∧ elsewhere s t p.key 16
    let parked (t : State) (h : Nat) := gaveX x (y t) d 0 ∧
      (y t).park = .hurdle (BitVec.ofNat 64 va) h (cycleOf s s.turn + bound) d
    mayObject s va 16 p → hurdleAt s.mem p.key wt la oc ov ph ar ex → s.turn < 4096 → aloneWaiting s →
    (ar < ex →
      (ar + n < ex → ∃ t, exec (.hurdleArrive d a b sc) s = .next t ∧ rest t ∧ gaveX x (y t) d (BitVec.ofNat 64 ph) ∧
        hurdleAt t.mem p.key wt la' oc ov ph (ar + n) ex) ∧
      (ar + n = ex → ∃ t, exec (.hurdleArrive d a b sc) s = .next t ∧ rest t ∧ gaveX x (y t) d (BitVec.ofNat 64 ph) ∧
        hurdleAt t.mem p.key wt la' oc ov ((ph + 1) % 16) 0 ex) ∧
      (ar + n < ex → 0 < bound → ∃ t, exec (.hurdleAw d a b sc) s = .next t ∧ rest t ∧ parked t ph ∧
        hurdleAt t.mem p.key ((wt + 1) % 65536) la' oc ov ph (ar + n) ex) ∧
      (ar + n < ex → bound = 0 → ∃ t, exec (.hurdleAw d a b sc) s = .next t ∧ rest t ∧ gaveX x (y t) d 0 ∧
        (y t).park = .none ∧ hurdleAt t.mem p.key wt la' oc ov ph (ar + n) ex) ∧
      (ar + n = ex → ∃ t, exec (.hurdleAw d a b sc) s = .next t ∧ rest t ∧ gaveX x (y t) d 1 ∧ (y t).park = .none ∧
        hurdleAt t.mem p.key wt la' oc ov ((ph + 1) % 16) 0 ex)) ∧
    (let stops (t : State) (v : Nat) := rest t ∧ (y t).x d = (x.setX d (BitVec.ofNat 64 v)).x d ∧
       ((y t).trap (handlingLevel x false)).cause = 0x13 ∧ ((y t).trap (handlingLevel x false)).val = BitVec.ofNat 64 va ∧
       ((y t).trap (handlingLevel x false)).pc = x.pc + 4
     traced s s.turn = false →
      (0 < ex → ex < ar + n →
        let past (t : State) := hurdleAt t.mem p.key wt la' (min 0xFFFF (oc + (ar + n - ex))) 1 ((ph + 1) % 16) 0 ex
        (∃ t, exec (.hurdleArrive d a b sc) s = .next t ∧ stops t ph ∧ past t) ∧
        ∃ t, exec (.hurdleAw d a b sc) s = .next t ∧ stops t 1 ∧ past t) ∧
      (ex = 0 → 0 < n →
        let past (t : State) := hurdleAt t.mem p.key wt s.turn (min 0xFFFF (oc + n)) 1 ph 0 0
        (∃ t, exec (.hurdleArrive d a b sc) s = .next t ∧ stops t ph ∧ past t) ∧
        ∃ t, exec (.hurdleAw d a b sc) s = .next t ∧ stops t 0 ∧ past t)) ∧
    (n = 0 → ar ≤ ex ∨ ex = 0 →
      (∃ t, exec (.hurdleArrive d a b sc) s = .next t ∧ rest t ∧ gaveX x (y t) d (BitVec.ofNat 64 ph) ∧ t.mem = s.mem) ∧
      (bound = 0 → ∃ t, exec (.hurdleAw d a b sc) s = .next t ∧ rest t ∧ gaveX x (y t) d 0 ∧ (y t).park = .none ∧
        t.mem = s.mem) ∧
      (0 < bound → ∃ t, exec (.hurdleAw d a b sc) s = .next t ∧ rest t ∧ parked t ph ∧
        hurdleAt t.mem p.key ((wt + 1) % 65536) la oc ov ph ar ex)) ∧
    (ph ≠ n % 16 → ∃ t, exec (.hurdleWait d a b sc) s = .next t ∧ rest t ∧ gaveX x (y t) d 1 ∧ t.mem = s.mem) ∧
    (ph = n % 16 → bound = 0 → ∃ t, exec (.hurdleWait d a b sc) s = .next t ∧ rest t ∧ gaveX x (y t) d 0 ∧ t.mem = s.mem ∧
      (y t).watched = some (false, BitVec.ofNat 64 va)) ∧
    (ph = n % 16 → 0 < bound → ∃ t, exec (.hurdleWait d a b sc) s = .next t ∧ rest t ∧ parked t ph ∧
      hurdleAt t.mem p.key ((wt + 1) % 65536) la oc ov ph ar ex) ∧
    (n ≠ 0 → ∃ t, exec (.hurdleInit d a b sc) s = .next t ∧ rest t ∧ gaveX x (y t) d 0 ∧
      hurdleAt t.mem p.key wt 0 0 0 ((x.x b).toNat / 4096 % 16) 0 n) ∧
    (n = 0 → ∃ t, exec (.hurdleInit d a b sc) s = .next t ∧ rest t ∧ gaveX x (y t) d 1 ∧ t.mem = s.mem)

/-- A context parked on a hurdle passes it with 1 in its register when an arrival advances the phase up to the cycle of its bound, or
when it finds at a check up to then that the phase differs; it gives up with 0, and watches the hurdle, when that cycle has passed;
either way it leaves the hurdle's waiters (R249, R252). -/
def Obligations.ParkedContextsPassTheirHurdle : Prop :=
  (∀ (s : State) (d a b : XReg) (sc : BitVec 3) (p : Place) (wt la oc ov ph ar k u : Nat) (vk : Word) (dk : XReg), calm s → cleanMemory s →
    (coreAt s (coreOf s.turn)).stb.length < 256 →
    let va := ((me s).x a).toNat
    let n := ((me s).x b).toNat % 4096
    mayObject s va 16 p → hurdleAt s.mem p.key wt la oc ov ph ar (ar + n) → 0 < n → s.turn < 4096 →
    waitingContexts s = [k] → k ≠ s.turn → (ctxAt s k).park = .hurdle vk ph u dk → cycleOf s k ≤ u →
    (∀ m, placeKey { s with mem := m } k vk.toNat = some p.key) →
    (∀ m, ∃ q, decide { s with mem := m } (frontAgent s k) .atomic vk.toNat = .ok q ∧ q.key = p.key) →
    ∃ t, exec (.hurdleArrive d a b sc) s = .next t ∧ gaveX (me s) (ctxAt t s.turn) d (BitVec.ofNat 64 ph) ∧
      ctxAt t k = { (ctxAt s k).discardLoads.setX dk 1 with park := .none } ∧
      hurdleAt t.mem p.key ((wt + 65535) % 65536) s.turn oc ov ((ph + 1) % 16) 0 (ar + n)) ∧
  ∀ (s : State) (c : CtxId) (va : Word) (ph u q wt la oc ov ar ex : Nat) (dk : XReg) (p : Place), s.signal = .ctx c →
    let n := c.toNat
    let x := ctxAt s n
    x.park = .hurdle va ph u dk → ph < 16 → cleanMemory s → decide s (frontAgent s n) .atomic va.toNat = .ok p → placeKey s n va.toNat = some p.key →
    hurdleAt s.mem p.key wt la oc ov q ar ex →
    let left (t : State) := hurdleAt t.mem p.key ((wt + 65535) % 65536) la oc ov q ar ex ∧ elsewhere s t p.key 16 ∧
      ∀ k, k ≠ n → ctxAt t k = ctxAt s k
    ∀ i, (i = .hurdleWake ∨ i = .hurdleRecheck ∨ i = .hurdleWaitTimeout) →
      (q ≠ ph → cycleOf s n ≤ u →
        ∃ t, exec i s = .next t ∧ left t ∧ ctxAt t n = { x.discardLoads.setX dk 1 with park := .none }) ∧
      (q = ph → cycleOf s n ≤ u → exec i s = .next s) ∧
      (u < cycleOf s n → ∃ t, exec i s = .next t ∧ left t ∧
        ctxAt t n = { x.setX dk 0 with park := .none, watched := some (false, va) })

/-- Rings and watermarks while no other context waits: QPUSH stores its word at the tail and QPOP takes the one at the head, with 1;
QPEEK leaves it; a full, an empty or a broken ring gives 0, 0 or 2 and stays; WMARK.pub raises the mark up to the length and gives the
old one, bind copies it and unbind forgets it, and the update of a copy gives it what was sent (R253–R255, R304–R307). -/
def Obligations.RingsAndWatermarksHoldTheirOrder : Prop :=
  ∀ (s : State) (d a b : XReg) (sc : BitVec 3) (p q : Place), calm s → aloneWaiting s →
    let x := me s
    let va := (x.x a).toNat
    let y (t : State) := ctxAt t s.turn
    let pair (t : State) (v : Word) (c : Nat) := (y t).pc = x.pc + 4 ∧ (y t).regs = ((x.setX d v).setX b (BitVec.ofNat 64 c)).regs ∧
      (y t).csr = { x.csr with retired := x.csr.retired + 1 }
    let others (t : State) := ∀ k, k ≠ s.turn → ctxAt t k = ctxAt s k
    (∀ head tail lcap, mayObject s va 64 p → ringAt s.mem p.key head tail lcap →
      let cap := 2 ^ lcap
      let used := (tail + 2 ^ 64 - head) % 2 ^ 64
      let entry (n : Nat) := (va + 64 + 8 * (n % cap)) % 2 ^ 64
      let apart_ := q.key + 8 ≤ p.key ∨ p.key + 64 ≤ q.key
      let may (acc : Acc) (n : Nat) := reach s s.turn (frontAgent s s.turn) acc (entry n) 8 8 false (frontQuiet x) = .ok q ∧
        sectorState s q = none ∧ q.dev = false ∧ q.raw = false ∧ apart_
      let only (t : State) := ∀ c, (c < p.key ∨ p.key + 64 ≤ c) → (c < q.key ∨ q.key + 8 ≤ c) → readByte t.mem c = readByte s.mem c
      (lcap ≤ 16 → used < cap → may .store tail → ∃ t, exec (.qpush d a b sc) s = .next t ∧ gaveX x (y t) d 1 ∧ others t ∧ only t ∧
        readNat t.mem q.key 8 = (x.x b).toNat ∧ ringAt t.mem p.key head ((tail + 1) % 2 ^ 64) lcap) ∧
      (lcap ≤ 16 → used = cap → ∃ t, exec (.qpush d a b sc) s = .next t ∧ gaveX x (y t) d 0 ∧ others t ∧ t.mem = s.mem) ∧
      (lcap ≤ 16 → 0 < used → used ≤ cap → may .load head →
        (∃ t, exec (.qpop d a b sc) s = .next t ∧ pair t (readWord s.mem q.key) 1 ∧ others t ∧ elsewhere s t p.key 64 ∧
          ringAt t.mem p.key ((head + 1) % 2 ^ 64) tail lcap) ∧
        ∃ t, exec (.qpeek d a b sc) s = .next t ∧ pair t (readWord s.mem q.key) 1 ∧ others t ∧ t.mem = s.mem) ∧
      (lcap ≤ 16 → used = 0 → ∀ i, (i = .qpop d a b sc ∨ i = .qpeek d a b sc) →
        ∃ t, exec i s = .next t ∧ pair t 0 0 ∧ others t ∧ t.mem = s.mem) ∧
      (16 < lcap ∨ cap < used →
        (∃ t, exec (.qpush d a b sc) s = .next t ∧ gaveX x (y t) d 2 ∧ others t ∧ t.mem = s.mem) ∧
        ∀ i, (i = .qpop d a b sc ∨ i = .qpeek d a b sc) → ∃ t, exec i s = .next t ∧ pair t 0 2 ∧ others t ∧ t.mem = s.mem)) ∧
    (∀ base len mark, markAt s.mem p.key base len mark →
      (mayObject s va 32 p → boundContexts s = [] → ∃ t, exec (.wmarkPub d a b sc) s = .next t ∧
        gaveX x (y t) d (BitVec.ofNat 64 mark) ∧ others t ∧ elsewhere s t p.key 32 ∧
        markAt t.mem p.key base len (min len (max mark (x.x b).toNat))) ∧
      (mayAccess s .load va 32 p → x.marks = [] →
        (len ≠ 0 → base + len ≤ 2 ^ 64 → ∃ t, exec (.wmarkBind d a sc) s = .next t ∧ gaveX x (y t) d (BitVec.ofNat 64 mark) ∧
          onlyCtx s t s.turn ∧
          (y t).marks = [{ obj := BitVec.ofNat 64 va, base := base, len := len, mark := mark, sent := mark }]) ∧
        (len = 0 ∨ 2 ^ 64 < base + len → ∃ t, exec (.wmarkBind d a sc) s = .next t ∧ gaveX x (y t) d 0xFFFFFFFFFFFFFFFF ∧
          onlyCtx s t s.turn ∧ (y t).marks = []))) ∧
    (mayAccess s .load va 32 p → ∃ t, exec (.wmarkUnbind a) s = .next t ∧ onlyCtx s t s.turn ∧ (y t).pc = x.pc + 4 ∧
      (y t).regs = x.regs ∧ (y t).marks = x.marks.filter (fun m => placeKey s s.turn m.obj.toNat != some p.key)) ∧
    (∀ c obj, s.signal = .mark c obj → ∃ t, exec .wmarkCopyUpdate s = .next t ∧ onlyCtx s t c.toNat ∧
      (ctxAt t c.toNat).marks = (ctxAt s c.toNat).marks.map (fun m => if m.obj = obj then { m with mark := m.sent } else m) ∧
      (ctxAt t c.toNat).regs = (ctxAt s c.toNat).regs)

/-! Publication, views and launches -/

/-- The PUB forms of a launch that names the record: PUBV publishes a newer version into a free slot, and otherwise answers or stops;
PUBF ends refinement; STOPR asks for a stop; REFCHK and REFQ report; a launch that does not name it stops with PARAM (R293, R298,
R300–R303). -/
def Obligations.PublicationFormsActOnTheirRecord : Prop :=
  ∀ (s : State) (d a b : XReg) (l : Launch), calm s → launchOf s s.turn = some l →
    let x := me s
    let die := dieOf s.turn
    let r := (x.x a).toNat % 4096
    let j := (x.x a).toNat / 2 ^ 12 % 4
    let v := (x.x a).toNat / 2 ^ 16 % 2 ^ 16
    let rec_ (t : State) (k : Nat) := recAt (dieAt t die) k
    let p := rec_ s r
    let y (t : State) := ctxAt t s.turn
    let same (t : State) := t.mem = s.mem ∧ (∀ k, k ≠ s.turn → ctxAt t k = ctxAt s k) ∧ ∀ k, k ≠ r → rec_ t k = rec_ s k
    (l.outputs r = true → j ≠ 3 → (x.x b).toNat % 64 = 0 →
      (v ≤ p.version → traced s s.turn = false →
        ∃ t, exec (.pubv d a b) s = .next t ∧ stoppedWith x (y t) 0x16 (BitVec.ofNat 64 r) ∧ same t ∧ rec_ t r = p) ∧
      (p.version < v → (p.ended = true ∨ p.state = 4) → ∃ t, exec (.pubv d a b) s = .next t ∧ gaveX x (y t) d 2 ∧ same t ∧ rec_ t r = p) ∧
      (p.version < v → p.ended = false → p.state ≠ 4 → versionBound (dieAt s die) p (p.slotVersion j) = true →
        ∃ t, exec (.pubv d a b) s = .next t ∧ gaveX x (y t) d 1 ∧ same t ∧ rec_ t r = p) ∧
      (p.version < v → p.ended = false → p.state ≠ 4 → p.consumers = [] → (isDeadline l.header = true → l.published r < headerVmax l.header) →
        ∃ t, exec (.pubv d a b) s = .next t ∧ gaveX x (y t) d 0 ∧ same t ∧ (rec_ t r).version = v ∧ (rec_ t r).state = 2 ∧
          (rec_ t r).slots = put p.slots j (x.x b, v))) ∧
    (l.outputs r = true →
      (∃ t, exec (.pubf d a) s = .next t ∧ gaveX x (y t) d (BitVec.ofNat 64 p.version) ∧ same t ∧
        (p.ended = false → p.state ≠ 4 → rec_ t r = { p with ended := true, state := 3, inputs := l.bound }) ∧
        (p.ended = true ∨ p.state = 4 → rec_ t r = p)) ∧
      ∃ t, exec (.refchk d a) s = .next t ∧ gaveX x (y t) d (oneIf p.stopreq) ∧ same t ∧ rec_ t r = p) ∧
    (l.outputs r = true ∨ l.inputs r = true →
      (p.state = 3 ∨ p.state = 4 → ∃ t, exec (.stopr d a) s = .next t ∧ gaveX x (y t) d 1 ∧ same t ∧ rec_ t r = p) ∧
      (p.state ≠ 3 → p.state ≠ 4 →
        ∃ t, exec (.stopr d a) s = .next t ∧ gaveX x (y t) d 0 ∧ same t ∧ rec_ t r = { p with stopreq := true }) ∧
      (p.version < 2 ^ 16 → p.state < 8 → d ≠ b → b ≠ 0 → ∃ t, exec (.refq d a b) s = .next t ∧ same t ∧ rec_ t r = p ∧
        (y t).pc = x.pc + 4 ∧ (∀ q, q ≠ d → q ≠ b → (y t).x q = x.x q) ∧
        let w := ((y t).x b).toNat
        (l.outputs r = true → bitsOf w 0 16 = p.version) ∧
        (l.boundTo r < 2 ^ 16 → l.outputs r = false → bitsOf w 0 16 = l.boundTo r) ∧
        (l.boundTo r < 2 ^ 16 → bitsOf w 16 3 = p.state ∧ bitsOf w 19 1 = p.forced.toNat ∧ bitsOf w 20 1 = p.stopreq.toNat))) ∧
    (l.outputs r = false → traced s s.turn = false →
      (∀ i, (i = .pubv d a b ∨ i = .pubf d a ∨ i = .refchk d a) → ∃ t, exec i s = .next t ∧ took s t 0x14 1 false) ∧
      (l.inputs r = false → ∀ i, (i = .stopr d a ∨ i = .refq d a b) → ∃ t, exec i s = .next t ∧ took s t 0x14 1 false))

/-- The VIEW forms: NEW takes the lowest run of free cells, NARROW and SPLIT divide a live view, DUP copies it, DROP ends it, QUERY
reads its range or its id or takes an id; a dead or foreign id stops with VIEW and a range outside the view with WIDEN; a cell whose
last access has performed drains no more (R308–R314). -/
def Obligations.ViewsCoverAndReleaseCells : Prop :=
  ∀ (s : State) (hd ha : BitVec 4) (a b : XReg), calm s → traced s s.turn = false →
    let x := me s
    let y (t : State) := ctxAt t s.turn
    let id := x.h ha
    let own (f : Nat) := dieAt s (ownerDie f)
    let room (f : Nat) := (own f).views.length < 1048576 ∧ ascending 0 (own f).views = true ∧ 0 < (own f).serial ∧
      (own f).serial < 2 ^ 42
    let new (t : State) (f lo hi : Nat) := ∃ w v, gaveH x (y t) hd w ∧ w ≠ 0 ∧ viewOf t s.turn w = some v ∧ v.frame = f ∧ v.lo = lo ∧
      v.hi = hi ∧ v.part = x.partid
    let pos := (x.x a).toNat
    let len := (x.x b).toNat
    (∀ f e, pos < 2 ^ 41 → pos % 2 ^ 30 = 0 → residentLeaf s (dieOf s.turn) x.asid.toNat pos = some e → coveredFrame e = some f →
      0 < len → len ≤ 2 ^ 30 → room f → let n := (len + 4095) / 4096
      (∀ k, k + n ≤ 262144 → cellsFree (own f) f k n = true → (∀ j, j < k → cellsFree (own f) f j n = false) →
        ∃ t, exec (.viewNew hd a b) s = .next t ∧ new t f (4096 * k) (4096 * k + len) ∧ t.mem = s.mem) ∧
      ((∀ k, k + n ≤ 262144 → cellsFree (own f) f k n = false) →
        ∃ t, exec (.viewNew hd a b) s = .next t ∧ gaveH x (y t) hd 0 ∧ t.mem = s.mem)) ∧
    (∀ v base, viewOf s s.turn id = some v → baseOf s s.turn v.frame = some base →
      (base + v.lo ≤ pos → pos + len ≤ base + v.hi → noUnits s →
        ∃ t, exec (.viewNarrow ha a b) s = .next t ∧ (y t).pc = x.pc + 4 ∧ (y t).regs = x.regs ∧
          viewOf t s.turn id = some { v with lo := pos - base, hi := pos - base + len }) ∧
      (pos < base + v.lo ∨ base + v.hi < pos + len → ∃ t, exec (.viewNarrow ha a b) s = .next t ∧ took s t 0x09 id false) ∧
      (base + v.lo ≤ pos → pos ≤ base + v.hi → room v.frame → ∃ t, exec (.viewSplit hd ha a) s = .next t ∧
        new t v.frame (pos - base) v.hi ∧ viewOf t s.turn id = some { v with hi := pos - base }) ∧
      (room v.frame → ∃ t, exec (.viewDup hd ha) s = .next t ∧ new t v.frame v.lo v.hi ∧ viewOf t s.turn id = some v) ∧
      (noUnits s → ∃ t, exec (.viewDrop ha) s = .next t ∧ (y t).pc = x.pc + 4 ∧ (y t).h ha = 0 ∧
        find? (dieAt t (idDie id)).views (idSlot id) = none) ∧
      (∃ t, exec (.viewQuery ha a b) s = .next t ∧ (y t).pc = x.pc + 4 ∧
        (y t).regs = ((x.setX a (BitVec.ofNat 64 (base + v.lo))).setX b (BitVec.ofNat 64 (base + v.hi))).regs) ∧
      (∃ t, exec (.viewId ha a) s = .next t ∧ gaveX x (y t) a id)) ∧
    ((viewOf s s.turn (x.x a)).isSome = true ∨ x.x a = 0 → ∃ t, exec (.viewTake ha a) s = .next t ∧ gaveH x (y t) ha (x.x a)) ∧
    (viewOf s s.turn id = none → id ≠ 0 → ∀ i, (i = .viewNarrow ha a b ∨ i = .viewSplit hd ha a ∨ i = .viewDup hd ha ∨
      i = .viewDrop ha ∨ i = .viewQuery ha a b ∨ i = .viewId ha a) → ∃ t, exec i s = .next t ∧ took s t 0x08 id false) ∧
    (∀ die frame cell, s.signal = .cell die frame cell → ownerDie frame = die.toNat →
      (frame, cell) ∈ (dieAt s die.toNat).draining → ∃ t, exec .cellFree s = .next t ∧ (∀ k, ctxAt t k = ctxAt s k) ∧
        (dieAt t die.toNat).views = (dieAt s die.toNat).views ∧
        (dieAt t die.toNat).draining = (dieAt s die.toNat).draining.filter (fun e => e != (frame, cell)))

/-- LAUNCH, direct or indirect, of a legal header and leg table in the own scratchpad, while no request waits: the answer of admission
reaches xd, and an accepted launch stands on the die under a free id with its promise and its first completion words; a best-effort
launch is accepted with 0 while there is room (R264–R268, R274). -/
def Obligations.LaunchesAreAdmittedOrRefused : Prop :=
  ∀ (s : State) (i : Instr) (ind : Bool) (d a : XReg) (off loff : Nat),
    ((i = .launch d a ∧ ind = false) ∨ (i = .launchInd d a ∧ ind = true)) → calm s → noUnits s → (me s).wps = [] → s.turn < 4096 →
    cleanMemory s → s.pkg.reenc = none → (dieAt s (dieOf s.turn)).requests = [] → (dieAt s (dieOf s.turn)).nextId < 2 ^ 16 →
    let x := me s
    let die := dieOf s.turn
    let h := padWords s off 32
    let legs := (List.range (headerLegs h)).map (fun k => padWords s (loff + 128 * k) 16)
    (x.x a).toNat = ownWindow + off → off % 256 = 0 → off + 256 ≤ poolBase →
    (hw h 6).toNat = ownWindow + loff → loff + 128 * headerLegs h ≤ poolBase →
    headerFault h (dieAt s die) die ind = none → legsFault legs = none →
    (∃ p, decide s (frontAgent s s.turn) .store (headerDone h) = .ok p) →
    let full := dieHeader (cluOf s.turn) h
    let v := verdict s die x.partid full
    ∃ t, exec i s = .next t ∧ gaveX x (ctxAt t s.turn) d (BitVec.ofNat 64 v) ∧
      (2 ^ 63 ≤ v → (dieAt t die).launches = (dieAt s die).launches ∧ t.mem = s.mem) ∧
      (v < 2 ^ 63 → ∃ id l, find? (dieAt s die).launches id = none ∧ find? (dieAt t die).launches id = some l ∧
        l.header = full ∧ l.legs = legs ∧ l.indirect = ind ∧ l.promise = v ∧ l.admitted = (dieAt s die).cycle ∧
        l.part = x.partid ∧ l.retired = 0 ∧
        ∀ p, decide s (launchAgent die l) .store (headerDone full) = .ok p → sectorState s p = none →
          readNat t.mem p.key 8 % 2 ^ 24 = 2 ^ 16 + id % 2 ^ 16 ∧ readNat t.mem (p.key + 16) 8 = v) ∧
      (isDeadline full = false → s.pkg.quiesced = false → (dieAt s die).launches.length < 4096 →
        recordsOk (dieAt s die) full = true → v = 0)

/-! What the units do on their own -/

/-- The vector unit and the access engine start what is ready, with its baton popped; a checked instruction retires, but for a
word of VBFLY.H.f, which stays with its run, and a mismatch rewinds its lap, with its streams; the pipeline takes the other
world's work; streams are filled and drained; a wait of 1,024 cycles sends a probe, whose first return to a blocked baton wait
restarts it and whose second makes DEADLOCK pending (R150, R152, R163–R169; when a unit acts is the schedule's, log 3, and the
chain of a probe is log 57: the model's choices). -/
def Obligations.QueuesStreamsAndWaitsGoOn : Prop :=
  (∀ (s : State) (k : CoreId) (c : Nat) (e : VEntry), s.signal = .core k → c / 4 = k.toNat →
    let x := ctxAt s c
    x.vq = [e] → x.vx = [] → x.streams = [] → x.occ = .running → x.stopping = none → x.owed = [] → (dieAt s (dieOf c)).passes = [] →
    (cluAt s (cluOf c)).jobs = [] → (∀ j, j / 4 = k.toNat → j ≠ c → (ctxAt s j).vq = []) →
    (∀ q, batonWait e.instr = some q → 0 < get 0 x.batons q) → 0 < (coreAt s k.toNat).groups →
    (coreAt s k.toNat).pipeSecure = x.secure → (coreAt s k.toNat).otherWaits < 64 →
    ∃ t, exec .vectorStart s = .next t ∧ onlyCtx s t c ∧
      let y := ctxAt t c
      y.vq = [] ∧ y.vx = [{ e with popped := (batonWait e.instr).isSome }] ∧ y.regs = x.regs ∧ y.csr = x.csr ∧ y.pc = x.pc ∧
      ∀ q, get 0 y.batons q + (if batonWait e.instr = some q then 1 else 0) = get 0 x.batons q) ∧
  (∀ (s : State) (c : CtxId) (e : VEntry) (i : Instr),
    ((i = .vectorRetire ∧ s.signal = .ctx c) ∨ (i = .witnessCheck ∧ s.signal = .witness c false)) →
    let n := c.toNat
    let x := ctxAt s n
    x.vx = [e] → x.streams = [] → x.occ = .running → x.stopping = none → x.held = none → computes e.instr = true → entryOk x e = true →
    ∃ t, exec i s = .next t ∧ onlyCtx s t n ∧ (ctxAt t n).vx = [] ∧ (ctxAt t n).vq = x.vq ∧ (ctxAt t n).pc = x.pc ∧
      (ctxAt t n).csr.retired = x.csr.retired + (if staysInRun e.instr then 0 else 1)) ∧
  (∀ (s : State) (c : CtxId) (e : VEntry) (k : Checkpoint), s.signal = .witness c true →
    let n := c.toNat
    let x := ctxAt s n
    x.vx = [e] → x.occ = .running → x.stopping = none → x.held = none → x.park = .none → x.lap.ckpt = some k →
    x.lap.rewindable = true → x.lap.rewinds < 4 → x.lap.missed = [] → witnessList x e ≠ [] →
    ∃ t, exec .witnessCheck s = .next t ∧ (∀ j, j ≠ n → ctxAt t j = ctxAt s j) ∧ s.pkg.logCount < t.pkg.logCount ∧
      let y := ctxAt t n
      y.occ = .running ∧ y.pc = k.pc ∧ y.vx = [] ∧ y.vq = [] ∧ y.csr.vl = k.vl ∧ y.csr.es = k.es ∧ y.lap.buf = [] ∧
      y.lap.rewinds = x.lap.rewinds + 1 ∧ y.streams = mapStreams Stream.again k.streams ∧
      (x.lap.popped = [] → y.batons = x.batons)) ∧
  (∀ (s : State) (k : CoreId) (c : Nat) (e : VEntry), s.signal = .core k → c / 4 = k.toNat →
    let x := ctxAt s c
    x.secure = true → x.vq = [e] → x.vx = [] → accessEngine e.instr = false → batonWait e.instr = none → x.streams = [] →
    (dieAt s (dieOf c)).passes = [] → (cluAt s (cluOf c)).jobs = [] → x.occ = .running → x.stopping = none → x.held = none →
    (∀ j, j / 4 = k.toNat → j ≠ c → (ctxAt s j).vq = [] ∧ (ctxAt s j).vx = [] ∧ (ctxAt s j).held = none) →
    0 < (coreAt s k.toNat).groups → (coreAt s k.toNat).pipeSecure = false →
    ∃ t, exec .worldSwitch s = .next t ∧ t.mem = s.mem ∧ (∀ j, ctxAt t j = ctxAt s j) ∧ (coreAt t k.toNat).pipeSecure = true ∧
      (coreAt t k.toNat).otherWaits = 0) ∧
  (∀ (s : State) (c : CtxId) (k : BitVec 4) (st : Stream) (p : Nat → Place), s.signal = .stream c k →
    let n := c.toNat
    let x := ctxAt s n
    x.occ = .running → x.streams = [(48 + k.toNat, st)] → st.device = false → st.width = 4 ∨ st.width % 8 = 0 →
    0 < st.width → st.strip * st.width ≤ 16384 →
    let may (acc : Acc) (whole : Bool) (j : Nat) := reach s n (vectorAgent s n) acc (st.addr j) st.bytes st.bytes whole false = .ok (p j) ∧
      sectorState s (p j) = none ∧ (p j).dev = false ∧ (p j).raw = false ∧ (p j).nsp = false
    (x.marks = [] → x.lap.buf = [] → s.pkg.badScales = [] → st.store = false → st.entries = [] → st.fill < st.count →
      (∀ j, st.fill ≤ j → j < st.fill + st.strip → j < st.count → may .load true j) →
      ∃ t en, exec .streamFill s = .next t ∧ t.mem = s.mem ∧
        (ctxAt t n).streams = [(48 + k.toNat, { st with fill := st.fill + st.strip, entries := [en] })] ∧ en.first = st.fill ∧
        en.fault = none ∧ ∀ i, i < st.strip → bitsOf en.bits.toNat (i * st.width) st.width =
          if st.fill + i < st.count then inMemory s.mem st.width (p (st.fill + i)).key (st.fill + i) else 0) ∧
    (∀ en, unbuffered x → st.store = true → st.entries = [en] → en.from_ = 0 → en.fault = none →
      let act (j : Nat) := ∃ i, j = en.first + i ∧ i < st.strip ∧ en.live.getLsbD i = true ∧ j < st.count
      (∀ j, act j → may .store true j) → (∀ i j, act i → act j → i ≠ j → apart st.width i j (p i).key (p j).key) →
      ∃ t, exec .streamDrain s = .next t ∧ (ctxAt t n).streams = [(48 + k.toNat, { st with entries := [] })] ∧
        (∀ i, act (en.first + i) →
          inMemory t.mem st.width (p (en.first + i)).key (en.first + i) = bitsOf en.bits.toNat (i * st.width) st.width) ∧
        ∀ a, outside act p st.bytes a → readByte t.mem a = readByte s.mem a)) ∧
  (∀ (s : State) (c : CtxId) (p : Nat) (w : Wait), s.signal = .ctx c →
    let n := c.toNat
    let x := ctxAt s n
    x.waits = [(p, w)] →
    (w.inFlight = false → w.since + 1024 ≤ cycleOf s n →
      exec .deadlockProbe s = .next (setCtx s n { x with waits := [(p, { w with inFlight := true })] })) ∧
    (∀ q, p = 0 → w.on = .batonEmpty q → q ≠ 3 → w.inFlight = true → x.vq = [] → x.vx = [] → x.reserve = [] →
      s.defer = true →
      (w.returned = 0 → exec .probeReturn s =
        .next (setCtx s n { x with waits := [(p, { w with since := cycleOf s n, returned := 1, inFlight := false })] })) ∧
      (w.returned ≠ 0 → exec .probeReturn s = .next (setCtx s n { x with
        waits := [], pend := x.pend ++ [{ code := 0x15, val := BitVec.ofNat 64 q, job := false, order := 0 }] }))))

/-- An idle engine starts its job, and a running job ends in state 4 or 5, which its card shows; a staged input is issued as a job
of its launch; a step of a refresh takes its member to the next ciphertext or step; the next slice of the key is delivered, a pass
ends when its ciphertexts have finished, and an error in key material ends it and stops its launch with status 7 (R200, R203,
R211, R219, R236, R240–R243; when an engine acts is the schedule's, log 3: the model's choice). -/
def Obligations.EnginesAndPassesGoOn : Prop :=
  (∀ (s : State) (die : DieId) (clu : CluId) (eng : Engine) (j : Job), s.signal = .engine die clu eng →
    let k := cluKey die clu
    (cluAt s k).jobs = [j] → (cluAt s k).power = .on → j.state = 1 → j.kind.starts = true → j.kind.engine = eng → j.bw = false →
    j.doom = none →
    ∃ t, exec .jobStart s = .next t ∧ (cluAt t k).jobs = [{ j with state := 2, begun := true }] ∧ (∀ c, ctxAt t c = ctxAt s c) ∧
      (j.kind.carded = true → readNat t.mem (padKey k j.card + 96) 1 = 2) ∧ elsewhere s t (padKey k j.card + 96) 8) ∧
  (∀ (s : State) (die : DieId) (clu : CluId) (j : Job), s.signal = .job die clu j.id false →
    let k := cluKey die clu
    (cluAt s k).jobs = [j] → j.state = 2 → j.kind.carded = true → j.bp = false → j.staged = none → j.domWait = none →
    j.domGot = none → cleanMemory s → s.pkg.reenc = none → (∀ va, domainOpen s j.part va = false) →
    ∃ t, exec .jobEnd s = .next t ∧ (cluAt t k).jobs = [] ∧
      (readNat t.mem (padKey k j.card + 96) 1 = 4 ∨ readNat t.mem (padKey k j.card + 96) 1 = 5)) ∧
  (∀ (s : State) (die : DieId) (clu : CluId) (id leg : BitVec 16) (slot : BitVec 2) (l : Launch) (off : Nat),
    s.signal = .input die clu id leg slot →
    let k := cluKey die clu
    find? (dieAt s (dieOfClu k)).launches id.toNat = some l → l.live = true → 1 ≤ leg.toNat →
    slot.toNat < legStages (l.leg leg.toNat) → l.clusters.contains k = true → l.preempted.contains k = false →
    (cluAt s k).jobs = [] → s.defer = true →
    (hw (l.leg leg.toNat) (8 + slot.toNat)).toNat = ownWindow + off → off < poolBase →
    ∃ t j, exec .stagedInputIssue s = .next t ∧ (cluAt t k).jobs = [j] ∧ j.staged = some (id.toNat, leg.toNat, slot.toNat) ∧
      j.launch = id.toNat ∧ j.issuer = none ∧ j.card = off ∧ (j.state = 1 ∨ j.state = 5) ∧
      readNat t.mem (padKey k off + 96) 1 = j.state) ∧
  ∀ (s : State) (die : DieId) (id : BitVec 6) (p : Pass), find? (dieAt s die.toNat).passes id.toNat = some p → p.state = 2 →
    let steps := (paramSet p.pset).steps
    let pass (t : State) := find? (dieAt t die.toNat).passes id.toNat
    let runs := s.pkg.quiesced = false ∧ ∀ l, find? (dieAt s die.toNat).launches p.launch = some l → l.preempted = []
    (∀ clu m, s.signal = .member die clu id → p.memberIn (cluKey die clu) = some m → runs → m.done ≤ p.slice → m.cur < m.count →
      m.done < steps → (cluAt s (cluKey die clu)).jobs = [] → cleanMemory s →
      sequencerMay s (cluKey die clu) (p.secure (dieAt s die.toNat)) = true →
      ∃ t q n, exec .refreshStep s = .next t ∧ pass t = some q ∧ q.memberIn (cluKey die clu) = some n ∧
        (m.cur + 1 < m.count → n.cur = m.cur + 1 ∧ n.done = m.done) ∧ (m.cur + 1 = m.count → n.done = m.done + 1)) ∧
    (s.signal = .pass die id → runs → p.slice + 1 < steps → (∀ m ∈ p.members, m.ents = [] ∨ p.slice + 1 ≤ m.done) →
      ∃ t, exec .sliceDelivery s = .next t ∧ pass t = some { p with slice := p.slice + 1 } ∧ ∀ c, ctxAt t c = ctxAt s c) ∧
    (s.signal = .pass die id → p.askers = [] → (∀ m ∈ p.members, m.ents = [] ∨ steps ≤ m.done) →
      ∃ t, exec .passEnd s = .next t ∧ pass t = none ∧ (∀ c, ctxAt t c = ctxAt s c) ∧
        ∀ m, p.members = [m] → readNat t.mem (m.header + 56) 1 % 8 = 3) ∧
    (∀ l, s.signal = .pass die id → p.askers = [] → find? (dieAt s die.toNat).launches p.launch = some l → l.stopped = none →
      find? (dieAt s die.toNat).hwAborts l.part.toNat = none →
      ∃ t n, exec .passFault s = .next t ∧ pass t = none ∧ find? (dieAt t die.toNat).launches p.launch = some n ∧
        n.stopped = some 7 ∧ s.pkg.logCount < t.pkg.logCount)

/-- The lowest free context of a cluster takes the next lap of a launch, with its registers, CSRs and elements; pools turn aged
and overdue with their oldest element; a lap whose stop is due is saved, and a saved lap comes back whole to a free context; a
yield hands its context to a waiting lap, if there is one and no context is free; an earlier launch's ready lap stops the lap of a
later deadline (R49, R50, R90, R257–R261, R265, R275, R276; the numbers of saved laps are log 12: the model's choice). -/
def Obligations.LapsAreDispatchedSavedAndRestored : Prop :=
  (∀ (s : State) (die : DieId) (clu : CluId) (id : Nat) (l : Launch), s.signal = .clu die clu →
    let k := cluKey die clu
    let n := min (lapSize s k (l.leg 1)) (l.total - l.cut)
    (dieAt s (dieOfClu k)).launches = [(id, l)] → l.live = true → l.preempted = [] → l.clusters = [k] → (cluAt s k).pools = [] →
    (cluAt s k).saved = [] → (cluAt s k).jobs = [] → cluOpen (cluAt s k) = true → s.pkg.quiesced = false →
    (∀ c, c / 16 = k → (ctxAt s c).occ = .free) → 0 < (coreAt s (4 * k)).groups → l.cut < l.total → n ≠ 0 →
    n * launchSlots l ≤ 8192 → legStages (l.leg 1) = 0 →
    ∃ t m, exec .lapDispatch s = .next t ∧ (∀ c, c ≠ 16 * k → ctxAt t c = ctxAt s c) ∧ t.mem = s.mem ∧
      find? (dieAt t (dieOfClu k)).launches id = some m ∧ m.cut = l.cut + n ∧
      let y := ctxAt t (16 * k)
      y.occ = .running ∧ y.pc = hw (l.leg 1) 0 ∧ y.level = .u ∧ y.asid = l.asid ∧ y.partid = l.part ∧ y.csr.vl = n ∧
      y.csr.vtype = legVtype (l.leg 1) ∧ y.csr.es = 0 ∧ y.csr.fflags = 0 ∧ y.csr.legno = 1 ∧ y.csr.srkey = hw l.header 9 ∧
      y.csr.srep = hw l.header 10 ∧ (∀ r : XReg, 1 ≤ r.toNat → r.toNat ≤ 7 → y.x r = hw l.header (10 + r.toNat)) ∧
      (∀ r : XReg, 8 ≤ r.toNat → y.x r = 0) ∧ (∀ r, r < 64 → y.tag r = legTag (l.leg 1) r) ∧ y.work.launch = id ∧ y.work.nd = n ∧
      y.work.l0 = l.cut ∧ y.loop.active = false) ∧
  (∀ (s : State) (die : DieId) (clu : CluId) (id leg : BitVec 16) (l : Launch) (p : Pool) (e : PoolElem) (es : List PoolElem),
    s.signal = .pool die clu id leg →
    let k := cluKey die clu
    let now := (dieAt s (dieOfClu k)).cycle
    (cluAt s k).pools = [p] → p.launch = id.toNat → p.leg = leg.toNat → p.elems = e :: es →
    find? (dieAt s (dieOfClu k)).launches id.toNat = some l → l.live = true → l.preempted.contains k = false →
    (e.entered + 4096 ≤ now → exec .poolAged s = .next (setClu s k { cluAt s k with pools := [{ p with aged := true }] })) ∧
    (e.entered + 16384 ≤ now → exec .poolOverdue s = .next (setClu s k { cluAt s k with pools := [{ p with overdue := true }] }))) ∧
  (∀ (s : State) (c : CtxId) (u : Nat), s.signal = .ctx c →
    let n := c.toNat
    let k := cluOf n
    let x := ctxAt s n
    plain x → frontFree x = true → (cluAt s k).jobs = [] → 0 < (cluAt s k).nextSave →
    let kept (t : State) (v : Saved) := v.num = 4096 * (cluAt s k).nextSave + n ∧
      let z := ctxAt t v.num
      z.occ = .saved ∧ z.regs = x.regs ∧ z.csr = x.csr ∧ z.pc = x.pc ∧ z.level = x.level ∧ z.work = x.work ∧ z.loop = x.loop ∧
      z.lap = x.lap
    (x.stopReq = some u → u ≤ cycleOf s n → domainPending s n = false → (∀ l, launchOf s n = some l → l.restop = false) →
      ∃ t v, exec .contextSave s = .next t ∧ (ctxAt t n).occ = .free ∧ (cluAt t k).saved = (cluAt s k).saved ++ [v] ∧
        v.yielded = false ∧ kept t v) ∧
    (x.yielding = true → x.loop.active = false → freeContexts s k ≠ [] ∨ nextCand s k = none →
      exec .yieldSwitch s = .next (setCtx s n { x with yielding := false })) ∧
    (∀ v, cleanMemory s → x.yielding = true → x.loop.active = false → domainPending s n = false → freeContexts s k = [] →
      (cluAt s k).saved = [v] → v.yielded = true → savedLive s v = true → 4096 ≤ v.num → v.num / 4096 < (cluAt s k).nextSave →
      ∃ t w, exec .yieldSwitch s = .next t ∧ (cluAt t k).saved = [w] ∧ w.yielded = true ∧ kept t w ∧
        let y := ctxAt s v.num
        let z := ctxAt t n
        z.occ = .running ∧ z.regs = y.regs ∧ z.csr = y.csr ∧ z.pc = y.pc ∧ z.level = y.level ∧ z.work = y.work ∧ z.loop = y.loop)) ∧
  (∀ (s : State) (die : DieId) (clu : CluId) (v : Saved), s.signal = .clu die clu →
    let k := cluKey die clu
    let y := ctxAt s v.num
    cleanMemory s → (cluAt s k).saved = [v] → 4096 ≤ v.num → (cluAt s k).jobs = [] → cluOpen (cluAt s k) = true →
    s.pkg.quiesced = false → (ctxAt s (16 * k)).occ = .free → 0 < (coreAt s (4 * k)).groups →
    ((v.yielded = true ∧ savedLive s v = true) ∨ ∃ id l, (dieAt s (dieOfClu k)).launches = [(id, l)] ∧ y.work.launch = id ∧ l.stopped = none ∧
      l.restop = false ∧ (cluAt s k).pools = []) →
    ∃ t, exec .contextRestore s = .next t ∧ (cluAt t k).saved = [] ∧
      let z := ctxAt t (16 * k)
      z.occ = .running ∧ z.regs = y.regs ∧ z.csr = y.csr ∧ z.pc = y.pc ∧ z.level = y.level ∧ z.work = y.work ∧ z.loop = y.loop ∧
      z.lap = y.lap ∧ z.trapK = y.trapK ∧ z.trapH = (ctxAt s (16 * k)).trapH ∧ z.trapM = (ctxAt s (16 * k)).trapM) ∧
  ∀ (s : State) (die : DieId) (clu : CluId) (a b c : Nat) (l m : Launch) (v : Saved), s.signal = .clu die clu →
    let k := cluKey die clu
    (dieAt s (dieOfClu k)).launches = [(a, l), (b, m)] → a ≠ b → isDeadline l.header = true → l.promise < 2 ^ 80 →
    (isDeadline m.header = true → l.promise < m.promise) → l.stopped = none → l.restop = false → (cluAt s k).pools = [] →
    (cluAt s k).saved = [v] → v.yielded = false → (ctxAt s v.num).work.launch = a → c / 16 = k →
    (∀ j, j / 16 = k → (ctxAt s j).occ = .running ∧ (ctxAt s j).stopReq = none ∧
      (ctxAt s j).work.launch = if j = c then b else a) →
    exec .launchPreempt s = .next (setCtx s c { wakeWfe (ctxAt s c) with stopReq := some (cycleOf s c + 1200) })

/-- Admission decides the oldest request of a die and its answer reaches the context that waits; a launch whose predecessors are done
learns its count and may run; one that breaks its bounds or reaches its promise stops with status 4, or 3 or 8; rounds start when
their inputs are ready, end with their elements and stop for a re-fire; a record settles; a launch that is over leaves its completion
record (R266–R268, R271–R274, R294–R299). -/
def Obligations.LaunchesRunTheirRoundsAndEnd : Prop :=
  (∀ (s : State) (die : DieId) (r : AdmReq), s.signal = .die die → (dieAt s die.toNat).requests = [r] →
    (dieAt s die.toNat).nextId < 2 ^ 16 → r.ctx < 4096 →
    let n := die.toNat
    let v := verdict s n r.part r.header
    ∃ t, exec .admissionDecision s = .next t ∧ (dieAt t n).requests = [] ∧
      (∀ d, (ctxAt s r.ctx).fwait = .admission d →
        ctxAt t r.ctx = { wentOn ((ctxAt s r.ctx).setX d (BitVec.ofNat 64 v)) with fwait := .none }) ∧
      (2 ^ 63 ≤ v → (dieAt t n).launches = (dieAt s n).launches ∧ t.mem = s.mem) ∧
      (v < 2 ^ 63 → ∃ id l, find? (dieAt s n).launches id = none ∧ find? (dieAt t n).launches id = some l ∧ l.header = r.header ∧
        l.legs = r.legs ∧ l.part = r.part ∧ l.promise = v ∧ l.stopped = none ∧ l.retired = 0)) ∧
  (∀ (s : State) (die : DieId) (id : BitVec 16) (l : Launch), s.signal = .launch die id →
    find? (dieAt s die.toNat).launches id.toNat = some l →
    let d := dieAt s die.toNat
    let after (t : State) := find? (dieAt t die.toNat).launches id.toNat
    let total := min l.count (fullCount l.header)
    let done := l.ready = true ∧ 1 ≤ l.round ∧ total ≤ l.retired + l.lost
    (l.ready = false → l.stopped = none → (∀ p ∈ headerPreds l.header, find? d.launches p = none) →
      launchAway s die.toNat id.toNat = false →
      let begun (m : Launch) := m.ready = true ∧ (inRecords l.header = [] → m.roundOn = true ∧ m.round = 1)
      (l.indirect = false → ∃ t m, exec .predecessorsComplete s = .next t ∧ after t = some m ∧ begun m ∧ m.count = l.count ∧
        t.mem = s.mem) ∧
      (∀ p, l.indirect = true → decide s (launchAgent die.toNat l) .load (headerCount l.header) = .ok p → sectorState s p = none →
        let v := readNat s.mem p.key 8
        ∃ t m, exec .predecessorsComplete s = .next t ∧ after t = some m ∧ begun m ∧ m.count = min v (fullCount l.header) ∧
          m.clamp = Nat.blt (fullCount l.header) v ∧ t.mem = s.mem)) ∧
    (l.stopped = none → isDeadline l.header = true →
      let freed (t : State) := ∀ c, c / 1024 = die.toNat → c % 1024 < 640 → (ctxAt s c).work.launch = id.toNat →
        (ctxAt t c).occ = .free
      (let over₁ := 16 * (headerW l.header + headerVcyc l.header * headerVmax l.header) < l.work
       let over₂ := headerNear l.header < l.near
       let over₃ := headerFar l.header < l.far
       over₁ ∨ over₂ ∨ over₃ → ∃ t m, exec .launchOverrunStop s = .next t ∧ after t = some m ∧ freed t ∧ m.stopped = some 4 ∧
        (over₁ → m.overran.getLsbD 0 = true) ∧ (over₂ → m.overran.getLsbD 1 = true) ∧ (over₃ → m.overran.getLsbD 2 = true)) ∧
      (l.promise ≤ d.cycle → ∃ t m, exec .deadlineStop s = .next t ∧ after t = some m ∧ freed t ∧
        (done → m.stopped = some 3) ∧ (¬ done → m.stopped = some 8))) ∧
    (∀ st, (l.stopped = some st ∨ (l.stopped = none ∧ st = 2 ∧ done ∧ l.roundOn = false ∧ l.restop = false ∧
        outRecords l.header = [] ∧ inRecords l.header = [])) → (∀ k, (cluAt s k).jobs = []) → d.passes = [] →
      launchAway s die.toNat id.toNat = false → ∃ t, exec .launchComplete s = .next t ∧ after t = none ∧ (find? (dieAt t die.toNat).ended id.toNat).isSome = true ∧
        ∀ p, decide s (launchAgent die.toNat l) .store (headerDone l.header) = .ok p →
          readWord t.mem p.key = BitVec.ofNat 64 (l.overran.toNat * 2 ^ 32 + l.clamp.toNat * 2 ^ 24 + st * 2 ^ 16 + id.toNat) ∧
          readWord t.mem (p.key + 8) = BitVec.ofNat 64 l.admitted ∧ readWord t.mem (p.key + 16) = BitVec.ofNat 64 l.promise ∧
          readWord t.mem (p.key + 24) = BitVec.ofNat 64 d.cycle ∧ readWord t.mem (p.key + 40) = BitVec.ofNat 64 l.killed) ∧
    (l.ready = true → l.stopped = none →
      (l.roundOn = false → l.restop = false → l.round = 0 → launchAway s die.toNat id.toNat = false →
        (∀ e ∈ inRecords l.header, (recAt d e.1).state = 4 ∨ (e.2 ≠ 2 ∧ 1 ≤ (recAt d e.1).version)) →
        ∃ t m, exec .roundStart s = .next t ∧ after t = some m ∧ t.mem = s.mem ∧ m.roundOn = true ∧ m.round = 1 ∧ m.cut = 0 ∧
          m.bound = (inRecords l.header).map (fun e => (e.1, (recAt d e.1).version))) ∧
      (l.roundOn = true → l.restop = false → total ≤ l.retired + l.lost →
        ∃ t m, exec .roundEnd s = .next t ∧ after t = some m ∧ t.mem = s.mem ∧ m.roundOn = false ∧
          ∀ r ∈ outRecords l.header, recAt (dieAt t die.toNat) r =
            let p := recAt d r
            if p.ended = true ∨ p.state = 4 then p else { p with ended := true, state := 3, inputs := l.bound })) ∧
    (l.restop = true → (∀ c, c / 1024 = die.toNat → c % 1024 < 640 → (ctxAt s c).occ ≠ .free →
        (ctxAt s c).work.launch = id.toNat → ∃ u, (ctxAt s c).stopReq = some u ∧ u ≤ d.cycle) →
      ∃ t m, exec .roundStop s = .next t ∧ after t = some m ∧ m.roundOn = false ∧ m.restop = false ∧ m.retired = 0 ∧ m.lost = 0 ∧
        m.cut = 0 ∧ ∀ c, c / 1024 = die.toNat → c % 1024 < 640 → (ctxAt s c).work.launch = id.toNat → (ctxAt t c).occ = .free)) ∧
  ∀ (s : State) (die : DieId) (r : BitVec 12), s.signal = .record die r →
    let p := recAt (dieAt s die.toNat) r.toNat
    p.state = 3 ∨ (p.state = 1 ∧ p.ended = true) →
    (∀ e ∈ p.inputs, (recAt (dieAt s die.toNat) e.1).state = 4 ∧ (recAt (dieAt s die.toNat) e.1).version = e.2) →
    ∃ t, exec .recordSettle s = .next t ∧ t.mem = s.mem ∧
      recAt (dieAt t die.toNat) r.toNat = { p with state := 4, stopreq := false } ∧
      ∀ k, k ≠ r.toNat → recAt (dieAt t die.toNat) k = recAt (dieAt s die.toNat) k

/-! What comes from outside -/

/-- Power of a cluster: it is clock-gated after 64 idle cycles, goes to RETENTION with its scratchpad and histogram kept, to OFF
with both zero, and wakes for a live launch; monitor readings, 1,024 cycles after the last ones, are shown and act at their
thresholds; a die reset, or a rail that has been out of its range for 1,024 cycles, ends launches with status 5 and clears the
tables; a package reset leaves the module as at reset, with the images measured (R342, R348, R353, R357, R358; what a package
reset leaves without a rule is log 1, the event of a rail's reset is log 60, the order of a die reset is log 61: the model's
choices). -/
def Obligations.PowerMonitorsAndResetsTakeEffect : Prop :=
  (∀ (s : State) (die : DieId) (clu : CluId), s.signal = .clu die clu →
    let k := cluKey die clu
    let x := cluAt s k
    let now := (dieAt s die.toNat).cycle
    let turned (t : State) (p : Power) := (cluAt t k).power = p ∧ (cluAt t k).since = now ∧ ∀ j, j ≠ k → cluAt t j = cluAt s j
    (idleClu s k → x.power = .on → x.idle + 64 ≤ now → x.since + 64 ≤ now →
      ∃ t, exec .clockGate s = .next t ∧ turned t .gated ∧ t.mem = s.mem ∧ t.ctxs = s.ctxs) ∧
    (idleClu s k → x.power = .gated → x.hot = false → x.since + 2 ^ 20 ≤ now → x.trace.records = [] →
      ∃ t, exec .enterRetention s = .next t ∧ turned t .retention ∧ t.mem = s.mem ∧ (cluAt t k).hist = x.hist) ∧
    (idleClu s k → x.power = .retention → x.since + 2 ^ 24 ≤ now → cluReserved s k = false → x.trace.records = [] →
      ∃ t, exec .enterOff s = .next t ∧ turned t .off ∧ (cluAt t k).hist = [] ∧
        (∀ a, a < padSize → readByte t.mem (padKey k a) = 0) ∧ elsewhere s t (padKey k 0) padSize) ∧
    (x.power ≠ .on → x.hot = false → cluReserved s k = true →
      ∃ t, exec .clusterWake s = .next t ∧ turned t .on ∧ t.mem = s.mem ∧ t.ctxs = s.ctxs)) ∧
  (∀ (s : State) (die : DieId) (temps volts procs : List (BitVec 16)), s.signal = .monitors die temps volts procs →
    (dieAt s die.toNat).refreshed.all (fun t => Nat.ble (t + 1024) (dieAt s die.toNat).cycle) = true →
    ∃ t, exec .monitorRefresh s = .next t ∧
      let d := dieAt t die.toNat
      (∀ j, j < 40 → j < temps.length → get 0 d.temps j = temps.getD j 0) ∧
      (∀ j, j < 8 → j < volts.length → get 0 d.volts j = volts.getD j 0) ∧
      (∀ j, j < 16 → j < procs.length → get 0 d.procs j = procs.getD j 0) ∧
      ((∃ j, j < 40 ∧ 380 ≤ (get 0 d.temps j).toInt) → d.warm = true) ∧
      ((∀ j, j < 40 → (get 0 d.temps j).toInt < 360) → d.warm = false) ∧
      (∀ j, j < 40 → 420 ≤ (get 0 d.temps j).toInt →
        (cluAt t (die.toNat * 64 + j)).hot = true ∧ (cluAt t (die.toNat * 64 + j)).power ≠ .on) ∧
      ∀ j, j < 40 → (get 0 d.temps j).toInt < 360 → (cluAt t (die.toNat * 64 + j)).hot = false) ∧
  (∀ (s : State) (die : DieId) (i : Instr),
    ((i = .voltageReset ∧ s.signal = .die die ∧ ∃ e ∈ (dieAt s die.toNat).voltsOut, e.2 + 1024 ≤ (dieAt s die.toNat).cycle) ∨
      (i = .dieReset ∧ ∃ c, (c = 1 ∨ c = 2) ∧ s.signal = .reset die c)) →
    ∃ t, exec i s = .next t ∧
      let d := dieAt t die.toNat
      d.launches = [] ∧ d.aspaces = [] ∧ d.resident = [] ∧ d.views = [] ∧ d.records = [] ∧ d.passes = [] ∧ d.serial = 1 ∧
      s.pkg.logCount < t.pkg.logCount ∧
      (∀ (id : BitVec 16) l, find? (dieAt s die.toNat).launches id.toNat = some l → l.stopped = none →
        ∃ w ws, find? d.ended id.toNat = some (l.part.toNat, w :: ws) ∧ bitsOf w 16 8 = 5) ∧
      (∀ k, k / 256 = die.toNat → k % 256 < 160 → (coreAt t k).retiredGroups = 0) ∧
      ∀ k, k / 64 = die.toNat → k % 64 < 40 → (cluAt s k).part ≠ 0 → (cluAt s k).part ≠ 0xFFFF → (cluAt t k).fenced = true) ∧
  ∀ (s : State) (images : List (BitVec 512)) (good : Bool), s.signal = .boot images good →
    ∃ t, exec .packageReset s = .next t ∧ t.mem = State.reset.mem ∧ (∀ c, ctxAt t c = Ctx.reset) ∧ (∀ k, coreAt t k = Core.reset) ∧
      (∀ k, cluAt t k = Cluster.reset) ∧ (∀ d, dieAt t d = Die.reset) ∧ t.pkg.regions = State.reset.pkg.regions ∧
      t.pkg.dbgauth = 0 ∧ t.pkg.channels = [] ∧ t.pkg.sessions = [] ∧ t.pkg.lock = none ∧ t.pkg.quiesced = false ∧
      t.pkg.recovery = !(good && images.length == 4) ∧
      ∀ j m, j < 4 → images[j]? = some m → get 0 t.pkg.meas j = Config.shake256 [0, m]

/-- What a memory port finds in a sector, the end of a re-encryption and of a scrub, trace markers, accesses of the load-store
domain that arrive, are answered or time out, and packets that a port drops: an answer to an access that acquires acquires, and
one after 2^21 cycles is none (R177, R339–R341, R351, R352, R359–R363; the number of marker records is log 58, the agent of a
domain access is log 59: the model's choices). -/
def Obligations.MemoryTraceAndDomainEventsTakeEffect : Prop :=
  (∀ (s : State) (pa : BitVec 48) (c : CtxId) (va : Word) (f : SectorFinding) (p : Place) (q : Nat), s.signal = .sector pa c va f →
    decide s (frontAgent s c.toNat) .load va.toNat = .ok p → p.pa = some q → q / 64 = pa.toNat / 64 → p.raw = false →
    let die := dieOf c.toNat
    (f = .clean → exec .sectorRead s = .next s) ∧
    (f = .correctable → ∃ t, exec .sectorRead s = .next t ∧ t.mem = s.mem ∧ t.pkg = s.pkg ∧
      (dieAt t die).hcorr = if (dieAt s die).hcorr = 0xFFFFFFFFFFFFFFFF then (dieAt s die).hcorr else (dieAt s die).hcorr + 1) ∧
    (f = .uncorrectable ∨ f = .tagFails → ∃ t, exec .sectorRead s = .next t ∧ find? t.pkg.sectors (sectorOf p.key) = some f ∧
      s.pkg.logCount < t.pkg.logCount ∧ ∀ k, ctxAt t k = ctxAt s k)) ∧
  (∀ (s : State) (pg : Nat), s.pkg.reenc = some pg → (∀ k, (cluAt s k).jobs = []) →
    ∃ t, exec .pageReencryptionDone s = .next t ∧ elsewhere s t (versionAt pg) 4 ∧ t.pkg.reenc = none ∧ t.pkg.mkeycmd = 0 ∧
      get 0 t.pkg.pageVer pg = get 0 s.pkg.pageVer pg + 1 ∧
      (inNear (pg * 4096) = true ∨ inFar (pg * 4096) = true →
        readNat t.mem (versionAt pg) 4 = (get 0 s.pkg.pageVer pg + 1).toNat)) ∧
  (∀ (s : State) (die : DieId) (clu : CluId) (part : BitVec 16), s.signal = .clu die clu →
    let k := cluKey die clu
    (cluAt s k).scrub = some part → cluReserved s k = false → (cluAt s k).since + 1200000 ≤ (dieAt s die.toNat).cycle →
    ∃ t, exec .clusterScrubDone s = .next t ∧ (cluAt t k).part = part ∧ (cluAt t k).scrub = none ∧ (cluAt t k).fenced = false ∧
      (cluAt t k).hist = [] ∧ (∀ a, a < padSize → readByte t.mem (padKey k a) = 0) ∧
      ∀ c, c / 16 = k → (ctxAt t c).occ = .free ∧ (ctxAt t c).regs = Regs.reset) ∧
  (∀ (s : State) (die : DieId), cleanMemory s → s.pkg.reenc = none →
    let d := dieAt s die.toNat
    let at_ (j : Nat) := d.tsbase.toNat + d.tswr + 16 * j
    let open_ (n : Nat) := sinkOpen d = true ∧ d.tswr + 16 * n ≤ d.tslen.toNat ∧
      ∀ j, j < n → regionDecision s.pkg (sinkAgent s die.toNat) .store (at_ j) = none
    let mark (serial other got : Nat) := 4 * 2 ^ 124 + d.cycle % 2 ^ 64 * 2 ^ 56 + serial * 2 ^ 40 + other * 2 ^ 38 + got * 2 ^ 37
    (s.signal = .die die → d.marker ≠ BitVec.ofNat 16 (d.cycle / 2 ^ 20) → ∃ t, exec .traceMarkerSend s = .next t ∧
      (dieAt t die.toNat).marker = d.marker + 1 ∧ (open_ 3 → (dieAt t die.toNat).tswr = d.tswr + 48 ∧
        ∀ j other, ([0, 1, 2, 3].filter (fun o => o != die.toNat))[j]? = some other →
          readNat t.mem (at_ j) 16 = mark (d.marker + 1).toNat other 0)) ∧
    (∀ other serial, s.signal = .marker die other serial → die ≠ other → markerSent (dieAt s other.toNat) serial = true →
      open_ 1 → ∃ t, exec .traceMarkerReceive s = .next t ∧
        (dieAt t die.toNat).tswr = d.tswr + 16 ∧ readNat t.mem (at_ 0) 16 = mark serial.toNat other.toNat 1)) ∧
  (∀ (s : State) (acc : DomainAccess) (part : Nat), s.signal = .domainAccess acc → s.pkg.recovery = false → s.pkg.reenc = none →
    let e := get (0 : Word) s.pkg.targets (acc.dpid.toNat * 1024 + acc.offset.toNat / 2 ^ 30)
    let pa := leafFrame e + acc.offset.toNat % 2 ^ 30
    let reply (t : State) (r : DomainResult) := t.pkg.answers = s.pkg.answers ++ [(acc.source, r)]
    let judged (k : Acc) := boundPart s.pkg acc.dpid = some part ∧ exportOk e = true ∧ leafAllows e k = true ∧ leafCov e = false ∧
      regionDecision s.pkg (unitAgent (ownerDie (pa / 2 ^ 30)) 0 (BitVec.ofNat 16 part) (blockSecure s (0x803 + acc.port.toNat))) k pa = none ∧
      findingAt s.pkg pa = none
    (boundPart s.pkg acc.dpid = none → ∃ t, exec .domainAccessArrival s = .next t ∧ reply t .vpage ∧ t.mem = s.mem) ∧
    (acc.kind = .load → judged .load → ∃ t, exec .domainAccessArrival s = .next t ∧ reply t (.data (readBytes s.mem pa acc.size)) ∧
      t.mem = s.mem) ∧
    (∀ bs, acc.kind = .store bs → judged .store → ∃ t, exec .domainAccessArrival s = .next t ∧ reply t .done ∧
      readBytes t.mem pa bs.length = bs ∧ elsewhere s t pa bs.length) ∧
    (∀ v, acc.kind = .add v → judged .atomic → ∃ t, exec .domainAccessArrival s = .next t ∧
      reply t (.data (readBytes s.mem pa acc.size)) ∧ elsewhere s t pa acc.size ∧
      readNat t.mem pa acc.size = (readNat s.mem pa acc.size + v.toNat) % 2 ^ (8 * acc.size))) ∧
  (∀ (s : State) (r : DomainReq) (d₀ : XReg) (acq dat : Bool), s.pkg.domReqs = [r] →
    let c := r.ctx.toNat
    let x := ctxAt s c
    r.host = false → r.job = none → r.live = true → r.stream = .scalar → r.waits = false → x.fwait = .domain r.id d₀ acq dat →
    x.lap.buf = [] → x.occ = .running →
    let z := if acq then x.discardLoads else x
    let early := cycleOf s c < r.sent + 2 ^ 21
    let over_ (t : State) (y : Ctx) := t.pkg.domReqs = [] ∧ t.mem = s.mem ∧ ctxAt t c = { wentOn y with fwait := .none } ∧
      ∀ k, k ≠ c → ctxAt t k = ctxAt s k
    (∀ bs, s.signal = .domainResponse r.id (.data bs) → r.kind = .load → (r.size = 1 ∨ r.size = 2 ∨ r.size = 4 ∨ r.size = 8) →
      bs.length = r.size → early → ∃ t, exec .domainResponse s = .next t ∧
        over_ t (z.setX r.d (if r.sext then signExtended r.size (bytesNat bs) else BitVec.ofNat 64 (bytesNat bs)))) ∧
    (∀ bs, s.signal = .domainResponse r.id .done → r.kind = .store bs → early → ∃ t, exec .domainResponse s = .next t ∧ over_ t z) ∧
    (∀ res, s.signal = .domainResponse r.id res → ¬ early → exec .domainResponse s = .next s) ∧
    (∀ bs, s.signal = .domainRequest r.id → r.kind = .store bs → r.sent + 2 ^ 21 ≤ cycleOf s c →
      ∃ t, exec .domainTimeout s = .next t ∧ t.pkg.domReqs = [] ∧ ctxAt t c = { wentOn z with fwait := .none } ∧
        s.pkg.logCount < t.pkg.logCount)) ∧
  ∀ (s : State) (k : BitVec 3), s.signal = .port k →
    exec .refusedOptionPacket s =
      .next { s with pkg := { s.pkg with drops := set 0 s.pkg.drops k.toNat (get 0 s.pkg.drops k.toNat + 1) } }

/-- The commands of a channel: an expected, well-formed one is answered once with its status, an earlier one by REPLAY, a later
one by GAP, and one that fails its tag by nothing; BIND, WRITE, READ, LAUNCH, STATUS, LOCK, UNLOCK, DOMAIN, QUIESCE, DUMP and
RESTORE do what their rows say, the last five under the management lock, whose lease ends by itself; QUIESCE is answered at once
where all has stopped, and owes its answer otherwise; an unlisted opcode is PARAM
(R364–R371; the payloads and statuses that the rules leave open are log 45 to log 48, an image is log 12, a refused WRITE is log
53: the model's choices). -/
def Obligations.HostCommandsAreAnsweredAndPerformed : Prop :=
  (∀ (s : State) (f : Frame) (k : Channel) (i : Instr) (op : BitVec 8),
    ((i = .quiesce ∧ s.signal = .frame f ∧ op = 0x18) ∨ (i = .unlistedOpcode ∧ s.signal = .unlisted f op ∧ listedOpcode op = false) ∨
      (∃ pa, i = .dump ∧ s.signal = .area f pa ∧ op = 0x19) ∨ (∃ r, i = .unlock ∧ s.signal = .unlockFor f r ∧ op = 0x09)) →
    chanOf s.pkg f.chan = some k →
    (f.tagOk = false ∨ k.dead = true → exec i s = .next { s with pkg := { s.pkg with dropped := s.pkg.dropped + 1 } }) ∧
    (f.tagOk = true → k.dead = false →
      let said (t : State) (st : BitVec 8) (pay : List Byte) := ∃ r, t.pkg.responses = s.pkg.responses ++ [r] ∧ r.port = f.port ∧
        r.chan = f.chan ∧ r.opcode = op ∧ r.status = st ∧ r.counter = 2 ^ 63 + k.sent ∧ r.payload = natBytes 8 f.seq.toNat ++ pay
      (f.seq.toNat + 1 = k.expect → ∃ t, exec i s = .next t ∧ said t 1 (natBytes 1 k.lastSt.toNat ++ k.lastPay) ∧ t.mem = s.mem) ∧
      (f.seq.toNat + 1 < k.expect → ∃ t, exec i s = .next t ∧ said t 1 [] ∧ t.mem = s.mem) ∧
      (k.expect < f.seq.toNat → ∃ t, exec i s = .next t ∧ said t 2 (natBytes 8 k.expect) ∧ t.mem = s.mem))) ∧
  (∀ (s : State) (f : Frame) (k : Channel), mayCommand s f k →
    let now := (dieAt s 0).cycle
    (∀ op, s.signal = .unlisted f op → listedOpcode op = false →
      ∃ t, exec .unlistedOpcode s = .next t ∧ answered s t f k op 5 [] ∧ t.mem = s.mem) ∧
    (∀ part good, s.signal = .bindTo f part good → ∃ t, exec .bind s = .next t ∧
      answered s t f k 0x01 (if good then 0 else 6) [] ∧
      ∃ m, chanOf t.pkg f.chan = some m ∧ m.part = if good then some part else k.part) ∧
    (∀ die va data a, s.signal = .writeTo f die va data → hostAgent s k die.toNat = some a → 0 < data.length → data.length ≤ 4000 →
      cleanMemory s → s.pkg.reenc = none →
      (∀ p : Nat → Place, (∀ j, j < data.length → hostPlace s a .store (va.toNat + j) = .ok (p j)) →
        (∀ i j, i < data.length → j < data.length → i ≠ j → (p i).key ≠ (p j).key) →
        ∃ t, exec .write s = .next t ∧ answered s t f k 0x02 0 [] ∧
          (∀ j, j < data.length → readByte t.mem (p j).key = data.getD j 0) ∧
          ∀ b, (∀ j, j < data.length → (p j).key ≠ b) → readByte t.mem b = readByte s.mem b) ∧
      (∀ e, hostReach s a .store va.toNat = .error e → ∃ t, exec .write s = .next t ∧ answered s t f k 0x02 6 [] ∧ t.mem = s.mem)) ∧
    (∀ die va len a, s.signal = .readFrom f die va len → hostAgent s k die.toNat = some a → 0 < len.toNat → len.toNat ≤ 4000 →
      cleanMemory s → s.pkg.reenc = none →
      (∀ p : Nat → Place, (∀ j, j < len.toNat → hostPlace s a .load (va.toNat + j) = .ok (p j) ∧ (p j).raw = false) →
        ∃ t, exec .read s = .next t ∧ t.mem = s.mem ∧
          answered s t f k 0x03 0 ((List.range len.toNat).map (fun j => readByte s.mem (p j).key))) ∧
      (∀ e, hostReach s a .load va.toNat = .error e → ∃ t, exec .read s = .next t ∧ answered s t f k 0x03 6 [] ∧ t.mem = s.mem)) ∧
    (∀ die va a h legs p, s.signal = .submit f die va → hostAgent s k die.toNat = some a → va.toNat % 256 = 0 →
      hostWords s a va.toNat 32 = .ok h → headerFault h (dieAt s die.toNat) die.toNat false = none →
      hostLegs s a (hw h 6).toNat (headerLegs h) = .ok legs → legsFault legs = none → hostPlace s a .store (headerDone h) = .ok p →
      (dieAt s die.toNat).requests = [] → (dieAt s die.toNat).nextId < 2 ^ 16 →
      let v := verdict s die.toNat a.part h
      ∃ t id, exec .launchCommand s = .next t ∧ answered s t f k 0x04 0 (natBytes 8 v ++ natBytes 2 id) ∧
        (2 ^ 63 ≤ v → id = 0 ∧ (dieAt t die.toNat).launches = (dieAt s die.toNat).launches) ∧
        (v < 2 ^ 63 → ∃ l, find? (dieAt t die.toNat).launches id = some l ∧ l.header = h ∧ l.legs = legs ∧ l.promise = v ∧
          l.part = a.part)) ∧
    (∀ die id part, s.signal = .statusOf f die id → k.part = some part →
      (∀ l, find? (dieAt s die.toNat).launches id.toNat = some l → l.part = part → ∃ t, exec .status s = .next t ∧ t.mem = s.mem ∧
        answered s t f k 0x05 0 ((natBytes 8 (l.overran.toNat * 2 ^ 32 + l.clamp.toNat * 2 ^ 24 + 2 ^ 16 + id.toNat) ++
          natBytes 8 l.admitted ++ natBytes 8 l.promise) ++ List.replicate 104 0)) ∧
      (∀ ws, find? (dieAt s die.toNat).launches id.toNat = none → find? (dieAt s die.toNat).ended id.toNat = some (part.toNat, ws) →
        ∃ t, exec .status s = .next t ∧ t.mem = s.mem ∧
          answered s t f k 0x05 0 (ws.flatMap (natBytes 8) ++ List.replicate (128 - 8 * ws.length) 0))) ∧
    (∀ who lease, s.signal = .lockFor f who lease → lease ≠ 0 → lease.toNat ≤ 60000 →
      let taken := ∃ t, exec .lock s = .next t ∧ answered s t f k 0x08 0 (natBytes 2 lease.toNat) ∧
        t.pkg.lock = some { chan := f.chan, req := who, until_ := now + lease.toNat * 600000 }
      (s.pkg.lock = none → taken) ∧
      (∀ h, s.pkg.lock = some h →
        (h.until_ ≤ now ∨ (h.chan = f.chan ∧ h.req = who) → taken) ∧
        (now < h.until_ → ¬ (h.chan = f.chan ∧ h.req = who) → ∃ t, exec .lock s = .next t ∧ t.pkg.lock = some h ∧
          answered s t f k 0x08 3 (natBytes 4 h.chan.toNat ++ natBytes 2 h.req.toNat ++ natBytes 2 ((h.until_ - now) / 600000))))) ∧
    (∀ who h, s.signal = .unlockFor f who → s.pkg.lock = some h →
      (now < h.until_ → h.chan = f.chan → h.req = who → ∃ t, exec .unlock s = .next t ∧ answered s t f k 0x09 0 [] ∧ t.pkg.lock = none) ∧
      (h.until_ ≤ now ∨ h.chan ≠ f.chan ∨ h.req ≠ who →
        ∃ t, exec .unlock s = .next t ∧ answered s t f k 0x09 4 [] ∧ t.pkg.lock = some h)) ∧
    (mayLocked s k = true →
      (∀ part dpid route, s.signal = .route f part dpid route → dpid ≠ 0 → ∃ t, exec .domainSetRoute s = .next t ∧
        answered s t f k 0x10 0 [] ∧ get 0 t.pkg.dpids part.toNat = dpid ∧ get 0 t.pkg.routes part.toNat = route) ∧
      (∀ dpid index entry, s.signal = .target f dpid index entry → dpid ≠ 0 → index.toNat < 1024 → (exportTables s.pkg).length < 64 →
        ∃ t, exec .domainSetExport s = .next t ∧ answered s t f k 0x10 0 [] ∧
          get 0 t.pkg.targets (dpid.toNat * 1024 + index.toNat) = entry) ∧
      (s.signal = .frame f → ∃ t, exec .quiesce s = .next t ∧ t.pkg.quiesced = true ∧
        (stillRuns t = false → answered s t f k 0x18 0 []) ∧
        (stillRuns t = true → t.pkg.responses = s.pkg.responses ∧ t.pkg.awaited = s.pkg.awaited ++ [f]) ∧
        (∀ d, d < 4 → (dieAt t d).requests = []) ∧ ∀ c, c < 4096 → frontFree (ctxAt s c) = true → (ctxAt s c).streams = [] →
          domainPending s c = false → (ctxAt t c).occ ≠ .running) ∧
      (∀ pa, s.signal = .area f pa → areaOk pa.toNat = true → ∃ t i, exec .dump s = .next t ∧
        answered s t f k 0x19 0 (Config.answerBytes s.steps) ∧ t.pkg.images.find? (fun j => j.pa == pa.toNat) = some i ∧
        i.cells = s.mem.filter (fun e => Nat.ble (2 ^ 56) e.1) ∧ i.ctxs = s.ctxs.filter (fun e => Nat.ble 4096 e.1) ∧
        elsewhere s t pa.toNat (min (Config.imageLength s.steps) (0x1E000000000 - pa.toNat))) ∧
      (∀ pa i, s.signal = .area f pa → areaOk pa.toNat = true → s.pkg.quiesced = true → s.pkg.images.find? (fun j => j.pa == pa.toNat) = some i →
        ∃ t, exec .restore s = .next t ∧ answered s t f k 0x1A 0 [] ∧ t.pkg.quiesced = false ∧
          (i.launches = [] → i.jobs = [] → i.passes = [] →
            t.mem = s.mem.filter (fun e => Nat.blt e.1 (2 ^ 56)) ++ i.cells ∧ t.ctxs = s.ctxs.filter (fun e => Nat.blt e.1 4096) ++ i.ctxs ∧
            (∀ j ∈ allClus, (cluAt t j).saved = get [] i.saved j ∧ (cluAt t j).pools = get [] i.pools j ∧ (cluAt t j).jobs = []) ∧
            ∀ d, d < 4 → (dieAt t d).views = get [] i.views d ∧ (dieAt t d).records = get [] i.records d))) ∧
    (mayLocked s k = false → s.signal = .frame f →
      ∃ t, exec .quiesce s = .next t ∧ answered s t f k 0x18 3 [] ∧ t.pkg.quiesced = s.pkg.quiesced)) ∧
  ∀ (s : State) (h : LockHold), s.pkg.lock = some h →
    (h.until_ ≤ (dieAt s 0).cycle → exec .lockLeaseExpiry s = .next { s with pkg := { s.pkg with lock := none } }) ∧
    ((dieAt s 0).cycle < h.until_ → exec .lockLeaseExpiry s = .next s)

/-- SPDM requests outside recovery are answered at their port: the measurements by their index or InvalidRequest, a session more
or Busy, a channel for a session that finishes, and UnsupportedRequest for the rest; GET_VERSION names 1.3, and the algorithms
hold SLH-DSA-SHAKE-256s; in recovery only GET_VERSION is answered, and signed images end it (R342, R364, R370; the codes are those
of log 9, presumed from SPDM 1.3). -/
def Obligations.SpdmRequestsAreAnswered : Prop :=
  ∀ (s : State) (k : BitVec 3),
    let free_ := Config.answerBytes s.steps
    (s.signal = .port k → exec .spdmGetVersion s = .next (saidAt s k 0x04 [0, 1, 0, 0x13])) ∧
    (s.pkg.recovery = true → (∀ index, s.signal = .measurement k index → exec .spdmGetMeasurements s = .next s) ∧
      ∀ id, s.signal = .session k id → exec .spdmFinish s = .next s) ∧
    (s.pkg.recovery = true → s.signal = .port k → ∀ i, (i = .spdmGetCapabilities ∨ i = .spdmNegotiateAlgorithms ∨ i = .spdmGetDigests ∨
      i = .spdmGetCertificate ∨ i = .spdmChallenge ∨ i = .spdmKeyExchange ∨ i = .unsupportedRequest) → exec i s = .next s) ∧
    (s.pkg.recovery = false → s.signal = .port k →
      exec .spdmGetCapabilities s = .next (saidAt s k 0x61 (natBytes 4 0x2D6)) ∧
      exec .spdmNegotiateAlgorithms s = .next (saidAt s k 0x63 (free_ ++ natBytes 4 Config.slhDsaShake256s.toNat)) ∧ exec .spdmGetDigests s = .next (saidAt s k 0x01 free_) ∧
      exec .spdmGetCertificate s = .next (saidAt s k 0x02 free_) ∧ exec .spdmChallenge s = .next (saidAt s k 0x03 free_) ∧
      exec .unsupportedRequest s = .next (saidAt s k 0x7F (natBytes 1 0x07)) ∧
      (16 ≤ s.pkg.sessions.length → exec .spdmKeyExchange s = .next (saidAt s k 0x7F (natBytes 1 0x03))) ∧
      (s.pkg.sessions.length < 16 →
        let id := Config.sessionId s.pkg.nextSess
        exec .spdmKeyExchange s = .next (saidAt
          { s with pkg := { s.pkg with sessions := s.pkg.sessions ++ [id], nextSess := s.pkg.nextSess + 1 } } k 0x64
          (natBytes 4 id.toNat ++ free_)))) ∧
    (∀ index : BitVec 8, s.pkg.recovery = false → s.signal = .measurement k index →
      let m (j : Nat) := natBytes 64 (get (0 : BitVec 512) s.pkg.meas j).toNat
      (1 ≤ index.toNat → index.toNat ≤ 8 → exec .spdmGetMeasurements s = .next (saidAt s k 0x60 (m (index.toNat - 1) ++ free_))) ∧
      (index.toNat = 0xFF → exec .spdmGetMeasurements s = .next (saidAt s k 0x60 ((List.range 8).flatMap m ++ free_))) ∧
      (index.toNat = 0 ∨ (8 < index.toNat ∧ index.toNat < 0xFF) →
        exec .spdmGetMeasurements s = .next (saidAt s k 0x7F (natBytes 1 0x01)))) ∧
    (∀ id : BitVec 32, s.pkg.recovery = false → s.signal = .session k id →
      (s.pkg.sessions.contains id = true → chanOf s.pkg id = none → s.pkg.channels.length < 16 →
        ∃ t n, exec .spdmFinish s = .next t ∧ t = saidAt { s with pkg := { s.pkg with channels := s.pkg.channels ++ [n] } } k 0x65 free_ ∧
          n.id = id ∧ n.key = Config.channelKey id ∧ n.expect = 0 ∧ n.sent = 0 ∧ n.part = none ∧ n.dead = false) ∧
      (s.pkg.sessions.contains id = false → exec .spdmFinish s = .next (saidAt s k 0x7F (natBytes 1 0x01)))) ∧
    ∀ images good, s.signal = .recovery k images good →
      (s.pkg.recovery = true → good = true → images.length = 4 → ∃ t, exec .recoveryFrame s = .next t ∧ t.pkg.recovery = false ∧
        ∀ j m, images[j]? = some m → get 0 t.pkg.meas j = Config.shake256 [0, m]) ∧
      (s.pkg.recovery = false ∨ good = false ∨ images.length ≠ 4 → exec .recoveryFrame s = .next s)

/-! The machine as a whole -/

/-- A step whose agenda is empty runs the instruction that the word at the pc decodes to, the illegal word or the fault of the
fetch, and what follows a step follows; an event of the agenda that is well-formed is taken instead, and the frame of a
channel that still executes a command is held back; an entry that is no event is refused, and a turn that names no context of the
module stops the machine (R28, R80, R368; that events come from the agenda is log 3:
the model's choice). -/
def Obligations.StepsRunTheDecodedInstruction : Prop :=
  (∀ (s : State) (p : Place), readyToFetch s → mayFetch s p →
    (∀ i, decodeWord (wordAt s p) = .ok i → holdsFront (me s) i = false → holdsDevice s s.turn i = false →
      step s = followed (exec i (fetched s .none)) (fun t => afterStep (fetched s .none) t (some i))) ∧
    (∀ e, decodeWord (wordAt s p) = .error e →
      step s = followed (exec .illegalWord (fetched s (.word (wordAt s p))))
        (fun t => afterStep (fetched s (.word (wordAt s p))) t (some .illegalWord)))) ∧
  (∀ (s : State) (d : Denial), readyToFetch s → walkBusy s (frontAgent s s.turn) (me s).pc.toNat = false →
    Machine.decide s (frontAgent s s.turn) .fetch (me s).pc.toNat = .error d →
    let u := { noteDenial s (frontAgent s s.turn) d with signal := .fetch (BitVec.ofNat 8 d.code) }
    step s = followed (exec .fetchFault u) (fun t => afterStep u t (some .fetchFault))) ∧
  (∀ (s : State) (i : Instr) (sig : Signal) (rest : List (Instr × Signal)), s.agenda = (i, sig) :: rest →
    let u := { s with agenda := rest }
    (i.accepts sig = true → sig.legal = true →
      (frameWaits u sig = false → step s = followed (exec i { u with signal := sig }) (fun t => afterStep u t (some i))) ∧
      (frameWaits u sig = true → step s = .next (afterStep u (holdFrame u i sig) none))) ∧
    ((i.accepts sig && sig.legal) = false → step s = .refused .notAnEvent)) ∧
  (∀ s : State, s.agenda = [] → (4096 ≤ s.turn ∨ ctxOk (BitVec.ofNat 12 s.turn) = false) → step s = .fault .noSuchContext)

/-- After reset no context holds a lap, every lane group is in service, the first launch id and serial of each die are 1, no debug
authority is granted, the log and the measurements are empty, the firmware gigabytes have their region entries; memory lists
nothing, in its canonical form (R153, R274, R319, R331, R335, R342, R346, R356; what is reset to 0 without a rule is log 1, what
an unlisted byte reads as is log 2: the model's choices). -/
def Obligations.ResetLeavesTheModuleEmpty : Prop :=
  (∀ c, ctxAt State.reset c = Ctx.reset ∧ (ctxAt State.reset c).occ = .free) ∧
  (∀ k, (coreAt State.reset k).retiredGroups = 0 ∧ (coreAt State.reset k).stb = []) ∧
  (∀ d, (dieAt State.reset d).launches = [] ∧ (dieAt State.reset d).nextId = 1 ∧ (dieAt State.reset d).serial = 1 ∧
    (dieAt State.reset d).views = [] ∧ (dieAt State.reset d).records = [] ∧ (dieAt State.reset d).aspaces = []) ∧
  (∀ k, (cluAt State.reset k).jobs = [] ∧ (cluAt State.reset k).power = .on) ∧
  State.reset.pkg.dbgauth = 0 ∧ State.reset.pkg.logCount = 0 ∧ State.reset.pkg.plog = [] ∧ State.reset.pkg.meas = [] ∧
  State.reset.pkg.channels = [] ∧ State.reset.pkg.lock = none ∧
  find? State.reset.pkg.regions 0 =
    some { base := 0x29C0000000, lim := 0x2A00000000, attr := BitVec.ofNat 64 (2 ^ 63 + 2 ^ 16 + 0xFFFF) } ∧
  find? State.reset.pkg.regions 1 =
    some { base := 0x1DFC0000000, lim := 0x1E000000000, attr := BitVec.ofNat 64 (2 ^ 63 + 2 ^ 16 + 0xFFFF) } ∧
  (∀ a, readByte State.reset.mem a = 0) ∧ memoryForm State.reset ∧ guarded State.reset

/-- Every step from a state whose memory is in its canonical form leaves it in that form: equal memories stay equal lists. -/
def Obligations.MemoryKeepsItsForm : Prop :=
  ∀ (s t : State), memoryForm s → step s = .next t → memoryForm t

/-- No step brings a context of the N world to M, nor changes the region entries of the firmware gigabytes (R29, R136, R335). -/
def Obligations.WorldsAndFirmwareAreKept : Prop :=
  ∀ (s t : State), guarded s → step s = .next t → guarded t
end

