-- ==== Sys2Proof/Laws/Maps.lean ====
section
/-! SUPPORT. What the operations on tables and on memory do: an entry reads as it was put last, other entries as before, and
the canonical form is kept. -/

namespace Sys2Proof.Machine

variable {α : Type}

/-- An entry that was put is found, and the others as before. -/
theorem find?_put (m : SMap α) (k j : Nat) (v : α) :
    find? (put m k v) j = if j = k then some v else find? m j := by
  induction m with
  | nil =>
    simp only [put, find?]
    by_cases h : k = j
    · rw [if_pos h, if_pos h.symm]
    · rw [if_neg h, if_neg (fun g => h g.symm)]
  | cons e r ih =>
    obtain ⟨a, w⟩ := e
    unfold put
    split
    · simp only [find?]
      by_cases h : k = j
      · rw [if_pos h, if_pos h.symm]
      · rw [if_neg h]; exact (if_neg (fun g => h g.symm)).symm
    · split
      · rename_i h1 h2
        simp only [find?]
        by_cases h : k = j
        · rw [if_pos h, if_pos h.symm]
        · rw [if_neg h, if_neg (fun g => h g.symm), if_neg (fun g => h (h2.trans g))]
      · simp only [find?, ih]
        by_cases h : j = k
        · subst h; rw [if_pos rfl, if_pos rfl, if_neg (by omega)]
        · rw [if_neg h, if_neg h]

/-- A removed entry is not found, and the others are as before. -/
theorem find?_remove (m : SMap α) (k j : Nat) :
    find? (remove m k) j = if j = k then none else find? m j := by
  induction m with
  | nil => simp [remove, find?]
  | cons e r ih =>
    obtain ⟨a, w⟩ := e
    unfold remove
    split
    · subst_vars; rw [ih]; simp only [find?]; split
      · rfl
      · split <;> simp_all
    · simp only [find?, ih]; split <;> split <;> simp_all

/-- In a table with a default, a key reads as it was put last. -/
theorem get_put (d : α) (m : SMap α) (k j : Nat) (v : α) :
    get d (put m k v) j = if j = k then v else get d m j := by
  unfold get
  rw [find?_put]
  by_cases h : j = k <;> simp [h]

/-- In a table with a default, a key reads as it was set last. -/
theorem get_set [DecidableEq α] (d : α) (m : SMap α) (k j : Nat) (v : α) :
    get d (set d m k v) j = if j = k then v else get d m j := by
  unfold set
  split
  · unfold get; rw [find?_remove]
    by_cases h : j = k <;> simp_all
  · exact get_put d m k j v

/-- Without the keys of a range, those keys are not found. -/
theorem find?_removeRange (m : SMap α) (lo hi j : Nat) :
    find? (removeRange m lo hi) j = if lo ≤ j ∧ j < hi then none else find? m j := by
  induction m with
  | nil => simp [removeRange, find?]
  | cons e r ih =>
    obtain ⟨a, w⟩ := e
    unfold removeRange
    split
    · rw [ih]; simp only [find?]; split
      · rfl
      · split <;> simp_all
    · simp only [find?, ih]; split <;> split <;> simp_all

/-! The canonical form -/

theorem ascending_mono (m : SMap α) (a b : Nat) (h : a ≤ b) (hm : ascending b m = true) : ascending a m = true := by
  cases m with
  | nil => rfl
  | cons e r => simp only [ascending, Bool.and_eq_true, decide_eq_true_eq] at *; exact ⟨by omega, hm.2⟩

theorem ascending_put (m : SMap α) (lo k : Nat) (v : α) (h : lo ≤ k) (hm : ascending lo m = true) :
    ascending lo (put m k v) = true := by
  induction m generalizing lo with
  | nil => simp [put, ascending, h]
  | cons e r ih =>
    obtain ⟨a, w⟩ := e
    simp only [ascending, Bool.and_eq_true, decide_eq_true_eq] at hm
    unfold put
    split
    · simp only [ascending, Bool.and_eq_true, decide_eq_true_eq]; exact ⟨h, by omega, hm.2⟩
    · split
      · subst_vars; simp only [ascending, Bool.and_eq_true, decide_eq_true_eq]; exact hm
      · simp only [ascending, Bool.and_eq_true, decide_eq_true_eq]
        exact ⟨hm.1, ih (a + 1) (by omega) hm.2⟩

theorem ascending_remove (m : SMap α) (lo k : Nat) (hm : ascending lo m = true) : ascending lo (remove m k) = true := by
  induction m generalizing lo with
  | nil => exact hm
  | cons e r ih =>
    obtain ⟨a, w⟩ := e
    simp only [ascending, Bool.and_eq_true, decide_eq_true_eq] at hm
    unfold remove
    split
    · exact ascending_mono _ _ _ (by omega) (ih (a + 1) hm.2)
    · simp only [ascending, Bool.and_eq_true, decide_eq_true_eq]; exact ⟨hm.1, ih (a + 1) hm.2⟩

theorem ascending_removeRange (m : SMap α) (lo a b : Nat) (hm : ascending lo m = true) :
    ascending lo (removeRange m a b) = true := by
  induction m generalizing lo with
  | nil => exact hm
  | cons e r ih =>
    obtain ⟨j, w⟩ := e
    simp only [ascending, Bool.and_eq_true, decide_eq_true_eq] at hm
    unfold removeRange
    split
    · exact ascending_mono _ _ _ (by omega) (ih (j + 1) hm.2)
    · simp only [ascending, Bool.and_eq_true, decide_eq_true_eq]; exact ⟨hm.1, ih (j + 1) hm.2⟩

theorem ascending_filter (m : SMap α) (lo : Nat) (p : Nat × α → Bool) (hm : ascending lo m = true) :
    ascending lo (m.filter p) = true := by
  induction m generalizing lo with
  | nil => exact hm
  | cons e r ih =>
    obtain ⟨j, w⟩ := e
    simp only [ascending, Bool.and_eq_true, decide_eq_true_eq] at hm
    by_cases h : p (j, w) = true
    · rw [List.filter_cons_of_pos h]
      simp only [ascending, Bool.and_eq_true, decide_eq_true_eq]; exact ⟨hm.1, ih (j + 1) hm.2⟩
    · rw [List.filter_cons_of_neg h]; exact ascending_mono _ _ _ (by omega) (ih (j + 1) hm.2)

/-- What ascends to below a bound, followed by what ascends from it on, ascends. -/
theorem ascending_append (m r : SMap α) (lo hi : Nat) (hm : ascending lo m = true) (hb : ∀ e ∈ m, e.1 < hi) (hl : lo ≤ hi)
    (hr : ascending hi r = true) : ascending lo (m ++ r) = true := by
  induction m generalizing lo with
  | nil => exact ascending_mono _ _ _ hl hr
  | cons e m ih =>
    obtain ⟨j, w⟩ := e
    simp only [ascending, List.cons_append, Bool.and_eq_true, decide_eq_true_eq] at *
    have := hb (j, w) (List.mem_cons_self ..)
    exact ⟨hm.1, ih (j + 1) hm.2 (fun e he => hb e (List.mem_cons_of_mem _ he)) (by simpa using this)⟩

theorem ascending_of_le (m : SMap α) (lo hi : Nat) (hm : ascending lo m = true) (hb : ∀ e ∈ m, hi ≤ e.1) : ascending hi m = true := by
  cases m with
  | nil => rfl
  | cons e r =>
    simp only [ascending, Bool.and_eq_true, decide_eq_true_eq] at *
    exact ⟨hb e (List.mem_cons_self ..), hm.2⟩

theorem mem_span (lo n k : Nat) : k ∈ span lo n ↔ lo ≤ k ∧ k < lo + n := by
  induction n generalizing lo with
  | zero => simp [span]
  | succ n ih => simp only [span, List.mem_cons, ih]; omega

theorem ascending_span (lo n : Nat) (f : Nat → Option α) :
    ascending lo ((span lo n).filterMap (fun k => (f k).map (fun v => (k, v)))) = true := by
  induction n generalizing lo with
  | zero => rfl
  | succ n ih =>
    simp only [span, List.filterMap_cons]
    cases h : f lo with
    | none => simpa using ascending_mono _ _ _ (Nat.le_succ lo) (ih (lo + 1))
    | some v => simp [ascending, ih (lo + 1)]

/-- A table with a range put over it lists its keys in ascending order. -/
theorem ascending_putRange (m : SMap α) (lo n : Nat) (f : Nat → Option α) (hm : ascending 0 m = true) :
    ascending 0 (putRange m lo n f) = true := by
  refine ascending_append _ _ 0 (lo + n) (ascending_append _ _ 0 lo (ascending_filter m 0 _ hm) ?_ (Nat.zero_le _) (ascending_span lo n f))
    ?_ (Nat.zero_le _) (ascending_of_le _ 0 _ (ascending_filter m 0 _ hm) ?_)
  · exact fun e he => by simpa using (List.mem_filter.mp he).2
  · intro e he
    obtain he | he := List.mem_append.mp he
    · have : e.1 < lo := by simpa using (List.mem_filter.mp he).2
      omega
    · obtain ⟨k, hk, hv⟩ := List.mem_filterMap.mp he
      obtain ⟨v, -, rfl⟩ := Option.map_eq_some_iff.mp hv
      exact ((mem_span lo n k).mp hk).2
  · exact fun e he => by simpa using (List.mem_filter.mp he).2

theorem find?_append (m r : SMap α) (j : Nat) : find? (m ++ r) j = (find? m j).or (find? r j) := by
  induction m with
  | nil => rfl
  | cons e m ih =>
    obtain ⟨a, w⟩ := e
    simp only [List.cons_append, find?, ih]
    split <;> rfl

theorem find?_filter_key (m : SMap α) (p : Nat → Bool) (j : Nat) :
    find? (m.filter (fun e => p e.1)) j = if p j then find? m j else none := by
  induction m with
  | nil => simp [find?]
  | cons e m ih =>
    obtain ⟨a, w⟩ := e
    simp only [List.filter_cons]
    by_cases h : a = j
    · subst h; split <;> simp_all [find?]
    · split <;> simp_all [find?]

theorem find?_span (lo n : Nat) (f : Nat → Option α) (j : Nat) :
    find? ((span lo n).filterMap (fun k => (f k).map (fun v => (k, v)))) j = if lo ≤ j ∧ j < lo + n then f j else none := by
  induction n generalizing lo with
  | zero => simp [span, find?]
  | succ n ih =>
    simp only [span, List.filterMap_cons]
    cases h : f lo with
    | none =>
      simp only [Option.map_none, ih]
      by_cases hj : j = lo
      · subst hj; simp [h]
      · split <;> split <;> first | rfl | omega
    | some v =>
      simp only [Option.map_some, find?, ih]
      by_cases hj : lo = j
      · subst hj; simp [h]
      · rw [if_neg hj]; split <;> split <;> first | rfl | omega

/-- A key reads as the range gives it, and outside it as before. -/
theorem find?_putRange (m : SMap α) (lo n : Nat) (f : Nat → Option α) (j : Nat) :
    find? (putRange m lo n f) j = if lo ≤ j ∧ j < lo + n then f j else find? m j := by
  simp only [putRange, find?_append, find?_filter_key m (fun k => Nat.blt k lo), find?_filter_key m (fun k => Nat.ble (lo + n) k), find?_span]
  by_cases h1 : j < lo
  · have e1 : Nat.blt j lo = true := by simpa using h1
    have e2 : Nat.ble (lo + n) j = false := by
      cases h : Nat.ble (lo + n) j
      · rfl
      · exact absurd (Nat.le_of_ble_eq_true h) (by omega)
    simp [e1, e2, show ¬ (lo ≤ j ∧ j < lo + n) by omega]
  · have e1 : Nat.blt j lo = false := by
      cases h : Nat.blt j lo
      · rfl
      · exact absurd (by simpa using h) h1
    by_cases h2 : j < lo + n
    · have e2 : Nat.ble (lo + n) j = false := by
        cases h : Nat.ble (lo + n) j
        · rfl
        · exact absurd (Nat.le_of_ble_eq_true h) (by omega)
      simp [e1, e2, show lo ≤ j ∧ j < lo + n by omega]
    · have e2 : Nat.ble (lo + n) j = true := Nat.ble_eq_true_of_le (by omega)
      simp [e1, e2, show ¬ (lo ≤ j ∧ j < lo + n) by omega]

theorem all_put (m : SMap α) (k : Nat) (v : α) (p : Nat × α → Bool) (hv : p (k, v) = true) (hm : m.all p = true) :
    (put m k v).all p = true := by
  induction m with
  | nil => simp [put, hv]
  | cons e r ih =>
    obtain ⟨a, w⟩ := e
    simp only [List.all_cons, Bool.and_eq_true] at hm
    unfold put
    split
    · simp [hv, hm]
    · split
      · simp [hv, hm]
      · simp [hm.1, ih hm.2]

theorem all_remove (m : SMap α) (k : Nat) (p : Nat × α → Bool) (hm : m.all p = true) : (remove m k).all p = true := by
  induction m with
  | nil => rfl
  | cons e r ih =>
    obtain ⟨a, w⟩ := e
    simp only [List.all_cons, Bool.and_eq_true] at hm
    unfold remove
    split
    · exact ih hm.2
    · simp [hm.1, ih hm.2]

theorem all_removeRange (m : SMap α) (lo hi : Nat) (p : Nat × α → Bool) (hm : m.all p = true) :
    (removeRange m lo hi).all p = true := by
  induction m with
  | nil => rfl
  | cons e r ih =>
    obtain ⟨a, w⟩ := e
    simp only [List.all_cons, Bool.and_eq_true] at hm
    unfold removeRange
    split
    · exact ih hm.2
    · simp [hm.1, ih hm.2]

/-- Setting an entry keeps the form of a table. -/
theorem tableWf_set [DecidableEq α] (d : α) (m : SMap α) (k : Nat) (v : α) (h : tableWf d m = true) :
    tableWf d (set d m k v) = true := by
  simp only [tableWf, Bool.and_eq_true] at *
  unfold set
  split
  · exact ⟨ascending_remove m 0 k h.1, all_remove m k _ h.2⟩
  · exact ⟨ascending_put m 0 k v (Nat.zero_le k) h.1, all_put m k v _ (by simpa using ‹¬v = d›) h.2⟩

/-! Memory -/

/-- A byte reads as it was stored last, and the others as before. -/
theorem readByte_writeByte (m : Memory) (a b : Nat) (v : Byte) :
    readByte (writeByte m a v) b = if b = a then v else readByte m b := get_set unlisted m a b v

/-- Bytes outside a stored range read as before. -/
theorem readByte_writeBytes_other (m : Memory) (a b : Nat) (vs : List Byte) (h : b < a ∨ a + vs.length ≤ b) :
    readByte (writeBytes m a vs) b = readByte m b := by
  induction vs generalizing m a with
  | nil => rfl
  | cons v r ih =>
    simp only [List.length_cons] at h
    simp only [writeBytes]
    rw [ih _ _ (by omega), readByte_writeByte, if_neg (by omega)]

/-- A stored byte reads as it was stored. -/
theorem readByte_writeBytes (m : Memory) (a k : Nat) (vs : List Byte) (h : k < vs.length) :
    readByte (writeBytes m a vs) (a + k) = vs.getD k 0 := by
  induction vs generalizing m a k with
  | nil => simp at h
  | cons v r ih =>
    simp only [writeBytes]
    cases k with
    | zero => rw [readByte_writeBytes_other _ _ _ _ (by omega), readByte_writeByte]; simp
    | succ k =>
      simp only [List.length_cons] at h
      have := ih (writeByte m a v) (a + 1) k (by omega)
      rw [show a + (k + 1) = a + 1 + k by omega, this]; simp

/-- Bytes read back from where they were stored. -/
theorem readBytes_writeBytes (m : Memory) (a : Nat) (vs : List Byte) :
    readBytes (writeBytes m a vs) a vs.length = vs := by
  have h (n k : Nat) (hk : k + n = vs.length) : readBytes (writeBytes m a vs) (a + k) n = vs.drop k := by
    induction n generalizing k with
    | zero => rw [List.drop_eq_nil_of_le (by omega)]; rfl
    | succ n ih =>
      have e := ih (k + 1) (by omega)
      rw [show a + (k + 1) = a + k + 1 by omega] at e
      have hl : k < vs.length := by omega
      rw [readBytes, e, readByte_writeBytes m a k vs hl, List.drop_eq_getElem_cons hl]
      simp [List.getElem?_eq_getElem hl]
  simpa using h vs.length 0 (Nat.zero_add _)

/-- Storing one byte keeps the canonical form. -/
theorem wf_writeByte (m : Memory) (a : Nat) (b : Byte) (h : Memory.wf m = true) : Memory.wf (writeByte m a b) = true :=
  tableWf_set unlisted m a b h

/-- Storing bytes keeps the canonical form. -/
theorem wf_writeBytes (m : Memory) (a : Nat) (vs : List Byte) (h : Memory.wf m = true) :
    Memory.wf (writeBytes m a vs) = true := by
  induction vs generalizing m a with
  | nil => exact h
  | cons v r ih => exact ih _ _ (wf_writeByte m a v h)

/-- Storing a word keeps the canonical form. -/
theorem wf_writeWord (m : Memory) (a : Nat) (w : Word) (h : Memory.wf m = true) : Memory.wf (writeWord m a w) = true :=
  wf_writeBytes m a _ h

/-- Clearing a range keeps the canonical form. -/
theorem wf_clearRange (m : Memory) (lo hi : Nat) (h : Memory.wf m = true) : Memory.wf (clearRange m lo hi) = true := by
  simp only [Memory.wf, tableWf, Bool.and_eq_true] at *
  exact ⟨ascending_removeRange m 0 lo hi h.1, all_removeRange m lo hi _ h.2⟩

/-- Memory filled over a range keeps the canonical form. -/
theorem wf_fillBytes (m : Memory) (a n : Nat) (f : Nat → Byte) (h : Memory.wf m = true) : Memory.wf (fillBytes m a n f) = true := by
  simp only [Memory.wf, tableWf, Bool.and_eq_true] at *
  refine ⟨ascending_putRange m a n _ h.1, ?_⟩
  rw [List.all_eq_true] at *
  intro e he
  simp only [fillBytes, putRange, List.mem_append, List.mem_filter, List.mem_filterMap] at he
  obtain (he | ⟨k, -, he⟩) | he := he
  · exact h.2 e he.1
  · by_cases hk : f k = unlisted
    · rw [if_pos hk] at he; cases he
    · rw [if_neg hk] at he; cases he; simpa using hk
  · exact h.2 e he.1

/-- A part of memory that is picked by address keeps the canonical form. -/
theorem wf_filter (m : Memory) (p : Nat × Byte → Bool) (h : Memory.wf m = true) : Memory.wf (m.filter p) = true := by
  simp only [Memory.wf, tableWf, Bool.and_eq_true] at *
  refine ⟨ascending_filter m 0 p h.1, ?_⟩
  rw [List.all_eq_true] at *
  exact fun e he => h.2 e (List.mem_of_mem_filter he)

end Sys2Proof.Machine
end

