-- ==== Sys2Proof/Laws/State.lean ====
section
/-! SUPPORT. What each update of the state and of a context leaves in each field, and how units read after one is replaced. -/

namespace Sys2Proof.Machine

@[simp] theorem setCtx_mem (s : State) (c : Nat) (x : Ctx) : (setCtx s c x).mem = s.mem := rfl
@[simp] theorem onCtx_mem (s : State) (c : Nat) (f : Ctx → Ctx) : (onCtx s c f).mem = s.mem := rfl
@[simp] theorem setCtx_cores (s : State) (c : Nat) (x : Ctx) : (setCtx s c x).cores = s.cores := rfl
@[simp] theorem onCtx_cores (s : State) (c : Nat) (f : Ctx → Ctx) : (onCtx s c f).cores = s.cores := rfl
@[simp] theorem setCtx_clus (s : State) (c : Nat) (x : Ctx) : (setCtx s c x).clus = s.clus := rfl
@[simp] theorem onCtx_clus (s : State) (c : Nat) (f : Ctx → Ctx) : (onCtx s c f).clus = s.clus := rfl
@[simp] theorem setCtx_dies (s : State) (c : Nat) (x : Ctx) : (setCtx s c x).dies = s.dies := rfl
@[simp] theorem onCtx_dies (s : State) (c : Nat) (f : Ctx → Ctx) : (onCtx s c f).dies = s.dies := rfl
@[simp] theorem setCtx_pkg (s : State) (c : Nat) (x : Ctx) : (setCtx s c x).pkg = s.pkg := rfl
@[simp] theorem onCtx_pkg (s : State) (c : Nat) (f : Ctx → Ctx) : (onCtx s c f).pkg = s.pkg := rfl
@[simp] theorem setCtx_turn (s : State) (c : Nat) (x : Ctx) : (setCtx s c x).turn = s.turn := rfl
@[simp] theorem onCtx_turn (s : State) (c : Nat) (f : Ctx → Ctx) : (onCtx s c f).turn = s.turn := rfl
@[simp] theorem setCtx_turns (s : State) (c : Nat) (x : Ctx) : (setCtx s c x).turns = s.turns := rfl
@[simp] theorem onCtx_turns (s : State) (c : Nat) (f : Ctx → Ctx) : (onCtx s c f).turns = s.turns := rfl
@[simp] theorem setCtx_agenda (s : State) (c : Nat) (x : Ctx) : (setCtx s c x).agenda = s.agenda := rfl
@[simp] theorem onCtx_agenda (s : State) (c : Nat) (f : Ctx → Ctx) : (onCtx s c f).agenda = s.agenda := rfl
@[simp] theorem setCtx_signal (s : State) (c : Nat) (x : Ctx) : (setCtx s c x).signal = s.signal := rfl
@[simp] theorem onCtx_signal (s : State) (c : Nat) (f : Ctx → Ctx) : (onCtx s c f).signal = s.signal := rfl
@[simp] theorem setCtx_defer (s : State) (c : Nat) (x : Ctx) : (setCtx s c x).defer = s.defer := rfl
@[simp] theorem onCtx_defer (s : State) (c : Nat) (f : Ctx → Ctx) : (onCtx s c f).defer = s.defer := rfl
@[simp] theorem setCtx_steps (s : State) (c : Nat) (x : Ctx) : (setCtx s c x).steps = s.steps := rfl
@[simp] theorem onCtx_steps (s : State) (c : Nat) (f : Ctx → Ctx) : (onCtx s c f).steps = s.steps := rfl

@[simp] theorem setCore_mem (s : State) (k : Nat) (x : Core) : (setCore s k x).mem = s.mem := rfl
@[simp] theorem onCore_mem (s : State) (k : Nat) (f : Core → Core) : (onCore s k f).mem = s.mem := rfl
@[simp] theorem setCore_ctxs (s : State) (k : Nat) (x : Core) : (setCore s k x).ctxs = s.ctxs := rfl
@[simp] theorem onCore_ctxs (s : State) (k : Nat) (f : Core → Core) : (onCore s k f).ctxs = s.ctxs := rfl
@[simp] theorem setCore_clus (s : State) (k : Nat) (x : Core) : (setCore s k x).clus = s.clus := rfl
@[simp] theorem onCore_clus (s : State) (k : Nat) (f : Core → Core) : (onCore s k f).clus = s.clus := rfl
@[simp] theorem setCore_dies (s : State) (k : Nat) (x : Core) : (setCore s k x).dies = s.dies := rfl
@[simp] theorem onCore_dies (s : State) (k : Nat) (f : Core → Core) : (onCore s k f).dies = s.dies := rfl
@[simp] theorem setCore_pkg (s : State) (k : Nat) (x : Core) : (setCore s k x).pkg = s.pkg := rfl
@[simp] theorem onCore_pkg (s : State) (k : Nat) (f : Core → Core) : (onCore s k f).pkg = s.pkg := rfl
@[simp] theorem setCore_turn (s : State) (k : Nat) (x : Core) : (setCore s k x).turn = s.turn := rfl
@[simp] theorem onCore_turn (s : State) (k : Nat) (f : Core → Core) : (onCore s k f).turn = s.turn := rfl
@[simp] theorem setCore_turns (s : State) (k : Nat) (x : Core) : (setCore s k x).turns = s.turns := rfl
@[simp] theorem onCore_turns (s : State) (k : Nat) (f : Core → Core) : (onCore s k f).turns = s.turns := rfl
@[simp] theorem setCore_agenda (s : State) (k : Nat) (x : Core) : (setCore s k x).agenda = s.agenda := rfl
@[simp] theorem onCore_agenda (s : State) (k : Nat) (f : Core → Core) : (onCore s k f).agenda = s.agenda := rfl
@[simp] theorem setCore_signal (s : State) (k : Nat) (x : Core) : (setCore s k x).signal = s.signal := rfl
@[simp] theorem onCore_signal (s : State) (k : Nat) (f : Core → Core) : (onCore s k f).signal = s.signal := rfl
@[simp] theorem setCore_defer (s : State) (k : Nat) (x : Core) : (setCore s k x).defer = s.defer := rfl
@[simp] theorem onCore_defer (s : State) (k : Nat) (f : Core → Core) : (onCore s k f).defer = s.defer := rfl
@[simp] theorem setCore_steps (s : State) (k : Nat) (x : Core) : (setCore s k x).steps = s.steps := rfl
@[simp] theorem onCore_steps (s : State) (k : Nat) (f : Core → Core) : (onCore s k f).steps = s.steps := rfl

@[simp] theorem setClu_mem (s : State) (k : Nat) (x : Cluster) : (setClu s k x).mem = s.mem := rfl
@[simp] theorem onClu_mem (s : State) (k : Nat) (f : Cluster → Cluster) : (onClu s k f).mem = s.mem := rfl
@[simp] theorem setClu_ctxs (s : State) (k : Nat) (x : Cluster) : (setClu s k x).ctxs = s.ctxs := rfl
@[simp] theorem onClu_ctxs (s : State) (k : Nat) (f : Cluster → Cluster) : (onClu s k f).ctxs = s.ctxs := rfl
@[simp] theorem setClu_cores (s : State) (k : Nat) (x : Cluster) : (setClu s k x).cores = s.cores := rfl
@[simp] theorem onClu_cores (s : State) (k : Nat) (f : Cluster → Cluster) : (onClu s k f).cores = s.cores := rfl
@[simp] theorem setClu_dies (s : State) (k : Nat) (x : Cluster) : (setClu s k x).dies = s.dies := rfl
@[simp] theorem onClu_dies (s : State) (k : Nat) (f : Cluster → Cluster) : (onClu s k f).dies = s.dies := rfl
@[simp] theorem setClu_pkg (s : State) (k : Nat) (x : Cluster) : (setClu s k x).pkg = s.pkg := rfl
@[simp] theorem onClu_pkg (s : State) (k : Nat) (f : Cluster → Cluster) : (onClu s k f).pkg = s.pkg := rfl
@[simp] theorem setClu_turn (s : State) (k : Nat) (x : Cluster) : (setClu s k x).turn = s.turn := rfl
@[simp] theorem onClu_turn (s : State) (k : Nat) (f : Cluster → Cluster) : (onClu s k f).turn = s.turn := rfl
@[simp] theorem setClu_turns (s : State) (k : Nat) (x : Cluster) : (setClu s k x).turns = s.turns := rfl
@[simp] theorem onClu_turns (s : State) (k : Nat) (f : Cluster → Cluster) : (onClu s k f).turns = s.turns := rfl
@[simp] theorem setClu_agenda (s : State) (k : Nat) (x : Cluster) : (setClu s k x).agenda = s.agenda := rfl
@[simp] theorem onClu_agenda (s : State) (k : Nat) (f : Cluster → Cluster) : (onClu s k f).agenda = s.agenda := rfl
@[simp] theorem setClu_signal (s : State) (k : Nat) (x : Cluster) : (setClu s k x).signal = s.signal := rfl
@[simp] theorem onClu_signal (s : State) (k : Nat) (f : Cluster → Cluster) : (onClu s k f).signal = s.signal := rfl
@[simp] theorem setClu_defer (s : State) (k : Nat) (x : Cluster) : (setClu s k x).defer = s.defer := rfl
@[simp] theorem onClu_defer (s : State) (k : Nat) (f : Cluster → Cluster) : (onClu s k f).defer = s.defer := rfl
@[simp] theorem setClu_steps (s : State) (k : Nat) (x : Cluster) : (setClu s k x).steps = s.steps := rfl
@[simp] theorem onClu_steps (s : State) (k : Nat) (f : Cluster → Cluster) : (onClu s k f).steps = s.steps := rfl

@[simp] theorem setDie_mem (s : State) (d : Nat) (x : Die) : (setDie s d x).mem = s.mem := rfl
@[simp] theorem onDie_mem (s : State) (d : Nat) (f : Die → Die) : (onDie s d f).mem = s.mem := rfl
@[simp] theorem setDie_ctxs (s : State) (d : Nat) (x : Die) : (setDie s d x).ctxs = s.ctxs := rfl
@[simp] theorem onDie_ctxs (s : State) (d : Nat) (f : Die → Die) : (onDie s d f).ctxs = s.ctxs := rfl
@[simp] theorem setDie_cores (s : State) (d : Nat) (x : Die) : (setDie s d x).cores = s.cores := rfl
@[simp] theorem onDie_cores (s : State) (d : Nat) (f : Die → Die) : (onDie s d f).cores = s.cores := rfl
@[simp] theorem setDie_clus (s : State) (d : Nat) (x : Die) : (setDie s d x).clus = s.clus := rfl
@[simp] theorem onDie_clus (s : State) (d : Nat) (f : Die → Die) : (onDie s d f).clus = s.clus := rfl
@[simp] theorem setDie_pkg (s : State) (d : Nat) (x : Die) : (setDie s d x).pkg = s.pkg := rfl
@[simp] theorem onDie_pkg (s : State) (d : Nat) (f : Die → Die) : (onDie s d f).pkg = s.pkg := rfl
@[simp] theorem setDie_turn (s : State) (d : Nat) (x : Die) : (setDie s d x).turn = s.turn := rfl
@[simp] theorem onDie_turn (s : State) (d : Nat) (f : Die → Die) : (onDie s d f).turn = s.turn := rfl
@[simp] theorem setDie_turns (s : State) (d : Nat) (x : Die) : (setDie s d x).turns = s.turns := rfl
@[simp] theorem onDie_turns (s : State) (d : Nat) (f : Die → Die) : (onDie s d f).turns = s.turns := rfl
@[simp] theorem setDie_agenda (s : State) (d : Nat) (x : Die) : (setDie s d x).agenda = s.agenda := rfl
@[simp] theorem onDie_agenda (s : State) (d : Nat) (f : Die → Die) : (onDie s d f).agenda = s.agenda := rfl
@[simp] theorem setDie_signal (s : State) (d : Nat) (x : Die) : (setDie s d x).signal = s.signal := rfl
@[simp] theorem onDie_signal (s : State) (d : Nat) (f : Die → Die) : (onDie s d f).signal = s.signal := rfl
@[simp] theorem setDie_defer (s : State) (d : Nat) (x : Die) : (setDie s d x).defer = s.defer := rfl
@[simp] theorem onDie_defer (s : State) (d : Nat) (f : Die → Die) : (onDie s d f).defer = s.defer := rfl
@[simp] theorem setDie_steps (s : State) (d : Nat) (x : Die) : (setDie s d x).steps = s.steps := rfl
@[simp] theorem onDie_steps (s : State) (d : Nat) (f : Die → Die) : (onDie s d f).steps = s.steps := rfl

@[simp] theorem onPkg_mem (s : State) (f : Package → Package) : (onPkg s f).mem = s.mem := rfl
@[simp] theorem onPkg_ctxs (s : State) (f : Package → Package) : (onPkg s f).ctxs = s.ctxs := rfl
@[simp] theorem onPkg_cores (s : State) (f : Package → Package) : (onPkg s f).cores = s.cores := rfl
@[simp] theorem onPkg_clus (s : State) (f : Package → Package) : (onPkg s f).clus = s.clus := rfl
@[simp] theorem onPkg_dies (s : State) (f : Package → Package) : (onPkg s f).dies = s.dies := rfl
@[simp] theorem onPkg_turn (s : State) (f : Package → Package) : (onPkg s f).turn = s.turn := rfl
@[simp] theorem onPkg_turns (s : State) (f : Package → Package) : (onPkg s f).turns = s.turns := rfl
@[simp] theorem onPkg_agenda (s : State) (f : Package → Package) : (onPkg s f).agenda = s.agenda := rfl
@[simp] theorem onPkg_signal (s : State) (f : Package → Package) : (onPkg s f).signal = s.signal := rfl
@[simp] theorem onPkg_defer (s : State) (f : Package → Package) : (onPkg s f).defer = s.defer := rfl
@[simp] theorem onPkg_steps (s : State) (f : Package → Package) : (onPkg s f).steps = s.steps := rfl
@[simp] theorem onPkg_pkg (s : State) (f : Package → Package) : (onPkg s f).pkg = f s.pkg := rfl

/-- A unit reads as it was replaced last. -/
theorem ctxAt_setCtx (s : State) (k j : Nat) (x : Ctx) : ctxAt (setCtx s k x) j = if j = k then x else ctxAt s j :=
  get_put _ _ k j x
theorem ctxAt_onCtx (s : State) (k j : Nat) (f : Ctx → Ctx) :
    ctxAt (onCtx s k f) j = if j = k then f (ctxAt s k) else ctxAt s j := get_put _ _ k j _
@[simp] theorem ctxAt_setCtx_same (s : State) (k : Nat) (x : Ctx) : ctxAt (setCtx s k x) k = x := by
  rw [ctxAt_setCtx, if_pos rfl]
@[simp] theorem ctxAt_onCtx_same (s : State) (k : Nat) (f : Ctx → Ctx) : ctxAt (onCtx s k f) k = f (ctxAt s k) := by
  rw [ctxAt_onCtx, if_pos rfl]
@[simp] theorem ctxAt_setCore (s : State) (k j : Nat) (x : Core) : ctxAt (setCore s k x) j = ctxAt s j := rfl
@[simp] theorem ctxAt_onCore (s : State) (k j : Nat) (f : Core → Core) : ctxAt (onCore s k f) j = ctxAt s j := rfl
@[simp] theorem ctxAt_setClu (s : State) (k j : Nat) (x : Cluster) : ctxAt (setClu s k x) j = ctxAt s j := rfl
@[simp] theorem ctxAt_onClu (s : State) (k j : Nat) (f : Cluster → Cluster) : ctxAt (onClu s k f) j = ctxAt s j := rfl
@[simp] theorem ctxAt_setDie (s : State) (k j : Nat) (x : Die) : ctxAt (setDie s k x) j = ctxAt s j := rfl
@[simp] theorem ctxAt_onDie (s : State) (k j : Nat) (f : Die → Die) : ctxAt (onDie s k f) j = ctxAt s j := rfl
@[simp] theorem ctxAt_onPkg (s : State) (j : Nat) (f : Package → Package) : ctxAt (onPkg s f) j = ctxAt s j := rfl
@[simp] theorem ctxAt_mem (s : State) (m : List Host.Cell) (j : Nat) : ctxAt { s with mem := m } j = ctxAt s j := rfl

/-- A unit reads as it was replaced last. -/
theorem coreAt_setCore (s : State) (k j : Nat) (x : Core) : coreAt (setCore s k x) j = if j = k then x else coreAt s j :=
  get_put _ _ k j x
theorem coreAt_onCore (s : State) (k j : Nat) (f : Core → Core) :
    coreAt (onCore s k f) j = if j = k then f (coreAt s k) else coreAt s j := get_put _ _ k j _
@[simp] theorem coreAt_setCore_same (s : State) (k : Nat) (x : Core) : coreAt (setCore s k x) k = x := by
  rw [coreAt_setCore, if_pos rfl]
@[simp] theorem coreAt_onCore_same (s : State) (k : Nat) (f : Core → Core) : coreAt (onCore s k f) k = f (coreAt s k) := by
  rw [coreAt_onCore, if_pos rfl]
@[simp] theorem coreAt_setCtx (s : State) (k j : Nat) (x : Ctx) : coreAt (setCtx s k x) j = coreAt s j := rfl
@[simp] theorem coreAt_onCtx (s : State) (k j : Nat) (f : Ctx → Ctx) : coreAt (onCtx s k f) j = coreAt s j := rfl
@[simp] theorem coreAt_setClu (s : State) (k j : Nat) (x : Cluster) : coreAt (setClu s k x) j = coreAt s j := rfl
@[simp] theorem coreAt_onClu (s : State) (k j : Nat) (f : Cluster → Cluster) : coreAt (onClu s k f) j = coreAt s j := rfl
@[simp] theorem coreAt_setDie (s : State) (k j : Nat) (x : Die) : coreAt (setDie s k x) j = coreAt s j := rfl
@[simp] theorem coreAt_onDie (s : State) (k j : Nat) (f : Die → Die) : coreAt (onDie s k f) j = coreAt s j := rfl
@[simp] theorem coreAt_onPkg (s : State) (j : Nat) (f : Package → Package) : coreAt (onPkg s f) j = coreAt s j := rfl
@[simp] theorem coreAt_mem (s : State) (m : List Host.Cell) (j : Nat) : coreAt { s with mem := m } j = coreAt s j := rfl

/-- A unit reads as it was replaced last. -/
theorem cluAt_setClu (s : State) (k j : Nat) (x : Cluster) : cluAt (setClu s k x) j = if j = k then x else cluAt s j :=
  get_put _ _ k j x
theorem cluAt_onClu (s : State) (k j : Nat) (f : Cluster → Cluster) :
    cluAt (onClu s k f) j = if j = k then f (cluAt s k) else cluAt s j := get_put _ _ k j _
@[simp] theorem cluAt_setClu_same (s : State) (k : Nat) (x : Cluster) : cluAt (setClu s k x) k = x := by
  rw [cluAt_setClu, if_pos rfl]
@[simp] theorem cluAt_onClu_same (s : State) (k : Nat) (f : Cluster → Cluster) : cluAt (onClu s k f) k = f (cluAt s k) := by
  rw [cluAt_onClu, if_pos rfl]
@[simp] theorem cluAt_setCtx (s : State) (k j : Nat) (x : Ctx) : cluAt (setCtx s k x) j = cluAt s j := rfl
@[simp] theorem cluAt_onCtx (s : State) (k j : Nat) (f : Ctx → Ctx) : cluAt (onCtx s k f) j = cluAt s j := rfl
@[simp] theorem cluAt_setCore (s : State) (k j : Nat) (x : Core) : cluAt (setCore s k x) j = cluAt s j := rfl
@[simp] theorem cluAt_onCore (s : State) (k j : Nat) (f : Core → Core) : cluAt (onCore s k f) j = cluAt s j := rfl
@[simp] theorem cluAt_setDie (s : State) (k j : Nat) (x : Die) : cluAt (setDie s k x) j = cluAt s j := rfl
@[simp] theorem cluAt_onDie (s : State) (k j : Nat) (f : Die → Die) : cluAt (onDie s k f) j = cluAt s j := rfl
@[simp] theorem cluAt_onPkg (s : State) (j : Nat) (f : Package → Package) : cluAt (onPkg s f) j = cluAt s j := rfl
@[simp] theorem cluAt_mem (s : State) (m : List Host.Cell) (j : Nat) : cluAt { s with mem := m } j = cluAt s j := rfl

/-- A unit reads as it was replaced last. -/
theorem dieAt_setDie (s : State) (k j : Nat) (x : Die) : dieAt (setDie s k x) j = if j = k then x else dieAt s j :=
  get_put _ _ k j x
theorem dieAt_onDie (s : State) (k j : Nat) (f : Die → Die) :
    dieAt (onDie s k f) j = if j = k then f (dieAt s k) else dieAt s j := get_put _ _ k j _
@[simp] theorem dieAt_setDie_same (s : State) (k : Nat) (x : Die) : dieAt (setDie s k x) k = x := by
  rw [dieAt_setDie, if_pos rfl]
@[simp] theorem dieAt_onDie_same (s : State) (k : Nat) (f : Die → Die) : dieAt (onDie s k f) k = f (dieAt s k) := by
  rw [dieAt_onDie, if_pos rfl]
@[simp] theorem dieAt_setCtx (s : State) (k j : Nat) (x : Ctx) : dieAt (setCtx s k x) j = dieAt s j := rfl
@[simp] theorem dieAt_onCtx (s : State) (k j : Nat) (f : Ctx → Ctx) : dieAt (onCtx s k f) j = dieAt s j := rfl
@[simp] theorem dieAt_setCore (s : State) (k j : Nat) (x : Core) : dieAt (setCore s k x) j = dieAt s j := rfl
@[simp] theorem dieAt_onCore (s : State) (k j : Nat) (f : Core → Core) : dieAt (onCore s k f) j = dieAt s j := rfl
@[simp] theorem dieAt_setClu (s : State) (k j : Nat) (x : Cluster) : dieAt (setClu s k x) j = dieAt s j := rfl
@[simp] theorem dieAt_onClu (s : State) (k j : Nat) (f : Cluster → Cluster) : dieAt (onClu s k f) j = dieAt s j := rfl
@[simp] theorem dieAt_onPkg (s : State) (j : Nat) (f : Package → Package) : dieAt (onPkg s f) j = dieAt s j := rfl
@[simp] theorem dieAt_mem (s : State) (m : List Host.Cell) (j : Nat) : dieAt { s with mem := m } j = dieAt s j := rfl

/-! Contexts -/

@[simp] theorem setX_csr (x : Ctx) (r : XReg) (v : Word) : (x.setX r v).csr = x.csr := by unfold Ctx.setX; split <;> rfl
@[simp] theorem setX_pc (x : Ctx) (r : XReg) (v : Word) : (x.setX r v).pc = x.pc := by unfold Ctx.setX; split <;> rfl
@[simp] theorem setX_level (x : Ctx) (r : XReg) (v : Word) : (x.setX r v).level = x.level := by unfold Ctx.setX; split <;> rfl
@[simp] theorem setX_secure (x : Ctx) (r : XReg) (v : Word) : (x.setX r v).secure = x.secure := by unfold Ctx.setX; split <;> rfl
@[simp] theorem setX_trapK (x : Ctx) (r : XReg) (v : Word) : (x.setX r v).trapK = x.trapK := by unfold Ctx.setX; split <;> rfl
@[simp] theorem setX_trapH (x : Ctx) (r : XReg) (v : Word) : (x.setX r v).trapH = x.trapH := by unfold Ctx.setX; split <;> rfl
@[simp] theorem setX_trapM (x : Ctx) (r : XReg) (v : Word) : (x.setX r v).trapM = x.trapM := by unfold Ctx.setX; split <;> rfl
@[simp] theorem setX_asid (x : Ctx) (r : XReg) (v : Word) : (x.setX r v).asid = x.asid := by unfold Ctx.setX; split <;> rfl
@[simp] theorem setX_partid (x : Ctx) (r : XReg) (v : Word) : (x.setX r v).partid = x.partid := by unfold Ctx.setX; split <;> rfl
@[simp] theorem setX_loop (x : Ctx) (r : XReg) (v : Word) : (x.setX r v).loop = x.loop := by unfold Ctx.setX; split <;> rfl
@[simp] theorem setX_lap (x : Ctx) (r : XReg) (v : Word) : (x.setX r v).lap = x.lap := by unfold Ctx.setX; split <;> rfl
@[simp] theorem setX_groups (x : Ctx) (r : XReg) (v : Word) : (x.setX r v).groups = x.groups := by unfold Ctx.setX; split <;> rfl
@[simp] theorem setX_between (x : Ctx) (r : XReg) (v : Word) : (x.setX r v).between = x.between := by unfold Ctx.setX; split <;> rfl
@[simp] theorem setX_work (x : Ctx) (r : XReg) (v : Word) : (x.setX r v).work = x.work := by unfold Ctx.setX; split <;> rfl
@[simp] theorem setX_batons (x : Ctx) (r : XReg) (v : Word) : (x.setX r v).batons = x.batons := by unfold Ctx.setX; split <;> rfl
@[simp] theorem setX_owed (x : Ctx) (r : XReg) (v : Word) : (x.setX r v).owed = x.owed := by unfold Ctx.setX; split <;> rfl
@[simp] theorem setX_reserve (x : Ctx) (r : XReg) (v : Word) : (x.setX r v).reserve = x.reserve := by unfold Ctx.setX; split <;> rfl
@[simp] theorem setX_streams (x : Ctx) (r : XReg) (v : Word) : (x.setX r v).streams = x.streams := by unfold Ctx.setX; split <;> rfl
@[simp] theorem setX_vq (x : Ctx) (r : XReg) (v : Word) : (x.setX r v).vq = x.vq := by unfold Ctx.setX; split <;> rfl
@[simp] theorem setX_vx (x : Ctx) (r : XReg) (v : Word) : (x.setX r v).vx = x.vx := by unfold Ctx.setX; split <;> rfl
@[simp] theorem setX_held (x : Ctx) (r : XReg) (v : Word) : (x.setX r v).held = x.held := by unfold Ctx.setX; split <;> rfl
@[simp] theorem setX_park (x : Ctx) (r : XReg) (v : Word) : (x.setX r v).park = x.park := by unfold Ctx.setX; split <;> rfl
@[simp] theorem setX_watched (x : Ctx) (r : XReg) (v : Word) : (x.setX r v).watched = x.watched := by unfold Ctx.setX; split <;> rfl
@[simp] theorem setX_marks (x : Ctx) (r : XReg) (v : Word) : (x.setX r v).marks = x.marks := by unfold Ctx.setX; split <;> rfl
@[simp] theorem setX_pass (x : Ctx) (r : XReg) (v : Word) : (x.setX r v).pass = x.pass := by unfold Ctx.setX; split <;> rfl
@[simp] theorem setX_pend (x : Ctx) (r : XReg) (v : Word) : (x.setX r v).pend = x.pend := by unfold Ctx.setX; split <;> rfl
@[simp] theorem setX_waits (x : Ctx) (r : XReg) (v : Word) : (x.setX r v).waits = x.waits := by unfold Ctx.setX; split <;> rfl
@[simp] theorem setX_fwait (x : Ctx) (r : XReg) (v : Word) : (x.setX r v).fwait = x.fwait := by unfold Ctx.setX; split <;> rfl
@[simp] theorem setX_waitsData (x : Ctx) (r : XReg) (v : Word) : (x.setX r v).waitsData = x.waitsData := by unfold Ctx.setX; split <;> rfl
@[simp] theorem setX_dumping (x : Ctx) (r : XReg) (v : Word) : (x.setX r v).dumping = x.dumping := by unfold Ctx.setX; split <;> rfl
@[simp] theorem setX_readBack (x : Ctx) (r : XReg) (v : Word) : (x.setX r v).readBack = x.readBack := by unfold Ctx.setX; split <;> rfl
@[simp] theorem setX_domWait (x : Ctx) (r : XReg) (v : Word) : (x.setX r v).domWait = x.domWait := by unfold Ctx.setX; split <;> rfl
@[simp] theorem setX_domGot (x : Ctx) (r : XReg) (v : Word) : (x.setX r v).domGot = x.domGot := by unfold Ctx.setX; split <;> rfl
@[simp] theorem setX_stopping (x : Ctx) (r : XReg) (v : Word) : (x.setX r v).stopping = x.stopping := by unfold Ctx.setX; split <;> rfl
@[simp] theorem setX_halting (x : Ctx) (r : XReg) (v : Word) : (x.setX r v).halting = x.halting := by unfold Ctx.setX; split <;> rfl
@[simp] theorem setX_passed (x : Ctx) (r : XReg) (v : Word) : (x.setX r v).passed = x.passed := by unfold Ctx.setX; split <;> rfl
@[simp] theorem setX_yielding (x : Ctx) (r : XReg) (v : Word) : (x.setX r v).yielding = x.yielding := by unfold Ctx.setX; split <;> rfl
@[simp] theorem setX_inHandler (x : Ctx) (r : XReg) (v : Word) : (x.setX r v).inHandler = x.inHandler := by unfold Ctx.setX; split <;> rfl
@[simp] theorem setX_stepOver (x : Ctx) (r : XReg) (v : Word) : (x.setX r v).stepOver = x.stepOver := by unfold Ctx.setX; split <;> rfl
@[simp] theorem setX_dbgStep (x : Ctx) (r : XReg) (v : Word) : (x.setX r v).dbgStep = x.dbgStep := by unfold Ctx.setX; split <;> rfl
@[simp] theorem setX_stopReq (x : Ctx) (r : XReg) (v : Word) : (x.setX r v).stopReq = x.stopReq := by unfold Ctx.setX; split <;> rfl
@[simp] theorem setX_wps (x : Ctx) (r : XReg) (v : Word) : (x.setX r v).wps = x.wps := by unfold Ctx.setX; split <;> rfl
@[simp] theorem setX_pair (x : Ctx) (r : XReg) (v : Word) : (x.setX r v).pair = x.pair := by unfold Ctx.setX; split <;> rfl
@[simp] theorem setX_occ (x : Ctx) (r : XReg) (v : Word) : (x.setX r v).occ = x.occ := by unfold Ctx.setX; split <;> rfl
@[simp] theorem setX_since (x : Ctx) (r : XReg) (v : Word) : (x.setX r v).since = x.since := by unfold Ctx.setX; split <;> rfl
@[simp] theorem setX_stops (x : Ctx) (r : XReg) (v : Word) : (x.setX r v).stops = x.stops := by unfold Ctx.setX; split <;> rfl
@[simp] theorem setV_csr (x : Ctx) (r : Nat) (b : VReg) : (x.setV r b).csr = x.csr := rfl
@[simp] theorem setV_pc (x : Ctx) (r : Nat) (b : VReg) : (x.setV r b).pc = x.pc := rfl
@[simp] theorem setV_level (x : Ctx) (r : Nat) (b : VReg) : (x.setV r b).level = x.level := rfl
@[simp] theorem setV_secure (x : Ctx) (r : Nat) (b : VReg) : (x.setV r b).secure = x.secure := rfl
@[simp] theorem setV_trapK (x : Ctx) (r : Nat) (b : VReg) : (x.setV r b).trapK = x.trapK := rfl
@[simp] theorem setV_trapH (x : Ctx) (r : Nat) (b : VReg) : (x.setV r b).trapH = x.trapH := rfl
@[simp] theorem setV_trapM (x : Ctx) (r : Nat) (b : VReg) : (x.setV r b).trapM = x.trapM := rfl
@[simp] theorem setV_asid (x : Ctx) (r : Nat) (b : VReg) : (x.setV r b).asid = x.asid := rfl
@[simp] theorem setV_partid (x : Ctx) (r : Nat) (b : VReg) : (x.setV r b).partid = x.partid := rfl
@[simp] theorem setV_loop (x : Ctx) (r : Nat) (b : VReg) : (x.setV r b).loop = x.loop := rfl
@[simp] theorem setV_lap (x : Ctx) (r : Nat) (b : VReg) : (x.setV r b).lap = x.lap := rfl
@[simp] theorem setV_groups (x : Ctx) (r : Nat) (b : VReg) : (x.setV r b).groups = x.groups := rfl
@[simp] theorem setV_between (x : Ctx) (r : Nat) (b : VReg) : (x.setV r b).between = x.between := rfl
@[simp] theorem setV_work (x : Ctx) (r : Nat) (b : VReg) : (x.setV r b).work = x.work := rfl
@[simp] theorem setV_batons (x : Ctx) (r : Nat) (b : VReg) : (x.setV r b).batons = x.batons := rfl
@[simp] theorem setV_owed (x : Ctx) (r : Nat) (b : VReg) : (x.setV r b).owed = x.owed := rfl
@[simp] theorem setV_reserve (x : Ctx) (r : Nat) (b : VReg) : (x.setV r b).reserve = x.reserve := rfl
@[simp] theorem setV_streams (x : Ctx) (r : Nat) (b : VReg) : (x.setV r b).streams = x.streams := rfl
@[simp] theorem setV_vq (x : Ctx) (r : Nat) (b : VReg) : (x.setV r b).vq = x.vq := rfl
@[simp] theorem setV_vx (x : Ctx) (r : Nat) (b : VReg) : (x.setV r b).vx = x.vx := rfl
@[simp] theorem setV_held (x : Ctx) (r : Nat) (b : VReg) : (x.setV r b).held = x.held := rfl
@[simp] theorem setV_park (x : Ctx) (r : Nat) (b : VReg) : (x.setV r b).park = x.park := rfl
@[simp] theorem setV_watched (x : Ctx) (r : Nat) (b : VReg) : (x.setV r b).watched = x.watched := rfl
@[simp] theorem setV_marks (x : Ctx) (r : Nat) (b : VReg) : (x.setV r b).marks = x.marks := rfl
@[simp] theorem setV_pass (x : Ctx) (r : Nat) (b : VReg) : (x.setV r b).pass = x.pass := rfl
@[simp] theorem setV_pend (x : Ctx) (r : Nat) (b : VReg) : (x.setV r b).pend = x.pend := rfl
@[simp] theorem setV_waits (x : Ctx) (r : Nat) (b : VReg) : (x.setV r b).waits = x.waits := rfl
@[simp] theorem setV_fwait (x : Ctx) (r : Nat) (b : VReg) : (x.setV r b).fwait = x.fwait := rfl
@[simp] theorem setV_waitsData (x : Ctx) (r : Nat) (b : VReg) : (x.setV r b).waitsData = x.waitsData := rfl
@[simp] theorem setV_dumping (x : Ctx) (r : Nat) (b : VReg) : (x.setV r b).dumping = x.dumping := rfl
@[simp] theorem setV_readBack (x : Ctx) (r : Nat) (b : VReg) : (x.setV r b).readBack = x.readBack := rfl
@[simp] theorem setV_domWait (x : Ctx) (r : Nat) (b : VReg) : (x.setV r b).domWait = x.domWait := rfl
@[simp] theorem setV_domGot (x : Ctx) (r : Nat) (b : VReg) : (x.setV r b).domGot = x.domGot := rfl
@[simp] theorem setV_stopping (x : Ctx) (r : Nat) (b : VReg) : (x.setV r b).stopping = x.stopping := rfl
@[simp] theorem setV_halting (x : Ctx) (r : Nat) (b : VReg) : (x.setV r b).halting = x.halting := rfl
@[simp] theorem setV_passed (x : Ctx) (r : Nat) (b : VReg) : (x.setV r b).passed = x.passed := rfl
@[simp] theorem setV_yielding (x : Ctx) (r : Nat) (b : VReg) : (x.setV r b).yielding = x.yielding := rfl
@[simp] theorem setV_inHandler (x : Ctx) (r : Nat) (b : VReg) : (x.setV r b).inHandler = x.inHandler := rfl
@[simp] theorem setV_stepOver (x : Ctx) (r : Nat) (b : VReg) : (x.setV r b).stepOver = x.stepOver := rfl
@[simp] theorem setV_dbgStep (x : Ctx) (r : Nat) (b : VReg) : (x.setV r b).dbgStep = x.dbgStep := rfl
@[simp] theorem setV_stopReq (x : Ctx) (r : Nat) (b : VReg) : (x.setV r b).stopReq = x.stopReq := rfl
@[simp] theorem setV_wps (x : Ctx) (r : Nat) (b : VReg) : (x.setV r b).wps = x.wps := rfl
@[simp] theorem setV_pair (x : Ctx) (r : Nat) (b : VReg) : (x.setV r b).pair = x.pair := rfl
@[simp] theorem setV_occ (x : Ctx) (r : Nat) (b : VReg) : (x.setV r b).occ = x.occ := rfl
@[simp] theorem setV_since (x : Ctx) (r : Nat) (b : VReg) : (x.setV r b).since = x.since := rfl
@[simp] theorem setV_stops (x : Ctx) (r : Nat) (b : VReg) : (x.setV r b).stops = x.stops := rfl
@[simp] theorem setM_csr (x : Ctx) (r : Nat) (b : VReg) : (x.setM r b).csr = x.csr := rfl
@[simp] theorem setM_pc (x : Ctx) (r : Nat) (b : VReg) : (x.setM r b).pc = x.pc := rfl
@[simp] theorem setM_level (x : Ctx) (r : Nat) (b : VReg) : (x.setM r b).level = x.level := rfl
@[simp] theorem setM_secure (x : Ctx) (r : Nat) (b : VReg) : (x.setM r b).secure = x.secure := rfl
@[simp] theorem setM_trapK (x : Ctx) (r : Nat) (b : VReg) : (x.setM r b).trapK = x.trapK := rfl
@[simp] theorem setM_trapH (x : Ctx) (r : Nat) (b : VReg) : (x.setM r b).trapH = x.trapH := rfl
@[simp] theorem setM_trapM (x : Ctx) (r : Nat) (b : VReg) : (x.setM r b).trapM = x.trapM := rfl
@[simp] theorem setM_asid (x : Ctx) (r : Nat) (b : VReg) : (x.setM r b).asid = x.asid := rfl
@[simp] theorem setM_partid (x : Ctx) (r : Nat) (b : VReg) : (x.setM r b).partid = x.partid := rfl
@[simp] theorem setM_loop (x : Ctx) (r : Nat) (b : VReg) : (x.setM r b).loop = x.loop := rfl
@[simp] theorem setM_lap (x : Ctx) (r : Nat) (b : VReg) : (x.setM r b).lap = x.lap := rfl
@[simp] theorem setM_groups (x : Ctx) (r : Nat) (b : VReg) : (x.setM r b).groups = x.groups := rfl
@[simp] theorem setM_between (x : Ctx) (r : Nat) (b : VReg) : (x.setM r b).between = x.between := rfl
@[simp] theorem setM_work (x : Ctx) (r : Nat) (b : VReg) : (x.setM r b).work = x.work := rfl
@[simp] theorem setM_batons (x : Ctx) (r : Nat) (b : VReg) : (x.setM r b).batons = x.batons := rfl
@[simp] theorem setM_owed (x : Ctx) (r : Nat) (b : VReg) : (x.setM r b).owed = x.owed := rfl
@[simp] theorem setM_reserve (x : Ctx) (r : Nat) (b : VReg) : (x.setM r b).reserve = x.reserve := rfl
@[simp] theorem setM_streams (x : Ctx) (r : Nat) (b : VReg) : (x.setM r b).streams = x.streams := rfl
@[simp] theorem setM_vq (x : Ctx) (r : Nat) (b : VReg) : (x.setM r b).vq = x.vq := rfl
@[simp] theorem setM_vx (x : Ctx) (r : Nat) (b : VReg) : (x.setM r b).vx = x.vx := rfl
@[simp] theorem setM_held (x : Ctx) (r : Nat) (b : VReg) : (x.setM r b).held = x.held := rfl
@[simp] theorem setM_park (x : Ctx) (r : Nat) (b : VReg) : (x.setM r b).park = x.park := rfl
@[simp] theorem setM_watched (x : Ctx) (r : Nat) (b : VReg) : (x.setM r b).watched = x.watched := rfl
@[simp] theorem setM_marks (x : Ctx) (r : Nat) (b : VReg) : (x.setM r b).marks = x.marks := rfl
@[simp] theorem setM_pass (x : Ctx) (r : Nat) (b : VReg) : (x.setM r b).pass = x.pass := rfl
@[simp] theorem setM_pend (x : Ctx) (r : Nat) (b : VReg) : (x.setM r b).pend = x.pend := rfl
@[simp] theorem setM_waits (x : Ctx) (r : Nat) (b : VReg) : (x.setM r b).waits = x.waits := rfl
@[simp] theorem setM_fwait (x : Ctx) (r : Nat) (b : VReg) : (x.setM r b).fwait = x.fwait := rfl
@[simp] theorem setM_waitsData (x : Ctx) (r : Nat) (b : VReg) : (x.setM r b).waitsData = x.waitsData := rfl
@[simp] theorem setM_dumping (x : Ctx) (r : Nat) (b : VReg) : (x.setM r b).dumping = x.dumping := rfl
@[simp] theorem setM_readBack (x : Ctx) (r : Nat) (b : VReg) : (x.setM r b).readBack = x.readBack := rfl
@[simp] theorem setM_domWait (x : Ctx) (r : Nat) (b : VReg) : (x.setM r b).domWait = x.domWait := rfl
@[simp] theorem setM_domGot (x : Ctx) (r : Nat) (b : VReg) : (x.setM r b).domGot = x.domGot := rfl
@[simp] theorem setM_stopping (x : Ctx) (r : Nat) (b : VReg) : (x.setM r b).stopping = x.stopping := rfl
@[simp] theorem setM_halting (x : Ctx) (r : Nat) (b : VReg) : (x.setM r b).halting = x.halting := rfl
@[simp] theorem setM_passed (x : Ctx) (r : Nat) (b : VReg) : (x.setM r b).passed = x.passed := rfl
@[simp] theorem setM_yielding (x : Ctx) (r : Nat) (b : VReg) : (x.setM r b).yielding = x.yielding := rfl
@[simp] theorem setM_inHandler (x : Ctx) (r : Nat) (b : VReg) : (x.setM r b).inHandler = x.inHandler := rfl
@[simp] theorem setM_stepOver (x : Ctx) (r : Nat) (b : VReg) : (x.setM r b).stepOver = x.stepOver := rfl
@[simp] theorem setM_dbgStep (x : Ctx) (r : Nat) (b : VReg) : (x.setM r b).dbgStep = x.dbgStep := rfl
@[simp] theorem setM_stopReq (x : Ctx) (r : Nat) (b : VReg) : (x.setM r b).stopReq = x.stopReq := rfl
@[simp] theorem setM_wps (x : Ctx) (r : Nat) (b : VReg) : (x.setM r b).wps = x.wps := rfl
@[simp] theorem setM_pair (x : Ctx) (r : Nat) (b : VReg) : (x.setM r b).pair = x.pair := rfl
@[simp] theorem setM_occ (x : Ctx) (r : Nat) (b : VReg) : (x.setM r b).occ = x.occ := rfl
@[simp] theorem setM_since (x : Ctx) (r : Nat) (b : VReg) : (x.setM r b).since = x.since := rfl
@[simp] theorem setM_stops (x : Ctx) (r : Nat) (b : VReg) : (x.setM r b).stops = x.stops := rfl
@[simp] theorem setC_csr (x : Ctx) (r : BitVec 4) (b : BitVec 256) : (x.setC r b).csr = x.csr := rfl
@[simp] theorem setC_pc (x : Ctx) (r : BitVec 4) (b : BitVec 256) : (x.setC r b).pc = x.pc := rfl
@[simp] theorem setC_level (x : Ctx) (r : BitVec 4) (b : BitVec 256) : (x.setC r b).level = x.level := rfl
@[simp] theorem setC_secure (x : Ctx) (r : BitVec 4) (b : BitVec 256) : (x.setC r b).secure = x.secure := rfl
@[simp] theorem setC_trapK (x : Ctx) (r : BitVec 4) (b : BitVec 256) : (x.setC r b).trapK = x.trapK := rfl
@[simp] theorem setC_trapH (x : Ctx) (r : BitVec 4) (b : BitVec 256) : (x.setC r b).trapH = x.trapH := rfl
@[simp] theorem setC_trapM (x : Ctx) (r : BitVec 4) (b : BitVec 256) : (x.setC r b).trapM = x.trapM := rfl
@[simp] theorem setC_asid (x : Ctx) (r : BitVec 4) (b : BitVec 256) : (x.setC r b).asid = x.asid := rfl
@[simp] theorem setC_partid (x : Ctx) (r : BitVec 4) (b : BitVec 256) : (x.setC r b).partid = x.partid := rfl
@[simp] theorem setC_loop (x : Ctx) (r : BitVec 4) (b : BitVec 256) : (x.setC r b).loop = x.loop := rfl
@[simp] theorem setC_lap (x : Ctx) (r : BitVec 4) (b : BitVec 256) : (x.setC r b).lap = x.lap := rfl
@[simp] theorem setC_groups (x : Ctx) (r : BitVec 4) (b : BitVec 256) : (x.setC r b).groups = x.groups := rfl
@[simp] theorem setC_between (x : Ctx) (r : BitVec 4) (b : BitVec 256) : (x.setC r b).between = x.between := rfl
@[simp] theorem setC_work (x : Ctx) (r : BitVec 4) (b : BitVec 256) : (x.setC r b).work = x.work := rfl
@[simp] theorem setC_batons (x : Ctx) (r : BitVec 4) (b : BitVec 256) : (x.setC r b).batons = x.batons := rfl
@[simp] theorem setC_owed (x : Ctx) (r : BitVec 4) (b : BitVec 256) : (x.setC r b).owed = x.owed := rfl
@[simp] theorem setC_reserve (x : Ctx) (r : BitVec 4) (b : BitVec 256) : (x.setC r b).reserve = x.reserve := rfl
@[simp] theorem setC_streams (x : Ctx) (r : BitVec 4) (b : BitVec 256) : (x.setC r b).streams = x.streams := rfl
@[simp] theorem setC_vq (x : Ctx) (r : BitVec 4) (b : BitVec 256) : (x.setC r b).vq = x.vq := rfl
@[simp] theorem setC_vx (x : Ctx) (r : BitVec 4) (b : BitVec 256) : (x.setC r b).vx = x.vx := rfl
@[simp] theorem setC_held (x : Ctx) (r : BitVec 4) (b : BitVec 256) : (x.setC r b).held = x.held := rfl
@[simp] theorem setC_park (x : Ctx) (r : BitVec 4) (b : BitVec 256) : (x.setC r b).park = x.park := rfl
@[simp] theorem setC_watched (x : Ctx) (r : BitVec 4) (b : BitVec 256) : (x.setC r b).watched = x.watched := rfl
@[simp] theorem setC_marks (x : Ctx) (r : BitVec 4) (b : BitVec 256) : (x.setC r b).marks = x.marks := rfl
@[simp] theorem setC_pass (x : Ctx) (r : BitVec 4) (b : BitVec 256) : (x.setC r b).pass = x.pass := rfl
@[simp] theorem setC_pend (x : Ctx) (r : BitVec 4) (b : BitVec 256) : (x.setC r b).pend = x.pend := rfl
@[simp] theorem setC_waits (x : Ctx) (r : BitVec 4) (b : BitVec 256) : (x.setC r b).waits = x.waits := rfl
@[simp] theorem setC_fwait (x : Ctx) (r : BitVec 4) (b : BitVec 256) : (x.setC r b).fwait = x.fwait := rfl
@[simp] theorem setC_waitsData (x : Ctx) (r : BitVec 4) (b : BitVec 256) : (x.setC r b).waitsData = x.waitsData := rfl
@[simp] theorem setC_dumping (x : Ctx) (r : BitVec 4) (b : BitVec 256) : (x.setC r b).dumping = x.dumping := rfl
@[simp] theorem setC_readBack (x : Ctx) (r : BitVec 4) (b : BitVec 256) : (x.setC r b).readBack = x.readBack := rfl
@[simp] theorem setC_domWait (x : Ctx) (r : BitVec 4) (b : BitVec 256) : (x.setC r b).domWait = x.domWait := rfl
@[simp] theorem setC_domGot (x : Ctx) (r : BitVec 4) (b : BitVec 256) : (x.setC r b).domGot = x.domGot := rfl
@[simp] theorem setC_stopping (x : Ctx) (r : BitVec 4) (b : BitVec 256) : (x.setC r b).stopping = x.stopping := rfl
@[simp] theorem setC_halting (x : Ctx) (r : BitVec 4) (b : BitVec 256) : (x.setC r b).halting = x.halting := rfl
@[simp] theorem setC_passed (x : Ctx) (r : BitVec 4) (b : BitVec 256) : (x.setC r b).passed = x.passed := rfl
@[simp] theorem setC_yielding (x : Ctx) (r : BitVec 4) (b : BitVec 256) : (x.setC r b).yielding = x.yielding := rfl
@[simp] theorem setC_inHandler (x : Ctx) (r : BitVec 4) (b : BitVec 256) : (x.setC r b).inHandler = x.inHandler := rfl
@[simp] theorem setC_stepOver (x : Ctx) (r : BitVec 4) (b : BitVec 256) : (x.setC r b).stepOver = x.stepOver := rfl
@[simp] theorem setC_dbgStep (x : Ctx) (r : BitVec 4) (b : BitVec 256) : (x.setC r b).dbgStep = x.dbgStep := rfl
@[simp] theorem setC_stopReq (x : Ctx) (r : BitVec 4) (b : BitVec 256) : (x.setC r b).stopReq = x.stopReq := rfl
@[simp] theorem setC_wps (x : Ctx) (r : BitVec 4) (b : BitVec 256) : (x.setC r b).wps = x.wps := rfl
@[simp] theorem setC_pair (x : Ctx) (r : BitVec 4) (b : BitVec 256) : (x.setC r b).pair = x.pair := rfl
@[simp] theorem setC_occ (x : Ctx) (r : BitVec 4) (b : BitVec 256) : (x.setC r b).occ = x.occ := rfl
@[simp] theorem setC_since (x : Ctx) (r : BitVec 4) (b : BitVec 256) : (x.setC r b).since = x.since := rfl
@[simp] theorem setC_stops (x : Ctx) (r : BitVec 4) (b : BitVec 256) : (x.setC r b).stops = x.stops := rfl
@[simp] theorem setT_csr (x : Ctx) (r : BitVec 3) (b : BitVec 576) : (x.setT r b).csr = x.csr := rfl
@[simp] theorem setT_pc (x : Ctx) (r : BitVec 3) (b : BitVec 576) : (x.setT r b).pc = x.pc := rfl
@[simp] theorem setT_level (x : Ctx) (r : BitVec 3) (b : BitVec 576) : (x.setT r b).level = x.level := rfl
@[simp] theorem setT_secure (x : Ctx) (r : BitVec 3) (b : BitVec 576) : (x.setT r b).secure = x.secure := rfl
@[simp] theorem setT_trapK (x : Ctx) (r : BitVec 3) (b : BitVec 576) : (x.setT r b).trapK = x.trapK := rfl
@[simp] theorem setT_trapH (x : Ctx) (r : BitVec 3) (b : BitVec 576) : (x.setT r b).trapH = x.trapH := rfl
@[simp] theorem setT_trapM (x : Ctx) (r : BitVec 3) (b : BitVec 576) : (x.setT r b).trapM = x.trapM := rfl
@[simp] theorem setT_asid (x : Ctx) (r : BitVec 3) (b : BitVec 576) : (x.setT r b).asid = x.asid := rfl
@[simp] theorem setT_partid (x : Ctx) (r : BitVec 3) (b : BitVec 576) : (x.setT r b).partid = x.partid := rfl
@[simp] theorem setT_loop (x : Ctx) (r : BitVec 3) (b : BitVec 576) : (x.setT r b).loop = x.loop := rfl
@[simp] theorem setT_lap (x : Ctx) (r : BitVec 3) (b : BitVec 576) : (x.setT r b).lap = x.lap := rfl
@[simp] theorem setT_groups (x : Ctx) (r : BitVec 3) (b : BitVec 576) : (x.setT r b).groups = x.groups := rfl
@[simp] theorem setT_between (x : Ctx) (r : BitVec 3) (b : BitVec 576) : (x.setT r b).between = x.between := rfl
@[simp] theorem setT_work (x : Ctx) (r : BitVec 3) (b : BitVec 576) : (x.setT r b).work = x.work := rfl
@[simp] theorem setT_batons (x : Ctx) (r : BitVec 3) (b : BitVec 576) : (x.setT r b).batons = x.batons := rfl
@[simp] theorem setT_owed (x : Ctx) (r : BitVec 3) (b : BitVec 576) : (x.setT r b).owed = x.owed := rfl
@[simp] theorem setT_reserve (x : Ctx) (r : BitVec 3) (b : BitVec 576) : (x.setT r b).reserve = x.reserve := rfl
@[simp] theorem setT_streams (x : Ctx) (r : BitVec 3) (b : BitVec 576) : (x.setT r b).streams = x.streams := rfl
@[simp] theorem setT_vq (x : Ctx) (r : BitVec 3) (b : BitVec 576) : (x.setT r b).vq = x.vq := rfl
@[simp] theorem setT_vx (x : Ctx) (r : BitVec 3) (b : BitVec 576) : (x.setT r b).vx = x.vx := rfl
@[simp] theorem setT_held (x : Ctx) (r : BitVec 3) (b : BitVec 576) : (x.setT r b).held = x.held := rfl
@[simp] theorem setT_park (x : Ctx) (r : BitVec 3) (b : BitVec 576) : (x.setT r b).park = x.park := rfl
@[simp] theorem setT_watched (x : Ctx) (r : BitVec 3) (b : BitVec 576) : (x.setT r b).watched = x.watched := rfl
@[simp] theorem setT_marks (x : Ctx) (r : BitVec 3) (b : BitVec 576) : (x.setT r b).marks = x.marks := rfl
@[simp] theorem setT_pass (x : Ctx) (r : BitVec 3) (b : BitVec 576) : (x.setT r b).pass = x.pass := rfl
@[simp] theorem setT_pend (x : Ctx) (r : BitVec 3) (b : BitVec 576) : (x.setT r b).pend = x.pend := rfl
@[simp] theorem setT_waits (x : Ctx) (r : BitVec 3) (b : BitVec 576) : (x.setT r b).waits = x.waits := rfl
@[simp] theorem setT_fwait (x : Ctx) (r : BitVec 3) (b : BitVec 576) : (x.setT r b).fwait = x.fwait := rfl
@[simp] theorem setT_waitsData (x : Ctx) (r : BitVec 3) (b : BitVec 576) : (x.setT r b).waitsData = x.waitsData := rfl
@[simp] theorem setT_dumping (x : Ctx) (r : BitVec 3) (b : BitVec 576) : (x.setT r b).dumping = x.dumping := rfl
@[simp] theorem setT_readBack (x : Ctx) (r : BitVec 3) (b : BitVec 576) : (x.setT r b).readBack = x.readBack := rfl
@[simp] theorem setT_domWait (x : Ctx) (r : BitVec 3) (b : BitVec 576) : (x.setT r b).domWait = x.domWait := rfl
@[simp] theorem setT_domGot (x : Ctx) (r : BitVec 3) (b : BitVec 576) : (x.setT r b).domGot = x.domGot := rfl
@[simp] theorem setT_stopping (x : Ctx) (r : BitVec 3) (b : BitVec 576) : (x.setT r b).stopping = x.stopping := rfl
@[simp] theorem setT_halting (x : Ctx) (r : BitVec 3) (b : BitVec 576) : (x.setT r b).halting = x.halting := rfl
@[simp] theorem setT_passed (x : Ctx) (r : BitVec 3) (b : BitVec 576) : (x.setT r b).passed = x.passed := rfl
@[simp] theorem setT_yielding (x : Ctx) (r : BitVec 3) (b : BitVec 576) : (x.setT r b).yielding = x.yielding := rfl
@[simp] theorem setT_inHandler (x : Ctx) (r : BitVec 3) (b : BitVec 576) : (x.setT r b).inHandler = x.inHandler := rfl
@[simp] theorem setT_stepOver (x : Ctx) (r : BitVec 3) (b : BitVec 576) : (x.setT r b).stepOver = x.stepOver := rfl
@[simp] theorem setT_dbgStep (x : Ctx) (r : BitVec 3) (b : BitVec 576) : (x.setT r b).dbgStep = x.dbgStep := rfl
@[simp] theorem setT_stopReq (x : Ctx) (r : BitVec 3) (b : BitVec 576) : (x.setT r b).stopReq = x.stopReq := rfl
@[simp] theorem setT_wps (x : Ctx) (r : BitVec 3) (b : BitVec 576) : (x.setT r b).wps = x.wps := rfl
@[simp] theorem setT_pair (x : Ctx) (r : BitVec 3) (b : BitVec 576) : (x.setT r b).pair = x.pair := rfl
@[simp] theorem setT_occ (x : Ctx) (r : BitVec 3) (b : BitVec 576) : (x.setT r b).occ = x.occ := rfl
@[simp] theorem setT_since (x : Ctx) (r : BitVec 3) (b : BitVec 576) : (x.setT r b).since = x.since := rfl
@[simp] theorem setT_stops (x : Ctx) (r : BitVec 3) (b : BitVec 576) : (x.setT r b).stops = x.stops := rfl
@[simp] theorem setH_csr (x : Ctx) (r : BitVec 4) (b : Word) : (x.setH r b).csr = x.csr := rfl
@[simp] theorem setH_pc (x : Ctx) (r : BitVec 4) (b : Word) : (x.setH r b).pc = x.pc := rfl
@[simp] theorem setH_level (x : Ctx) (r : BitVec 4) (b : Word) : (x.setH r b).level = x.level := rfl
@[simp] theorem setH_secure (x : Ctx) (r : BitVec 4) (b : Word) : (x.setH r b).secure = x.secure := rfl
@[simp] theorem setH_trapK (x : Ctx) (r : BitVec 4) (b : Word) : (x.setH r b).trapK = x.trapK := rfl
@[simp] theorem setH_trapH (x : Ctx) (r : BitVec 4) (b : Word) : (x.setH r b).trapH = x.trapH := rfl
@[simp] theorem setH_trapM (x : Ctx) (r : BitVec 4) (b : Word) : (x.setH r b).trapM = x.trapM := rfl
@[simp] theorem setH_asid (x : Ctx) (r : BitVec 4) (b : Word) : (x.setH r b).asid = x.asid := rfl
@[simp] theorem setH_partid (x : Ctx) (r : BitVec 4) (b : Word) : (x.setH r b).partid = x.partid := rfl
@[simp] theorem setH_loop (x : Ctx) (r : BitVec 4) (b : Word) : (x.setH r b).loop = x.loop := rfl
@[simp] theorem setH_lap (x : Ctx) (r : BitVec 4) (b : Word) : (x.setH r b).lap = x.lap := rfl
@[simp] theorem setH_groups (x : Ctx) (r : BitVec 4) (b : Word) : (x.setH r b).groups = x.groups := rfl
@[simp] theorem setH_between (x : Ctx) (r : BitVec 4) (b : Word) : (x.setH r b).between = x.between := rfl
@[simp] theorem setH_work (x : Ctx) (r : BitVec 4) (b : Word) : (x.setH r b).work = x.work := rfl
@[simp] theorem setH_batons (x : Ctx) (r : BitVec 4) (b : Word) : (x.setH r b).batons = x.batons := rfl
@[simp] theorem setH_owed (x : Ctx) (r : BitVec 4) (b : Word) : (x.setH r b).owed = x.owed := rfl
@[simp] theorem setH_reserve (x : Ctx) (r : BitVec 4) (b : Word) : (x.setH r b).reserve = x.reserve := rfl
@[simp] theorem setH_streams (x : Ctx) (r : BitVec 4) (b : Word) : (x.setH r b).streams = x.streams := rfl
@[simp] theorem setH_vq (x : Ctx) (r : BitVec 4) (b : Word) : (x.setH r b).vq = x.vq := rfl
@[simp] theorem setH_vx (x : Ctx) (r : BitVec 4) (b : Word) : (x.setH r b).vx = x.vx := rfl
@[simp] theorem setH_held (x : Ctx) (r : BitVec 4) (b : Word) : (x.setH r b).held = x.held := rfl
@[simp] theorem setH_park (x : Ctx) (r : BitVec 4) (b : Word) : (x.setH r b).park = x.park := rfl
@[simp] theorem setH_watched (x : Ctx) (r : BitVec 4) (b : Word) : (x.setH r b).watched = x.watched := rfl
@[simp] theorem setH_marks (x : Ctx) (r : BitVec 4) (b : Word) : (x.setH r b).marks = x.marks := rfl
@[simp] theorem setH_pass (x : Ctx) (r : BitVec 4) (b : Word) : (x.setH r b).pass = x.pass := rfl
@[simp] theorem setH_pend (x : Ctx) (r : BitVec 4) (b : Word) : (x.setH r b).pend = x.pend := rfl
@[simp] theorem setH_waits (x : Ctx) (r : BitVec 4) (b : Word) : (x.setH r b).waits = x.waits := rfl
@[simp] theorem setH_fwait (x : Ctx) (r : BitVec 4) (b : Word) : (x.setH r b).fwait = x.fwait := rfl
@[simp] theorem setH_waitsData (x : Ctx) (r : BitVec 4) (b : Word) : (x.setH r b).waitsData = x.waitsData := rfl
@[simp] theorem setH_dumping (x : Ctx) (r : BitVec 4) (b : Word) : (x.setH r b).dumping = x.dumping := rfl
@[simp] theorem setH_readBack (x : Ctx) (r : BitVec 4) (b : Word) : (x.setH r b).readBack = x.readBack := rfl
@[simp] theorem setH_domWait (x : Ctx) (r : BitVec 4) (b : Word) : (x.setH r b).domWait = x.domWait := rfl
@[simp] theorem setH_domGot (x : Ctx) (r : BitVec 4) (b : Word) : (x.setH r b).domGot = x.domGot := rfl
@[simp] theorem setH_stopping (x : Ctx) (r : BitVec 4) (b : Word) : (x.setH r b).stopping = x.stopping := rfl
@[simp] theorem setH_halting (x : Ctx) (r : BitVec 4) (b : Word) : (x.setH r b).halting = x.halting := rfl
@[simp] theorem setH_passed (x : Ctx) (r : BitVec 4) (b : Word) : (x.setH r b).passed = x.passed := rfl
@[simp] theorem setH_yielding (x : Ctx) (r : BitVec 4) (b : Word) : (x.setH r b).yielding = x.yielding := rfl
@[simp] theorem setH_inHandler (x : Ctx) (r : BitVec 4) (b : Word) : (x.setH r b).inHandler = x.inHandler := rfl
@[simp] theorem setH_stepOver (x : Ctx) (r : BitVec 4) (b : Word) : (x.setH r b).stepOver = x.stepOver := rfl
@[simp] theorem setH_dbgStep (x : Ctx) (r : BitVec 4) (b : Word) : (x.setH r b).dbgStep = x.dbgStep := rfl
@[simp] theorem setH_stopReq (x : Ctx) (r : BitVec 4) (b : Word) : (x.setH r b).stopReq = x.stopReq := rfl
@[simp] theorem setH_wps (x : Ctx) (r : BitVec 4) (b : Word) : (x.setH r b).wps = x.wps := rfl
@[simp] theorem setH_pair (x : Ctx) (r : BitVec 4) (b : Word) : (x.setH r b).pair = x.pair := rfl
@[simp] theorem setH_occ (x : Ctx) (r : BitVec 4) (b : Word) : (x.setH r b).occ = x.occ := rfl
@[simp] theorem setH_since (x : Ctx) (r : BitVec 4) (b : Word) : (x.setH r b).since = x.since := rfl
@[simp] theorem setH_stops (x : Ctx) (r : BitVec 4) (b : Word) : (x.setH r b).stops = x.stops := rfl
@[simp] theorem setTag_csr (x : Ctx) (r : Nat) (b : BitVec 5) : (x.setTag r b).csr = x.csr := rfl
@[simp] theorem setTag_pc (x : Ctx) (r : Nat) (b : BitVec 5) : (x.setTag r b).pc = x.pc := rfl
@[simp] theorem setTag_level (x : Ctx) (r : Nat) (b : BitVec 5) : (x.setTag r b).level = x.level := rfl
@[simp] theorem setTag_secure (x : Ctx) (r : Nat) (b : BitVec 5) : (x.setTag r b).secure = x.secure := rfl
@[simp] theorem setTag_trapK (x : Ctx) (r : Nat) (b : BitVec 5) : (x.setTag r b).trapK = x.trapK := rfl
@[simp] theorem setTag_trapH (x : Ctx) (r : Nat) (b : BitVec 5) : (x.setTag r b).trapH = x.trapH := rfl
@[simp] theorem setTag_trapM (x : Ctx) (r : Nat) (b : BitVec 5) : (x.setTag r b).trapM = x.trapM := rfl
@[simp] theorem setTag_asid (x : Ctx) (r : Nat) (b : BitVec 5) : (x.setTag r b).asid = x.asid := rfl
@[simp] theorem setTag_partid (x : Ctx) (r : Nat) (b : BitVec 5) : (x.setTag r b).partid = x.partid := rfl
@[simp] theorem setTag_loop (x : Ctx) (r : Nat) (b : BitVec 5) : (x.setTag r b).loop = x.loop := rfl
@[simp] theorem setTag_lap (x : Ctx) (r : Nat) (b : BitVec 5) : (x.setTag r b).lap = x.lap := rfl
@[simp] theorem setTag_groups (x : Ctx) (r : Nat) (b : BitVec 5) : (x.setTag r b).groups = x.groups := rfl
@[simp] theorem setTag_between (x : Ctx) (r : Nat) (b : BitVec 5) : (x.setTag r b).between = x.between := rfl
@[simp] theorem setTag_work (x : Ctx) (r : Nat) (b : BitVec 5) : (x.setTag r b).work = x.work := rfl
@[simp] theorem setTag_batons (x : Ctx) (r : Nat) (b : BitVec 5) : (x.setTag r b).batons = x.batons := rfl
@[simp] theorem setTag_owed (x : Ctx) (r : Nat) (b : BitVec 5) : (x.setTag r b).owed = x.owed := rfl
@[simp] theorem setTag_reserve (x : Ctx) (r : Nat) (b : BitVec 5) : (x.setTag r b).reserve = x.reserve := rfl
@[simp] theorem setTag_streams (x : Ctx) (r : Nat) (b : BitVec 5) : (x.setTag r b).streams = x.streams := rfl
@[simp] theorem setTag_vq (x : Ctx) (r : Nat) (b : BitVec 5) : (x.setTag r b).vq = x.vq := rfl
@[simp] theorem setTag_vx (x : Ctx) (r : Nat) (b : BitVec 5) : (x.setTag r b).vx = x.vx := rfl
@[simp] theorem setTag_held (x : Ctx) (r : Nat) (b : BitVec 5) : (x.setTag r b).held = x.held := rfl
@[simp] theorem setTag_park (x : Ctx) (r : Nat) (b : BitVec 5) : (x.setTag r b).park = x.park := rfl
@[simp] theorem setTag_watched (x : Ctx) (r : Nat) (b : BitVec 5) : (x.setTag r b).watched = x.watched := rfl
@[simp] theorem setTag_marks (x : Ctx) (r : Nat) (b : BitVec 5) : (x.setTag r b).marks = x.marks := rfl
@[simp] theorem setTag_pass (x : Ctx) (r : Nat) (b : BitVec 5) : (x.setTag r b).pass = x.pass := rfl
@[simp] theorem setTag_pend (x : Ctx) (r : Nat) (b : BitVec 5) : (x.setTag r b).pend = x.pend := rfl
@[simp] theorem setTag_waits (x : Ctx) (r : Nat) (b : BitVec 5) : (x.setTag r b).waits = x.waits := rfl
@[simp] theorem setTag_fwait (x : Ctx) (r : Nat) (b : BitVec 5) : (x.setTag r b).fwait = x.fwait := rfl
@[simp] theorem setTag_waitsData (x : Ctx) (r : Nat) (b : BitVec 5) : (x.setTag r b).waitsData = x.waitsData := rfl
@[simp] theorem setTag_dumping (x : Ctx) (r : Nat) (b : BitVec 5) : (x.setTag r b).dumping = x.dumping := rfl
@[simp] theorem setTag_readBack (x : Ctx) (r : Nat) (b : BitVec 5) : (x.setTag r b).readBack = x.readBack := rfl
@[simp] theorem setTag_domWait (x : Ctx) (r : Nat) (b : BitVec 5) : (x.setTag r b).domWait = x.domWait := rfl
@[simp] theorem setTag_domGot (x : Ctx) (r : Nat) (b : BitVec 5) : (x.setTag r b).domGot = x.domGot := rfl
@[simp] theorem setTag_stopping (x : Ctx) (r : Nat) (b : BitVec 5) : (x.setTag r b).stopping = x.stopping := rfl
@[simp] theorem setTag_halting (x : Ctx) (r : Nat) (b : BitVec 5) : (x.setTag r b).halting = x.halting := rfl
@[simp] theorem setTag_passed (x : Ctx) (r : Nat) (b : BitVec 5) : (x.setTag r b).passed = x.passed := rfl
@[simp] theorem setTag_yielding (x : Ctx) (r : Nat) (b : BitVec 5) : (x.setTag r b).yielding = x.yielding := rfl
@[simp] theorem setTag_inHandler (x : Ctx) (r : Nat) (b : BitVec 5) : (x.setTag r b).inHandler = x.inHandler := rfl
@[simp] theorem setTag_stepOver (x : Ctx) (r : Nat) (b : BitVec 5) : (x.setTag r b).stepOver = x.stepOver := rfl
@[simp] theorem setTag_dbgStep (x : Ctx) (r : Nat) (b : BitVec 5) : (x.setTag r b).dbgStep = x.dbgStep := rfl
@[simp] theorem setTag_stopReq (x : Ctx) (r : Nat) (b : BitVec 5) : (x.setTag r b).stopReq = x.stopReq := rfl
@[simp] theorem setTag_wps (x : Ctx) (r : Nat) (b : BitVec 5) : (x.setTag r b).wps = x.wps := rfl
@[simp] theorem setTag_pair (x : Ctx) (r : Nat) (b : BitVec 5) : (x.setTag r b).pair = x.pair := rfl
@[simp] theorem setTag_occ (x : Ctx) (r : Nat) (b : BitVec 5) : (x.setTag r b).occ = x.occ := rfl
@[simp] theorem setTag_since (x : Ctx) (r : Nat) (b : BitVec 5) : (x.setTag r b).since = x.since := rfl
@[simp] theorem setTag_stops (x : Ctx) (r : Nat) (b : BitVec 5) : (x.setTag r b).stops = x.stops := rfl
@[simp] theorem advance_regs (x : Ctx) : x.advance.regs = x.regs := rfl
@[simp] theorem jump_regs (x : Ctx) (t : Word) : (x.jump t).regs = x.regs := rfl
@[simp] theorem advance_level (x : Ctx) : x.advance.level = x.level := rfl
@[simp] theorem jump_level (x : Ctx) (t : Word) : (x.jump t).level = x.level := rfl
@[simp] theorem advance_secure (x : Ctx) : x.advance.secure = x.secure := rfl
@[simp] theorem jump_secure (x : Ctx) (t : Word) : (x.jump t).secure = x.secure := rfl
@[simp] theorem advance_trapK (x : Ctx) : x.advance.trapK = x.trapK := rfl
@[simp] theorem jump_trapK (x : Ctx) (t : Word) : (x.jump t).trapK = x.trapK := rfl
@[simp] theorem advance_trapH (x : Ctx) : x.advance.trapH = x.trapH := rfl
@[simp] theorem jump_trapH (x : Ctx) (t : Word) : (x.jump t).trapH = x.trapH := rfl
@[simp] theorem advance_trapM (x : Ctx) : x.advance.trapM = x.trapM := rfl
@[simp] theorem jump_trapM (x : Ctx) (t : Word) : (x.jump t).trapM = x.trapM := rfl
@[simp] theorem advance_asid (x : Ctx) : x.advance.asid = x.asid := rfl
@[simp] theorem jump_asid (x : Ctx) (t : Word) : (x.jump t).asid = x.asid := rfl
@[simp] theorem advance_partid (x : Ctx) : x.advance.partid = x.partid := rfl
@[simp] theorem jump_partid (x : Ctx) (t : Word) : (x.jump t).partid = x.partid := rfl
@[simp] theorem advance_loop (x : Ctx) : x.advance.loop = x.loop := rfl
@[simp] theorem jump_loop (x : Ctx) (t : Word) : (x.jump t).loop = x.loop := rfl
@[simp] theorem advance_lap (x : Ctx) : x.advance.lap = x.lap := rfl
@[simp] theorem jump_lap (x : Ctx) (t : Word) : (x.jump t).lap = x.lap := rfl
@[simp] theorem advance_groups (x : Ctx) : x.advance.groups = x.groups := rfl
@[simp] theorem jump_groups (x : Ctx) (t : Word) : (x.jump t).groups = x.groups := rfl
@[simp] theorem advance_between (x : Ctx) : x.advance.between = x.between := rfl
@[simp] theorem jump_between (x : Ctx) (t : Word) : (x.jump t).between = x.between := rfl
@[simp] theorem advance_work (x : Ctx) : x.advance.work = x.work := rfl
@[simp] theorem jump_work (x : Ctx) (t : Word) : (x.jump t).work = x.work := rfl
@[simp] theorem advance_batons (x : Ctx) : x.advance.batons = x.batons := rfl
@[simp] theorem jump_batons (x : Ctx) (t : Word) : (x.jump t).batons = x.batons := rfl
@[simp] theorem advance_owed (x : Ctx) : x.advance.owed = x.owed := rfl
@[simp] theorem jump_owed (x : Ctx) (t : Word) : (x.jump t).owed = x.owed := rfl
@[simp] theorem advance_reserve (x : Ctx) : x.advance.reserve = x.reserve := rfl
@[simp] theorem jump_reserve (x : Ctx) (t : Word) : (x.jump t).reserve = x.reserve := rfl
@[simp] theorem advance_streams (x : Ctx) : x.advance.streams = x.streams := rfl
@[simp] theorem jump_streams (x : Ctx) (t : Word) : (x.jump t).streams = x.streams := rfl
@[simp] theorem advance_vq (x : Ctx) : x.advance.vq = x.vq := rfl
@[simp] theorem jump_vq (x : Ctx) (t : Word) : (x.jump t).vq = x.vq := rfl
@[simp] theorem advance_vx (x : Ctx) : x.advance.vx = x.vx := rfl
@[simp] theorem jump_vx (x : Ctx) (t : Word) : (x.jump t).vx = x.vx := rfl
@[simp] theorem advance_held (x : Ctx) : x.advance.held = x.held := rfl
@[simp] theorem jump_held (x : Ctx) (t : Word) : (x.jump t).held = x.held := rfl
@[simp] theorem advance_park (x : Ctx) : x.advance.park = x.park := rfl
@[simp] theorem jump_park (x : Ctx) (t : Word) : (x.jump t).park = x.park := rfl
@[simp] theorem advance_watched (x : Ctx) : x.advance.watched = x.watched := rfl
@[simp] theorem jump_watched (x : Ctx) (t : Word) : (x.jump t).watched = x.watched := rfl
@[simp] theorem advance_marks (x : Ctx) : x.advance.marks = x.marks := rfl
@[simp] theorem jump_marks (x : Ctx) (t : Word) : (x.jump t).marks = x.marks := rfl
@[simp] theorem advance_pass (x : Ctx) : x.advance.pass = x.pass := rfl
@[simp] theorem jump_pass (x : Ctx) (t : Word) : (x.jump t).pass = x.pass := rfl
@[simp] theorem advance_pend (x : Ctx) : x.advance.pend = x.pend := rfl
@[simp] theorem jump_pend (x : Ctx) (t : Word) : (x.jump t).pend = x.pend := rfl
@[simp] theorem advance_waits (x : Ctx) : x.advance.waits = x.waits := rfl
@[simp] theorem jump_waits (x : Ctx) (t : Word) : (x.jump t).waits = x.waits := rfl
@[simp] theorem advance_fwait (x : Ctx) : x.advance.fwait = x.fwait := rfl
@[simp] theorem jump_fwait (x : Ctx) (t : Word) : (x.jump t).fwait = x.fwait := rfl
@[simp] theorem advance_waitsData (x : Ctx) : x.advance.waitsData = x.waitsData := rfl
@[simp] theorem jump_waitsData (x : Ctx) (t : Word) : (x.jump t).waitsData = x.waitsData := rfl
@[simp] theorem advance_dumping (x : Ctx) : x.advance.dumping = x.dumping := rfl
@[simp] theorem jump_dumping (x : Ctx) (t : Word) : (x.jump t).dumping = x.dumping := rfl
@[simp] theorem advance_readBack (x : Ctx) : x.advance.readBack = x.readBack := rfl
@[simp] theorem jump_readBack (x : Ctx) (t : Word) : (x.jump t).readBack = x.readBack := rfl
@[simp] theorem advance_domWait (x : Ctx) : x.advance.domWait = x.domWait := rfl
@[simp] theorem jump_domWait (x : Ctx) (t : Word) : (x.jump t).domWait = x.domWait := rfl
@[simp] theorem advance_domGot (x : Ctx) : x.advance.domGot = x.domGot := rfl
@[simp] theorem jump_domGot (x : Ctx) (t : Word) : (x.jump t).domGot = x.domGot := rfl
@[simp] theorem advance_stopping (x : Ctx) : x.advance.stopping = x.stopping := rfl
@[simp] theorem jump_stopping (x : Ctx) (t : Word) : (x.jump t).stopping = x.stopping := rfl
@[simp] theorem advance_halting (x : Ctx) : x.advance.halting = x.halting := rfl
@[simp] theorem jump_halting (x : Ctx) (t : Word) : (x.jump t).halting = x.halting := rfl
@[simp] theorem advance_passed (x : Ctx) : x.advance.passed = x.passed := rfl
@[simp] theorem jump_passed (x : Ctx) (t : Word) : (x.jump t).passed = x.passed := rfl
@[simp] theorem advance_yielding (x : Ctx) : x.advance.yielding = x.yielding := rfl
@[simp] theorem jump_yielding (x : Ctx) (t : Word) : (x.jump t).yielding = x.yielding := rfl
@[simp] theorem advance_inHandler (x : Ctx) : x.advance.inHandler = x.inHandler := rfl
@[simp] theorem jump_inHandler (x : Ctx) (t : Word) : (x.jump t).inHandler = x.inHandler := rfl
@[simp] theorem advance_stepOver (x : Ctx) : x.advance.stepOver = x.stepOver := rfl
@[simp] theorem jump_stepOver (x : Ctx) (t : Word) : (x.jump t).stepOver = x.stepOver := rfl
@[simp] theorem advance_dbgStep (x : Ctx) : x.advance.dbgStep = x.dbgStep := rfl
@[simp] theorem jump_dbgStep (x : Ctx) (t : Word) : (x.jump t).dbgStep = x.dbgStep := rfl
@[simp] theorem advance_stopReq (x : Ctx) : x.advance.stopReq = x.stopReq := rfl
@[simp] theorem jump_stopReq (x : Ctx) (t : Word) : (x.jump t).stopReq = x.stopReq := rfl
@[simp] theorem advance_wps (x : Ctx) : x.advance.wps = x.wps := rfl
@[simp] theorem jump_wps (x : Ctx) (t : Word) : (x.jump t).wps = x.wps := rfl
@[simp] theorem advance_pair (x : Ctx) : x.advance.pair = x.pair := rfl
@[simp] theorem jump_pair (x : Ctx) (t : Word) : (x.jump t).pair = x.pair := rfl
@[simp] theorem advance_occ (x : Ctx) : x.advance.occ = x.occ := rfl
@[simp] theorem jump_occ (x : Ctx) (t : Word) : (x.jump t).occ = x.occ := rfl
@[simp] theorem advance_since (x : Ctx) : x.advance.since = x.since := rfl
@[simp] theorem jump_since (x : Ctx) (t : Word) : (x.jump t).since = x.since := rfl
@[simp] theorem advance_stops (x : Ctx) : x.advance.stops = x.stops := rfl
@[simp] theorem jump_stops (x : Ctx) (t : Word) : (x.jump t).stops = x.stops := rfl
@[simp] theorem advance_pc (x : Ctx) : x.advance.pc = x.pc + 4 := rfl
@[simp] theorem jump_pc (x : Ctx) (t : Word) : (x.jump t).pc = t := rfl
@[simp] theorem advance_retired (x : Ctx) : x.advance.csr.retired = x.csr.retired + 1 := rfl
@[simp] theorem jump_retired (x : Ctx) (t : Word) : (x.jump t).csr.retired = x.csr.retired + 1 := rfl

@[simp] theorem setX_regs_v (x : Ctx) (r : XReg) (w : Word) : (x.setX r w).regs.v = x.regs.v := by unfold Ctx.setX; split <;> rfl
@[simp] theorem setX_regs_m (x : Ctx) (r : XReg) (w : Word) : (x.setX r w).regs.m = x.regs.m := by unfold Ctx.setX; split <;> rfl
@[simp] theorem setX_regs_c (x : Ctx) (r : XReg) (w : Word) : (x.setX r w).regs.c = x.regs.c := by unfold Ctx.setX; split <;> rfl
@[simp] theorem setX_regs_t (x : Ctx) (r : XReg) (w : Word) : (x.setX r w).regs.t = x.regs.t := by unfold Ctx.setX; split <;> rfl
@[simp] theorem setX_regs_h (x : Ctx) (r : XReg) (w : Word) : (x.setX r w).regs.h = x.regs.h := by unfold Ctx.setX; split <;> rfl
@[simp] theorem setX_regs_hb (x : Ctx) (r : XReg) (w : Word) : (x.setX r w).regs.hb = x.regs.hb := by unfold Ctx.setX; split <;> rfl
@[simp] theorem setX_regs_tag (x : Ctx) (r : XReg) (w : Word) : (x.setX r w).regs.tag = x.regs.tag := by unfold Ctx.setX; split <;> rfl

/-- x0 reads zero (R34). -/
@[simp] theorem x_zero (x : Ctx) : x.x 0 = 0 := rfl
/-- A write to x0 is ignored (R34). -/
@[simp] theorem setX_zero (x : Ctx) (v : Word) : x.setX 0 v = x := rfl
/-- A vector register reads as it was written last. -/
theorem v_setV (x : Ctx) (r q : Nat) (b : VReg) : (x.setV r b).v q = if q = r then b else x.v q := get_set _ _ r q b
/-- A mask register reads as it was written last. -/
theorem m_setM (x : Ctx) (r q : Nat) (b : VReg) : (x.setM r b).m q = if q = r then b else x.m q := get_set _ _ r q b
/-- A tag reads as it was written last. -/
theorem tag_setTag (x : Ctx) (r q : Nat) (b : BitVec 5) : (x.setTag r b).tag q = if q = r then b else x.tag q :=
  get_set _ _ r q b

end Sys2Proof.Machine
end

