-- ==== Sys2Proof/Laws/Ops.lean ====
section
/-! SUPPORT. What the shared operations do at a plain program point, each once. -/

namespace Sys2Proof.Machine

open Sys2Proof.Safety

/-! Going on -/

/-- A scalar result goes to its register and the front to the next word. -/
theorem writeX_eq (s : State) (d : XReg) (v : Word) : writeX s d v = withMe s (wentOn ((me s).setX d v)) := rfl

theorem goOn_eq (s : State) : goOn s = withMe s (wentOn (me s)) := rfl

theorem onCtx_eq (s : State) (c : Nat) (f : Ctx → Ctx) : onCtx s c f = setCtx s c (f (ctxAt s c)) := rfl

theorem put_put {α : Type} (m : SMap α) (k : Nat) (v w : α) : put (put m k v) k w = put m k w := by
  induction m with
  | nil => simp [put]
  | cons e r ih =>
    obtain ⟨j, u⟩ := e
    simp only [put]
    split
    · simp [put]
    · split
      · simp [put]
      · rename_i h1 h2
        simp only [put, h1, h2, if_false, ih]

/-- Two updates of one context are one. -/
theorem setCtx_setCtx (s : State) (c : Nat) (x y : Ctx) : setCtx (setCtx s c x) c y = setCtx s c y := by
  simp only [setCtx, put_put]

/-! Taking an exception -/

/-- A step-over's end is a bit of a trap's status word. -/
theorem endStep_frame (x : Ctx) : ∃ k h m, x.endStep = { x with trapK := k, trapH := h, trapM := m, stepOver := none } := by
  unfold Ctx.endStep Ctx.setTrap
  split
  · rename_i e; exact ⟨x.trapK, x.trapH, x.trapM, by cases x; cases e; rfl⟩
  · dsimp only; split <;> exact ⟨_, _, _, rfl⟩

/-- A plain context has nothing to settle but a step-over and the notes of its waits. -/
theorem settle_plain (s : State) (c : Nat) (h : plain (ctxAt s c)) :
    settle s c = setCtx s c { (ctxAt s c).endStep with
      waitsData := false, dumping := false, readBack := [], domWait := remove (ctxAt s c).domWait 1, domGot := remove (ctxAt s c).domGot 1 } := by
  obtain ⟨-, -, -, h4, h5, h6, -⟩ := h
  obtain ⟨k, hh, m, he⟩ := endStep_frame (ctxAt s c)
  have hu : unpark s c = setCtx s c (ctxAt s c) := by
    unfold unpark; rw [h6]; simp only [onCtx_eq]; rw [← h6]
  have hd (t : State) (ht : (ctxAt t c).streams = []) : drainEach t c (boundRegs (ctxAt t c)) = t := by
    rw [boundRegs, ht]; rfl
  unfold settle
  refine (hd _ ?_).trans ?_
  · simp only [hu, onCtx_eq, ctxAt_setCtx_same, h6, he, Ctx.unrun, h5, h4]
  · simp only [hu, onCtx_eq, ctxAt_setCtx_same, setCtx_setCtx, h6, he, Ctx.unrun, h5]

/-- The level of a stop (R136). -/
theorem stopLevel_eq (x : Ctx) (call : Bool) : stopLevel x call = handlingLevel x call := by
  unfold stopLevel handlingLevel
  cases x.secure <;> cases x.level <;> cases call <;> rfl

/-- A context without streams has asked nothing for them. -/
theorem forget_plain (x : Ctx) (ok : Nat → Bool) (h : x.streams = []) : x.forget ok = x := by
  unfold Ctx.forget
  have ht {α : Type} (m : List α) : m.filter (fun _ => true) = m := List.filter_eq_self.2 (fun _ _ => rfl)
  simp only [h, find?, Bool.and_false, Bool.not_false, ht]
  rw [← h]

/-- A dump of no entries waits for nothing. -/
@[simp] theorem dumpBusy_zero (s : State) (c : Nat) (l : Level) (a : Nat) : dumpBusy s c l a 0 = false := by
  unfold dumpBusy; exact Bool.and_false _

/-- The status word of a stop with nothing queued (R137). -/
theorem statWord_zero (x : Ctx) : statWord x 0 =
    BitVec.ofNat 64 (x.level.num + (if x.loop.active then 2 ^ 5 else 0) + (if x.lap.rewindable then 2 ^ 6 else 0)) := by
  unfold statWord
  cases x.loop.active <;> cases x.lap.rewindable <;> simp <;> congr 1 <;> omega

/-- The cause word of a fault of the front (R137). -/
theorem causeWord_front (code : Nat) (val : Word) (call : Bool) (slot : Option Nat) :
    causeWord { unit := false, code := code, val := val, call := call, slot := slot } =
      BitVec.ofNat 64 (code + if call then 2 ^ 10 else 0) := by
  unfold causeWord
  cases call <;> simp [Nat.add_comm]

/-- Hits of comparators change no context and no byte, and nothing by which a context is traced (R349). -/
theorem noteHits_spec (s : State) (c kind : Nat) (ok : Word → Word → Bool) :
    (noteHits s c kind ok).mem = s.mem ∧ (∀ k, ctxAt (noteHits s c kind ok) k = ctxAt s k) ∧
      (noteHits s c kind ok).pkg = s.pkg ∧ ∀ k, traced (noteHits s c kind ok) k = traced s k := by
  unfold noteHits
  split
  · exact ⟨rfl, fun _ => rfl, rfl, fun _ => rfl⟩
  · dsimp only
    split
    · exact ⟨rfl, fun _ => rfl, rfl, fun _ => rfl⟩
    · refine ⟨rfl, fun _ => rfl, rfl, fun k => ?_⟩
      unfold traced
      rw [cluAt_onClu]
      by_cases h : cluOf k = cluOf c
      · rw [if_pos h, h]; rfl
      · rw [if_neg h]; rfl

/-- The context after a fault that nothing queued precedes: the trap CSRs of its handling level, its level, its pc and the marks of a
handler (R135–R138). -/
def trapped (y : Ctx) (code : Nat) (val : Word) (call : Bool) : Ctx :=
  let x := y.endStep
  let l := handlingLevel x call
  let tr := x.trap l
  { x.setTrap l { tr with
      cause := BitVec.ofNat 64 (code + if call then 2 ^ 10 else 0), val := val, pc := x.pc, cp := x.pc
      es := BitVec.ofNat 15 x.csr.es
      stat := BitVec.ofNat 64 (x.level.num + (if x.loop.active then 2 ^ 5 else 0) + (if x.lap.rewindable then 2 ^ 6 else 0)) } with
    level := l, pc := tr.vec, inHandler := true, waits := [], waitsData := false, dumping := false, readBack := [],
    domWait := remove x.domWait 1, domGot := remove x.domGot 1, stopping := none, stops := x.stops + 1 }

/-- Taking a fault of the front at a plain point of a context that is not traced. -/
theorem takeStop_plain (s : State) (c code : Nat) (val : Word) (call : Bool) (h : plain (ctxAt s c)) (ht : traced s c = false) :
    (takeStop s c (some { unit := false, code := code, val := val, call := call, slot := none })).mem = s.mem ∧
    (∀ k, k ≠ c → ctxAt (takeStop s c (some { unit := false, code := code, val := val, call := call, slot := none })) k = ctxAt s k) ∧
    ctxAt (takeStop s c (some { unit := false, code := code, val := val, call := call, slot := none })) c = trapped (ctxAt s c) code val call := by
  have hs := settle_plain s c h
  obtain ⟨k, hh, m, hend⟩ := endStep_frame (ctxAt s c)
  obtain ⟨h1, h2, h3, h4, h5, h6, h7, h8⟩ := h
  generalize hx : ctxAt s c = x at *
  rw [hend] at hs
  let y : Ctx := { x with
    trapK := k, trapH := hh, trapM := m, stepOver := none, waitsData := false, dumping := false, readBack := []
    domWait := remove x.domWait 1, domGot := remove x.domGot 1 }
  replace hs : settle s c = setCtx s c y := hs
  have hy : ctxAt (setCtx s c y) c = y := ctxAt_setCtx_same s c y
  have ht' : traced (setCtx s c y) c = false := by
    rw [← ht]; unfold traced mayObserve; simp only [hy, hx]; rfl
  have hp : pickDue ([({ unit := false, code := code, val := val, call := call, slot := none } : Due)] ++
      (if x.inHandler = true then [] else dueOf 0 x.pend ++ dueStreams x.streams)) =
        some { unit := false, code := code, val := val, call := call, slot := none } := by
    rw [h4, h7]; cases x.inHandler <;> rfl
  have he : takeStop s c (some { unit := false, code := code, val := val, call := call, slot := none }) =
      enterHandler (setCtx s c y) c { unit := false, code := code, val := val, call := call, slot := none } := by
    unfold takeStop
    have ht0 : x.toDump = 0 := by simp [Ctx.toDump, Ctx.runWords, h5, h2, h3]
    have hdr : drainsOn (setCtx s c y) c = false := by unfold drainsOn; rw [hy, show y.streams = [] from h4]; rfl
    simp only [hs, hx, ht0, dumpBusy_zero]
    rw [hy, if_neg (show ¬ y.occ ≠ Occ.running from fun h => h h1), hdr]
    show (match pickDue ([({ unit := false, code := code, val := val, call := call, slot := none } : Due)] ++
      (if x.inHandler = true then [] else dueOf 0 x.pend ++ dueStreams x.streams)) with
      | none => _
      | some d => enterHandler (setCtx s c y) c d) = _
    rw [hp]
  obtain ⟨n1, n2', -, n4⟩ := noteHits_spec (setCtx s c y) c 3 (fun a _ => a.toNat % 256 == code)
  have n2 : ∀ k, ctxAt (noteStop (setCtx s c y) c code) k = ctxAt (setCtx s c y) k := n2'
  have hn : addEvent (noteStop (setCtx s c y) c code) c code = noteStop (setCtx s c y) c code := by
    unfold addEvent; rw [show traced (noteStop (setCtx s c y) c code) c = false from (n4 c).trans ht']; rfl
  have hq : takeStop s c (some { unit := false, code := code, val := val, call := call, slot := none }) =
      setCtx (noteStop (setCtx s c y) c code) c (trapped x code val call) := by
    rw [he]
    have hl : stopLevel y call = handlingLevel y call := stopLevel_eq y call
    have hc : y.commitPc = x.pc := by simp [Ctx.commitPc, Ctx.runWords, y, h2, h3, h5]
    have hz (f : Flags) : f ||| 0 = f := by simp
    have hb : startLap (setCtx s c y) c = setCtx s c y := by unfold startLap; rw [hy, if_neg (by simp [y, h8])]
    unfold enterHandler finishStop
    simp only [hb, hy, show y.vx ++ y.vq = [] by simp [y, h2, h3], List.isEmpty_nil, Bool.not_true, Bool.false_and,
      Bool.false_eq_true, if_false, writeDump, hn, onCtx_eq, n2, hy, hl, hc, returnBatons, entryFlags,
      List.length_nil, causeWord_front, statWord_zero, trapped, hend]
    congr 1
    clear hl hc hb n1 n2 n2' n4 hn he hp ht' hy hs ht hx hend
    have hl : handlingLevel y call = handlingLevel { x with trapK := k, trapH := hh, trapM := m, stepOver := none } call := rfl
    rw [hl]
    simp only [y]
    generalize handlingLevel { x with trapK := k, trapH := hh, trapM := m, stepOver := none } call = l
    cases x
    simp only at h2 h3 h4 h7
    subst h2 h3 h4 h7
    cases call <;> cases l <;> simp only [Ctx.setTrap, Ctx.trap, Ctx.discardLoads, forget_plain, mapStreams, keepPending, hz]
  rw [hq]
  exact ⟨n1, fun k hk => by rw [ctxAt_setCtx, if_neg hk, n2, ctxAt_setCtx, if_neg hk], ctxAt_setCtx_same _ _ _⟩

/-- The same, in the terms of claims: what `took` says. -/
theorem takeStop_took (s : State) (code : Nat) (val : Word) (call : Bool) (h : plain (me s)) (ht : traced s s.turn = false) :
    took s (takeStop s s.turn (some { unit := false, code := code, val := val, call := call, slot := none })) code val call :=
  let r := takeStop_plain s s.turn code val call h ht
  ⟨⟨r.1, r.2.1⟩, r.2.2⟩

/-! Accesses -/

/-- What a front may reach meets none of the conditions of R139 and waits for nothing. -/
theorem reach_ok {s : State} {c : Nat} {a : Agent} {acc : Acc} {va n w : Nat} {remote quiet : Bool} {p : Place}
    (h : reach s c a acc va n w remote quiet = .ok p) :
    va % w = 0 ∧ decide s a acc va = .ok p ∧ (quiet = true ∨ watchHit (ctxAt s c) va n = false) ∧
      jobWaits s c va n (acc == .store || acc == .atomic) = false ∧ pageBusy s p = false := by
  unfold reach at h
  dsimp only at h
  split at h
  · cases h
  · rename_i hw
    split at h
    · split at h
      · cases h
      · split at h
        · cases h
        · split at h <;> cases h
    · split at h
      · cases h
      split at h
      · cases h
      · rename_i q hq
        split at h
        · cases h
        · rename_i hh
          split at h
          · cases h
          · rename_i hj
            cases h
            refine ⟨by simpa using hw, hq, ?_, ?_, ?_⟩
            · cases quiet
              · exact .inr (by simpa using hh)
              · exact .inl rfl
            · simp only [Bool.or_eq_true, not_or, Bool.not_eq_true] at hj; exact hj.1
            · simp only [Bool.or_eq_true, not_or, Bool.not_eq_true] at hj; exact hj.2

/-- A misaligned access is denied before anything else (R139, R173). -/
theorem reach_misaligned {s : State} {c : Nat} {a : Agent} {acc : Acc} {va n w : Nat} {remote quiet : Bool} (h : va % w ≠ 0) :
    reach s c a acc va n w remote quiet = denyWith cAlign := by
  unfold reach
  exact if_pos h

/-- The note of a leaf fills a core's translation buffer only (R326). -/
theorem noteLeaf_spec (s : State) (a : Agent) (va : Nat) :
    (noteLeaf s a va).mem = s.mem ∧ (∀ k, ctxAt (noteLeaf s a va) k = ctxAt s k) ∧ (∀ k, cluAt (noteLeaf s a va) k = cluAt s k) ∧
      (∀ k, dieAt (noteLeaf s a va) k = dieAt s k) ∧ (noteLeaf s a va).pkg = s.pkg ∧ (noteLeaf s a va).turn = s.turn := by
  unfold noteLeaf
  split
  · exact ⟨rfl, fun _ => rfl, fun _ => rfl, fun _ => rfl, rfl, rfl⟩
  · split
    · exact ⟨rfl, fun _ => rfl, fun _ => rfl, fun _ => rfl, rfl, rfl⟩
    · split
      · split <;> exact ⟨rfl, fun _ => rfl, fun _ => rfl, fun _ => rfl, rfl, rfl⟩
      · exact ⟨rfl, fun _ => rfl, fun _ => rfl, fun _ => rfl, rfl, rfl⟩

/-- The charge of bytes changes a launch's account only (R272). -/
theorem charge_spec (s : State) (a : Agent) (p : Place) (n : Nat) :
    (charge s a p n).mem = s.mem ∧ (∀ k, ctxAt (charge s a p n) k = ctxAt s k) ∧ (∀ k, cluAt (charge s a p n) k = cluAt s k) ∧
      (charge s a p n).pkg = s.pkg ∧ (charge s a p n).turn = s.turn := by
  unfold charge
  split <;> exact ⟨rfl, fun _ => rfl, fun _ => rfl, rfl, rfl⟩

/-- A sector's state depends on the package alone. -/
theorem sectorState_pkg {s t : State} (h : t.pkg = s.pkg) (p : Place) : sectorState t p = sectorState s p := by
  unfold sectorState; rw [h]

theorem readFinding_pkg {s t : State} (h : t.pkg = s.pkg) (p : Place) : readFinding t p = readFinding s p := by
  unfold readFinding; rw [sectorState_pkg h]

/-- A sector that reads clean has nothing to be found by an access that reads it. -/
theorem readFinding_none {s : State} {p : Place} (h : sectorState s p = none) : readFinding s p = none := by
  unfold readFinding; rw [h]

/-- A load of a context from a clean sector, outside the device class: the bytes at the place under the context's own buffered ones,
and nothing else of the machine but accounts, notes and cached leaves (R175, R176). -/
theorem takeBytes_clean (s : State) (c elem : Nat) (a : Agent) (va : Nat) (p : Place) (n : Nat) (hd : p.dev = false)
    (hr : p.raw = false) (hs : sectorState s p = none) :
    ∃ t, takeBytes s c elem a va p n = .done t (ctxBytes s c va p n) ∧ t.mem = s.mem ∧ (∀ k, ctxAt t k = ctxAt s k) ∧ t.pkg = s.pkg ∧
      t.turn = s.turn := by
  have hn : (noteAccess s c va).turn = s.turn := by
    unfold noteAccess noteHits; split
    · rfl
    · dsimp only; split <;> rfl
  obtain ⟨a1, a2, a3, -⟩ : (noteAccess s c va).mem = s.mem ∧ _ := noteHits_spec s c 2 _
  obtain ⟨b1, b2, -, -, b5, b6⟩ := noteLeaf_spec (noteAccess s c va) a va
  obtain ⟨c1, c2, -, c4, c5⟩ := charge_spec (noteLeaf (noteAccess s c va) a va) a p n
  have hm := c1.trans (b1.trans a1)
  have hp := c4.trans (b5.trans a3)
  have hk := fun k => (c2 k).trans ((b2 k).trans (a2 k))
  refine ⟨charge (noteLeaf (noteAccess s c va) a va) a p n, ?_, hm, hk, hp, c5.trans (b6.trans hn)⟩
  unfold takeBytes beforeDevice
  simp only [hd, Bool.false_eq_true, if_false, readFinding_pkg hp, readFinding_none hs]
  simp only [ctxBytes, placeBytes, hr, Bool.false_eq_true, if_false, hk, hm]

/-- Bytes written at a place change memory, and the scales that fail their checks (R59). -/
theorem putBytes_spec (s : State) (p : Place) (bs : List Byte) : (putBytes s p bs).mem = writeBytes s.mem p.key bs ∧
    (∀ k, ctxAt (putBytes s p bs) k = ctxAt s k) ∧ (∀ k, cluAt (putBytes s p bs) k = cluAt s k) ∧
    (∃ b, (putBytes s p bs).pkg = { s.pkg with badScales := b }) ∧ (putBytes s p bs).turn = s.turn := by
  refine ⟨rfl, fun _ => rfl, fun _ => rfl, ?_, rfl⟩
  unfold putBytes
  dsimp only
  split
  · exact ⟨s.pkg.badScales, rfl⟩
  · exact ⟨_, rfl⟩

/-- Bytes stored by an agent in a clean sector (R338). -/
theorem storeAt_clean (s : State) (a : Agent) (va : Nat) (p : Place) (bs : List Byte) (hs : sectorState s p = none) :
    (storeAt s a va p bs).mem = writeBytes s.mem p.key bs ∧ (∀ k, ctxAt (storeAt s a va p bs) k = ctxAt s k) ∧
      (∀ k, cluAt (storeAt s a va p bs) k = cluAt s k) ∧ (∃ b, (storeAt s a va p bs).pkg = { s.pkg with badScales := b }) ∧
      (storeAt s a va p bs).turn = s.turn := by
  obtain ⟨c1, c2, c3, c4, c5⟩ := charge_spec s a p bs.length
  obtain ⟨p1, p2, p3, p4, p5⟩ := putBytes_spec (charge s a p bs.length) p bs
  unfold storeAt
  simp only [sectorState_pkg c4, hs]
  rw [c1] at p1
  rw [c4] at p4
  exact ⟨p1, fun k => (p2 k).trans (c2 k), fun k => (p3 k).trans (c3 k), p4, p5.trans c5⟩

/-- Bytes stored by an agent in a clean sector: whole sectors carry new tags (R338). -/
theorem storeWhole_clean (s : State) (a : Agent) (va : Nat) (p : Place) (bs : List Byte) (hs : sectorState s p = none) :
    (storeWhole s a va p bs).mem = writeBytes s.mem p.key bs ∧ (∀ k, ctxAt (storeWhole s a va p bs) k = ctxAt s k) ∧
      (∀ k, cluAt (storeWhole s a va p bs) k = cluAt s k) ∧
      (∃ b q z, (storeWhole s a va p bs).pkg = { s.pkg with badScales := b, sectors := q, seals := z }) ∧
      (storeWhole s a va p bs).turn = s.turn := by
  unfold storeWhole
  dsimp only
  split
  · obtain ⟨h1, h2, h3, ⟨b, h4⟩, h5⟩ := storeAt_clean s a va p bs hs
    exact ⟨h1, h2, h3, ⟨b, s.pkg.sectors, s.pkg.seals, h4⟩, h5⟩
  · obtain ⟨c1, c2, c3, c4, c5⟩ := charge_spec s a p bs.length
    obtain ⟨p1, p2, p3, ⟨b, p4⟩, p5⟩ := putBytes_spec (charge s a p bs.length) p bs
    rw [c1] at p1
    refine ⟨p1, fun k => (p2 k).trans (c2 k), fun k => (p3 k).trans (c3 k),
      ⟨b, removeRange s.pkg.sectors p.key (p.key + bs.length), removeRange s.pkg.seals p.key (p.key + bs.length), ?_⟩, p5.trans c5⟩
    rw [c4] at p4
    unfold storeSectors putSectors onPkg
    dsimp only
    rw [p4]

/-- Whole bytes laid over bytes are those bytes. -/
theorem zipWith_overlay_whole (m : Memory) (bs : List Byte) (a : Nat) :
    List.zipWith overlay (readBytes m a (wholeBytes bs).length) (wholeBytes bs) = bs := by
  induction bs generalizing a with
  | nil => rfl
  | cons b r ih =>
    have hb : overlay (readByte m a) (0xFF, b) = b := by
      show (readByte m a &&& ~~~(0xFF : Byte)) ||| (b &&& 0xFF) = b
      have h1 : ~~~(0xFF : Byte) = 0#8 := by decide
      have h2 : (0xFF : Byte) = BitVec.allOnes 8 := by decide
      rw [h1, h2, BitVec.and_zero, BitVec.and_allOnes, BitVec.zero_or]
    show overlay (readByte m a) (0xFF, b) :: List.zipWith overlay (readBytes m (a + 1) (wholeBytes r).length) (wholeBytes r) = b :: r
    rw [hb, ih]

/-- A store of whole bytes of a context that does not buffer, into a clean sector outside the device class (R176). -/
theorem giveBytes_clean (s : State) (c : Nat) (a : Agent) (va : Nat) (p : Place) (bs : List Byte) (hd : p.dev = false)
    (hs : sectorState s p = none) (hb : (ctxAt s c).lap.buffering = false) :
    ∃ t, giveBytes s c a va p (wholeBytes bs) = .done t () ∧ t.mem = writeBytes s.mem p.key bs ∧ (∀ k, k ≠ c → ctxAt t k = ctxAt s k) ∧
      ctxAt t c = { ctxAt s c with lap := { (ctxAt s c).lap with buf := supersede (ctxAt s c).lap.buf va (wholeBytes bs) } } ∧
      (∃ b q z, t.pkg = { s.pkg with badScales := b, sectors := q, seals := z }) ∧ t.turn = s.turn := by
  have hn : (noteAccess s c va).turn = s.turn := by
    unfold noteAccess noteHits; split
    · rfl
    · dsimp only; split <;> rfl
  obtain ⟨a1, a2, a3, -⟩ : (noteAccess s c va).mem = s.mem ∧ _ := noteHits_spec s c 2 _
  obtain ⟨b1, b2, -, -, b5, b6⟩ := noteLeaf_spec (noteAccess s c va) a va
  have hm := b1.trans a1
  have hp := b5.trans a3
  have hk := fun k => (b2 k).trans (a2 k)
  have ha : (wholeBytes bs).all (fun m => m.1 == 0xFF) = true := by
    unfold wholeBytes
    rw [List.all_eq_true]
    intro m hm
    obtain ⟨b, -, rfl⟩ := List.mem_map.1 hm
    rfl
  obtain ⟨c1, c2, -, c4, c5⟩ := storeWhole_clean (noteLeaf (noteAccess s c va) a va) a va p
    (List.zipWith overlay (readBytes (noteLeaf (noteAccess s c va) a va).mem p.key (wholeBytes bs).length)
      (wholeBytes bs)) (by rw [sectorState_pkg hp, hs])
  refine ⟨storeNow (noteLeaf (noteAccess s c va) a va) c a va p (wholeBytes bs), ?_, ?_, fun k hk' => ?_, ?_,
    ?_, ?_⟩
  · unfold giveBytes beforeDevice ctxStore
    simp only [hd, Bool.false_eq_true, if_false, hk, hb, Bool.false_and]
  · show (storeMasked _ a va p (wholeBytes bs)).mem = _
    unfold storeMasked
    rw [if_pos ha, c1, zipWith_overlay_whole, hm]
  · show ctxAt (onCtx _ c _) k = _
    rw [ctxAt_onCtx, if_neg hk']
    unfold storeMasked
    rw [if_pos ha]
    exact (c2 k).trans (hk k)
  · show ctxAt (onCtx _ c _) c = _
    rw [ctxAt_onCtx_same]
    unfold storeMasked
    rw [if_pos ha, c2 c, hk c]
  · show ∃ b q z, (storeMasked _ a va p (wholeBytes bs)).pkg = _
    unfold storeMasked
    rw [if_pos ha]
    rw [hp] at c4
    exact c4
  · show (storeMasked _ a va p (wholeBytes bs)).turn = _
    unfold storeMasked
    rw [if_pos ha]
    exact c5.trans (b6.trans hn)

/-- What a record may change: memory, in its canonical form, and of the package neither the regions nor the images; the count of the log
rises (R344–R346). -/
abbrev records (n : Nat) (s t : State) : Prop :=
  (Memory.wf s.mem = true → Memory.wf t.mem = true) ∧ t.ctxs = s.ctxs ∧ t.cores = s.cores ∧ t.clus = s.clus ∧ t.dies = s.dies ∧
    t.turn = s.turn ∧ s.pkg.logCount + n ≤ t.pkg.logCount ∧ t.pkg.regions = s.pkg.regions ∧ t.pkg.images = s.pkg.images

theorem records_trans {n m : Nat} {s t u : State} (h : records n s t) (k : records m t u) : records (n + m) s u := by
  obtain ⟨h1, h2, h3, h4, h5, h6, h7, h8, h9⟩ := h
  obtain ⟨k1, k2, k3, k4, k5, k6, k7, k8, k9⟩ := k
  exact ⟨fun w => k1 (h1 w), k2.trans h2, k3.trans h3, k4.trans h4, k5.trans h5, k6.trans h6, by omega, k8.trans h8, k9.trans h9⟩

theorem records_refl (s : State) : records 0 s s := ⟨id, rfl, rfl, rfl, rfl, rfl, Nat.le_refl _, rfl, rfl⟩

theorem records_le {n : Nat} {s t : State} (h : records n s t) : records 0 s t :=
  ⟨h.1, h.2.1, h.2.2.1, h.2.2.2.1, h.2.2.2.2.1, h.2.2.2.2.2.1, by have := h.2.2.2.2.2.2.1; omega, h.2.2.2.2.2.2.2⟩

theorem logRecord_records (s : State) (bits : BitVec 256) : records 1 s (logRecord s bits) :=
  ⟨id, rfl, rfl, rfl, rfl, rfl, Nat.le_refl _, rfl, rfl⟩

theorem putBytes_records (s : State) (p : Place) (bs : List Byte) : records 0 s (putBytes s p bs) := by
  obtain ⟨b, hb⟩ := (putBytes_spec s p bs).2.2.2.1
  exact ⟨fun h => wf_writeBytes _ _ _ h, rfl, rfl, rfl, rfl, rfl, by rw [hb]; exact Nat.le_refl _, by rw [hb], by rw [hb]⟩

theorem endPage_records (s : State) : records 0 s (endPage s) := by
  unfold endPage
  split
  · exact records_refl s
  · dsimp only
    split
    · exact ⟨fun h => wf_writeBytes _ _ _ h, rfl, rfl, rfl, rfl, rfl, Nat.le_refl _, rfl, rfl⟩
    · exact ⟨id, rfl, rfl, rfl, rfl, rfl, Nat.le_refl _, rfl, rfl⟩

theorem afterPage_records (s : State) (p : Place) : records 0 s (afterPage s p) := by
  unfold afterPage
  split
  · exact endPage_records s
  · exact records_refl s

theorem logSector_records (s : State) (a : Agent) (va : Nat) (p : Place) (f : SectorFinding) : records 0 s (logSector s a va p f) := by
  cases f <;> first | exact records_refl s | exact records_le (logRecord_records s _)

theorem putChecked_records (s : State) (a : Agent) (va : Nat) (p : Place) (bs : List Byte) : records 0 s (putChecked s a va p bs) := by
  have h := afterPage_records s p
  unfold putChecked
  dsimp only
  split
  · exact records_trans h (logSector_records _ _ _ _ _)
  · exact records_trans h (records_trans (putBytes_records _ _ _) (logSector_records _ _ _ _ _))
  · exact records_trans h (putBytes_records _ _ _)

/-- A record at a queue's tail (R345). -/
theorem queueRecord_records (s : State) (die : Nat) (part : BitVec 16) (bits : BitVec 256) :
    records 0 s (queueRecord s die part bits) := by
  unfold queueRecord
  dsimp only
  split
  · exact records_refl s
  · split
    · exact records_refl s
    · rename_i p _
      have h := afterPage_records s p
      split
      · exact records_trans h (logSector_records _ _ _ _ _)
      · split
        · exact h
        · split
          · exact records_trans h (putBytes_records _ _ _)
          · split
            · exact h
            · exact records_trans h (records_trans (putChecked_records _ _ _ _ _) (putBytes_records _ _ _))

/-- A record of an event (R344–R346). -/
theorem record_records (s : State) (die : Nat) (r : ErrRec) : records 1 s (record s die r) := by
  unfold record
  dsimp only
  split
  · exact records_trans (logRecord_records s _) (queueRecord_records _ _ _ _)
  · exact logRecord_records s _

/-- A record of a sector fault that an access met changes nothing else. -/
theorem recordSector_records (s : State) (a : Agent) (va : Nat) (p : Place) (f : SectorFinding) : records 0 s (recordSector s a va p f) := by
  cases f <;> first | exact records_refl s | exact records_le (record_records s _ _)

/-- What a denied access leaves behind changes no context (R324, R336). -/
theorem noteDenial_spec (s : State) (a : Agent) (d : Denial) :
    records 0 s (noteDenial s a d) ∧ (d.logged = none → noteDenial s a d = s) := by
  unfold noteDenial
  split
  · rename_i pa h
    refine ⟨?_, fun hn => by rw [hn] at h; cases h⟩
    split
    · exact records_le (record_records s _ _)
    · exact records_le (record_records s _ _)
  · exact ⟨records_refl s, fun _ => rfl⟩

/-- A store keeps memory in its canonical form. -/
theorem storeAt_wf (s : State) (a : Agent) (va : Nat) (p : Place) (bs : List Byte) (h : Memory.wf s.mem = true) :
    Memory.wf (storeAt s a va p bs).mem = true := by
  have hc : Memory.wf (charge s a p bs.length).mem = true := by rw [(charge_spec s a p bs.length).1]; exact h
  unfold storeAt
  dsimp only
  split
  · exact (recordSector_records _ a va p _).1 hc
  · exact (recordSector_records _ a va p _).1 ((putBytes_records _ _ _).1 hc)
  · exact (putBytes_records _ _ _).1 hc

theorem storeSectors_wf (s : State) (a : Agent) (p : Place) (bs : List Byte) (h : Memory.wf s.mem = true) :
    Memory.wf (storeSectors s a p bs).mem = true := by
  have hc := (charge_spec s a p bs.length).1
  exact wf_writeBytes _ _ _ (by rw [hc]; exact h)

theorem storeWhole_wf (s : State) (a : Agent) (va : Nat) (p : Place) (bs : List Byte) (h : Memory.wf s.mem = true) :
    Memory.wf (storeWhole s a va p bs).mem = true := by
  unfold storeWhole
  dsimp only
  split
  · exact storeAt_wf s a va p bs h
  · exact storeSectors_wf s a p bs h

theorem storeNow_wf (s : State) (c : Nat) (a : Agent) (va : Nat) (p : Place) (ms : List MaskedByte) (h : Memory.wf s.mem = true) :
    Memory.wf (storeNow s c a va p ms).mem = true := by
  show Memory.wf (storeMasked s a va p ms).mem = true
  unfold storeMasked
  split
  · exact storeWhole_wf s a va p _ h
  · exact storeAt_wf s a va p _ h

end Sys2Proof.Machine
end

