-- ==== Sys2Proof/Laws/PerInstr.lean ====
section
/-! SUPPORT. Statements made per instruction. Fits: the word of an instruction fills 32 bits and no more. -/

namespace Sys2Proof.Laws.Fits

/-- The encoding of an instruction, where it has one, is a number of 32 bits (R12). -/
def Statement (i : Instr) : Prop := ∀ w, i.encode = some w → w < 2 ^ 32

theorem memQueue_le (b : Bool) : memQueue b ≤ 1 := by cases b <;> decide

theorem jobQueue_le (a b : Bool) : jobQueue a b ≤ 3 := by cases a <;> cases b <;> decide

theorem add (d a b : XReg) : Statement (.add d a b) := by
  intro w h; cases h; simp only [place]; omega

theorem sub (d a b : XReg) : Statement (.sub d a b) := by
  intro w h; cases h; simp only [place]; omega

theorem and (d a b : XReg) : Statement (.and d a b) := by
  intro w h; cases h; simp only [place]; omega

theorem or (d a b : XReg) : Statement (.or d a b) := by
  intro w h; cases h; simp only [place]; omega

theorem xor (d a b : XReg) : Statement (.xor d a b) := by
  intro w h; cases h; simp only [place]; omega

theorem sll (d a b : XReg) : Statement (.sll d a b) := by
  intro w h; cases h; simp only [place]; omega

theorem srl (d a b : XReg) : Statement (.srl d a b) := by
  intro w h; cases h; simp only [place]; omega

theorem sra (d a b : XReg) : Statement (.sra d a b) := by
  intro w h; cases h; simp only [place]; omega

theorem slt (d a b : XReg) : Statement (.slt d a b) := by
  intro w h; cases h; simp only [place]; omega

theorem sltu (d a b : XReg) : Statement (.sltu d a b) := by
  intro w h; cases h; simp only [place]; omega

theorem min (d a b : XReg) : Statement (.min d a b) := by
  intro w h; cases h; simp only [place]; omega

theorem max (d a b : XReg) : Statement (.max d a b) := by
  intro w h; cases h; simp only [place]; omega

theorem minn (d a b : XReg) : Statement (.minn d a b) := by
  intro w h; cases h; simp only [place]; omega

theorem maxn (d a b : XReg) : Statement (.maxn d a b) := by
  intro w h; cases h; simp only [place]; omega

theorem mul (d a b : XReg) : Statement (.mul d a b) := by
  intro w h; cases h; simp only [place]; omega

theorem mulh (d a b : XReg) : Statement (.mulh d a b) := by
  intro w h; cases h; simp only [place]; omega

theorem mulhn (d a b : XReg) : Statement (.mulhn d a b) := by
  intro w h; cases h; simp only [place]; omega

theorem div (d a b : XReg) : Statement (.div d a b) := by
  intro w h; cases h; simp only [place]; omega

theorem divn (d a b : XReg) : Statement (.divn d a b) := by
  intro w h; cases h; simp only [place]; omega

theorem rem (d a b : XReg) : Statement (.rem d a b) := by
  intro w h; cases h; simp only [place]; omega

theorem remn (d a b : XReg) : Statement (.remn d a b) := by
  intro w h; cases h; simp only [place]; omega

theorem clz (d a : XReg) : Statement (.clz d a) := by
  intro w h; cases h; simp only [place]; omega

theorem ctz (d a : XReg) : Statement (.ctz d a) := by
  intro w h; cases h; simp only [place]; omega

theorem popc (d a : XReg) : Statement (.popc d a) := by
  intro w h; cases h; simp only [place]; omega

theorem addi (d a : XReg) (imm : BitVec 15) : Statement (.addi d a imm) := by
  intro w h; cases h; simp only [place]; omega

theorem andi (d a : XReg) (imm : BitVec 15) : Statement (.andi d a imm) := by
  intro w h; cases h; simp only [place]; omega

theorem ori (d a : XReg) (imm : BitVec 15) : Statement (.ori d a imm) := by
  intro w h; cases h; simp only [place]; omega

theorem xori (d a : XReg) (imm : BitVec 15) : Statement (.xori d a imm) := by
  intro w h; cases h; simp only [place]; omega

theorem slti (d a : XReg) (imm : BitVec 15) : Statement (.slti d a imm) := by
  intro w h; cases h; simp only [place]; omega

theorem sltin (d a : XReg) (imm : BitVec 15) : Statement (.sltin d a imm) := by
  intro w h; cases h; simp only [place]; omega

theorem slli (d a : XReg) (sh : BitVec 6) : Statement (.slli d a sh) := by
  intro w h; cases h; simp only [place]; omega

theorem srli (d a : XReg) (sh : BitVec 6) : Statement (.srli d a sh) := by
  intro w h; cases h; simp only [place]; omega

theorem srai (d a : XReg) (sh : BitVec 6) : Statement (.srai d a sh) := by
  intro w h; cases h; simp only [place]; omega

theorem lih (d : XReg) (imm : BitVec 20) : Statement (.lih d imm) := by
  intro w h; cases h; simp only [place]; omega

theorem pcrel (d : XReg) (imm : BitVec 20) : Statement (.pcrel d imm) := by
  intro w h; cases h; simp only [place]; omega

theorem ld (t a : XReg) (off : BitVec 10) (ord sz : BitVec 2) (sx : Bool) : Statement (.ld t a off ord sz sx) := by
  intro w h; cases h; simp only [place, placeBit]; have := Bool.toNat_lt sx; omega

theorem st (t a : XReg) (off : BitVec 10) (ord sz : BitVec 2) : Statement (.st t a off ord sz) := by
  intro w h; cases h; simp only [place]; omega

theorem amoAdd (d a b : XReg) (ord : BitVec 2) (scope : BitVec 3) (w : Bool) : Statement (.amoAdd d a b ord scope w) := by
  intro w h; cases h; simp only [place, placeBit]; have := Bool.toNat_lt w; omega

theorem amoAnd (d a b : XReg) (ord : BitVec 2) (scope : BitVec 3) (w : Bool) : Statement (.amoAnd d a b ord scope w) := by
  intro w h; cases h; simp only [place, placeBit]; have := Bool.toNat_lt w; omega

theorem amoOr (d a b : XReg) (ord : BitVec 2) (scope : BitVec 3) (w : Bool) : Statement (.amoOr d a b ord scope w) := by
  intro w h; cases h; simp only [place, placeBit]; have := Bool.toNat_lt w; omega

theorem amoXor (d a b : XReg) (ord : BitVec 2) (scope : BitVec 3) (w : Bool) : Statement (.amoXor d a b ord scope w) := by
  intro w h; cases h; simp only [place, placeBit]; have := Bool.toNat_lt w; omega

theorem amoMin (d a b : XReg) (ord : BitVec 2) (scope : BitVec 3) (w : Bool) : Statement (.amoMin d a b ord scope w) := by
  intro w h; cases h; simp only [place, placeBit]; have := Bool.toNat_lt w; omega

theorem amoMax (d a b : XReg) (ord : BitVec 2) (scope : BitVec 3) (w : Bool) : Statement (.amoMax d a b ord scope w) := by
  intro w h; cases h; simp only [place, placeBit]; have := Bool.toNat_lt w; omega

theorem amoMinn (d a b : XReg) (ord : BitVec 2) (scope : BitVec 3) (w : Bool) : Statement (.amoMinn d a b ord scope w) := by
  intro w h; cases h; simp only [place, placeBit]; have := Bool.toNat_lt w; omega

theorem amoMaxn (d a b : XReg) (ord : BitVec 2) (scope : BitVec 3) (w : Bool) : Statement (.amoMaxn d a b ord scope w) := by
  intro w h; cases h; simp only [place, placeBit]; have := Bool.toNat_lt w; omega

theorem amoSwap (d a b : XReg) (ord : BitVec 2) (scope : BitVec 3) (w : Bool) : Statement (.amoSwap d a b ord scope w) := by
  intro w h; cases h; simp only [place, placeBit]; have := Bool.toNat_lt w; omega

theorem cas (d a b : XReg) (ord : BitVec 2) (scope : BitVec 3) (w : Bool) : Statement (.cas d a b ord scope w) := by
  intro w h; cases h; simp only [place, placeBit]; have := Bool.toNat_lt w; omega

theorem fence (ord : BitVec 2) (scope : BitVec 3) : Statement (.fence ord scope) := by
  intro w h; cases h; simp only [place]; omega

theorem fenceSc (scope : BitVec 3) : Statement (.fenceSc scope) := by
  intro w h; cases h; simp only [place]; omega

theorem sbar (names : BitVec 20) : Statement (.sbar names) := by
  intro w h; cases h; simp only [place]; omega

theorem brEq (a b : XReg) (off : BitVec 12) : Statement (.brEq a b off) := by
  intro w h; cases h; simp only [place]; omega

theorem brNe (a b : XReg) (off : BitVec 12) : Statement (.brNe a b off) := by
  intro w h; cases h; simp only [place]; omega

theorem brLt (a b : XReg) (off : BitVec 12) : Statement (.brLt a b off) := by
  intro w h; cases h; simp only [place]; omega

theorem brGe (a b : XReg) (off : BitVec 12) : Statement (.brGe a b off) := by
  intro w h; cases h; simp only [place]; omega

theorem brLtn (a b : XReg) (off : BitVec 12) : Statement (.brLtn a b off) := by
  intro w h; cases h; simp only [place]; omega

theorem brGen (a b : XReg) (off : BitVec 12) : Statement (.brGen a b off) := by
  intro w h; cases h; simp only [place]; omega

theorem jal (d : XReg) (off : BitVec 20) : Statement (.jal d off) := by
  intro w h; cases h; simp only [place]; omega

theorem jalr (d a : XReg) (imm : BitVec 15) : Statement (.jalr d a imm) := by
  intro w h; cases h; simp only [place]; omega

theorem loop (a : XReg) (ind : BitVec 8) (cvb : BitVec 6) (cvg : BitVec 2) : Statement (.loop a ind cvb cvg) := by
  intro w h; cases h; simp only [place]; omega

theorem nextPerElement (a : VNum) : Statement (.nextPerElement a) := by
  intro w h; cases h; simp only [place]; omega

theorem nextUniform (s : XReg) : Statement (.nextUniform s) := by
  intro w h; cases h; simp only [place]; omega

theorem vsetvl (d a b : XReg) : Statement (.vsetvl d a b) := by
  intro w h; cases h; simp only [place]; omega

theorem vcfg (d : XReg) (value : BitVec 17) : Statement (.vcfg d value) := by
  intro w h; cases h; simp only [place]; omega

theorem vtag (d : VNum) (code : BitVec 5) : Statement (.vtag d code) := by
  intro w h; cases h; simp only [place]; omega

theorem vadd (d a b : VNum) (rm : BitVec 3) (mk : Bool) : Statement (.vadd d a b rm mk) := by
  intro w h; cases h; simp only [place, placeBit]; have := Bool.toNat_lt mk; omega

theorem vaddSub (d a b : VNum) (rm : BitVec 3) (mk : Bool) : Statement (.vaddSub d a b rm mk) := by
  intro w h; cases h; simp only [place, placeBit]; have := Bool.toNat_lt mk; omega

theorem vaddRsub (d a b : VNum) (rm : BitVec 3) (mk : Bool) : Statement (.vaddRsub d a b rm mk) := by
  intro w h; cases h; simp only [place, placeBit]; have := Bool.toNat_lt mk; omega

theorem vaddAdds (d a b : VNum) (rm : BitVec 3) (mk : Bool) : Statement (.vaddAdds d a b rm mk) := by
  intro w h; cases h; simp only [place, placeBit]; have := Bool.toNat_lt mk; omega

theorem vaddSubs (d a b : VNum) (rm : BitVec 3) (mk : Bool) : Statement (.vaddSubs d a b rm mk) := by
  intro w h; cases h; simp only [place, placeBit]; have := Bool.toNat_lt mk; omega

theorem vaddAbsd (d a b : VNum) (rm : BitVec 3) (mk : Bool) : Statement (.vaddAbsd d a b rm mk) := by
  intro w h; cases h; simp only [place, placeBit]; have := Bool.toNat_lt mk; omega

theorem vmul (d a b : VNum) (rm : BitVec 3) (mk : Bool) : Statement (.vmul d a b rm mk) := by
  intro w h; cases h; simp only [place, placeBit]; have := Bool.toNat_lt mk; omega

theorem vmulMulh (d a b : VNum) (rm : BitVec 3) (mk : Bool) : Statement (.vmulMulh d a b rm mk) := by
  intro w h; cases h; simp only [place, placeBit]; have := Bool.toNat_lt mk; omega

theorem vmulMulhn (d a b : VNum) (rm : BitVec 3) (mk : Bool) : Statement (.vmulMulhn d a b rm mk) := by
  intro w h; cases h; simp only [place, placeBit]; have := Bool.toNat_lt mk; omega

theorem vmulDiv (d a b : VNum) (rm : BitVec 3) (mk : Bool) : Statement (.vmulDiv d a b rm mk) := by
  intro w h; cases h; simp only [place, placeBit]; have := Bool.toNat_lt mk; omega

theorem vmulRem (d a b : VNum) (rm : BitVec 3) (mk : Bool) : Statement (.vmulRem d a b rm mk) := by
  intro w h; cases h; simp only [place, placeBit]; have := Bool.toNat_lt mk; omega

theorem vfma (d a b : VNum) (rm : BitVec 3) (mk : Bool) : Statement (.vfma d a b rm mk) := by
  intro w h; cases h; simp only [place, placeBit]; have := Bool.toNat_lt mk; omega

theorem vfmaFms (d a b : VNum) (rm : BitVec 3) (mk : Bool) : Statement (.vfmaFms d a b rm mk) := by
  intro w h; cases h; simp only [place, placeBit]; have := Bool.toNat_lt mk; omega

theorem vfmaFnma (d a b : VNum) (rm : BitVec 3) (mk : Bool) : Statement (.vfmaFnma d a b rm mk) := by
  intro w h; cases h; simp only [place, placeBit]; have := Bool.toNat_lt mk; omega

theorem vfmaFnms (d a b : VNum) (rm : BitVec 3) (mk : Bool) : Statement (.vfmaFnms d a b rm mk) := by
  intro w h; cases h; simp only [place, placeBit]; have := Bool.toNat_lt mk; omega

theorem vminmaxMin (d a b : VNum) (rm : BitVec 3) (mk : Bool) : Statement (.vminmaxMin d a b rm mk) := by
  intro w h; cases h; simp only [place, placeBit]; have := Bool.toNat_lt mk; omega

theorem vminmaxMax (d a b : VNum) (rm : BitVec 3) (mk : Bool) : Statement (.vminmaxMax d a b rm mk) := by
  intro w h; cases h; simp only [place, placeBit]; have := Bool.toNat_lt mk; omega

theorem vminmaxMinnum (d a b : VNum) (rm : BitVec 3) (mk : Bool) : Statement (.vminmaxMinnum d a b rm mk) := by
  intro w h; cases h; simp only [place, placeBit]; have := Bool.toNat_lt mk; omega

theorem vminmaxMaxnum (d a b : VNum) (rm : BitVec 3) (mk : Bool) : Statement (.vminmaxMaxnum d a b rm mk) := by
  intro w h; cases h; simp only [place, placeBit]; have := Bool.toNat_lt mk; omega

theorem vlogicAnd (d a b : VNum) (rm : BitVec 3) (mk : Bool) : Statement (.vlogicAnd d a b rm mk) := by
  intro w h; cases h; simp only [place, placeBit]; have := Bool.toNat_lt mk; omega

theorem vlogicOr (d a b : VNum) (rm : BitVec 3) (mk : Bool) : Statement (.vlogicOr d a b rm mk) := by
  intro w h; cases h; simp only [place, placeBit]; have := Bool.toNat_lt mk; omega

theorem vlogicXor (d a b : VNum) (rm : BitVec 3) (mk : Bool) : Statement (.vlogicXor d a b rm mk) := by
  intro w h; cases h; simp only [place, placeBit]; have := Bool.toNat_lt mk; omega

theorem vlogicAndn (d a b : VNum) (rm : BitVec 3) (mk : Bool) : Statement (.vlogicAndn d a b rm mk) := by
  intro w h; cases h; simp only [place, placeBit]; have := Bool.toNat_lt mk; omega

theorem vlogicSll (d a b : VNum) (rm : BitVec 3) (mk : Bool) : Statement (.vlogicSll d a b rm mk) := by
  intro w h; cases h; simp only [place, placeBit]; have := Bool.toNat_lt mk; omega

theorem vlogicSrl (d a b : VNum) (rm : BitVec 3) (mk : Bool) : Statement (.vlogicSrl d a b rm mk) := by
  intro w h; cases h; simp only [place, placeBit]; have := Bool.toNat_lt mk; omega

theorem vlogicSra (d a b : VNum) (rm : BitVec 3) (mk : Bool) : Statement (.vlogicSra d a b rm mk) := by
  intro w h; cases h; simp only [place, placeBit]; have := Bool.toNat_lt mk; omega

theorem vcmpEq (d : MNum) (a b : VNum) (rm : BitVec 3) (mk : Bool) : Statement (.vcmpEq d a b rm mk) := by
  intro w h; cases h; simp only [place, placeBit]; have := Bool.toNat_lt mk; omega

theorem vcmpNe (d : MNum) (a b : VNum) (rm : BitVec 3) (mk : Bool) : Statement (.vcmpNe d a b rm mk) := by
  intro w h; cases h; simp only [place, placeBit]; have := Bool.toNat_lt mk; omega

theorem vcmpLt (d : MNum) (a b : VNum) (rm : BitVec 3) (mk : Bool) : Statement (.vcmpLt d a b rm mk) := by
  intro w h; cases h; simp only [place, placeBit]; have := Bool.toNat_lt mk; omega

theorem vcmpLe (d : MNum) (a b : VNum) (rm : BitVec 3) (mk : Bool) : Statement (.vcmpLe d a b rm mk) := by
  intro w h; cases h; simp only [place, placeBit]; have := Bool.toNat_lt mk; omega

theorem vcmpGt (d : MNum) (a b : VNum) (rm : BitVec 3) (mk : Bool) : Statement (.vcmpGt d a b rm mk) := by
  intro w h; cases h; simp only [place, placeBit]; have := Bool.toNat_lt mk; omega

theorem vcmpGe (d : MNum) (a b : VNum) (rm : BitVec 3) (mk : Bool) : Statement (.vcmpGe d a b rm mk) := by
  intro w h; cases h; simp only [place, placeBit]; have := Bool.toNat_lt mk; omega

theorem vcmpUnord (d : MNum) (a b : VNum) (rm : BitVec 3) (mk : Bool) : Statement (.vcmpUnord d a b rm mk) := by
  intro w h; cases h; simp only [place, placeBit]; have := Bool.toNat_lt mk; omega

theorem vsel (d a b : VNum) (rm : BitVec 3) : Statement (.vsel d a b rm) := by
  intro w h; cases h; simp only [place]; omega

theorem vcvt (d a : VNum) (rm : BitVec 3) (mk : Bool) : Statement (.vcvt d a rm mk) := by
  intro w h; cases h; simp only [place, placeBit]; have := Bool.toNat_lt mk; omega

theorem vcvtSat (d a : VNum) (rm : BitVec 3) (mk : Bool) : Statement (.vcvtSat d a rm mk) := by
  intro w h; cases h; simp only [place, placeBit]; have := Bool.toNat_lt mk; omega

theorem vcvtBlk (d a b : VNum) (rm : BitVec 3) (mk : Bool) : Statement (.vcvtBlk d a b rm mk) := by
  intro w h; cases h; simp only [place, placeBit]; have := Bool.toNat_lt mk; omega

theorem vcvtScale (d a : VNum) (fmt : BitVec 6) (rm : BitVec 3) (mk : Bool) : Statement (.vcvtScale d a fmt rm mk) := by
  intro w h; cases h; simp only [place, placeBit]; have := Bool.toNat_lt mk; omega

theorem vmodAddm (d a b : VNum) (rm : BitVec 3) (mk : Bool) : Statement (.vmodAddm d a b rm mk) := by
  intro w h; cases h; simp only [place, placeBit]; have := Bool.toNat_lt mk; omega

theorem vmodSubm (d a b : VNum) (rm : BitVec 3) (mk : Bool) : Statement (.vmodSubm d a b rm mk) := by
  intro w h; cases h; simp only [place, placeBit]; have := Bool.toNat_lt mk; omega

theorem vmodMulm (d a b : VNum) (rm : BitVec 3) (mk : Bool) : Statement (.vmodMulm d a b rm mk) := by
  intro w h; cases h; simp only [place, placeBit]; have := Bool.toNat_lt mk; omega

theorem vmodMacm (d a b : VNum) (rm : BitVec 3) (mk : Bool) : Statement (.vmodMacm d a b rm mk) := by
  intro w h; cases h; simp only [place, placeBit]; have := Bool.toNat_lt mk; omega

theorem vxAdd (d a : VNum) (s : BitVec 5) (sel : Bool) (rm : BitVec 3) (mk : Bool) : Statement (.vxAdd d a s sel rm mk) := by
  intro w h; cases h; simp only [place, placeBit]; have := Bool.toNat_lt sel; have := Bool.toNat_lt mk; omega

theorem vxSub (d a : VNum) (s : BitVec 5) (sel : Bool) (rm : BitVec 3) (mk : Bool) : Statement (.vxSub d a s sel rm mk) := by
  intro w h; cases h; simp only [place, placeBit]; have := Bool.toNat_lt sel; have := Bool.toNat_lt mk; omega

theorem vxMul (d a : VNum) (s : BitVec 5) (sel : Bool) (rm : BitVec 3) (mk : Bool) : Statement (.vxMul d a s sel rm mk) := by
  intro w h; cases h; simp only [place, placeBit]; have := Bool.toNat_lt sel; have := Bool.toNat_lt mk; omega

theorem vxMin (d a : VNum) (s : BitVec 5) (sel : Bool) (rm : BitVec 3) (mk : Bool) : Statement (.vxMin d a s sel rm mk) := by
  intro w h; cases h; simp only [place, placeBit]; have := Bool.toNat_lt sel; have := Bool.toNat_lt mk; omega

theorem vxMax (d a : VNum) (s : BitVec 5) (sel : Bool) (rm : BitVec 3) (mk : Bool) : Statement (.vxMax d a s sel rm mk) := by
  intro w h; cases h; simp only [place, placeBit]; have := Bool.toNat_lt sel; have := Bool.toNat_lt mk; omega

theorem vxAnd (d a : VNum) (s : BitVec 5) (sel : Bool) (rm : BitVec 3) (mk : Bool) : Statement (.vxAnd d a s sel rm mk) := by
  intro w h; cases h; simp only [place, placeBit]; have := Bool.toNat_lt sel; have := Bool.toNat_lt mk; omega

theorem vxOr (d a : VNum) (s : BitVec 5) (sel : Bool) (rm : BitVec 3) (mk : Bool) : Statement (.vxOr d a s sel rm mk) := by
  intro w h; cases h; simp only [place, placeBit]; have := Bool.toNat_lt sel; have := Bool.toNat_lt mk; omega

theorem vxFma (d a : VNum) (s : BitVec 5) (sel : Bool) (rm : BitVec 3) (mk : Bool) : Statement (.vxFma d a s sel rm mk) := by
  intro w h; cases h; simp only [place, placeBit]; have := Bool.toNat_lt sel; have := Bool.toNat_lt mk; omega

theorem vsfuExp2 (d a : VNum) (rm : BitVec 3) (mk : Bool) : Statement (.vsfuExp2 d a rm mk) := by
  intro w h; cases h; simp only [place, placeBit]; have := Bool.toNat_lt mk; omega

theorem vsfuLog2 (d a : VNum) (rm : BitVec 3) (mk : Bool) : Statement (.vsfuLog2 d a rm mk) := by
  intro w h; cases h; simp only [place, placeBit]; have := Bool.toNat_lt mk; omega

theorem vsfuRcp (d a : VNum) (rm : BitVec 3) (mk : Bool) : Statement (.vsfuRcp d a rm mk) := by
  intro w h; cases h; simp only [place, placeBit]; have := Bool.toNat_lt mk; omega

theorem vsfuRsq (d a : VNum) (rm : BitVec 3) (mk : Bool) : Statement (.vsfuRsq d a rm mk) := by
  intro w h; cases h; simp only [place, placeBit]; have := Bool.toNat_lt mk; omega

theorem vsfuSqrt (d a : VNum) (rm : BitVec 3) (mk : Bool) : Statement (.vsfuSqrt d a rm mk) := by
  intro w h; cases h; simp only [place, placeBit]; have := Bool.toNat_lt mk; omega

theorem vsfuRcpstep (d a b : VNum) (rm : BitVec 3) (mk : Bool) : Statement (.vsfuRcpstep d a b rm mk) := by
  intro w h; cases h; simp only [place, placeBit]; have := Bool.toNat_lt mk; omega

theorem vsfuRsqstep (d a b : VNum) (rm : BitVec 3) (mk : Bool) : Statement (.vsfuRsqstep d a b rm mk) := by
  intro w h; cases h; simp only [place, placeBit]; have := Bool.toNat_lt mk; omega

theorem vsmaxUpd (d a b : VNum) (rm : BitVec 3) (mk : Bool) : Statement (.vsmaxUpd d a b rm mk) := by
  intro w h; cases h; simp only [place, placeBit]; have := Bool.toNat_lt mk; omega

theorem vsmaxNorm (d a b : VNum) (rm : BitVec 3) (mk : Bool) : Statement (.vsmaxNorm d a b rm mk) := by
  intro w h; cases h; simp only [place, placeBit]; have := Bool.toNat_lt mk; omega

theorem vredSum (d a : VNum) (rm : BitVec 3) (mk : Bool) : Statement (.vredSum d a rm mk) := by
  intro w h; cases h; simp only [place, placeBit]; have := Bool.toNat_lt mk; omega

theorem vredMin (d a : VNum) (rm : BitVec 3) (mk : Bool) : Statement (.vredMin d a rm mk) := by
  intro w h; cases h; simp only [place, placeBit]; have := Bool.toNat_lt mk; omega

theorem vredMax (d a : VNum) (rm : BitVec 3) (mk : Bool) : Statement (.vredMax d a rm mk) := by
  intro w h; cases h; simp only [place, placeBit]; have := Bool.toNat_lt mk; omega

theorem vredAnd (d a : VNum) (rm : BitVec 3) (mk : Bool) : Statement (.vredAnd d a rm mk) := by
  intro w h; cases h; simp only [place, placeBit]; have := Bool.toNat_lt mk; omega

theorem vredOr (d a : VNum) (rm : BitVec 3) (mk : Bool) : Statement (.vredOr d a rm mk) := by
  intro w h; cases h; simp only [place, placeBit]; have := Bool.toNat_lt mk; omega

theorem vredXor (d a : VNum) (rm : BitVec 3) (mk : Bool) : Statement (.vredXor d a rm mk) := by
  intro w h; cases h; simp only [place, placeBit]; have := Bool.toNat_lt mk; omega

theorem vredWsum (d a b : VNum) (rm : BitVec 3) (mk : Bool) : Statement (.vredWsum d a b rm mk) := by
  intro w h; cases h; simp only [place, placeBit]; have := Bool.toNat_lt mk; omega

theorem vslideUp (d a : VNum) (s : BitVec 5) (sel : Bool) (rm : BitVec 3) (mk : Bool) : Statement (.vslideUp d a s sel rm mk) := by
  intro w h; cases h; simp only [place, placeBit]; have := Bool.toNat_lt sel; have := Bool.toNat_lt mk; omega

theorem vslideDown (d a : VNum) (s : BitVec 5) (sel : Bool) (rm : BitVec 3) (mk : Bool) : Statement (.vslideDown d a s sel rm mk) := by
  intro w h; cases h; simp only [place, placeBit]; have := Bool.toNat_lt sel; have := Bool.toNat_lt mk; omega

theorem vslideRot (d a : VNum) (s : BitVec 5) (sel : Bool) (rm : BitVec 3) (mk : Bool) : Statement (.vslideRot d a s sel rm mk) := by
  intro w h; cases h; simp only [place, placeBit]; have := Bool.toNat_lt sel; have := Bool.toNat_lt mk; omega

theorem vperm (d a b : VNum) (rm : BitVec 3) (mk : Bool) : Statement (.vperm d a b rm mk) := by
  intro w h; cases h; simp only [place, placeBit]; have := Bool.toNat_lt mk; omega

theorem vcompCompress (d a : VNum) (rm : BitVec 3) : Statement (.vcompCompress d a rm) := by
  intro w h; cases h; simp only [place]; omega

theorem vcompExpand (d a : VNum) (rm : BitVec 3) : Statement (.vcompExpand d a rm) := by
  intro w h; cases h; simp only [place]; omega

theorem vcompIota (d : VNum) (a : MNum) (rm : BitVec 3) (mk : Bool) : Statement (.vcompIota d a rm mk) := by
  intro w h; cases h; simp only [place, placeBit]; have := Bool.toNat_lt mk; omega

theorem vcompCidx (d : VNum) (a : MNum) (rm : BitVec 3) : Statement (.vcompCidx d a rm) := by
  intro w h; cases h; simp only [place]; omega

theorem vbflyH (d a : VNum) (dist : BitVec 4) : Statement (.vbflyH d a dist) := by
  intro w h; cases h; simp only [place]; omega

theorem vbflyHF (d a : VNum) (dist : BitVec 4) : Statement (.vbflyHF d a dist) := by
  intro w h; cases h; simp only [place]; omega

theorem vbflyCt (d a b : VNum) (dist : BitVec 4) : Statement (.vbflyCt d a b dist) := by
  intro w h; cases h; simp only [place]; omega

theorem vbflyGs (d a b : VNum) (dist : BitVec 4) : Statement (.vbflyGs d a b dist) := by
  intro w h; cases h; simp only [place]; omega

theorem vdecomp (d a : VNum) (s : BitVec 5) (sel : Bool) (rm : BitVec 3) (mk : Bool) (lvl : BitVec 3) : Statement (.vdecomp d a s sel rm mk lvl) := by
  intro w h; cases h; simp only [place, placeBit]; have := Bool.toNat_lt sel; have := Bool.toNat_lt mk; omega

theorem vmv (d a : VNum) (rm : BitVec 3) (mk : Bool) : Statement (.vmv d a rm mk) := by
  intro w h; cases h; simp only [place, placeBit]; have := Bool.toNat_lt mk; omega

theorem vmvBcast (d : VNum) (s : BitVec 5) (sel : Bool) (rm : BitVec 3) (mk : Bool) : Statement (.vmvBcast d s sel rm mk) := by
  intro w h; cases h; simp only [place, placeBit]; have := Bool.toNat_lt sel; have := Bool.toNat_lt mk; omega

theorem vmvTox (s : XReg) (a : VNum) (rm : BitVec 3) : Statement (.vmvTox s a rm) := by
  intro w h; cases h; simp only [place]; omega

theorem vmvFromx (d : VNum) (s : BitVec 5) (sel : Bool) (rm : BitVec 3) (mk : Bool) : Statement (.vmvFromx d s sel rm mk) := by
  intro w h; cases h; simp only [place, placeBit]; have := Bool.toNat_lt sel; have := Bool.toNat_lt mk; omega

theorem vmvWid (d : VNum) (rm : BitVec 3) (mk : Bool) : Statement (.vmvWid d rm mk) := by
  intro w h; cases h; simp only [place, placeBit]; have := Bool.toNat_lt mk; omega

theorem ehistAcc (a : VNum) (bank : BitVec 2) (rm : BitVec 3) (mk : Bool) : Statement (.ehistAcc a bank rm mk) := by
  intro w h; cases h; simp only [place, placeBit]; have := Bool.toNat_lt mk; omega

theorem ehistRead (d : VNum) (bank : BitVec 5) (rm : BitVec 3) : Statement (.ehistRead d bank rm) := by
  intro w h; cases h; simp only [place]; omega

theorem ehistClr (bank : BitVec 5) (rm : BitVec 3) : Statement (.ehistClr bank rm) := by
  intro w h; cases h; simp only [place]; omega

theorem mlogAnd (d a b : MNum) : Statement (.mlogAnd d a b) := by
  intro w h; cases h; simp only [place]; omega

theorem mlogOr (d a b : MNum) : Statement (.mlogOr d a b) := by
  intro w h; cases h; simp only [place]; omega

theorem mlogXor (d a b : MNum) : Statement (.mlogXor d a b) := by
  intro w h; cases h; simp only [place]; omega

theorem mlogAndn (d a b : MNum) : Statement (.mlogAndn d a b) := by
  intro w h; cases h; simp only [place]; omega

theorem mlogOrn (d a b : MNum) : Statement (.mlogOrn d a b) := by
  intro w h; cases h; simp only [place]; omega

theorem mlogXnor (d a b : MNum) : Statement (.mlogXnor d a b) := by
  intro w h; cases h; simp only [place]; omega

theorem mlogNot (d a : MNum) : Statement (.mlogNot d a) := by
  intro w h; cases h; simp only [place]; omega

theorem mcnt (s : XReg) (a : MNum) : Statement (.mcnt s a) := by
  intro w h; cases h; simp only [place]; omega

theorem mcntFirst (s : XReg) (a : MNum) : Statement (.mcntFirst s a) := by
  intro w h; cases h; simp only [place]; omega

theorem msetvl (s : XReg) (a : MNum) : Statement (.msetvl s a) := by
  intro w h; cases h; simp only [place]; omega

theorem mmv (d a : MNum) : Statement (.mmv d a) := by
  intro w h; cases h; simp only [place]; omega

theorem mmvSet (d : MNum) : Statement (.mmvSet d) := by
  intro w h; cases h; simp only [place]; omega

theorem mmvClr (d : MNum) : Statement (.mmvClr d) := by
  intro w h; cases h; simp only [place]; omega

theorem vld (t : VNum) (b : XReg) (mk bw bp : Bool) : Statement (.vld t b mk bw bp) := by
  intro w h; cases h; simp only [place, placeBit, placeNat]; have := Bool.toNat_lt mk; have := Bool.toNat_lt bw; have := Bool.toNat_lt bp; have := memQueue_le bw; omega

theorem vldS (t : VNum) (b s : XReg) (mk bw bp : Bool) : Statement (.vldS t b s mk bw bp) := by
  intro w h; cases h; simp only [place, placeBit, placeNat]; have := Bool.toNat_lt mk; have := Bool.toNat_lt bw; have := Bool.toNat_lt bp; have := memQueue_le bw; omega

theorem vldX (t : VNum) (b : XReg) (ix : VNum) (mk bw bp : Bool) : Statement (.vldX t b ix mk bw bp) := by
  intro w h; cases h; simp only [place, placeBit, placeNat]; have := Bool.toNat_lt mk; have := Bool.toNat_lt bw; have := Bool.toNat_lt bp; have := memQueue_le bw; omega

theorem vst (t : VNum) (b : XReg) (mk bw bp : Bool) : Statement (.vst t b mk bw bp) := by
  intro w h; cases h; simp only [place, placeBit, placeNat]; have := Bool.toNat_lt mk; have := Bool.toNat_lt bw; have := Bool.toNat_lt bp; have := memQueue_le bw; omega

theorem vstS (t : VNum) (b s : XReg) (mk bw bp : Bool) : Statement (.vstS t b s mk bw bp) := by
  intro w h; cases h; simp only [place, placeBit, placeNat]; have := Bool.toNat_lt mk; have := Bool.toNat_lt bw; have := Bool.toNat_lt bp; have := memQueue_le bw; omega

theorem vstX (t : VNum) (b : XReg) (ix : VNum) (mk bw bp : Bool) : Statement (.vstX t b ix mk bw bp) := by
  intro w h; cases h; simp only [place, placeBit, placeNat]; have := Bool.toNat_lt mk; have := Bool.toNat_lt bw; have := Bool.toNat_lt bp; have := memQueue_le bw; omega

theorem vamoAdd (t : VNum) (b : XReg) (ix : VNum) (mk bw bp : Bool) : Statement (.vamoAdd t b ix mk bw bp) := by
  intro w h; cases h; simp only [place, placeBit, placeNat]; have := Bool.toNat_lt mk; have := Bool.toNat_lt bw; have := Bool.toNat_lt bp; have := memQueue_le bw; omega

theorem vamoAnd (t : VNum) (b : XReg) (ix : VNum) (mk bw bp : Bool) : Statement (.vamoAnd t b ix mk bw bp) := by
  intro w h; cases h; simp only [place, placeBit, placeNat]; have := Bool.toNat_lt mk; have := Bool.toNat_lt bw; have := Bool.toNat_lt bp; have := memQueue_le bw; omega

theorem vamoOr (t : VNum) (b : XReg) (ix : VNum) (mk bw bp : Bool) : Statement (.vamoOr t b ix mk bw bp) := by
  intro w h; cases h; simp only [place, placeBit, placeNat]; have := Bool.toNat_lt mk; have := Bool.toNat_lt bw; have := Bool.toNat_lt bp; have := memQueue_le bw; omega

theorem vamoXor (t : VNum) (b : XReg) (ix : VNum) (mk bw bp : Bool) : Statement (.vamoXor t b ix mk bw bp) := by
  intro w h; cases h; simp only [place, placeBit, placeNat]; have := Bool.toNat_lt mk; have := Bool.toNat_lt bw; have := Bool.toNat_lt bp; have := memQueue_le bw; omega

theorem vamoMin (t : VNum) (b : XReg) (ix : VNum) (mk bw bp : Bool) : Statement (.vamoMin t b ix mk bw bp) := by
  intro w h; cases h; simp only [place, placeBit, placeNat]; have := Bool.toNat_lt mk; have := Bool.toNat_lt bw; have := Bool.toNat_lt bp; have := memQueue_le bw; omega

theorem vamoMax (t : VNum) (b : XReg) (ix : VNum) (mk bw bp : Bool) : Statement (.vamoMax t b ix mk bw bp) := by
  intro w h; cases h; simp only [place, placeBit, placeNat]; have := Bool.toNat_lt mk; have := Bool.toNat_lt bw; have := Bool.toNat_lt bp; have := memQueue_le bw; omega

theorem vamoSwap (t : VNum) (b : XReg) (ix : VNum) (mk bw bp : Bool) : Statement (.vamoSwap t b ix mk bw bp) := by
  intro w h; cases h; simp only [place, placeBit, placeNat]; have := Bool.toNat_lt mk; have := Bool.toNat_lt bw; have := Bool.toNat_lt bp; have := memQueue_le bw; omega

theorem mld (t : MNum) (b : XReg) (mk bw bp : Bool) : Statement (.mld t b mk bw bp) := by
  intro w h; cases h; simp only [place, placeBit, placeNat]; have := Bool.toNat_lt mk; have := Bool.toNat_lt bw; have := Bool.toNat_lt bp; have := memQueue_le bw; omega

theorem mst (t : MNum) (b : XReg) (mk bw bp : Bool) : Statement (.mst t b mk bw bp) := by
  intro w h; cases h; simp only [place, placeBit, placeNat]; have := Bool.toNat_lt mk; have := Bool.toNat_lt bw; have := Bool.toNat_lt bp; have := memQueue_le bw; omega

theorem sbind (k : BitVec 4) (b : XReg) : Statement (.sbind k b) := by
  intro w h; cases h; simp only [place, placeNat]; omega

theorem sunbind (k : BitVec 4) : Statement (.sunbind k) := by
  intro w h; cases h; simp only [placeNat]; omega

theorem btnWait (q : BitVec 2) : Statement (.btnWait q) := by
  intro w h; cases h; simp only [place]; omega

theorem btnPost (q : BitVec 2) : Statement (.btnPost q) := by
  intro w h; cases h; simp only [place]; omega

theorem btnWaitPost (q : BitVec 2) : Statement (.btnWaitPost q) := by
  intro w h; cases h; simp only [place]; omega

theorem tmma (c : XReg) (mK : BitVec 4) (bw bp : Bool) : Statement (.tmma c mK bw bp) := by
  intro w h; cases h; simp only [place, placeBit, placeNat]; have := Bool.toNat_lt bw; have := Bool.toNat_lt bp; have := jobQueue_le bw bp; omega

theorem tcvt (c : XReg) (bw bp : Bool) : Statement (.tcvt c bw bp) := by
  intro w h; cases h; simp only [place, placeBit, placeNat]; have := Bool.toNat_lt bw; have := Bool.toNat_lt bp; have := jobQueue_le bw bp; omega

theorem tcopy (c : XReg) (bw bp : Bool) : Statement (.tcopy c bw bp) := by
  intro w h; cases h; simp only [place, placeBit, placeNat]; have := Bool.toNat_lt bw; have := Bool.toNat_lt bp; have := jobQueue_le bw bp; omega

theorem jstat (d a : XReg) : Statement (.jstat d a) := by
  intro w h; cases h; simp only [place]; omega

theorem cld (c : BitVec 4) (a : XReg) : Statement (.cld c a) := by
  intro w h; cases h; simp only [place]; omega

theorem cst (c : BitVec 4) (a : XReg) : Statement (.cst c a) := by
  intro w h; cases h; simp only [place]; omega

theorem cadd (d a b : BitVec 4) : Statement (.cadd d a b) := by
  intro w h; cases h; simp only [place]; omega

theorem csub (d a b : BitVec 4) : Statement (.csub d a b) := by
  intro w h; cases h; simp only [place]; omega

theorem cneg (d a : BitVec 4) : Statement (.cneg d a) := by
  intro w h; cases h; simp only [place]; omega

theorem cmuli (d a : BitVec 4) (imm : BitVec 8) : Statement (.cmuli d a imm) := by
  intro w h; cases h; simp only [place]; omega

theorem caddp (d a : BitVec 4) (imm : BitVec 8) : Statement (.caddp d a imm) := by
  intro w h; cases h; simp only [place]; omega

theorem cmov (d a : BitVec 4) : Statement (.cmov d a) := by
  intro w h; cases h; simp only [place]; omega

theorem cmac (d a : BitVec 4) (imm : BitVec 8) : Statement (.cmac d a imm) := by
  intro w h; cases h; simp only [place]; omega

theorem crfn (d a : BitVec 4) (t : BitVec 3) : Statement (.crfn d a t) := by
  intro w h; cases h; simp only [place]; omega

theorem tld (t : BitVec 3) (a : XReg) : Statement (.tld t a) := by
  intro w h; cases h; simp only [place]; omega

theorem kpassOpen (d a : XReg) : Statement (.kpassOpen d a) := by
  intro w h; cases h; simp only [place]; omega

theorem kpassJoin (d a b : XReg) : Statement (.kpassJoin d a b) := by
  intro w h; cases h; simp only [place]; omega

theorem kpassRun (d a b : XReg) : Statement (.kpassRun d a b) := by
  intro w h; cases h; simp only [place]; omega

theorem kpassAbort (d a : XReg) : Statement (.kpassAbort d a) := by
  intro w h; cases h; simp only [place]; omega

theorem kpassStatus (d a : XReg) : Statement (.kpassStatus d a) := by
  intro w h; cases h; simp only [place]; omega

theorem cinfo (d : XReg) (c : BitVec 4) (sel : BitVec 3) : Statement (.cinfo d c sel) := by
  intro w h; cases h; simp only [place]; omega

theorem hurdleArrive (d a b : XReg) (scope : BitVec 3) : Statement (.hurdleArrive d a b scope) := by
  intro w h; cases h; simp only [place]; omega

theorem hurdleWait (d a b : XReg) (scope : BitVec 3) : Statement (.hurdleWait d a b scope) := by
  intro w h; cases h; simp only [place]; omega

theorem hurdleAw (d a b : XReg) (scope : BitVec 3) : Statement (.hurdleAw d a b scope) := by
  intro w h; cases h; simp only [place]; omega

theorem hurdleInit (d a b : XReg) (scope : BitVec 3) : Statement (.hurdleInit d a b scope) := by
  intro w h; cases h; simp only [place]; omega

theorem qpush (d a b : XReg) (scope : BitVec 3) : Statement (.qpush d a b scope) := by
  intro w h; cases h; simp only [place]; omega

theorem qpop (d a b : XReg) (scope : BitVec 3) : Statement (.qpop d a b scope) := by
  intro w h; cases h; simp only [place]; omega

theorem qpeek (d a b : XReg) (scope : BitVec 3) : Statement (.qpeek d a b scope) := by
  intro w h; cases h; simp only [place]; omega

theorem wmarkPub (d a b : XReg) (scope : BitVec 3) : Statement (.wmarkPub d a b scope) := by
  intro w h; cases h; simp only [place]; omega

theorem wmarkBind (d a : XReg) (scope : BitVec 3) : Statement (.wmarkBind d a scope) := by
  intro w h; cases h; simp only [place]; omega

theorem wmarkUnbind (a : XReg) : Statement (.wmarkUnbind a) := by
  intro w h; cases h; simp only [place]; omega

theorem pubv (d a b : XReg) : Statement (.pubv d a b) := by
  intro w h; cases h; simp only [place]; omega

theorem pubf (d a : XReg) : Statement (.pubf d a) := by
  intro w h; cases h; simp only [place]; omega

theorem stopr (d a : XReg) : Statement (.stopr d a) := by
  intro w h; cases h; simp only [place]; omega

theorem refchk (d a : XReg) : Statement (.refchk d a) := by
  intro w h; cases h; simp only [place]; omega

theorem refq (d a b : XReg) : Statement (.refq d a b) := by
  intro w h; cases h; simp only [place]; omega

theorem viewNew (hd : BitVec 4) (s t : XReg) : Statement (.viewNew hd s t) := by
  intro w h; cases h; simp only [place]; omega

theorem viewNarrow (ha : BitVec 4) (s t : XReg) : Statement (.viewNarrow ha s t) := by
  intro w h; cases h; simp only [place]; omega

theorem viewSplit (hd ha : BitVec 4) (s : XReg) : Statement (.viewSplit hd ha s) := by
  intro w h; cases h; simp only [place]; omega

theorem viewDup (hd ha : BitVec 4) : Statement (.viewDup hd ha) := by
  intro w h; cases h; simp only [place]; omega

theorem viewDrop (ha : BitVec 4) : Statement (.viewDrop ha) := by
  intro w h; cases h; simp only [place]; omega

theorem viewQuery (ha : BitVec 4) (s t : XReg) : Statement (.viewQuery ha s t) := by
  intro w h; cases h; simp only [place]; omega

theorem viewId (ha : BitVec 4) (s : XReg) : Statement (.viewId ha s) := by
  intro w h; cases h; simp only [place]; omega

theorem viewTake (ha : BitVec 4) (s : XReg) : Statement (.viewTake ha s) := by
  intro w h; cases h; simp only [place]; omega

theorem launch (d a : XReg) : Statement (.launch d a) := by
  intro w h; cases h; simp only [place]; omega

theorem launchInd (d a : XReg) : Statement (.launchInd d a) := by
  intro w h; cases h; simp only [place]; omega

theorem csrr (d : XReg) (csr : BitVec 12) : Statement (.csrr d csr) := by
  intro w h; cases h; simp only [place]; omega

theorem csrw (d a : XReg) (csr : BitVec 12) : Statement (.csrw d a csr) := by
  intro w h; cases h; simp only [place]; omega

theorem csrs (d a : XReg) (csr : BitVec 12) : Statement (.csrs d a csr) := by
  intro w h; cases h; simp only [place]; omega

theorem csrc (d a : XReg) (csr : BitVec 12) : Statement (.csrc d a csr) := by
  intro w h; cases h; simp only [place]; omega

theorem trap (code : BitVec 20) : Statement (.trap code) := by
  intro w h; cases h; simp only [place]; omega

theorem bkpt (code : BitVec 20) : Statement (.bkpt code) := by
  intro w h; cases h; simp only [place]; omega

theorem trace (a : XReg) (code : BitVec 15) : Statement (.trace a code) := by
  intro w h; cases h; simp only [place]; omega

theorem wcall (code : BitVec 20) : Statement (.wcall code) := by
  intro w h; cases h; simp only [place]; omega

theorem tlbiAs (a : XReg) : Statement (.tlbiAs a) := by
  intro w h; cases h; simp only [place]; omega

theorem tlbiVa (a b : XReg) : Statement (.tlbiVa a b) := by
  intro w h; cases h; simp only [place]; omega

theorem lapend : Statement .lapend := by
  intro w h; cases h; decide

theorem lapexit : Statement .lapexit := by
  intro w h; cases h; decide

theorem yield : Statement .yield := by
  intro w h; cases h; decide

theorem eret : Statement .eret := by
  intro w h; cases h; decide

theorem wfe : Statement .wfe := by
  intro w h; cases h; decide

theorem tlbiAll : Statement .tlbiAll := by
  intro w h; cases h; decide

theorem yieldSwitch : Statement .yieldSwitch := by
  intro w h; cases h

theorem clusterScrubDone : Statement .clusterScrubDone := by
  intro w h; cases h

theorem shootdownAck : Statement .shootdownAck := by
  intro w h; cases h

theorem stopAtPointerPair : Statement .stopAtPointerPair := by
  intro w h; cases h

theorem pendingFaultTake : Statement .pendingFaultTake := by
  intro w h; cases h

theorem vectorStart : Statement .vectorStart := by
  intro w h; cases h

theorem vectorRetire : Statement .vectorRetire := by
  intro w h; cases h

theorem worldSwitch : Statement .worldSwitch := by
  intro w h; cases h

theorem witnessCheck : Statement .witnessCheck := by
  intro w h; cases h

theorem streamFill : Statement .streamFill := by
  intro w h; cases h

theorem streamDrain : Statement .streamDrain := by
  intro w h; cases h

theorem deadlockProbe : Statement .deadlockProbe := by
  intro w h; cases h

theorem probeReturn : Statement .probeReturn := by
  intro w h; cases h

theorem jobStart : Statement .jobStart := by
  intro w h; cases h

theorem jobEnd : Statement .jobEnd := by
  intro w h; cases h

theorem stagedInputIssue : Statement .stagedInputIssue := by
  intro w h; cases h

theorem refreshStep : Statement .refreshStep := by
  intro w h; cases h

theorem sliceDelivery : Statement .sliceDelivery := by
  intro w h; cases h

theorem passEnd : Statement .passEnd := by
  intro w h; cases h

theorem passFault : Statement .passFault := by
  intro w h; cases h

theorem lapDispatch : Statement .lapDispatch := by
  intro w h; cases h

theorem poolAged : Statement .poolAged := by
  intro w h; cases h

theorem poolOverdue : Statement .poolOverdue := by
  intro w h; cases h

theorem admissionDecision : Statement .admissionDecision := by
  intro w h; cases h

theorem predecessorsComplete : Statement .predecessorsComplete := by
  intro w h; cases h

theorem launchPreempt : Statement .launchPreempt := by
  intro w h; cases h

theorem contextSave : Statement .contextSave := by
  intro w h; cases h

theorem contextRestore : Statement .contextRestore := by
  intro w h; cases h

theorem launchOverrunStop : Statement .launchOverrunStop := by
  intro w h; cases h

theorem deadlineStop : Statement .deadlineStop := by
  intro w h; cases h

theorem launchComplete : Statement .launchComplete := by
  intro w h; cases h

theorem hurdleWake : Statement .hurdleWake := by
  intro w h; cases h

theorem hurdleRecheck : Statement .hurdleRecheck := by
  intro w h; cases h

theorem hurdleWaitTimeout : Statement .hurdleWaitTimeout := by
  intro w h; cases h

theorem wfeWake : Statement .wfeWake := by
  intro w h; cases h

theorem wfeTimeout : Statement .wfeTimeout := by
  intro w h; cases h

theorem roundStart : Statement .roundStart := by
  intro w h; cases h

theorem roundStop : Statement .roundStop := by
  intro w h; cases h

theorem roundEnd : Statement .roundEnd := by
  intro w h; cases h

theorem recordSettle : Statement .recordSettle := by
  intro w h; cases h

theorem wmarkCopyUpdate : Statement .wmarkCopyUpdate := by
  intro w h; cases h

theorem cellFree : Statement .cellFree := by
  intro w h; cases h

theorem sectorRead : Statement .sectorRead := by
  intro w h; cases h

theorem domainAccessArrival : Statement .domainAccessArrival := by
  intro w h; cases h

theorem domainTimeout : Statement .domainTimeout := by
  intro w h; cases h

theorem traceTriggerFire : Statement .traceTriggerFire := by
  intro w h; cases h

theorem traceMarkerSend : Statement .traceMarkerSend := by
  intro w h; cases h

theorem traceMarkerReceive : Statement .traceMarkerReceive := by
  intro w h; cases h

theorem clockGate : Statement .clockGate := by
  intro w h; cases h

theorem enterRetention : Statement .enterRetention := by
  intro w h; cases h

theorem enterOff : Statement .enterOff := by
  intro w h; cases h

theorem clusterWake : Statement .clusterWake := by
  intro w h; cases h

theorem monitorRefresh : Statement .monitorRefresh := by
  intro w h; cases h

theorem voltageReset : Statement .voltageReset := by
  intro w h; cases h

theorem dieReset : Statement .dieReset := by
  intro w h; cases h

theorem packageReset : Statement .packageReset := by
  intro w h; cases h

theorem spdmGetVersion : Statement .spdmGetVersion := by
  intro w h; cases h

theorem spdmGetCapabilities : Statement .spdmGetCapabilities := by
  intro w h; cases h

theorem spdmNegotiateAlgorithms : Statement .spdmNegotiateAlgorithms := by
  intro w h; cases h

theorem spdmGetDigests : Statement .spdmGetDigests := by
  intro w h; cases h

theorem spdmGetCertificate : Statement .spdmGetCertificate := by
  intro w h; cases h

theorem spdmChallenge : Statement .spdmChallenge := by
  intro w h; cases h

theorem spdmGetMeasurements : Statement .spdmGetMeasurements := by
  intro w h; cases h

theorem spdmKeyExchange : Statement .spdmKeyExchange := by
  intro w h; cases h

theorem spdmFinish : Statement .spdmFinish := by
  intro w h; cases h

theorem unsupportedRequest : Statement .unsupportedRequest := by
  intro w h; cases h

theorem recoveryFrame : Statement .recoveryFrame := by
  intro w h; cases h

theorem bind : Statement .bind := by
  intro w h; cases h

theorem write : Statement .write := by
  intro w h; cases h

theorem read : Statement .read := by
  intro w h; cases h

theorem launchCommand : Statement .launchCommand := by
  intro w h; cases h

theorem status : Statement .status := by
  intro w h; cases h

theorem lock : Statement .lock := by
  intro w h; cases h

theorem unlock : Statement .unlock := by
  intro w h; cases h

theorem lockLeaseExpiry : Statement .lockLeaseExpiry := by
  intro w h; cases h

theorem domainSetRoute : Statement .domainSetRoute := by
  intro w h; cases h

theorem domainSetExport : Statement .domainSetExport := by
  intro w h; cases h

theorem quiesce : Statement .quiesce := by
  intro w h; cases h

theorem dump : Statement .dump := by
  intro w h; cases h

theorem restore : Statement .restore := by
  intro w h; cases h

theorem illegalWord : Statement .illegalWord := by
  intro w h; cases h

theorem fetchFault : Statement .fetchFault := by
  intro w h; cases h

theorem domainResponse : Statement .domainResponse := by
  intro w h; cases h

theorem refusedOptionPacket : Statement .refusedOptionPacket := by
  intro w h; cases h

theorem unlistedOpcode : Statement .unlistedOpcode := by
  intro w h; cases h

theorem pageReencryptionDone : Statement .pageReencryptionDone := by
  intro w h; cases h

end Sys2Proof.Laws.Fits
end

