-- ==== Sys2Proof/Tests/Slice0.lean ====
section
/-! SUPPORT. Tests of single steps and words, with results worked out from the manual, and for every statement with hypotheses a
state and operands that meet them. -/

namespace Sys2Proof.Tests

set_option maxRecDepth 100000
set_option Elab.async false

open Sys2Proof.Machine Sys2Proof.Safety

/-! Words -/

/-- Each word decodes to the instruction beside it. -/
def decodesAll (l : List (Nat × Instr)) : Bool :=
  l.all (fun e => match decodeWord (BitVec.ofNat 32 e.1) with | .ok i => i == e.2 | .error _ => false)

/-- No word of a list decodes. -/
def refusesAll (l : List Nat) : Bool :=
  l.all (fun w => match decodeWord (BitVec.ofNat 32 w) with | .ok _ => false | .error _ => true)

/-- No instruction of a list is well-formed. -/
def illAll (l : List Instr) : Bool := l.all (fun i => !i.legal)

theorem test_decode_scalar_alu_1 : decodesAll [
  (0xB6B80001, .add 22 26 28),
  (0x5B5C0081, .sub 11 13 14),
  (0xA9AE0101, .and 21 6 23),
  (0xD4D60181, .or 26 19 11),
  (0x6A6A0201, .xor 13 9 21),
  (0xB6B80281, .sll 22 26 28),
  (0x5B5C0301, .srl 11 13 14),
  (0xA9AE0381, .sra 21 6 23),
  (0xD4D60401, .slt 26 19 11),
  (0x6A6A0481, .sltu 13 9 21),
  (0xB6B80501, .min 22 26 28),
  (0x5B5C0581, .max 11 13 14),
  (0xA9AE0601, .minn 21 6 23),
  (0xD4D60681, .maxn 26 19 11),
  (0x6A6A0801, .mul 13 9 21),
  (0xB6B80881, .mulh 22 26 28),
  (0x5B5C0901, .mulhn 11 13 14),
  (0xA9AE0A01, .div 21 6 23),
  (0xD4D60A81, .divn 26 19 11),
  (0x6A6A0B01, .rem 13 9 21),
  (0xB6B80B81, .remn 22 26 28),
  (0x5B400C01, .clz 11 13),
  (0xA9800C81, .ctz 21 6),
  (0xD4C00D01, .popc 26 19),
  (0x6A699A82, .addi 13 9 21301),
  (0xB699AE03, .andi 22 26 13148)] = true := by decide

theorem test_decode_scalar_alu_2 : decodesAll [
  (0x5B4CD704, .ori 11 13 6574),
  (0xA9A66B85, .xori 21 6 19671),
  (0xD4D33586, .slti 26 19 9835),
  (0x6A699A87, .sltin 13 9 21301),
  (0xB6800E08, .slli 22 26 28),
  (0x5B501708, .srli 11 13 46),
  (0xA9A00B88, .srai 21 6 23),
  (0xD06CE989, .lih 26 55763),
  (0x6836748A, .pcrel 13 27881)] = true := by decide

theorem test_decode_scalar_memory : decodesAll [
  (0xB6B5C690, .ld 22 26 860 1 2 true),
  (0x5B5AEB11, .st 11 13 430 2 3),
  (0xA9AE0D12, .amoAdd 21 6 23 1 5 false),
  (0xD4D63292, .amoAnd 26 19 11 2 2 true),
  (0x6A6A5C12, .amoOr 13 9 21 3 4 false),
  (0xB6B86992, .amoXor 22 26 28 1 1 true),
  (0x5B5C9312, .amoMin 11 13 14 2 3 false),
  (0xA9AEAD92, .amoMax 21 6 23 1 5 true),
  (0xD4D6D212, .amoMinn 26 19 11 2 2 false),
  (0x6A6AFC92, .amoMaxn 13 9 21 3 4 true),
  (0xB6B90912, .amoSwap 22 26 28 1 1 false),
  (0x5B5C1393, .cas 11 13 14 2 3 true),
  (0x00001D14, .fence 3 5),
  (0x00002214, .fenceSc 2),
  (0x014D2995, .sbar 170579)] = true := by decide

theorem test_decode_control : decodesAll [
  (0xB681AE18, .brEq 22 26 860),
  (0x5B4CD718, .brNe 11 13 2478),
  (0xA9966B98, .brLt 21 6 3287),
  (0xD4DB3598, .brGe 26 19 1643),
  (0x6A619A98, .brLtn 13 9 821),
  (0xB6A9AE18, .brGen 22 26 860),
  (0x59B3A699, .jal 11 223053),
  (0xA9A66B9A, .jalr 21 6 19671),
  (0xD69D901B, .loop 26 211 44 2),
  (0x0000001C, .lapend),
  (0x0000001D, .lapexit),
  (0x02B0001E, .nextPerElement 43),
  (0x000A809E, .nextUniform 21),
  (0x0000001F, .yield)] = true := by decide

theorem test_decode_vector_config : decodesAll [
  (0xB6B80020, .vsetvl 22 26 28),
  (0x58B3A6A2, .vcfg 11 91981),
  (0xD408C021, .vtag 53 17)] = true := by decide

theorem test_decode_vector_arithmetic : decodesAll [
  (0x693AF024, .vadd 26 19 43 6 false),
  (0xB69D5CA4, .vaddSub 45 41 53 3 true),
  (0x59A72924, .vaddRsub 22 26 28 5 false),
  (0xACDB95A4, .vaddAdds 43 13 46 2 true),
  (0xD665EA24, .vaddSubs 53 38 23 5 false),
  (0x693AF6A4, .vaddAbsd 26 19 43 6 true),
  (0xB69D5825, .vmul 45 41 53 3 false),
  (0x59A72CA5, .vmulMulh 22 26 28 5 true),
  (0xACDB9125, .vmulMulhn 43 13 46 2 false),
  (0xD665EDA5, .vmulDiv 53 38 23 5 true),
  (0x693AF225, .vmulRem 26 19 43 6 false),
  (0xB69D5C26, .vfma 45 41 53 3 true),
  (0x59A728A6, .vfmaFms 22 26 28 5 false),
  (0xACDB9526, .vfmaFnma 43 13 46 2 true),
  (0xD665E9A6, .vfmaFnms 53 38 23 5 false),
  (0x693AF427, .vminmaxMin 26 19 43 6 true),
  (0xB69D58A7, .vminmaxMax 45 41 53 3 false),
  (0x59A72D27, .vminmaxMinnum 22 26 28 5 true),
  (0xACDB91A7, .vminmaxMaxnum 43 13 46 2 false)] = true := by decide

theorem test_decode_vector_compare_convert_modular : decodesAll [
  (0xD665EC28, .vlogicAnd 53 38 23 5 true),
  (0x693AF0A8, .vlogicOr 26 19 43 6 false),
  (0xB69D5D28, .vlogicXor 45 41 53 3 true),
  (0x59A729A8, .vlogicAndn 22 26 28 5 false),
  (0xACDB9628, .vlogicSll 43 13 46 2 true),
  (0xD665EAA8, .vlogicSrl 53 38 23 5 false),
  (0x693AF728, .vlogicSra 26 19 43 6 true),
  (0x0E9D5829, .vcmpEq 3 41 53 3 false),
  (0x25A72CA9, .vcmpNe 9 26 28 5 true),
  (0x18DB9129, .vcmpLt 6 13 46 2 false),
  (0x2E65EDA9, .vcmpLe 11 38 23 5 true),
  (0x053AF229, .vcmpGt 1 19 43 6 false),
  (0x0E9D5EA9, .vcmpGe 3 41 53 3 true),
  (0x25A72B29, .vcmpUnord 9 26 28 5 false),
  (0xACDB942A, .vsel 43 13 46 2),
  (0xD6603C2B, .vcvt 53 38 7 true),
  (0x693018AB, .vcvtSat 26 19 3 false),
  (0xB69D592B, .vcvtBlk 45 41 53 3 false),
  (0x59A3EDAB, .vcvtScale 22 26 15 5 true)] = true := by decide

theorem test_decode_vector_scalar_sfu : decodesAll [
  (0xACDB902C, .vmodAddm 43 13 46 2 false),
  (0xD665ECAC, .vmodSubm 53 38 23 5 true),
  (0x693AF12C, .vmodMulm 26 19 43 6 false),
  (0xB69D5DAC, .vmodMacm 45 41 53 3 true),
  (0x59AE742D, .vxAdd 22 26 28 true 6 true),
  (0xACD718AD, .vxSub 43 13 14 false 3 false),
  (0xD66BED2D, .vxMul 53 38 23 true 5 true),
  (0x693591AD, .vxMin 26 19 11 false 2 false),
  (0xB69AEE2D, .vxMax 45 41 21 true 5 true),
  (0x59AE32AD, .vxAnd 22 26 28 false 6 false),
  (0xACD75F2D, .vxOr 43 13 14 true 3 true),
  (0xD66BABAD, .vxFma 53 38 23 false 5 false),
  (0x69301C2E, .vsfuExp2 26 19 3 true),
  (0xB69028AE, .vsfuLog2 45 41 5 false),
  (0x59A0252E, .vsfuRcp 22 26 4 true),
  (0xACD031AE, .vsfuRsq 43 13 6 false),
  (0xD6603E2E, .vsfuSqrt 53 38 7 true),
  (0x693AF6AE, .vsfuRcpstep 26 19 43 6 true),
  (0xB69D5B2E, .vsfuRsqstep 45 41 53 3 false),
  (0x59A72C2F, .vsmaxUpd 22 26 28 5 true),
  (0xACDB90AF, .vsmaxNorm 43 13 46 2 false)] = true := by decide

theorem test_decode_reduce_slide_permute : decodesAll [
  (0xD6603830, .vredSum 53 38 7 false),
  (0x69301CB0, .vredMin 26 19 3 true),
  (0xB6902930, .vredMax 45 41 5 false),
  (0x59A025B0, .vredAnd 22 26 4 true),
  (0xACD03230, .vredOr 43 13 6 false),
  (0xD6603EB0, .vredXor 53 38 7 true),
  (0x693AF730, .vredWsum 26 19 43 6 true),
  (0xB69AEC31, .vslideUp 45 41 21 true 5 true),
  (0x59AE30B1, .vslideDown 22 26 28 false 6 false),
  (0xACD75D31, .vslideRot 43 13 14 true 3 true),
  (0xD665EC32, .vperm 53 38 23 5 true),
  (0x69301C33, .vcompCompress 26 19 3),
  (0xB6902CB3, .vcompExpand 45 41 5),
  (0x58B02533, .vcompIota 22 11 4 true),
  (0xAC1031B3, .vcompCidx 43 1 6),
  (0xD6601C34, .vbflyH 53 38 7),
  (0x69302CB4, .vbflyHF 26 19 11),
  (0xB69D6D34, .vbflyCt 45 41 53 11),
  (0x59A715B4, .vbflyGs 22 26 28 5)] = true := by decide

theorem test_decode_butterfly_digits_moves : decodesAll [
  (0xACD75F35, .vdecomp 43 13 14 true 3 true 6),
  (0xD6603836, .vmv 53 38 7 false),
  (0x6809B0B6, .vmvBcast 26 19 false 6 false),
  (0x02D4A936, .vmvTox 9 45 5),
  (0x580D29B6, .vmvFromx 22 26 false 5 false),
  (0xAC002E36, .vmvWid 43 5 true),
  (0x03517C37, .ehistAcc 53 2 7 true),
  (0x680158B7, .ehistRead 26 2 3),
  (0x0004C937, .ehistClr 9 1)] = true := by decide

theorem test_decode_histogram_masks : decodesAll [
  (0x9B100038, .mlogAnd 9 11 1),
  (0x61304038, .mlogOr 6 1 3),
  (0xB3908038, .mlogXor 11 3 9),
  (0x1960C038, .mlogAndn 1 9 6),
  (0x36B10038, .mlogOrn 3 6 11),
  (0x9B114038, .mlogXnor 9 11 1),
  (0x61018038, .mlogNot 6 1),
  (0x03000C39, .mcnt 6 3),
  (0x09006639, .mcntFirst 19 9),
  (0x0600123A, .msetvl 9 6),
  (0x9B00003B, .mmv 9 11),
  (0x6000403B, .mmvSet 6),
  (0xB000803B, .mmvClr 11)] = true := by decide

theorem test_decode_vector_memory : decodesAll [
  (0x6A6004C0, .vld 26 19 false true false),
  (0xB52A9240, .vldS 45 9 21 false false true),
  (0x5B4E2CC0, .vldX 22 26 28 true true false),
  (0xADA00841, .vst 43 13 true false false),
  (0xD4CB9EC1, .vstS 53 6 23 true true true),
  (0x6A75A241, .vstX 26 19 43 false false true),
  (0xB53A8CC2, .vamoAdd 45 9 53 true true false),
  (0x5B4E1042, .vamoAnd 22 26 28 false false false),
  (0xADB72EC2, .vamoOr 43 13 46 true true true),
  (0xD4CBB242, .vamoXor 53 6 23 false false true),
  (0x6A75CCC2, .vamoMin 26 19 43 true true false),
  (0xB53AD042, .vamoMax 45 9 53 false false false),
  (0x5B4E6EC2, .vamoSwap 22 26 28 true true true),
  (0x2DA00A43, .mld 11 13 true false true),
  (0x04C004C4, .mst 1 6 false true false),
  (0xDA600045, .sbind 6 19),
  (0xF4000046, .sunbind 13)] = true := by decide

theorem test_decode_batons_jobs : decodesAll [
  (0x000004C7, .btnWait 1),
  (0x00000347, .btnPost 2),
  (0x000007C7, .btnWaitPost 3),
  (0xD3800548, .tmma 26 7 true false),
  (0x6F8003C9, .tcvt 13 false true),
  (0xB780054A, .tcopy 22 true false),
  (0x5B40004B, .jstat 11 13)] = true := by decide

theorem test_decode_ciphertext : decodesAll [
  (0x59800050, .cld 11 6),
  (0x5CC00051, .cst 11 19),
  (0xD9500052, .cadd 13 9 5),
  (0x6AC000D2, .csub 6 10 12),
  (0xBD000152, .cneg 11 13),
  (0x560D71D2, .cmuli 5 6 215),
  (0xA306B252, .caddp 10 3 107),
  (0xD90002D2, .cmov 13 9),
  (0x6A05C352, .cmac 6 10 92),
  (0xBD005053, .crfn 11 13 5),
  (0x29800054, .tld 5 6),
  (0xD4C00055, .kpassOpen 26 19),
  (0x6A6A00D5, .kpassJoin 13 9 21),
  (0xB6B80155, .kpassRun 22 26 28),
  (0x5B4001D5, .kpassAbort 11 13),
  (0xA9800255, .kpassStatus 21 6),
  (0xD2C002D6, .cinfo 26 11 5)] = true := by decide

theorem test_decode_synchronisation : decodesAll [
  (0x6A6A0458, .hurdleArrive 13 9 21 4),
  (0xB6B82158, .hurdleWait 22 26 28 1),
  (0x5B5C4358, .hurdleAw 11 13 14 3),
  (0xA9AE6558, .hurdleInit 21 6 23 5),
  (0xD4D60259, .qpush 26 19 11 2),
  (0x6A6A2459, .qpop 13 9 21 4),
  (0xB6B84159, .qpeek 22 26 28 1),
  (0x5B5C035A, .wmarkPub 11 13 14 3),
  (0xA980255A, .wmarkBind 21 6 5),
  (0x0680405A, .wmarkUnbind 26),
  (0x6A6A005B, .pubv 13 9 21),
  (0xB680205B, .pubf 22 26),
  (0x5B40405B, .stopr 11 13),
  (0xA980605B, .refchk 21 6),
  (0xD4D6805B, .refq 26 19 11),
  (0xD04D405C, .viewNew 13 9 21),
  (0x06D7085C, .viewNarrow 6 26 28),
  (0xBD70105C, .viewSplit 11 13 14),
  (0x5600185C, .viewDup 5 6),
  (0x0A00205C, .viewDrop 10),
  (0x0D4D685C, .viewQuery 13 9 21),
  (0x16D0285C, .viewId 6 26),
  (0x2B68285C, .viewTake 11 13),
  (0xA980005D, .launch 21 6),
  (0xD4C000DD, .launchInd 26 19)] = true := by decide

theorem test_decode_system : decodesAll [
  (0x68019560, .csrr 13 405),
  (0xB6910C60, .csrw 22 26 268),
  (0x5B600260, .csrs 11 13 2),
  (0xA9B1C860, .csrc 21 6 456),
  (0x005AD6E1, .trap 46509),
  (0x00000062, .eret),
  (0x02D6B5E3, .bkpt 372075),
  (0x0559D364, .trace 21 13222),
  (0x00000065, .wfe),
  (0x005AD6E6, .wcall 46509),
  (0x05800067, .tlbiAs 22),
  (0x02DA00E7, .tlbiVa 11 13),
  (0x00000167, .tlbiAll)] = true := by decide

/-- Words of R28: an opcode that is not assigned, a function, a kind and a condition not listed, zero fields that are not zero, baton and
ordering fields that break R19 to R21, a fixed word with one bit more, and CSR numbers that are not assigned or not writable. -/
theorem test_decode_refuses_illegal_words : refusesAll [0x00000000, 0x0000007F, 0xFFFFFFFF, 0x31820701, 0x318A0C01, 0x28106008,
  0x28300018, 0x0000009C, 0x00000015, 0x00000014, 0x00000047, 0x00002960, 0x00100160, 0x0402407F, 0x000A4021, 0x040CC021,
  0x00000045, 0x00000046] = true := by decide

/-- A term that breaks the limits of its constructor, one for each check of WellFormed. -/
theorem test_wellformed_refuses : illAll [.ld 1 2 0 0 3 true, .amoAdd 1 2 3 0 6 true, .amoAnd 1 2 3 0 6 true, .amoOr 1 2 3 0 7 true,
  .amoXor 1 2 3 0 6 true, .amoMin 1 2 3 0 6 true, .amoMax 1 2 3 0 6 true, .amoMinn 1 2 3 0 6 true, .amoMaxn 1 2 3 0 6 true,
  .amoSwap 1 2 3 0 6 true, .cas 1 2 3 0 6 true, .fence 0 1, .fence 1 6, .fenceSc 6, .sbar 0, .sbar 0x40000, .loop 1 0 0 1,
  .loop 1 0 41 1, .loop 1 0 63 1, .vtag 1 0x13, .vcmpEq 12 1 2 7 false, .vcmpNe 12 1 2 7 false, .vcmpLt 12 1 2 7 false,
  .vcmpLe 12 1 2 7 false, .vcmpGt 12 1 2 7 false, .vcmpGe 12 1 2 7 false, .vcmpUnord 12 1 2 7 false, .vcvtScale 1 2 1 7 false,
  .vcompIota 1 12 7 false, .vcompCidx 1 12 7, .ehistRead 1 4 7, .ehistClr 7 7, .ehistClr 16 7, .mlogAnd 12 0 0, .mlogOr 0 12 0,
  .mlogXor 0 0 12, .mlogAndn 12 0 0, .mlogOrn 0 12 0, .mlogXnor 0 0 12, .mlogNot 0 12, .mmv 12 0, .mcnt 1 12, .mcntFirst 1 12,
  .msetvl 1 12, .mmvSet 12, .mmvClr 12, .mld 12 1 false false false, .mst 12 1 false false false, .btnWait 2, .btnPost 3,
  .btnWaitPost 2, .tmma 1 12 false false, .hurdleArrive 1 2 3 6, .hurdleWait 1 2 3 6, .hurdleAw 1 2 3 6, .hurdleInit 1 2 3 6,
  .qpush 1 2 3 6, .wmarkPub 1 2 3 6, .wmarkBind 1 2 6, .qpop 1 2 1 0, .qpop 1 2 3 6, .qpeek 1 2 1 0, .qpeek 1 2 3 6, .refq 1 2 1,
  .csrr 1 0x014, .csrw 1 2 0x001, .csrs 1 2 0x007, .csrc 1 2 0x300] = true := by decide

/-- An event with a signal of another shape, or of a cluster that no die has, is no event. -/
theorem test_signal_refuses : (¬ Signal.WellFormed .wfeWake (.port 0)) ∧ (¬ Signal.WellFormed .clockGate (.clu 0 40)) ∧
    Signal.WellFormed .clockGate (.clu 3 39) := by decide

/-! States for the witnesses: the context of turn 0 runs in the own scratchpad of its cluster. -/

def s0 : State := State.reset.withFetchWord 32 0
/-- That state with its context changed. -/
def fr (f : Ctx → Ctx) : State := onCtx s0 0 f
/-- With trap CSRs, at a level and in a world. -/
def at_ (l : Level) (sec : Bool) : State := fr fun x =>
  { x with level := l, secure := sec, trapK := { x.trapK with vec := 0x7F0000001000 }, trapH := { x.trapH with vec := 0x1000 } }
/-- A place of the scratchpad of cluster 0. -/
def pad (off : Nat) : Place := { key := padKey 0 off, pa := none, far := false, dev := false, nsp := false, raw := false }
/-- A launch of one leg in its first round. -/
def l1 : Launch :=
  { header := List.replicate 32 0, legs := [List.replicate 16 0], indirect := false, part := 0, asid := 0, secure := false, admitted := 0,
    promise := 0, clusters := [0], ready := true, count := 3, clamp := false, raw := 0, cut := 3, retired := 0, lost := 0, killed := 0,
    work := 0, near := 0, far := 0, recov := 0, overran := 0, stopped := none, round := 1, roundOn := true, restop := false, bound := [],
    versions := [], preempted := [], byHw := false }
/-- A context of that launch with two elements whose successors stand in v20. -/
def nx (a b : Nat) : State :=
  let s := fr fun x => { (x.setV 20 (BitVec.ofNat 16384 (a + 65536 * b))).setX 6 (BitVec.ofNat 64 a) with
    work := { x.work with launch := 7, nd := 2, l0 := 40, wids := [5, 6] } }
  onDie s 0 (fun d => { d with launches := [(7, l1)] })

/-- A context whose x8 names a byte of the scratchpad, with a lap that buffers or not. -/
def mm (buffering : Bool) : State := fr fun x => { (x.setX 8 (BitVec.ofNat 64 ownWindow)).setX 9 5 with lap := { x.lap with buffering := buffering } }

/-! Witnesses: a state and operands that meet the hypotheses of a statement, for each clause that has its own -/

theorem wit_EncodedWordDecodesBack :
    (Instr.sbar 0x3FFFF).WellFormed ∧ (Instr.sbar 0x3FFFF).encode = some 0x1FFFF95 ∧ (Instr.csrw 31 31 0x1E8).WellFormed ∧
    (Instr.csrw 31 31 0x1E8).encode = some 0xFFD1E860 := by decide

theorem wit_DecodedWordEncodesBack : decodeWord 0x07FFFFE3 = .ok (.bkpt 0xFFFFF) ∧ decodeWord 0x00000167 = .ok .tlbiAll :=
  ⟨rfl, rfl⟩

theorem wit_ScalarFormsComputeTheirTables :
    aluResult (me s0).x (.div 31 1 0) = some (31, 0xFFFFFFFFFFFFFFFF) ∧ immResult (me s0).x (me s0).pc (.lih 0 0x80000) =
      some (0, BitVec.ofInt 64 (-2 ^ 34)) := by decide

theorem wit_TransfersMoveThePc :
    branch (me s0).x (.brEq 1 0 0x800) = some (true, 0x800) ∧ branch (me s0).x (.brLtn 1 1 0x7FF) = some (false, 0x7FF) ∧
    ((me s0).x 1 + BitVec.ofInt 64 (0x7FFC#15).toInt).toNat % 4 = 0 ∧ ((me s0).x 1 + BitVec.ofInt 64 (0x7FFF#15).toInt).toNat % 4 ≠ 0 ∧
    plain (me s0) ∧ traced s0 s0.turn = false := by decide

theorem wit_VectorConfigurationSetsLengthAndTypes :
    ((0x129#17).toNat / 64 % 8 ≠ 0 ∧ (0x129#17).toNat / 4 % 8 ≤ 4) ∧ ¬ ((0x129#17 &&& 0x1FE3F#17).toNat / 64 % 8 ≠ 0) ∧
    ¬ ((0x175#17).toNat / 4 % 8 ≤ 4) := by decide

theorem wit_LoopOpensItsFirstLap : plain (me s0) ∧ (me s0).lap.buf = [] ∧ (me s0).loop.active = false := by decide

theorem wit_LapsCloseAndRepeat :
    let a (rem vl : Nat) := me (fr fun x => { x with loop := { x.loop with active := true, laprem := rem }, csr := { x.csr with vl := vl } })
    (plain (me s0) ∧ (me s0).lap.buf = [] ∧ (me s0).loop.active = false) ∧
    (plain (a 5 5) ∧ (a 5 5).lap.buf = [] ∧ (a 5 5).loop.active = true ∧ (a 5 5).loop.laprem - min (a 5 5).vl 5 = 0) ∧
    (plain (a 6 5) ∧ (a 6 5).lap.buf = [] ∧ (a 6 5).loop.active = true ∧ (a 6 5).loop.laprem - min (a 6 5).vl 6 = 1) := by decide

theorem wit_NextHandsItsElementsOver :
    (let s := nx 1 0
     plain (me s) ∧ (me s).lap.buf = [] ∧ (me s).loop.active = false ∧ (me s).pass = none ∧ noUnits s ∧ settled s ∧
     (launchOf s s.turn).map (fun l => (l.restop, l.legs.length)) = some (false, 1) ∧
     ((me s).x 6).toNat ≤ 1 ∧ ∀ k : Fin 2, regField ((me s).v ((20 + k.val / 1024) % 64)) (k.val % 1024 * 16) 16 ≤ 1) ∧
    (let s := nx 1 2
     plain (me s) ∧ (me s).lap.buf = [] ∧ noUnits s ∧ regField ((me s).v 20) 16 16 = 2 ∧ regField ((me s).v 20) 0 16 ≤ 1 ∧
     traced s s.turn = false) := by decide

theorem wit_LoadsReturnTheBytesTheyAddress : mayAccess (mm false) .load (ownWindow + 0xF8) 8 (pad 0xF8) ∧
    ((me (mm false)).x 8 + BitVec.ofInt 64 (0x0F8#10).toInt).toNat = ownWindow + 0xF8 := by decide

/-- An acquiring LD of a context whose bound load stream holds an entry that it has read ahead. -/
theorem wit_LoadsReturnTheBytesTheyAddress_acquire :
    let en : StreamEntry := { bits := 7, first := 0, live := 1, from_ := 0, fault := none, dev := false }
    let st : Stream := { base := 0, stride := 4, count := 5, strip := 4, width := 32, store := false, device := false, pos := 0, fill := 4,
                         entries := [en] }
    let s := onCtx (mm false) 0 (fun x => { x with streams := [(63, st)] })
    (2 : BitVec 2) ≠ 0 ∧ mayAccess s .load (ownWindow + 0xF8) 8 (pad 0xF8) ∧
    ((me s).x 8 + BitVec.ofInt 64 (0x0F8#10).toInt).toNat = ownWindow + 0xF8 ∧
    (me s).discardLoads.streams.map (fun e => (e.2.entries, e.2.fill)) = [([], 0)] := by decide

theorem wit_StoresWriteTheBytesTheyAddress : mayAccess (mm false) .store (ownWindow + 0x1FF) 1 (pad 0x1FF) ∧
    ((me (mm false)).x 8 + BitVec.ofInt 64 (0x1FF#10).toInt).toNat = ownWindow + 0x1FF ∧ unbuffered (me (mm false)) ∧
    plain (me (mm false)) := by decide

theorem wit_BufferedStoresAreSeenByTheirContextAlone : mayAccess (mm true) .store (ownWindow + 0xF8) 8 (pad 0xF8) ∧
    (me (mm true)).lap.buffering = true ∧ (me (mm true)).lap.buf.length + 8 ≤ 32768 := by decide

theorem wit_AtomicsReadModifyAndWrite :
    (atomicRule (me (mm false)).x (.cas 5 8 9 3 5 false)).map (fun r => (r.1, r.2.1, r.2.2.1)) = some (5, 8, 4) ∧
    (Instr.cas 5 8 9 3 5 false).WellFormed ∧
    reach (mm false) 0 (frontAgent (mm false) 0) .atomic ownWindow 4 4 true (frontQuiet (me (mm false))) = .ok (pad 0) ∧
    sectorState (mm false) (pad 0) = none ∧ (pad 0).dev = false ∧ (pad 0).raw = false ∧ unbuffered (me (mm false)) ∧
    plain (me (mm false)) := by decide

theorem wit_MisalignedScalarAccessesTrap : accessOf (me (mm false)).x (.ld 1 8 4 0 3 false) = some (BitVec.ofNat 64 (ownWindow + 4), 8) ∧
    (ownWindow + 4) % 8 ≠ 0 ∧ accessOf (me (mm false)).x (.st 1 8 1 0 1) = some (BitVec.ofNat 64 (ownWindow + 1), 2) ∧
    accessOf (me (mm false)).x (.cas 1 9 8 0 0 false) = some (5, 4) ∧ plain (me (mm false)) ∧ traced (mm false) 0 = false := by decide

theorem wit_FencesCommitTheLapStoreBuffer :
    let s := onCtx (mm true) 0 (fun x => { x with lap := { x.lap with buf := bufferBytes [] (ownWindow + 0x118) (wholeBytes [1, 2, 3]) } })
    (plain (me (mm true)) ∧ (me (mm true)).lap.buf = []) ∧
    plain (me s) ∧ runs (me s).lap.buf = [(ownWindow + 0x118, wholeBytes [1, 2, 3])] ∧
    locate s (frontAgent s s.turn) (ownWindow + 0x118) ≠ .domain ∧ sectorState s (pad 0x118) = none := by decide

theorem wit_FencesCommitTheLapStoreBuffer_place :
    Machine.decide (mm true) (frontAgent (mm true) 0) .store (ownWindow + 0x118) = .ok (pad 0x118) := rfl

theorem wit_FrontBatonsMoveTokens :
    let s := fr fun x => { x with batons := [(2, 3), (3, 1)] }
    plain (me s) ∧ (me s).lap.buf = [] ∧ noUnits s ∧ (me s).reserve = [] ∧ get 0 (me s).batons 3 = 1 ∧ get 0 (me s).batons 2 = 3 := by
  decide

/-- The debug unit holds authority over both worlds, and halt-on-breakpoint is set. -/
def dbg (l : Level) : State :=
  onClu (onPkg (at_ l false) (fun p => { p with dbgauth := 0xA })) 0 (fun k => { k with trace := { k.trace with dbgctl := true, dbgreq := 0x1000 } })

theorem wit_CsrReadsGiveTheRegister :
    granted (dbg .k) 0x262 false ∧ below (me (dbg .k)) (leastLevel 0x262) = false ∧ granted (at_ .u false) 0x000 false ∧
    below (me (at_ .u false)) (leastLevel 0x000) = false ∧ below (me (at_ .k false)) (leastLevel 0x33F) = false ∧
    below (me (at_ .m true)) (leastLevel 0x1FF) = false ∧ (me (at_ .m true)).held = none := by
  simp only [granted]
  decide

theorem wit_CsrWritesReadBack :
    (csrAfter (me (at_ .u false)) 8 0x000 0x8000).isSome = true ∧ below (me (at_ .u false)) (leastLevel 0x000) = false ∧
    (csrAfter (me (at_ .m true)) 8 0x1C8 1).isSome = true ∧ below (me (at_ .m true)) (leastLevel 0x1C8) = false ∧
    (coreAt (at_ .u false) 0).groups = 8 ∧ (me (at_ .u false)).lap.trim = none ∧ (me (at_ .u false)).held = none ∧
    (∀ n ∈ [0x10D, 0x200, 0x217, 0x218, 0x223, 0x262], (unitCsrAfter (dbg .k) n 0x38).isSome = true ∧
      below (me (dbg .k)) (leastLevel n) = false ∧ granted (dbg .k) n true) ∧
    (∀ n ∈ [0x189, 0x1C9, 0x1CC, 0x1E0], (unitCsrAfter (at_ .m true) n 0x38).isSome = true ∧
      below (me (at_ .m true)) (leastLevel n) = false ∧ granted (at_ .m true) n true) := by
  simp only [granted]
  decide

theorem wit_PrivilegedFormsTrapBelowTheirLevel :
    privilegedForm (.csrr 1 0x1FF) = some .m ∧ below (me (at_ .h false)) .m = true ∧ privilegedForm .tlbiAll = some .k ∧
    below (me (at_ .u true)) .k = true ∧ plain (me (at_ .h false)) ∧ plain (me (at_ .u true)) ∧ traced (at_ .u true) 0 = false ∧
    traced (at_ .h false) 0 = false ∧ privilegedForm (.csrr 1 0x33F) = some .k ∧ grantOf (at_ .k false) (me (at_ .k false)).secure = 0 ∧
    plain (me (at_ .k false)) ∧ traced (at_ .k false) 0 = false := by decide

theorem wit_TrapsEnterTheirHandler :
    plain (me (at_ .u false)) ∧ traced (at_ .u false) 0 = false ∧ below (me (at_ .k false)) .k = false ∧
    below (me (at_ .u false)) .k = true ∧ mayControl (at_ .u false) 0 = false ∧ plain (me (dbg .u)) ∧ traced (dbg .u) 0 = false ∧
    mayControl (dbg .u) 0 = true ∧ (cluAt (dbg .u) 0).trace.dbgctl = true ∧ frontFree (me (dbg .u)) = true := by decide

theorem wit_StopsOfThePointerPairAreTaken :
    (∀ g ∈ [Signal.word 0x7F, Signal.fetch 0x05, Signal.fetch (BitVec.ofNat 8 cMemue), Signal.fetch (BitVec.ofNat 8 cIntegrity)], let s := { s0 with signal := g }
     plain (me s) ∧ traced s s.turn = false) ∧
    (∀ j : Bool, let f : PendFault := { code := 0x14, val := 3, job := j, order := 7 }
     let s := fr fun x => { x with pend := [f] }
     plain { me s with pend := [] } ∧ (me s).pend = [f] ∧ (me s).inHandler = false ∧
     frontFree (me s) = true ∧ (me s).halting = none ∧ traced s 0 = false ∧ (cluAt s 0).trace.dbgreq ≠ 0x1000 ||| (0 : CtxId).setWidth 16) ∧
    (plain (me (dbg .u)) ∧ frontFree (me (dbg .u)) = true ∧ traced (dbg .u) 0 = false ∧ mayControl (dbg .u) 0 = true ∧
     (cluAt (dbg .u) 0).trace.dbgreq = 0x1000 ||| (0 : CtxId).setWidth 16) ∧
    ∀ act : Fin 8, let s := onClu (dbg .u) 0 (fun k => { k with trace := { k.trace with due := [0], seq := [(0, BitVec.ofNat 64 (act.val * 2 ^ 7))] } })
     let t := (cluAt s (cluKey 0 0)).trace
     t.due = [0] ∧ bitsOf (get 0 t.seq (t.ctl.toNat / 4 % 4)).toNat 7 3 = act.val ∧ plain (ctxAt s 0) ∧
       frontFree (ctxAt s 0) = true ∧ mayControl s 0 = true := by decide

theorem wit_EretReturnsToTheSavedPoint :
    (let s := onCtx (at_ .h false) 0 (fun x => { x with trapH := { x.trapH with stat := 0x82, es := 0x7FFF } })
     (me s).level ≠ .u ∧ (Level.ofNum (((me s).trap (me s).level).stat.toNat % 4)).num ≤ (me s).level.num ∧
     bitsOf ((me s).trap (me s).level).stat.toNat 16 8 = 0) ∧
    (∀ n ∈ [1, 40, 41], let s := onCtx (at_ .k false) 0 (fun x =>
       { x with trapK := { x.trapK with stat := BitVec.ofNat 64 (n * 2 ^ 16), dump := BitVec.ofNat 64 (ownWindow + 0x4000) } })
     (me s).level ≠ .u ∧ (Level.ofNum (((me s).trap (me s).level).stat.toNat % 4)).num ≤ (me s).level.num ∧
     bitsOf ((me s).trap (me s).level).stat.toNat 16 8 = n ∧ ((me s).trap (me s).level).dump.toNat = ownWindow + 0x4000 ∧ s.pkg.reenc = none ∧
     (∀ k : Fin 40, dumpAway s s.turn .k (ownWindow + 0x4000 + 64 * k.val) = false ∧
       dumpPlace s s.turn .k .load (ownWindow + 0x4000 + 64 * k.val) = some (pad (0x4000 + 64 * k.val)) ∧
       (pad (0x4000 + 64 * k.val)).raw = false ∧ sectorState s (pad (0x4000 + 64 * k.val)) = none) ∧ plain (me s) ∧ traced s s.turn = false) ∧
    (let s := onCtx (at_ .k false) 0 (fun x => { x with trapK := { x.trapK with stat := 2 } })
     (me s).level.num < (Level.ofNum (((me s).trap (me s).level).stat.toNat % 4)).num ∧ plain (me s) ∧ traced s s.turn = false) := by
  decide +kernel

theorem wit_HintsGoOnAndWaitsEnd :
    traced s0 0 = false ∧ (ctxAt (fr fun x => { x with park := .wfe 0 true }) 0).park = .wfe 0 true ∧
    0 ≤ cycleOf (fr fun x => { x with park := .wfe 0 false }) 0 := by decide

/-- A kernel context whose x9 names an address space of its partition. -/
def tl : State := onDie (onCtx (at_ .k false) 0 (fun x => (x.setX 9 3).setX 10 0x40000000)) 0 (fun d =>
  { d with aspaces := [(3, { part := 0, image := 0x10000, root := 0 })] })

theorem wit_ShootdownsReloadWhatTheyName :
    (plain (me tl) ∧ (me tl).lap.buf = [] ∧ tl.defer = false ∧ (me tl).level ≠ .u ∧ (dieAt tl 0).shoots = [] ∧
     (dieAt tl 0).shootAsks = [] ∧ settled tl ∧ tl.turn < 4096 ∧
     (find? (dieAt tl 0).aspaces ((me tl).x 9).toNat).map ASpace.part = some (me tl).partid) ∧
    (let h (n : Nat) : Shoot := { ctx := 0, fn := 0, asid := 3, va := 0, acked := span 0 n }
     (159 ∉ (h 158).acked ∧ (h 158).acked.length + 1 ≠ 160) ∧ 159 ∉ (h 159).acked ∧ (h 159).acked.length + 1 = 160) := by decide

theorem wit_ShootdownsReloadWhatTheyName_views : ∀ d, (dieAt tl d).views = [] := by
  intro d
  show (Machine.get Die.reset [(0, _)] d).views = []
  unfold Machine.get find?
  by_cases h : 0 = d <;> simp [h, find?] <;> rfl

/-! Vector instructions -/

/-- The shape of an instruction of the vector queue. -/
def shOf (i : Instr) : Shape := (shapeOf i).getD { d := none, wr := false, rd := false, a := none, b := none, ok := fun _ _ _ => true }

theorem ready {s : State} {i : Instr} (hs : shapeOf i = some (shOf i))
    (h : plain (me s) ∧ s.defer = false ∧
      (shOf i).typeOk (me s) (me s).csr.vtype (tagOr (me s) (shOf i).d) (tagOr (me s) (shOf i).a) (tagOr (me s) (shOf i).b) = true ∧
      (accessEngine i = true ∨ (0 < (coreAt s (coreOf s.turn)).groups ∧
        ((coreAt s (coreOf s.turn)).pipeSecure = (me s).secure ∨
          pipeHolds s (coreOf s.turn) (coreAt s (coreOf s.turn)).pipeSecure = false)))) : vectorReady s i (shOf i) :=
  ⟨h.1, hs, h.2.1, h.2.2⟩

/-- A context under a vtype with vl and es, whose v16, v24 and v32 have tags, whose x8 names a byte of the scratchpad, and which holds
batons. -/
def vs (vt : BitVec 17) (vl es : Nat) (td ta tb : BitVec 5) : State := fr fun x =>
  { (((((x.setTag 16 td).setTag 24 ta).setTag 32 tb).setX 8 (BitVec.ofNat 64 (ownWindow + 0x1000))).setX 9 8) with
    csr := { x.csr with vtype := vt, vl := vl, es := es }, batons := [(0, 1), (1, 3)] }

theorem wit_VectorInstructionsComplete :
    (computes (.vadd 16 24 32 0 false) = true ∧ vectorReady (vs 0x12C 512 511 4 4 4) (.vadd 16 24 32 0 false) (shOf (.vadd 16 24 32 0 false)) ∧
      vlBounded (me (vs 0x12C 512 511 4 4 4))) ∧
    (computes (.msetvl 5 11) = true ∧ vectorReady (vs 0x12C 0 0 4 4 4) (.msetvl 5 11) (shOf (.msetvl 5 11))) ∧
    (computes (.vsmaxUpd 16 24 32 0 true) = true ∧
      vectorReady (vs 0x12C 1 0 10 10 10) (.vsmaxUpd 16 24 32 0 true) (shOf (.vsmaxUpd 16 24 32 0 true))) ∧
    computes (.vbflyHF 16 24 2) = true ∧ vectorReady (vs 0x128 8 0 8 8 8) (.vbflyHF 16 24 2) (shOf (.vbflyHF 16 24 2)) :=
  ⟨⟨by decide, ready rfl (by decide), by decide⟩, ⟨by decide, ready rfl (by decide)⟩, ⟨by decide, ready rfl (by decide)⟩, by decide,
    ready rfl (by decide)⟩

theorem wit_VectorElementsHoldTheirFunction :
    (vectorReady (vs 0x12C 5 3 4 4 5) (.vaddAdds 16 24 32 0 true) (shOf (.vaddAdds 16 24 32 0 true)) ∧ vlBounded (me (vs 0x12C 5 3 4 4 5)) ∧
      ((elementRule (me (vs 0x12C 5 3 4 4 5)) (.vaddAdds 16 24 32 0 true)).map (fun r => (r.1, r.2.1))) = some (16, true)) ∧
    (vectorReady (vs 0x16E 16 0 18 18 18) (.vmodMulm 16 24 32 0 false) (shOf (.vmodMulm 16 24 32 0 false)) ∧
      vlBounded (me (vs 0x16E 16 0 18 18 18)) ∧
      ((elementRule (me (vs 0x16E 16 0 18 18 18)) (.vmodMulm 16 24 32 0 false)).map (fun r => (r.1, r.2.1))) = some (16, false)) :=
  ⟨⟨ready rfl (by decide), by decide, by decide⟩, ready rfl (by decide), by decide, by decide⟩

theorem wit_MaskBitsHoldTheirFunction :
    (vectorReady (vs 0x12C 5 3 4 4 5) (.vcmpLt 11 24 32 0 true) (shOf (.vcmpLt 11 24 32 0 true)) ∧
      ((maskRule (me (vs 0x12C 5 3 4 4 5)) (.vcmpLt 11 24 32 0 true)).map (fun r => (r.1, r.2.1))) = some (11, true)) ∧
    (vectorReady (vs 0x12C 0 0 4 4 5) (.mlogNot 0 0) (shOf (.mlogNot 0 0)) ∧
      ((maskRule (me (vs 0x12C 0 0 4 4 5)) (.mlogNot 0 0)).map (fun r => (r.1, r.2.1))) = some (0, false)) :=
  ⟨⟨ready rfl (by decide), by decide⟩, ready rfl (by decide), by decide⟩

theorem wit_ReductionsAndCountsFoldTheActiveElements :
    (vectorReady (vs 0x12C 3 0 4 4 5) (.vredSum 16 24 0 false) (shOf (.vredSum 16 24 0 false)) ∧ vlBounded (me (vs 0x12C 3 0 4 4 5)) ∧
      (reductionRule (me (vs 0x12C 3 0 4 4 5)) [0, 1, 2] (.vredSum 16 24 0 false)).isSome = true) ∧
    vectorReady (vs 0x12C 3 0 4 4 5) (.mcnt 5 11) (shOf (.mcnt 5 11)) ∧
    vectorReady (vs 0x12C 3 3 4 4 5) (.mcntFirst 5 11) (shOf (.mcntFirst 5 11)) ∧
    vectorReady (vs 0x12C 3 0 4 4 5) (.msetvl 5 11) (shOf (.msetvl 5 11)) :=
  ⟨⟨ready rfl (by decide), by decide, by decide⟩, ready rfl (by decide), ready rfl (by decide), ready rfl (by decide)⟩

theorem wit_ElementZeroAndPackedMoves :
    (vlBounded (me (vs 0x12C 4 0 4 4 5)) ∧ (me (vs 0x12C 4 0 4 4 5)).csr.es = 0) ∧
    (vectorReady (vs 0x12C 4 0 4 4 5) (.vmvTox 5 24 0) (shOf (.vmvTox 5 24 0)) ∧ isInt (tagOf (me (vs 0x12C 4 0 4 4 5)) 24) = true) ∧
    (vectorReady (vs 0x12C 4 0 4 4 5) (.vmvFromx 16 7 false 0 false) (shOf (.vmvFromx 16 7 false 0 false)) ∧
      isInt (tagOf (me (vs 0x12C 4 0 4 4 5)) 16) = true) ∧
    vectorReady (vs 0x12C 4 0 4 4 5) (.vcompCompress 16 24 0) (shOf (.vcompCompress 16 24 0)) ∧
    vectorReady (vs 0x12C 4 0 4 4 5) (.vcompCidx 16 11 0) (shOf (.vcompCidx 16 11 0)) :=
  ⟨by decide, ⟨ready rfl (by decide), by decide⟩, ⟨ready rfl (by decide), by decide⟩, ready rfl (by decide), ready rfl (by decide)⟩

theorem wit_HistogramsCountAndClear :
    vectorReady (vs 0x12C 3 0 10 10 10) (.ehistAcc 24 3 0 false) (shOf (.ehistAcc 24 3 0 false)) ∧
    vectorReady (vs 0x12C 3 0 5 5 5) (.ehistRead 16 15 0) (shOf (.ehistRead 16 15 0)) ∧
    vectorReady (vs 0x12C 3 0 5 5 5) (.ehistClr 0 0) (shOf (.ehistClr 0 0)) :=
  ⟨ready rfl (by decide), ready rfl (by decide), ready rfl (by decide)⟩

theorem wit_TypeFaultsTrapBeforeIssue :
    let s := vs 0x12C 3 0 18 4 4
    let i : Instr := .vadd 16 24 32 0 false
    shapeOf i = some (shOf i) ∧
    ((shOf i).typeOk (me s) (me s).csr.vtype (tagOr (me s) (shOf i).d) (tagOr (me s) (shOf i).a) (tagOr (me s) (shOf i).b) = false ∧
      plain (me s) ∧ traced s s.turn = false) :=
  ⟨rfl, by decide⟩

/-- One element at a place: the elements of a vector of one element. -/
theorem one {P : Nat → Prop} {x : Ctx} {mk : Bool} (hx : x.vl = 1) (h : P 0) : ∀ j, activeElem x mk j → P j := by
  intro j hj
  have : j = 0 := by have := hj.2.1; omega
  exact this ▸ h

theorem wit_VectorLoadsFillActiveElements :
    let s := vs 0x12C 1 0 4 4 5
    let i : Instr := .vld 16 8 false true true
    ((i matches .vld .. | .vldS .. | .vldX ..) = true) ∧ vectorReady s i (shOf i) ∧ (vlBounded (me s) ∧ plainBatons (me s) ∧ (me s).marks = [] ∧
      (me s).lap.buf = []) ∧ (get 0 (me s).batons 0 = 1 ∧ get 0 (me s).batons 1 = 3 ∧ batonWait i = some 1 ∧ batonPost i = some 0) ∧
    (vectorAddr (me s) i).map (fun r => (r.1, r.2.1, r.2.2 0)) = some (16, false, ownWindow + 0x1000) ∧
    ∀ j, activeElem (me s) false j → mayElement s .load (ownWindow + 0x1000 + 4 * j) (elemSize (widthOf (me s) 16)) (pad (0x1000 + 4 * j)) :=
  ⟨by decide, ready rfl (by decide), by decide, by decide, by decide, one (by decide) (by decide)⟩

theorem wit_VectorStoresWriteActiveElements :
    let s := vs 0x12C 1 0 4 4 5
    let i : Instr := .vstX 16 8 32 true true true
    ((i matches .vst .. | .vstS .. | .vstX ..) = true) ∧ vectorReady s i (shOf i) ∧ (vlBounded (me s) ∧ plainBatons (me s) ∧
      unbuffered (me s)) ∧ (batonWait i = some 1 ∧ batonPost i = some 0) ∧
    (vectorAddr (me s) i).map (fun r => (r.1, r.2.1, r.2.2 0)) = some (16, true, ownWindow + 0x1000) ∧
    ∀ j, activeElem (me s) true j → mayElement s .store (ownWindow + 0x1000 + 4 * j) (elemSize (widthOf (me s) 16)) (pad (0x1000 + 4 * j)) :=
  ⟨by decide, ready rfl (by decide), by decide, by decide, by decide, one (by decide) (by decide)⟩

theorem wit_VectorAtomicsReadModifyAndWrite :
    let s := vs 0x12C 1 0 4 4 5
    let i : Instr := .vamoMax 16 8 32 false true true
    (vamoRule 4 true i).isSome = true ∧ vectorReady s i (shOf i) ∧ (vlBounded (me s) ∧ plainBatons (me s) ∧ unbuffered (me s) ∧
      widthOf (me s) 16 / 8 = 4 ∧ isSigned (tagOf (me s) 16) = true) ∧
    (vectorAddr (me s) i).map (fun r => (r.1, r.2.1, r.2.2 0)) = some (16, false, ownWindow + 0x1000) ∧
    (∀ j, activeElem (me s) false j → mayElement s .atomic (ownWindow + 0x1000 + 4 * j) 4 (pad (0x1000 + 4 * j)) ∧
      reach s s.turn (vectorAgent s s.turn) .atomic (ownWindow + 0x1000 + 4 * j) 4 4 false false = .ok (pad (0x1000 + 4 * j))) ∧
    ∀ j k : Nat, j ≠ k → (pad (0x1000 + 4 * j)).key + 4 ≤ (pad (0x1000 + 4 * k)).key ∨
      (pad (0x1000 + 4 * k)).key + 4 ≤ (pad (0x1000 + 4 * j)).key := by
  refine ⟨by decide, ready rfl (by decide), by decide, by decide, one (by decide) (by decide), fun j k h => ?_⟩
  simp only [pad, padKey]
  omega

theorem wit_MasksMoveBitByBit :
    let s := vs 0x12C 1 0 4 4 5
    let p (j : Nat) := pad (0x1000 + j / 8)
    vectorReady s (.mld 1 8 false true true) (shOf (.mld 1 8 false true true)) ∧
    vectorReady s (.mst 1 8 true true true) (shOf (.mst 1 8 true true true)) ∧
    (plainBatons (me s) ∧ (me s).marks = [] ∧ unbuffered (me s)) ∧
    (∀ j k, p j = p k ∨ (p j).key ≠ (p k).key) ∧ (∀ j k, j / 8 = k / 8 ↔ p j = p k) ∧
    (∀ j, activeElem (me s) false j → mayElement s .load (ownWindow + 0x1000 + j / 8) 1 (p j)) ∧
    (∀ j, activeElem (me s) true j → mayElement s .store (ownWindow + 0x1000 + j / 8) 1 (p j)) := by
  refine ⟨ready rfl (by decide), ready rfl (by decide), by decide, fun j k => ?_, fun j k => ⟨fun h => by simp only [h], fun h => ?_⟩,
    one (by decide) (by decide), one (by decide) (by decide)⟩
  · by_cases h : j / 8 = k / 8
    · exact .inl (by simp only [h])
    · refine .inr ?_
      simp only [pad, padKey]
      omega
  · have := congrArg Place.key h
    simp only [pad, padKey] at this
    omega

/-- A context with one stream bound to v63, and the words of a stream descriptor at its x8. -/
def sbs (w : Nat) (l : SMap Stream) : State :=
  let s := onCtx (vs 0x12C 1 0 4 4 5) 0 (fun x => { x with streams := l })
  { s with mem := writeBytes s.mem (padKey 0 0x1000) (natBytes 32 w) }
def st0 : Stream :=
  { base := 0, stride := 4, count := 5, strip := 4, width := 32, store := false, device := false, pos := 0, fill := 0, entries := [] }

theorem wit_QueuedBatonsAndStreamBindings :
    (let s := vs 0x12C 1 0 4 4 5
     (Instr.btnWaitPost 1).WellFormed ∧ vectorReady s (.btnWaitPost 1) (shOf (.btnWaitPost 1)) ∧
       (batonWait (.btnWaitPost 1) = some 1 ∧ batonPost (.btnWaitPost 1) = some 0 ∧ get 0 (me s).batons 0 < 4 ∧
        0 < get 0 (me s).batons 1 ∧ plainBatons (me s) ∧ (me s).lap.buf = [])) ∧
    (let s := sbs (3 * 2 ^ 192 + 512 * 2 ^ 208) []
     vectorReady s (.sbind 15 8) (shOf (.sbind 15 8)) ∧ ((me s).marks = [] ∧ (me s).lap.buf = [] ∧
       mayElement s .load ((me s).x 8).toNat 32 (pad 0x1000) ∧ readNat s.mem (padKey 0 0x1000) 32 = 3 * 2 ^ 192 + 512 * 2 ^ 208)) ∧
    (let s := sbs (3 * 2 ^ 192 + 513 * 2 ^ 208) []
     vectorReady s (.sbind 0 8) (shOf (.sbind 0 8)) ∧ 513 * (4 * 2 ^ 3) > 16384 ∧
       readNat s.mem (padKey 0 0x1000) 32 = 3 * 2 ^ 192 + 513 * 2 ^ 208) ∧
    (let s := sbs 0 [(63, st0)]
     (me s).occ = .running ∧ (me s).vx = [] ∧ (me s).vq = [] ∧ (me s).held = none ∧ (me s).park = .none ∧ (me s).pend = [] ∧
       s.defer = false ∧ (me s).streams = [(48 + (15 : BitVec 4).toNat, st0)] ∧ st0.store = false) :=
  ⟨⟨by decide, ready rfl (by decide), by decide⟩, ⟨ready rfl (by decide), by decide⟩, ⟨ready rfl (by decide), by decide⟩, by decide⟩

/-- A context whose x8 names a card. -/
def cds (img : Nat) : State :=
  let s := fr fun x => { x.setX 8 (BitVec.ofNat 64 (ownWindow + 0x2000)) with batons := [(2, 1), (3, 3)] }
  { s with mem := writeBytes s.mem (padKey 0 0x2000) (natBytes 128 img) }

theorem wit_JobsAreAcceptedAndEnd :
    let s := cds (copyCard 0x1000 0x3000 1)
    vectorReady s (.tmma 8 15 true true) (shOf (.tmma 8 15 true true)) ∧ vectorReady s (.tcvt 8 true true) (shOf (.tcvt 8 true true)) ∧
    vectorReady s (.tcopy 8 true true) (shOf (.tcopy 8 true true)) ∧
    (noUnits s ∧ (me s).lap.buf = [] ∧ plainBatons (me s) ∧ cleanMemory s ∧ settled s ∧ s.pkg.reenc = none ∧
      ((me s).x 8).toNat = ownWindow + 0x2000 ∧ 0x2000 % 128 = 0 ∧ 0x2000 < poolBase ∧ 0 < get 0 (me s).batons 2 ∧
      get 0 (me s).batons 3 < 4) ∧ ∀ va, domainOpen s (me s).partid va = false :=
  ⟨ready rfl (by decide), ready rfl (by decide), ready rfl (by decide), by decide, fun _ => rfl⟩

theorem wit_CopiesMoveTheirBytes :
    let s := cds (copyCard 0x4000 0x20000 65535)
    vectorReady s (.tcopy 8 false false) (shOf (.tcopy 8 false false)) ∧
    (noUnits s ∧ (me s).lap.buf = [] ∧ ((me s).x 8).toNat = ownWindow + 0x2000 ∧
      readNat s.mem (padKey 0 0x2000) 104 = copyCard 0x4000 0x20000 65535 ∧ cleanMemory s ∧ settled s ∧
      0x4000 + 65535 ≤ 0x20000 / 32 * 32 ∧ 0x20000 + 65535 ≤ poolBase ∧ 0x2000 + 128 ≤ 0x4000) ∧
    (let s := cds (copyCard 0x1000 0x1FFF 1)
     vectorReady s (.tcopy 8 false false) (shOf (.tcopy 8 false false)) ∧
       readNat s.mem (padKey 0 0x2000) 104 = copyCard 0x1000 0x1FFF 1 ∧ 0x1000 + 1 ≤ 0x1FFF / 32 * 32 ∧ 0x1FFF + 1 ≤ 0x2000) ∧
    vectorReady s (.jstat 9 8) (shOf (.jstat 9 8)) :=
  ⟨ready rfl (by decide), by decide, ⟨ready rfl (by decide), by decide⟩, ready rfl (by decide)⟩

/-! Ciphertexts and passes -/

/-- A context whose c1 to c3 name batches of its scratchpad, in a die whose streamer holds key 5, with 72 bytes of a number at its x8. -/
def cts (w : Nat) : State :=
  let s := onDie s0 0 (fun d => { d with keys := [(5, 3)] })
  let b (off ch : Nat) := descOf (ownWindow + off) 3 3 2 0 5 ch
  let s := onCtx s 0 (fun x => { ((x.setC 1 (b 0x1000 100)).setC 2 (b 0x8000 7)).setC 3 (b 0x10000 3) with
    regs := { (((x.setC 1 (b 0x1000 100)).setC 2 (b 0x8000 7)).setC 3 (b 0x10000 3)).regs with
      x := [(8, BitVec.ofNat 64 (ownWindow + 0x2000))] } })
  { s with mem := writeBytes s.mem (padKey 0 0x2000) (natBytes 72 w) }

theorem wit_CiphertextRegistersLoadAndStore :
    (let s := cts 0
     plain (me s) ∧ (me s).lap.buf = [] ∧ mayAccess s .load ((me s).x 8).toNat 32 (pad 0x2000) ∧
       mayAccess s .store ((me s).x 8).toNat 32 (pad 0x2000) ∧ (me s).lap.buffering = false ∧
       BitVec.ofNat 256 (readNat s.mem (padKey 0 0x2000) 32) = 0 ∧ traced s 0 = false) ∧
    (let d := descOf (ownWindow + 0x1000) 3 3 2 0 5 1024
     descFault d = none ∧ keyInstalled (cts 0) 0 0 (descKey d) = true ∧ descCharge d ≤ 1024) ∧
    descFault (descOf (ownWindow + 0x1001) 3 3 2 0 5 1024) ≠ none ∧
    (let d := descOf (ownWindow + 0x1000) 3 3 2 0 6 1024
     descFault d = none ∧ keyInstalled (cts 0) 0 0 (descKey d) = false) ∧
    (reach (cts 0) 0 (frontAgent (cts 0) 0) .load (ownWindow + 0x2000) 72 8 true (frontQuiet (me (cts 0))) = .ok (pad 0x2000) ∧
      ∀ i : Fin 9, mayAccess (cts 0) .load (ownWindow + 0x2000 + 8 * i.val) 8 (pad (0x2000 + 8 * i.val)) ∧
        (pad (0x2000 + 8 * i.val)).key = (pad 0x2000).key + 8 * i.val) ∧
    tableOk (BitVec.ofNat 576 (2 * 2 ^ 512 + 2 * 2 ^ 520 + 0x03020100)) = true ∧
    tableOk (BitVec.ofNat 576 (2 * 2 ^ 512 + 2 ^ 520 + 0x03020100)) = false := by decide +kernel

theorem batches {l : List (BitVec 256)} {p b : Nat}
    (h : l.all (fun d => Decidable.decide (d ≠ 0 ∧ descFault d = none ∧ descPset d = p ∧ descB d = b)) = true) : legalBatches l p b :=
  fun d hd => of_decide_eq_true (List.all_eq_true.mp h d hd)

theorem wit_CiphertextArithmeticIsExactModuloQ :
    let s := cts 0
    let x := me s
    legalBatches [x.c 2, x.c 1, x.c 2] (descPset (x.c 1)) (descB (x.c 1)) ∧
    (carithRule (.cmac 2 1 0xFE)).map (fun r => (r.1, r.2.1)) = some (2, [1, 2]) ∧ calm s ∧ noUnits s ∧ cleanMemory s ∧
    sequencerMay s (cluOf s.turn) x.secure = true ∧ descKey (x.c 2) = descKey (x.c 1) ∧ descP (x.c 2) = descP (x.c 1) ∧ descCharge (x.c 2) + descCharge (x.c 1) * 4 ≤ 1024 :=
  ⟨batches (by decide +kernel), by decide +kernel⟩

/-- The header of a key pass. -/
def hdr : Nat := 5 * 2 ^ 64 + 3 * 2 ^ 80 + 0x10000 * 2 ^ 96 + (ownWindow + 0x10000) * 2 ^ 128
def ent0 : PassEntry := { tab := 0, out := 0, src := 0, ctx := 0, accoff := 0, est := 0 }
def mb0 (es : List PassEntry) : Member :=
  { clu := 0, header := padKey 0 0x2000, work := ownWindow + 0x10000, wlen := 0x10000, ents := es, accs := [], done := 0, cur := 0, state := 1 }
def ps0 (st : Nat) (joined ran : List Nat) (es : List PassEntry) : Pass :=
  { launch := 0, part := 0, key := 5, pset := 3, state := st, slice := 0, members := [mb0 es], joined := joined, ran := ran, askers := [] }
/-- The die holds a pass under id 0, which the context names in x9. -/
def pst (p : Pass) (mine : Option Nat) : State :=
  let s := onDie (cts hdr) 0 (fun d => { d with passes := [(0, p)] })
  onCtx s 0 (fun x => { (x.setX 9 0).setT 2 (BitVec.ofNat 576 (2 * 2 ^ 512 + 2 * 2 ^ 520 + 0x03020100)) with pass := mine })

theorem wit_KeyPassesOpenJoinRunAndEnd_opens :
    (let s := cts hdr
     calm s ∧ ((me s).x 8).toNat = ownWindow + 0x2000 ∧ headerOk (readNat s.mem (padKey 0 0x2000) 64) = true ∧
       keyInstalled s 0 (me s).partid (headKey (readNat s.mem (padKey 0 0x2000) 64)) = true ∧ find? (dieAt s 0).passes 0 = none) := by decide +kernel

theorem wit_KeyPassesOpenJoinRunAndEnd_full :
    (let s := onDie (cts hdr) 0 (fun d => { d with passes := (span 0 64).map (fun k => (k, ps0 1 [] [] [])) })
     calm s ∧ ∀ j : Fin 64, find? (dieAt s 0).passes j.val ≠ none) := by decide +kernel

theorem wit_KeyPassesOpenJoinRunAndEnd_toolate :
    (let p := ps0 3 [] [] []
     let s := pst p none
     calm s ∧ find? (dieAt s 0).passes ((me s).x 9).toNat = some p ∧ p.launch = (me s).work.launch ∧ p.state ≠ 1 ∧ 3 ≤ p.state ∧
       (p.memberIn 0).isSome = true) := by decide +kernel

theorem wit_KeyPassesOpenJoinRunAndEnd_joins :
    (let p := ps0 1 [] [] []
     find? (dieAt (pst p none) 0).passes 0 = some p ∧ calm (pst p none) ∧ p.memberIn 0 = some (mb0 []) ∧ p.joined.contains 0 = false) := by decide +kernel

theorem wit_KeyPassesOpenJoinRunAndEnd_runs :
    (let p := ps0 1 [0] [] [ent0]
     calm (pst p (some 0)) ∧ p.joined.contains 0 = true ∧ p.ran.contains 0 = false ∧ mb0 [ent0] ∈ p.members ∧ p.askers = [] ∧
       (p.joined.all (fun c => ([0] : List Nat).contains c)) = true) := by decide +kernel

theorem wit_KeyPassesOpenJoinRunAndEnd_asks :
    (let p := ps0 1 [0] [] []
     let s := pst p (some 0)
     let x := me s
     calm s ∧ passCode (some p) x.work.launch 0 (x.c 1) = 0 ∧ x.c 1 ≠ 0 ∧ x.c 3 ≠ 0 ∧ descPset (x.c 3) = descPset (x.c 1) ∧
       descB (x.c 3) = descB (x.c 1) ∧ tabPin (x.t 2) = descP (x.c 1) ∧ tabPout (x.t 2) ≤ (paramSet (descPset (x.c 1))).maxP ∧
       groupsRetired s 0 = false ∧ keyInstalled s 0 x.partid (descKey (x.c 1)) = true ∧ (cluAt s 0).jobs = []) := by decide +kernel

/-! Objects in memory -/

/-- A context whose x8 names an object of n bytes, a number w in little-endian order, in its scratchpad, and whose x9 holds v. -/
def obj (n w v : Nat) : State :=
  let s := fr fun x => (x.setX 8 (BitVec.ofNat 64 (ownWindow + 0x2000))).setX 9 (BitVec.ofNat 64 v)
  { s with mem := writeBytes s.mem (padKey 0 0x2000) (natBytes n w) }
/-- A hurdle with its fields. -/
def hur (wt la oc ov ph ar ex v : Nat) : State :=
  obj 16 (wt * 2 ^ 64 + la * 2 ^ 48 + oc * 2 ^ 32 + ov * 2 ^ 28 + ph * 2 ^ 24 + ar * 2 ^ 12 + ex) v

/-- What the statement on hurdles asks of every form, at a hurdle with these fields and an x9. -/
abbrev hurdleReady (wt la oc ov ph ar ex v : Nat) : Prop :=
  let s := hur wt la oc ov ph ar ex v
  calm s ∧ ((me s).x 8).toNat = ownWindow + 0x2000 ∧ ((me s).x 9).toNat = v ∧ mayObject s (ownWindow + 0x2000) 16 (pad 0x2000) ∧ s.turn < 4096 ∧
    waitingContexts s = [] ∧ traced s s.turn = false

abbrev hurdleHolds (wt la oc ov ph ar ex v : Nat) : Prop :=
  let w := readNat (hur wt la oc ov ph ar ex v).mem (padKey 0 0x2000) 16
  bitsOf w 0 12 = ex ∧ bitsOf w 12 12 = ar ∧ bitsOf w 24 4 = ph ∧ bitsOf w 28 1 = ov ∧ bitsOf w 32 16 = oc ∧ bitsOf w 48 16 = la ∧
    bitsOf w 64 16 = wt

theorem wit_HurdlesCountAndAdvance_counts : hurdleReady 65535 0 0 0 15 4093 4095 0x10001 ∧ hurdleHolds 65535 0 0 0 15 4093 4095 0x10001 ∧
    4093 < 4095 ∧ 4093 + 0x10001 % 4096 < 4095 ∧ 0 < 0x10001 / 2 ^ 16 := by decide +kernel

theorem wit_HurdlesCountAndAdvance_gives_up : hurdleReady 0 7 1 1 3 0 1 0 ∧ hurdleHolds 0 7 1 1 3 0 1 0 ∧ 0 + 0 % 4096 < 1 ∧
    min (2 ^ 20) (0 / 2 ^ 16) = 0 ∧ 3 ≠ 0 % 4096 % 16 := by decide +kernel

theorem wit_HurdlesCountAndAdvance_advances : hurdleReady 0 7 1 1 3 4094 4095 1 ∧ hurdleHolds 0 7 1 1 3 4094 4095 1 ∧
    4094 + 1 % 4096 = 4095 := by decide +kernel

theorem wit_HurdlesCountAndAdvance_overruns : hurdleReady 0 7 0xFFFF 0 15 0 1 2 ∧ hurdleHolds 0 7 0xFFFF 0 15 0 1 2 ∧
    1 < 0 + 2 % 4096 := by decide +kernel

/-- A hurdle that expects nothing, and one that holds more than it expects. -/
theorem wit_HurdlesCountAndAdvance_corners : hurdleReady 0 7 0xFFFF 1 3 0 0 4095 ∧ hurdleHolds 0 7 0xFFFF 1 3 0 0 4095 ∧ 0 < 4095 % 4096 ∧
    hurdleReady 0 7 0 0 3 5 4 0 ∧ hurdleHolds 0 7 0 0 3 5 4 0 ∧ 4 < 5 + 0 ∧
    hurdleReady 0 7 0 0 3 4 4 0x10000 ∧ hurdleHolds 0 7 0 0 3 4 4 0x10000 ∧ 0x10000 % 4096 = 0 ∧ 0 < min (2 ^ 20) (0x10000 / 2 ^ 16) :=
  ⟨by decide +kernel, by decide +kernel, by decide, by decide +kernel, by decide +kernel, by decide, by decide +kernel, by decide +kernel,
    by decide, by decide⟩

theorem wit_HurdlesCountAndAdvance_waits : hurdleReady 0 7 0 0 15 0 1 0xFFFF000F ∧ hurdleHolds 0 7 0 0 15 0 1 0xFFFF000F ∧
    15 = 0xFFFF000F % 4096 % 16 ∧ 0 < min (2 ^ 20) (0xFFFF000F / 2 ^ 16) ∧ hurdleReady 0 7 0 0 1 0 1 1 ∧ hurdleHolds 0 7 0 0 1 0 1 1 ∧
    1 = 1 % 4096 % 16 ∧ min (2 ^ 20) (1 / 2 ^ 16) = 0 := by decide +kernel

theorem none_waits {s : State} (h : waitingContexts s = []) : aloneWaiting s := by simp [aloneWaiting, h]

theorem wit_HurdlesCountAndAdvance_alone : aloneWaiting (hur 65535 0 0 0 15 4093 4095 0x10001) := none_waits (by decide +kernel)

/-- A hurdle on which context 4 is parked since a phase, and about which an event of that context stands. -/
def hpk (q ph : Nat) : State :=
  { onCtx (hur 1 7 3 0 q 1 3 2) 4 (fun x => { x with occ := .running, park := .hurdle (BitVec.ofNat 64 (ownWindow + 0x2000)) ph 0 7 }) with
    signal := .ctx 4 }

theorem wit_ParkedContextsPassTheirHurdle_arrival :
    (let s := hpk 15 15
     calm s ∧ ((me s).x 8).toNat = ownWindow + 0x2000 ∧ ((me s).x 9).toNat % 4096 = 2 ∧ mayObject s (ownWindow + 0x2000) 16 (pad 0x2000) ∧
       readNat s.mem (padKey 0 0x2000) 16 = 2 ^ 64 + 7 * 2 ^ 48 + 3 * 2 ^ 32 + 15 * 2 ^ 24 + 2 ^ 12 + (1 + 2) ∧
       cleanMemory s ∧ (coreAt s (coreOf s.turn)).stb.length < 256 ∧ cycleOf s 4 ≤ 0 ∧
       waitingContexts s = [4] ∧ 4 ≠ s.turn ∧ (ctxAt s 4).park = .hurdle (BitVec.ofNat 64 (ownWindow + 0x2000)) 15 0 7) := by decide +kernel

theorem wit_ParkedContextsPassTheirHurdle_place : ∀ m, placeKey { hpk 15 15 with mem := m } 4 (ownWindow + 0x2000) = some (pad 0x2000).key ∧
    Machine.decide { hpk 15 15 with mem := m } (frontAgent (hpk 15 15) 4) .atomic (ownWindow + 0x2000) = .ok (pad 0x2000) :=
  fun _ => ⟨rfl, rfl⟩

theorem wit_ParkedContextsPassTheirHurdle_events :
    (∀ q : Fin 2, let s := hpk q.val 1
     s.signal = .ctx 4 ∧ (ctxAt s 4).park = .hurdle (BitVec.ofNat 64 (ownWindow + 0x2000)) 1 0 7 ∧ 1 < 16 ∧
       placeKey s 4 (ownWindow + 0x2000) = some (padKey 0 0x2000) ∧
       readNat s.mem (padKey 0 0x2000) 16 = 2 ^ 64 + 7 * 2 ^ 48 + 3 * 2 ^ 32 + q.val * 2 ^ 24 + 2 ^ 12 + 3 ∧ cleanMemory s ∧
       cycleOf s 4 ≤ 0 ∧ 0 < cycleOf (onDie s 0 (fun d => { d with cycle := 1 })) 4) := by
  decide +kernel

/-- A ring with its fields. -/
def ring (head tail lcap : Nat) : State := obj 64 (head + tail * 2 ^ 64 + lcap * 2 ^ 192) 0xABCDEF0123456789

/-- What the statement on rings asks of every form, at a ring with these fields and the place of entry n. -/
abbrev ringReady (head tail lcap n : Nat) : Prop :=
  let s := ring head tail lcap
  let off := 0x2040 + 8 * (n % 2 ^ lcap)
  calm s ∧ ((me s).x 8).toNat = ownWindow + 0x2000 ∧ waitingContexts s = [] ∧ mayObject s (ownWindow + 0x2000) 64 (pad 0x2000) ∧
    readNat s.mem (padKey 0 0x2000) 64 = head + tail * 2 ^ 64 + lcap * 2 ^ 192 ∧
    reach s s.turn (frontAgent s s.turn) .load (ownWindow + off) 8 8 false (frontQuiet (me s)) = .ok (pad off) ∧
    reach s s.turn (frontAgent s s.turn) .store (ownWindow + off) 8 8 false (frontQuiet (me s)) = .ok (pad off) ∧
    sectorState s (pad off) = none ∧ padKey 0 0x2000 + 64 ≤ (pad off).key

theorem wit_RingsAndWatermarksHoldTheirOrder_rings :
    (ringReady (2 ^ 64 - 1) 0 1 0 ∧ (0 + 2 ^ 64 - (2 ^ 64 - 1)) % 2 ^ 64 = 1) ∧
    (ringReady (2 ^ 64 - 1) 1 1 (2 ^ 64 - 1) ∧ (1 + 2 ^ 64 - (2 ^ 64 - 1)) % 2 ^ 64 = 2 ^ 1) ∧
    (ringReady 5 5 16 5 ∧ (5 + 2 ^ 64 - 5) % 2 ^ 64 = 0) ∧ ringReady 0 0 17 0 ∧ ringReady 0 3 1 0 ∧ 2 ^ 1 < (3 + 2 ^ 64 - 0) % 2 ^ 64 :=
  ⟨⟨by decide +kernel, by decide⟩, ⟨by decide +kernel, by decide⟩, ⟨by decide +kernel, by decide⟩, by decide +kernel, by decide +kernel,
    by decide⟩

theorem wit_RingsAndWatermarksHoldTheirOrder_marks :
    (∀ l ∈ [0, 1], let s := { obj 32 ((2 ^ 64 - 1) + l * 2 ^ 64) 0xFFFFFFFFFFFFFFFF with signal := .mark 0 0 }
     calm s ∧ waitingContexts s = [] ∧ mayObject s ((me s).x 8).toNat 32 (pad 0x2000) ∧ boundContexts s = [] ∧
       mayAccess s .load ((me s).x 8).toNat 32 (pad 0x2000) ∧ (me s).marks = [] ∧
       readNat s.mem (padKey 0 0x2000) 32 = (2 ^ 64 - 1) + l * 2 ^ 64) ∧
    (let s := obj 32 ((2 ^ 64 - 1) + 2 * 2 ^ 64) 0
     calm s ∧ 2 ^ 64 < (2 ^ 64 - 1) + 2 ∧ readNat s.mem (padKey 0 0x2000) 32 = (2 ^ 64 - 1) + 2 * 2 ^ 64) := by decide +kernel

/-! Views, records and launches -/

/-- A kernel context of a die whose frame 2 is covered, with views of it in the owner of the frame: h1 and h2 name those of partition 0,
h3 one of another. -/
def vw (p n : Nat) : State :=
  let s := onDie (at_ .k false) 0 (fun d => { d with aspaces := [(0, { part := 0, image := 0x10000, root := 0 })], resident := [(3, 0x8000040D)] })
  let s := onDie s 2 (fun d => { d with serial := 77, draining := [(2, 3)], views :=
    [(0, { serial := 5, part := 0, frame := 2, lo := 0, hi := 5000 }), (1, { serial := 6, part := 0, frame := 2, lo := 12288, hi := 20480 }),
     (3, { serial := 9, part := 1, frame := 2, lo := 40960, hi := 40961 })] })
  { onCtx s 0 (fun x => ((((x.setH 1 (handleOf 5 0 2)).setH 2 (handleOf 6 1 2)).setH 3 (handleOf 9 3 2)).setX 8 (BitVec.ofNat 64 p)).setX 9
    (BitVec.ofNat 64 n)) with signal := .cell 2 2 3 }

theorem wit_ViewsCoverAndReleaseCells_new :
    let s := vw 0xC0000000 4096
    calm s ∧ traced s s.turn = false ∧ ((me s).x 8).toNat = 3 * 2 ^ 30 ∧ residentLeaf s (dieOf s.turn) (me s).asid.toNat (3 * 2 ^ 30) = some 0x8000040D ∧
      coveredFrame 0x8000040D = some 2 ∧ (dieAt s (ownerDie 2)).views.length < 1048576 ∧ ascending 0 (dieAt s (ownerDie 2)).views = true ∧
      0 < (dieAt s (ownerDie 2)).serial ∧ (dieAt s (ownerDie 2)).serial < 2 ^ 42 ∧
      (∀ j : Fin 2, cellsFree (dieAt s (ownerDie 2)) 2 j.val 1 = false) ∧ cellsFree (dieAt s (ownerDie 2)) 2 2 1 = true := by decide +kernel

theorem wit_ViewsCoverAndReleaseCells_live :
    let s := vw 0xC0003000 8192
    let v : View := { serial := 6, part := 0, frame := 2, lo := 12288, hi := 20480 }
    calm s ∧ viewOf s s.turn ((me s).h 2) = some v ∧ baseOf s s.turn v.frame = some 0xC0000000 ∧ noUnits s ∧
      0xC0000000 + v.lo ≤ ((me s).x 8).toNat ∧ ((me s).x 8).toNat + ((me s).x 9).toNat ≤ 0xC0000000 + v.hi := by decide +kernel

theorem wit_ViewsCoverAndReleaseCells_outside :
    (let s := vw 0xC0003000 8193
     0xC0000000 + 20480 < ((me s).x 8).toNat + ((me s).x 9).toNat) ∧ (let s := vw 0xC0002FFF 1; ((me s).x 8).toNat < 0xC0000000 + 12288) ∧
    (me (vw 0 0)).x 8 = 0 ∧ viewOf (vw 0 0) 0 ((me (vw 0 0)).h 3) = none ∧ (me (vw 0 0)).h 3 ≠ 0 ∧ calm (vw 0 0) ∧
    (vw 0 0).signal = .cell 2 2 3 ∧ ownerDie 2 = (2#2).toNat ∧ (2, 3) ∈ (dieAt (vw 0 0) 2).draining := by decide +kernel

/-- A frame whose every cell is taken gives no view. -/
theorem wit_ViewsCoverAndReleaseCells_full : ∀ k, k + 262144 ≤ 262144 → cellsFree (dieAt (vw 0xC0000000 0x40000000) 2) 2 k 262144 = false := by
  intro k hk
  obtain rfl : k = 0 := by omega
  decide +kernel

/-- A launch with output and input records, and a context of it whose x8 and x9 hold operands; the record it names is p. -/
def lch (outs ins : Nat) : Launch :=
  { l1 with header := ((List.replicate 32 0).set 25 (BitVec.ofNat 64 outs)).set 24 (BitVec.ofNat 64 ins), bound := [(6, 3)] }
def pub (p : PubRec) (xa xb : Nat) : State :=
  let s := onDie s0 0 (fun d => { d with launches := [(1, lch 0x4005 0x4006), (2, lch 0 0x4005)], records := [(5, p)] })
  onCtx s 0 (fun x => { (x.setX 8 (BitVec.ofNat 64 xa)).setX 9 (BitVec.ofNat 64 xb) with work := { x.work with launch := 1 } })
def rec3 : PubRec := { PubRec.free with version := 3, state := 2, producer := 1, slots := [(0, (0x40, 3)), (1, (0x80, 2))] }
/-- What PUBV needs of a state: the record it names, its slot, its version and its address. -/
abbrev pubReady (p : PubRec) (v j : Nat) : Prop :=
  let s := pub p (5 + j * 2 ^ 12 + v * 2 ^ 16) 0x1000
  calm s ∧ (launchOf s s.turn).map (fun l => (l.outputs 5, l.inputs 5, l.inputs 6, isDeadline l.header)) = some (true, false, true, false) ∧
    ((me s).x 8).toNat % 4096 = 5 ∧ ((me s).x 8).toNat / 2 ^ 12 % 4 = j ∧ ((me s).x 8).toNat / 2 ^ 16 % 2 ^ 16 = v ∧
    ((me s).x 9).toNat % 64 = 0 ∧ recAt (dieAt s (dieOf s.turn)) 5 = p ∧ traced s s.turn = false

theorem wit_PublicationFormsActOnTheirRecord_pubv :
    (pubReady rec3 3 2 ∧ 3 ≤ rec3.version) ∧
    (pubReady { rec3 with ended := true, state := 3 } 4 0 ∧ pubReady { rec3 with state := 4 } 65535 0) ∧
    (let p := { rec3 with consumers := [(2, 0, 3)] }
     pubReady p 4 0 ∧ p.ended = false ∧ p.state ≠ 4 ∧ versionBound (dieAt (pub p 0 0) 0) p (p.slotVersion 0) = true) ∧
    (pubReady rec3 65535 2 ∧ rec3.version < 65535 ∧ rec3.ended = false ∧ rec3.state ≠ 4 ∧ rec3.consumers = []) :=
  ⟨⟨by decide +kernel, by decide⟩, ⟨by decide +kernel, by decide +kernel⟩, ⟨by decide +kernel, by decide⟩, by decide +kernel, by decide⟩

theorem wit_PublicationFormsActOnTheirRecord_others :
    (let s := pub rec3 5 0
     calm s ∧ rec3.state ≠ 3 ∧ rec3.state ≠ 4 ∧ rec3.version < 2 ^ 16 ∧ rec3.state < 8) ∧
    (let s := pub rec3 6 0
     (launchOf s s.turn).map (fun l => (l.outputs 6, l.inputs 6, l.boundTo 6)) = some (false, true, 3)) ∧
    (let s := pub rec3 7 0
     (launchOf s s.turn).map (fun l => (l.outputs 7, l.inputs 7)) = some (false, false) ∧ traced s 0 = false) := by decide +kernel

/-- A launch header of leg table 0x4000 and completion record 0x5000 of the own scratchpad, deadline or not, of work W and deadline D. -/
def head_ (dl : Bool) (W D : Nat) : List Word :=
  let l : List Word := List.replicate 32 0
  let l := l.set 0 (BitVec.ofNat 64 ((if dl then 1 else 0) + 2 ^ 16 + 4 * 2 ^ 40))
  let l := ((l.set 1 20).set 2 1000).set 6 (BitVec.ofNat 64 (ownWindow + 0x4000))
  (((l.set 7 1).set 8 (BitVec.ofNat 64 (ownWindow + 0x5000))).set 18 (BitVec.ofNat 64 W)).set 22 (BitVec.ofNat 64 D)
def leg_ : List Word := ((List.replicate 16 0).set 0 (BitVec.ofNat 64 (ownWindow + 0x6000))).set 1 0x169
/-- A context whose x8 names that header, in a die at cycle 5000. -/
def lau (dl : Bool) (W D : Nat) : State :=
  let s := onDie s0 0 (fun d => { d with nextId := 65535, cycle := 5000, launches := [(7, l1)] })
  let s := onCtx s 0 (fun x => x.setX 8 (BitVec.ofNat 64 (ownWindow + 0x2000)))
  let put_ (m : Memory) (off : Nat) (l : List Word) := writeBytes m (padKey 0 off) (l.flatMap (fun w => natBytes 8 w.toNat))
  { s with mem := put_ (put_ s.mem 0x2000 (head_ dl W D)) 0x4000 leg_ }

/-- What LAUNCH needs, and what the admission answers. -/
abbrev launchReady (s : State) (ind dl : Bool) (W D : Nat) : Prop :=
  calm s ∧ noUnits s ∧ (me s).wps = [] ∧ s.turn < 4096 ∧ cleanMemory s ∧ s.pkg.reenc = none ∧ (dieAt s (dieOf s.turn)).requests = [] ∧ (dieAt s (dieOf s.turn)).nextId < 2 ^ 16 ∧
    padWords s 0x2000 32 = head_ dl W D ∧ padWords s 0x4000 16 = leg_ ∧ ((me s).x 8).toNat = ownWindow + 0x2000 ∧
    headerLegs (head_ dl W D) = 1 ∧ (hw (head_ dl W D) 6).toNat = ownWindow + 0x4000 ∧
    headerFault (head_ dl W D) (dieAt s (dieOf s.turn)) (dieOf s.turn) ind = none ∧ legsFault [leg_] = none ∧
    Machine.decide s (frontAgent s s.turn) .store (headerDone (head_ dl W D)) = .ok (pad 0x5000)

theorem wit_LaunchesAreAdmittedOrRefused :
    launchReady (lau true 1000 100000) false true 1000 100000 ∧
    verdict (lau true 1000 100000) 0 0 (dieHeader 0 (head_ true 1000 100000)) < 2 ^ 63 ∧
    launchReady (lau true (2 ^ 40) 10) true true (2 ^ 40) 10 ∧ 2 ^ 63 ≤ verdict (lau true (2 ^ 40) 10) 0 0 (dieHeader 0 (head_ true (2 ^ 40) 10)) ∧
    launchReady (lau false 0 0) true false 0 0 ∧ isDeadline (dieHeader 0 (head_ false 0 0)) = false ∧ (lau false 0 0).pkg.quiesced = false ∧
    recordsOk (dieAt (lau false 0 0) 0) (dieHeader 0 (head_ false 0 0)) = true :=
  ⟨by decide +kernel, by decide +kernel, by decide +kernel, by decide +kernel, by decide +kernel, by decide +kernel, by decide +kernel,
    by decide +kernel⟩

/-! Units and events -/

theorem under {n : Nat} {P : Nat → Prop} (hn : 0 < n) (h : ∀ j : Fin n, P j.val) : ∀ j, j / n = 0 → P j :=
  fun j hj => h ⟨j, (Nat.div_eq_zero_iff.mp hj).resolve_left (by omega)⟩

/-- A signal put to a state. -/
def sg (s : State) (g : Signal) : State := { s with signal := g }
def add_ : VEntry := entryOf (me (vs 0x12C 5 0 4 4 4)) (.vadd 16 24 32 0 false) (shOf (.vadd 16 24 32 0 false))
def wait_ : VEntry := entryOf (me (vs 0x12C 5 0 4 4 4)) (.btnWait 1) (shOf (.btnWait 1))
/-- A context with entries in its queue and in the unit. -/
def queued (q v : List VEntry) : State := onCtx (vs 0x12C 5 0 4 4 4) 0 (fun x => { x with vq := q, vx := v })

theorem wit_QueuesStreamsAndWaitsGoOn_start :
    (∀ e ∈ [add_, wait_], let s := sg (queued [e] []) (.core 0)
     (ctxAt s 0).vq = [e] ∧ (ctxAt s 0).vx = [] ∧ (ctxAt s 0).streams = [] ∧ (ctxAt s 0).occ = .running ∧ (ctxAt s 0).stopping = none ∧
       (ctxAt s 0).owed = [] ∧ (dieAt s 0).passes = [] ∧ (cluAt s 0).jobs = [] ∧ 0 < get 0 (ctxAt s 0).batons 1 ∧ 0 < (coreAt s 0).groups ∧ (coreAt s 0).pipeSecure = (ctxAt s 0).secure ∧ (coreAt s 0).otherWaits < 64) ∧
    ∀ j, j / 4 = 0 → j ≠ 0 → (ctxAt (queued [add_] []) j).vq = [] :=
  ⟨by decide +kernel, under (by decide) (by decide +kernel)⟩

/-- A checkpoint to which a lap may return. -/
def ckp : Checkpoint :=
  { pc := 0x7F0000000800, level := .u, ind := [], carried := [], vl := 5, fflags := 0, es := 2, lapno := 0, laprem := 0, trim := none, handler := false,
    streams := [], whole := none }

theorem wit_QueuesStreamsAndWaitsGoOn_retire :
    (let s := sg (queued [] [add_]) (.ctx 0)
     (ctxAt s 0).vx = [add_] ∧ (ctxAt s 0).streams = [] ∧ (ctxAt s 0).occ = .running ∧ (ctxAt s 0).stopping = none ∧
       (ctxAt s 0).held = none ∧ computes add_.instr = true ∧
       entryOk (ctxAt s 0) add_ = true) ∧
    (let s := sg (onCtx (queued [] [add_]) 0 (fun x => { x with lap := { x.lap with ckpt := some ckp, rewindable := true, rewinds := 3 } })) (.witness 0 true)
     (ctxAt s 0).vx = [add_] ∧ (ctxAt s 0).park = .none ∧ (ctxAt s 0).lap.ckpt = some ckp ∧ (ctxAt s 0).lap.rewindable = true ∧
       (ctxAt s 0).lap.rewinds < 4 ∧ (ctxAt s 0).lap.missed = [] ∧ (ctxAt s 0).stopping = none ∧ (ctxAt s 0).held = none ∧
       (ctxAt s 0).occ = .running ∧ witnessList (ctxAt s 0) add_ ≠ []) := by decide +kernel

theorem wit_QueuesStreamsAndWaitsGoOn_world :
    (let s := sg (onCtx (queued [add_] []) 0 (fun x => { x with secure := true })) (.core 0)
     (ctxAt s 0).secure = true ∧ (ctxAt s 0).vq = [add_] ∧ (ctxAt s 0).vx = [] ∧ accessEngine add_.instr = false ∧ batonWait add_.instr = none ∧
       (ctxAt s 0).streams = [] ∧ (dieAt s 0).passes = [] ∧ (cluAt s 0).jobs = [] ∧ (ctxAt s 0).occ = .running ∧ (ctxAt s 0).stopping = none ∧
       (ctxAt s 0).held = none ∧ 0 < (coreAt s 0).groups ∧ (coreAt s 0).pipeSecure = false) ∧
    ∀ j, j / 4 = 0 → j ≠ 0 → (ctxAt (queued [add_] []) j).vq = [] ∧ (ctxAt (queued [add_] []) j).vx = [] ∧
      (ctxAt (queued [add_] []) j).held = none :=
  ⟨by decide +kernel, under (by decide) (by decide +kernel)⟩

/-- A context with a stream of 4 nibbles a strip, or of words, loading or storing. -/
def stm (w : Nat) (store : Bool) (en : List StreamEntry) : State :=
  let st : Stream := { st0 with base := BitVec.ofNat 64 (ownWindow + 0x1000), stride := if w = 4 then 0 else 16, width := w, store := store,
                                fill := if store then 0 else 4, entries := en }
  sg (onCtx s0 0 (fun x => { x with streams := [(63, st)] })) (.stream 0 15)
def en_ : StreamEntry := { bits := 0x8765432187654321, first := 4, live := 0xF, from_ := 0, fault := none, dev := false }

theorem wit_QueuesStreamsAndWaitsGoOn_streams :
    (let s := stm 64 false []
     (me s).marks = [] ∧ (me s).lap.buf = [] ∧ (me s).occ = .running ∧ s.pkg.badScales = [] ∧
       reach s 0 (vectorAgent s 0) .load (ownWindow + 0x1040) 8 8 true false = .ok (pad 0x1040) ∧ sectorState s (pad 0x1040) = none ∧
       ((me s).streams.map (fun e => (e.1, e.2.addr 4, e.2.bytes)) = [(63, ownWindow + 0x1040, 8)])) ∧
    (let s := stm 4 true [en_]
     unbuffered (me s) ∧ (me s).occ = .running ∧
       reach s 0 (vectorAgent s 0) .store (ownWindow + 0x1002) 1 1 true false = .ok (pad 0x1002) ∧ sectorState s (pad 0x1002) = none ∧
       ((me s).streams.map (fun e => (e.1, e.2.addr 4, e.2.bytes)) = [(63, ownWindow + 0x1002, 1)])) := by decide +kernel

theorem wit_QueuesStreamsAndWaitsGoOn_probes :
    let w : Wait := { on := .batonEmpty 2, since := 10, returned := 1, inFlight := true }
    (let s := sg (onDie (onCtx s0 0 (fun x => { x with waits := [(0, { w with inFlight := false })] })) 0 (fun d => { d with cycle := 1034 })) (.ctx 0)
     (ctxAt s 0).waits = [(0, { w with inFlight := false })] ∧ w.since + 1024 ≤ cycleOf s 0) ∧
    (let s := sg { onCtx s0 0 (fun x => { x with waits := [(0, w)] }) with defer := true } (.ctx 0)
     (ctxAt s 0).waits = [(0, w)] ∧ (ctxAt s 0).vq = [] ∧ (ctxAt s 0).vx = [] ∧ (ctxAt s 0).reserve = []) := by decide +kernel

/-- A copy job that has been accepted, and the cluster that holds it. -/
def job0 (st : Nat) : Job :=
  { id := 3, kind := .tcopy, issuer := none, launch := 7, part := 0, asid := 0, secure := false, card := 0x2000,
    cardAt := ownWindow + 0x2000, doom := none, rest := [], stalled := false, domWait := none, domGot := none,
    image := BitVec.ofNat 1024 (copyCard 0x1000 0x3000 64), hyper := false, state := st, begun := st == 2, bp := false, bw := false, staged := none, mask := none, mDim := 0,
    nDim := 0, rm := 0, srkey := 0, srep := 0, reads := [], writes := [], batchD := 0, batchA := 0, batchB := 0, done := 0, flags := 0,
    code := 0, faddr := 0, retry := 0 }
def jobS (st : Nat) (g : Signal) : State := sg (onClu s0 0 (fun k => { k with jobs := [job0 st] })) g
/-- A launch of a leg with staged inputs whose second card stands at 0x2080. -/
def stl : Launch := { l1 with legs := [(((List.replicate 16 0).set 1 (BitVec.ofNat 64 (0x169 + 2 * 2 ^ 24))).set 9 (BitVec.ofNat 64 (ownWindow + 0x2080)))] }
/-- A running pass of one member with one ciphertext. -/
def mem1 (done : Nat) : Member := { mb0 [{ ent0 with out := descOf (ownWindow + 0x1000) 1 3 2 0 5 0 }] with accs := [[]], done := done, state := 2 }
def run1 (done : Nat) (g : Signal) : State :=
  sg (onDie s0 0 (fun d => { d with launches := [(0, l1)], passes := [(0, { ps0 2 [0] [0] [] with members := [mem1 done] })] })) g

theorem wit_EnginesAndPassesGoOn_jobs :
    (let s := jobS 1 (.engine 0 0 .copy)
     (cluAt s 0).jobs = [job0 1] ∧ (cluAt s 0).power = .on ∧ (job0 1).kind.starts = true ∧ (job0 1).kind.engine = .copy ∧
       (job0 1).kind.carded = true ∧ (job0 1).doom = none) ∧
    (let s := jobS 2 (.job 0 0 (job0 2).id false)
     (cluAt s 0).jobs = [job0 2] ∧ (job0 2).domWait = none ∧ (job0 2).domGot = none ∧ cleanMemory s ∧ s.pkg.reenc = none ∧ s.pkg.dpids = []) ∧
    (let s := sg { onDie s0 0 (fun d => { d with launches := [(4, stl)] }) with defer := true } (.input 0 0 4 1 1)
     (find? (dieAt s 0).launches 4).map (fun l => (l.live, legStages (l.leg 1), l.clusters.contains 0, l.preempted.contains 0, hw (l.leg 1) 9)) =
         some (true, 2, true, false, BitVec.ofNat 64 (ownWindow + 0x2080)) ∧
       (cluAt s 0).jobs = [] ∧ 0x2080 < poolBase) := by decide +kernel

theorem wit_EnginesAndPassesGoOn_passes :
    (let s := run1 0 (.member 0 0 0)
     (find? (dieAt s 0).passes 0).map (fun p => (p.state, p.slice, (p.memberIn 0).map (fun m => (m.done, m.cur, m.count)))) =
         some (2, 0, some (0, 0, 1)) ∧
       0 < (paramSet 3).steps ∧ (cluAt s 0).jobs = [] ∧ cleanMemory s ∧ s.pkg.quiesced = false ∧
       (find? (dieAt s 0).passes 0).map (fun p => sequencerMay s 0 (p.secure (dieAt s 0))) = some true ∧ (find? (dieAt s 0).launches 0).map (fun l => l.preempted) = some []) ∧
    (let s := run1 1 (.pass 0 0)
     (find? (dieAt s 0).passes 0).map (fun p => (p.slice, p.members.map (fun m => m.done))) = some (0, [1]) ∧ 0 + 1 < (paramSet 3).steps) ∧
    (let s := run1 (paramSet 3).steps (.pass 0 0)
     (find? (dieAt s 0).passes 0).map (fun p => (p.askers, p.launch, p.members.map (fun m => m.done))) = some ([], 0, [(paramSet 3).steps]) ∧
       (find? (dieAt s 0).launches 0).map (fun l => l.stopped) = some none ∧ find? (dieAt s 0).hwAborts 0 = none) := by decide +kernel

/-- A deadline launch, cut to its elements, and a context of it. -/
def l9 (dl : Bool) (promise : Nat) : Launch :=
  { l1 with header := head_ dl 0 0, legs := [leg_], promise := promise, count := 1000, cut := 999 }
def cx (launch : Nat) (f : Ctx → Ctx) : Ctx := f { me s0 with work := { (me s0).work with launch := launch } }
/-- The sixteen contexts of cluster 0 run laps of launch 9, but for context 5. -/
def busy (f : Ctx → Ctx) : State :=
  { State.reset with ctxs := (span 0 16).map (fun c => (c, if c = 5 then f (cx 9 id) else cx 9 id)) }
/-- Cluster 0 holds saved lap 8199 of launch 9. -/
def svd (y : Bool) (s : State) : State :=
  onClu (onCtx s 8199 (fun _ => cx 9 (fun x => { x with occ := .saved }))) 0 (fun k => { k with saved := [{ num := 8199, yielded := y }], nextSave := 3 })

theorem wit_LapsAreDispatchedSavedAndRestored_dispatch :
    (let s := sg (onDie State.reset 0 (fun d => { d with launches := [(9, l9 true 500)] })) (.clu 0 0)
     let l := l9 true 500
     (dieAt s 0).launches = [(9, l)] ∧ l.live = true ∧ l.preempted = [] ∧ l.clusters = [0] ∧ (cluAt s 0).pools = [] ∧ (cluAt s 0).saved = [] ∧
       (cluAt s 0).jobs = [] ∧ cluOpen (cluAt s 0) = true ∧ s.pkg.quiesced = false ∧ 0 < (coreAt s 0).groups ∧ l.cut < l.total ∧
       min (lapSize s 0 (l.leg 1)) (l.total - l.cut) = 1 ∧ launchSlots l ≤ 8192 ∧ legStages (l.leg 1) = 0) ∧
    ∀ c, c / 16 = 0 → (ctxAt State.reset c).occ = .free :=
  ⟨by decide +kernel, under (by decide) (by decide +kernel)⟩

theorem wit_LapsAreDispatchedSavedAndRestored_pools :
    let p : Pool := { launch := 9, leg := 1, elems := [{ lin := 1, wid := 2, carry := [], entered := 7 }], aged := false, overdue := false }
    let s := sg (onClu (onDie State.reset 0 (fun d => { d with launches := [(9, l9 true 500)], cycle := 16391 })) 0 (fun k => { k with pools := [p] }))
      (.pool 0 0 9 1)
    (cluAt s 0).pools = [p] ∧ (find? (dieAt s 0).launches 9).map (fun l => (l.live, l.preempted.contains 0)) = some (true, false) ∧
      7 + 16384 ≤ (dieAt s 0).cycle := by decide +kernel

theorem wit_LapsAreDispatchedSavedAndRestored_saves :
    (let s := sg (onDie (busy (fun x => { x with stopReq := some 50 })) 0 (fun d => { d with cycle := 50, launches := [(9, l9 true 500)] })) (.ctx 5)
     plain (ctxAt s 5) ∧ frontFree (ctxAt s 5) = true ∧ domainPending s 5 = false ∧ (cluAt s 0).jobs = [] ∧ 0 < (cluAt s 0).nextSave ∧
       (ctxAt s 5).stopReq = some 50 ∧ 50 ≤ cycleOf s 5 ∧ (launchOf s 5).map (fun l => l.restop) = some false) ∧
    (let s := sg (svd true (busy (fun x => { x with yielding := true }))) (.ctx 5)
     plain (ctxAt s 5) ∧ cleanMemory s ∧ (ctxAt s 5).yielding = true ∧ (ctxAt s 5).loop.active = false ∧ domainPending s 5 = false ∧
       frontFree (ctxAt s 5) = true ∧ savedLive s { num := 8199, yielded := true } = true ∧ freeContexts s 0 = [] ∧ (cluAt s 0).saved = [{ num := 8199, yielded := true }] ∧
       8199 / 4096 < (cluAt s 0).nextSave) ∧
    (let s := sg (busy (fun x => { x with yielding := true })) (.ctx 5)
     (ctxAt s 5).yielding = true ∧ nextCand s 0 = none) := by decide +kernel

theorem wit_LapsAreDispatchedSavedAndRestored_restores :
    ∀ y, let s := sg (onDie (svd y State.reset) 0 (fun d => { d with launches := [(9, { l9 true 500 with preempted := [0] })] })) (.clu 0 0)
    (cluAt s 0).saved = [{ num := 8199, yielded := y }] ∧ cleanMemory s ∧ savedLive s { num := 8199, yielded := y } = true ∧ (cluAt s 0).jobs = [] ∧ cluOpen (cluAt s 0) = true ∧ s.pkg.quiesced = false ∧
      (ctxAt s 0).occ = .free ∧ 0 < (coreAt s 0).groups ∧ (ctxAt s 8199).work.launch = 9 ∧ (l9 true 500).stopped = none ∧
      (l9 true 500).restop = false ∧ (cluAt s 0).pools = [] := by decide +kernel

/-- A later launch runs in context 5 while a lap of an earlier one is saved. -/
def pre (dl : Bool) (promise : Nat) : State :=
  sg (onDie (svd false (busy (fun x => { x with work := { x.work with launch := 8 } }))) 0
    (fun d => { d with launches := [(9, l9 true 500), (8, l9 dl promise)] })) (.clu 0 0)

theorem wit_LapsAreDispatchedSavedAndRestored_preempts :
    (∀ dl, isDeadline (l9 dl 501).header = dl ∧ (dieAt (pre dl 501) 0).launches = [(9, l9 true 500), (8, l9 dl 501)] ∧
      (cluAt (pre dl 501) 0).saved = [{ num := 8199, yielded := false }] ∧ (ctxAt (pre dl 501) 8199).work.launch = 9 ∧
      (cluAt (pre dl 501) 0).pools = []) ∧
    ∀ j, j / 16 = 0 → (ctxAt (pre true 501) j).occ = .running ∧ (ctxAt (pre true 501) j).stopReq = none ∧
      (ctxAt (pre true 501) j).work.launch = if j = 5 then 8 else 9 :=
  ⟨by decide +kernel, under (by decide) (by decide +kernel)⟩

/-- Launch 9 of die 0 with its fields changed, at cycle 600, its context 5 running, its records 3 and 4 as given. -/
def lev (f : Launch → Launch) (a b : PubRec) : State :=
  sg (onDie (busy id) 0 (fun d => { d with launches := [(9, f (l9 true 500))], cycle := 600, records := [(3, a), (4, b)] })) (.launch 0 9)
def l9of (s : State) : Launch := (find? (dieAt s 0).launches 9).getD l1
/-- A header word replaced. -/
def hset (l : Launch) (k : Nat) (w : Word) : Launch := { l with header := l.header.set k w }

theorem wit_LaunchesRunTheirRoundsAndEnd_admission :
    let r : AdmReq := { at_ := 5, ctx := 5, header := head_ false 0 0, legs := [leg_], indirect := false, part := 0, asid := 0, secure := false }
    let q : AdmReq := { r with header := head_ true (2 ^ 40) 10 }
    let s := onDie (busy (fun x => { x with fwait := .admission 6 })) 0 (fun d => { d with requests := [r] })
    (dieAt s 0).requests = [r] ∧ (dieAt s 0).nextId < 2 ^ 16 ∧ r.ctx < 4096 ∧ (ctxAt s r.ctx).fwait = .admission 6 ∧ verdict s 0 r.part r.header < 2 ^ 63 ∧
      2 ^ 63 ≤ verdict s 0 q.part q.header := by decide +kernel

theorem wit_LaunchesRunTheirRoundsAndEnd_found (f : Launch → Launch) (a b : PubRec) :
    find? (dieAt (lev f a b) 0).launches 9 = some (l9of (lev f a b)) := rfl

theorem wit_LaunchesRunTheirRoundsAndEnd_begins : ∀ ind : Bool,
    let l := l9of (lev (fun l => { hset l 5 (BitVec.ofNat 64 (dieForm 0 (ownWindow + 0x1000))) with ready := false, indirect := ind }) PubRec.free PubRec.free)
    l.ready = false ∧ l.stopped = none ∧ l.indirect = ind ∧ headerPreds l.header = [] ∧ inRecords l.header = [] ∧
      headerCount l.header = dieForm 0 (ownWindow + 0x1000) := by decide +kernel

theorem wit_LaunchesRunTheirRoundsAndEnd_places :
    let s := lev id PubRec.free PubRec.free
    Machine.decide s (launchAgent 0 (l9 true 500)) .load (dieForm 0 (ownWindow + 0x1000)) = .ok (pad 0x1000) ∧
    Machine.decide s (launchAgent 0 (l9 true 500)) .store (dieForm 0 (ownWindow + 0x1000)) = .ok (pad 0x1000) ∧
    sectorState s (pad 0x1000) = none ∧ launchAway s 0 9 = false := ⟨rfl, rfl, by decide +kernel, rfl⟩

theorem wit_LaunchesRunTheirRoundsAndEnd_stops :
    (let l := l9of (lev (fun l => { l with work := 1, near := 1, far := 1 }) PubRec.free PubRec.free)
     l.stopped = none ∧ isDeadline l.header = true ∧ 16 * (headerW l.header + headerVcyc l.header * headerVmax l.header) < l.work ∧
       headerNear l.header < l.near ∧ headerFar l.header < l.far) ∧
    (l9of (lev id PubRec.free PubRec.free)).promise ≤ (dieAt (lev id PubRec.free PubRec.free) 0).cycle ∧
    (let l := l9of (lev (fun l => { l with retired := 1000 }) PubRec.free PubRec.free)
     l.ready = true ∧ 1 ≤ l.round ∧ min l.count (fullCount l.header) = l.retired ∧ l.lost = 0) ∧
    (let l := l9of (lev id PubRec.free PubRec.free)
     l.retired + l.lost < min l.count (fullCount l.header)) := by decide +kernel

theorem wit_LaunchesRunTheirRoundsAndEnd_completes :
    (let s := lev (fun l => hset { l with retired := 1000, roundOn := false } 8 (BitVec.ofNat 64 (dieForm 0 (ownWindow + 0x1000)))) PubRec.free PubRec.free
     let l := l9of s
     l.stopped = none ∧ l.roundOn = false ∧ l.restop = false ∧ outRecords l.header = [] ∧ inRecords l.header = [] ∧
       headerDone l.header = dieForm 0 (ownWindow + 0x1000) ∧ (dieAt s 0).passes = [] ∧ s.clus = []) ∧
    (l9of (lev (fun l => { l with stopped := some 8 }) PubRec.free PubRec.free)).stopped = some 8 := by decide +kernel

theorem wit_LaunchesRunTheirRoundsAndEnd_rounds :
    (let s := lev (fun l => hset (hset { l with roundOn := false, round := 0 } 24 0x4003) 25 0x4004) { PubRec.free with version := 1, state := 2 } PubRec.free
     let l := l9of s
     l.ready = true ∧ l.stopped = none ∧ l.roundOn = false ∧ l.restop = false ∧ l.round = 0 ∧
       inRecords l.header = [(3, 0)] ∧ outRecords l.header = [4] ∧ (recAt (dieAt s 0) 3).version = 1) ∧
    (let l := l9of (lev (fun l => hset (hset { l with retired := 999, lost := 1 } 24 0x4003) 25 0x4004) PubRec.free { PubRec.free with state := 2 })
     l.roundOn = true ∧ l.restop = false ∧ min l.count (fullCount l.header) = l.retired + l.lost) := by decide +kernel

theorem wit_LaunchesRunTheirRoundsAndEnd_settles :
    let s := sg (lev id { PubRec.free with version := 7, state := 3, inputs := [(4, 2)] } { PubRec.free with version := 2, state := 4 }) (.record 0 3)
    (recAt (dieAt s 0) 3).state = 3 ∧
      ∀ e ∈ (recAt (dieAt s 0) 3).inputs, (recAt (dieAt s 0) e.1).state = 4 ∧ (recAt (dieAt s 0) e.1).version = e.2 := by decide +kernel

theorem wit_LaunchesRunTheirRoundsAndEnd_refire :
    let s := sg (onDie { State.reset with ctxs := [(5, cx 9 (fun x => { x with stopReq := some 600 }))] } 0
      (fun d => { d with cycle := 600, launches := [(9, { l9 true 500 with restop := true })] })) (.launch 0 9)
    (l9of s).restop = true ∧ (ctxAt s 5).work.launch = 9 ∧ (ctxAt s 5).stopReq = some 600 ∧ 600 ≤ (dieAt s 0).cycle ∧
      s.ctxs.map (fun e => e.1) = [5] := by decide +kernel

/-! Power, memory and outside -/

/-- Cluster 2 of die 1 in a power state, at a cycle, with a byte in its scratchpad, and a live launch or none. -/
def pwr (p : Power) (cyc : Nat) (live : Bool) : State :=
  let s := onClu State.reset 66 (fun x => { x with power := p, since := 100, idle := 50, hist := [(3, 5)] })
  let s := onDie s 1 (fun d => { d with cycle := cyc, launches := if live then [(4, { l1 with clusters := [66] })] else [] })
  sg { s with mem := writeBytes s.mem (padKey 66 0x10) [1] } (.clu 1 2)

theorem wit_PowerMonitorsAndResetsTakeEffect_power :
    (let s := pwr .on 164 false
     idleClu s 66 ∧ (cluAt s 66).power = .on ∧ (cluAt s 66).idle + 64 ≤ (dieAt s 1).cycle ∧ (cluAt s 66).since + 64 ≤ (dieAt s 1).cycle) ∧
    (let s := pwr .gated (100 + 2 ^ 20) false
     idleClu s 66 ∧ (cluAt s 66).hot = false ∧ (cluAt s 66).since + 2 ^ 20 ≤ (dieAt s 1).cycle ∧ (cluAt s 66).trace.records = []) ∧
    (let s := pwr .retention (100 + 2 ^ 24) false
     idleClu s 66 ∧ (cluAt s 66).since + 2 ^ 24 ≤ (dieAt s 1).cycle ∧ cluReserved s 66 = false ∧ (cluAt s 66).trace.records = []) ∧
    (let s := pwr .off 999 true
     (cluAt s 66).power ≠ .on ∧ (cluAt s 66).hot = false ∧ cluReserved s 66 = true) := by decide +kernel

theorem wit_PowerMonitorsAndResetsTakeEffect_temperatures :
    (get 0 [(1, (380 : BitVec 16))] 1).toInt = 380 ∧ ((420 : BitVec 16).toInt = 420) ∧ (0xFFFF : BitVec 16).toInt < 360 ∧
    (sg State.reset (.monitors 1 [0, 420, 380, 0xFFFF] [7, 8] [9])).signal = .monitors 1 [0, 420, 380, 0xFFFF] [7, 8] [9] ∧
    (dieAt State.reset 1).refreshed.all (fun t => Nat.ble (t + 1024) (dieAt State.reset 1).cycle) = true ∧
    (some 76 : Option Nat).all (fun t => Nat.ble (t + 1024) 1100) = true := by decide

theorem wit_PowerMonitorsAndResetsTakeEffect_resets :
    let s := sg (onClu (onDie State.reset 1 (fun d => { d with launches := [(4, l1)] })) 66 (fun x => { x with part := 3 })) (.reset 1 2)
    (find? (dieAt s 1).launches 4).map (fun l => l.stopped) = some none ∧ 66 / 64 = 1 ∧ 66 % 64 < 40 ∧ (cluAt s 66).part ≠ 0 ∧
      (cluAt s 66).part ≠ 0xFFFF ∧
    ∃ e ∈ (dieAt (onDie s 1 (fun d => { d with cycle := 1029, voltsOut := [(7, 5)] })) 1).voltsOut,
      e.2 + 1024 ≤ (dieAt (onDie s 1 (fun d => { d with cycle := 1029, voltsOut := [(7, 5)] })) 1).cycle := by decide +kernel

/-- A leaf of a frame at pa, valid and readable, writable and executable. -/
def leafOf (pa : Nat) : Word := BitVec.ofNat 64 (pa + 0x1D)
def pa4 : Nat := 4 * 2 ^ 30 + 0x1040
/-- Page 3 of address space 0 of die 0 maps the frame at 4 GiB, in a region that all may reach. -/
def mapped : State :=
  let s := onPkg s0 (fun p => { p with regions := put p.regions 2 { base := 0, lim := 0x2900000000, attr := 0x8000000000000000 } })
  onDie s 0 (fun d => { d with aspaces := [(0, { part := 0, image := 0x10000, root := 0 })], resident := [(3, leafOf (4 * 2 ^ 30))] })
/-- The place of a byte of that page. -/
def at4 (off : Nat) : Except Denial Place := Machine.decide mapped (frontAgent mapped 0) .load (3 * 2 ^ 30 + off)

theorem wit_MemoryTraceAndDomainEventsTakeEffect_sector :
    (match at4 0x1044 with | .ok p => p.pa == some (pa4 + 4) && !p.raw | .error _ => false) = true ∧
    (pa4 + 4) / 64 = (BitVec.ofNat 48 pa4).toNat / 64 ∧ dieOf 0 = 0 := by decide +kernel

theorem wit_MemoryTraceAndDomainEventsTakeEffect_scrub :
    let s := sg (onDie (onClu State.reset 66 (fun x => { x with scrub := some 9, since := 5 })) 1 (fun d => { d with cycle := 1200005 })) (.clu 1 2)
    (cluAt s 66).scrub = some 9 ∧ cluReserved s 66 = false ∧ (cluAt s 66).since + 1200000 ≤ (dieAt s 1).cycle ∧
    (onPkg State.reset (fun p => { p with reenc := some 7 })).pkg.reenc = some 7 ∧ inNear (7 * 4096) = true ∧ State.reset.clus = [] := by
  decide +kernel

/-- Die 2 with an open trace sink that has three records of room. -/
def sink : State :=
  onDie mapped 2 (fun d => { d with tsbase := 0x4000, tslen := 0x50, tswr := 0x20, tsctl := 1, cycle := 3 * 2 ^ 20 + 77, marker := 2 })

theorem wit_MemoryTraceAndDomainEventsTakeEffect_markers :
    (dieAt sink 2).marker ≠ BitVec.ofNat 16 ((dieAt sink 2).cycle / 2 ^ 20) ∧ sinkOpen (dieAt sink 2) = true ∧
    (dieAt sink 2).tswr + 16 * 3 ≤ (dieAt sink 2).tslen.toNat ∧ cleanMemory sink ∧ sink.pkg.reenc = none ∧
    markerSent (dieAt sink 2) 2 = true ∧ markerSent (dieAt sink 2) 3 = false ∧
    ∀ j : Fin 3, regionDecision sink.pkg (sinkAgent sink 2) .store (0x4020 + 16 * j.val) = none := by decide +kernel

/-- A part whose partition 0 is bound to domain 77 and exports the frame at 4 GiB. -/
def dom_ : State := onPkg mapped (fun p => { p with dpids := [(0, 77)], targets := [(77 * 1024 + 3, leafOf (4 * 2 ^ 30))] })

theorem wit_MemoryTraceAndDomainEventsTakeEffect_arrivals :
    boundPart dom_.pkg 76 = none ∧ boundPart dom_.pkg 77 = some 0 ∧
    get (0 : Word) dom_.pkg.targets (77 * 1024 + (3 * 2 ^ 30 + 0x1040) / 2 ^ 30) = leafOf (4 * 2 ^ 30) ∧
    leafFrame (leafOf (4 * 2 ^ 30)) + 0x1040 = pa4 ∧ exportOk (leafOf (4 * 2 ^ 30)) = true ∧
    leafAllows (leafOf (4 * 2 ^ 30)) .load = true ∧ leafAllows (leafOf (4 * 2 ^ 30)) .store = true ∧
    leafAllows (leafOf (4 * 2 ^ 30)) .atomic = true ∧ leafCov (leafOf (4 * 2 ^ 30)) = false ∧
    regionDecision dom_.pkg (unitAgent (ownerDie (pa4 / 2 ^ 30)) 0 0 false) .load pa4 = none ∧
    regionDecision dom_.pkg (unitAgent (ownerDie (pa4 / 2 ^ 30)) 0 0 false) .store pa4 = none ∧
    regionDecision dom_.pkg (unitAgent (ownerDie (pa4 / 2 ^ 30)) 0 0 false) .atomic pa4 = none ∧
    findingAt dom_.pkg pa4 = none ∧ dom_.pkg.recovery = false ∧ dom_.pkg.reenc = none := by decide +kernel

/-- A request to the domain that context 0 waits for, some cycles after it was sent. -/
def req (k : DomainKind) (n after : Nat) : State :=
  let r : DomainReq :=
    { id := 7, ctx := 0, va := 0x8000000000000000, part := 0, size := n, sext := true, d := 9, kind := k, sent := 5, launch := 1
      owner := 0, job := none, stream := .scalar, waits := false, live := true, host := false }
  onDie (onPkg (onCtx s0 0 (fun x => { x with fwait := .domain 7 9 true false })) (fun p => { p with domReqs := [r] })) 0 (fun d => { d with cycle := 5 + after })

theorem wit_MemoryTraceAndDomainEventsTakeEffect_responses :
    (let s := req .load 8 (2 ^ 21 - 1)
     (ctxAt s 0).fwait = .domain 7 9 true false ∧ (ctxAt s 0).lap.buf = [] ∧ (ctxAt s 0).occ = .running ∧
       s.pkg.domReqs.map (fun r => (r.id, r.size)) = [(7, 8)] ∧ cycleOf s 0 < 5 + 2 ^ 21) ∧
    (let s := req (.store [1]) 1 (2 ^ 21)
     s.pkg.domReqs.map (fun r => (r.kind, r.sent)) = [(.store [1], 5)] ∧ 5 + 2 ^ 21 ≤ cycleOf s 0 ∧ ¬ cycleOf s 0 < 5 + 2 ^ 21) := by
  decide +kernel

/-- A channel of partition 0 that expects command 5 and holds the management lock of a part at cycle 1000. -/
def ch9 : Channel := { id := 9, expect := 5, sent := 12, part := some 0, dead := false, lastOp := 3, lastSt := 6, lastPay := [1, 2] }
def frm (q : Nat) (ok : Bool) : Frame := { port := 2, chan := 9, seq := BitVec.ofNat 64 q, tagOk := ok, formed := true }
def held_ (u : Nat) : LockHold := { chan := 9, req := 3, until_ := u }
def hst (g : Signal) : State :=
  sg (onDie (onPkg mapped (fun p => { p with channels := [{ ch9 with id := 8 }, ch9], lock := some (held_ 700000) })) 0 (fun d => { d with cycle := 1000 })) g

theorem wit_HostCommandsAreAnsweredAndPerformed_order :
    chanOf (hst (.frame (frm 5 true))).pkg 9 = some ch9 ∧ (frm 5 false).tagOk = false ∧ (frm 4 true).seq.toNat + 1 = ch9.expect ∧
    (frm 3 true).seq.toNat + 1 < ch9.expect ∧ ch9.expect < (frm 6 true).seq.toNat ∧ mayCommand (hst (.frame (frm 5 true))) (frm 5 true) ch9 ∧
    listedOpcode 0x77 = false := by decide +kernel

theorem wit_HostCommandsAreAnsweredAndPerformed_memory :
    (match hostAgent (hst .none) ch9 0 with
      | none => false
      | some a => (match hostPlace (hst .none) a .store (3 * 2 ^ 30 + 0x103F) with | .ok p => p.key == 4 * 2 ^ 30 + 0x103F | _ => false) &&
          (match hostPlace (hst .none) a .load (3 * 2 ^ 30 + 0x1040) with | .ok q => q.key == 4 * 2 ^ 30 + 0x1040 && !q.raw | _ => false) &&
          (hostReach (hst .none) a .store 5 matches .error _) && (hostReach (hst .none) a .load (2 ^ 64 - 3) matches .error _)) = true ∧
    cleanMemory (hst .none) ∧ (hst .none).pkg.reenc = none := by decide +kernel

/-- A launch header and leg that stand in that page, and the state of their submission. -/
def head3 (dl : Bool) (W D : Nat) : List Word :=
  ((head_ dl W D).set 6 (BitVec.ofNat 64 (3 * 2 ^ 30 + 0x4000))).set 8 (BitVec.ofNat 64 (3 * 2 ^ 30 + 0x5000))
def subm (dl : Bool) (W D : Nat) : State :=
  let put_ (m : Memory) (key : Nat) (l : List Word) := writeBytes m key (l.flatMap (fun w => natBytes 8 w.toNat))
  let s := hst (.submit (frm 5 true) 0 (BitVec.ofNat 64 (3 * 2 ^ 30 + 0x3000)))
  { s with mem := put_ (put_ s.mem (4 * 2 ^ 30 + 0x3000) (head3 dl W D)) (4 * 2 ^ 30 + 0x4000) leg_ }
abbrev submits (dl : Bool) (W D : Nat) : Bool :=
  let s := subm dl W D
  match hostAgent s ch9 0 with
  | none => false
  | some a => (match hostWords s a (3 * 2 ^ 30 + 0x3000) 32 with | .ok h => h == head3 dl W D | .error _ => false) &&
      (match hostLegs s a (3 * 2 ^ 30 + 0x4000) 1 with | .ok l => l == [leg_] | .error _ => false) &&
      (match hostPlace s a .store (3 * 2 ^ 30 + 0x5000) with | .ok _ => true | .error _ => false) &&
      (headerFault (head3 dl W D) (dieAt s 0) 0 false).isNone && (legsFault [leg_]).isNone && headerDone (head3 dl W D) == 3 * 2 ^ 30 + 0x5000

theorem wit_HostCommandsAreAnsweredAndPerformed_launch :
    submits true 1000 100000 = true ∧ verdict (subm true 1000 100000) 0 0 (head3 true 1000 100000) < 2 ^ 63 ∧
    submits true (2 ^ 40) 10 = true ∧ 2 ^ 63 ≤ verdict (subm true (2 ^ 40) 10) 0 0 (head3 true (2 ^ 40) 10) ∧
    (dieAt (subm true 1000 100000) 0).requests = [] ∧ (dieAt (subm true 1000 100000) 0).nextId < 2 ^ 16 := by decide +kernel

theorem wit_HostCommandsAreAnsweredAndPerformed_status :
    let s := onDie (hst (.statusOf (frm 5 true) 0 4)) 0 (fun d => { d with launches := [(4, l1)], ended := [(6, (0, [1, 2, 3]))] })
    (find? (dieAt s 0).launches 4).map (fun l => l.part) = ch9.part ∧ find? (dieAt s 0).launches 6 = none ∧
      find? (dieAt s 0).ended 6 = some (0, [1, 2, 3]) := by decide +kernel

theorem wit_HostCommandsAreAnsweredAndPerformed_locks :
    (hst .none).pkg.lock = some (held_ 700000) ∧ (dieAt (hst .none) 0).cycle = 1000 ∧ 1000 < (held_ 700000).until_ ∧ (held_ 1000).until_ ≤ 1000 ∧
    mayLocked (hst .none) ch9 = true ∧ mayLocked (onPkg (hst .none) (fun p => { p with lock := none })) ch9 = false ∧
    (exportTables (hst .none).pkg).length < 64 ∧ areaOk 0x10000000000 = true := by decide +kernel

/-- An empty image at a place of the far memory. -/
def img : Image :=
  { pa := 0x10000000000, saved := [], ctxs := [], cells := [], pools := [], records := [], views := [], launches := [], jobs := [], passes := [],
    covered := [], cycles := [] }

theorem wit_HostCommandsAreAnsweredAndPerformed_restore :
    let s := onPkg (hst (.area (frm 5 true) 0x10000000000)) (fun p => { p with quiesced := true, images := [img] })
    s.pkg.quiesced = true ∧ s.pkg.images.find? (fun j => j.pa == 0x10000000000) = some img ∧ mayLocked s ch9 = true ∧
      mayCommand s (frm 5 true) ch9 := by decide +kernel

theorem wit_SpdmRequestsAreAnswered :
    let s := onPkg (sg State.reset (.port 2)) (fun p => { p with sessions := [5, 6] })
    s.pkg.recovery = false ∧ s.pkg.sessions.length < 16 ∧ s.pkg.sessions.contains 6 = true ∧ s.pkg.sessions.contains 7 = false ∧
      chanOf s.pkg 6 = none ∧ s.pkg.channels.length < 16 ∧ (onPkg s (fun p => { p with recovery := true })).pkg.recovery = true := by
  decide +kernel

/-! The machine as a whole -/

theorem wit_StepsRunTheDecodedInstruction :
    (let s := State.reset.withFetchWord 32 0x318A0001
     readyToFetch s ∧ walkBusy s (frontAgent s s.turn) (me s).pc.toNat = false ∧ (me s).pc.toNat = ownWindow ∧ pageBusy s (pad 0) = false ∧ sectorState s (pad 0) = none ∧ holdsFront (me s) (.add 6 6 5) = false ∧
       holdsDevice s s.turn (.add 6 6 5) = false) ∧
    (Instr.lapDispatch.accepts (.clu 0 0) = true ∧ (Signal.clu 0 0).legal = true ∧ frameWaits State.reset (.clu 0 0) = false) ∧
    (Instr.quiesce.accepts (.frame (frm 5 true)) = true ∧ (Signal.frame (frm 5 true)).legal = true ∧
      frameWaits (onPkg State.reset (fun p => { p with awaited := [frm 4 true] })) (.frame (frm 5 true)) = true) ∧
    (Instr.add 6 6 5).accepts .none = false ∧ ctxOk (BitVec.ofNat 12 1000) = false ∧ State.reset.agenda = [] := by decide +kernel

theorem wit_StepsRunTheDecodedInstruction_word :
    (let s := State.reset.withFetchWord 32 0x318A0001
     Machine.decide s (frontAgent s s.turn) .fetch ownWindow = .ok (pad 0) ∧ decodeWord (wordAt s (pad 0)) = .ok (.add 6 6 5)) ∧
    (let s := State.reset.withFetchWord 32 0x0000007F
     ∃ e, decodeWord (wordAt s (pad 0)) = .error e) ∧
    ∃ d, Machine.decide (fr fun x => { x with pc := 0x20 }) (frontAgent s0 0) .fetch 0x20 = .error d :=
  ⟨⟨rfl, rfl⟩, ⟨_, rfl⟩, _, rfl⟩

theorem runs_on {s : State} (h : (match step s with | .next _ => true | _ => false) = true) : ∃ t, step s = .next t := by
  cases hs : step s with
  | next t => exact ⟨t, rfl⟩
  | fault f => rw [hs] at h; cases h
  | refused r => rw [hs] at h; cases h

theorem wit_MemoryKeepsItsForm : memoryForm (State.reset.withFetchWord 32 0x318A0001) ∧ ∃ t, step (State.reset.withFetchWord 32 0x318A0001) = .next t :=
  ⟨by decide +kernel, runs_on (by decide +kernel)⟩

theorem wit_WorldsAndFirmwareAreKept : guarded (State.reset.withFetchWord 32 0x318A0001) ∧ ∃ t, step (State.reset.withFetchWord 32 0x318A0001) = .next t :=
  ⟨by decide +kernel, runs_on (by decide +kernel)⟩

/-! Worked examples of the manual, one step each -/

/-- What holds of the next state of an instruction. -/
def gives (i : Instr) (s : State) (f : Ctx → Bool) : Bool := match exec i s with | .next t => f (ctxAt t s.turn) | _ => false
/-- Elements of a width, packed from element 0 on. -/
def packed (w : Nat) (l : List Nat) : VReg := BitVec.ofNat 16384 (l.foldr (fun a r => a + 2 ^ w * r) 0)
/-- The state of vs with v24 and v32 given. -/
def dat (vt : BitVec 17) (vl : Nat) (td ta tb : BitVec 5) (a b : VReg) : State :=
  onCtx (vs vt vl 0 td ta tb) 0 (fun x => (x.setV 24 a).setV 32 b)

/-- The nibbles of v4 after three VTAGs (the example after R45). -/
theorem test_vtag_leaves_the_bytes :
    gives (.vtag 24 8) (dat 0x12C 2 4 4 4 (packed 32 [0x12345678, 0xFFFFFFFE]) 0)
      (fun x => [elem x 24 4 0, elem x 24 4 1, elem x 24 4 2, elem x 24 4 3] == [8, 7, 6, 5]) = true := by decide +kernel

/-- The chunked sum of four f16 elements (the example after R69). -/
theorem test_vred_sums_by_the_tree :
    gives (.vredSum 16 24 0 false) (dat 0x128 4 8 8 8 (packed 16 [0x6800, 0x3C00, 0x3C00, 0]) 0)
      (fun x => elem x 16 16 0 == 0x6800) = true := by decide +kernel

/-- Two rows of the block quantisation (the example after R111): 3.5 and −1.0 under a scale of 0x78. -/
theorem test_vcvt_block_quantises :
    gives (.vcvtBlk 16 24 32 0 false) (dat 0x12C 4 14 10 17 (packed 32 [0x40600000, 0x3DCCCCCD, 0xBF800000, 0]) (packed 8 [0x78]))
      (fun x => [elem x 16 8 0, elem x 16 8 1, elem x 16 8 2, elem x 16 8 3] == [0x7E, 0x55, 0xF0, 0]) = true := by decide +kernel

/-- The four elements of the EHIST example (after R72). -/
theorem test_ehist_counts :
    gives (.ehistAcc 24 0 7 false) (dat 0x12C 4 8 8 8 (packed 16 [0x3C00, 1, 0x7BFF, 0x8000]) 0)
      (fun x => [32, 8, 65, 47, 64].map (fun k => Machine.get 0 x.regs.hb k) == [1, 1, 1, 1, 1]) = true := by decide +kernel

/-- VCOMP compresses the marked elements, and MSETVL counts them (the example after R126). -/
theorem test_vcomp_packs :
    gives (.vcompCompress 16 24 0) (onCtx (dat 0x16C 8 4 4 4 (packed 32 [0, 7, 0, 0, 0xFFFFFFFE, 0, 5, 0]) 0) 0 (fun x => x.setM 0 0x52))
      (fun x => [elem x 16 32 0, elem x 16 32 1, elem x 16 32 2, elem x 16 32 3] == [7, 0xFFFFFFFE, 5, 0]) = true ∧
    gives (.msetvl 5 0) (onCtx (dat 0x16C 8 4 4 4 0 0) 0 (fun x => x.setM 0 0x52)) (fun x => x.x 5 == 3 && x.vl == 3) = true := by
  decide +kernel

/-- The digits of 0x18000 with β = 16 (the example after R127). -/
theorem test_vdecomp_digits :
    let s := dat 0x16E 1 18 18 18 (packed 64 [0x18000]) 0
    gives (.vdecomp 16 24 16 true 7 false 0) s (fun x => elem x 16 64 0 == 0xFFFFFFFEFFFF8001) = true ∧
    gives (.vdecomp 16 24 16 true 7 false 1) s (fun x => elem x 16 64 0 == 2) = true ∧
    gives (.vdecomp 16 24 16 true 7 false 2) s (fun x => elem x 16 64 0 == 0) = true := by decide +kernel

/-- Of two elements at one address the higher stands (the example after R184). -/
theorem test_vst_indexed_overlap :
    (match exec (.vstX 24 8 32 false false false) (dat 0x12C 3 4 4 5 (packed 32 [10, 20, 30]) (packed 32 [0, 8, 0])) with
      | .next t => readNat t.mem (padKey 0 0x1000) 4 == 30 && readNat t.mem (padKey 0 0x1008) 4 == 20
      | _ => false) = true := by decide +kernel

/-- ADDI to x0 has no effect but its retirement; a quotient by 0 is all ones and its remainder the dividend (R34, R73). -/
theorem test_scalar_corners :
    gives (.addi 0 0 5) s0 (fun x => x.x 0 == 0 && x.pc == (me s0).pc + 4) = true ∧
    gives (.divn 5 8 0) (mm false) (fun x => x.x 5 == 0xFFFFFFFFFFFFFFFF) = true ∧
    gives (.rem 5 8 0) (mm false) (fun x => x.x 5 == BitVec.ofNat 64 ownWindow) = true := by decide +kernel

/-- ADD keeps the low 64 bits, and a byte store the low 8 (R73, R176). -/
theorem test_values_wrap :
    gives (.add 5 9 9) (fr fun x => x.setX 9 0x8000000000000001) (fun x => x.x 5 == 2) = true ∧
    (match exec (.st 9 8 0 0 0) (onCtx (mm false) 0 (fun x => x.setX 9 0x1FF)) with
      | .next t => readNat t.mem (padKey 0 0) 1 == 0xFF
      | _ => false) = true := by decide +kernel

end Sys2Proof.Tests
end

section
/-! # Every step keeps the form of memory and of images (R4, R192, R331)

`memoryForm` speaks of two fields of the state: memory, and the images of the package. The operations of the model are chains of updates,
of which few write memory and one, DUMP, makes an image. Each operation `f` has one rule here, `Formed.after_f`: if the form holds of a
state, it holds of what `f` makes of it. Its proof follows the branches of `f`, and in each branch it is the chain of the rules of what
that branch does, in order: `h.after_charge.after_putBytes` says that the form still stands after a charge and then a store. -/

namespace Sys2Proof.Machine

open Sys2Proof.Safety

/-! ## The form -/

/-- A memory and a list of images are in their canonical form. -/
def InForm (m : Memory) (is : List Image) : Prop :=
  Memory.wf m = true ∧ ∀ i ∈ is, Memory.wf i.cells = true ∧ ∀ e ∈ i.cells, 2 ^ 56 ≤ e.1

/-- Memory and the images of a state are in their canonical form. -/
def Formed (s : State) : Prop := InForm s.mem s.pkg.images

theorem formed_iff (s : State) : Formed s ↔ memoryForm s := Iff.rfl

/-- The state that an instruction leads to, if any, is in form. -/
abbrev FormedNext : Result → Prop
  | .next t => Formed t
  | _ => True

/-! The state that the other outcomes of the model leave behind. -/

abbrev Access.left {α : Type} : Access α → State
  | .done s _ => s
  | .fault s _ => s
  | .wait s => s
  | .gone s => s

abbrev Elem.left : Elem → State
  | .got s _ => s
  | .bad s _ => s
  | .nospec s => s
  | .wait s => s
  | .gone s => s

abbrev Loaded.left : Loaded → State
  | .upTo s _ => s
  | .fault s _ _ _ => s
  | .wait s => s
  | .gone s => s

abbrev VOut.left : VOut → State
  | .done s _ => s
  | .fault s _ _ _ => s
  | .wait s => s
  | .gone s => s

abbrev Retired.left : Retired → State
  | .moved s => s
  | .stuck s => s
  | .ended s => s

abbrev Closing.left : Closing → State
  | .closed s => s
  | .ended s => s

abbrev Reading.left {α : Type} : Reading α → State
  | .got s _ => s
  | .ended s => s
  | .held s => s

abbrev Turn.left : Turn → State
  | .run _ s => s
  | .pass s => s

section
variable {α : Type} {s t : State}

/-! An outcome in form that is known to be of a kind: its state is in form. -/

theorem Formed.fst {p : State × α} {x : α} (h : Formed p.1) (e : p = (t, x)) : Formed t := by subst e; exact h

theorem Formed.accessDone {o : Access α} {x : α} (h : Formed o.left) (e : o = .done t x) : Formed t := by subst e; exact h
theorem Formed.accessFault {o : Access α} {n : Nat} (h : Formed o.left) (e : o = .fault t n) : Formed t := by subst e; exact h
theorem Formed.accessWait {o : Access α} (h : Formed o.left) (e : o = .wait t) : Formed t := by subst e; exact h
theorem Formed.accessGone {o : Access α} (h : Formed o.left) (e : o = .gone t) : Formed t := by subst e; exact h

theorem Formed.elemGot {o : Elem} {bs : List Byte} (h : Formed o.left) (e : o = .got t bs) : Formed t := by subst e; exact h
theorem Formed.elemBad {o : Elem} {n : Nat} (h : Formed o.left) (e : o = .bad t n) : Formed t := by subst e; exact h
theorem Formed.elemNospec {o : Elem} (h : Formed o.left) (e : o = .nospec t) : Formed t := by subst e; exact h
theorem Formed.elemWait {o : Elem} (h : Formed o.left) (e : o = .wait t) : Formed t := by subst e; exact h
theorem Formed.elemGone {o : Elem} (h : Formed o.left) (e : o = .gone t) : Formed t := by subst e; exact h

theorem Formed.loadedUpTo {o : Loaded} {n : Nat} (h : Formed o.left) (e : o = .upTo t n) : Formed t := by subst e; exact h
theorem Formed.loadedFault {o : Loaded} {n k j : Nat} (h : Formed o.left) (e : o = .fault t n k j) : Formed t := by subst e; exact h
theorem Formed.loadedWait {o : Loaded} (h : Formed o.left) (e : o = .wait t) : Formed t := by subst e; exact h
theorem Formed.loadedGone {o : Loaded} (h : Formed o.left) (e : o = .gone t) : Formed t := by subst e; exact h

theorem Formed.vOutDone {o : VOut} {f : Flags} (h : Formed o.left) (e : o = .done t f) : Formed t := by subst e; exact h
theorem Formed.vOutFault {o : VOut} {n k : Nat} {v : Word} (h : Formed o.left) (e : o = .fault t n v k) : Formed t := by subst e; exact h
theorem Formed.vOutWait {o : VOut} (h : Formed o.left) (e : o = .wait t) : Formed t := by subst e; exact h
theorem Formed.vOutGone {o : VOut} (h : Formed o.left) (e : o = .gone t) : Formed t := by subst e; exact h

theorem Formed.retiredMoved {o : Retired} (h : Formed o.left) (e : o = .moved t) : Formed t := by subst e; exact h
theorem Formed.retiredStuck {o : Retired} (h : Formed o.left) (e : o = .stuck t) : Formed t := by subst e; exact h
theorem Formed.retiredEnded {o : Retired} (h : Formed o.left) (e : o = .ended t) : Formed t := by subst e; exact h

theorem Formed.closingClosed {o : Closing} (h : Formed o.left) (e : o = .closed t) : Formed t := by subst e; exact h
theorem Formed.closingEnded {o : Closing} (h : Formed o.left) (e : o = .ended t) : Formed t := by subst e; exact h

theorem Formed.readingGot {o : Reading α} {x : α} (h : Formed o.left) (e : o = .got t x) : Formed t := by subst e; exact h
theorem Formed.readingEnded {o : Reading α} (h : Formed o.left) (e : o = .ended t) : Formed t := by subst e; exact h
theorem Formed.readingHeld {o : Reading α} (h : Formed o.left) (e : o = .held t) : Formed t := by subst e; exact h

theorem Formed.turnRun {o : Turn} {i : Instr} (h : Formed o.left) (e : o = .run i t) : Formed t := by subst e; exact h
theorem Formed.turnPass {o : Turn} (h : Formed o.left) (e : o = .pass t) : Formed t := by subst e; exact h

theorem Formed.accessState {o : Access α} (h : Formed o.left) : Formed o.state := by
  cases o <;> exact h

theorem Formed.retiredState {o : Retired} (h : Formed o.left) : Formed o.state := by
  cases o <;> exact h

/-! Branches, and updates made in turn -/

theorem Formed.ite {c : Prop} [Decidable c] (h : Formed s) (k : Formed t) : Formed (if c then s else t) := by
  split
  · exact h
  · exact k

theorem FormedNext.ite {c : Prop} [Decidable c] {x y : Result} (hx : FormedNext x) (hy : FormedNext y) :
    FormedNext (if c then x else y) := by
  split
  · exact hx
  · exact hy

theorem FormedNext.of_next {r : Result} (h : ∀ t, r = .next t → Formed t) : FormedNext r := by
  cases r with
  | next t => exact h t rfl
  | fault f => trivial
  | refused f => trivial

/-- A branch between two outcomes, of which `g` gives the state. -/
theorem Formed.iteAt {β : Type} (g : β → State) {c : Prop} [Decidable c] {x y : β} (hx : Formed (g x)) (hy : Formed (g y)) :
    Formed (g (if c then x else y)) := by
  split
  · exact hx
  · exact hy

theorem Formed.iteFst {c : Prop} [Decidable c] {x y : State × α} (hx : Formed x.1) (hy : Formed y.1) :
    Formed (if c then x else y).1 := .iteAt Prod.fst hx hy

theorem Formed.foldl {l : List α} {f : State → α → State} (h : Formed s) (hf : ∀ t x, Formed t → Formed (f t x)) :
    Formed (l.foldl f s) := by
  induction l generalizing s with
  | nil => exact h
  | cons x r ih => exact ih (hf s x h)

/-! Updates of one field -/

/-- Nothing that memory and the images do not stand in matters. -/
theorem Formed.rest {cs : SMap Ctx} {ks : SMap Core} {us : SMap Cluster} {ds : SMap Die} {n z : Nat} {l : List Nat}
    {a : List (Instr × Signal)} {g : Signal} {f : Bool} (h : Formed s) :
    Formed { mem := s.mem, ctxs := cs, cores := ks, clus := us, dies := ds, pkg := s.pkg, turn := n, turns := l, agenda := a, signal := g,
             defer := f, steps := z } := h

theorem Formed.withMem {m : Memory} (h : Formed s) (hm : Memory.wf s.mem = true → Memory.wf m = true) : Formed { s with mem := m } :=
  ⟨hm h.1, h.2⟩

theorem Formed.of_eq (h : Formed s) (hm : t.mem = s.mem) (hp : t.pkg = s.pkg) : Formed t := by
  unfold Formed
  rw [hm, hp]
  exact h

theorem Formed.of_records {n : Nat} (h : Formed s) (r : records n s t) : Formed t := by
  obtain ⟨hm, -, -, -, -, -, -, -, hi⟩ := r
  exact ⟨hm h.1, hi ▸ h.2⟩

theorem Formed.after_setCtx {c : Nat} {x : Ctx} (h : Formed s) : Formed (setCtx s c x) := h
theorem Formed.after_setClu {k : Nat} {x : Cluster} (h : Formed s) : Formed (setClu s k x) := h
theorem Formed.after_onCtx {c : Nat} {f : Ctx → Ctx} (h : Formed s) : Formed (onCtx s c f) := h
theorem Formed.after_onCore {k : Nat} {f : Core → Core} (h : Formed s) : Formed (onCore s k f) := h
theorem Formed.after_onClu {k : Nat} {f : Cluster → Cluster} (h : Formed s) : Formed (onClu s k f) := h
theorem Formed.after_onDie {d : Nat} {f : Die → Die} (h : Formed s) : Formed (onDie s d f) := h
theorem Formed.after_onLap {c : Nat} {f : Lap → Lap} (h : Formed s) : Formed (onLap s c f) := h

/-- An update of the package that leaves its images. -/
theorem Formed.after_onPkg {f : Package → Package} (h : Formed s) (hf : ∀ p, (f p).images = p.images := by intro p; rfl) :
    Formed (onPkg s f) :=
  ⟨h.1, hf s.pkg ▸ h.2⟩

theorem Formed.after_withOwners {p : Package} (h : Formed s) (hp : p.images = s.pkg.images := by rfl) : Formed (withOwners s p) :=
  ⟨h.1, hp ▸ h.2⟩
end

variable {s t : State} {c va pa die id clu leg n code elem addr launch k st up old new lane info rung : Nat} {a : Agent} {p : Place}
  {j : Job} {bytes bs : List Byte} {ms : List MaskedByte} {f : SectorFinding} {part owner : BitVec 16} {kind : DomainKind}
  {stream : DomainStream} {sx : Bool}

/-! ## Records and stores (R338–R346) -/

theorem Formed.after_noteLeaf (h : Formed s) : Formed (noteLeaf s a va) := by
  obtain ⟨hm, -, -, -, hp, -⟩ := noteLeaf_spec s a va
  exact h.of_eq hm hp

theorem Formed.after_charge (h : Formed s) : Formed (charge s a p n) := by
  obtain ⟨hm, -, -, hp, -⟩ := charge_spec s a p n
  exact h.of_eq hm hp

theorem Formed.after_afterPage (h : Formed s) : Formed (afterPage s p) := h.of_records (afterPage_records s p)

theorem Formed.after_endPage (h : Formed s) : Formed (endPage s) := h.of_records (endPage_records s)

theorem Formed.after_putBytes (h : Formed s) : Formed (putBytes s p bytes) := h.of_records (putBytes_records s p bytes)

theorem Formed.after_putSectors (h : Formed s) : Formed (putSectors s p bytes) := h.after_putBytes.after_onPkg

theorem Formed.after_writeArea {key : Option (BitVec 16 × Nat)} (h : Formed s) : Formed (writeArea s pa n key) :=
  ⟨wf_fillBytes _ _ _ _ h.1, h.2⟩

theorem Formed.after_putChecked (h : Formed s) : Formed (putChecked s a va p bytes) := h.of_records (putChecked_records s a va p bytes)

theorem Formed.after_record {r : ErrRec} (h : Formed s) : Formed (record s die r) := h.of_records (record_records s die r)

theorem Formed.after_logViolation (h : Formed s) : Formed (logViolation s a pa) := h.after_record

theorem Formed.after_noteDenial {d : Denial} (h : Formed s) : Formed (noteDenial s a d) := h.of_records (noteDenial_spec s a d).1

theorem Formed.after_recordSector (h : Formed s) : Formed (recordSector s a va p f) := h.of_records (recordSector_records s a va p f)

theorem Formed.after_recordScale {block : Nat} (h : Formed s) : Formed (recordScale s a va block p) := h.after_record

theorem Formed.after_storeAt (h : Formed s) : Formed (storeAt s a va p bytes) := by
  unfold storeAt
  dsimp only
  split
  · exact h.after_charge.after_recordSector
  · exact h.after_charge.after_putBytes.after_recordSector
  · exact h.after_charge.after_putBytes

theorem Formed.after_storeSectors (h : Formed s) : Formed (storeSectors s a p bytes) := h.after_charge.after_putSectors

theorem Formed.after_storeWhole (h : Formed s) : Formed (storeWhole s a va p bytes) := .ite h.after_storeAt h.after_storeSectors

theorem Formed.after_storeMasked (h : Formed s) : Formed (storeMasked s a va p ms) := by
  unfold storeMasked
  split
  · exact h.after_storeWhole
  · exact h.after_storeAt

/-! ## Requests to the domain (R363) -/

theorem Formed.after_sendRequest {d : XReg} {job : Option (Nat × Nat)} {host : Bool} (h : Formed s) :
    Formed (sendRequest s c owner launch va n sx d kind job stream host).1 :=
  h.after_onPkg

theorem Formed.after_sendDomain {d : XReg} (h : Formed s) : Formed (sendDomain s c va n sx d kind stream).1 := h.after_sendRequest

theorem Formed.after_orphanRequests (h : Formed s) : Formed (orphanRequests s c) := .ite h.after_onPkg h

/-! ## Key passes in memory (R236–R242) -/

theorem wf_showMembers {m : Memory} (l : List Member) (h : Memory.wf m = true) : Memory.wf (showMembers m l) = true := by
  induction l generalizing m with
  | nil => exact h
  | cons x r ih => exact ih (wf_writeBytes _ _ _ h)

theorem wf_showFrom {m : Memory} (l : List PassEntry) (h : Memory.wf m = true) : Memory.wf (showFrom m k l) = true := by
  induction l generalizing m k with
  | nil => exact h
  | cons x r ih => exact ih (wf_writeBytes _ _ _ h)

theorem wf_showEntries {m : Memory} (l : List Member) (h : Memory.wf m = true) : Memory.wf (showEntries m l) = true := by
  induction l generalizing m with
  | nil => exact h
  | cons x r ih => exact ih (wf_showFrom _ h)

theorem wf_zeroEntries {m : Memory} (l : List PassEntry) (h : Memory.wf m = true) : Memory.wf (zeroEntries m clu l).1 = true := by
  induction l with
  | nil => exact h
  | cons x r ih =>
    unfold zeroEntries
    dsimp only
    split
    · exact ih
    · exact wf_clearRange _ _ _ ih

theorem wf_zeroMembers {m : Memory} (l : List Member) (h : Memory.wf m = true) : Memory.wf (zeroMembers m l).1 = true := by
  induction l with
  | nil => exact h
  | cons x r ih => exact wf_zeroEntries _ ih

theorem Formed.after_setPass {q : Pass} (h : Formed s) : Formed (setPass s die id q) :=
  (h.after_onDie (d := die)).withMem (wf_showMembers _)

theorem Formed.after_postAskers {l : List Nat} (h : Formed s) : Formed (postAskers s launch l).1 := by
  induction l generalizing s with
  | nil => exact h
  | cons x r ih =>
    unfold postAskers
    split
    · exact ih h
    split
    · exact ih h.after_onCtx
    · exact ih h

theorem Formed.after_settlePass (h : Formed s) : Formed (settlePass s die id) := by
  unfold settlePass
  split
  · exact h
  split
  · exact h
  · exact h.after_postAskers.after_onDie

theorem Formed.after_dropPassJobs {l : List Member} (h : Formed s) : Formed (dropPassJobs s id l) := by
  induction l generalizing s with
  | nil => exact h
  | cons m r ih => exact ih h.after_onClu

theorem Formed.after_closePass {q : Pass} (h : Formed s) : Formed (closePass s die id st q) :=
  h.after_setPass.after_dropPassJobs.after_settlePass

theorem Formed.after_endPassZeroed (h : Formed s) : Formed (endPassZeroed s die id st) := by
  unfold endPassZeroed
  split
  · exact h
  split
  · exact (h.withMem fun w => wf_showEntries _ (wf_zeroMembers _ w)).after_closePass
  · exact h

theorem Formed.after_startPass {q : Pass} (h : Formed s) : Formed (startPass s die id q) :=
  .ite (.ite h.after_closePass h.after_setPass) h.after_setPass

theorem Formed.after_runPass {ask : Bool} (h : Formed s) : Formed (runPass s c id ask).1 := by
  unfold runPass
  split
  · exact h
  split
  · exact h.after_startPass
  · exact h

theorem Formed.after_leavePass (h : Formed s) : Formed (leavePass s c) := by
  unfold leavePass
  split
  · exact h
  · exact h.after_runPass.after_onCtx

theorem Formed.after_abortPasses (h : Formed s) : Formed (abortPasses s die launch) := h.foldl fun _ _ ht => ht.after_endPassZeroed

/-! ## Laps: the store buffer, rewinds and kills (R148–R150) -/

theorem Formed.after_commitRun (h : Formed s) (e : commitRun s a va ms = .ok t) : Formed t := by
  unfold commitRun at e
  split at e
  · split at e
    · cases e; exact h.after_sendDomain
    · cases e
  split at e
  · cases e
  · cases e; exact h.after_storeMasked

theorem Formed.after_commitRuns {l : List (Nat × List MaskedByte)} (h : Formed s) : Formed (commitRuns s a l).1 := by
  induction l generalizing s with
  | nil => exact h
  | cons x r ih =>
    unfold commitRuns
    split
    · exact h
    · exact ih (h.after_commitRun ‹_›)

theorem Formed.after_commitBuffer (h : Formed s) : Formed (commitBuffer s c).1 := by
  unfold commitBuffer
  split
  · exact (h.after_commitRuns.fst ‹_›).after_onLap
  · exact h

theorem Formed.after_bumpWaiters (h : Formed s) : Formed (bumpWaiters s c va up) := by
  unfold bumpWaiters
  split
  · exact h
  · exact h.after_storeAt

theorem Formed.after_unpark (h : Formed s) : Formed (unpark s c) := by
  unfold unpark
  split
  · exact h.after_bumpWaiters.after_onCtx
  · exact h.after_onCtx

theorem Formed.after_renameLap (h : Formed s) : Formed (renameLap s clu old new) := h.after_onClu.after_onDie

theorem Formed.after_detach (h : Formed s) : Formed (detach s c) := .ite h.after_renameLap.after_onClu h

theorem Formed.after_freeCtx (h : Formed s) : Formed (freeCtx s c) := h.after_detach.after_unpark.after_orphanRequests.after_onCtx

theorem Formed.after_onLaunch {f : Launch → Launch} (h : Formed s) : Formed (onLaunch s die id f) := h.after_onDie

theorem Formed.after_ctxRecord {kind : Nat} (h : Formed s) : Formed (ctxRecord s c kind code rung info va pa) := h.after_record

theorem Formed.after_killLap (h : Formed s) : Formed (killLap s c code va pa) :=
  h.after_ctxRecord.after_leavePass.after_onLaunch.after_freeCtx

theorem Formed.after_breakLap (h : Formed s) : Formed (breakLap s c).1 := by
  unfold breakLap
  split
  · exact (h.after_commitBuffer.fst ‹_›).after_onLap
  · exact (h.after_commitBuffer.fst ‹_›).after_noteDenial.after_killLap

theorem Formed.after_intoBuffer (h : Formed s) (e : intoBuffer s c va ms = some t) : Formed t := by
  unfold intoBuffer at e
  dsimp only at e
  split at e
  · cases e; exact h.after_onLap
  · cases e

theorem Formed.after_storeNow (h : Formed s) : Formed (storeNow s c a va p ms) := h.after_storeMasked.after_onLap

theorem Formed.after_ctxStore (h : Formed s) : Formed (ctxStore s c a va p ms).1 := by
  unfold ctxStore
  split
  · split
    · exact h.after_intoBuffer ‹_›
    split
    · exact (h.after_breakLap.fst ‹_›).after_storeNow
    · exact h.after_breakLap
  · exact h.after_storeNow

theorem Formed.after_failLap {fatal : Bool} {sector : Option Nat} (h : Formed s) :
    Formed (failLap s c code fatal sector lane elem va pa) := by
  unfold failLap
  dsimp only
  split
  · exact .ite h.after_killLap h.after_unpark.after_onCtx.after_onLap.after_ctxRecord
  · exact h.after_killLap

theorem Formed.after_consumePoison (h : Formed s) : Formed (consumePoison s c elem va p f) := h.after_failLap

theorem Formed.after_startLap (h : Formed s) : Formed (startLap s c) := .ite h.after_onCtx h

end Sys2Proof.Machine
end

section
namespace Sys2Proof.Machine

variable {s t : State} {c va pa die id clu n code launch k base st frame lo hi status cause fn : Nat} {a : Agent} {p : Place} {j : Job}
  {bytes : List Byte} {f : SectorFinding} {part : BitVec 16} {kind : DomainKind} {v : Word} {mismatch : Bool}

/-! ## Engine jobs (R201–R219) -/

theorem Formed.after_storeRow {w : Nat} {es : List Nat} (h : Formed s) : Formed (storeRow s a va w es) := by
  unfold storeRow
  split
  · exact h.after_storeAt
  · exact h

theorem Formed.after_countClu {t : Tag} {bs : List Nat} (h : Formed s) : Formed (countClu s clu j t bs) := .ite h.after_onClu h

theorem Formed.after_recordScales {vas : List Nat} (h : Formed s) : Formed (recordScales s a base vas) := by
  refine h.foldl fun _ _ ht => ?_
  split
  · exact ht.after_recordScale
  · exact ht

theorem Formed.after_storeRows {w m : Nat} {rows : List (List Nat)} (h : Formed s) : Formed (storeRows s a j w m rows) := by
  induction rows generalizing s m with
  | nil => exact h
  | cons r rs ih => exact ih h.after_storeRow

theorem Formed.after_runTmma {units : Nat} (h : Formed s) : Formed (runTmma s clu j units).1 := by
  unfold runTmma
  dsimp only
  split
  · exact h
  · exact h
  split
  · exact h.after_recordScales
  · exact .ite h.after_recordScales.after_storeRows.after_countClu h.after_recordScales.after_storeRows

theorem Formed.after_tcvtRows (h : Formed s) : Formed (tcvtRows s clu j n).1 := by
  induction n generalizing s j with
  | zero => exact h
  | succ n ih =>
    unfold tcvtRows
    dsimp only
    split
    · exact h
    split
    · exact h
    · exact h
    split
    · exact h.after_recordScales
    · exact ih (.ite h.after_recordScales.after_countClu.after_storeRow h.after_recordScales.after_countClu.after_storeRow.after_storeRow)

theorem Formed.after_askByte (h : Formed s) : Formed (askByte s clu j va kind).1 := by
  unfold askByte
  split
  · exact h
  · exact h.after_sendRequest

theorem Formed.after_putByte {dst : Nat} {to_ : ByteAt} {b : Byte} (h : Formed s) : Formed (putByte s clu j dst to_ b).1 := by
  unfold putByte
  split
  · exact h.after_storeAt
  · exact h.after_askByte

theorem Formed.after_byteAt {sets : List Range} {acc : Acc} {x : EngineFault} (h : Formed s) (e : byteAt s a sets acc va = .bad t x) :
    Formed t := by
  unfold byteAt at e
  split at e
  · cases e; exact h
  split at e
  · split at e
    · cases e
    · cases e; exact h
  split at e
  · cases e; exact h.after_noteDenial
  split at e
  · cases e
  split at e
  · cases e; exact h.after_recordSector
  · cases e

theorem Formed.after_copyBytes (h : Formed s) : Formed (copyBytes s clu j n).1 := by
  induction n generalizing s j with
  | zero => exact h
  | succ n ih =>
    unfold copyBytes
    dsimp only
    split
    · exact h
    split
    · exact h.after_byteAt ‹_›
    · exact h.after_byteAt ‹_›
    · exact h
    · exact h
    split
    · split
      · exact ih (h.after_putByte.fst ‹_›)
      · exact h.after_putByte.fst ‹_›
    · exact ih h
    · exact h
    split
    · split
      · exact ih (h.after_charge.after_putByte.fst ‹_›)
      · exact h.after_charge.after_putByte.fst ‹_›
    · exact h.after_askByte

theorem Formed.after_runCarith {imm : Int} (h : Formed s) : Formed (runCarith s clu j fn imm n).1 := by
  unfold runCarith
  split
  · exact h
  · exact h.withMem (wf_writeBytes _ _ _)

theorem Formed.after_runJob (h : Formed s) : Formed (runJob s clu j n).1 := by
  unfold runJob
  split
  · exact h.after_runCarith
  · exact h.after_runTmma
  · exact h.after_tcvtRows
  · exact h.after_copyBytes
  · exact h
  · exact h

theorem Formed.after_stopRun (h : Formed s) : Formed (stopRun s clu j).1 := h.after_runJob

theorem wf_showJob {m : Memory} {resume : Bool} (h : Memory.wf m = true) : Memory.wf (showJob m clu j resume) = true := by
  unfold showJob
  dsimp only
  split
  · split
    · exact wf_writeBytes _ _ _ (wf_writeBytes _ _ _ h)
    · exact wf_writeBytes _ _ _ h
  · exact h

theorem wf_showJobs {m : Memory} {resume : Bool} (l : List Job) (h : Memory.wf m = true) :
    Memory.wf (showJobs m clu resume l) = true := by
  induction l generalizing m with
  | nil => exact h
  | cons j r ih => exact ih (wf_showJob h)

/-! ## Stops of launches and fences of partitions (R265–R273, R317) -/

theorem Formed.after_cancelJob (h : Formed s) : Formed (cancelJob s clu j) := by
  unfold cancelJob
  dsimp only
  have hr : Formed (if j.state = 2 then stopRun s clu j else (s, j, .done)).1 := by
    split
    · exact h.after_stopRun
    · exact h
  exact .ite h (hr.withMem wf_showJob)

theorem Formed.after_cancelJobs (h : Formed s) : Formed (cancelJobs s clu launch) :=
  (h.foldl fun _ _ ht => ht.after_cancelJob).after_onClu

theorem Formed.after_stopOnClu (h : Formed s) : Formed (stopOnClu s launch clu) := h.after_cancelJobs.rest.after_setClu

theorem Formed.after_stopContexts (h : Formed s) : Formed (stopContexts s die launch) :=
  h.foldl fun _ _ ht => .ite ht.after_freeCtx ht

theorem Formed.after_stopLaunch {hardware : Bool} (h : Formed s) : Formed (stopLaunch s die id status hardware) := by
  unfold stopLaunch
  split
  · exact h
  · exact .ite h (h.after_stopContexts.foldl fun _ _ ht => ht.after_stopOnClu).after_abortPasses.after_onDie.after_onLaunch

theorem Formed.after_arenaEmpty (h : Formed s) : Formed (arenaEmpty s frame part) := by
  unfold arenaEmpty
  dsimp only
  split
  · exact h
  · exact .ite h h.after_record.after_onDie

theorem Formed.after_discardEverywhere (h : Formed s) : Formed (discardEverywhere s) := h.foldl fun _ _ ht => ht.after_onCtx

theorem Formed.after_loseCoverage (h : Formed s) : Formed (loseCoverage s frame lo hi part) :=
  .ite (Formed.ite h.after_discardEverywhere h).after_onDie (Formed.ite h.after_discardEverywhere h).after_arenaEmpty

theorem Formed.after_endViews (h : Formed s) : Formed (endViews s die part) := h.foldl fun _ _ ht => ht.after_onDie.after_loseCoverage

theorem Formed.after_fenceDie (h : Formed s) : Formed (fenceDie s die part) :=
  have hl : Formed ((livePart (dieAt s die) part).foldl (fun s id => stopLaunch s die id 7 false) s) :=
    h.foldl fun _ _ ht => ht.after_stopLaunch
  (hl.foldl fun _ _ ht => .ite ht.after_freeCtx ht).after_endViews.foldl fun _ _ ht => .ite ht.after_onClu ht

theorem Formed.after_fencePartition {ctx : Nat} (h : Formed s) : Formed (fencePartition s die ctx part cause) :=
  h.after_record.foldl fun _ _ ht => ht.after_fenceDie

theorem Formed.after_abortLaunch (h : Formed s) : Formed (abortLaunch s die id status code) := by
  unfold abortLaunch
  split
  · exact h
  · exact .ite h h.after_record.after_stopLaunch

theorem Formed.after_abortByHardware (h : Formed s) : Formed (abortByHardware s die id status cause code) := by
  unfold abortByHardware
  split
  · exact h
  dsimp only
  refine .ite h ?_
  split
  · exact .ite (Formed.ite h h.after_record).after_stopLaunch.after_onDie.after_fencePartition
      (Formed.ite h h.after_record).after_stopLaunch.after_onDie
  · exact (Formed.ite h h.after_record).after_stopLaunch.after_onDie

/-! ## The trace unit (R160, R349–R351) -/

theorem Formed.after_sinkRecord {r : BitVec 128} (h : Formed s) : Formed (sinkRecord s die r) := by
  unfold sinkRecord
  dsimp only
  split
  · exact h
  split
  · exact h.after_onDie
  split
  · exact h.after_putChecked.after_onDie
  · exact .ite h.after_logViolation h

theorem Formed.after_gather {l : List (BitVec 128)} (h : Formed s) : Formed (gather s die l).1 := by
  induction l generalizing s with
  | nil => exact h
  | cons r rs ih =>
    unfold gather
    dsimp only
    split
    · exact ih h.after_sinkRecord
    · exact h.after_sinkRecord

theorem Formed.after_drainTrace (h : Formed s) : Formed (drainTrace s k) := .ite h.after_gather.after_onClu h

theorem Formed.after_pushRecord {r : BitVec 128} (h : Formed s) : Formed (pushRecord s k r) := (Formed.ite h.after_drainTrace h).after_onClu

theorem Formed.after_addRecord {r : BitVec 128} (h : Formed s) : Formed (addRecord s k r) :=
  (Formed.ite (.ite h h.after_pushRecord.after_onClu)
    (Formed.ite h h.after_pushRecord.after_onClu).after_pushRecord.after_onClu).after_pushRecord

theorem Formed.after_addPair (h : Formed s) : Formed (addPair s c) := h.after_addRecord.after_onCtx

theorem Formed.after_addEvent (h : Formed s) : Formed (addEvent s c code) := .ite h.after_addPair.after_addRecord h

theorem Formed.after_addSoftware (h : Formed s) : Formed (addSoftware s c code v) := .ite (Formed.ite h h.after_addPair).after_addRecord h

theorem Formed.after_noteHits {kind : Nat} {ok : Word → Word → Bool} (h : Formed s) : Formed (noteHits s c kind ok) := by
  obtain ⟨hm, -, hp, -⟩ := noteHits_spec s c kind ok
  exact h.of_eq hm hp

theorem Formed.after_noteAccess (h : Formed s) : Formed (noteAccess s c va) := h.after_noteHits

theorem Formed.after_noteStop (h : Formed s) : Formed (noteStop s c code) := h.after_noteHits

theorem Formed.after_countTrigger {m : Nat} (h : Formed s) : Formed (countTrigger s clu m) := .ite h h.after_onClu

end Sys2Proof.Machine
end

section
namespace Sys2Proof.Machine

variable {s t : State} {c va pa die id clu n code elem addr launch k : Nat} {a : Agent} {p : Place} {i : Instr} {l : Level} {acc : Acc}
  {bytes bs : List Byte} {ms : List MaskedByte} {kind : DomainKind} {v val : Word} {acq sx : Bool}

/-! ## Accesses of a front and of its streams (R175–R190) -/

theorem Formed.after_beforeDevice (h : Formed s) : Formed (beforeDevice s c p).1 := by
  unfold beforeDevice
  split
  · exact h.after_breakLap
  · exact h

theorem Formed.after_takeBytes (h : Formed s) : Formed (takeBytes s c elem a va p n).left := by
  unfold takeBytes
  dsimp only
  split
  · exact h.after_beforeDevice.fst ‹_›
  split
  · exact (h.after_beforeDevice.fst ‹_›).after_noteAccess.after_noteLeaf.after_charge.after_recordSector.after_consumePoison
  · exact (h.after_beforeDevice.fst ‹_›).after_noteAccess.after_noteLeaf.after_charge.after_recordSector.after_consumePoison
  · exact (h.after_beforeDevice.fst ‹_›).after_noteAccess.after_noteLeaf.after_charge

theorem Formed.after_giveBytes (h : Formed s) : Formed (giveBytes s c a va p ms).left := by
  unfold giveBytes
  split
  · exact h.after_beforeDevice.fst ‹_›
  · split <;> exact (h.after_beforeDevice.fst ‹_›).after_noteAccess.after_noteLeaf.after_ctxStore.fst ‹_›

theorem Formed.after_awaitDomain {d : XReg} (h : Formed s) : Formed (awaitDomain s c va n sx d acq kind) := h.after_sendDomain.after_onCtx

theorem Formed.after_noteChecked (h : Formed s) : Formed (noteChecked s c n) := .ite h h.after_onCore

theorem Formed.after_noteWords {ws : List VEntry} (h : Formed s) : Formed (noteWords s c ws) := h.foldl fun _ _ ht => ht.after_noteHits

theorem Formed.after_flushRun (h : Formed s) : Formed (flushRun s c) := by
  unfold flushRun
  split
  · exact h
  · exact h.after_noteWords.after_onCtx.after_noteChecked

theorem Formed.after_closeRun (h : Formed s) : Formed (closeRun s c).1 := by
  unfold closeRun
  split
  · exact h.after_onCtx
  · exact h.after_flushRun

theorem Formed.after_dataWait (h : Formed s) : Formed (dataWait s c) := h.after_onCtx

theorem Formed.after_dumpWait (h : Formed s) : Formed (dumpWait s c) := h.after_onCtx

theorem Formed.after_scalarLoad {d : XReg} (h : Formed s) : Formed (scalarLoad s c va n sx d acq).left := by
  unfold scalarLoad
  dsimp only
  split
  · exact h.after_noteDenial
  · exact h.after_dataWait
  · exact h.after_awaitDomain
  · exact h.after_takeBytes

theorem Formed.after_scalarStore (h : Formed s) : Formed (scalarStore s c va bs).left := by
  unfold scalarStore
  dsimp only
  split
  · exact h.after_noteDenial
  · exact h
  · split
    · split
      · exact h.after_intoBuffer ‹_›
      split
      · exact h.after_breakLap.fst ‹_›
      · exact (h.after_breakLap.fst ‹_›).after_awaitDomain
    · exact h.after_awaitDomain
  · exact h.after_giveBytes

theorem Formed.after_modifyBytes {f : Nat → Nat} (h : Formed s) : Formed (modifyBytes s c elem a va p n f).left := by
  unfold modifyBytes
  dsimp only
  split
  · exact (h.after_takeBytes.accessDone ‹_›).after_storeAt
  · exact h.after_takeBytes.accessFault ‹_›
  · exact h.after_takeBytes.accessWait ‹_›
  · exact h.after_takeBytes.accessGone ‹_›

theorem Formed.after_scalarAtomic {d : XReg} {kind : Option DomainKind} {f : Nat → Nat} (h : Formed s) :
    Formed (scalarAtomic s c va n d acq kind f).left := by
  unfold scalarAtomic
  dsimp only
  split
  · exact h.after_noteDenial
  · exact h.after_dataWait
  · split
    · exact h.after_breakLap.fst ‹_›
    · exact (h.after_breakLap.fst ‹_›).after_awaitDomain
  split
  · exact h.after_breakLap.fst ‹_›
  · exact (h.after_breakLap.fst ‹_›).after_modifyBytes

theorem Formed.after_askDomain {who : DomainStream} (h : Formed s) : Formed (askDomain s c who va n kind).1 := by
  unfold askDomain
  dsimp only
  split
  · exact h
  · split
    · exact h.after_onCtx
    · exact h.after_sendDomain.after_onCtx
  · exact h.after_sendDomain.after_onCtx

theorem Formed.after_mayBuffer {b : Bool} (h : Formed s) (e : (if b then intoBuffer s c va ms else none) = some t) : Formed t := by
  split at e
  · exact h.after_intoBuffer e
  · cases e

theorem Formed.after_drainElems {r : Nat} {is : List Nat} (h : Formed s) : Formed (drainElems s c r is).left := by
  induction is generalizing s with
  | nil => exact h
  | cons i rest ih =>
    unfold drainElems
    dsimp only
    split
    · exact h
    split
    · exact h
    split
    · exact ih h
    split
    · exact h.after_noteDenial.after_onCtx
    · exact h.after_onCtx
    · split
      · exact ih (h.after_mayBuffer ‹_›).after_onCtx
      have hb := Formed.iteFst (c := (ctxAt s c).lap.buffering = true) (y := (s, true)) (h.after_breakLap (c := c)) h
      split
      · exact hb.fst ‹_›
      have ht := hb.fst ‹_›
      split
      · exact (ht.after_askDomain.fst ‹_›).after_onCtx
      · exact (ht.after_askDomain.fst ‹_›).after_onCtx
      · exact (ht.after_askDomain.fst ‹_›).after_onCtx
      · exact ih (ht.after_askDomain.fst ‹_›).after_onLap.after_onCtx
    split
    · exact ih (h.after_onCtx.after_giveBytes.accessDone ‹_›)
    · exact h.after_onCtx.after_giveBytes.accessFault ‹_›
    · exact h.after_onCtx.after_giveBytes.accessWait ‹_›
    · exact h.after_onCtx.after_giveBytes.accessGone ‹_›

theorem Formed.after_drainEntry {r : Nat} (h : Formed s) : Formed (drainEntry s c r).left := by
  unfold drainEntry
  split
  · exact h
  split
  · exact h
  split
  · exact h
  split
  · exact (h.after_drainElems.accessDone ‹_›).after_onCtx
  · exact h.after_drainElems

theorem Formed.after_drainStream {r : Nat} (h : Formed s) : Formed (drainStream s c r n).left := by
  induction n generalizing s with
  | zero => exact h
  | succ n ih =>
    unfold drainStream
    split
    · exact h
    split
    · exact h
    split
    · exact ih (h.after_drainEntry.accessDone ‹_›)
    · exact h.after_drainEntry

theorem Formed.after_drainAll {rs : List Nat} (h : Formed s) : Formed (drainAll s c rs).left := by
  induction rs generalizing s with
  | nil => exact h
  | cons r rs ih =>
    unfold drainAll
    split
    · exact ih (h.after_drainStream.accessDone ‹_›)
    · exact h.after_drainStream

theorem Formed.after_drainEach {rs : List Nat} (h : Formed s) : Formed (drainEach s c rs) := by
  induction rs generalizing s with
  | nil => exact h
  | cons r rs ih => exact ih h.after_drainStream.accessState

/-! ## Stops and returns (R135–R147) -/

theorem Formed.after_sendEntry {ws : List Word} (h : Formed s) : Formed (sendEntry s c addr ws) := by
  induction ws generalizing s addr with
  | nil => exact h
  | cons w r ih => exact ih h.after_sendDomain

theorem Formed.after_noteDumpDenial (h : Formed s) : Formed (noteDumpDenial s c l acc addr) := by
  unfold noteDumpDenial
  dsimp only
  split
  · exact .ite h.after_logViolation h
  · exact .ite h.after_logViolation h
  split
  · exact h.after_noteDenial
  · exact h

theorem Formed.after_dumpOut {w : Nat} (h : Formed s) : Formed (dumpOut s c addr w).1 := by
  unfold dumpOut
  dsimp only
  split
  · split
    · exact h.after_intoBuffer ‹_›
    split
    · exact (h.after_breakLap.fst ‹_›).after_sendEntry
    · exact h.after_breakLap.fst ‹_›
  · exact h.after_sendEntry

theorem Formed.after_writeDump {es : List VEntry} (h : Formed s) : Formed (writeDump s c l addr es).1 := by
  induction es generalizing s addr with
  | nil => exact h
  | cons e r ih =>
    unfold writeDump
    split
    · split
      · exact ih (h.after_dumpOut.fst ‹_›)
      · exact h.after_dumpOut.fst ‹_›
    split
    · exact h.after_noteDumpDenial
    dsimp only
    split
    · exact ih h.after_storeSectors
    · exact ih h.after_storeSectors
    split
    · exact .iteFst (ih (h.after_noteLeaf.after_beforeDevice.fst ‹_›).after_ctxStore)
        (h.after_noteLeaf.after_beforeDevice.fst ‹_›).after_ctxStore
    · exact .iteFst (ih h.after_noteLeaf.after_beforeDevice) h.after_noteLeaf.after_beforeDevice

theorem Formed.after_settle (h : Formed s) : Formed (settle s c) := h.after_unpark.after_onCtx.after_drainEach

theorem Formed.after_doubleFault (h : Formed s) : Formed (doubleFault s c l addr code) := by
  unfold doubleFault
  exact h.after_addEvent.after_ctxRecord.after_fencePartition.after_onCtx

theorem Formed.after_finishStop {d : Due} (h : Formed s) : Formed (finishStop s c d) := h.after_noteStop.after_addEvent.after_onCtx

theorem Formed.after_enterHandler {d : Due} (h : Formed s) : Formed (enterHandler s c d) := by
  unfold enterHandler
  dsimp only
  split
  · exact .ite (h.after_startLap.after_writeDump.fst ‹_›).after_doubleFault (h.after_startLap.after_writeDump.fst ‹_›)
  · exact .ite (h.after_startLap.after_writeDump.fst ‹_›).after_onCtx (h.after_startLap.after_writeDump.fst ‹_›).after_finishStop

theorem Formed.after_takeStop {f : Option Due} (h : Formed s) : Formed (takeStop s c f) := by
  unfold takeStop
  dsimp only
  refine .ite h.after_onCtx (.ite h.after_settle (.ite h.after_settle.after_onCtx ?_))
  split
  · exact h.after_settle.after_onCtx
  · exact h.after_settle.after_enterHandler

theorem Formed.after_goOnStop {w : StopWait} (h : Formed s) : Formed (goOnStop s c w) := by
  unfold goOnStop
  split
  · exact .ite h h.after_finishStop
  · exact h.after_takeStop

theorem Formed.after_consumeWalk (h : Formed s) : Formed (consumeWalk s c code va) := h.after_failLap

theorem Formed.after_takeFront (h : Formed s) : Formed (takeFront s c code val) := .ite h.after_consumeWalk h.after_takeStop

theorem Formed.after_takeVector (h : Formed s) : Formed (takeVector s c code val) := h.after_takeStop

theorem Formed.after_endRunFor {w : BitVec 32} (h : Formed s) : Formed (endRunFor s c code w).1 := by
  unfold endRunFor
  dsimp only
  split
  · split
    · split <;> exact h
    · exact h.after_closeRun
  · exact h

theorem Formed.after_takeRaw {w : BitVec 32} (h : Formed s) : Formed (takeRaw s c code w) := by
  unfold takeRaw
  split
  · exact (h.after_endRunFor.fst ‹_›).after_takeFront
  · exact h.after_endRunFor.fst ‹_›

theorem Formed.after_takeWord (h : Formed s) : Formed (takeWord s c code i) := h.after_takeRaw

theorem Formed.after_touchDump (h : Formed s) : Formed (touchDump s c l addr n).1 := by
  induction n generalizing s addr with
  | zero => exact h
  | succ n ih =>
    unfold touchDump
    split
    · exact h
    dsimp only
    split
    · exact .iteFst (Formed.ite h.after_noteLeaf h).after_charge.after_recordSector (ih (Formed.ite h.after_noteLeaf h).after_charge)
    · exact ih (Formed.ite h.after_noteLeaf h).after_charge

theorem Formed.after_noteUnread (h : Formed s) : Formed (noteUnread s c l addr n) := by
  induction n generalizing addr with
  | zero => exact h
  | succ n ih =>
    unfold noteUnread
    split
    · exact h.after_noteDumpDenial
    · exact ih

theorem Formed.after_readWordBack (h : Formed s) : Formed (readWordBack s c l va) := by
  unfold readWordBack
  dsimp only
  refine .ite ?_ ?_
  · split
    · exact (h.after_askDomain.fst ‹_›).after_dumpWait
    · exact (h.after_askDomain.fst ‹_›).after_onCtx
    · exact (h.after_askDomain.fst ‹_›).after_consumePoison
    · exact (h.after_askDomain.fst ‹_›).after_doubleFault
  split
  · exact h.after_onCtx
  · exact h.after_noteDumpDenial.after_doubleFault

theorem Formed.after_resume {tr : TrapRegs} {pl : Level} {es : List VEntry} (h : Formed s) : Formed (resume s c tr pl es) := h.after_onCtx

theorem Formed.after_returnFrom (h : Formed s) : Formed (returnFrom s c) := by
  unfold returnFrom
  dsimp only
  refine .ite h.after_takeWord (.ite h.after_takeFront (.ite h.after_dumpWait (.ite (.ite h.after_readWordBack h.after_resume) ?_)))
  split
  · exact h.after_noteUnread.after_doubleFault
  · exact (h.after_touchDump.fst ‹_›).after_consumePoison
  · exact (h.after_touchDump.fst ‹_›).after_resume

end Sys2Proof.Machine
end

section
namespace Sys2Proof.Machine

variable {s t : State} {c va pa die id clu n code elem addr launch k : Nat} {a : Agent} {p : Place} {i : Instr} {e : VEntry}
  {bytes bs : List Byte} {ms : List MaskedByte} {kind : DomainKind} {v val : Word} {acq sx quiet : Bool} {bound : List Word}

/-! ## Vector accesses and streams (R183–R190) -/

theorem Formed.after_onHead {f : VEntry → VEntry} (h : Formed s) : Formed (onHead s c f) := h.after_onCtx

theorem Formed.after_progress {i : Nat} {fresh : Bool} (h : Formed s) : Formed (progress s c i fresh) := h.after_onHead

theorem Formed.after_trimAt {j : Nat} (h : Formed s) : Formed (trimAt s c j) := h.after_onCtx

theorem Formed.after_loadElem {dev : Bool} (h : Formed s) : Formed (loadElem s c elem va n bound quiet dev).left := by
  unfold loadElem
  dsimp only
  split
  · exact h
  split
  · exact h.after_noteDenial
  · exact h
  · split
    · exact h.after_askDomain.fst ‹_›
    · exact h.after_askDomain.fst ‹_›
    · exact h.after_askDomain.fst ‹_›
    · exact h.after_askDomain.fst ‹_›
    · exact (h.after_askDomain.fst ‹_›).after_consumePoison
  split
  · exact h
  split
  · exact h.after_takeBytes.accessDone ‹_›
  · exact h.after_takeBytes.accessFault ‹_›
  · exact h.after_takeBytes.accessWait ‹_›
  · exact h.after_takeBytes.accessGone ‹_›

theorem Formed.after_loadFirst (h : Formed s) : Formed (loadFirst s c elem va n bound quiet).left := by
  unfold loadFirst
  dsimp only
  split
  · split
    · split
      · exact (h.after_loadElem.elemNospec ‹_›).after_takeBytes.accessDone ‹_›
      · exact (h.after_loadElem.elemNospec ‹_›).after_takeBytes.accessFault ‹_›
      · exact (h.after_loadElem.elemNospec ‹_›).after_takeBytes.accessWait ‹_›
      · exact (h.after_loadElem.elemNospec ‹_›).after_takeBytes.accessGone ‹_›
    · exact h.after_loadElem.elemNospec ‹_›
  · exact h.after_loadElem

theorem Formed.after_checkScale {scale : Bool} (h : Formed s) : Formed (checkScale s c elem va scale bs).1 := by
  unfold checkScale
  dsimp only
  split
  · exact h
  split
  · split
    · exact h.after_recordScale
    · exact h
  · exact h

theorem Formed.after_loadOne {b : Prop} [Decidable b] (h : Formed s) :
    Formed (if b then loadFirst s c elem va n bound quiet else loadElem s c elem va n bound quiet false).left := by
  split
  · exact h.after_loadFirst
  · exact h.after_loadElem

theorem Formed.after_loadElems {vl : Nat} {first : Option Nat} {put : Ctx → Nat → List Byte → Ctx} {l : List (Nat × Nat)}
    (h : Formed s) : Formed (loadElems s c n vl e first put l).left := by
  induction l generalizing s with
  | nil => exact h
  | cons x r ih =>
    unfold loadElems
    dsimp only
    split
    · exact ih (h.after_loadOne.elemGot ‹_›).after_checkScale.after_onCtx
    · split
      · exact h.after_loadOne.elemBad ‹_›
      · exact (h.after_loadOne.elemBad ‹_›).after_trimAt
    · exact (h.after_loadOne.elemNospec ‹_›).after_trimAt
    · exact (h.after_loadOne.elemWait ‹_›).after_progress
    · exact h.after_loadOne.elemGone ‹_›

theorem Formed.after_vectorLoad {t : VNum} {mk : Bool} {addr : Ctx → VEntry → Nat → Nat} (h : Formed s) :
    Formed (vectorLoad t mk addr s c e).left := by
  unfold vectorLoad
  dsimp only
  split
  · exact (h.after_loadElems.loadedUpTo ‹_›).after_onCtx
  · exact h.after_loadElems.loadedFault ‹_›
  · exact h.after_loadElems.loadedWait ‹_›
  · exact h.after_loadElems.loadedGone ‹_›

theorem Formed.after_maskLoad {t : MNum} {mk : Bool} (h : Formed s) : Formed (maskLoad t mk s c e).left := by
  unfold maskLoad
  dsimp only
  split
  · exact (h.after_loadElems.loadedUpTo ‹_›).after_onCtx
  · exact h.after_loadElems.loadedFault ‹_›
  · exact h.after_loadElems.loadedWait ‹_›
  · exact h.after_loadElems.loadedGone ‹_›

theorem Formed.after_storeElem (h : Formed s) : Formed (storeElem s c va n ms quiet).left := by
  unfold storeElem
  dsimp only
  split
  · exact h.after_noteDenial
  · exact h
  · split
    · split
      · exact h.after_intoBuffer ‹_›
      · split <;> exact h.after_breakLap.fst ‹_›
    split
    · exact h.after_askDomain.fst ‹_›
    · exact h.after_askDomain.fst ‹_›
    · exact h.after_askDomain.fst ‹_›
    · exact (h.after_askDomain.fst ‹_›).after_onLap
  split
  · exact h.after_giveBytes.accessDone ‹_›
  · exact h.after_giveBytes.accessFault ‹_›
  · exact h.after_giveBytes.accessWait ‹_›
  · exact h.after_giveBytes.accessGone ‹_›

theorem Formed.after_storeElems {bytes : Nat → List MaskedByte} {fresh : Bool} {l : List (Nat × Nat)} (h : Formed s) :
    Formed (storeElems s c n e bytes fresh l).left := by
  induction l generalizing s fresh with
  | nil => exact h
  | cons x r ih =>
    unfold storeElems
    split
    · exact ih (h.after_storeElem.elemGot ‹_›)
    · exact h.after_storeElem.elemBad ‹_›
    · exact (h.after_storeElem.elemNospec ‹_›).after_progress
    · exact (h.after_storeElem.elemWait ‹_›).after_progress
    · exact h.after_storeElem.elemGone ‹_›

theorem Formed.after_vectorStore {t : VNum} {mk : Bool} {addr : Ctx → VEntry → Nat → Nat} (h : Formed s) :
    Formed (vectorStore t mk addr s c e).left :=
  h.after_storeElems

theorem Formed.after_maskStore {t : MNum} {mk : Bool} (h : Formed s) : Formed (maskStore t mk s c e).left := h.after_storeElems

theorem Formed.after_amoElems {t : Nat} {op : Nat → Nat → Nat} {kind : Option (Nat → DomainKind)} {data : Nat → Nat}
    {l : List (Nat × Nat)} (h : Formed s) : Formed (amoElems s c n t op kind data l).left := by
  induction l generalizing s with
  | nil => exact h
  | cons x r ih =>
    unfold amoElems
    dsimp only
    split
    · exact h
    · exact h.after_progress
    · split
      · exact (h.after_askDomain.fst ‹_›).after_progress
      · exact ih ((h.after_askDomain.fst ‹_›).after_onCtx)
      · exact (h.after_askDomain.fst ‹_›).after_progress
      · exact (h.after_askDomain.fst ‹_›).after_progress
      · exact (h.after_askDomain.fst ‹_›).after_consumePoison
    split
    · exact ih ((h.after_modifyBytes.accessDone ‹_›).after_onCtx)
    · exact h.after_modifyBytes.accessFault ‹_›
    · exact h.after_modifyBytes.accessWait ‹_›
    · exact h.after_modifyBytes.accessGone ‹_›

theorem Formed.after_vectorAmo {t ix : VNum} {mk : Bool} {op : Nat → Nat → Nat} {kind : Option (Nat → DomainKind)} (h : Formed s) :
    Formed (vectorAmo t ix mk op kind s c e).left := by
  unfold vectorAmo
  dsimp only
  generalize amoReach s c (tagWidth e.td / 8) e kind.isSome (addresses (ctxAt s c) e mk (indexedAddr (ctxAt s c) e ix)) = q
  have hb := Formed.iteFst (c := (q.1.isEmpty && q.2.isSome) = true) (x := (s, true)) h (h.after_breakLap (c := c))
  split
  · exact hb.fst ‹_›
  have ht := hb.fst ‹_›
  split
  · split
    · exact (ht.after_amoElems.elemGot ‹_›).after_onCtx
    · exact (ht.after_amoElems.elemGot ‹_›).after_noteDenial
    · exact (ht.after_amoElems.elemGot ‹_›).after_progress
  · exact ht.after_amoElems.elemBad ‹_›
  · exact ht.after_amoElems.elemNospec ‹_›
  · exact ht.after_amoElems.elemWait ‹_›
  · exact ht.after_amoElems.elemGone ‹_›

theorem Formed.after_fillElems {r : Nat} {st : Stream} {demand : Bool} {en : StreamEntry} {l : List Nat} (h : Formed s) :
    Formed (fillElems s c r st bound demand en l).1 := by
  induction l generalizing s en with
  | nil => exact h
  | cons x r ih =>
    unfold fillElems
    dsimp only
    split
    · exact ih h
    split
    · exact h
    split
    · exact h.after_noteDenial
    · exact h
    · split
      · exact h.after_askDomain.fst ‹_›
      · exact ih (h.after_askDomain.fst ‹_›)
      · exact h.after_askDomain.fst ‹_›
      · exact h.after_askDomain.fst ‹_›
      · exact h.after_askDomain.fst ‹_›
    split
    · exact h
    split
    · exact h
    · exact h
    split
    · exact ih ((h.after_takeBytes.accessDone ‹_›).after_checkScale)
    · exact h.after_takeBytes.accessFault ‹_›
    · exact h.after_takeBytes.accessWait ‹_›
    · exact h.after_takeBytes.accessGone ‹_›

theorem Formed.after_fillStream {r : Nat} {demand : Bool} (h : Formed s) : Formed (fillStream s c r bound demand) := by
  unfold fillStream
  dsimp only
  split
  · exact h
  refine .ite h ?_
  split
  · exact .ite h.after_fillElems.after_onCtx (.ite h.after_fillElems.after_onCtx h)
  · exact .ite h.after_fillElems.after_onCtx h

theorem Formed.after_unbindStream {r : Nat} (h : Formed s) : Formed (unbindStream s c e r).left := by
  unfold unbindStream
  split
  · exact h
  split
  · exact (h.after_drainStream.accessDone ‹_›).after_onCtx
  · exact h.after_drainStream.accessFault ‹_›
  · exact h.after_drainStream.accessWait ‹_›
  · exact h.after_drainStream.accessGone ‹_›

theorem Formed.after_bindStream {k : BitVec 4} (h : Formed s) : Formed (bindStream k s c e).left := by
  unfold bindStream
  dsimp only
  split
  · exact h.after_loadFirst.elemBad ‹_›
  · exact h.after_loadFirst.elemNospec ‹_›
  · exact h.after_loadFirst.elemWait ‹_›
  · exact h.after_loadFirst.elemGone ‹_›
  split
  · exact h.after_loadFirst.elemGot ‹_›
  split
  · exact h.after_loadFirst.elemGot ‹_›
  split
  · exact ((h.after_loadFirst.elemGot ‹_›).after_unbindStream.vOutDone ‹_›).after_onCtx
  · exact (h.after_loadFirst.elemGot ‹_›).after_unbindStream

end Sys2Proof.Machine
end

section
namespace Sys2Proof.Machine

variable {s t : State} {c va pa die id clu n code faddr elem addr launch k : Nat} {a : Agent} {p : Place} {i : Instr} {j : Job} {e : VEntry}
  {bytes bs : List Byte} {mismatch : Bool} {bound : List Word} {ready : Ctx → Nat → Bool}

/-! ## Jobs of a cluster: acceptance, starts and ends (R197–R219) -/

theorem Formed.after_onJob {f : Job → Job} (h : Formed s) : Formed (onJob s clu id f) := h.after_onClu

theorem Formed.after_showAt {resume : Bool} (h : Formed s) : Formed (showAt s clu j resume) := h.withMem wf_showJob

theorem Formed.after_faultIssuer (h : Formed s) : Formed (faultIssuer s j code) := by
  unfold faultIssuer
  split
  · exact h.after_onCtx
  · exact h

theorem Formed.after_postJob (h : Formed s) : Formed (postJob s clu j) := by
  unfold postJob
  dsimp only
  split
  · exact .ite h h.after_onClu
  · exact .ite h.after_onClu (.ite (Formed.ite h.after_onCtx h).after_onClu (.ite h.after_onCtx.after_onClu h.after_onCtx))

theorem Formed.after_postJobs (h : Formed s) : Formed (postJobs s clu) := h.foldl fun _ _ ht => ht.after_postJob

theorem Formed.after_finishJob (h : Formed s) : Formed (finishJob s clu j) :=
  (h.after_onJob.after_onClu.withMem fun w => wf_showJobs _ (wf_showJob w)).after_postJobs

theorem Formed.after_loseLap (h : Formed s) : Formed (loseLap s a c launch code faddr) :=
  .ite h.after_killLap (.ite h.after_abortByHardware h.after_abortLaunch)

theorem Formed.after_failJob (h : Formed s) : Formed (failJob s clu j code faddr) := by
  unfold failJob
  dsimp only
  refine .ite ?_ h.after_finishJob.after_faultIssuer
  split
  · exact h.after_finishJob.after_loseLap
  · exact h.after_finishJob

theorem Formed.after_popBaton (h : Formed s) : Formed (popBaton s j) := by
  unfold popBaton
  split
  · exact h.after_onCtx
  · exact h

theorem Formed.after_dropDoomed (h : Formed s) : Formed (dropDoomed s clu) := by
  unfold dropDoomed
  dsimp only
  refine h.foldl fun _ _ ht => ?_
  refine .ite ?_ ht
  split
  · exact ht.after_popBaton.after_failJob
  · exact ht.after_popBaton.after_finishJob

theorem Formed.after_refuseJob (h : Formed s) : Formed (refuseJob s clu j code faddr) := .ite h.after_onJob.after_dropDoomed h.after_failJob

theorem Formed.after_storeSpan {l : List (Nat × Nat)} (h : Formed s) : Formed (storeSpan s a l bytes).1 := by
  induction l generalizing s bytes with
  | nil => exact h
  | cons x r ih =>
    unfold storeSpan
    split
    · exact h.after_noteDenial
    · exact ih h.after_storeAt

theorem Formed.after_storeMask (h : Formed s) : Formed (storeMask s clu j).1 := by
  unfold storeMask
  dsimp only
  split
  · split
    · exact h.after_storeSpan.fst ‹_›
    split
    · exact h.after_noteDenial
    · exact h
  · exact h

theorem Formed.after_acceptJob {good : Bool} (h : Formed s) : Formed (acceptJob s clu j good) := by
  unfold acceptJob
  dsimp only
  refine .ite ?_ h.after_onClu.after_showAt.after_refuseJob
  split
  · exact h.after_onClu.after_showAt.after_storeMask.fst ‹_›
  · exact (h.after_onClu.after_showAt.after_storeMask.fst ‹_›).after_refuseJob

theorem Formed.after_loadSpan {l : List (Nat × Nat)} (h : Formed s) : Formed (loadSpan s a l).1 := by
  induction l generalizing s with
  | nil => exact h
  | cons x r ih =>
    unfold loadSpan
    split
    · exact h.after_noteDenial
    split
    · exact h
    · exact (ih h.after_charge).fst ‹_›
    · exact (ih h.after_charge).fst ‹_›

theorem Formed.after_loadMask (h : Formed s) : Formed (loadMask s clu j).1 := by
  unfold loadMask
  dsimp only
  split
  · exact h.after_loadSpan
  · exact h

theorem Formed.after_acceptAgain (h : Formed s) : Formed (acceptAgain s clu j) := by
  unfold acceptAgain
  dsimp only
  split
  · exact (h.after_loadMask.fst ‹_›).after_onClu.after_showAt
  · exact (h.after_loadMask.fst ‹_›).after_onClu.after_refuseJob

theorem Formed.after_placeAgain (h : Formed s) : Formed (placeAgain s clu j) := h.after_onClu

theorem Formed.after_acceptSaved (h : Formed s) : Formed (acceptSaved s clu n) := by
  induction n generalizing s with
  | zero => exact h
  | succ n ih =>
    unfold acceptSaved
    split
    · exact h
    · exact .ite (ih h.after_placeAgain) (.ite h (ih h.after_acceptAgain))

theorem Formed.after_beginJob (h : Formed s) : Formed (beginJob s clu j) := h.after_popBaton.after_onJob.after_showAt

theorem Formed.after_endJob (h : Formed s) : Formed (endJob s clu j) := by
  unfold endJob
  split
  · exact (h.after_runJob.fst ‹_›).after_finishJob.after_dropDoomed
  · exact (h.after_runJob.fst ‹_›).after_onJob
  · exact (h.after_runJob.fst ‹_›).after_failJob.after_dropDoomed

theorem Formed.after_takeStarts {secure : Bool} (h : Formed s) : Formed (takeStarts s clu secure) := h.foldl fun _ _ ht => ht.after_onCore

theorem Formed.after_checkSequencer (h : Formed s) : Formed (checkSequencer s clu) := h.foldl fun _ _ ht => ht.after_onCore

theorem Formed.after_noteJob (h : Formed s) : Formed (noteJob s clu j) :=
  .ite (Formed.ite h h.after_onClu).after_checkSequencer (.ite h h.after_onClu)

theorem Formed.after_closeJob (h : Formed s) : Formed (closeJob s clu j mismatch) := by
  unfold closeJob
  dsimp only
  refine .ite h (.ite (.ite ?_ ?_) (.ite ?_ ?_))
  · exact (Formed.ite h.after_takeStarts h).after_noteJob.after_record.after_onJob
  · exact (Formed.ite h.after_takeStarts h).after_noteJob.after_record.after_failJob.after_dropDoomed
  · exact (Formed.ite h.after_takeStarts h).after_noteJob
  · exact (Formed.ite h.after_takeStarts h).after_noteJob.after_endJob

theorem Formed.after_pumpEngine {eng : Engine} (h : Formed s) : Formed (pumpEngine s clu eng) := by
  unfold pumpEngine
  dsimp only
  refine .ite h ?_
  split
  · exact h
  · exact h.after_beginJob.after_closeJob

theorem Formed.after_pumpJobs (h : Formed s) : Formed (pumpJobs s clu n) := by
  induction n generalizing s with
  | zero => exact h
  | succ n ih =>
    refine .ite ?_ (ih ?_) <;> exact h.after_acceptSaved.after_pumpEngine.after_pumpEngine.after_pumpEngine

theorem Formed.after_goJobs (h : Formed s) : Formed (goJobs s clu) :=
  .ite h.after_dropDoomed.after_acceptSaved h.after_dropDoomed.after_acceptSaved.after_pumpJobs

theorem Formed.after_holdJob (h : Formed s) : Formed (holdJob s clu j) := by
  unfold holdJob
  dsimp only
  refine .ite h.after_onJob (.ite h (.ite ?_ h))
  split
  · exact .ite (h.after_stopRun.fst ‹_›).after_noteJob.after_finishJob.after_dropDoomed (h.after_stopRun.fst ‹_›).after_onJob.after_showAt
  · exact (h.after_stopRun.fst ‹_›).after_onJob
  · exact (h.after_stopRun.fst ‹_›).after_failJob.after_dropDoomed

theorem Formed.after_wakeJobs (h : Formed s) : Formed (wakeJobs s clu) :=
  (h.foldl fun _ _ ht => .ite ht.after_holdJob ht.after_endJob).after_goJobs

theorem Formed.after_issueJob {k : JobKind} {mask : Option VReg} {bw bp : Bool} (h : Formed s) :
    Formed (issueJob k mask bw bp s c e).left := by
  unfold issueJob
  dsimp only
  split
  · exact h
  split
  · exact h
  split
  · exact h.after_drainAll.accessFault ‹_›
  · exact h.after_drainAll.accessWait ‹_›
  · exact h.after_drainAll.accessGone ‹_›
  split
  · exact (h.after_drainAll.accessDone ‹_›).after_breakLap.fst ‹_›
  split
  · exact (h.after_drainAll.accessDone ‹_›).after_breakLap.fst ‹_›
  · exact ((h.after_drainAll.accessDone ‹_›).after_breakLap.fst ‹_›).after_onCtx.after_acceptJob.after_goJobs

theorem Formed.after_readStatus {d : XReg} (h : Formed s) : Formed (readStatus d s c e).left := by
  unfold readStatus
  split
  · exact h
  · exact h.after_onCtx

/-! ## The vector queue (R95, R163, R168, R188) -/

theorem Formed.after_onRegs {f : Effect} (h : Formed s) : Formed (onRegs f s c e).left := h.after_setCtx

theorem Formed.after_readHist {d : VNum} {bank : Nat} {_e : VEntry} (h : Formed s) : Formed (readHist d bank s c _e).left := h.after_setCtx

theorem Formed.after_clearHist {bank : Nat} {_e : VEntry} (h : Formed s) : Formed (clearHist bank s c _e).left :=
  .ite h.after_onCtx h.after_onClu

theorem Formed.after_onlyBatons {_c : Nat} {_e : VEntry} (h : Formed s) : Formed (onlyBatons s _c _e).left := h

theorem Formed.after_amoRun {t ix : VNum} {mk : Bool} {op : VEntry → Nat → Nat → Nat} {kind : Option (VEntry → Nat → DomainKind)} (h : Formed s) :
    Formed (amoRun t ix mk op kind s c e).left :=
  h.after_vectorAmo

theorem Formed.after_badWord {_c : Nat} (h : Formed s) : Formed (badWord code s _c e).left := h

/-- What a vector instruction does when it retires: it writes registers, or it goes to memory, to its stream or to an engine. -/
theorem Formed.after_retireEffect (h : Formed s) : Formed (retireEffect i s c e).left := by
  unfold retireEffect
  cases i with
  | vadd | vaddSub | vaddRsub | vaddAdds | vaddSubs | vaddAbsd | vmul | vmulMulh | vmulMulhn | vmulDiv | vmulRem | vfma | vfmaFms
  | vfmaFnma | vfmaFnms | vminmaxMin | vminmaxMax | vminmaxMinnum | vminmaxMaxnum | vlogicAnd | vlogicOr | vlogicXor | vlogicAndn
  | vlogicSll | vlogicSrl | vlogicSra | vcmpEq | vcmpNe | vcmpLt | vcmpLe | vcmpGt | vcmpGe | vcmpUnord | vsel | vcvt | vcvtSat
  | vcvtBlk | vcvtScale | vmodAddm | vmodSubm | vmodMulm | vmodMacm | vxAdd | vxSub | vxMul | vxMin | vxMax | vxAnd | vxOr | vxFma
  | vsfuExp2 | vsfuLog2 | vsfuRcp | vsfuRsq | vsfuSqrt | vsfuRcpstep | vsfuRsqstep | vsmaxUpd | vsmaxNorm | vredSum | vredMin
  | vredMax | vredAnd | vredOr | vredXor | vredWsum | vslideUp | vslideDown | vslideRot | vperm | vcompCompress | vcompExpand
  | vcompIota | vcompCidx | vbflyH | vbflyHF | vbflyCt | vbflyGs | vdecomp | vmv | vmvBcast | vmvTox | vmvFromx | vmvWid | ehistAcc
  | mlogAnd | mlogOr | mlogXor | mlogAndn | mlogOrn | mlogXnor | mlogNot | mcnt | mcntFirst | msetvl | mmv | mmvSet | mmvClr =>
    exact h.after_onRegs
  | ehistRead => exact h.after_readHist
  | ehistClr => exact h.after_clearHist
  | vld | vldS | vldX => exact h.after_vectorLoad
  | vst | vstS | vstX => exact h.after_vectorStore
  | vamoAdd | vamoAnd | vamoOr | vamoXor | vamoMin | vamoMax | vamoSwap => exact h.after_amoRun
  | mld => exact h.after_maskLoad
  | mst => exact h.after_maskStore
  | sbind => exact h.after_bindStream
  | sunbind => exact h.after_unbindStream
  | btnWait | btnPost | btnWaitPost => exact h.after_onlyBatons
  | tmma | tcvt | tcopy => exact h.after_issueJob
  | jstat => exact h.after_readStatus
  | _ => exact h.after_badWord

theorem Formed.after_endRunBefore {ok : Bool} (h : Formed s) : Formed (endRunBefore s c i ok) := by
  unfold endRunBefore
  split
  · exact .ite h h.after_flushRun
  · exact h

theorem Formed.after_fillUntil {r : Nat} (h : Formed s) : Formed (fillUntil s c r bound ready n) := by
  induction n generalizing s with
  | zero => exact h
  | succ n ih => exact .ite h (ih h.after_fillStream)

theorem Formed.after_fillFor {rs : List Nat} (h : Formed s) : Formed (fillFor s c bound ready rs) := by
  induction rs generalizing s with
  | nil => exact h
  | cons x r ih => exact ih h.after_fillUntil

theorem Formed.after_drainDevice (h : Formed s) : Formed (drainDevice s c) := by
  unfold drainDevice
  split
  · exact h
  · exact h.after_drainAll.accessState

theorem Formed.after_roomFor (h : Formed s) : Formed (roomFor s c e) :=
  h.foldl fun _ _ ht => .ite ht ht.after_drainEntry.accessState

theorem Formed.after_startHead (h : Formed s) (e : startHead s c = some t) : Formed t := by
  unfold startHead at e
  split at e
  · cases e
  obtain ⟨-, e⟩ := Option.ite_none_right_eq_some.1 e
  cases e
  exact .ite (Formed.ite h h.after_fillFor.after_roomFor).after_setCtx (Formed.ite h h.after_fillFor.after_roomFor).after_setCtx.after_onCore

theorem Formed.after_leaveUnit {fl : Flags} (h : Formed s) : Formed (leaveUnit s c e fl) := by
  unfold leaveUnit
  dsimp only
  split
  · exact h.after_onCtx
  · exact h.after_noteHits.after_onCtx

theorem Formed.after_runBelow {j : Nat} (h : Formed s) : Formed (runBelow s c j e).1 := by
  unfold runBelow
  dsimp only
  split
  · exact (h.after_onCtx.after_retireEffect.vOutDone ‹_›).after_onCtx
  · exact h.after_onCtx.after_setCtx

theorem Formed.after_followAll {chain others es : List VEntry} (h : Formed s) : Formed (followAll s c chain others es).1 := by
  induction es generalizing s chain others with
  | nil => exact h
  | cons e r ih =>
    unfold followAll
    dsimp only
    split
    · exact ih h
    next j _ =>
    have hr := Formed.iteFst (c := e.es < min e.vl j) (y := (s, some e)) (h.after_runBelow (c := c) (j := j) (e := e)) h
    split
    · exact ih (hr.fst ‹_›)
    · exact ih (hr.fst ‹_›)

theorem Formed.after_follow (h : Formed s) : Formed (follow s c) := by
  unfold follow
  split
  · exact h.after_followAll.after_onCtx
  · exact h

theorem Formed.after_retireOldest (h : Formed s) : Formed (retireOldest s c).left := by
  unfold retireOldest
  dsimp only
  have hd := h.after_drainDevice (c := c)
  generalize drainDevice s c = u at hd ⊢
  split
  · exact hd
  next e _ _ =>
  split
  · exact hd
  have hf : Formed (if u.defer then u else fillFor u c e.bound streamReady (boundSources (ctxAt u c) e)) := .ite hd hd.after_fillFor
  generalize (if u.defer then u else fillFor u c e.bound streamReady (boundSources (ctxAt u c) e)) = w at hf ⊢
  split
  · exact hf
  split
  · split
    · exact hf.after_consumePoison
    split
    · exact hf
    · exact hf.after_takeVector
  have hb := Formed.iteFst (c := postsByBtn e.instr = true) (y := (w, true)) (hf.after_breakLap (c := c)) hf
  split
  · exact hb.fst ‹_›
  next v _ =>
  have hv : Formed v := hb.fst ‹_›
  have hk := (hv.after_endRunBefore (c := c) (i := e.instr) (ok := entryOk (ctxAt v c) e))
  generalize endRunBefore v c e.instr (entryOk (ctxAt v c) e) = y at hk ⊢
  have ho : Formed (onCtx y c fun x => keepWritten (ctxAt y c) e (popStreams x (boundSources x e))) := hk
  generalize onCtx y c (fun x => keepWritten (ctxAt y c) e (popStreams x (boundSources x e))) = z at ho ⊢
  have hr : Formed (if entryOk (ctxAt w c) e then retireEffect e.instr z c e else badWord cType z c e).left :=
    .iteAt VOut.left ho.after_retireEffect ho.after_badWord
  split
  · split
    · exact (hr.vOutDone ‹_›).after_noteWords.after_onCtx.after_leaveUnit.after_noteChecked.after_drainDevice
    · exact (hr.vOutDone ‹_›).after_onCtx.after_leaveUnit.after_noteChecked.after_drainDevice
  · split
    · exact (hr.vOutFault ‹_›).after_onCtx.after_onHead.after_follow
    · exact (hr.vOutFault ‹_›).after_onCtx.after_onHead.after_follow.after_takeVector
  · exact (hr.vOutWait ‹_›).after_onCtx.after_follow
  · exact hr.vOutGone ‹_›

theorem Formed.after_passPost (h : Formed s) : Formed (passPost s c).left := by
  unfold passPost
  dsimp only
  split
  · exact h
  split
  · exact h
  split
  · exact (h.after_setCtx.after_retireOldest.retiredMoved ‹_›).after_onCtx
  · exact (h.after_setCtx.after_retireOldest.retiredStuck ‹_›).after_onCtx
  · exact h

theorem Formed.after_retireHead (h : Formed s) : Formed (retireHead s c).left := by
  unfold retireHead
  dsimp only
  split
  · split
    · exact h.after_flushRun
    · exact h
  split
  · exact h
  split
  · exact h.after_retireOldest
  · exact h.after_passPost

theorem Formed.after_runQueue (h : Formed s) : Formed (runQueue s c n) := by
  induction n generalizing s with
  | zero => exact h
  | succ n ih =>
    unfold runQueue
    have hr := Formed.iteAt Retired.left (c := (ctxAt s c).vx.isEmpty = true) (x := .stuck s) h (h.after_retireHead (c := c))
    split
    · exact ih (hr.retiredMoved ‹_›)
    · exact hr.retiredEnded ‹_›
    split
    · exact ih ((hr.retiredStuck ‹_›).after_startHead ‹_›)
    · exact hr.retiredStuck ‹_›

theorem Formed.after_goQueue (h : Formed s) : Formed (goQueue s c) := .ite h h.after_drainDevice.after_runQueue

theorem Formed.after_issue (h : Formed s) : FormedNext (issue i s) := by
  unfold issue
  dsimp only
  split
  · exact h.after_takeWord
  · exact .ite h.after_takeWord (.ite h h.after_setCtx.after_goQueue)

end Sys2Proof.Machine
end

section
namespace Sys2Proof.Machine

variable {s t : State} {c va pa die id clu n code elem addr launch leg k : Nat} {a : Agent} {p : Place} {i : Instr} {acc : Acc}
  {v : Word} {acq sx : Bool}

/-! ## Scalar accesses, fences and batons (R176–R181, R191) -/

theorem Formed.after_writeX {d : XReg} (h : Formed s) : Formed (writeX s d v) := h.after_onCtx

theorem Formed.after_branchIf {cond : Bool} {off : BitVec 12} (h : Formed s) : Formed (branchIf cond off s) := h.after_onCtx

theorem Formed.after_goOn (h : Formed s) : Formed (goOn s) := h.after_onCtx

theorem Formed.after_stopAt (h : Formed s) : Formed (stopAt s code va) := h.after_takeFront

theorem Formed.after_acquired (h : Formed s) : Formed (acquired acq s) := .ite h.after_onCtx h

theorem Formed.after_execLd {t a : XReg} {off : BitVec 10} {ord sz : BitVec 2} (h : Formed s) :
    FormedNext (execLd t a off ord sz sx s) := by
  unfold execLd
  dsimp only
  split
  · exact (h.after_scalarLoad.accessDone ‹_›).after_writeX.after_acquired
  · exact (h.after_scalarLoad.accessFault ‹_›).after_stopAt
  · exact h.after_scalarLoad.accessWait ‹_›
  · exact h.after_scalarLoad.accessGone ‹_›

theorem Formed.after_drainNamed {rs : List Nat} (h : Formed s) : Formed (drainNamed s c rs).left := by
  unfold drainNamed
  dsimp only
  split
  · split <;> exact h.after_drainEach
  · exact h.after_drainAll

theorem Formed.after_sendAll (h : Formed s) : Formed (sendAll s c).left := by
  unfold sendAll
  split
  · exact (h.after_drainNamed.accessFault ‹_›).after_takeStop
  · exact h.after_drainNamed.accessWait ‹_›
  · exact h.after_drainNamed.accessGone ‹_›
  · split <;> exact (h.after_drainNamed.accessDone ‹_›).after_breakLap.fst ‹_›

theorem Formed.after_away {o : Closing} (h : Formed o.left) : Formed (o.away c).left := by
  cases o with
  | closed s => exact .iteAt Closing.left h h
  | ended s => exact h

theorem Formed.after_performAll (h : Formed s) : Formed (performAll s c).left := h.after_sendAll.after_away

theorem Formed.after_releaseFirst {remote : Bool} (h : Formed s) : Formed (releaseFirst s acc va n remote).left := by
  unfold releaseFirst
  split
  · exact h.after_performAll
  · exact h.after_performAll
  · exact h

theorem Formed.after_execSt {t a : XReg} {off : BitVec 10} {ord sz : BitVec 2} (h : Formed s) : FormedNext (execSt t a off ord sz s) := by
  unfold execSt
  dsimp only
  have hr : Formed (if ord = 0 then .closed s else releaseFirst s .store (ldAddr s a off) (2 ^ sz.toNat) true).left :=
    .iteAt Closing.left h h.after_releaseFirst
  split
  · exact hr.closingEnded ‹_›
  have ht := hr.closingClosed ‹_›
  split
  · exact (ht.after_scalarStore.accessDone ‹_›).after_goOn
  · exact (ht.after_scalarStore.accessFault ‹_›).after_stopAt
  · exact ht.after_scalarStore.accessWait ‹_›
  · exact ht.after_scalarStore.accessGone ‹_›

theorem Formed.after_endAtomic {d : XReg} {ord : BitVec 2} {o : Access Nat} (h : Formed o.left) : FormedNext (endAtomic d n va ord o) := by
  cases o with
  | done s old => exact Formed.after_acquired (Formed.after_writeX h)
  | fault s code => exact Formed.after_stopAt h
  | wait s => exact h
  | gone s => exact h

/-- An atomic, once what its release asks for has performed. -/
theorem Formed.after_released {b : Bool} {remote : Bool} (h : Formed s) :
    Formed (if b then releaseFirst s acc va n remote else .closed s).left :=
  .iteAt Closing.left h.after_releaseFirst h

theorem Formed.after_runAmo {d a b : XReg} {ord : BitVec 2} {w : Bool} {op : Nat → Nat → Nat → Nat} {kind : Option (Word → DomainKind)}
    (h : Formed s) : FormedNext (runAmo d a b ord w op kind s) := by
  unfold runAmo
  dsimp only
  split
  · exact h.after_released.closingEnded ‹_›
  · exact (h.after_released.closingClosed ‹_›).after_scalarAtomic.after_endAtomic

theorem Formed.after_execCas {d a b : XReg} {ord : BitVec 2} {scope : BitVec 3} {w : Bool} (h : Formed s) :
    FormedNext (execCas d a b ord scope w s) := by
  unfold execCas
  dsimp only
  split
  · exact h.after_released.closingEnded ‹_›
  · exact (h.after_released.closingClosed ‹_›).after_scalarAtomic.after_endAtomic

theorem Formed.after_fenceAll (h : Formed s) : Formed (fenceAll acq s) := by
  unfold fenceAll
  split
  · exact h.after_performAll.closingEnded ‹_›
  · exact (h.after_performAll.closingClosed ‹_›).after_acquired.after_goOn

theorem Formed.after_execSbar {names : BitVec 20} (h : Formed s) : FormedNext (execSbar names s) := by
  unfold execSbar
  split
  · exact (h.after_drainNamed.accessFault ‹_›).after_takeStop
  · exact h.after_drainNamed.accessWait ‹_›
  · exact h.after_drainNamed.accessGone ‹_›
  have hd := h.after_drainNamed.accessDone ‹_›
  split
  · exact hd.after_breakLap.fst ‹_›
  · exact .ite (hd.after_breakLap.fst ‹_›) (hd.after_breakLap.fst ‹_›).after_onCtx.after_goOn

theorem Formed.after_blockOn {on : WaitOn} (h : Formed s) : Formed (blockOn s on) := h.after_onCtx

theorem Formed.after_settlePasses (h : Formed s) : Formed (settlePasses s die) := h.foldl fun _ _ ht => ht.after_settlePass

theorem Formed.after_frontBaton {take give : Bool} (h : Formed s) : Formed (frontBaton take give s) := by
  unfold frontBaton
  dsimp only
  refine .ite h.after_blockOn (.ite h.after_blockOn ?_)
  have hb := Formed.iteFst (c := give = true) (y := (s, true)) (h.after_breakLap (c := s.turn)) h
  split
  · exact hb.fst ‹_›
  have ht := hb.fst ‹_›
  exact .ite (Formed.ite ht.after_onCtx.after_postJobs.after_settlePasses ht.after_onCtx).after_goJobs
    (.ite ht.after_onCtx.after_postJobs.after_settlePasses ht.after_onCtx)

/-! ## The leg scheduler (R257–R276) -/

theorem Formed.after_dropStages (h : Formed s) : Formed (dropStages s clu launch leg) := h.after_onClu

theorem Formed.after_killElems {l : Launch} {card : Nat} (h : Formed s) : Formed (killElems s clu id l n code card) :=
  h.after_record.after_onLaunch

theorem Formed.after_giveLap {l : Launch} {l0 : Nat} {es : List PoolElem} {take : State → State} (h : Formed s)
    (ht : Formed (take s)) : Formed (giveLap s c id leg l l0 es take) := by
  unfold giveLap
  dsimp only
  split
  · exact ht.after_killElems.after_dropStages
  · exact .ite ht.after_dropStages.after_setCtx h

theorem Formed.after_resumeOn (h : Formed s) : Formed (resumeOn s clu id) := by
  unfold resumeOn
  dsimp only
  split
  · exact h
  · exact .ite h.after_onLaunch.after_onClu.after_goJobs h

theorem Formed.after_writeSlot (h : Formed s) : Formed (writeSlot s c) := by
  unfold writeSlot
  dsimp only
  refine .ite h ?_
  split
  · exact h.after_logViolation
  · exact h.after_writeArea

theorem Formed.after_readSlot (h : Formed s) : Formed (readSlot s num c) := by
  unfold readSlot
  dsimp only
  split
  · exact h
  · exact h.after_recordSector.after_killLap

theorem Formed.after_restoreSaved {i : Nat} (h : Formed s) : Formed (restoreSaved s c i) := by
  unfold restoreSaved
  dsimp only
  split
  · exact h
  · exact h.rest.after_onClu.after_setCtx.after_renameLap.after_resumeOn.after_readSlot

theorem Formed.after_bindLatest (h : Formed s) : Formed (bindLatest s die id) := by
  unfold bindLatest
  dsimp only
  split
  · exact h
  · exact h.after_onDie.after_onLaunch

theorem Formed.after_giveCand {a : Cand} (h : Formed s) : Formed (giveCand s c a) := by
  unfold giveCand
  dsimp only
  split
  · exact h.after_restoreSaved
  · split
    · exact h.after_resumeOn.after_giveLap h.after_resumeOn.after_onClu
    · exact h
  split
  · exact h
  split
  · exact h
  · exact (Formed.ite h.after_bindLatest h).after_resumeOn.after_giveLap (Formed.ite h.after_bindLatest h).after_resumeOn.after_onLaunch

/-! ## Laps of a loop and of a launch (R80–R91) -/

theorem Formed.after_commitLap (h : Formed s) : Formed (commitLap s c).left := by
  unfold commitLap
  split
  · exact (h.after_closeRun.fst ‹_›).after_sendAll
  · exact h.after_closeRun.fst ‹_›

theorem Formed.after_execLoop {a : XReg} {ind : BitVec 8} {cvb : BitVec 6} {cvg : BitVec 2} (h : Formed s) :
    FormedNext (execLoop a ind cvb cvg s) := by
  unfold execLoop
  dsimp only
  split
  · exact h.after_commitLap.closingEnded ‹_›
  · exact (h.after_commitLap.closingClosed ‹_›).after_onCtx

theorem Formed.after_execLapend (h : Formed s) : FormedNext (execLapend s) := by
  unfold execLapend
  dsimp only
  refine .ite h.after_goOn ?_
  split
  · exact h.after_commitLap.closingEnded ‹_›
  · exact (h.after_commitLap.closingClosed ‹_›).after_onCtx

theorem Formed.after_execLapexit (h : Formed s) : FormedNext (execLapexit s) := by
  unfold execLapexit
  dsimp only
  refine .ite h.after_goOn ?_
  split
  · exact h.after_commitLap.closingEnded ‹_›
  · exact (h.after_commitLap.closingClosed ‹_›).after_onCtx

theorem Formed.after_handOver {now : Nat} {l : Launch} {succ : List Nat} (h : Formed s) : Formed (handOver s c now l k succ) := by
  induction succ generalizing s k with
  | nil => exact h
  | cons x r ih => exact ih (.ite h h.after_onClu)

theorem Formed.after_endLap {l : Launch} {succ : List Nat} (h : Formed s) : Formed (endLap s c l succ) :=
  (Formed.ite h h.after_handOver).after_onLaunch.after_freeCtx

theorem Formed.after_runNext {succ : Ctx → List Nat} {pop : Ctx → Ctx} (h : Formed s) : Formed (runNext succ pop s) := by
  unfold runNext
  dsimp only
  split
  · exact h.after_commitLap.after_away.closingEnded ‹_›
  have ht := h.after_commitLap.after_away.closingClosed ‹_›
  refine .ite ht.after_onCtx ?_
  split
  · exact ht.after_onCtx.after_takeFront
  refine Formed.ite ht.after_onCtx.after_leavePass ?_
  split
  · exact ht.after_onCtx.after_leavePass.after_freeCtx
  · exact ht.after_onCtx.after_leavePass.after_onCtx.after_endLap

theorem Formed.after_execNextPerElement {a : VNum} (h : Formed s) : FormedNext (execNextPerElement a s) := by
  unfold execNextPerElement
  dsimp only
  refine .ite h.after_fillFor.after_blockOn ?_
  split
  · exact .ite h.after_fillFor.after_consumePoison h.after_fillFor.after_takeStop
  · exact h.after_fillFor.after_runNext

end Sys2Proof.Machine
end

section
namespace Sys2Proof.Machine

variable {s t : State} {c va pa die id clu n code elem addr launch leg k slot target frame fn key : Nat} {a : Agent} {p : Place} {i : Instr}
  {acc : Acc} {v : Word} {acq sx : Bool}

/-! ## Halts, special registers and shootdowns (R29–R49, R135–R170, R327–R330) -/

theorem Formed.after_haltNow (h : Formed s) : Formed (haltNow s c code) := h.after_noteStop.after_addEvent.after_onCtx

theorem Formed.after_debugAnswer (h : Formed s) : Formed (debugAnswer s clu n) := h.after_onClu

theorem Formed.after_takeHalt (h : Formed s) : Formed (takeHalt s c) := by
  unfold takeHalt
  dsimp only
  split
  · exact h
  refine .ite h (.ite h.after_startLap.after_settle ?_)
  split
  · exact h.after_startLap.after_settle.after_haltNow.after_debugAnswer
  · exact h.after_startLap.after_settle.after_haltNow

theorem Formed.after_askHalt {asker : Option Nat} (h : Formed s) : Formed (askHalt s c code asker) := .ite h.after_onCtx.after_takeHalt h

theorem Formed.after_haltCtx (h : Formed s) : Formed (haltCtx s c code) := .ite h.after_askHalt h

theorem Formed.after_resumeCtx {one : Bool} (h : Formed s) : Formed (resumeCtx s c one) := h.after_onCtx

theorem Formed.after_wakeClu (h : Formed s) : Formed (wakeClu s clu) := h.after_onClu

theorem Formed.after_debugRefused (h : Formed s) : Formed (debugRefused s clu target) := h.after_record.after_debugAnswer

theorem Formed.after_debugRequest {op : Nat} (h : Formed s) : Formed (debugRequest s clu op target) := by
  unfold debugRequest
  dsimp only
  refine .ite h (.ite h.after_debugRefused (.ite h.after_debugAnswer (.ite ?_ h.after_wakeClu.after_resumeCtx.after_debugAnswer)))
  have hh := h.after_wakeClu (clu := cluOf target)
  exact .ite hh.after_debugAnswer.after_askHalt.after_debugAnswer hh.after_debugAnswer.after_askHalt

theorem Formed.after_debugTurned {new : Option Word} (h : Formed s) : Formed (debugTurned s c n new) := by
  unfold debugTurned
  split
  · exact .ite h.after_debugRefused h
  · exact h

theorem Formed.after_onPartDie {part : Nat} {f : PartDie → PartDie} (h : Formed s) : Formed (onPartDie s die part f) := h.after_onDie

theorem Formed.after_writeKernel (h : Formed s) : Formed (writeKernel s c n v) := by
  unfold writeKernel
  dsimp only
  split
  · exact h.after_onPartDie
  · exact h.after_onPartDie
  · exact h.after_onPartDie
  · exact h.after_onCtx

theorem Formed.after_createSpace {part : Nat} (h : Formed s) : Formed (createSpace s die part) := .ite h h.after_onDie

theorem Formed.after_dropFrame (h : Formed s) : Formed (dropFrame s frame) := h.foldl fun _ _ ht => ht.after_onDie.after_loseCoverage

theorem Formed.after_destroySpace (h : Formed s) : Formed (destroySpace s die) := h.after_onDie.foldl fun _ _ ht => ht.after_dropFrame

theorem Formed.after_hasCommand (h : Formed s) : Formed (hasCommand s die v) := by
  unfold hasCommand
  dsimp only
  split
  · exact h.after_createSpace
  · exact h.after_destroySpace
  · exact .ite h h.after_onClu.after_onDie
  · exact h

theorem Formed.after_writeHyper (h : Formed s) : Formed (writeHyper s c n v) := by
  unfold writeHyper
  dsimp only
  split
  · exact h.after_onDie
  · exact h.after_onDie
  · exact h.after_onDie
  · exact h.after_hasCommand
  · exact h.after_onDie
  · exact h.after_onPkg
  · exact .ite h (.ite h.after_fencePartition.after_onPkg h.after_onPkg)
  · exact h.after_onCtx

theorem Formed.after_finishPage (h : Formed s) : Formed (finishPage s) := h.after_endPage.foldl fun _ _ ht => ht.after_wakeJobs

theorem Formed.after_keyCommand (h : Formed s) : Formed (keyCommand s v) := by
  unfold keyCommand
  dsimp only
  refine .ite h ?_
  split
  · exact h.after_withOwners
  · exact .ite h.after_onPkg (.ite h.after_onPkg h.after_onPkg.after_finishPage)
  · exact h.after_onPkg
  · exact h.after_onPkg

theorem images_commitRegion (q : Package) : (commitRegion q v).images = q.images := by
  unfold commitRegion
  split
  · rfl
  · rfl

theorem images_grantDebug (q : Package) : (grantDebug q v).images = q.images := by
  unfold grantDebug
  dsimp only
  split
  · rfl
  · rfl

theorem Formed.after_writeMachine (h : Formed s) : Formed (writeMachine s c n v) := by
  unfold writeMachine
  split
  · exact h.after_onPkg
  · exact h.after_onPkg
  · exact h.after_onPkg
  · exact h.after_withOwners (images_commitRegion _)
  · exact h.after_onPkg
  · split
    · exact h.after_onPkg
    · exact h
  · exact h.after_keyCommand
  · exact h.after_onPkg
  · exact h.after_onPkg images_grantDebug
  · exact h.after_onCtx

theorem Formed.after_forgetPairs (h : Formed s) : Formed (forgetPairs s clu) := h.foldl fun _ _ ht => .ite ht ht.after_onCtx

theorem Formed.after_setTraceCtl {v : BitVec 6} (h : Formed s) : Formed (setTraceCtl s clu v) :=
  .ite h.after_onClu.after_forgetPairs h.after_onClu

theorem Formed.after_writeDebug (h : Formed s) : Formed (writeDebug s c n v) := by
  unfold writeDebug
  dsimp only
  refine .ite h.after_onClu (.ite h.after_onClu (.ite (.ite h h.after_onClu) (.ite (.ite h h.after_onClu) ?_)))
  split
  · exact h.after_setTraceCtl.after_onClu
  · exact h.after_onClu
  · exact h.after_onClu
  · exact h.after_onDie
  · exact h.after_onDie
  · exact h.after_onDie
  · exact h.after_onClu.after_debugRequest
  · exact h.after_onClu
  · exact h

theorem Formed.after_csrWrite (h : Formed s) : Formed (csrWrite s c n v) :=
  .ite h.after_onCtx (.ite h.after_writeKernel (.ite h.after_writeHyper (.ite h.after_writeMachine h.after_writeDebug)))

theorem Formed.after_runCsr {d : XReg} {new : Word → Option Word} (h : Formed s) : Formed (runCsr i d n new s) := by
  unfold runCsr
  dsimp only
  refine .ite (Formed.ite h.after_flushRun h).after_debugTurned.after_takeWord ?_
  split
  · exact (Formed.ite h.after_flushRun h).after_writeX
  · exact (Formed.ite h.after_flushRun h).after_writeX.after_csrWrite

theorem Formed.after_execTrace {a : XReg} {code : BitVec 15} (h : Formed s) : FormedNext (execTrace a code s) :=
  h.after_addSoftware.after_goOn

theorem Formed.after_execWfe (h : Formed s) : FormedNext (execWfe s) := h.after_goOn.after_onCtx

theorem Formed.after_reloadEntry {asid i : Nat} (h : Formed s) : Formed (reloadEntry s die asid i) := by
  unfold reloadEntry
  dsimp only
  split
  · exact h
  refine .ite h ?_
  split
  · exact .ite h.after_onDie h.after_onDie.after_dropFrame
  · exact h.after_onDie

theorem Formed.after_dropLeaves {gone : StbEntry → Bool} (h : Formed s) : Formed (dropLeaves s die gone) :=
  h.foldl fun _ _ ht => .ite ht.after_onCore ht

theorem Formed.after_finishShoot (h : Formed s) : Formed (finishShoot s die slot) := by
  unfold finishShoot
  dsimp only
  split
  · exact h
  refine (h.after_dropLeaves.foldl fun _ _ ht => ?_).after_onDie.after_onCtx
  exact .ite (.ite ht.after_reloadEntry ht) (ht.foldl fun _ _ ht => ht.after_reloadEntry)

theorem Formed.after_askSlot (h : Formed s) : Formed (askSlot s c) := h.after_onDie.after_dataWait

theorem Formed.after_runTlbi {asid va : Word} (h : Formed s) : Formed (runTlbi i fn asid va s) := by
  unfold runTlbi
  dsimp only
  refine .ite h.after_takeWord (.ite h.after_takeFront ?_)
  split
  · exact h.after_performAll.closingEnded ‹_›
  have ht := (h.after_performAll.closingClosed ‹_›).after_askSlot (c := s.turn)
  split
  · exact ht
  · exact .ite ht.after_onDie.after_onCtx ht.after_onDie.after_onCtx.after_finishShoot

theorem Formed.after_execShootdownAck (h : Formed s) : FormedNext (execShootdownAck s) := by
  unfold execShootdownAck
  dsimp only
  split
  · split
    · exact h
    · exact .ite h (Formed.ite h.after_onDie.after_finishShoot h.after_onDie)
  · exact h

theorem Formed.after_execIllegalWord (h : Formed s) : FormedNext (execIllegalWord s) := by
  unfold execIllegalWord
  split
  · exact h.after_takeRaw
  · exact h.after_takeFront

theorem Formed.after_execFetchFault (h : Formed s) : FormedNext (execFetchFault s) := by
  unfold execFetchFault
  split
  · exact h.after_takeFront
  · exact h.after_takeFront

theorem Formed.after_execPendingFaultTake (h : Formed s) : FormedNext (execPendingFaultTake s) := by
  unfold execPendingFaultTake
  dsimp only
  split
  · exact .ite h.after_takeStop h
  · exact h

theorem Formed.after_execStopAtPointerPair (h : Formed s) : FormedNext (execStopAtPointerPair s) := by
  unfold execStopAtPointerPair
  dsimp only
  split
  · exact .ite h (.ite h.after_takeHalt (.ite h.after_haltCtx (.ite h h.after_takeStop)))
  · exact h

theorem Formed.after_execWfeWake (h : Formed s) : FormedNext (execWfeWake s) := by
  unfold execWfeWake
  split
  · split
    · exact h.after_unpark
    · exact h
  · exact h

theorem Formed.after_execWfeTimeout (h : Formed s) : FormedNext (execWfeTimeout s) := by
  unfold execWfeTimeout
  split
  · split
    · exact Formed.ite h.after_unpark h
    · exact h
  · exact h

theorem Formed.after_fireTrigger (h : Formed s) : Formed (fireTrigger s clu) := by
  unfold fireTrigger
  dsimp only
  have hd {act : Nat} {v : BitVec 6} : Formed ((cluAt s clu).trace.due.foldl
      (fun s c => if act = 0 then s else addEvent s c (0x40 + act)) (setTraceCtl s clu v)) :=
    h.after_setTraceCtl.foldl fun _ _ ht => .ite ht ht.after_addEvent
  exact .ite h (Formed.ite (hd.foldl fun _ _ ht => .ite ht.after_haltCtx ht) hd).after_onClu

theorem Formed.after_execTraceTriggerFire (h : Formed s) : FormedNext (execTraceTriggerFire s) := by
  unfold execTraceTriggerFire
  split
  · exact h.after_fireTrigger
  · exact h

/-! ## Hurdles, rings and watermarks (R245–R256, R304–R307) -/

/-- What is done first to an object: every earlier access performs, or the lap's rewindability ends. -/
theorem Formed.after_clear {b : Bool} (h : Formed s) :
    Formed (if b then performAll s c else match breakLap s c with
      | (s, true) => .closed s
      | (s, false) => .ended s).left := by
  split
  · exact h.after_performAll
  split
  · exact h.after_breakLap.fst ‹_›
  · exact h.after_breakLap.fst ‹_›

theorem Formed.after_withObject {rel : Bool} {act : State → Place → Nat → State} (h : Formed s)
    (ha : ∀ t p w, Formed t → Formed (act t p w)) : Formed (withObject s acc va n rel act) := by
  unfold withObject
  dsimp only
  split
  · exact h.after_noteDenial.after_stopAt
  · exact h
  · exact h
  split
  · exact h.after_clear.closingEnded ‹_›
  have ht := h.after_clear.closingClosed ‹_›
  split
  · exact ha _ _ _ (ht.after_takeBytes.accessDone ‹_›)
  · exact (ht.after_takeBytes.accessFault ‹_›).after_stopAt
  · exact ht.after_takeBytes.accessWait ‹_›
  · exact ht.after_takeBytes.accessGone ‹_›

theorem Formed.after_putObject {bits : Nat} (h : Formed s) : Formed (putObject s va p n bits) := h.after_storeAt

theorem Formed.after_passHurdle {d : XReg} (h : Formed s) : Formed (passHurdle s c d) := h.after_unpark.after_onCtx

theorem Formed.after_endWait (h : Formed s) : Formed (endWait s c) := by
  unfold endWait
  dsimp only
  split
  · exact h.after_unpark.after_onCtx
  · exact h

theorem Formed.after_checkWaiter {phase : Nat} (h : Formed s) : Formed (checkWaiter s key phase c) := by
  unfold checkWaiter
  dsimp only
  split
  · exact .ite h (.ite h.after_endWait (.ite (.ite h.after_onCtx h.after_passHurdle) h))
  split
  · exact .ite h.after_onCtx h
  · exact h

theorem Formed.after_checkWaiters (h : Formed s) : Formed (checkWaiters s key old new) := by
  unfold checkWaiters
  refine h.foldl fun _ _ ht => ?_
  split
  · exact ht.after_checkWaiter
  · exact .ite ht ht.after_checkWaiter

theorem Formed.after_parkOn {d : XReg} {phase bound : Nat} (h : Formed s) : Formed (parkOn s d va p phase bound) :=
  h.after_putObject.after_checkWaiters.after_onCtx

theorem Formed.after_waitOn {d : XReg} {o : Hurdle} {phase bound : Nat} (h : Formed s) : Formed (waitOn s d va p o phase bound) :=
  .ite h.after_writeX.after_acquired (.ite h.after_writeX.after_onCtx h.after_parkOn)

theorem Formed.after_overrunStop {extra : Nat} (h : Formed s) : Formed (overrunStop s va extra) := .ite h h.after_stopAt

theorem Formed.after_execHurdleArrive {d a b : XReg} {scope : BitVec 3} (h : Formed s) : FormedNext (execHurdleArrive d a b scope s) :=
  h.after_withObject fun _ _ _ ht => (Formed.ite ht ht.after_putObject).after_checkWaiters.after_writeX.after_overrunStop

theorem Formed.after_execHurdleWait {d a b : XReg} {scope : BitVec 3} (h : Formed s) : FormedNext (execHurdleWait d a b scope s) :=
  h.after_withObject fun _ _ _ ht => ht.after_waitOn

theorem Formed.after_execHurdleAw {d a b : XReg} {scope : BitVec 3} (h : Formed s) : FormedNext (execHurdleAw d a b scope s) := by
  refine h.after_withObject fun _ _ _ ht => ?_
  have hw {b : Prop} [Decidable b] {q : Place} {n key old new : Nat} {va : Nat} {s : State} (h : Formed s) :
      Formed (checkWaiters (if b then s else putObject s va q 16 n) key old new) :=
    (Formed.ite h h.after_putObject).after_checkWaiters
  exact .ite (hw ht).after_waitOn
    (Formed.ite (hw ht).after_writeX.after_acquired.after_onCtx (hw ht).after_writeX.after_acquired).after_overrunStop

theorem Formed.after_execHurdleInit {d a b : XReg} {scope : BitVec 3} (h : Formed s) : FormedNext (execHurdleInit d a b scope s) :=
  h.after_withObject fun _ _ _ ht => .ite ht.after_writeX ht.after_putObject.after_checkWaiters.after_writeX

theorem Formed.after_checkParked (h : Formed s) : Formed (checkParked s c) := by
  unfold checkParked
  split
  · exact .ite h.after_passHurdle (.ite h.after_endWait (.ite h.after_passHurdle h))
  · exact h

theorem Formed.after_checkBound (h : Formed s) : Formed (checkBound s n c) := by
  unfold checkBound
  split
  · exact .ite h.after_onCtx h
  · exact h

theorem Formed.after_execHurdleWake (h : Formed s) : FormedNext (execHurdleWake s) := by
  unfold execHurdleWake
  split
  · exact h.after_checkParked
  · exact h

theorem Formed.after_execHurdleRecheck (h : Formed s) : FormedNext (execHurdleRecheck s) := by
  unfold execHurdleRecheck
  split
  · exact h.after_checkParked
  · exact h

theorem Formed.after_execHurdleWaitTimeout (h : Formed s) : FormedNext (execHurdleWaitTimeout s) := by
  unfold execHurdleWaitTimeout
  split
  · exact h.after_checkParked
  · exact h

theorem Formed.after_ringEvent (h : Formed s) : Formed (ringEvent s key) := by
  unfold ringEvent
  refine h.foldl fun _ _ ht => ?_
  split
  · exact .ite ht.after_onCtx ht
  · exact ht

theorem Formed.after_watchRing (h : Formed s) : Formed (watchRing s va) := h.after_onCtx

theorem Formed.after_withEntry {act : State → Place → State} (h : Formed s) (ha : ∀ t p, Formed t → Formed (act t p)) :
    Formed (withEntry s acc va act) := by
  unfold withEntry
  split
  · exact h.after_noteDenial.after_stopAt
  · exact h
  · exact h
  · exact ha _ _ h

theorem Formed.after_withRing {rel : Bool} {entry : Nat → Option Nat} {act : State → Place → Nat → State} (h : Formed s)
    (ha : ∀ t p w, Formed t → Formed (act t p w)) : Formed (withRing s acc va rel entry act) := by
  unfold withRing
  dsimp only
  split
  · split
    · exact h.after_withEntry fun _ _ ht => ht.after_withObject ha
    · exact h.after_withObject ha
  · exact h.after_withObject ha

theorem Formed.after_execQpush {d a b : XReg} {scope : BitVec 3} (h : Formed s) : FormedNext (execQpush d a b scope s) :=
  h.after_withRing fun _ _ _ ht => .ite ht.after_writeX.after_watchRing (.ite ht.after_writeX.after_watchRing
    (ht.after_withEntry fun _ _ ht => ht.after_putObject.after_putObject.after_ringEvent.after_writeX))

theorem Formed.after_writePair {d b : XReg} {pred : Nat} (h : Formed s) : Formed (writePair s d b v pred) := h.after_onCtx

theorem Formed.after_runPop {d a b : XReg} {pop : Bool} (h : Formed s) : Formed (runPop d a b pop s) := by
  refine h.after_withRing fun _ _ _ ht => .ite ht.after_writePair.after_watchRing (.ite ht.after_writePair.after_watchRing
    (ht.after_withEntry fun _ _ ht => ?_))
  split
  · exact (Formed.ite (ht.after_takeBytes.accessDone ‹_›).after_putObject
      (ht.after_takeBytes.accessDone ‹_›)).after_ringEvent.after_writePair.after_acquired
  · exact (ht.after_takeBytes.accessFault ‹_›).after_stopAt
  · exact ht.after_takeBytes.accessWait ‹_›
  · exact ht.after_takeBytes.accessGone ‹_›

theorem Formed.after_sendMark {mark : Nat} (h : Formed s) : Formed (sendMark s key mark k) := h.after_onCtx

theorem Formed.after_execWmarkPub {d a b : XReg} {scope : BitVec 3} (h : Formed s) : FormedNext (execWmarkPub d a b scope s) :=
  h.after_withObject fun _ _ _ ht => (ht.after_putObject.foldl fun _ _ ht => ht.after_sendMark).after_writeX

theorem Formed.after_execWmarkBind {d a : XReg} {scope : BitVec 3} (h : Formed s) : FormedNext (execWmarkBind d a scope s) := by
  refine h.after_withObject fun _ _ _ ht => ?_
  split
  · exact ht.after_writeX.after_acquired
  · exact ht.after_onCtx.after_writeX.after_acquired

theorem Formed.after_execWmarkUnbind {a : XReg} (h : Formed s) : FormedNext (execWmarkUnbind a s) :=
  h.after_withObject fun _ _ _ ht => ht.after_onCtx.after_goOn

theorem Formed.after_execWmarkCopyUpdate (h : Formed s) : FormedNext (execWmarkCopyUpdate s) := by
  unfold execWmarkCopyUpdate
  split
  · exact h.after_onCtx
  · exact h

end Sys2Proof.Machine
end

section
namespace Sys2Proof.Machine

variable {s t : State} {c va pa die id clu n code elem addr launch leg k slot frame lo hi base : Nat} {a : Agent} {p : Place} {i : Instr}
  {acc : Acc} {v : Word} {acq sx : Bool} {part : BitVec 16}

/-! ## Views (R308–R317) -/

theorem Formed.after_addView (h : Formed s) : Formed (addView s frame lo hi part).1 := by
  unfold addView
  dsimp only
  split
  · exact h
  · exact h.after_onDie

theorem Formed.after_setRange {id : Word} {v : View} (h : Formed s) : Formed (setRange s id v lo hi) := h.after_onDie

theorem Formed.after_noteArena (h : Formed s) : Formed (noteArena s frame base) := h.after_onDie

theorem Formed.after_noteView {v : View} (h : Formed s) : Formed (noteView s v base) := .ite h.after_noteArena h

theorem Formed.after_viewStep {all : Bool} {act : State → State} (h : Formed s) (ha : ∀ t, Formed t → Formed (act t)) :
    Formed (viewStep s all act) := by
  unfold viewStep
  split
  · exact h.after_clear.closingEnded ‹_›
  · exact ha _ (h.after_clear.closingClosed ‹_›)

theorem Formed.after_writeH {d : BitVec 4} {id : Word} (h : Formed s) : Formed (writeH s d id) := h.after_onCtx

theorem Formed.after_execViewNew {hd : BitVec 4} {a b : XReg} (h : Formed s) : FormedNext (execViewNew hd a b s) := by
  unfold execViewNew
  dsimp only
  split
  · exact h.after_takeFront
  refine .ite h.after_takeFront (h.after_viewStep fun _ ht => ?_)
  split
  · exact ht.after_writeH
  · exact (Formed.ite ht.after_addView ht.after_addView.after_noteArena).after_writeH

theorem Formed.after_execViewNarrow {ha : BitVec 4} {a b : XReg} (h : Formed s) : FormedNext (execViewNarrow ha a b s) := by
  unfold execViewNarrow
  dsimp only
  split
  · exact h.after_takeFront
  split
  · exact h.after_takeFront
  · exact .ite h.after_takeFront (.ite h.after_dataWait
      (h.after_viewStep fun _ ht => ht.after_setRange.after_noteView.after_loseCoverage.after_onCtx.after_goOn))

theorem Formed.after_execViewSplit {hd ha : BitVec 4} {a : XReg} (h : Formed s) : FormedNext (execViewSplit hd ha a s) := by
  unfold execViewSplit
  dsimp only
  split
  · exact h.after_takeFront
  split
  · exact h.after_takeFront
  · exact .ite h.after_takeFront (h.after_viewStep fun _ ht => (Formed.ite ht ht.after_addView.after_setRange).after_writeH)

theorem Formed.after_execViewDup {hd ha : BitVec 4} (h : Formed s) : FormedNext (execViewDup hd ha s) := by
  unfold execViewDup
  dsimp only
  split
  · exact h.after_takeFront
  · exact h.after_viewStep fun _ ht => ht.after_addView.after_writeH

theorem Formed.after_execViewDrop {ha : BitVec 4} (h : Formed s) : FormedNext (execViewDrop ha s) := by
  unfold execViewDrop
  dsimp only
  refine .ite (h.after_viewStep fun _ ht => ht.after_goOn) ?_
  split
  · exact h.after_takeFront
  refine .ite h.after_dataWait (h.after_viewStep fun _ ht => ?_)
  split
  · exact ht.after_noteView.after_onDie.after_loseCoverage.after_onCtx.after_writeH
  · exact ht.after_onDie.after_loseCoverage.after_onCtx.after_writeH

theorem Formed.after_execViewQuery {ha : BitVec 4} {a b : XReg} (h : Formed s) : FormedNext (execViewQuery ha a b s) := by
  unfold execViewQuery
  dsimp only
  refine .ite (h.after_viewStep fun _ ht => ht.after_onCtx) ?_
  split
  · exact h.after_takeFront
  split
  · exact h.after_takeFront
  · exact h.after_viewStep fun _ ht => ht.after_onCtx

theorem Formed.after_execViewId {ha : BitVec 4} {a : XReg} (h : Formed s) : FormedNext (execViewId ha a s) :=
  .ite (h.after_viewStep fun _ ht => ht.after_writeX) h.after_takeFront

theorem Formed.after_execViewTake {ha : BitVec 4} {a : XReg} (h : Formed s) : FormedNext (execViewTake ha a s) :=
  .ite (h.after_viewStep fun _ ht => ht.after_writeH) h.after_takeFront

theorem Formed.after_execCellFree (h : Formed s) : FormedNext (execCellFree s) := by
  unfold execCellFree
  dsimp only
  split
  · exact .ite h.after_onDie.after_arenaEmpty h
  · exact h

/-! ## Publication (R292–R303) -/

theorem Formed.after_endStoppedRound (h : Formed s) : Formed (endStoppedRound s die id) :=
  (h.foldl fun _ _ ht => ht.after_stopOnClu).after_abortPasses.after_onLaunch

theorem Formed.after_stopRound (h : Formed s) : Formed (stopRound s die id) := by
  unfold stopRound
  dsimp only
  split
  · exact h
  · exact .ite h (.ite (h.foldl fun _ _ ht => ht.after_freeCtx).after_endStoppedRound (h.foldl fun _ _ ht => ht.after_freeCtx))

theorem Formed.after_askStop {due : Nat} (h : Formed s) : Formed (askStop s c due) := h.after_onCtx

theorem Formed.after_refire (h : Formed s) : Formed (refire s die id) :=
  have hl := (h.after_onLaunch (die := die) (id := id)).foldl fun _ _ ht => ht.after_askStop
  .ite hl.after_endStoppedRound hl

theorem Formed.after_startRound (h : Formed s) : Formed (startRound s die id) := by
  unfold startRound
  dsimp only
  split
  · exact h
  · exact .ite h.after_bindLatest.after_onDie.after_onLaunch h

theorem Formed.after_endRound (h : Formed s) : Formed (endRound s die id) := by
  unfold endRound
  dsimp only
  split
  · exact h
  · exact .ite h.after_onDie.after_onLaunch h

theorem Formed.after_execRoundStart (h : Formed s) : FormedNext (execRoundStart s) := by
  unfold execRoundStart
  split
  · exact h.after_startRound
  · exact h

theorem Formed.after_execRoundStop (h : Formed s) : FormedNext (execRoundStop s) := by
  unfold execRoundStop
  split
  · exact h.after_stopRound
  · exact h

theorem Formed.after_execRoundEnd (h : Formed s) : FormedNext (execRoundEnd s) := by
  unfold execRoundEnd
  split
  · exact h.after_endRound
  · exact h

theorem Formed.after_execRecordSettle (h : Formed s) : FormedNext (execRecordSettle s) := by
  unfold execRecordSettle
  dsimp only
  split
  · exact .ite h.after_onDie h
  · exact h

theorem Formed.after_withRole {a : XReg} {role : Launch → Nat → Bool} {act : Launch → Nat → State} (h : Formed s)
    (ha : ∀ l r, Formed (act l r)) : Formed (withRole s a role act) := by
  unfold withRole
  dsimp only
  split
  · exact h.after_stopAt
  · exact .ite (ha _ _) h.after_stopAt

theorem Formed.after_afterBreak {act : State → State} (h : Formed s) (ha : ∀ t, Formed t → Formed (act t)) :
    Formed (afterBreak s act) := by
  unfold afterBreak
  split
  · exact ha _ (h.after_breakLap.fst ‹_›)
  · exact h.after_breakLap.fst ‹_›

theorem Formed.after_publish {l : Launch} {r j v : Nat} {addr : Word} (h : Formed s) : Formed (publish s l r j v addr) :=
  h.after_onDie.after_onLaunch.foldl fun _ _ ht => ht.after_refire

theorem Formed.after_publishStep {d : XReg} {l : Launch} {r j v : Nat} {addr : Word} (h : Formed s) :
    Formed (publishStep s d l r j v addr) :=
  .ite h.after_stopAt (.ite h.after_writeX (.ite h.after_writeX
    (.ite h.after_onLaunch.after_stopLaunch h.after_publish.after_writeX)))

theorem Formed.after_execPubv {d a b : XReg} (h : Formed s) : FormedNext (execPubv d a b s) := by
  refine h.after_withRole fun _ _ => .ite h.after_stopAt (.ite h.after_stopAt ?_)
  split
  · exact h.after_performAll.closingEnded ‹_›
  split
  · exact h.after_performAll.closingClosed ‹_›
  · exact (h.after_performAll.closingClosed ‹_›).after_publishStep

theorem Formed.after_execPubf {d a : XReg} (h : Formed s) : FormedNext (execPubf d a s) := by
  refine h.after_withRole fun _ _ => ?_
  split
  · exact h.after_performAll.closingEnded ‹_›
  · exact (h.after_performAll.closingClosed ‹_›).after_onDie.after_writeX

theorem Formed.after_execStopr {d a : XReg} (h : Formed s) : FormedNext (execStopr d a s) :=
  h.after_withRole fun _ _ => h.after_afterBreak fun _ ht => .ite ht.after_writeX ht.after_onDie.after_writeX

theorem Formed.after_execRefchk {d a : XReg} (h : Formed s) : FormedNext (execRefchk d a s) :=
  h.after_withRole fun _ _ => h.after_afterBreak fun _ ht => ht.after_writeX

theorem Formed.after_execRefq {d a b : XReg} (h : Formed s) : FormedNext (execRefq d a b s) :=
  h.after_withRole fun _ _ => h.after_afterBreak fun _ ht => ht.after_onCtx.after_acquired

/-! ## Launches (R264–R276) -/

theorem Formed.after_awayWord (h : Formed s) : Formed (awayWord s c va).left := by
  unfold awayWord
  dsimp only
  split
  · exact h
  split
  · exact (h.after_askDomain.fst ‹_›).after_dataWait
  · exact (h.after_askDomain.fst ‹_›).after_onCtx
  · exact h.after_askDomain.fst ‹_›
  · exact h.after_askDomain.fst ‹_›
  · exact (h.after_askDomain.fst ‹_›).after_consumePoison

/-- A word of a launch, from memory or from the domain. -/
theorem Formed.after_wordRead {r : Reach} (h : Formed s) :
    Formed (match r with
      | .ok p => takeBytes s c 0 a va p 8
      | _ => awayWord s c va).left := by
  split
  · exact h.after_takeBytes
  · exact h.after_awayWord

theorem Formed.after_readWords (h : Formed s) : Formed (readWords s c va n).left := by
  induction n generalizing s va with
  | zero => exact h
  | succ n ih =>
    unfold readWords
    dsimp only
    split
    · exact h.after_noteDenial.after_takeFront
    · exact h.after_dataWait
    split
    · have ht := ih (h.after_wordRead.accessDone ‹_›) (va := (va + 8) % 2 ^ 64)
      split
      · exact ht.readingGot ‹_›
      · exact ht
    · exact (h.after_wordRead.accessFault ‹_›).after_takeFront
    · exact h.after_wordRead.accessWait ‹_›
    · exact h.after_wordRead.accessGone ‹_›

theorem Formed.after_readLegs (h : Formed s) : Formed (readLegs s c va n).left := by
  induction n generalizing s va with
  | zero => exact h
  | succ n ih =>
    unfold readLegs
    split
    · exact h.after_readWords.readingEnded ‹_›
    · exact h.after_readWords.readingHeld ‹_›
    have ht := ih (h.after_readWords.readingGot ‹_›) (va := (va + 128) % 2 ^ 64)
    split
    · exact ht.readingGot ‹_›
    · exact ht

theorem Formed.after_writeRecord {l : Launch} {whole : Bool} (h : Formed s) : Formed (writeRecord s die id l whole) := by
  unfold writeRecord
  dsimp only
  split
  · exact h.after_record
  · exact .ite h.after_storeSectors h.after_storeAt

theorem Formed.after_accept {r : AdmReq} {promise : Nat} (h : Formed s) : Formed (accept s die r promise).1 :=
  h.after_onDie.after_writeRecord

theorem Formed.after_decideRequest {r : AdmReq} (h : Formed s) : Formed (decideRequest s die r).1 := by
  unfold decideRequest
  dsimp only
  split
  · exact h.after_accept
  · exact h

theorem Formed.after_deliverAnswer {v : Nat} (h : Formed s) : Formed (deliverAnswer s c v) := .ite h h.after_onCtx

theorem Formed.after_decideHead (h : Formed s) : Formed (decideHead s die) := by
  unfold decideHead
  dsimp only
  split
  · exact h
  · exact h.after_onDie.after_decideRequest.after_deliverAnswer

theorem Formed.after_execAdmissionDecision (h : Formed s) : FormedNext (execAdmissionDecision s) := by
  unfold execAdmissionDecision
  split
  · exact h.after_decideHead
  · exact h

theorem Formed.after_submit {d : XReg} {hd : List Word} {legs : List (List Word)} {indirect : Bool} (h : Formed s) :
    Formed (submit s d hd legs indirect) := by
  unfold submit
  dsimp only
  split
  · exact h.after_noteDenial.after_stopAt
  split
  · exact h.after_performAll.closingEnded ‹_›
  have ht := h.after_performAll.closingClosed ‹_›
  exact .ite ht.after_onDie.after_onCtx ht.after_onDie.after_onCtx.after_decideHead

theorem Formed.after_stopAtWorst {vas : List Nat} (h : Formed s) (e : stopAtWorst s c vas = some t) : Formed t := by
  obtain ⟨w, -, rfl⟩ := Option.map_eq_some_iff.1 e
  exact h.after_noteDenial.after_stopAt

theorem Formed.after_runLaunch {d a : XReg} {indirect : Bool} (h : Formed s) : Formed (runLaunch d a indirect s) := by
  unfold runLaunch
  dsimp only
  refine .ite h.after_stopAt ?_
  split
  · exact h.after_stopAtWorst ‹_›
  split
  · exact h.after_readWords.readingHeld ‹_›
  · exact h.after_readWords.readingEnded ‹_›
  have hw := h.after_readWords.readingGot ‹_›
  split
  · exact hw.after_stopAt
  split
  · exact hw.after_stopAtWorst ‹_›
  split
  · exact hw.after_readLegs.readingHeld ‹_›
  · exact hw.after_readLegs.readingEnded ‹_›
  have hl := hw.after_readLegs.readingGot ‹_›
  split
  · exact hl.after_stopAt
  · exact hl.after_submit

theorem Formed.after_abortCount {l : Launch} (h : Formed s) : Formed (abortCount s die id code l) := h.after_record.after_stopLaunch

theorem Formed.after_readCount {l : Launch} (h : Formed s) : Formed (readCount s die id l) := by
  unfold readCount
  dsimp only
  split
  · exact h.after_noteDenial.after_abortCount
  split
  · exact h.after_recordSector.after_abortCount
  · exact h.after_recordSector.after_abortCount
  · exact h.after_onLaunch

theorem Formed.after_execPredecessorsComplete (h : Formed s) : FormedNext (execPredecessorsComplete s) := by
  unfold execPredecessorsComplete
  dsimp only
  split
  · split
    · exact h
    · exact .ite h (.ite h.after_readCount h.after_onLaunch)
  · exact h

theorem Formed.after_execLaunchOverrunStop (h : Formed s) : FormedNext (execLaunchOverrunStop s) := by
  unfold execLaunchOverrunStop
  split
  · split
    · exact h
    · exact .ite h h.after_onLaunch.after_stopLaunch
  · exact h

theorem Formed.after_execDeadlineStop (h : Formed s) : FormedNext (execDeadlineStop s) := by
  unfold execDeadlineStop
  split
  · split
    · exact h
    · exact .ite h h.after_stopLaunch
  · exact h

theorem Formed.after_completeLaunch {l : Launch} (h : Formed s) : Formed (completeLaunch s die id l) :=
  (h.foldl fun _ _ ht => ht.after_stopOnClu).after_abortPasses.after_writeRecord.after_onDie

theorem Formed.after_execLaunchComplete (h : Formed s) : FormedNext (execLaunchComplete s) := by
  unfold execLaunchComplete
  split
  · split
    · exact h
    · exact .ite h.after_completeLaunch h
  · exact h

theorem Formed.after_dispatchLap (h : Formed s) : Formed (dispatchLap s clu) := by
  unfold dispatchLap
  split
  · split <;> exact h.after_giveCand
  · exact h.after_giveCand
  · exact h

theorem Formed.after_noteAsking (h : Formed s) : Formed (noteAsking s clu) := by
  unfold noteAsking
  dsimp only
  generalize (match nextCand s clu with
    | some (.fresh id) => if (find? (launchesOf s clu) id).any (asksFor s clu id) then some id else none
    | _ => none) = want
  split
  · exact .ite h h.after_onClu
  · exact h.after_onClu
  · exact h.after_onClu
  · exact h

theorem Formed.after_execLapDispatch (h : Formed s) : FormedNext (execLapDispatch s) := by
  unfold execLapDispatch
  split
  · exact h.after_dispatchLap
  · exact h

theorem Formed.after_onPools {age : Nat} {f : Pool → Pool} (h : Formed s) : Formed (onPools s clu launch leg age f) := h.after_onClu

theorem Formed.after_execPoolAged (h : Formed s) : FormedNext (execPoolAged s) := by
  unfold execPoolAged
  split
  · exact h.after_onPools
  · exact h

theorem Formed.after_execPoolOverdue (h : Formed s) : FormedNext (execPoolOverdue s) := by
  unfold execPoolOverdue
  split
  · exact h.after_onPools
  · exact h

theorem Formed.after_preempt (h : Formed s) : Formed (preempt s clu) := by
  unfold preempt
  dsimp only
  split
  · exact h
  refine .ite h ?_
  split
  · exact h
  · exact h.after_askStop

theorem Formed.after_execLaunchPreempt (h : Formed s) : FormedNext (execLaunchPreempt s) := by
  unfold execLaunchPreempt
  split
  · exact h.after_preempt
  · exact h

theorem Formed.after_holdJobs (h : Formed s) : Formed (holdJobs s clu id) := by
  unfold holdJobs
  refine h.foldl fun _ _ ht => ?_
  split
  · exact ht.after_holdJob
  · exact ht

theorem Formed.after_notePreempted (h : Formed s) : Formed (notePreempted s clu id) := by
  unfold notePreempted
  dsimp only
  split
  · exact h
  · exact .ite h h.after_onLaunch.after_onClu.after_holdJobs

theorem Formed.after_notePreemptions (h : Formed s) : Formed (notePreemptions s clu) := h.foldl fun _ _ ht => ht.after_notePreempted

theorem Formed.after_saveCtx {yielded : Bool} (h : Formed s) : Formed (saveCtx s c yielded) :=
  .ite h.after_settle h.after_settle.after_addEvent.after_setCtx.after_setCtx.after_writeSlot.after_renameLap.after_onClu

theorem Formed.after_saveStopped (h : Formed s) : Formed (saveStopped s c) := by
  unfold saveStopped
  dsimp only
  split
  · exact h
  · exact .ite h.after_saveCtx.after_notePreemptions h

theorem Formed.after_execContextSave (h : Formed s) : FormedNext (execContextSave s) := by
  unfold execContextSave
  split
  · exact h.after_saveStopped
  · exact h

theorem Formed.after_execContextRestore (h : Formed s) : FormedNext (execContextRestore s) := by
  unfold execContextRestore
  dsimp only
  split
  · split
    · exact h.after_giveCand
    · exact h
  · exact h

theorem Formed.after_switchYield (h : Formed s) : Formed (switchYield s c) := by
  unfold switchYield
  dsimp only
  refine .ite h (.ite h.after_onCtx ?_)
  split
  · exact h.after_onCtx
  · exact .ite h.after_saveCtx.after_giveCand.after_notePreemptions h.after_saveCtx

theorem Formed.after_execYieldSwitch (h : Formed s) : FormedNext (execYieldSwitch s) := by
  unfold execYieldSwitch
  split
  · exact h.after_switchYield
  · exact h

theorem Formed.after_issueStaged (h : Formed s) : Formed (issueStaged s clu id leg slot) := by
  unfold issueStaged
  dsimp only
  split
  · exact h
  · exact .ite h (.ite h.after_onClu h.after_acceptJob.after_goJobs)

theorem Formed.after_execStagedInputIssue (h : Formed s) : FormedNext (execStagedInputIssue s) := by
  unfold execStagedInputIssue
  split
  · exact .ite h.after_issueStaged h
  · exact h

end Sys2Proof.Machine
end

section
namespace Sys2Proof.Machine

variable {s t : State} {c va pa die id clu n code elem addr launch leg k slot core fn : Nat} {a : Agent} {p : Place} {i : Instr} {e : VEntry}
  {bytes bs : List Byte} {mismatch : Bool}

/-! ## Cards, key passes and refreshes (R220–R243) -/

theorem Formed.after_finishCld {cd : BitVec 4} (h : Formed s) : Formed (finishCld s c cd bs) := by
  unfold finishCld
  dsimp only
  refine .ite h.after_onCtx ?_
  split
  · exact h.after_takeFront
  · exact .ite h.after_takeFront (.ite h.after_takeFront h.after_onCtx)

theorem Formed.after_execCld {cd : BitVec 4} {a : XReg} (h : Formed s) : FormedNext (execCld cd a s) := by
  unfold execCld
  dsimp only
  split
  · exact (h.after_scalarLoad.accessDone ‹_›).after_finishCld
  · exact (h.after_scalarLoad.accessFault ‹_›).after_stopAt
  · exact h.after_scalarLoad.accessWait ‹_›
  · exact h.after_scalarLoad.accessGone ‹_›

theorem Formed.after_execCst {cd : BitVec 4} {a : XReg} (h : Formed s) : FormedNext (execCst cd a s) := by
  unfold execCst
  dsimp only
  split
  · exact (h.after_scalarStore.accessDone ‹_›).after_goOn
  · exact (h.after_scalarStore.accessFault ‹_›).after_stopAt
  · exact h.after_scalarStore.accessWait ‹_›
  · exact h.after_scalarStore.accessGone ‹_›

theorem Formed.after_finishTld {t : BitVec 3} (h : Formed s) : Formed (finishTld s c t bs) := .ite h.after_onCtx h.after_takeFront

theorem Formed.after_execTld {t : BitVec 3} {a : XReg} (h : Formed s) : FormedNext (execTld t a s) := by
  unfold execTld
  dsimp only
  split
  · exact h.after_noteDenial.after_stopAt
  split
  · exact h.after_awaitDomain
  split
  · exact (h.after_readWords.readingGot ‹_›).after_finishTld
  · exact h.after_readWords.readingEnded ‹_›
  · exact h.after_readWords.readingHeld ‹_›

theorem Formed.after_handItem {k : JobKind} {d a b : BitVec 256} (h : Formed s) : Formed (handItem s k d a b) := h.after_onClu.after_goJobs

theorem Formed.after_runCar {d a : BitVec 4} {b : Option (BitVec 4)} {imm : ℤ} (h : Formed s) : Formed (runCar fn d a b imm s) := by
  unfold runCar
  dsimp only
  split
  · exact h.after_stopAt
  refine .ite h.after_stopAt ?_
  split
  · exact h.after_performAll.closingEnded ‹_›
  · exact (h.after_performAll.closingClosed ‹_›).after_onCtx.after_handItem.after_goOn

theorem Formed.after_memberJob {m : Member} (h : Formed s) : Formed (memberJob s id m) := h.after_onClu

theorem Formed.after_withPass (h : Formed s) : Formed (withPass s id) := h.after_onCtx

theorem Formed.after_execKpassOpen {d a : XReg} (h : Formed s) : FormedNext (execKpassOpen d a s) := by
  unfold execKpassOpen
  dsimp only
  split
  · exact h.after_stopAt
  refine .ite h.after_stopAt (.ite h.after_stopAt (h.after_afterBreak fun _ ht => ?_))
  split
  · exact ht.after_writeX
  · exact ht.after_setPass.after_memberJob.after_withPass.after_writeX

theorem Formed.after_joinPass {d : XReg} {p : Pass} {new : Option Member} (h : Formed s) : Formed (joinPass s d id p new) := by
  unfold joinPass
  dsimp only
  generalize (match new with
    | some m => { p with members := p.members ++ [m] }
    | none => p) = q
  split
  · exact h
  · exact (Formed.ite h.after_setPass h.after_setPass.after_memberJob).after_withPass.after_writeX

theorem Formed.after_execKpassJoin {d a b : XReg} (h : Formed s) : FormedNext (execKpassJoin d a b s) := by
  unfold execKpassJoin
  dsimp only
  split
  · exact h.after_stopAt
  split
  · exact h.after_stopAt
  · exact .ite h.after_stopAt (.ite h.after_stopAt (h.after_afterBreak fun _ ht => .ite ht.after_writeX ht.after_joinPass))

theorem Formed.after_execKpassRun {d a b : XReg} (h : Formed s) : FormedNext (execKpassRun d a b s) := by
  unfold execKpassRun
  dsimp only
  split
  · exact h.after_stopAt
  refine h.after_afterBreak fun _ ht => ?_
  split
  · exact (ht.after_runPass.fst ‹_›).after_onCtx.after_writeX
  · exact (ht.after_runPass.fst ‹_›).after_writeX

theorem Formed.after_execKpassAbort {d a : XReg} (h : Formed s) : FormedNext (execKpassAbort d a s) := by
  unfold execKpassAbort
  dsimp only
  split
  · exact h.after_stopAt
  · exact h.after_afterBreak fun _ ht => .ite ht.after_writeX ht.after_endPassZeroed.after_writeX

theorem Formed.after_execKpassStatus {d a : XReg} (h : Formed s) : FormedNext (execKpassStatus d a s) := by
  unfold execKpassStatus
  dsimp only
  split
  · exact h.after_stopAt
  · exact h.after_afterBreak fun _ ht => ht.after_writeX.after_acquired

theorem Formed.after_appendEntry {p : Pass} {e : PassEntry} (h : Formed s) : Formed (appendEntry s die id p e) :=
  h.after_setPass.withMem (wf_showEntries _)

theorem Formed.after_execCrfn {d a : BitVec 4} {t : BitVec 3} (h : Formed s) : FormedNext (execCrfn d a t s) := by
  unfold execCrfn
  dsimp only
  split
  · exact h.after_stopAt
  split
  · exact h.after_performAll.closingEnded ‹_›
  split
  · split
    · exact h.after_performAll.closingClosed ‹_›
    · exact (h.after_performAll.closingClosed ‹_›).after_onCtx.after_appendEntry.after_handItem.after_goOn
  · exact h.after_performAll.closingClosed ‹_›

theorem Formed.after_dropItem {entry : Nat} (h : Formed s) : Formed (dropItem s clu id entry) := h.after_onClu

theorem wf_putCiphertext {m : Memory} {d : BitVec 256} {j i : Nat} (ws : List Nat) (h : Memory.wf m = true) :
    Memory.wf (putCiphertext m clu d j i ws) = true := by
  induction ws generalizing m i with
  | nil => exact h
  | cons w r ih => exact ih (wf_writeBytes _ _ _ h)

theorem wf_putSlice {m : Memory} {ws : List Nat} (l : List Member) (h : Memory.wf m = true) : Memory.wf (putSlice m ws l) = true := by
  induction l generalizing m with
  | nil => exact h
  | cons x r ih => exact ih (wf_writeBytes _ _ _ h)

theorem Formed.after_putMember {p : Pass} {m : Member} (h : Formed s) : Formed (putMember s die id p m) :=
  h.after_setPass.withMem (wf_showEntries _)

theorem Formed.after_zeroEntry {p : Pass} {m : Member} {i : Nat} {e : PassEntry} {f : EngineFault} (h : Formed s) :
    Formed (zeroEntry s die id p m i e f) :=
  (h.withMem (wf_clearRange _ _ _)).after_putMember.after_dropItem.after_goJobs.after_loseLap

theorem Formed.after_refreshStep {p : Pass} {m : Member} (h : Formed s) : Formed (refreshStep s die id p m) := by
  unfold refreshStep
  dsimp only
  split
  · exact h
  refine .ite h.after_putMember ?_
  split
  · exact h.after_zeroEntry
  have hm {b : Prop} [Decidable b] {clu j k : Nat} {d : BitVec 256} {ws : List Nat} {bs : List Byte} :
      Formed { s with mem := if b then putCiphertext s.mem clu d j 0 ws else writeBytes s.mem k bs } :=
    h.withMem fun w => by
      split
      · exact wf_putCiphertext _ w
      · exact wf_writeBytes _ _ _ w
  exact .ite hm.after_putMember.after_dropItem.after_goJobs hm.after_putMember

theorem Formed.after_stepMember (h : Formed s) : Formed (stepMember s die clu id mismatch) := by
  unfold stepMember
  dsimp only
  split
  · exact h
  split
  · exact h
  · exact .ite (.ite h.after_takeStarts.after_checkSequencer h.after_takeStarts.after_checkSequencer.after_refreshStep) h

theorem Formed.after_execRefreshStep (h : Formed s) : FormedNext (execRefreshStep s) := by
  unfold execRefreshStep
  split
  · exact h.after_stepMember
  · exact h.after_stepMember
  · exact h

theorem Formed.after_execSliceDelivery (h : Formed s) : FormedNext (execSliceDelivery s) := by
  unfold execSliceDelivery
  dsimp only
  split
  · split
    · exact h
    · exact .ite (h.withMem (wf_putSlice _)).after_setPass h
  · exact h

theorem Formed.after_execPassEnd (h : Formed s) : FormedNext (execPassEnd s) := by
  unfold execPassEnd
  split
  · split
    · exact h
    · exact .ite h.after_settlePass (.ite h.after_closePass h)
  · exact h

theorem Formed.after_execPassFault (h : Formed s) : FormedNext (execPassFault s) := by
  unfold execPassFault
  dsimp only
  split
  · split
    · exact h
    · exact .ite h.after_record.after_endPassZeroed.after_abortByHardware h
  · exact h

/-! ## Events of a core and of its contexts (R97, R189, R198, R291–R294) -/

theorem Formed.after_startOne (h : Formed s) : Formed ((startHead s c).getD s) := by
  cases e : startHead s c with
  | none => exact h
  | some t => exact h.after_startHead e

theorem Formed.after_startAccess {l : List Nat} (h : Formed s) : Formed (startAccess s l) := by
  induction l generalizing s with
  | nil => exact h
  | cons c r ih =>
    unfold startAccess
    split
    · exact ih (.ite h.after_startOne h)
    · exact ih h

theorem Formed.after_startVector (h : Formed s) : Formed (startVector s core) := by
  unfold startVector
  dsimp only
  refine .ite h ?_
  split
  · exact .ite h.after_startOne h.after_onCore
  · exact h.after_startOne
  · exact h.after_onCore
  · exact h

theorem Formed.after_execVectorStart (h : Formed s) : FormedNext (execVectorStart s) := by
  unfold execVectorStart
  split
  · exact h.after_startAccess.after_startVector
  · exact h

theorem Formed.after_execVectorRetire (h : Formed s) : FormedNext (execVectorRetire s) := by
  unfold execVectorRetire
  split
  · exact h.after_retireHead.retiredState
  · exact h

theorem Formed.after_finishRunning (h : Formed s) : Formed (finishRunning s c n) := by
  induction n generalizing s with
  | zero => exact h
  | succ n ih =>
    unfold finishRunning
    refine .ite h ?_
    split
    · exact ih (h.after_retireHead.retiredMoved ‹_›)
    · exact h.after_retireHead.retiredEnded ‹_›
    · exact h.after_retireHead.retiredStuck ‹_›

theorem Formed.after_switchWorld (h : Formed s) : Formed (switchWorld s core) :=
  .ite (h.foldl fun _ _ ht => ht.after_finishRunning.after_onCtx).after_onCore h

theorem Formed.after_execWorldSwitch (h : Formed s) : FormedNext (execWorldSwitch s) := by
  unfold execWorldSwitch
  split
  · exact h.after_switchWorld
  · exact h

theorem Formed.after_retireGroup {g : Nat} (h : Formed s) : Formed (retireGroup s c g) := h.after_ctxRecord.after_onCore

theorem Formed.after_leaveCore (h : Formed s) : Formed (leaveCore s core) := h.foldl fun _ _ ht => .ite ht.after_askStop ht

theorem Formed.after_mismatchAt {list : List Nat} (h : Formed s) : Formed (mismatchAt s c e list) :=
  .ite (.ite h.after_onCore.after_retireGroup.after_killLap.after_leaveCore h.after_onCore.after_retireGroup.after_failLap)
    h.after_onCore.after_onLap.after_failLap

theorem Formed.after_checkWitness (h : Formed s) : Formed (checkWitness s c mismatch) := by
  unfold checkWitness
  dsimp only
  refine .ite h ?_
  split
  · exact .ite h.after_mismatchAt h.after_flushRun
  split
  · exact h
  · exact .ite h.after_mismatchAt h.after_retireHead.retiredState

theorem Formed.after_execWitnessCheck (h : Formed s) : FormedNext (execWitnessCheck s) := by
  unfold execWitnessCheck
  split
  · exact h.after_checkWitness
  · exact h

theorem Formed.after_execStreamFill (h : Formed s) : FormedNext (execStreamFill s) := by
  unfold execStreamFill
  dsimp only
  split
  · exact .ite h.after_fillStream h
  · exact h

theorem Formed.after_execStreamDrain (h : Formed s) : FormedNext (execStreamDrain s) := by
  unfold execStreamDrain
  split
  · exact .ite h.after_drainEntry.accessState h
  · exact h

theorem Formed.after_setWait {p : Nat} {w : Wait} (h : Formed s) : Formed (setWait s c p w) := h.after_onCtx

theorem Formed.after_execDeadlockProbe (h : Formed s) : FormedNext (execDeadlockProbe s) := by
  unfold execDeadlockProbe
  dsimp only
  split
  · refine .ite h ?_
    split
    · exact h.after_setWait
    · exact h
  · exact h

theorem Formed.after_probeBack {p : Nat} {w : Wait} (h : Formed s) : Formed (probeBack s c p w) := by
  unfold probeBack
  dsimp only
  refine .ite h.after_onCtx ?_
  split
  · exact h.after_setWait
  · exact .ite h.after_setWait.after_onCtx.after_goQueue h.after_onCtx

theorem Formed.after_execProbeReturn (h : Formed s) : FormedNext (execProbeReturn s) := by
  unfold execProbeReturn
  split
  · split
    · exact h.after_probeBack
    · exact h
  · exact h

theorem Formed.after_execJobStart (h : Formed s) : FormedNext (execJobStart s) := by
  unfold execJobStart
  dsimp only
  split
  · refine .ite h ?_
    split
    · exact h.after_beginJob
    · exact h
  · exact h

theorem Formed.after_execJobEnd (h : Formed s) : FormedNext (execJobEnd s) := by
  unfold execJobEnd
  dsimp only
  split
  · split
    · exact h.after_closeJob.after_acceptSaved
    · exact h
  · exact h

end Sys2Proof.Machine
end

section
namespace Sys2Proof.Machine

variable {s t : State} {c va pa die id clu n code elem addr launch leg k cause status : Nat} {a : Agent} {p : Place} {i : Instr}
  {f : SectorFinding} {acq : Bool} {bytes bs payload : List Byte} {result : DomainResult} {kind : DomainKind}

/-! ## Scrubs, power and resets (R332–R357) -/

theorem Formed.after_poisonSector (h : Formed s) : Formed (poisonSector s a va p f) := h.after_onPkg.after_recordSector

theorem Formed.after_readSector (h : Formed s) : Formed (readSector s c pa va f) := by
  unfold readSector
  split
  · exact h
  split
  · exact h
  · exact h.after_onDie
  · exact h.after_poisonSector
  · exact .ite h h.after_poisonSector
  · exact h.after_onPkg

theorem Formed.after_execSectorRead (h : Formed s) : FormedNext (execSectorRead s) := by
  unfold execSectorRead
  split
  · exact h.after_readSector
  · exact h

theorem Formed.after_moveWorld (h : Formed s) : Formed (moveWorld s clu) :=
  .ite (h.foldl fun _ _ ht => .ite ht ht.after_onCtx) h.after_onPkg

theorem Formed.after_finishScrub (h : Formed s) : Formed (finishScrub s clu) := by
  unfold finishScrub
  dsimp only
  split
  · exact h
  refine .ite h (.ite h.after_onClu ?_)
  have ht := h.foldl (l := ctxsOfClu clu) (f := fun s c => freeCtx s c) fun _ _ ht => ht.after_freeCtx
  exact (ht.withMem (wf_clearRange _ _ _)).after_onPkg.after_onClu.after_moveWorld.after_onDie

theorem Formed.after_execClusterScrubDone (h : Formed s) : FormedNext (execClusterScrubDone s) := by
  unfold execClusterScrubDone
  split
  · exact h.after_finishScrub
  · exact h

theorem Formed.after_sendMarkers (h : Formed s) : Formed (sendMarkers s die) :=
  .ite h (h.after_onDie.foldl fun _ _ ht => ht.after_sinkRecord)

theorem Formed.after_execTraceMarkerSend (h : Formed s) : FormedNext (execTraceMarkerSend s) := by
  unfold execTraceMarkerSend
  split
  · exact h.after_sendMarkers
  · exact h

theorem Formed.after_execTraceMarkerReceive (h : Formed s) : FormedNext (execTraceMarkerReceive s) := by
  unfold execTraceMarkerReceive
  split
  · exact .ite h h.after_sinkRecord
  · exact h

theorem Formed.after_setPower {p : Power} (h : Formed s) : Formed (setPower s clu p) := h.after_onClu

theorem Formed.after_execClockGate (h : Formed s) : FormedNext (execClockGate s) := by
  unfold execClockGate
  dsimp only
  split
  · exact .ite h.after_setPower h
  · exact h

theorem Formed.after_dropFronts (h : Formed s) : Formed (dropFronts s clu) :=
  (h.foldl fun _ _ ht => .ite ht.after_onCtx ht).foldl fun _ _ ht => .ite ht.after_onCore ht

theorem Formed.after_emptyTrace (h : Formed s) : Formed (emptyTrace s clu) := h.after_drainTrace.after_onClu

theorem Formed.after_execEnterRetention (h : Formed s) : FormedNext (execEnterRetention s) := by
  unfold execEnterRetention
  dsimp only
  split
  · exact .ite h.after_emptyTrace.after_onClu.after_dropFronts.after_setPower h
  · exact h

theorem Formed.after_execEnterOff (h : Formed s) : FormedNext (execEnterOff s) := by
  unfold execEnterOff
  dsimp only
  split
  · exact .ite (h.after_emptyTrace.withMem (wf_clearRange _ _ _)).after_onClu.after_dropFronts.after_setPower h
  · exact h

theorem Formed.after_execClusterWake (h : Formed s) : FormedNext (execClusterWake s) := by
  unfold execClusterWake
  dsimp only
  split
  · exact .ite h h.after_setPower.after_onClu
  · exact h

theorem Formed.after_thermalStop {t : ℤ} (h : Formed s) : Formed (thermalStop s clu t id) := by
  unfold thermalStop
  dsimp only
  split
  · exact h
  · exact .ite h h.after_record.after_abortByHardware

theorem Formed.after_heatCluster (h : Formed s) : Formed (heatCluster s clu) := by
  refine .ite (Formed.after_onClu ?_) (.ite h.after_onClu h)
  have ht {l : List Nat} {t : ℤ} := h.foldl (l := l) (f := fun s k => thermalStop s clu t k) fun _ _ ht => ht.after_thermalStop
  exact .ite ht.after_setPower ht

theorem Formed.after_refreshMonitors {temps volts procs : List (BitVec 16)} (h : Formed s) :
    Formed (refreshMonitors s die temps volts procs) :=
  h.after_onDie.after_onDie.foldl fun _ _ ht => ht.after_heatCluster

theorem Formed.after_execMonitorRefresh (h : Formed s) : FormedNext (execMonitorRefresh s) := by
  unfold execMonitorRefresh
  split
  · exact Formed.ite h.after_refreshMonitors h
  · exact h

theorem Formed.after_endLaunches (h : Formed s) : Formed (endLaunches s die status) := by
  unfold endLaunches
  dsimp only
  refine h.foldl fun _ _ ht => ?_
  split
  · exact ht.after_stopLaunch.after_completeLaunch
  · exact ht.after_stopLaunch

theorem Formed.after_resetDie (h : Formed s) : Formed (resetDie s die cause) :=
  (h.after_record.after_endLaunches.after_onDie.foldl fun _ _ ht => .ite ht.after_onCore ht).foldl fun _ _ ht =>
    ht.after_record.after_fenceDie

theorem Formed.after_execVoltageReset (h : Formed s) : FormedNext (execVoltageReset s) := by
  unfold execVoltageReset
  split
  · exact Formed.ite h.after_resetDie h
  · exact h

theorem Formed.after_execDieReset (h : Formed s) : FormedNext (execDieReset s) := by
  unfold execDieReset
  split
  · exact .ite h.after_resetDie h
  · exact h

theorem Formed.after_resetPackage {images : List (BitVec 512)} {ok : Bool} : Formed (resetPackage s images ok) :=
  ⟨rfl, fun _ hi => nomatch hi⟩

theorem Formed.after_execPackageReset (h : Formed s) : FormedNext (execPackageReset s) := by
  unfold execPackageReset
  split
  · exact Formed.after_resetPackage
  · exact h

/-! ## The domain and the packet port (R359–R364) -/

theorem Formed.after_finishLoad {r : DomainReq} (h : Formed s) : Formed (finishLoad s c r bs) :=
  .ite h.after_finishCld (.ite h.after_finishTld h.after_onCtx)

theorem Formed.after_finishFront {r : DomainReq} (h : Formed s) : Formed (finishFront s c r acq result) := by
  unfold finishFront
  dsimp only
  split
  · exact h.after_onCtx.after_takeFront
  · exact h.after_onCtx.after_takeFront
  · exact h.after_onCtx.after_onLap.after_onCtx
  · exact h.after_onCtx.after_onCtx
  · exact h.after_onCtx.after_finishLoad
  · exact h.after_onCtx.after_onCtx
  · exact h.after_onCtx.after_consumePoison

theorem Formed.after_storeRefused {r : DomainReq} (h : Formed s) : Formed (storeRefused s c r code) := by
  unfold storeRefused
  split
  · exact h.after_killLap
  · exact h.after_doubleFault

theorem Formed.after_storeAnswered {r : DomainReq} {a : DomainResult} (h : Formed s) : Formed (storeAnswered s c r a) := by
  unfold storeAnswered
  split
  · exact h.after_storeRefused
  · exact h.after_storeRefused
  · exact h

theorem Formed.after_hostAnswered (h : Formed s) : Formed (hostAnswered s id result) := h.after_onPkg

theorem Formed.after_deliverDomain {r : DomainReq} (h : Formed s) : Formed (deliverDomain s r result) := by
  unfold deliverDomain
  dsimp only
  refine .ite h.after_hostAnswered ?_
  split
  · exact h.after_onJob.after_wakeJobs
  refine .ite h (.ite h.after_storeAnswered (.ite ?_ (.ite h.after_onCtx.after_goQueue h)))
  split
  · exact .ite h.after_finishFront h
  · exact h

theorem Formed.after_takeRequest {r : DomainReq} (h : Formed s) (e : takeRequest s id = some (r, t)) : Formed t := by
  unfold takeRequest at e
  split at e
  · cases e
  · cases e
    exact h.after_onPkg

theorem Formed.after_execDomainResponse (h : Formed s) : FormedNext (execDomainResponse s) := by
  unfold execDomainResponse
  split
  · split
    · exact Formed.ite (h.after_takeRequest ‹_›).after_deliverDomain h
    · exact h
  · exact h

theorem Formed.after_recordTimeout {r : DomainReq} (h : Formed s) : Formed (recordTimeout s r) := h.after_record

theorem Formed.after_execDomainTimeout (h : Formed s) : FormedNext (execDomainTimeout s) := by
  refine .of_next fun t e => ?_
  unfold execDomainTimeout at e
  split at e
  · split at e
    · split at e
      · cases e
        exact h
      · cases e
        exact (h.after_takeRequest ‹_›).after_recordTimeout.after_deliverDomain
    · cases e
      exact h
  · cases e
    exact h

theorem Formed.after_performDomain {acc : DomainAccess} (h : Formed s) : Formed (performDomain s a p acc).1 := by
  unfold performDomain
  dsimp only
  split
  · exact h.after_afterPage.after_storeAt
  · exact h.after_afterPage.after_storeMasked
  split
  · exact h.after_afterPage.after_recordSector
  · exact h.after_afterPage.after_recordSector
  split
  · exact h.after_afterPage.after_storeAt
  · exact h.after_afterPage

theorem Formed.after_arrive {acc : DomainAccess} (h : Formed s) : Formed (arrive s acc).1 := by
  unfold arrive
  dsimp only
  split
  · exact h
  split
  · exact h
  split
  · exact h
  split
  · exact .ite h.after_logViolation h
  split
  · exact h
  · exact h.after_performDomain

theorem Formed.after_execDomainAccessArrival (h : Formed s) : FormedNext (execDomainAccessArrival s) := by
  unfold execDomainAccessArrival
  dsimp only
  split
  · exact .ite h h.after_arrive.after_onPkg
  · exact h

theorem Formed.after_execRefusedOptionPacket (h : Formed s) : FormedNext (execRefusedOptionPacket s) := by
  unfold execRefusedOptionPacket
  split
  · exact h.after_onPkg
  · exact h

/-! ## Commands of the port (R364–R371) -/

theorem Formed.after_onChan {id : BitVec 32} {f : Channel → Channel} (h : Formed s) : Formed (onChan s id f) := h.after_onPkg

theorem Formed.after_respond {f : Frame} {op st : BitVec 8} (h : Formed s) : Formed (respond s f op st payload) := by
  unfold respond
  dsimp only
  split
  · exact h
  · exact h.after_onPkg.after_onChan

theorem Formed.after_ok (h : Formed s) : Formed (ok s payload).1 := h

/-- What a command that may be performed leaves. -/
theorem Formed.after_judged {b d : Bool} {x : Answer} (h : Formed s) (hx : Formed x.1) :
    Formed (if b then (s, stParam, []) else if d then (s, stLockHeld, []) else x).1 :=
  .iteFst h (.iteFst h hx)

theorem Formed.after_lateCommand {late : State → Bool} {f : Frame} {op : BitVec 8} {locked : Bool} {act : State → Channel → Answer}
    (h : Formed s) (ha : ∀ t k, Formed t → Formed (act t k).1) : Formed (lateCommand late f op locked act s) := by
  unfold lateCommand
  dsimp only
  split
  · exact h.after_onPkg
  refine .ite h.after_onPkg (.ite h.after_onPkg.after_respond (.ite h.after_respond.after_onChan ?_))
  have hj {b d : Bool} {g : Channel → Channel} {k : Channel} :=
    (h.after_onChan (id := f.chan) (f := g)).after_judged (b := b) (d := d) (ha (onChan s f.chan g) k h.after_onChan)
  exact .ite (.ite hj.after_onChan.after_onPkg hj.after_onChan) hj.after_onChan.after_respond

theorem Formed.after_command {f : Frame} {op : BitVec 8} {locked : Bool} {act : State → Channel → Answer} (h : Formed s)
    (ha : ∀ t k, Formed t → Formed (act t k).1) : Formed (command f op locked act s) :=
  h.after_lateCommand ha

theorem Formed.after_execBind (h : Formed s) : FormedNext (execBind s) := by
  unfold execBind
  split
  · exact h.after_command fun _ _ ht => .iteFst ht.after_onChan ht
  · exact h

theorem Formed.after_sendHost (h : Formed s) : Formed (sendHost s a va n kind).1 := h.after_sendRequest

theorem Formed.after_storePieces {l : List (Option Place × Nat × List Byte)} (h : Formed s) : Formed (storePieces s a l).1 := by
  induction l generalizing s with
  | nil => exact h
  | cons x r ih =>
    obtain ⟨o, va, bs⟩ := x
    cases o with
    | some p => exact ih h.after_afterPage.after_storeWhole
    | none => exact ih h.after_sendHost

theorem Formed.after_hostResult {f : Frame} {op : BitVec 8} {parts : List (Option Nat × List Byte)} (h : Formed s) :
    Formed (hostResult s f op parts).1 := .iteFst h.after_onPkg h

theorem Formed.after_moveBytes {k : Channel} {act : Agent → Answer} (h : Formed s) (ha : ∀ a, Formed (act a).1) :
    Formed (moveBytes s k die n act).1 := by
  unfold moveBytes
  refine .iteFst h ?_
  split
  · exact h
  · exact ha _

theorem Formed.after_execWrite (h : Formed s) : FormedNext (execWrite s) := by
  unfold execWrite
  split
  · refine h.after_lateCommand fun _ _ ht => ht.after_moveBytes fun _ => ?_
    split
    · exact ht.after_noteDenial
    · exact ht.after_storePieces.after_hostResult
  · exact h

theorem Formed.after_readPieces {l : List (Option Place × Nat × List Byte)} (h : Formed s) : Formed (readPieces s a l).1 := by
  induction l generalizing s with
  | nil => exact h
  | cons x r ih =>
    obtain ⟨o, va, bs⟩ := x
    cases o with
    | none => exact ih h.after_sendHost
    | some p =>
      unfold readPieces
      dsimp only
      split
      · exact h.after_afterPage.after_recordSector
      · exact h.after_afterPage.after_recordSector
      · exact ih h.after_afterPage

theorem Formed.after_execRead (h : Formed s) : FormedNext (execRead s) := by
  unfold execRead
  split
  · refine h.after_lateCommand fun _ _ ht => ht.after_moveBytes fun _ => ?_
    split
    · exact ht.after_noteDenial
    split
    · exact (ht.after_readPieces.fst ‹_›).after_hostResult
    · exact ht.after_readPieces.fst ‹_›
  · exact h

theorem Formed.after_decideAll (h : Formed s) : Formed (decideAll s die n) := by
  induction n generalizing s with
  | zero => exact h
  | succ n ih => exact .ite h (ih h.after_decideHead)

theorem Formed.after_hostWords {x : State × Nat} (h : Formed s) (e : hostWords s a va n = .error x) : Formed x.1 := by
  induction n generalizing va with
  | zero => cases e
  | succ n ih =>
    unfold hostWords at e
    split at e
    · cases e
      exact h.after_noteDenial
    split at e
    · cases e
      exact h.after_recordSector
    · cases e
      exact h.after_recordSector
    split at e
    · cases e
      exact ih ‹_›
    · cases e

theorem Formed.after_hostLegs {x : State × Nat} (h : Formed s) (e : hostLegs s a va n = .error x) : Formed x.1 := by
  induction n generalizing va with
  | zero => cases e
  | succ n ih =>
    unfold hostLegs at e
    split at e
    · cases e
      exact h.after_hostWords ‹_›
    split at e
    · cases e
      exact ih ‹_›
    · cases e

theorem Formed.after_submitHost (h : Formed s) : Formed (submitHost s a die va).1 := by
  unfold submitHost
  dsimp only
  refine .iteFst h ?_
  split
  · exact h.after_hostWords ‹_›
  split
  · exact h
  split
  · exact h.after_hostLegs ‹_›
  split
  · exact h
  split
  · exact h.after_noteDenial
  · exact h.after_decideAll.after_decideRequest

theorem Formed.after_execLaunchCommand (h : Formed s) : FormedNext (execLaunchCommand s) := by
  unfold execLaunchCommand
  split
  · refine h.after_command fun _ _ ht => ?_
    split
    · exact ht
    · exact ht.after_submitHost
  · exact h

theorem Formed.after_execStatus (h : Formed s) : FormedNext (execStatus s) := by
  unfold execStatus
  split
  · refine h.after_command fun _ _ ht => ?_
    split
    · exact ht
    · exact ht
  · exact h

theorem Formed.after_execLock (h : Formed s) : FormedNext (execLock s) := by
  unfold execLock
  dsimp only
  split
  · refine h.after_command fun _ _ ht => .iteFst ht ?_
    split
    · exact ht.after_onPkg
    · exact .iteFst ht.after_onPkg ht
  · exact h

theorem Formed.after_execUnlock (h : Formed s) : FormedNext (execUnlock s) := by
  unfold execUnlock
  split
  · exact h.after_command fun _ _ ht => .iteFst ht.after_onPkg ht
  · exact h

theorem Formed.after_execLockLeaseExpiry (h : Formed s) : FormedNext (execLockLeaseExpiry s) := Formed.ite h.after_onPkg h

theorem Formed.after_execDomainSetRoute (h : Formed s) : FormedNext (execDomainSetRoute s) := by
  unfold execDomainSetRoute
  split
  · exact h.after_command fun _ _ ht => ht.after_onPkg
  · exact h

theorem Formed.after_execDomainSetExport (h : Formed s) : FormedNext (execDomainSetExport s) := by
  unfold execDomainSetExport
  split
  · exact h.after_command fun _ _ ht => .iteFst ht ht.after_onPkg
  · exact h

theorem Formed.after_quiesceCtx (h : Formed s) : Formed (quiesceCtx s c) :=
  .ite h (.ite (Formed.ite h.after_onCtx h).after_saveCtx.after_notePreemptions h.after_onCtx)

theorem Formed.after_quiesceJobs (h : Formed s) : Formed (quiesceJobs s clu) := h.foldl fun _ _ ht => ht.after_holdJobs

theorem Formed.after_quiesce (h : Formed s) : Formed (quiesce s) :=
  ((h.after_onPkg.foldl fun _ _ ht => ht.after_decideAll).foldl fun _ _ ht => ht.after_quiesceCtx).foldl fun _ _ ht =>
    ht.after_quiesceJobs

theorem Formed.after_execQuiesce (h : Formed s) : FormedNext (execQuiesce s) := by
  unfold execQuiesce
  split
  · exact h.after_lateCommand fun _ _ ht => ht.after_quiesce.after_ok
  · exact h

theorem Formed.after_holdFrame {sig : Signal} (h : Formed s) : Formed (holdFrame s i sig) := h.after_onPkg

theorem Formed.after_answerHost {q : HostAsk} (h : Formed s) : Formed (answerHost s q) :=
  .ite h h.after_respond.after_onChan.rest.after_onPkg

theorem Formed.after_answerStopped (h : Formed s) : Formed (answerStopped s) :=
  .ite h (h.foldl fun _ _ ht => ht.after_respond).rest.after_onPkg

theorem Formed.after_answerQuiet (h : Formed s) : Formed (answerQuiet s) := (h.foldl fun _ _ ht => ht.after_answerHost).after_answerStopped

/-- The image of a state in form has cells above 2^56 alone, in order. -/
theorem Formed.image (h : Formed s) : Memory.wf (imageOf s pa).cells = true ∧ ∀ e ∈ (imageOf s pa).cells, 2 ^ 56 ≤ e.1 :=
  ⟨wf_filter _ _ h.1, fun _ he => Nat.le_of_ble_eq_true (List.mem_filter.1 he).2⟩

theorem Formed.after_keepImage (h : Formed s) {g : Image → Bool} (ht : Formed t) :
    Formed (onPkg t (fun p => { p with images := imageOf s pa :: p.images.filter g })) := by
  refine ⟨ht.1, fun i hi => ?_⟩
  obtain rfl | hi := List.mem_cons.1 hi
  · exact h.image
  · exact ht.2 i (List.mem_of_mem_filter hi)

theorem Formed.after_execDump (h : Formed s) : FormedNext (execDump s) := by
  unfold execDump
  split
  · exact h.after_command fun _ _ ht => ht.after_keepImage ht.after_writeArea
  · exact h

theorem Formed.after_restoreClu {i : Image} (h : Formed s) : Formed (restoreClu i s k) := h.after_onClu

theorem Formed.after_readmit {e : Nat × Launch} (h : Formed s) : Formed (readmit die at_ s e) :=
  .ite h.after_onDie h.after_onDie.after_stopLaunch

theorem Formed.after_restoreDie {i : Image} (h : Formed s) : Formed (restoreDie i s die) :=
  h.after_onDie.foldl fun _ _ ht => ht.after_readmit

/-- Memory below 2^56, and the cells of an image after it. -/
theorem wf_restored {m r : Memory} (hm : Memory.wf m = true) (hr : Memory.wf r = true) (hb : ∀ e ∈ r, 2 ^ 56 ≤ e.1) :
    Memory.wf (m.filter (fun e => Nat.blt e.1 (2 ^ 56)) ++ r) = true := by
  have hf := wf_filter m (fun e => Nat.blt e.1 (2 ^ 56)) hm
  simp only [Memory.wf, tableWf, Bool.and_eq_true] at hf hr ⊢
  refine ⟨ascending_append _ _ 0 (2 ^ 56) hf.1 (fun e he => ?_) (Nat.zero_le _) (ascending_of_le _ 0 _ hr.1 hb), ?_⟩
  · simpa using (List.mem_filter.1 he).2
  · rw [List.all_append, hf.2, hr.2, Bool.and_self]

theorem Formed.after_restoreImage {i : Image} (h : Formed s) (hi : i ∈ s.pkg.images) : Formed (restoreImage s i) := by
  obtain ⟨hw, hb⟩ := h.2 i hi
  have hc : Formed { s with
      mem := s.mem.filter (fun e => Nat.blt e.1 (2 ^ 56)) ++ i.cells
      ctxs := s.ctxs.filter (fun e => Nat.blt e.1 4096) ++ i.ctxs } := ⟨wf_restored h.1 hw hb, h.2⟩
  exact ((hc.foldl fun _ _ ht => ht.after_restoreClu).after_onPkg.foldl fun _ _ ht => ht.after_restoreDie).foldl fun _ _ ht =>
    ht.after_goJobs

theorem Formed.after_execRestore (h : Formed s) : FormedNext (execRestore s) := by
  unfold execRestore
  split
  · refine h.after_command fun _ _ ht => .iteFst ht ?_
    split
    · exact (ht.after_restoreImage (List.mem_of_find?_eq_some ‹_›)).after_ok
    · exact ht
  · exact h

theorem Formed.after_execUnlistedOpcode (h : Formed s) : FormedNext (execUnlistedOpcode s) := by
  unfold execUnlistedOpcode
  split
  · exact .ite h (h.after_command fun _ _ ht => ht)
  · exact h

/-! ## Attestation and recovery (R364, R370, R372) -/

theorem Formed.after_answer {port : BitVec 3} {code : BitVec 8} (h : Formed s) : Formed (answer s port code payload) := h.after_onPkg

theorem Formed.after_openAnswer {code : BitVec 8} (h : Formed s) : FormedNext (openAnswer code s) := by
  unfold openAnswer
  split
  · exact Formed.ite h h.after_answer
  · exact h

theorem Formed.after_execSpdmGetVersion (h : Formed s) : FormedNext (execSpdmGetVersion s) := by
  unfold execSpdmGetVersion
  split
  · exact h.after_answer
  · exact h

theorem Formed.after_execSpdmGetCapabilities (h : Formed s) : FormedNext (execSpdmGetCapabilities s) := by
  unfold execSpdmGetCapabilities
  split
  · exact Formed.ite h h.after_answer
  · exact h

theorem Formed.after_execSpdmNegotiateAlgorithms (h : Formed s) : FormedNext (execSpdmNegotiateAlgorithms s) := by
  unfold execSpdmNegotiateAlgorithms
  split
  · exact Formed.ite h h.after_answer
  · exact h

theorem Formed.after_execSpdmGetMeasurements (h : Formed s) : FormedNext (execSpdmGetMeasurements s) := by
  unfold execSpdmGetMeasurements
  split
  · refine Formed.ite h ?_
    split <;> exact h.after_answer
  · exact h

theorem Formed.after_execSpdmKeyExchange (h : Formed s) : FormedNext (execSpdmKeyExchange s) := by
  unfold execSpdmKeyExchange
  dsimp only
  split
  · exact Formed.ite h (.ite h.after_answer h.after_onPkg.after_answer)
  · exact h

theorem Formed.after_execSpdmFinish (h : Formed s) : FormedNext (execSpdmFinish s) := by
  unfold execSpdmFinish
  dsimp only
  split
  · exact Formed.ite h (.ite h.after_onPkg.after_answer h.after_answer)
  · exact h

theorem Formed.after_execUnsupportedRequest (h : Formed s) : FormedNext (execUnsupportedRequest s) := by
  unfold execUnsupportedRequest
  split
  · exact Formed.ite h h.after_answer
  · exact h

theorem Formed.after_execRecoveryFrame (h : Formed s) : FormedNext (execRecoveryFrame s) := by
  unfold execRecoveryFrame
  split
  · exact Formed.ite Formed.after_resetPackage h
  · exact h

end Sys2Proof.Machine
end

section
namespace Sys2Proof.Machine

open Sys2Proof.Safety

variable {s t u : State} {c clu die n : Nat} {i : Instr}

/-! ## Every instruction and event -/

theorem Formed.after_exec (h : Formed s) : FormedNext (exec i s) := by
  unfold exec
  cases i with
  | add | sub | and | or | xor | sll | srl | sra | slt | sltu | min | max | minn | maxn | mul | mulh | mulhn | div | divn | rem
  | remn | clz | ctz | popc | addi | andi | ori | xori | slti | sltin | slli | srli | srai | lih | pcrel =>
    exact h.after_writeX
  | ld => exact h.after_execLd
  | st => exact h.after_execSt
  | amoAdd | amoAnd | amoOr | amoXor | amoMin | amoMax | amoMinn | amoMaxn | amoSwap => exact h.after_runAmo
  | cas => exact h.after_execCas
  | fence | fenceSc => exact h.after_fenceAll
  | sbar => exact h.after_execSbar
  | brEq | brNe | brLt | brGe | brLtn | brGen => exact h.after_branchIf
  | jalr => exact .ite h.after_takeFront h.after_onCtx
  | loop => exact h.after_execLoop
  | nextPerElement => exact h.after_execNextPerElement
  | nextUniform => exact h.after_runNext
  | jal | vsetvl | vcfg | vtag => exact h.after_onCtx
  | vadd | vaddSub | vaddRsub | vaddAdds | vaddSubs | vaddAbsd | vmul | vmulMulh | vmulMulhn | vmulDiv | vmulRem | vfma | vfmaFms
  | vfmaFnma | vfmaFnms | vminmaxMin | vminmaxMax | vminmaxMinnum | vminmaxMaxnum | vlogicAnd | vlogicOr | vlogicXor | vlogicAndn
  | vlogicSll | vlogicSrl | vlogicSra | vcmpEq | vcmpNe | vcmpLt | vcmpLe | vcmpGt | vcmpGe | vcmpUnord | vsel | vcvt | vcvtSat
  | vcvtBlk | vcvtScale | vmodAddm | vmodSubm | vmodMulm | vmodMacm | vxAdd | vxSub | vxMul | vxMin | vxMax | vxAnd | vxOr | vxFma
  | vsfuExp2 | vsfuLog2 | vsfuRcp | vsfuRsq | vsfuSqrt | vsfuRcpstep | vsfuRsqstep | vsmaxUpd | vsmaxNorm | vredSum | vredMin
  | vredMax | vredAnd | vredOr | vredXor | vredWsum | vslideUp | vslideDown | vslideRot | vperm | vcompCompress | vcompExpand
  | vcompIota | vcompCidx | vbflyH | vbflyHF | vbflyCt | vbflyGs | vdecomp | vmv | vmvBcast | vmvTox | vmvFromx | vmvWid | ehistAcc
  | ehistRead | ehistClr | mlogAnd | mlogOr | mlogXor | mlogAndn | mlogOrn | mlogXnor | mlogNot | mcnt | mcntFirst | msetvl | mmv
  | mmvSet | mmvClr | vld | vldS | vldX | vst | vstS | vstX | vamoAdd | vamoAnd | vamoOr | vamoXor | vamoMin | vamoMax | vamoSwap
  | mld | mst | sbind | sunbind | tmma | tcvt | tcopy | jstat =>
    exact h.after_issue
  | btnWait | btnPost | btnWaitPost => exact .ite h.after_frontBaton h.after_issue
  | cld => exact h.after_execCld
  | cst => exact h.after_execCst
  | cadd | csub | cneg | cmuli | caddp | cmov | cmac => exact h.after_runCar
  | crfn => exact h.after_execCrfn
  | tld => exact h.after_execTld
  | kpassOpen => exact h.after_execKpassOpen
  | kpassJoin => exact h.after_execKpassJoin
  | kpassRun => exact h.after_execKpassRun
  | kpassAbort => exact h.after_execKpassAbort
  | kpassStatus => exact h.after_execKpassStatus
  | cinfo => exact h.after_writeX
  | hurdleArrive => exact h.after_execHurdleArrive
  | hurdleWait => exact h.after_execHurdleWait
  | hurdleAw => exact h.after_execHurdleAw
  | hurdleInit => exact h.after_execHurdleInit
  | qpush => exact h.after_execQpush
  | qpop | qpeek => exact h.after_runPop
  | wmarkPub => exact h.after_execWmarkPub
  | wmarkBind => exact h.after_execWmarkBind
  | wmarkUnbind => exact h.after_execWmarkUnbind
  | pubv => exact h.after_execPubv
  | pubf => exact h.after_execPubf
  | stopr => exact h.after_execStopr
  | refchk => exact h.after_execRefchk
  | refq => exact h.after_execRefq
  | viewNew => exact h.after_execViewNew
  | viewNarrow => exact h.after_execViewNarrow
  | viewSplit => exact h.after_execViewSplit
  | viewDup => exact h.after_execViewDup
  | viewDrop => exact h.after_execViewDrop
  | viewQuery => exact h.after_execViewQuery
  | viewId => exact h.after_execViewId
  | viewTake => exact h.after_execViewTake
  | launch | launchInd => exact h.after_runLaunch
  | csrr | csrw | csrs | csrc => exact h.after_runCsr
  | trap => exact h.after_takeFront
  | bkpt => exact .ite h.after_haltCtx h.after_takeFront
  | trace => exact h.after_execTrace
  | wcall => exact .ite h.after_takeWord h.after_takeStop
  | tlbiAs | tlbiVa | tlbiAll => exact h.after_runTlbi
  | lapend => exact h.after_execLapend
  | lapexit => exact h.after_execLapexit
  | yield => exact h.after_onCtx.after_goOn
  | eret => exact .ite h.after_takeWord h.after_returnFrom
  | wfe => exact h.after_execWfe
  | yieldSwitch => exact h.after_execYieldSwitch
  | clusterScrubDone => exact h.after_execClusterScrubDone
  | shootdownAck => exact h.after_execShootdownAck
  | stopAtPointerPair => exact h.after_execStopAtPointerPair
  | pendingFaultTake => exact h.after_execPendingFaultTake
  | vectorStart => exact h.after_execVectorStart
  | vectorRetire => exact h.after_execVectorRetire
  | worldSwitch => exact h.after_execWorldSwitch
  | witnessCheck => exact h.after_execWitnessCheck
  | streamFill => exact h.after_execStreamFill
  | streamDrain => exact h.after_execStreamDrain
  | deadlockProbe => exact h.after_execDeadlockProbe
  | probeReturn => exact h.after_execProbeReturn
  | jobStart => exact h.after_execJobStart
  | jobEnd => exact h.after_execJobEnd
  | stagedInputIssue => exact h.after_execStagedInputIssue
  | refreshStep => exact h.after_execRefreshStep
  | sliceDelivery => exact h.after_execSliceDelivery
  | passEnd => exact h.after_execPassEnd
  | passFault => exact h.after_execPassFault
  | lapDispatch => exact h.after_execLapDispatch
  | poolAged => exact h.after_execPoolAged
  | poolOverdue => exact h.after_execPoolOverdue
  | admissionDecision => exact h.after_execAdmissionDecision
  | predecessorsComplete => exact h.after_execPredecessorsComplete
  | launchPreempt => exact h.after_execLaunchPreempt
  | contextSave => exact h.after_execContextSave
  | contextRestore => exact h.after_execContextRestore
  | launchOverrunStop => exact h.after_execLaunchOverrunStop
  | deadlineStop => exact h.after_execDeadlineStop
  | launchComplete => exact h.after_execLaunchComplete
  | hurdleWake => exact h.after_execHurdleWake
  | hurdleRecheck => exact h.after_execHurdleRecheck
  | hurdleWaitTimeout => exact h.after_execHurdleWaitTimeout
  | wfeWake => exact h.after_execWfeWake
  | wfeTimeout => exact h.after_execWfeTimeout
  | roundStart => exact h.after_execRoundStart
  | roundStop => exact h.after_execRoundStop
  | roundEnd => exact h.after_execRoundEnd
  | recordSettle => exact h.after_execRecordSettle
  | wmarkCopyUpdate => exact h.after_execWmarkCopyUpdate
  | cellFree => exact h.after_execCellFree
  | sectorRead => exact h.after_execSectorRead
  | domainAccessArrival => exact h.after_execDomainAccessArrival
  | domainTimeout => exact h.after_execDomainTimeout
  | traceTriggerFire => exact h.after_execTraceTriggerFire
  | traceMarkerSend => exact h.after_execTraceMarkerSend
  | traceMarkerReceive => exact h.after_execTraceMarkerReceive
  | clockGate => exact h.after_execClockGate
  | enterRetention => exact h.after_execEnterRetention
  | enterOff => exact h.after_execEnterOff
  | clusterWake => exact h.after_execClusterWake
  | monitorRefresh => exact h.after_execMonitorRefresh
  | voltageReset => exact h.after_execVoltageReset
  | dieReset => exact h.after_execDieReset
  | packageReset => exact h.after_execPackageReset
  | spdmGetVersion => exact h.after_execSpdmGetVersion
  | spdmGetCapabilities => exact h.after_execSpdmGetCapabilities
  | spdmNegotiateAlgorithms => exact h.after_execSpdmNegotiateAlgorithms
  | spdmGetDigests | spdmGetCertificate | spdmChallenge => exact h.after_openAnswer
  | spdmGetMeasurements => exact h.after_execSpdmGetMeasurements
  | spdmKeyExchange => exact h.after_execSpdmKeyExchange
  | spdmFinish => exact h.after_execSpdmFinish
  | unsupportedRequest => exact h.after_execUnsupportedRequest
  | recoveryFrame => exact h.after_execRecoveryFrame
  | bind => exact h.after_execBind
  | write => exact h.after_execWrite
  | read => exact h.after_execRead
  | launchCommand => exact h.after_execLaunchCommand
  | status => exact h.after_execStatus
  | lock => exact h.after_execLock
  | unlock => exact h.after_execUnlock
  | lockLeaseExpiry => exact h.after_execLockLeaseExpiry
  | domainSetRoute => exact h.after_execDomainSetRoute
  | domainSetExport => exact h.after_execDomainSetExport
  | quiesce => exact h.after_execQuiesce
  | dump => exact h.after_execDump
  | restore => exact h.after_execRestore
  | illegalWord => exact h.after_execIllegalWord
  | fetchFault => exact h.after_execFetchFault
  | domainResponse => exact h.after_execDomainResponse
  | refusedOptionPacket => exact h.after_execRefusedOptionPacket
  | unlistedOpcode => exact h.after_execUnlistedOpcode
  | pageReencryptionDone => exact h.after_finishPage

/-! ## The turn of a context (R80, R135, R139, R161, R249) -/

theorem Formed.after_runWord {w : BitVec 32} (h : Formed s) : Formed (runWord s w).left := by
  unfold runWord
  split
  · split
    · exact h
    · exact h.rest
  · exact h.rest

theorem Formed.after_fetchTurn (h : Formed s) : Formed (fetchTurn s).left := by
  unfold fetchTurn
  dsimp only
  split
  · exact h
  split
  · exact h.after_noteDenial.rest
  split
  · exact h
  split
  · exact h.after_noteLeaf.after_recordSector.after_consumePoison
  · exact h.after_noteLeaf.after_recordSector.after_consumePoison
  · exact h.after_noteLeaf.after_runWord

theorem Formed.after_dueStop {o : Turn} (h : Formed s) (e : dueStop s c = some o) : Formed o.left := by
  unfold dueStop at e
  dsimp only at e
  split at e
  · cases e
  split at e
  · cases e
    exact .iteAt Turn.left h.rest h.rest
  split at e
  · cases e
    exact h.after_takeHalt
  split at e
  · cases e
    exact h.rest
  · cases e

theorem Formed.after_parkedTurn (h : Formed s) : Formed (parkedTurn s c).left := by
  unfold parkedTurn
  dsimp only
  split
  · exact h
  · split
    · exact h.rest
    split
    · exact h.rest
    · exact h
  split
  · exact h.rest
  split
  · exact h.rest
  · exact h

theorem Formed.after_contextTurn (h : Formed s) : Formed (contextTurn s).left := by
  unfold contextTurn
  dsimp only
  refine .iteAt Turn.left h ?_
  split
  · exact (Formed.ite h.after_goQueue h).after_goOnStop
  split
  · exact h.after_dueStop ‹_›
  have hl := h.after_startLap (c := s.turn)
  exact .iteAt Turn.left hl.rest (.iteAt Turn.left hl.after_parkedTurn
    (.iteAt Turn.left hl.after_goQueue.after_fetchTurn hl.after_goQueue))

/-! ## What follows every step -/

theorem Formed.after_afterFront (h : Formed t) : Formed (afterFront s t c i) := by
  unfold afterFront
  dsimp only
  have hn {b : Prop} [Decidable b] {f : Lap → Lap} {g : Ctx → Ctx} : Formed (onCtx (if b then t else onLap t c f) c g) :=
    (Formed.ite h h.after_onLap).after_onCtx
  have hs {b b' : Prop} [Decidable b] [Decidable b'] {f : Lap → Lap} {g g' : Ctx → Ctx} :
      Formed (if b' then onCtx (onCtx (if b then t else onLap t c f) c g) c g' else onCtx (if b then t else onLap t c f) c g) :=
    .ite hn.after_onCtx hn
  exact .ite h (.ite (Formed.ite hs hs.after_noteHits).after_haltCtx (.ite hs hs.after_noteHits))

theorem Formed.after_tickContexts (h : Formed s) : Formed (tickContexts s n) := h.rest

theorem Formed.after_noteCluster (h : Formed t) : Formed (noteCluster s t clu) :=
  .ite (.ite h.after_onClu h) (Formed.ite h.after_onClu h).after_onClu

theorem Formed.after_lookTriggers (h : Formed s) : Formed (lookTriggers n s clu) :=
  .ite h (.ite h.after_countTrigger h.after_countTrigger.after_fireTrigger)

theorem Formed.after_noteSlips (h : Formed s) : Formed (noteSlips s n) := .ite h (h.foldl fun _ _ ht => ht.after_noteHits)

theorem Formed.after_timeWorlds (h : Formed s) : Formed (timeWorlds s n) := .ite (h.foldl fun _ _ ht => ht.after_onCore) h

theorem Formed.after_tick (h : Formed s) : Formed (tick s n) := h.foldl fun _ _ ht => ht.after_onDie

theorem Formed.after_nextTurn (h : Formed s) : Formed (nextTurn s) := by
  unfold nextTurn
  split
  · exact h.rest
  · exact h.rest

theorem Formed.after_afterAnswers (h : Formed t) : Formed (afterAnswers s t) := by
  unfold afterAnswers
  refine h.foldl fun _ _ ht => ?_
  split
  · exact ht.after_afterFront
  · exact ht

theorem Formed.after_afterStep {ran : Option Instr} (h : Formed t) : Formed (afterStep s t ran) := by
  unfold afterStep
  dsimp only
  have hf : Formed (match ran.bind frontOf with
      | some i => afterFront s t s.turn i
      | none => afterAnswers s t) := by
    split
    · exact h.after_afterFront
    · exact h.after_afterAnswers
  exact (((((((hf.foldl fun _ _ ht => ht.after_notePreemptions).after_noteSlips.foldl fun _ _ ht => ht.after_lookTriggers).foldl
    fun _ _ ht => .ite ht ht.after_drainTrace).foldl fun _ _ ht => ht.after_noteCluster).foldl fun _ _ ht => ht.after_checkBound).foldl
    fun _ _ ht => ht.after_noteAsking).after_timeWorlds.after_tickContexts.after_tick.after_nextTurn).after_answerQuiet

/-! ## The step -/

theorem FormedNext.next {r : Result} (h : FormedNext r) (e : r = .next t) : Formed t := by subst e; exact h

theorem Formed.after_eventStep {sig : Signal} (h : Formed s) : FormedNext (eventStep i sig s) := by
  unfold eventStep
  refine .ite (.ite h.after_holdFrame.after_afterStep ?_) trivial
  split
  · exact ((h.rest.after_exec (i := i)).next ‹_›).after_afterStep
  · trivial
  · trivial

theorem Formed.after_turnStep (h : Formed s) : FormedNext (turnStep s) := by
  unfold turnStep
  refine .ite ?_ trivial
  split
  · split
    · exact ((h.after_contextTurn.turnRun ‹_›).after_exec.next ‹_›).after_afterStep
    · trivial
    · trivial
  · exact (h.after_contextTurn.turnPass ‹_›).after_afterStep

theorem Formed.after_step (h : Formed s) : FormedNext (step s) := by
  unfold step
  split
  · exact h.rest.after_eventStep
  · exact h.after_turnStep

/-- Settles O59: each operation of the model keeps the form of memory and of images, by its own rule above; so does a step, which is one
of them after another. -/
theorem memoryKeepsItsForm : Obligations.MemoryKeepsItsForm := by
  unfold Obligations.MemoryKeepsItsForm
  intro s t h e
  exact (formed_iff t).1 (((formed_iff s).2 h).after_step.next e)

end Sys2Proof.Machine
end

section
namespace Sys2Proof.Machine

set_option Elab.async false

open Sys2Proof.Safety

/-! # The state of a context: vector configuration, loops and CSRs (R34–R52, R81–R93, R155) -/

/-- A change of the context whose turn it is leaves memory and the other contexts as they are. -/
theorem onlyCtx_withMe (s : State) (x : Ctx) : onlyCtx s (withMe s x) s.turn :=
  ⟨rfl, fun k hk => by rw [withMe, ctxAt_setCtx, if_neg hk]⟩

@[simp] theorem ctxAt_withMe (s : State) (x : Ctx) : ctxAt (withMe s x) s.turn = x := ctxAt_setCtx_same s s.turn x

@[simp] theorem wentOn_regs (x : Ctx) : (wentOn x).regs = x.regs := rfl
@[simp] theorem wentOn_pc (x : Ctx) : (wentOn x).pc = x.pc + 4 := rfl
@[simp] theorem wentOn_csr (x : Ctx) : (wentOn x).csr = { x.csr with retired := x.csr.retired + 1 } := rfl

/-- The registers after a write to one depend on the registers before alone. -/
theorem setX_regs_congr {x y : Ctx} (h : x.regs = y.regs) (d : XReg) (v : Word) : (x.setX d v).regs = (y.setX d v).regs := by
  unfold Ctx.setX
  split
  · exact h
  · rw [h]

/-! ## vtype and vl (R40, R43, R91–R93) -/

/-- A value that vtype takes, by the fields of its word (R40). -/
abbrev vtypeTakes (v : Word) : Prop := v.toNat < 2 ^ 17 ∧ v.toNat / 64 % 8 ≠ 0 ∧ v.toNat / 4 % 8 ≤ 4

theorem vtypeTakes_iff (v : Word) : v.toNat < 2 ^ 17 ∧ vtOk (v.setWidth 17) = true ↔ vtypeTakes v := by
  refine and_congr_right fun h => ?_
  have hv : (v.setWidth 17).toNat = v.toNat := by rw [BitVec.toNat_setWidth, Nat.mod_eq_of_lt h]
  simp [vtOk, vtP, vtRefCode, hv]

/-- vtype written under R40, and vl taken down to its VLMAX. -/
theorem setVtype_eq (x : Ctx) (g : Nat) (v : Word) : x.setVtype g v =
    if vtypeTakes v
    then { x with csr := { x.csr with vtype := v.setWidth 17, vl := min x.csr.vl (vlmaxOf (v.setWidth 17) g) } } else x := by
  unfold Ctx.setVtype
  simp only [vtypeTakes_iff]

/-- A write to vtype changes vtype and vl alone. -/
theorem setVtype_frame (x : Ctx) (g : Nat) (v : Word) :
    ∃ n, x.setVtype g v = { x with csr := { x.csr with vtype := if vtypeTakes v then v.setWidth 17 else x.csr.vtype, vl := n } } := by
  rw [setVtype_eq]
  split
  · exact ⟨_, rfl⟩
  · exact ⟨x.csr.vl, rfl⟩

/-- The value of VCFG's field as a word, and back. -/
theorem toNat_setWidth_vtype (v : BitVec 17) : (v.setWidth 64 : Word).toNat = v.toNat :=
  BitVec.toNat_setWidth_of_le (by decide)

theorem setWidth_setWidth_vtype (v : BitVec 17) : (v.setWidth 64 : Word).setWidth 17 = v :=
  BitVec.eq_of_toNat_eq (by rw [BitVec.toNat_setWidth, toNat_setWidth_vtype, Nat.mod_eq_of_lt v.isLt])

theorem exec_vtag (s : State) (d : VNum) (t : BitVec 5) : exec (.vtag d t) s = .next (withMe s (wentOn ((me s).setTag d.toNat t))) := rfl

theorem exec_vcfg (s : State) (d : XReg) (v : BitVec 17) : exec (.vcfg d v) s =
    .next (withMe s (wentOn (((me s).setVtype (me s).groups (v.setWidth 64)).setX d ((me s).csr.vtype.setWidth 64)))) := rfl

/-- The context that VSETVL leaves, from that in which it has written vtype. -/
def lengthSet (y : Ctx) (groups : Nat) (d : XReg) (req : Word) : Ctx :=
  wentOn ({ y with csr := { y.csr with vl := vlFor y groups req } }.setX d (BitVec.ofNat 64 (vlFor y groups req)))

theorem exec_vsetvl (s : State) (d a b : XReg) : exec (.vsetvl d a b) s =
    .next (withMe s (lengthSet (if b = 0 then me s else (me s).setVtype (me s).groups ((me s).x b)) (me s).groups d
      (if a = 0 then BitVec.allOnes 64 else (me s).x a))) := rfl

/-- VCFG: vtype whole, or nothing of it (R40, R43, R92). -/
theorem vcfg_sets (s : State) (d : XReg) (v : BitVec 17) :
    ∃ t, exec (.vcfg d v) s = .next t ∧ onlyCtx s t s.turn ∧
      let x := me s
      let y := ctxAt t s.turn
      let ok := v.toNat / 64 % 8 ≠ 0 ∧ v.toNat / 4 % 8 ≤ 4
      (ok → y.csr.vtype = v ∧ y.csr.vl = min x.csr.vl (vlmaxOf v x.groups)) ∧
      (¬ ok → y.csr.vtype = x.csr.vtype ∧ y.csr.vl = x.csr.vl) ∧
      y.regs = (x.setX d (x.csr.vtype.setWidth 64)).regs ∧ y.pc = x.pc + 4 ∧ y.csr.retired = x.csr.retired + 1 := by
  refine ⟨_, exec_vcfg s d v, onlyCtx_withMe _ _, ?_⟩
  obtain ⟨n, hf⟩ := setVtype_frame (me s) (me s).groups (v.setWidth 64)
  have hx := setVtype_eq (me s) (me s).groups (v.setWidth 64)
  simp only [vtypeTakes, toNat_setWidth_vtype, setWidth_setWidth_vtype] at hx
  simp only [ctxAt_withMe, wentOn_csr, wentOn_regs, wentOn_pc, setX_csr, setX_pc]
  refine ⟨fun ok => ?_, fun no => ?_, setX_regs_congr (by rw [hf]) d _, by rw [hf], by rw [hf]⟩
  · rw [hx, if_pos ⟨v.isLt, ok⟩]; exact ⟨rfl, rfl⟩
  · rw [hx, if_neg fun h => no h.2]; exact ⟨rfl, rfl⟩

/-- The context that VSETVL leaves, from one with a vtype written. -/
theorem lengthSet_spec (x : Ctx) (t : BitVec 17) (m n : Nat) (d : XReg) (req : Word)
    (hn : n = min req.toNat (min (vlmaxOf t x.groups) (if x.loop.active then x.loop.laprem else x.work.nd))) :
    let y := lengthSet { x with csr := { x.csr with vtype := t, vl := m } } x.groups d req
    y.csr.vl = n ∧ y.regs = (x.setX d (BitVec.ofNat 64 n)).regs ∧ y.csr.vtype = t ∧ y.pc = x.pc + 4 ∧
      y.csr.retired = x.csr.retired + 1 := by
  have hv : vlFor { x with csr := { x.csr with vtype := t, vl := m } } x.groups req = n := hn.symm
  simp only [lengthSet, hv, wentOn_csr, wentOn_regs, wentOn_pc, setX_csr, setX_pc, true_and, and_true]
  exact setX_regs_congr (by rfl) d _

/-- Settles O7: each of the three is one change of the context, and `setVtype_eq` says what a write of vtype keeps. -/
theorem vectorConfigurationSetsLengthAndTypes : Obligations.VectorConfigurationSetsLengthAndTypes := by
  unfold Obligations.VectorConfigurationSetsLengthAndTypes
  refine ⟨exec_vtag, vcfg_sets, fun s d a b => ⟨_, exec_vsetvl s d a b, onlyCtx_withMe _ _, ?_⟩⟩
  have hreq : (if a = 0 then BitVec.allOnes 64 else (me s).x a).toNat = if a = 0 then 2 ^ 64 - 1 else ((me s).x a).toNat := by
    split
    · exact BitVec.toNat_allOnes
    · rfl
  simp only [ctxAt_withMe, ← hreq]
  by_cases hb : b = 0
  · simp only [hb, if_true, ne_eq, not_true, false_and, if_false]
    exact lengthSet_spec (me s) (me s).csr.vtype (me s).csr.vl _ d _ rfl
  · obtain ⟨n, hf⟩ := setVtype_frame (me s) (me s).groups ((me s).x b)
    simp only [hb, if_false, ne_eq, not_false_eq_true, true_and, hf]
    exact lengthSet_spec (me s) _ n _ d _ rfl

/-! ## LOOP (R48, R81, R82, R148) -/

/-- A lap whose buffer is empty ends its rewindability with nothing to commit (R149). -/
theorem breakLap_empty {s : State} {c : Nat} (hb : (ctxAt s c).lap.buf = []) :
    breakLap s c = (setCtx s c (unrewindable (ctxAt s c)), true) := by
  simp only [breakLap, commitBuffer, hb, runs, commitRuns, onLap, onCtx_eq, ctxAt_setCtx_same, setCtx_setCtx, unrewindable]

/-- A context without streams has nothing to drain. -/
theorem drainNamed_none {s : State} {c : Nat} (hs : (ctxAt s c).streams = []) : drainNamed s c (boundRegs (ctxAt s c)) = .done s () := by
  unfold drainNamed
  simp [boundRegs, hs, keys, drainEach, drainAll]

/-- A plain context that has buffered nothing closes its lap at once. -/
theorem commitLap_plain {s : State} {c : Nat} (hp : plain (ctxAt s c)) (hb : (ctxAt s c).lap.buf = []) :
    commitLap s c = .closed (setCtx s c (unrewindable (ctxAt s c))) := by
  obtain ⟨-, -, -, hs, hh, -⟩ := hp
  have hc : closeRun s c = (s, true) := by simp [closeRun, flushRun, hh]
  simp only [commitLap, hc, sendAll, drainNamed_none hs, breakLap_empty hb]

/-- The context that LOOP leaves outside a loop. -/
def loopOpened (x : Ctx) (groups : Nat) (a : XReg) (ind : BitVec 8) (cvb : BitVec 6) (cvg : BitVec 2) : Ctx :=
  wentOn ((openLoop (unrewindable x) (x.x a).toNat ind cvb cvg).lapStart groups)

theorem exec_loop_plain {s : State} (hp : plain (me s)) (hb : (me s).lap.buf = []) (hl : (me s).loop.active = false)
    (a : XReg) (ind : BitVec 8) (cvb : BitVec 6) (cvg : BitVec 2) :
    exec (.loop a ind cvb cvg) s = .next (withMe s (loopOpened (me s) (coreAt s (coreOf s.turn)).groups a ind cvb cvg)) := by
  have hl' : (unrewindable (ctxAt s s.turn)).loop.active = false := hl
  show execLoop a ind cvb cvg s = _
  simp only [execLoop, commitLap_plain hp hb, onCtx_eq, ctxAt_setCtx_same, setCtx_setCtx, hl', Bool.false_and,
    Bool.false_eq_true, if_false, Ctx.nextLap]
  rfl

/-- A checkpoint lists an induction register when the loop selects it (R48). -/
theorem mem_selected (x : Ctx) (j : Fin 8) :
    (8 + j.val, x.x (BitVec.ofNat 5 (8 + j.val))) ∈ selected x ↔ x.loop.ind.getLsbD j.val = true := by
  simp only [selected, List.mem_map, List.mem_filter, mem_span, Prod.mk.injEq]
  constructor
  · rintro ⟨k, ⟨-, hk⟩, hj, -⟩
    rwa [show k = j.val by omega] at hk
  · exact fun h => ⟨j.val, ⟨⟨by omega, by omega⟩, h⟩, rfl, rfl⟩

/-- A checkpoint lists the registers of the carried group (R48, R81). -/
theorem mem_carriedGroup {x : Ctx} (h : x.loop.cvb ≠ 0) {r : Nat} (h1 : x.loop.cvb.toNat ≤ r) (h2 : r < x.loop.cvb.toNat + x.loop.cvn) :
    (r, x.v r) ∈ carriedGroup x := by
  rw [carriedGroup, if_neg h]
  exact List.mem_map.2 ⟨r, (mem_span _ _ _).2 ⟨h1, h2⟩, rfl⟩

/-- Settles O8: the lap before commits nothing, and the loop's first lap starts with its checkpoint. -/
theorem loopOpensItsFirstLap : Obligations.LoopOpensItsFirstLap := by
  unfold Obligations.LoopOpensItsFirstLap
  intro s a ind cvb cvg hp hb hl
  refine ⟨_, exec_loop_plain hp hb hl a ind cvb cvg, onlyCtx_withMe _ _, ?_⟩
  simp only [ctxAt_withMe]
  let z := openLoop (unrewindable (me s)) ((me s).x a).toNat ind cvb cvg
  refine ⟨rfl, rfl, rfl, rfl, rfl, rfl, rfl, _, rfl, rfl, rfl, rfl, rfl, mem_selected z, fun h => ?_, fun h r h1 h2 => ?_⟩
  · exact if_pos (show z.loop.cvb = 0 from h)
  · exact mem_carriedGroup (x := z) h h1 h2
end Sys2Proof.Machine
end

section
namespace Sys2Proof.Machine

set_option Elab.async false

open Sys2Proof.Safety

/-! # Writes of CSRs (R37–R49, R137, R155, R333–R349) -/

/-! ## Words and their low bits -/

/-- The low bits of a word, extended again, are the word under a mask. -/
theorem setWidth_setWidth_low (v m : Word) (k : Nat) (hk : k ≤ 64) (hm : m.toNat = 2 ^ k - 1) :
    (v.setWidth k).setWidth 64 = v &&& m := by
  refine BitVec.eq_of_toNat_eq ?_
  rw [BitVec.toNat_and, hm, Nat.and_two_pow_sub_one_eq_mod, BitVec.toNat_setWidth_of_le hk, BitVec.toNat_setWidth]

/-- The low bits of a word as a number. -/
theorem ofNat_mod_low (v m : Word) (k : Nat) (hm : m.toNat = 2 ^ k - 1) : BitVec.ofNat 64 (v.toNat % 2 ^ k) = v &&& m := by
  refine BitVec.eq_of_toNat_eq ?_
  rw [BitVec.toNat_and, hm, Nat.and_two_pow_sub_one_eq_mod, BitVec.toNat_ofNat]
  exact Nat.mod_eq_of_lt ((Nat.mod_le _ _).trans_lt v.isLt)

theorem field_zero (v : Word) (k : Nat) : field v 0 k = v.toNat % 2 ^ k := by simp [field, bitField]

/-- Values of fewer bits are equal when the words that they extend to are. -/
theorem setWidth_inj {k : Nat} (hk : k ≤ 64) (a b : BitVec k) : (a.setWidth 64 : Word) = b.setWidth 64 ↔ a = b := by
  refine ⟨fun h => BitVec.eq_of_toNat_eq ?_, fun h => h ▸ rfl⟩
  have := congrArg BitVec.toNat h
  rwa [BitVec.toNat_setWidth_of_le hk, BitVec.toNat_setWidth_of_le hk] at this

/-- The digits of a number, packed, are its low bits. -/
theorem packBits_digits (w m : Nat) : ∀ (lo u : Nat) (g : Nat → Nat), (∀ k < m, g (lo + k) % 2 ^ w = u / 2 ^ (w * k) % 2 ^ w) →
    packBits w ((span lo m).map g) = u % 2 ^ (w * m) := by
  induction m with
  | zero => intro lo u g _; simp [span, packBits, Nat.mod_one]
  | succ m ih =>
    intro lo u g h
    have h0 : g lo % 2 ^ w = u % 2 ^ w := by simpa using h 0 (Nat.succ_pos m)
    have hr : packBits w ((span (lo + 1) m).map g) = u / 2 ^ w % 2 ^ (w * m) := by
      refine ih (lo + 1) (u / 2 ^ w) g fun k hk => ?_
      rw [Nat.div_div_eq_div_mul, ← Nat.pow_add, Nat.add_assoc, Nat.add_comm 1 k, h (k + 1) (by omega), Nat.mul_succ, Nat.add_comm w]
    rw [span, List.map_cons, packBits, h0, hr, Nat.mul_succ, Nat.add_comm (w * m), Nat.pow_add, Nat.mod_mul]

/-! ## What a user CSR keeps -/

/-- A tag after the tags of some registers have been written (R37). -/
theorem tag_setTags (v : Word) (l : List Nat) : ∀ (x : Ctx) (r : Nat),
    (setTags x v l).tag r = if r ∈ l then v.extractLsb' (5 * (r % 12)) 5 else x.tag r := by
  induction l with
  | nil => intro x r; simp [setTags]
  | cons n l ih =>
    intro x r
    rw [setTags, ih, tag_setTag]
    by_cases hr : r = n
    · subst hr; simp
    · simp [hr]

/-- The tags of registers that follow one another are the only part of a context that their write changes. -/
theorem setTags_frame (v : Word) (l : List Nat) : ∀ x : Ctx, ∃ g, setTags x v l = { x with regs := { x.regs with tag := g } } := by
  induction l with
  | nil => exact fun x => ⟨x.regs.tag, rfl⟩
  | cons n l ih =>
    intro x
    obtain ⟨g, hg⟩ := ih (x.setTag n (v.extractLsb' (5 * (n % 12)) 5))
    exact ⟨g, hg⟩

/-- A tagw register reads the tags that were written to it, and zero above them (R37). -/
theorem tagWord_setTags (x : Ctx) (v m : Word) (j : Nat) (hm : m.toNat = 2 ^ (5 * if j < 5 then 12 else 4) - 1) :
    tagWord (setTags x v (span (12 * j) (if j < 5 then 12 else 4))) j = v &&& m := by
  generalize hn : (if j < 5 then 12 else 4) = n at hm ⊢
  have hn' : n ≤ 12 := by subst hn; split <;> decide
  rw [tagWord, hn, packBits_digits 5 n (12 * j) v.toNat, ofNat_mod_low v m _ hm]
  intro k hk
  have h12 : (12 * j + k) % 12 = k := by omega
  rw [tag_setTags, if_pos ((mem_span _ _ _).2 ⟨by omega, by omega⟩), h12, BitVec.extractLsb'_toNat, Nat.shiftRight_eq_div_pow, Nat.mod_mod]

/-- A user CSR reads what its entry keeps of a write (R37, R40, R43, R47, R49). -/
theorem userCsr_writeUser {s : State} {c n : Nat} {v w : Word} (ht : (ctxAt s c).lap.trim = none) (hn : n < 0x100)
    (h : csrAfter (ctxAt s c) (ctxAt s c).groups n v = some w) : userCsr (onCtx s c (fun x => writeUser x n v)) c n = w := by
  have low3 := setWidth_setWidth_low v 7 3 (by decide) (by decide)
  unfold csrAfter at h
  split at h
  · rename_i hr
    cases h
    simp only [userCsr, writeUser, if_pos hr, ctxAt_onCtx_same, Ctx.istep, get_set, if_true]
  split at h
  · rename_i hi hr
    cases h
    have hr' : 0x020 ≤ n ∧ n ≤ 0x025 := ⟨hr.1, by omega⟩
    have hj := tagWord_setTags (ctxAt s c) v 0x0FFFFFFFFFFFFFFF (n - 0x020) (by rw [if_pos (by omega)]; decide)
    rw [if_pos (by omega)] at hj
    simp only [userCsr, writeUser, if_neg hi, if_pos hr', ctxAt_onCtx_same]
    rwa [if_pos (by omega)]
  split at h
  case h_1 => cases h; simp [userCsr, writeUser, Ctx.vl, ht]
  case h_2 =>
    cases h
    simp only [userCsr, ctxAt_onCtx_same, writeUser, setVtype_eq]
    by_cases hv : vtypeTakes v
    · rw [if_pos hv, if_pos hv]
      refine BitVec.eq_of_toNat_eq ?_
      change ((v.setWidth 17).setWidth 64 : Word).toNat = v.toNat
      rw [toNat_setWidth_vtype, BitVec.toNat_setWidth, Nat.mod_eq_of_lt hv.1]
    · rw [if_neg hv, if_neg hv]
      rfl
  case h_3 => cases h; simpa [userCsr, writeUser] using setWidth_setWidth_low v 0x1F 5 (by decide) (by decide)
  case h_4 =>
    cases h
    have h7 : v &&& 7 = 7 ↔ v.setWidth 3 = 7#3 := by rw [← low3]; exact setWidth_inj (by decide) _ 7
    simp only [userCsr, ctxAt_onCtx_same, writeUser, h7]
    change ((if v.setWidth 3 = 7#3 then 0 else v.setWidth 3).setWidth 64 : Word) = _
    rw [apply_ite (BitVec.setWidth 64), low3]
    rfl
  case h_5 => cases h; simpa [userCsr, writeUser, field_zero] using ofNat_mod_low v 0x7FFF 15 (by decide)
  case h_6 => cases h; simp [userCsr, writeUser]
  case h_7 => cases h; simp [userCsr, writeUser]
  case h_8 => cases h; simp [userCsr, writeUser]
  case h_9 => cases h; simpa [userCsr, writeUser] using tagWord_setTags (ctxAt s c) v 0xFFFFF 5 (by decide)
  case h_10 =>
    cases h
    have h6 : v &&& 7 = 6 ↔ field v 0 3 = 6 := by
      rw [field_zero, ← ofNat_mod_low v 7 3 (by decide), ← BitVec.toNat_inj, BitVec.toNat_ofNat, Nat.mod_eq_of_lt (by omega)]
      rfl
    simp only [userCsr, ctxAt_onCtx_same, writeUser, h6]
    by_cases h : field v 0 3 = 6
    · rw [if_pos h, if_pos h]; rfl
    · rw [if_neg h, if_neg h]; exact low3
  case h_38 => cases h
  all_goals exact absurd hn (by decide)

/-! ## What a trap CSR keeps -/

/-- The trap CSRs among those that a write of a context reaches, by their place in the nine of their level (R137). -/
theorem csrAfter_trap {x : Ctx} {g n : Nat} {v w : Word} (hn : 0x100 ≤ n) (h : csrAfter x g n v = some w) :
    n % 0x40 ≤ 8 ∧ (n = 0x100 + n % 0x40 ∨ n = 0x180 + n % 0x40 ∨ n = 0x1C0 + n % 0x40) ∧
      ∀ t, trapWord (setTrapWord t v (n % 0x40)) (n % 0x40) = w := by
  have low15 : ∀ t, trapWord (setTrapWord t v 5) 5 = v &&& 0x7FFF := fun _ => setWidth_setWidth_low v 0x7FFF 15 (by decide) (by decide)
  unfold csrAfter at h
  rw [if_neg (by omega), if_neg (by omega)] at h
  split at h
  case h_38 => cases h
  case h_1 | h_2 | h_3 | h_4 | h_5 | h_6 | h_7 | h_8 | h_9 | h_10 => exact absurd hn (by decide)
  case h_26 | h_27 | h_28 => cases h; exact ⟨by decide, by decide, low15⟩
  all_goals cases h; exact ⟨by decide, by decide, fun _ => rfl⟩

/-- The number of the first of a level's trap CSRs (R137). -/
def trapBase : Level → Nat
  | .m => 0x1C0
  | .h => 0x180
  | _ => 0x100

/-- A trap CSR is written and read among the nine of its level (R137). -/
theorem csr_trap (s : State) (c k : Nat) (v : Word) (l : Level) (hk : k ≤ 8) :
    csrWrite s c (trapBase l + k) v = onCtx s c (fun x => x.setTrap l (setTrapWord (x.trap l) v k)) ∧
      csrRead s c (trapBase l + k) = trapWord ((ctxAt s c).trap l) k := by
  cases l <;> interval_cases k <;> exact ⟨rfl, rfl⟩

theorem trap_setTrap (x : Ctx) (l : Level) (t : TrapRegs) : (x.setTrap l t).trap l = t := by cases l <;> rfl

/-- A write of trap CSRs changes them alone. -/
theorem setTrap_frame (x : Ctx) (l : Level) (t : TrapRegs) :
    (x.setTrap l t).regs = x.regs ∧ (x.setTrap l t).pc = x.pc ∧ (x.setTrap l t).csr = x.csr := by cases l <;> exact ⟨rfl, rfl, rfl⟩

/-! ## What a CSR of a unit keeps -/

/-- A CSR of the trace and debug unit is read and written there (R349). -/
theorem csr_debug (s : State) (c n : Nat) (v : Word) (h1 : 0x200 ≤ n) (h2 : n < 0x280) :
    csrRead s c n = debugCsr s c n ∧ csrWrite s c n v = writeDebug s c n v := by
  unfold csrRead csrWrite
  simp only [show ¬ n < 0x100 by omega, show ¬ n < 0x180 by omega, show ¬ n < 0x1C0 by omega, show ¬ n < 0x200 by omega, h2, if_true,
    if_false, and_self]

/-- What a CSR of a unit keeps of a write does not depend on the context that writes it. -/
theorem unitCsrAfter_withMe (s : State) (x : Ctx) (n : Nat) (v : Word) : unitCsrAfter (withMe s x) n v = unitCsrAfter s n v := by
  have hd (h1 : 0x200 ≤ n) (h2 : n < 0x280) : csrRead (withMe s x) s.turn n = csrRead s s.turn n := by
    rw [(csr_debug _ _ n v h1 h2).1, (csr_debug _ _ n v h1 h2).1]; rfl
  have ht : (withMe s x).turn = s.turn := rfl
  unfold unitCsrAfter
  dsimp only
  split
  · rfl
  split
  · rw [ht, hd (by omega) (by omega)]
  split
  · rw [ht, hd (by omega) (by omega)]
  split <;> rfl

/-- A CSR has been written in a unit alone: it reads w, and no context and no byte has changed. -/
abbrev unitWritten (s t : State) (n : Nat) (w : Word) : Prop :=
  csrRead t s.turn n = w ∧ t.mem = s.mem ∧ ∀ k, ctxAt t k = ctxAt s k

/-- The comparators and the sequencer keep what they are given, but for a reserved kind or action (R349). -/
theorem comparator_written {s : State} {n : Nat} {v w : Word} (hn : 0x208 ≤ n ∧ n ≤ 0x223) (h : unitCsrAfter s n v = some w) :
    unitWritten s (csrWrite s s.turn n v) n w := by
  have hr (t : State) := (csr_debug t s.turn n v (by omega) (by omega)).1
  rw [unitWritten, (csr_debug s s.turn n v (by omega) (by omega)).2, hr]
  unfold unitCsrAfter at h
  dsimp only at h
  rw [hr] at h
  unfold writeDebug
  dsimp only
  by_cases ha : 0x208 ≤ n ∧ n ≤ 0x20F
  · rw [if_pos (by omega)] at h
    cases h
    rw [if_pos ha]
    exact ⟨by simp only [debugCsr, if_pos ha, cluAt_onClu_same, get_set, if_true], rfl, fun _ => rfl⟩
  rw [if_neg ha]
  by_cases hb : 0x210 ≤ n ∧ n ≤ 0x217
  · rw [if_pos (by omega)] at h
    cases h
    rw [if_pos hb]
    exact ⟨by simp only [debugCsr, if_neg ha, if_pos hb, cluAt_onClu_same, get_set, if_true], rfl, fun _ => rfl⟩
  rw [if_neg hb]
  rw [if_neg (by omega)] at h
  by_cases hk : 0x218 ≤ n ∧ n ≤ 0x21F
  · rw [if_pos hk] at h ⊢
    cases h
    by_cases hv : 5 ≤ v.toNat % 8
    · rw [if_pos hv, if_pos (by rwa [field_zero])]
      exact ⟨rfl, rfl, fun _ => rfl⟩
    · rw [if_neg hv, if_neg (by rwa [field_zero])]
      exact ⟨by simp only [debugCsr, if_neg ha, if_neg hb, if_pos hk, cluAt_onClu_same, get_set, if_true]; rfl, rfl, fun _ => rfl⟩
  have hq : 0x220 ≤ n ∧ n ≤ 0x223 := by omega
  rw [if_neg hk, if_pos hq] at h
  rw [if_neg hk, if_pos hq]
  cases h
  rw [show field v 7 3 = v.toNat / 2 ^ 7 % 8 from rfl]
  by_cases hv : 5 ≤ v.toNat / 2 ^ 7 % 8
  · rw [if_pos hv, if_pos hv]
    exact ⟨rfl, rfl, fun _ => rfl⟩
  · rw [if_neg hv, if_neg hv]
    exact ⟨by simp only [debugCsr, if_neg ha, if_neg hb, if_neg hk, if_pos hq, cluAt_onClu_same, get_set, if_true]; rfl, rfl, fun _ => rfl⟩

/-- What a partition holds on a die reads as it was changed last (R137). -/
theorem partDie_onPartDie (s : State) (d p : Nat) (f : PartDie → PartDie) :
    partDie (dieAt (onPartDie s d p f) d) p = f (partDie (dieAt s d) p) := by
  simp only [onPartDie, dieAt_onDie_same]
  simp only [partDie, get_put, if_true]

/-- A region's attributes read as they were committed; those of the first two entries stay (R335, R336). -/
theorem commitRegion_attr (p : Package) (v : Word) (d : Region) :
    (get d (commitRegion p v).regions (commitRegion p v).mregsel.toNat).attr =
      if p.mregsel.toNat < 2 then (get d p.regions p.mregsel.toNat).attr else keepBits v 0x800000000003FFFF := by
  unfold commitRegion
  split
  · rfl
  · rw [get_put, if_pos rfl]

/-- trcctl written where no capture begins (R349, R351). -/
theorem setTraceCtl_quiet (s : State) (k : Nat) (v : BitVec 6) (h : (v.getLsbD 0 && !(cluAt s k).trace.ctl.getLsbD 0) = false) :
    setTraceCtl s k v = onClu s k (fun x => { x with trace := { x.trace with ctl := v } }) := by
  simp only [setTraceCtl, h, Bool.false_eq_true, if_false]

/-- A counter of the trace unit written. -/
abbrev countSet (k : Nat) (v : Word) (t : Trace) : Trace := { t with ctr := set 0 t.ctr k (v.setWidth 32) }

/-- A counter of the trace unit keeps 32 bits (R349). -/
theorem ctr_low (k : Nat) (m : SMap (BitVec 32)) (v : Word) : ((get 0 (set 0 m k (v.setWidth 32)) k).setWidth 64 : Word) = v &&& 0xFFFFFFFF := by
  rw [get_set, if_pos rfl]
  exact setWidth_setWidth_low v 0xFFFFFFFF 32 (by decide) (by decide)

theorem flag_low (v : Word) : BitVec.ofNat 64 (flagAt v 0).toNat = v &&& 1 := by
  rw [← ofNat_mod_low v 1 1 (by decide), flagAt, BitVec.getLsbD, Nat.testBit_zero, Nat.pow_one]
  rcases Nat.mod_two_eq_zero_or_one v.toNat with h | h <;> rw [h] <;> rfl

/-- A CSR of a unit reads what its table keeps of a write, which changes no context and no byte (R137, R333, R335, R346, R349). -/
theorem unitCsr_written {s : State} {n : Nat} {v w : Word} (h : unitCsrAfter s n v = some w) :
    unitWritten s (csrWrite s s.turn n v) n w := by
  by_cases hn : 0x208 ≤ n ∧ n ≤ 0x223
  · exact comparator_written hn h
  have die (f : Die → Die) := dieAt_onDie_same s (dieOf s.turn) f
  have part (f : PartDie → PartDie) := partDie_onPartDie s (dieOf s.turn) (ctxAt s s.turn).partid.toNat f
  have clu (f : Trace → Trace) : (cluAt (onClu s (cluOf s.turn) (fun x => { x with trace := f x.trace })) (cluOf s.turn)).trace =
    f (cluAt s (cluOf s.turn)).trace := congrArg Cluster.trace (cluAt_onClu_same s _ _)
  unfold unitCsrAfter at h
  dsimp only at h
  rw [if_neg (by omega), if_neg (by omega), if_neg (by omega)] at h
  split at h
  case h_1 => cases h; exact ⟨congrArg PartDie.eqbase (part (fun p => { p with eqbase := keepBits v _ })), rfl, fun _ => rfl⟩
  case h_2 => cases h; exact ⟨congrArg PartDie.ptvec (part (fun p => { p with ptvec := keepBits v _ })), rfl, fun _ => rfl⟩
  case h_3 => cases h; exact ⟨congrArg PartDie.pdump (part (fun p => { p with pdump := keepBits v _ })), rfl, fun _ => rfl⟩
  case h_4 => cases h; exact ⟨congrArg Die.hasid (die (fun d => { d with hasid := keepBits v _ })), rfl, fun _ => rfl⟩
  case h_5 => cases h; exact ⟨congrArg Die.hasvec (die (fun d => { d with hasvec := keepBits v _ })), rfl, fun _ => rfl⟩
  case h_6 => cases h; exact ⟨congrArg Die.hasroot (die (fun d => { d with hasroot := keepBits v _ })), rfl, fun _ => rfl⟩
  case h_7 => cases h; exact ⟨congrArg Die.hsave (die (fun d => { d with hsave := keepBits v _ })), rfl, fun _ => rfl⟩
  case h_8 | h_9 => cases h; exact ⟨setWidth_setWidth_low v 0x1FFF 13 (by decide) (by decide), rfl, fun _ => rfl⟩
  case h_10 => cases h; exact ⟨rfl, rfl, fun _ => rfl⟩
  case h_11 => cases h; exact ⟨rfl, rfl, fun _ => rfl⟩
  case h_12 => cases h; exact ⟨rfl, rfl, fun _ => rfl⟩
  case h_13 => cases h; exact ⟨commitRegion_attr s.pkg v { base := 0, lim := 0, attr := 0 }, rfl, fun _ => rfl⟩
  case h_14 => cases h; exact ⟨rfl, rfl, fun _ => rfl⟩
  case h_15 =>
    split at h
    · cases h
    · rename_i hq
      cases h
      have hq' : ((v.setWidth 6).getLsbD 0 && !(cluAt s (cluOf s.turn)).trace.ctl.getLsbD 0) = false := by
        simpa using hq
      have hw : csrWrite s s.turn 0x200 v = onClu (onClu s (cluOf s.turn) (fun x => { x with trace := { x.trace with ctl := v.setWidth 6 } }))
          (cluOf s.turn) (fun x => { x with trace := { x.trace with armed := false } }) := by rw [← setTraceCtl_quiet _ _ _ hq']; rfl
      rw [hw]
      refine ⟨?_, rfl, fun _ => rfl⟩
      change ((cluAt (onClu (onClu s _ _) _ _) (cluOf s.turn)).trace.ctl.setWidth 64 : Word) = _
      rw [cluAt_onClu_same, cluAt_onClu_same]
      exact setWidth_setWidth_low v 0x3F 6 (by decide) (by decide)
  case h_16 => cases h; exact ⟨(congrArg (fun t => ((get 0 t.ctr 0).setWidth 64 : Word)) (clu (countSet 0 v))).trans (ctr_low 0 _ v),
    rfl, fun _ => rfl⟩
  case h_17 => cases h; exact ⟨(congrArg (fun t => ((get 0 t.ctr 1).setWidth 64 : Word)) (clu (countSet 1 v))).trans (ctr_low 1 _ v),
    rfl, fun _ => rfl⟩
  case h_18 => cases h; exact ⟨congrArg Die.tsbase (die (fun d => { d with tsbase := keepBits v _ })), rfl, fun _ => rfl⟩
  case h_19 => cases h; exact ⟨congrArg Die.tslen (die (fun d => { d with tslen := keepBits v _ })), rfl, fun _ => rfl⟩
  case h_20 =>
    cases h
    refine ⟨(congrArg (fun t : Trace => BitVec.ofNat 64 t.dbgctl.toNat) (clu (fun t => { t with dbgctl := flagAt v 0 }))).trans ?_, rfl, fun _ => rfl⟩
    exact flag_low v
  case h_21 => cases h

/-! ## What a write leaves as it is -/

/-- A context after the write of a CSR: its registers, but for the tags that a tagw register names, its pc and the count of retired
instructions are as before (R37). -/
abbrev csrFrame (n : Nat) (x y : Ctx) : Prop :=
  y.regs.x = x.regs.x ∧ y.regs.v = x.regs.v ∧ y.regs.m = x.regs.m ∧ y.regs.h = x.regs.h ∧
    (n < 0x020 ∨ 0x026 ≤ n → y.regs.tag = x.regs.tag) ∧ (∀ r, r < 64 → n ≠ 0x020 + r / 12 → y.tag r = x.tag r) ∧
    y.pc = x.pc ∧ y.csr.retired = x.csr.retired

theorem csrFrame_of_regs {n : Nat} {x y : Ctx} (hr : y.regs = x.regs) (hp : y.pc = x.pc) (hc : y.csr.retired = x.csr.retired) :
    csrFrame n x y := by
  refine ⟨by rw [hr], by rw [hr], by rw [hr], by rw [hr], fun _ => by rw [hr], fun r _ _ => ?_, hp, hc⟩
  rw [Ctx.tag, hr, Ctx.tag]

/-- A user CSR that is no tagw register is among the CSRs of its context, and not the count of retired instructions (R49). -/
theorem writeUser_csr (x : Ctx) (n : Nat) (v : Word) (ht : ¬ (0x020 ≤ n ∧ n ≤ 0x025)) :
    ∃ u, writeUser x n v = { x with csr := u } ∧ u.retired = x.csr.retired := by
  unfold writeUser
  rw [if_neg ht]
  split
  · exact ⟨_, rfl, rfl⟩
  split
  case h_2 =>
    obtain ⟨l, hl⟩ := setVtype_frame x x.groups v
    exact ⟨_, hl, rfl⟩
  case h_9 =>
    split
    · exact ⟨x.csr, rfl, rfl⟩
    · exact ⟨_, rfl, rfl⟩
  case h_10 => exact ⟨x.csr, rfl, rfl⟩
  all_goals exact ⟨_, rfl, rfl⟩

theorem csrFrame_writeUser (x : Ctx) (n : Nat) (v : Word) : csrFrame n x (writeUser x n v) := by
  by_cases ht : 0x020 ≤ n ∧ n ≤ 0x025
  · have hw : writeUser x n v = setTags x v (span (12 * (n - 0x020)) (if n < 0x025 then 12 else 4)) := by
      unfold writeUser
      rw [if_neg (by omega), if_pos ht]
    obtain ⟨g, hg⟩ := setTags_frame v (span (12 * (n - 0x020)) (if n < 0x025 then 12 else 4)) x
    refine ⟨by rw [hw, hg], by rw [hw, hg], by rw [hw, hg], by rw [hw, hg], fun h => absurd ht (by omega), fun r hr hn => ?_,
      by rw [hw, hg], by rw [hw, hg]⟩
    rw [hw, tag_setTags, if_neg]
    rw [mem_span]
    split <;> omega
  · obtain ⟨u, hu, hr⟩ := writeUser_csr x n v ht
    rw [hu]
    exact csrFrame_of_regs rfl rfl hr

/-- The CSRs of a context, and those of the units, after a write that `csrAfter` or `unitCsrAfter` describes. -/
theorem csrWrite_spec {s : State} {n : Nat} {v w : Word} (ht : (me s).lap.trim = none)
    (h : csrAfter (me s) (me s).groups n v = some w ∨ unitCsrAfter s n v = some w) :
    let t := csrWrite s s.turn n v
    onlyCtx s t s.turn ∧ csrRead t s.turn n = w ∧ csrFrame n (me s) (ctxAt t s.turn) := by
  dsimp only
  rcases h with h | h
  · by_cases hn : n < 0x100
    · have hw : csrWrite s s.turn n v = onCtx s s.turn (fun x => writeUser x n v) := if_pos hn
      have hr : ∀ t, csrRead t s.turn n = userCsr t s.turn n := fun t => if_pos hn
      rw [hw, hr, ctxAt_onCtx_same]
      exact ⟨onlyCtx_withMe s _, userCsr_writeUser ht hn h, csrFrame_writeUser _ n v⟩
    · obtain ⟨hk, hb, hv⟩ := csrAfter_trap (by omega) h
      obtain ⟨l, hl⟩ : ∃ l, n = trapBase l + n % 0x40 := by
        rcases hb with hb | hb | hb
        · exact ⟨.k, hb⟩
        · exact ⟨.h, hb⟩
        · exact ⟨.m, hb⟩
      have hw := fun z => csr_trap z s.turn (n % 0x40) v l hk
      rw [← hl] at hw
      obtain ⟨hr, hp, hc⟩ := setTrap_frame (me s) l (setTrapWord ((me s).trap l) v (n % 0x40))
      rw [(hw s).1, (hw _).2, ctxAt_onCtx_same, trap_setTrap, hv]
      exact ⟨onlyCtx_withMe s _, rfl, csrFrame_of_regs hr hp (congrArg Csrs.retired hc)⟩
  · obtain ⟨hr, hm, hc⟩ := unitCsr_written h
    have hx : ctxAt (csrWrite s s.turn n v) s.turn = me s := hc s.turn
    rw [hx]
    exact ⟨⟨hm, fun k _ => hc k⟩, hr, csrFrame_of_regs rfl rfl rfl⟩

/-! ## The instructions -/

/-- A CSR that the context may write gives its old value and takes the new one (R155). -/
theorem runCsr_granted {s : State} {d : XReg} {n : Nat} {new : Word → Option Word} {v : Word} (i : Instr) (hh : (me s).held = none)
    (hv : new (csrRead s s.turn n) = some v) (hd : csrDenied s s.turn n (some v) = false) :
    runCsr i d n new s = csrWrite (withMe s (wentOn ((me s).setX d (csrRead s s.turn n)))) s.turn n v := by
  have hf : flushRun s s.turn = s := by unfold flushRun; rw [show (ctxAt s s.turn).held = none from hh]
  simp only [runCsr, hf, ite_self, hv, hd, Bool.false_eq_true, if_false]
  rfl

/-- Who may write a CSR that no request to the debug unit is (R29, R349). -/
theorem csrDenied_granted {s : State} {n : Nat} {v : Word} (h : granted s n true) (hb : below (me s) (leastLevel n) = false)
    (hn : n ≠ 0x260) : csrDenied s s.turn n (some v) = false := by
  have hm : ¬ (0x200 ≤ n ∧ n < 0x280) ∨ (if n = 0x262 then 2 else 1) ≤ grantOf s (me s).secure := by
    rcases h with h | h | h
    · exact .inl (by omega)
    · exact .inl (by omega)
    · exact .inr (by simpa using h)
  have hb' : (Nat.blt (ctxAt s s.turn).level.num (csrLevel n).num || (csrLevel n == .m && !(ctxAt s s.turn).secure)) = false := hb
  unfold csrDenied
  dsimp only
  rw [hb', Bool.false_or]
  rcases hm with hm | hm
  · rw [show (Decidable.decide (0x200 ≤ n) && Decidable.decide (n < 0x280)) = false by simpa using hm, Bool.false_and]
  · have h1 : Decidable.decide (grantOf s (ctxAt s s.turn).secure < 1) = false := by
      have : 1 ≤ if n = 0x262 then 2 else 1 := by split <;> decide
      exact decide_eq_false (Nat.not_lt.2 (this.trans hm))
    rw [h1, Bool.false_or]
    split
    · exact (Bool.and_eq_false_iff).2 (.inr (decide_eq_false (Nat.not_lt.2 hm)))
    · exact absurd rfl hn
    · exact Bool.and_false _

/-- What a CSR keeps of a write depends on the vtype and the width field of its context alone. -/
theorem csrAfter_congr {x y : Ctx} (ht : y.csr.vtype = x.csr.vtype) (hw : y.csr.wfield = x.csr.wfield) (g n : Nat) (v : Word) :
    csrAfter y g n v = csrAfter x g n v := by
  unfold csrAfter
  rw [ht, hw]

/-- No word that writes names a monitor (R28, R357). -/
theorem csrWritable_monitor {n : BitVec 12} (h : 0x300 ≤ n.toNat) : csrWritable n = false := by
  by_cases hn : n.toNat ≤ 0x33F
  · have : csrReadOnly n.toNat = true := by simp [csrReadOnly, h, hn]
    rw [csrWritable, this, Bool.not_true, Bool.and_false]
  · have : csrAssigned n.toNat = false := by simp [csrAssigned]; omega
    rw [csrWritable, this, Bool.false_and]

/-- Settles O19: at a sufficient level and grant the word is one write of the CSR, after its old value has gone to xd. -/
theorem csrWritesReadBack : Obligations.CsrWritesReadBack := by
  unfold Obligations.CsrWritesReadBack
  intro s i d a n v w old hi
  refine ⟨fun hn => ?_, fun h hg hb hh ht => ?_⟩
  · have hf := csrWritable_monitor hn
    rcases hi with ⟨rfl, -⟩ | ⟨rfl, -⟩ | ⟨rfl, -⟩ <;> exact (Bool.eq_false_iff.1 hf ·)
  have hn : n.toNat ≠ 0x260 := by
    intro e
    rw [e] at h
    rcases h with h | h <;> cases h
  let y := wentOn ((me s).setX d old)
  have hy : me (withMe s y) = y := ctxAt_withMe s y
  have hu : ((me s).setX d old).csr = (me s).csr := setX_csr _ _ _
  have he : exec i s = .next (csrWrite (withMe s y) s.turn n.toNat v) := by
    have hd := csrDenied_granted (v := v) hg hb hn
    rcases hi with ⟨rfl, rfl⟩ | ⟨rfl, rfl⟩ | ⟨rfl, rfl⟩
    · exact congrArg _ (runCsr_granted (new := fun _ => some ((me s).x a)) _ hh rfl hd)
    · exact congrArg _ (runCsr_granted (new := fun o => some (o ||| (me s).x a)) _ hh rfl hd)
    · exact congrArg _ (runCsr_granted (new := fun o => some (o &&& ~~~ (me s).x a)) _ hh rfl hd)
  have ha : csrAfter (me (withMe s y)) (me (withMe s y)).groups n.toNat v = some w ∨ unitCsrAfter (withMe s y) n.toNat v = some w := by
    rw [unitCsrAfter_withMe, hy, show y.groups = (me s).groups from setX_groups _ _ _,
      csrAfter_congr (x := me s) (y := y) (congrArg Csrs.vtype hu :) (congrArg Csrs.wfield hu :)]
    exact h
  obtain ⟨⟨hm, hc⟩, hr, hx, hv, hm', hh', ht1, ht2, hp, hret⟩ := csrWrite_spec (by rw [hy]; exact (congrArg Lap.trim (setX_lap _ _ _)).trans ht) ha
  refine ⟨_, he, ⟨hm, fun k hk => (hc k hk).trans ((onlyCtx_withMe s y).2 k hk)⟩, hr, ?_⟩
  rw [hy] at hx hv hm' hh' ht1 ht2 hp hret
  exact ⟨hx, hv.trans (setX_regs_v _ _ _), hm'.trans (setX_regs_m _ _ _), hh'.trans (setX_regs_h _ _ _),
    fun h => (ht1 h).trans (setX_regs_tag _ _ _), fun r hr hn => (ht2 r hr hn).trans (congrArg (get 0 · r) (setX_regs_tag _ _ _)),
    hp.trans (congrArg (· + 4) (setX_pc _ _ _)), hret.trans (congrArg (fun u => u.retired + 1) (setX_csr _ _ _))⟩

end Sys2Proof.Machine
end

section
namespace Sys2Proof.Machine

set_option Elab.async false

open Sys2Proof.Safety

/-! # An instruction of the vector queue at a plain point (R25, R26, R95, R163–R168)

The front issues it, it starts at once, does what `retireEffect` says on the state `startedState`, and retires: `exec_queued` says so once for
all instructions but the words of a run of VBFLY.H.f and the posts of BTN. -/

/-! ## A context without streams -/

section
variable {s : State} {c : Nat} {x : Ctx}

theorem boundSources_none (h : x.streams = []) (e : VEntry) : boundSources x e = [] := by
  simp [boundSources, h, find?]

theorem boundDests_none (h : x.streams = []) (e : VEntry) : boundDests x e = [] := by
  simp [boundDests, h, find?]

theorem deviceStreams_none (h : (ctxAt s c).streams = []) : deviceStreams s c = [] := by
  simp [deviceStreams, boundRegs, h, keys]

theorem drainDevice_none (h : (ctxAt s c).streams = []) : drainDevice s c = s := by
  unfold drainDevice; rw [deviceStreams_none h]

theorem appendAll_none (h : x.streams = []) (e : VEntry) (n : Nat) : appendAll x e n = x := by
  unfold appendAll; rw [boundDests_none h]; rfl

theorem endStep_streams (x : Ctx) : x.endStep.streams = x.streams := by
  obtain ⟨k, h, m, e⟩ := endStep_frame x
  rw [e]

/-- The checks of R25 depend on the streams of a context alone. -/
theorem typeOk_congr {x y : Ctx} (h : y.streams = x.streams) (sh : Shape) (vt : BitVec 17) (d a b : BitVec 5) :
    sh.typeOk y vt d a b = sh.typeOk x vt d a b := by
  simp only [Shape.typeOk, operandOk, groupOk, h]

end

/-! ## Issue and start -/

/-- The entry of an instruction in execution (R26, R168). -/
def startedEntry (x : Ctx) (i : Instr) (sh : Shape) : VEntry := { entryOf x i sh with popped := (batonWait i).isSome }

/-- The context that has issued an instruction, with the baton popped that it waits on (R52, R168). -/
def issuedCtx (x : Ctx) (i : Instr) : Ctx :=
  let y := { x with pc := x.pc + 4, csr := { x.csr with es := 0 } }
  match batonWait i with
  | some q => y.popOwn q
  | none => y

/-- The context whose instruction is in execution. -/
def startedCtx (x : Ctx) (i : Instr) (sh : Shape) : Ctx :=
  { issuedCtx x i with vq := [], vx := [startedEntry x i sh], waits := remove x.waits 1 }

/-- The state in which an instruction is in execution: a start of the vector unit is its core's last (R163, R164, R166). -/
def startedState (s : State) (i : Instr) (sh : Shape) : State :=
  let t := setCtx s s.turn (startedCtx (me s) i sh)
  if accessEngine i then t
  else onCore t (coreOf s.turn) (fun k =>
    { k with pipeSecure := (me s).secure, lastIssuer := s.turn % 4, lastStart := cycleOf s s.turn })

/-- A pop of a baton changes the batons and the count of those that the lap has popped. -/
theorem popOwn_frame (x : Ctx) (q : Nat) : ∃ b o r l, x.popOwn q =
    { x with batons := b, owed := o, reserve := r, lap := { x.lap with popped := l } } := by
  unfold Ctx.popOwn Ctx.pop
  dsimp only
  split
  · exact ⟨x.batons, _, x.reserve, _, rfl⟩
  · exact ⟨_, x.owed, _, _, rfl⟩

/-- What issuing and starting leave as they are. -/
theorem issuedCtx_frame (x : Ctx) (i : Instr) : ∃ b o r l, issuedCtx x i =
    { x with pc := x.pc + 4, csr := { x.csr with es := 0 }, batons := b, owed := o, reserve := r, lap := { x.lap with popped := l } } := by
  unfold issuedCtx
  dsimp only
  split
  · exact popOwn_frame _ _
  · exact ⟨x.batons, x.owed, x.reserve, x.lap.popped, rfl⟩

/-- A pop leaves no more batons in any queue. -/
theorem batons_popOwn_le (x : Ctx) (q k : Nat) : get 0 (x.popOwn q).batons k ≤ get 0 x.batons k := by
  unfold Ctx.popOwn Ctx.pop
  dsimp only
  split
  · exact Nat.le_refl _
  · rw [get_set]
    split
    · subst_vars; omega
    · exact Nat.le_refl _

theorem batons_issuedCtx_le (x : Ctx) (i : Instr) (k : Nat) : get 0 (issuedCtx x i).batons k ≤ get 0 x.batons k := by
  unfold issuedCtx
  dsimp only
  split
  · exact batons_popOwn_le _ _ _
  · exact Nat.le_refl _

@[simp] theorem ctxAt_startedState (s : State) (i : Instr) (sh : Shape) :
    ctxAt (startedState s i sh) s.turn = startedCtx (me s) i sh := by
  unfold startedState
  dsimp only
  split
  · exact ctxAt_setCtx_same _ _ _
  · rw [ctxAt_onCore, ctxAt_setCtx_same]

theorem ctxAt_startedState_other (s : State) (i : Instr) (sh : Shape) {k : Nat} (h : k ≠ s.turn) :
    ctxAt (startedState s i sh) k = ctxAt s k := by
  unfold startedState
  dsimp only
  split
  · rw [ctxAt_setCtx, if_neg h]
  · rw [ctxAt_onCore, ctxAt_setCtx, if_neg h]

/-- A started instruction has changed nothing but its context and the notes of its core. -/
theorem startedState_frame (s : State) (i : Instr) (sh : Shape) :
    (startedState s i sh).mem = s.mem ∧ (startedState s i sh).dies = s.dies ∧ (startedState s i sh).clus = s.clus ∧
      (startedState s i sh).pkg = s.pkg ∧ (startedState s i sh).turn = s.turn ∧ (startedState s i sh).defer = s.defer ∧
      (startedState s i sh).steps = s.steps := by
  unfold startedState
  dsimp only
  split <;> exact ⟨rfl, rfl, rfl, rfl, rfl, rfl, rfl⟩

/-- The state of an issued instruction: it stands alone in its queue. -/
def queuedState (s : State) (i : Instr) (sh : Shape) : State :=
  setCtx s s.turn { me s with pc := (me s).pc + 4, vq := [entryOf (me s) i sh], csr := { (me s).csr with es := 0 } }

/-- The world of the pipeline is judged by what is in execution, not by what is queued. -/
theorem pipeHolds_queuedState (s : State) (i : Instr) (sh : Shape) (k : Nat) (w : Bool) :
    pipeHolds (queuedState s i sh) k w = pipeHolds s k w := by
  have h (c : Nat) : ((ctxAt (queuedState s i sh) c).secure = (ctxAt s c).secure) ∧
      ((ctxAt (queuedState s i sh) c).held = (ctxAt s c).held) ∧ ((ctxAt (queuedState s i sh) c).vx = (ctxAt s c).vx) := by
    unfold queuedState
    rw [ctxAt_setCtx]
    split
    · subst_vars; exact ⟨rfl, rfl, rfl⟩
    · exact ⟨rfl, rfl, rfl⟩
  simp only [pipeHolds, h]

end Sys2Proof.Machine
end

section
namespace Sys2Proof.Machine

set_option Elab.async false

open Sys2Proof.Safety

/-! # The head of the vector queue starts (R163–R168) -/

/-- The pipeline lets in a ready instruction's world (R166). -/
theorem worldAllows_queuedState {s : State} {i : Instr} {sh : Shape} (h : vectorReady s i sh) :
    worldAllows (queuedState s i sh) s.turn (entryOf (me s) i sh) = true := by
  obtain ⟨-, -, hd, -, hw⟩ := h
  have hsec : (ctxAt (queuedState s i sh) s.turn).secure = (me s).secure := by
    rw [queuedState, ctxAt_setCtx_same]
  have hdef : (queuedState s i sh).defer = false := hd
  simp only [worldAllows, pipeHolds_queuedState, hsec, hdef]
  show (accessEngine i || (((coreAt s (coreOf s.turn)).pipeSecure == (me s).secure ||
    (!false && !pipeHolds s (coreOf s.turn) (coreAt s (coreOf s.turn)).pipeSecure)) &&
    Decidable.decide (0 < (coreAt s (coreOf s.turn)).groups))) = true
  obtain ha | ⟨hg, hp | hp⟩ := hw
  · simp [ha]
  · simp [hg, hp]
  · simp [hg, hp]

/-- The queued instruction leaves its queue with its baton. -/
theorem startedCtx_eq {x : Ctx} (hvx : x.vx = []) (i : Instr) (sh : Shape) :
    startedCtx x i sh =
      let y : Ctx := { x with pc := x.pc + 4, vq := [entryOf x i sh], csr := { x.csr with es := 0 } }
      let z := match batonWait i with
        | some q => y.popOwn q
        | none => y
      { z with vq := [], vx := z.vx ++ [startedEntry x i sh], waits := remove z.waits 1 } := by
  dsimp only [startedCtx, issuedCtx]
  cases batonWait i with
  | none => simp [hvx]
  | some q =>
    unfold Ctx.popOwn Ctx.pop
    dsimp only
    split <;> simp [hvx]

/-- A ready instruction that stands alone in its queue starts. -/
theorem startHead_queuedState {s : State} {i : Instr} {sh : Shape} (h : vectorReady s i sh) (hb : batonsReady (me s) i) :
    startHead (queuedState s i sh) s.turn = some (startedState s i sh) := by
  have hworld := worldAllows_queuedState h
  obtain ⟨⟨hocc, hvx, hvq, hst, hheld, -, -, -, hstop⟩, hsh, hd, -, hw⟩ := h
  let e := entryOf (me s) i sh
  let y : Ctx := { me s with pc := (me s).pc + 4, vq := [e], csr := { (me s).csr with es := 0 } }
  have hy : ctxAt (queuedState s i sh) s.turn = y := ctxAt_setCtx_same _ _ _
  have hq : (ctxAt (queuedState s i sh) s.turn).vq = [e] := by rw [hy]
  have hd' : (queuedState s i sh).defer = false := hd
  have hroom : roomFor (fillFor (queuedState s i sh) s.turn e.bound sourceReady
      (fillable (queuedState s i sh) s.turn e)) s.turn e = queuedState s i sh := by
    have hf : fillable (queuedState s i sh) s.turn e = [] := by
      rw [fillable, hy, boundSources_none (x := y) hst]; rfl
    rw [hf, fillFor, roomFor, hy, boundDests_none (x := y) hst]; rfl
  have hgo : y.unitsGo = true := by
    show ((me s).occ == .running && ((me s).stopping.isNone || _)) = true
    rw [hocc, hstop]; rfl
  have hunit : unitRoom y = true := by simp [unitRoom, y, hvx, hheld]
  have hbat : batonReady y i = true := by
    unfold batonReady
    split
    next q hq =>
      have := hb.1 q hq
      have ht : y.tokens q = get 0 (me s).batons q + get 0 (me s).owed q := rfl
      simp only [ht, decide_eq_true_eq]
      omega
    · rfl
  have hchain : chainReady (queuedState s i sh) s.turn e = true := by
    rw [chainReady, hy, show y.vx = [] from hvx]; rfl
  have hsrc : boundSources y e = [] := boundSources_none (x := y) hst e
  have hdst : boundDests y e = [] := boundDests_none (x := y) hst e
  unfold startHead
  rw [hq]
  simp only [hd', Bool.false_eq_true, if_false, hroom, hy]
  rw [if_pos]
  · congr 1
    have hset (z : Ctx) : setCtx (queuedState s i sh) s.turn z = setCtx s s.turn z := setCtx_setCtx _ _ _ _
    have hsec : (match batonWait i with
      | some q => y.popOwn q
      | none => y).secure = (me s).secure := by
      split
      · obtain ⟨b, o, r, l, h⟩ := popOwn_frame y ‹_›
        rw [h]
      · rfl
    unfold startedState
    rw [startedCtx_eq hvx]
    dsimp only
    rw [hset]
    show (if accessEngine i = true then _ else _) = _
    refine ite_congr rfl (fun _ => rfl) (fun _ => ?_)
    exact congrArg (fun b => onCore _ _ (fun k : Core => { k with pipeSecure := b, lastIssuer := _, lastStart := _ })) hsec
  · refine ⟨hgo, hunit, hworld, hbat, ?_, ?_, hchain, ?_⟩
    · rw [hsrc]; rfl
    · rw [hdst]; rfl
    · rw [show y.vx = [] from hvx]; simp

end Sys2Proof.Machine
end

section
namespace Sys2Proof.Machine

set_option Elab.async false

open Sys2Proof.Safety

/-! ## Retirement -/

/-- A context whose oldest instruction has done its work and left: its step-over ends, its baton is posted, its flags are noted (R95,
R144, R168). -/
def leftCtx (x : Ctx) (e : VEntry) (fl : Flags) : Ctx :=
  let y := match batonPost e.instr with
    | some q => wakeWfeFor q (x.endStep.post q)
    | none => x.endStep
  { y with vx := y.vx.drop 1, waits := if y.passed = 0 then remove y.waits 2 else y.waits
           csr := { y.csr with fflags := y.csr.fflags ||| fl ||| e.flags, retired := y.csr.retired + 1 } }

theorem leftCtx_streams {x : Ctx} {e : VEntry} {fl : Flags} (h : x.streams = []) : (leftCtx x e fl).streams = [] := by
  have hs := (endStep_streams x).trans h
  unfold leftCtx wakeWfeFor wakeWfe
  dsimp only
  split
  · split
    · split <;> exact hs
    · exact hs
  · exact hs

/-- An instruction leaves a context without streams: nothing is appended. -/
theorem leaveUnit_spec {t : State} {c : Nat} {e : VEntry} (hr : staysInRun e.instr = false) (hst : (ctxAt t c).streams = [])
    (fl : Flags) :
    (leaveUnit t c e fl).mem = t.mem ∧ (∀ k, k ≠ c → ctxAt (leaveUnit t c e fl) k = ctxAt t k) ∧
      (leaveUnit t c e fl).pkg = t.pkg ∧ ctxAt (leaveUnit t c e fl) c = leftCtx (ctxAt t c) e fl := by
  unfold leaveUnit
  split
  · simp [staysInRun, *] at hr
  · obtain ⟨hm, hc, hp, -⟩ := noteHits_spec t c 1 (fun a b => a.toNat ≤ e.addr.toNat && e.addr.toNat < b.toNat)
    dsimp only
    refine ⟨hm, fun k hk => ?_, hp, ?_⟩
    · rw [ctxAt_onCtx, if_neg hk, hc]
    · rw [ctxAt_onCtx_same, hc]
      have ha (n : Nat) : appendAll (ctxAt t c).endStep e n = (ctxAt t c).endStep :=
        appendAll_none ((endStep_streams _).trans hst) e n
      rw [ha]
      rfl

theorem keepPops_other {e : VEntry} (hr : staysInRun e.instr = false) (old x : Ctx) : keepPops old e x = x := by
  unfold keepPops
  split
  · simp [staysInRun, *] at hr
  · rfl

theorem noteChecked_frame (s : State) (c n : Nat) :
    (noteChecked s c n).mem = s.mem ∧ (∀ k, ctxAt (noteChecked s c n) k = ctxAt s k) ∧ (noteChecked s c n).pkg = s.pkg := by
  unfold noteChecked
  split <;> exact ⟨rfl, fun _ => rfl, rfl⟩

theorem keepWritten_fresh {e : VEntry} (h : e.begun = false) (old x : Ctx) : keepWritten old e x = x := by
  unfold keepWritten
  rw [h]

theorem startedCtx_streams {x : Ctx} (h : x.streams = []) (i : Instr) (sh : Shape) : (startedCtx x i sh).streams = [] := by
  obtain ⟨b, o, r, l, e⟩ := issuedCtx_frame x i
  rw [startedCtx, e]; exact h

theorem startedCtx_held {x : Ctx} (h : x.held = none) (i : Instr) (sh : Shape) : (startedCtx x i sh).held = none := by
  obtain ⟨b, o, r, l, e⟩ := issuedCtx_frame x i
  rw [startedCtx, e]; exact h

theorem setCtx_onCore (s : State) (k c : Nat) (f : Core → Core) (x : Ctx) :
    setCtx (onCore s k f) c x = onCore (setCtx s c x) k f := rfl

theorem onCtx_startedState (s : State) (i : Instr) (sh : Shape) {f : Ctx → Ctx}
    (h : f (startedCtx (me s) i sh) = startedCtx (me s) i sh) : onCtx (startedState s i sh) s.turn f = startedState s i sh := by
  rw [onCtx_eq, ctxAt_startedState, h]
  unfold startedState
  dsimp only
  split
  · exact setCtx_setCtx _ _ _ _
  · rw [setCtx_onCore, setCtx_setCtx]

/-- What the retirement of the instruction in execution leaves, from the state after its effect. -/
structure Retires (s t u : State) (e : VEntry) (fl : Flags) : Prop where
  mem : u.mem = t.mem
  other : ∀ k, k ≠ s.turn → ctxAt u k = ctxAt t k
  pkg : u.pkg = t.pkg
  own : ctxAt u s.turn = leftCtx (ctxAt t s.turn) e fl

/-- The instruction in execution of a started state does its work and retires. -/
theorem retireOldest_startedState {s : State} {i : Instr} {sh : Shape} {t : State} {fl : Flags} (h : vectorReady s i sh)
    (hp : postsByBtn i = false) (hr : staysInRun i = false)
    (he : retireEffect i (startedState s i sh) s.turn (startedEntry (me s) i sh) = .done t fl)
    (hst : (ctxAt t s.turn).streams = []) :
    ∃ u, retireOldest (startedState s i sh) s.turn = .moved u ∧ Retires s t u (startedEntry (me s) i sh) fl := by
  obtain ⟨⟨-, -, -, hst0, hheld, -, -, -, -⟩, hsh, hd, hty, -⟩ := h
  have hs0 : (ctxAt (startedState s i sh) s.turn).streams = [] := by
    rw [ctxAt_startedState]; exact startedCtx_streams hst0 i sh
  have hdef : (startedState s i sh).defer = false := (startedState_frame s i sh).2.2.2.2.2.1.trans hd
  have hvx : (startedCtx (me s) i sh).vx = [startedEntry (me s) i sh] := rfl
  have hh : (ctxAt (startedState s i sh) s.turn).held = none := by
    rw [ctxAt_startedState]; exact startedCtx_held hheld i sh
  have hi : (startedEntry (me s) i sh).instr = i := rfl
  have hok : entryOk (startedCtx (me s) i sh) (startedEntry (me s) i sh) = true := by
    unfold entryOk
    rw [hi, hsh]
    exact (typeOk_congr ((startedCtx_streams hst0 i sh).trans hst0.symm) sh _ _ _ _).trans hty
  have hbs := boundSources_none (startedCtx_streams hst0 i sh) (startedEntry (me s) i sh)
  have hdrain : drainDevice (startedState s i sh) s.turn = startedState s i sh := drainDevice_none hs0
  have hdev : deviceStreams (startedState s i sh) s.turn = [] := deviceStreams_none hs0
  have hend : endRunBefore (startedState s i sh) s.turn i true = startedState s i sh := by
    unfold endRunBefore; rw [hh]
  have hpop : onCtx (startedState s i sh) s.turn (fun x => keepWritten (startedCtx (me s) i sh) (startedEntry (me s) i sh)
      (popStreams x (boundSources x (startedEntry (me s) i sh)))) = startedState s i sh :=
    onCtx_startedState s i sh ((keepWritten_fresh rfl _ _).trans (by rw [hbs]; rfl))
  have hwords : (startedCtx (me s) i sh).runWords = [] := by
    unfold Ctx.runWords; rw [startedCtx_held hheld]
  let t' := onCtx t s.turn (keepPops (startedCtx (me s) i sh) (startedEntry (me s) i sh))
  have ht' (k : Nat) : ctxAt t' k = ctxAt t k := by
    rw [ctxAt_onCtx, keepPops_other (e := startedEntry (me s) i sh) hr]
    split
    · subst_vars; rfl
    · rfl
  obtain ⟨l1, l2, l3, l4⟩ := leaveUnit_spec (t := t') (c := s.turn) (e := startedEntry (me s) i sh) hr ((congrArg Ctx.streams (ht' _)).trans hst) fl
  let n := candidates (startedCtx (me s) i sh) (startedEntry (me s) i sh)
  obtain ⟨m1, m2, m3⟩ := noteChecked_frame (leaveUnit t' s.turn (startedEntry (me s) i sh) fl) s.turn n
  let u := noteChecked (leaveUnit t' s.turn (startedEntry (me s) i sh) fl) s.turn n
  have hown : ctxAt u s.turn = leftCtx (ctxAt t s.turn) (startedEntry (me s) i sh) fl := by
    rw [m2, l4, ht']
  have hu : drainDevice u s.turn = u := drainDevice_none (by rw [hown]; exact leftCtx_streams hst)
  unfold retireOldest
  simp only [hdrain, ctxAt_startedState, hvx, hdev, hdef, hbs, List.isEmpty_nil, Bool.not_true, Bool.and_false, Bool.false_eq_true,
    if_false, hwords, noteWords, List.foldl_nil, ite_self, fillFor, List.all_nil, popFaults, hi, hp, hok, hend, hpop, if_true, he]
  exact ⟨u, congrArg Retired.moved hu, m1.trans l1, fun k hk => (m2 k).trans ((l2 k hk).trans (ht' k)), m3.trans l3, hown⟩

/-! ## From issue to retirement -/

theorem postRoom_startedCtx {x : Ctx} {i : Instr} (hb : batonsReady x i) (sh : Shape) : postRoom (startedCtx x i sh) i = true := by
  unfold postRoom
  split
  next q hq =>
    have h1 := hb.2 q hq
    have h2 := batons_issuedCtx_le x i q
    have hn : (startedCtx x i sh).batons = (issuedCtx x i).batons := rfl
    unfold batonRoom
    rw [hn]
    simp only [decide_eq_true_eq]
    split <;> omega
  · rfl

theorem startedCtx_unitsGo {x : Ctx} (ho : x.occ = .running) (hs : x.stopping = none) (i : Instr) (sh : Shape) :
    (startedCtx x i sh).unitsGo = true := by
  obtain ⟨b, o, r, l, e⟩ := issuedCtx_frame x i
  rw [startedCtx, e]
  show (x.occ == .running && (x.stopping.isNone || _)) = true
  rw [ho, hs]; rfl

/-- The context that has left stands with empty queues, since its instruction stood alone. -/
theorem leftCtx_queues {x : Ctx} {e h : VEntry} {fl : Flags} (hvx : x.vx = [h]) (hvq : x.vq = []) :
    (leftCtx x e fl).vx = [] ∧ (leftCtx x e fl).vq = [] := by
  obtain ⟨k, l, m, hx⟩ := endStep_frame x
  unfold leftCtx wakeWfeFor wakeWfe
  rw [hx]
  dsimp only
  split
  · split
    · split <;> exact ⟨congrArg (List.drop 1) hvx, hvq⟩
    · exact ⟨congrArg (List.drop 1) hvx, hvq⟩
  · exact ⟨congrArg (List.drop 1) hvx, hvq⟩

/-- An instruction of the vector queue at a plain point is issued, starts, does its work and retires. -/
theorem exec_queued {s : State} {i : Instr} {sh : Shape} {t : State} {fl : Flags} (hx : exec i s = issue i s)
    (h : vectorReady s i sh) (hb : batonsReady (me s) i) (hp : postsByBtn i = false) (hr : staysInRun i = false)
    (he : retireEffect i (startedState s i sh) s.turn (startedEntry (me s) i sh) = .done t fl)
    (hst : (ctxAt t s.turn).streams = []) (hvq : (ctxAt t s.turn).vq = [])
    (hvx : (ctxAt t s.turn).vx = [startedEntry (me s) i sh]) :
    ∃ u, exec i s = .next u ∧ Retires s t u (startedEntry (me s) i sh) fl := by
  obtain ⟨u, hu, hret⟩ := retireOldest_startedState h hp hr he hst
  have hstart := startHead_queuedState h hb
  obtain ⟨⟨hocc, hvx0, hvq0, hst0, hheld, -, -, -, hstop⟩, hsh, hd, hty, -⟩ := h
  refine ⟨u, ?_, hret⟩
  obtain ⟨ux, uq⟩ := leftCtx_queues (e := startedEntry (me s) i sh) (fl := fl) hvx hvq
  rw [← hret.own] at ux uq
  let y : Ctx := { me s with pc := (me s).pc + 4, vq := [entryOf (me s) i sh], csr := { (me s).csr with es := 0 } }
  have hy : ctxAt (queuedState s i sh) s.turn = y := ctxAt_setCtx_same _ _ _
  have hdrain : drainDevice (queuedState s i sh) s.turn = queuedState s i sh := drainDevice_none (by rw [hy]; exact hst0)
  have hq : setCtx s s.turn { me s with pc := (me s).pc + 4, vq := (me s).vq ++ [entryOf (me s) i sh], csr := { (me s).csr with es := 0 } } =
      queuedState s i sh := by rw [hvq0]; rfl
  have hgo : goQueue (queuedState s i sh) s.turn = runQueue (queuedState s i sh) s.turn 3 := by
    unfold goQueue
    rw [hdrain]
    dsimp only
    rw [hy, show y.vx = [] from hvx0]
    exact if_neg (by rw [show (queuedState s i sh).defer = false from hd]; exact Bool.false_ne_true)
  have hretire : retireHead (startedState s i sh) s.turn = .moved u := by
    unfold retireHead
    rw [ctxAt_startedState]
    show (if !(startedCtx (me s) i sh).unitsGo then _ else if postRoom (startedCtx (me s) i sh) i then _ else _) = _
    rw [startedCtx_unitsGo hocc hstop, postRoom_startedCtx hb]
    exact hu
  have hrun3 : runQueue (queuedState s i sh) s.turn 3 = runQueue (startedState s i sh) s.turn 2 := by
    rw [runQueue, hy, show y.vx = [] from hvx0]
    show (match startHead (queuedState s i sh) s.turn with
      | some s' => runQueue s' s.turn 2
      | none => queuedState s i sh) = _
    rw [hstart]
  have hrun2 : runQueue (startedState s i sh) s.turn 2 = runQueue u s.turn 1 := by
    rw [runQueue, ctxAt_startedState]
    show (match retireHead (startedState s i sh) s.turn with
      | .moved s' => runQueue s' s.turn 1
      | .ended s' => s'
      | .stuck s' => _) = _
    rw [hretire]
  have hrun1 : runQueue u s.turn 1 = u := by
    rw [runQueue, ux]
    show (match startHead u s.turn with
      | some s' => runQueue s' s.turn 0
      | none => u) = _
    have : startHead u s.turn = none := by unfold startHead; rw [uq]
    rw [this]
  rw [hx, issue, hsh]
  show (if !sh.typeOk (me s) (me s).csr.vtype (tagOr (me s) sh.d) (tagOr (me s) sh.a) (tagOr (me s) sh.b) then _
    else if !queueRoom (me s) then _ else Host.Outcome.next (goQueue (setCtx s s.turn _) s.turn)) = _
  rw [hty, show queueRoom (me s) = true by simp [queueRoom, hvq0]]
  refine congrArg Host.Outcome.next ((congrArg (goQueue · s.turn) hq).trans ?_)
  rw [hgo, hrun3, hrun2, hrun1]

/-! ## What the context is afterwards -/

/-- The context of an instruction that has worked on its registers and its lap alone. -/
def workedCtx (x : Ctx) (i : Instr) (sh : Shape) (r : Regs) (l : Lap) : Ctx := { startedCtx x i sh with regs := r, lap := l }

theorem wakeWfeFor_parkNone {x : Ctx} (h : x.park = .none) (q : Nat) : wakeWfeFor q x = x := by
  unfold wakeWfeFor wakeWfe
  rw [h]
  exact ite_self _

/-- The end of a step-over looks at the traps and at the step-over alone. -/
theorem endStep_traps {x y : Ctx} (ho : y.stepOver = x.stepOver) (hk : y.trapK = x.trapK) (hh : y.trapH = x.trapH)
    (hm : y.trapM = x.trapM) :
    y.endStep.trapK = x.endStep.trapK ∧ y.endStep.trapH = x.endStep.trapH ∧ y.endStep.trapM = x.endStep.trapM := by
  unfold Ctx.endStep
  rw [ho]
  split
  · exact ⟨hk, hh, hm⟩
  next o _ =>
    obtain ⟨l, n⟩ := o
    cases l <;> simp only [Ctx.trap, Ctx.setTrap, hk, hh, hm, and_self]

/-- A context that its instruction has left, but for its traps, its batons and its waits. -/
theorem leftCtx_frame {x : Ctx} (hp : x.park = .none) (e : VEntry) (fl : Flags) : ∃ v, leftCtx x e fl =
    { x.endStep with
      vx := x.vx.drop 1, waits := v
      batons := match batonPost e.instr with
        | some q => set 0 x.batons q (get 0 x.batons q + 1)
        | none => x.batons
      csr := { x.csr with fflags := x.csr.fflags ||| fl ||| e.flags, retired := x.csr.retired + 1 } } := by
  obtain ⟨k, h, m, hx⟩ := endStep_frame x
  unfold leftCtx
  rw [hx]
  cases batonPost e.instr with
  | none => exact ⟨_, rfl⟩
  | some q =>
    dsimp only
    rw [wakeWfeFor_parkNone (by exact hp)]
    exact ⟨_, rfl⟩

/-- Room for one register that an instruction posts to, and one baton popped from the register that it waits on (R168). -/
theorem batonsMoved_of {x y : Ctx} {i : Instr} (sh : Shape) (hb : batonsReady x i) (ho : x.owed = [])
    (hy : y.batons = match batonPost i with
      | some q => set 0 (startedCtx x i sh).batons q (get 0 (startedCtx x i sh).batons q + 1)
      | none => (startedCtx x i sh).batons) : batonsMoved x y i := by
  have hpop (k : Nat) : get 0 (startedCtx x i sh).batons k + (if batonWait i = some k then 1 else 0) = get 0 x.batons k := by
    have h1 : (startedCtx x i sh).batons = (issuedCtx x i).batons := rfl
    rw [h1]
    unfold issuedCtx
    cases hw : batonWait i with
    | none => simp
    | some q =>
      have hq := hb.1 q hw
      dsimp only
      unfold Ctx.popOwn Ctx.pop
      dsimp only
      rw [ho, if_neg (by simp [get, find?])]
      dsimp only
      rw [get_set]
      by_cases hk : k = q
      · subst hk; simp; omega
      · have : ¬ q = k := fun e => hk e.symm
        simp [hk, this]
  intro k
  rw [← hpop k, hy]
  cases hp : batonPost i with
  | none => simp
  | some q =>
    dsimp only
    rw [get_set]
    by_cases hk : k = q
    · subst hk; simp; omega
    · have : ¬ q = k := fun e => hk e.symm
      simp [hk, this]

/-- What a retired instruction leaves of its context when it has worked on the registers and the lap alone and has raised no flag. -/
theorem leftCtx_workedCtx {x : Ctx} {i : Instr} (hp : x.park = .none) (sh : Shape) (r : Regs) (l : Lap) (hb : batonsReady x i)
    (ho : x.owed = []) (hr : r.c = x.regs.c ∧ r.t = x.regs.t ∧ r.h = x.regs.h ∧ r.hb = x.regs.hb ∧ r.tag = x.regs.tag) :
    queueDone x (leftCtx (workedCtx x i sh r l) (startedEntry x i sh) 0) ∧
      batonsMoved x (leftCtx (workedCtx x i sh r l) (startedEntry x i sh) 0) i ∧
      (leftCtx (workedCtx x i sh r l) (startedEntry x i sh) 0).regs = r ∧
      (leftCtx (workedCtx x i sh r l) (startedEntry x i sh) 0).lap = l := by
  obtain ⟨b, o, w, p, hi⟩ := issuedCtx_frame x i
  have hpark : (workedCtx x i sh r l).park = .none := by rw [workedCtx, startedCtx, hi]; exact hp
  obtain ⟨v, hv⟩ := leftCtx_frame hpark (startedEntry x i sh) 0
  obtain ⟨h1, h2, h3, h4, h5⟩ := hr
  obtain ⟨t1, t2, t3⟩ : (workedCtx x i sh r l).endStep.trapK = x.endStep.trapK ∧
      (workedCtx x i sh r l).endStep.trapH = x.endStep.trapH ∧ (workedCtx x i sh r l).endStep.trapM = x.endStep.trapM :=
    endStep_traps (by rw [workedCtx, startedCtx, hi]) (by rw [workedCtx, startedCtx, hi]) (by rw [workedCtx, startedCtx, hi])
      (by rw [workedCtx, startedCtx, hi])
  have hfl (f : Flags) : f ||| 0 ||| 0 = f := by simp
  rw [hv]
  obtain ⟨k, h, m, he⟩ := endStep_frame (workedCtx x i sh r l)
  have hw : workedCtx x i sh r l = { x with
    regs := r, lap := l, pc := x.pc + 4, csr := { x.csr with es := 0 }, batons := b, owed := o, reserve := w, vq := []
    vx := [startedEntry x i sh], waits := (workedCtx x i sh r l).waits } := by rw [workedCtx, startedCtx, hi]
  refine ⟨⟨?_, ?_, ?_, ?_, ?_, ?_, ?_, ?_, ?_, t1, t2, t3, ?_, ?_⟩, ?_, ?_, ?_⟩
  · rw [he, hw]
  · rw [he, hw]
  · rw [hw]; rfl
  · rw [hw]; exact congrArg (fun f => ({ x.csr with fflags := f, retired := x.csr.retired + 1, es := 0 } : Csrs)) (hfl _)
  · rw [he, hw]; exact h1
  · rw [he, hw]; exact h2
  · rw [he, hw]; exact h3
  · rw [he, hw]; exact h4
  · rw [he, hw]; exact h5
  · rw [he, hw]
  · rw [he, hw]
  · exact batonsMoved_of sh hb ho rfl
  · rw [he, hw]
  · rw [he, hw]

end Sys2Proof.Machine
end

section
namespace Sys2Proof.Machine

set_option Elab.async false

open Sys2Proof.Safety

/-! # Mask registers bit by bit (R45, R104, R132) -/

/-- A field of a register written, bit by bit. -/
theorem getLsbD_setField (v : VReg) (lo w b k : Nat) (hk : k < 16384) :
    (setField v lo w b).getLsbD k = if lo ≤ k ∧ k < lo + w then b.testBit (k - lo) else v.getLsbD k := by
  unfold setField
  by_cases h1 : lo ≤ k
  · by_cases h2 : k < lo + w
    · have h3 : k - lo < w := by omega
      have h4 : k - lo < 16384 := by omega
      have h5 : (BitVec.ofNat w b).getLsbD (k - lo) = b.testBit (k - lo) := by rw [BitVec.getLsbD_ofNat]; simp [h3]
      simpa [hk, h1, h2, h3, h4, Nat.not_lt.mpr h1] using h5
    · have h3 : ¬ k - lo < w := by omega
      simp [hk, h1, h2, h3, BitVec.getLsbD_ofNat, BitVec.getLsbD_allOnes]
  · have h3 : k < lo := by omega
    simp [hk, h1, h3]

theorem getLsbD_keepLow (v : VReg) (n k : Nat) (hk : k < 16384) :
    (keepLow v n).getLsbD k = (Decidable.decide (k < n) && v.getLsbD k) := by
  unfold keepLow
  split
  · have : k < n := by omega
    simp [this]
  · simp [hk, BitVec.getLsbD_setWidth]

/-! ## Mask bits written and the tail of a mask -/

/-- A context whose mask registers but one are as before, and nothing else but that one has changed. -/
def onlyMask (x y : Ctx) (d : Nat) : Prop := ∃ m, y = { x with regs := { x.regs with m := m } } ∧ ∀ r, r ≠ d → y.m r = x.m r

theorem onlyMask_refl (x : Ctx) (d : Nat) : onlyMask x x d := ⟨x.regs.m, rfl, fun _ _ => rfl⟩

theorem onlyMask_setM {x y : Ctx} {d : Nat} (h : onlyMask x y d) (b : VReg) : onlyMask x (y.setM d b) d := by
  obtain ⟨m, rfl, hr⟩ := h
  exact ⟨_, rfl, fun r hd => by rw [m_setM, if_neg hd, hr r hd]⟩

theorem onlyMask_setMaskBits {x : Ctx} {d : Nat} (l : List (Nat × Bool)) {y : Ctx} (h : onlyMask x y d) :
    onlyMask x (setMaskBits y d l) d := by
  induction l generalizing y with
  | nil => exact h
  | cons p l ih => exact ih (onlyMask_setM h _)

theorem onlyMask_maskTail {x y : Ctx} {d : Nat} (h : onlyMask x y d) (vt : BitVec 17) (n : Nat) :
    onlyMask x (maskTail y vt d n) d := by
  unfold maskTail
  split
  · exact onlyMask_setM h _
  · exact h

/-- One bit written. -/
theorem bit_setMaskBit (x : Ctx) (d j k : Nat) (b : Bool) (hk : k < 16384) :
    ((setMaskBit x d j b).m d).getLsbD k = if k = j then b else (x.m d).getLsbD k := by
  unfold setMaskBit
  rw [m_setM, if_pos rfl, getLsbD_setField _ _ _ _ _ hk]
  by_cases h : k = j
  · subst h; cases b <;> simp
  · rw [if_neg h, if_neg (by omega)]

/-- A function of the position written at the positions of a list. -/
theorem bit_setMaskBits (d : Nat) (f : Nat → Bool) (l : List Nat) (x : Ctx) (k : Nat) (hk : k < 16384) :
    ((setMaskBits x d (l.map (fun j => (j, f j)))).m d).getLsbD k = if k ∈ l then f k else (x.m d).getLsbD k := by
  induction l generalizing x with
  | nil => rfl
  | cons j l ih =>
    rw [List.map_cons, setMaskBits, ih, bit_setMaskBit _ _ _ _ _ hk]
    by_cases h : k ∈ l
    · simp [h]
    · by_cases hj : k = j <;> simp [h, hj]

/-- The tail of a mask from a bit on. -/
theorem bit_maskTail (x : Ctx) (vt : BitVec 17) (d n k : Nat) (hk : k < 16384) :
    ((maskTail x vt d n).m d).getLsbD k = if n ≤ k ∧ vtTail vt then false else (x.m d).getLsbD k := by
  unfold maskTail
  by_cases ht : vtTail vt = true
  · rw [if_pos ht, m_setM, if_pos rfl, getLsbD_keepLow _ _ _ hk]
    by_cases hn : n ≤ k
    · simp [ht, hn]
    · simp [hn, Nat.lt_of_not_le hn]
  · simp [ht]

/-- The active positions of an entry (R18, R52). -/
theorem mem_activeAt (x : Ctx) (e : VEntry) (mk : Bool) (k : Nat) :
    k ∈ activeAt x e mk ↔ (e.es ≤ k ∧ k < e.vl) ∧ (mk = true → (x.m 0).getLsbD k = true) := by
  unfold activeAt active VEntry.positions
  rw [List.mem_filter, mem_span]
  cases mk <;> simp <;> omega

/-- A mask register written at the active positions by a function of the position, with its tail. -/
def maskWritten (x : Ctx) (e : VEntry) (mk : Bool) (d : Nat) (f : Nat → Bool) : Ctx :=
  maskTail (setMaskBits x d ((activeAt x e mk).map (fun j => (j, f j)))) e.vtype d e.vl

theorem onlyMask_maskWritten (x : Ctx) (e : VEntry) (mk : Bool) (d : Nat) (f : Nat → Bool) :
    onlyMask x (maskWritten x e mk d f) d :=
  onlyMask_maskTail (onlyMask_setMaskBits _ (onlyMask_refl x d)) _ _

/-- What such a register holds. -/
theorem bit_maskWritten (x : Ctx) (e : VEntry) (mk : Bool) (d : Nat) (f : Nat → Bool) (k : Nat) (hk : k < 16384) :
    ((maskWritten x e mk d f).m d).getLsbD k =
      if k < e.vl then
        if e.es ≤ k ∧ (mk = true → (x.m 0).getLsbD k = true) then f k else (x.m d).getLsbD k
      else if vtTail e.vtype then false else (x.m d).getLsbD k := by
  unfold maskWritten
  rw [bit_maskTail _ _ _ _ _ hk, bit_setMaskBits _ _ _ _ _ hk]
  simp only [mem_activeAt]
  by_cases hv : k < e.vl
  · simp [hv, Nat.not_le.mpr hv]
  · simp [hv, Nat.le_of_not_lt hv]

/-! ## Integers as values -/

theorem elem_lt (x : Ctx) (r w i : Nat) : elem x r w i < 2 ^ w := BitVec.isLt _

/-- The signed number of a pattern. -/
theorem signed_eq_toInt (w b : Nat) : signed w b = (BitVec.ofNat w b).toInt := by
  unfold signed
  rw [BitVec.toInt_eq_toNat_cond, BitVec.toNat_ofNat]
  cases w with
  | zero => simp [Nat.mod_one]
  | succ n =>
    have : 2 ^ (n + 1) = 2 * 2 ^ n := by rw [Nat.pow_succ]; omega
    simp only [Nat.add_sub_cancel]
    by_cases hb : 2 * (b % 2 ^ (n + 1)) < 2 ^ (n + 1)
    · rw [if_pos (by omega), if_pos hb]
    · rw [if_neg (by omega), if_neg hb]; push_cast; rfl

/-- The integer that the vector unit reads in an element is that of its pattern (R54). -/
theorem intOf_elem (x : Ctx) (r : VNum) (k : Nat) : intOf (tagOf x r) (elem x r.toNat (tagWidth (tagOf x r)) k) = intAt x r k := by
  unfold intOf intAt
  split
  · exact signed_eq_toInt _ _
  · rw [Nat.mod_eq_of_lt (elem_lt _ _ _ _)]; rfl

theorem signedNum_intVal (z : Int) : signedNum (Decidable.decide (z < 0)) z.natAbs = z := by
  unfold signedNum
  split
  next h => have := of_decide_eq_true h; omega
  next h => have : ¬ z < 0 := fun e => h (decide_eq_true e); omega

/-- Integers compare as numbers. -/
theorem cmpVal_intVal (a b : Int) : cmpVal (intVal a) (intVal b) = some (compare a b) := by
  unfold cmpVal intVal
  simp only [signedNum_intVal]
  simp

/-- A source of an integer tag is read as its integer: it is no float to flush (R54, R66). -/
theorem srcVal_int {t : Tag} (h : isInt t = true) (st : Settings) (b : Nat) : srcVal st t b = intVal (intOf t b) := by
  have hw : isWide t = false := by
    have h8 : t < 8 := of_decide_eq_true h
    have : ¬ 8 ≤ t := Nat.not_le.mpr h8
    unfold isWide
    exact Bool.and_eq_false_imp.mpr fun h' => absurd (of_decide_eq_true h') this
  unfold srcVal valOf intOf
  rw [hw, h]
  simp

/-! ## The comparisons and the mask functions -/

theorem startedCtx_regs (x : Ctx) (i : Instr) (sh : Shape) : (startedCtx x i sh).regs = x.regs := by
  obtain ⟨b, o, r, l, e⟩ := issuedCtx_frame x i
  rw [startedCtx, e]

/-- A comparison writes at each active position whether the order of its elements holds. -/
theorem compareInto_eq {y : Ctx} {e : VEntry} {mk : Bool} {d : MNum} {a b : Src} {hold : Ordering → Bool} {un ordered : Bool}
    {f : Nat → Bool}
    (h : (a.tag = tM64 ∧ ∀ k, f k = hold (compare (a.res e k) (b.res e k))) ∨
      (a.tag ≠ tM64 ∧ ∀ k, ∃ o, cmpVal (a.val e k) (b.val e k) = some o ∧ f k = hold o)) :
    ∃ fl, compareInto y e mk d a b hold un ordered = (maskWritten y e mk d.toNat f, fl) := by
  unfold compareInto maskWritten
  dsimp only
  refine ⟨_, Prod.ext ?_ rfl⟩
  dsimp only
  rw [List.map_map]
  refine congrArg (fun l => maskTail (setMaskBits y d.toNat l) e.vtype d.toNat e.vl) (List.map_congr_left fun k _ => ?_)
  refine congrArg (Prod.mk k) ?_
  dsimp only
  rcases h with ⟨ht, hf⟩ | ⟨ht, hf⟩
  · rw [if_pos ht, hf]
  · obtain ⟨o, ho, hk⟩ := hf k
    rw [if_neg ht, ho, hk]

theorem maskBits_eq (d : MNum) (g : Ctx → Nat → Bool) (y : Ctx) (e : VEntry) :
    maskBits d g y e = (maskWritten y e false d.toNat (g y), 0) := by
  have : activeAt y e false = e.positions := List.filter_eq_self.mpr fun _ _ => rfl
  rw [maskWritten, this]
  rfl

theorem elem_congr {x y : Ctx} (h : y.regs = x.regs) (r w k : Nat) : elem y r w k = elem x r w k := by
  simp only [elem, Ctx.v, h]

/-- A rule that speaks of integers alone. -/
theorem some_of_ints {α : Type} {p q : Bool} {u v : α} (h : (if p && q then some u else none) = some v) :
    p = true ∧ q = true ∧ u = v := by
  cases p <;> cases q <;> simp at h ⊢
  exact h

section
variable {x y : Ctx} {e : VEntry} {a b : VNum} {d d' : MNum} {mk mk' : Bool} {hold : Ordering → Bool} {un ordered : Bool}
  {f g : Nat → Bool}

/-- A comparison of integers. -/
theorem compareInto_ints (hy : y.regs = x.regs) (hta : e.ta = tagOf x a) (htb : e.tb = tagOf x b)
    (h : (if isInt (tagOf x a) && isInt (tagOf x b) then some (d', mk', g) else none) = some (d, mk, f))
    (hg : ∀ k, g k = hold (compare (intAt x a k) (intAt x b k))) :
    ∃ fl, compareInto y e mk' d' (regSrc y a e.ta) (regSrc y b e.tb) hold un ordered = (maskWritten y e mk d.toNat f, fl) := by
  obtain ⟨ha, hb, he⟩ := some_of_ints h
  cases he
  refine compareInto_eq (.inr ⟨fun h => ?_, fun k => ⟨_, ?_, hg k⟩⟩)
  · have h8 : isInt tM64 = true := h ▸ hta ▸ ha
    exact absurd h8 (by decide)
  · have hv {r : VNum} {t : Tag} (ht : t = tagOf x r) (hr : isInt (tagOf x r) = true) :
        (regSrc y r t).val e k = intVal (intAt x r k) := by
      subst ht
      refine (srcVal_int hr _ _).trans (congrArg intVal ?_)
      rw [← intOf_elem]
      exact congrArg (intOf _) (elem_congr hy _ _ _)
    rw [hv hta ha, hv htb hb, cmpVal_intVal]

/-- A comparison of residues. -/
theorem compareInto_residues (hy : y.regs = x.regs) (hta : e.ta = tagOf x a) (htb : e.tb = tagOf x b) (hq : e.mq = x.csr.mq)
    (ha : tagOf x a = tM64) (h : some (d', mk', g) = some (d, mk, f))
    (hg : ∀ k, g k = hold (compare (resAt x a k) (resAt x b k))) :
    ∃ fl, compareInto y e mk' d' (regSrc y a e.ta) (regSrc y b e.tb) hold un ordered = (maskWritten y e mk d.toNat f, fl) := by
  cases h
  refine compareInto_eq (.inl ⟨hta.trans ha, fun k => ?_⟩)
  have hv {r : VNum} {t : Tag} (ht : t = tagOf x r) : (regSrc y r t).res e k = resAt x r k := by
    subst ht
    show elem y r.toNat (tagWidth (tagOf x r)) k % e.mq.toNat = _
    rw [elem_congr hy, hq]; rfl
  rw [hv hta, hv htb, hg]

end

/-- What each order of two numbers says of them. -/
theorem compare_eq_beq {α : Type} [LinearOrder α] (a b : α) : (compare a b == .eq) = (a == b) := by
  rw [Bool.eq_iff_iff]; simp
theorem compare_eq_bne {α : Type} [LinearOrder α] (a b : α) : (compare a b != .eq) = (a != b) := by
  rw [bne, bne, compare_eq_beq]
theorem compare_beq_lt (a b : Int) : (compare a b == .lt) = Decidable.decide (a < b) := by
  rw [Bool.eq_iff_iff]; simp [compare_lt_iff_lt]
theorem compare_beq_gt (a b : Int) : (compare a b == .gt) = Decidable.decide (b < a) := by
  rw [Bool.eq_iff_iff]; simp [compare_gt_iff_gt]
theorem compare_bne_gt (a b : Int) : (compare a b != .gt) = Decidable.decide (a ≤ b) := by
  rw [bne, compare_beq_gt, Bool.eq_iff_iff]; simp
theorem compare_bne_lt (a b : Int) : (compare a b != .lt) = Decidable.decide (b ≤ a) := by
  rw [bne, compare_beq_lt, Bool.eq_iff_iff]; simp

/-- The mask instructions of `maskRule` write their function at their active positions. -/
theorem retireEffect_maskRule {x y : Ctx} {i : Instr} {sh : Shape} {d : MNum} {mk : Bool} {f : Nat → Bool} (hy : y.regs = x.regs)
    (hsh : shapeOf i = some sh) (h : maskRule x i = some (d, mk, f)) :
    ∃ F, retireEffect i = onRegs F ∧ ∃ fl, F y (startedEntry x i sh) = (maskWritten y (startedEntry x i sh) mk d.toNat f, fl) := by
  have hm (r : Nat) : y.m r = x.m r := by simp only [Ctx.m, hy]
  have bits {d' : MNum} {g : Nat → Bool} (k : Ctx → Nat → Bool) (h : some (d', false, g) = some (d, mk, f)) (hk : k y = g) :
      ∃ fl, maskBits d' k y (startedEntry x i sh) = (maskWritten y (startedEntry x i sh) mk d.toNat f, fl) := by
    cases h
    exact ⟨0, by rw [maskBits_eq, hk]⟩
  unfold maskRule at h
  dsimp only at h
  split at h
  case h_1 =>
    cases hsh
    split at h
    next ht => exact ⟨_, rfl, compareInto_residues hy rfl rfl rfl ht h fun k => (compare_eq_beq _ _).symm⟩
    next => exact ⟨_, rfl, compareInto_ints hy rfl rfl h fun k => (compare_eq_beq _ _).symm⟩
  case h_2 =>
    cases hsh
    split at h
    next ht => exact ⟨_, rfl, compareInto_residues hy rfl rfl rfl ht h fun k => (compare_eq_bne _ _).symm⟩
    next => exact ⟨_, rfl, compareInto_ints hy rfl rfl h fun k => (compare_eq_bne _ _).symm⟩
  case h_3 => cases hsh; exact ⟨_, rfl, compareInto_ints hy rfl rfl h fun k => (compare_beq_lt _ _).symm⟩
  case h_4 => cases hsh; exact ⟨_, rfl, compareInto_ints hy rfl rfl h fun k => (compare_bne_gt _ _).symm⟩
  case h_5 => cases hsh; exact ⟨_, rfl, compareInto_ints hy rfl rfl h fun k => (compare_beq_gt _ _).symm⟩
  case h_6 => cases hsh; exact ⟨_, rfl, compareInto_ints hy rfl rfl h fun k => (compare_bne_lt _ _).symm⟩
  case h_7 => cases hsh; exact ⟨_, rfl, compareInto_ints hy rfl rfl h fun k => rfl⟩
  case h_13 => exact ⟨_, rfl, bits _ h (funext fun j => by simp only [hm]; exact (Bool.not_not _).symm)⟩
  case h_16 => exact ⟨_, rfl, bits _ h rfl⟩
  case h_17 => exact ⟨_, rfl, bits _ h rfl⟩
  case h_18 => cases h
  all_goals exact ⟨_, rfl, bits _ h (funext fun j => by simp only [hm])⟩


/-- They are issued to the vector queue, move no baton and do not stay in a run. -/
theorem maskRule_batons {x : Ctx} {i : Instr} {d : MNum} {mk : Bool} {f : Nat → Bool} (h : maskRule x i = some (d, mk, f)) :
    batonWait i = none ∧ batonPost i = none ∧ postsByBtn i = false ∧ staysInRun i = false ∧
      ∀ s, exec i s = issue i s := by
  unfold maskRule at h
  dsimp only at h
  split at h
  case h_18 => cases h
  all_goals exact ⟨rfl, rfl, rfl, rfl, fun _ => rfl⟩

theorem batonsReady_none {i : Instr} (hw : batonWait i = none) (hp : batonPost i = none) (x : Ctx) : batonsReady x i :=
  ⟨fun q h => by simp [hw] at h, fun q h => by simp [hp] at h⟩

theorem startedCtx_streams_vq_vx {x : Ctx} (h : x.streams = []) (i : Instr) (sh : Shape) :
    (startedCtx x i sh).streams = [] ∧ (startedCtx x i sh).vq = [] ∧ (startedCtx x i sh).vx = [startedEntry x i sh] :=
  ⟨startedCtx_streams h i sh, rfl, rfl⟩

theorem leftCtx_regs (x : Ctx) (e : VEntry) (fl : Flags) : (leftCtx x e fl).regs = x.regs := by
  obtain ⟨k, h, m, hx⟩ := endStep_frame x
  unfold leftCtx wakeWfeFor wakeWfe
  rw [hx]
  dsimp only
  split
  · split
    · split <;> rfl
    · rfl
  · rfl

/-- Settles O28: the instruction works on the context that has started it, whose registers are those of the front. -/
theorem maskBitsHoldTheirFunction : Obligations.MaskBitsHoldTheirFunction := by
  intro s i sh d mk f hr hf
  have hplain := hr.1
  have hsh := hr.2.1
  obtain ⟨hw, hp, hbtn, hrun, hx⟩ := maskRule_batons hf
  let e := startedEntry (me s) i sh
  let y := startedCtx (me s) i sh
  have hy : y.regs = (me s).regs := startedCtx_regs _ _ _
  obtain ⟨F, hF, fl, hE⟩ := retireEffect_maskRule hy hsh hf
  have heff : retireEffect i (startedState s i sh) s.turn e =
      .done (setCtx (startedState s i sh) s.turn (maskWritten y e mk d.toNat f)) fl := by
    rw [hF, onRegs, ctxAt_startedState, hE]
  obtain ⟨m, hm, -⟩ := onlyMask_maskWritten y e mk d.toNat f
  obtain ⟨h1, h2, h3⟩ := startedCtx_streams_vq_vx hplain.2.2.2.1 i sh
  obtain ⟨u, hu, hret⟩ := exec_queued (hx s) hr (batonsReady_none hw hp _) hbtn hrun heff
    (by rw [ctxAt_setCtx_same, hm]; exact h1) (by rw [ctxAt_setCtx_same, hm]; exact h2) (by rw [ctxAt_setCtx_same, hm]; exact h3)
  refine ⟨u, hu, ?_⟩
  intro x z k hk
  have hz : z.regs = (maskWritten y e mk d.toNat f).regs := by
    show (ctxAt u s.turn).regs = _
    rw [hret.own, leftCtx_regs, ctxAt_setCtx_same]
  have hb := bit_maskWritten y e mk d.toNat f k hk
  have hmz : z.m d.toNat = (maskWritten y e mk d.toNat f).m d.toNat := by simp only [Ctx.m, hz]
  have hmy (r : Nat) : y.m r = x.m r := by simp only [Ctx.m, hy]; rfl
  rw [hmz, hb, hmy, hmy]
  rfl

end Sys2Proof.Machine
end

section
namespace Sys2Proof.Machine

set_option Elab.async false

open Sys2Proof.Safety

/-! # What an access of the access engine looks at (R139, R172, R321, R324)

The place where an element's access performs does not depend on the contents of memory, on accounts or on notes: `SameSight` holds of two
states that differ in these alone, and an access of the access engine that may perform in the one may perform in the other. -/

/-- Two states between which no access of the access engine of a context may perform in the one only. -/
structure SameSight (s t : State) (c : Nat) : Prop where
  agent : vectorAgent t c = vectorAgent s c
  wps : (ctxAt t c).wps = (ctxAt s c).wps
  jobs : (cluAt t (cluOf c)).jobs = (cluAt s (cluOf c)).jobs
  dies : ∀ k, (dieAt t k).aspaces = (dieAt s k).aspaces ∧ (dieAt t k).resident = (dieAt s k).resident ∧
    (dieAt t k).views = (dieAt s k).views
  pkg : ∃ b, t.pkg = { s.pkg with badScales := b }

namespace SameSight
variable {s t u : State} {c : Nat}

theorem refl (s : State) (c : Nat) : SameSight s s c := ⟨rfl, rfl, rfl, fun _ => ⟨rfl, rfl, rfl⟩, ⟨s.pkg.badScales, rfl⟩⟩

theorem trans (h : SameSight s t c) (g : SameSight t u c) : SameSight s u c where
  agent := g.agent.trans h.agent
  wps := g.wps.trans h.wps
  jobs := g.jobs.trans h.jobs
  dies k := ⟨(g.dies k).1.trans (h.dies k).1, (g.dies k).2.1.trans (h.dies k).2.1, (g.dies k).2.2.trans (h.dies k).2.2⟩
  pkg := by
    obtain ⟨b, hb⟩ := h.pkg
    obtain ⟨d, hd⟩ := g.pkg
    exact ⟨d, by rw [hd, hb]⟩

/-- A change of a context that keeps its space, its partition, its world, its launch and its watchpoints. -/
theorem of_setCtx {y : Ctx} (ha : y.asid = (ctxAt s c).asid) (hp : y.partid = (ctxAt s c).partid) (hl : y.level = (ctxAt s c).level)
    (hs : y.secure = (ctxAt s c).secure) (hw : y.work = (ctxAt s c).work) (hq : y.wps = (ctxAt s c).wps) :
    SameSight s (setCtx s c y) c where
  agent := by
    simp only [vectorAgent, frontAgent, ctxAt_setCtx_same, Ctx.actsFor, ha, hp, hl, hs, hw]
  wps := by rw [ctxAt_setCtx_same, hq]
  jobs := rfl
  dies _ := ⟨rfl, rfl, rfl⟩
  pkg := ⟨s.pkg.badScales, rfl⟩

/-- A sector's state depends on the sectors, the seals, the regions and the keys. -/
theorem sectorState_eq (h : SameSight s t c) (p : Place) : sectorState t p = sectorState s p := by
  obtain ⟨b, hb⟩ := h.pkg
  unfold sectorState
  rw [hb]
  rfl

theorem residentLeaf_eq (h : SameSight s t c) (die asid va : Nat) : residentLeaf t die asid va = residentLeaf s die asid va := by
  obtain ⟨h1, h2, -⟩ := h.dies die
  unfold residentLeaf
  rw [h1, h2]

theorem locate_eq (h : SameSight s t c) {a : Agent} (ha : a.wide = true) (va : Nat) : locate t a va = locate s a va := by
  unfold locate
  simp only [h.residentLeaf_eq, ha, if_true]

theorem coverage_eq (h : SameSight s t c) (frame cell : Nat) : coverage t frame cell = coverage s frame cell := by
  unfold coverage
  rw [(h.dies (ownerDie frame)).2.2]

theorem decide_eq (h : SameSight s t c) {a : Agent} (ha : a.wide = true) (acc : Acc) (va : Nat) :
    decide t a acc va = decide s a acc va := by
  obtain ⟨b, hb⟩ := h.pkg
  have hn : noSpot t a va = noSpot s a va := by
    unfold noSpot walkOf
    simp only [ha, Bool.true_or, if_true]
  have hr (pa : Nat) : regionDecision t.pkg a acc pa = regionDecision s.pkg a acc pa := by rw [hb]; rfl
  have hf (pa : Nat) : regionOf t.pkg pa = regionOf s.pkg pa := by rw [hb]; rfl
  unfold decide
  simp only [h.locate_eq ha, hn, hr, hf, h.coverage_eq]

end SameSight

/-- An access of the access engine performs where its conditions let it; whether it could be sent to the domain does not matter then
(R139). -/
theorem reach_of {s : State} {c : Nat} {acc : Acc} {va n w : Nat} {remote quiet : Bool} {p : Place} (hw : va % w = 0)
    (hd : decide s (vectorAgent s c) acc va = .ok p) (hq : quiet = true ∨ watchHit (ctxAt s c) va n = false)
    (hj : jobWaits s c va n (acc == .store || acc == .atomic) = false) (hb : pageBusy s p = false) :
    reach s c (vectorAgent s c) acc va n w remote quiet = .ok p := by
  have hwalk : walkBusy s (vectorAgent s c) va = false := by
    have : walkOf s (vectorAgent s c) va = none := rfl
    unfold walkBusy
    rw [this]
    cases s.pkg.reenc <;> rfl
  have hquiet : (!quiet && watchHit (ctxAt s c) va n) = false := by
    rcases hq with h | h
    · rw [h]; rfl
    · rw [h, Bool.and_false]
  unfold reach
  dsimp only
  rw [if_neg (by simpa using hw)]
  split
  next hl => unfold decide at hd; rw [hl] at hd; cases hd
  next =>
    rw [hwalk, hd]
    simp only [hquiet, hj, hb, Bool.or_self, Bool.false_eq_true, if_false]

/-- It performs at the same place in a state that looks the same to it, and where no watchpoint is matched any more. -/
theorem reach_sameSight {s t : State} {c : Nat} (h : SameSight s t c) {acc : Acc} {va n w : Nat} {remote remote' quiet quiet' : Bool}
    {p : Place} (hq : quiet = false ∨ quiet' = true)
    (hr : reach s c (vectorAgent s c) acc va n w remote quiet = .ok p) :
    reach t c (vectorAgent t c) acc va n w remote' quiet' = .ok p := by
  obtain ⟨hw, hd, hwatch, hj, hb⟩ := reach_ok hr
  refine reach_of hw ?_ ?_ ?_ ?_
  · rw [h.decide_eq rfl, h.agent, hd]
  · rcases hq with hq | hq
    · refine .inr ?_
      unfold watchHit
      rw [h.wps]
      exact hwatch.resolve_left (by rw [hq]; exact Bool.false_ne_true)
    · exact .inl hq
  · unfold jobWaits
    rw [h.jobs]
    exact hj
  · obtain ⟨b, hk⟩ := h.pkg
    unfold pageBusy
    rw [hk]
    exact hb

end Sys2Proof.Machine
end

section
namespace Sys2Proof.Machine

set_option Elab.async false

open Sys2Proof.Safety

/-! # The accesses of an element to clean memory (R184–R186, R339) -/

theorem sameSight_noteHits (s : State) (c kind : Nat) (ok : Word → Word → Bool) : SameSight s (noteHits s c kind ok) c := by
  unfold noteHits
  split
  · exact .refl s c
  · dsimp only
    split
    · exact .refl s c
    · refine ⟨rfl, rfl, ?_, fun _ => ⟨rfl, rfl, rfl⟩, ⟨s.pkg.badScales, rfl⟩⟩
      rw [cluAt_onClu, if_pos rfl]

theorem sameSight_charge (s : State) (c : Nat) (a : Agent) (p : Place) (n : Nat) : SameSight s (charge s a p n) c := by
  unfold charge
  split
  · exact .refl s c
  · refine ⟨rfl, rfl, rfl, fun k => ?_, ⟨s.pkg.badScales, rfl⟩⟩
    rw [dieAt_onDie]
    split
    · subst_vars
      split <;> exact ⟨rfl, rfl, rfl⟩
    · exact ⟨rfl, rfl, rfl⟩

theorem sameSight_putBytes (s : State) (c : Nat) (p : Place) (bs : List Byte) : SameSight s (putBytes s p bs) c :=
  ⟨rfl, rfl, rfl, fun _ => ⟨rfl, rfl, rfl⟩, (putBytes_spec s p bs).2.2.2.1⟩

/-- The access engine has no translation buffer to fill (R326). -/
theorem noteLeaf_vectorAgent (s t : State) (c va : Nat) : noteLeaf s (vectorAgent t c) va = s := rfl

/-- A state that has seen an access of a context: nothing has changed but accounts, notes and, for a store, memory. -/
structure Accessed (s t : State) (c : Nat) : Prop where
  ctxs : ∀ k, ctxAt t k = ctxAt s k
  sight : SameSight s t c

theorem Accessed.trans {s t u : State} {c : Nat} (h : Accessed s t c) (g : Accessed t u c) : Accessed s u c :=
  ⟨fun k => (g.ctxs k).trans (h.ctxs k), h.sight.trans g.sight⟩

theorem accessed_noteAccess (s : State) (c va : Nat) : Accessed s (noteAccess s c va) c :=
  ⟨(noteHits_spec s c 2 _).2.1, sameSight_noteHits s c 2 _⟩

theorem accessed_charge (s : State) (c : Nat) (a : Agent) (p : Place) (n : Nat) : Accessed s (charge s a p n) c :=
  ⟨(charge_spec s a p n).2.1, sameSight_charge s c a p n⟩

/-- An empty buffer lays nothing over the bytes of memory. -/
theorem mergeBytes_empty (va : Nat) (bs : List Byte) : mergeBytes [] va bs = bs := by
  induction bs generalizing va with
  | nil => rfl
  | cons b bs ih => rw [mergeBytes, ih]; rfl

theorem supersede_empty (va : Nat) (ms : List MaskedByte) : supersede [] va ms = [] := by
  induction ms generalizing va with
  | nil => rfl
  | cons m ms ih => exact ih (va + 1)

/-- An element loaded from a clean sector. -/
theorem takeBytes_element {s : State} {c elem va n : Nat} {p : Place} (hd : p.dev = false) (hr : p.raw = false)
    (hs : sectorState s p = none) (hb : (ctxAt s c).lap.buf = []) :
    ∃ t, takeBytes s c elem (vectorAgent s c) va p n = .done t (readBytes s.mem p.key n) ∧ Accessed s t c ∧ t.mem = s.mem := by
  have h1 := accessed_noteAccess s c va
  have m1 : (noteAccess s c va).mem = s.mem := (noteHits_spec s c 2 _).1
  have h2 := accessed_charge (noteAccess s c va) c (vectorAgent s c) p n
  have m2 := (charge_spec (noteAccess s c va) (vectorAgent s c) p n).1
  have h := h1.trans h2
  refine ⟨charge (noteAccess s c va) (vectorAgent s c) p n, ?_, h, m2.trans m1⟩
  have hf : readFinding (charge (noteAccess s c va) (vectorAgent s c) p n) p = none :=
    readFinding_none ((h.sight.sectorState_eq p).trans hs)
  unfold takeBytes beforeDevice
  simp only [hd, Bool.false_eq_true, if_false, noteLeaf_vectorAgent, hf]
  simp only [ctxBytes, placeBytes, hr, Bool.false_eq_true, if_false, h.ctxs, m2, m1, hb]
  rw [mergeBytes_empty]

/-- Bytes stored in a clean sector. -/
theorem storeAt_element (s : State) (c : Nat) (a : Agent) (va : Nat) {p : Place} (bs : List Byte) (hs : sectorState s p = none) :
    Accessed s (storeAt s a va p bs) c ∧ (storeAt s a va p bs).mem = writeBytes s.mem p.key bs := by
  have h := accessed_charge s c a p bs.length
  have hz := (h.sight.sectorState_eq p).trans hs
  unfold storeAt
  simp only [hz]
  obtain ⟨p1, p2, -, -, -⟩ := putBytes_spec (charge s a p bs.length) p bs
  exact ⟨h.trans ⟨p2, sameSight_putBytes _ _ _ _⟩, by rw [p1, (charge_spec s a p bs.length).1]⟩

/-- A byte of which an element stores some bits, not all, in a clean sector: the byte is merged (R186). -/
theorem giveBytes_bits {s : State} {c va : Nat} {p : Place} {m : MaskedByte} (hm : m.1 ≠ 0xFF) (hd : p.dev = false)
    (hs : sectorState s p = none) (hb : (ctxAt s c).lap.buffering = false) (he : (ctxAt s c).lap.buf = []) :
    ∃ t, giveBytes s c (vectorAgent s c) va p [m] = .done t () ∧ Accessed s t c ∧
      t.mem = writeByte s.mem p.key (overlay (readByte s.mem p.key) m) := by
  have h1 := accessed_noteAccess s c va
  have m1 : (noteAccess s c va).mem = s.mem := (noteHits_spec s c 2 _).1
  obtain ⟨h2, m2⟩ := storeAt_element (noteAccess s c va) c (vectorAgent s c) va [overlay (readByte s.mem p.key) m]
    ((h1.sight.sectorState_eq p).trans hs)
  have h := h1.trans h2
  have hmask : storeMasked (noteAccess s c va) (vectorAgent s c) va p [m] =
      storeAt (noteAccess s c va) (vectorAgent s c) va p [overlay (readByte s.mem p.key) m] := by
    unfold storeMasked
    rw [m1, if_neg (by simpa using hm)]
    rfl
  refine ⟨storeNow (noteAccess s c va) c (vectorAgent s c) va p [m], ?_, ?_, ?_⟩
  · unfold giveBytes beforeDevice ctxStore
    simp only [hd, Bool.false_eq_true, if_false, noteLeaf_vectorAgent, h1.ctxs, hb, Bool.false_and]
  · have hl : (let l := (ctxAt s c).lap
        { l with buf := supersede l.buf va [m] }) = (ctxAt s c).lap := by
      dsimp only
      rw [he, supersede_empty, ← he]
    have ho : storeNow (noteAccess s c va) c (vectorAgent s c) va p [m] =
        setCtx (storeAt (noteAccess s c va) (vectorAgent s c) va p [overlay (readByte s.mem p.key) m]) c (ctxAt s c) := by
      unfold storeNow onLap
      rw [hmask, onCtx_eq, h.ctxs]
      exact congrArg (fun l => setCtx _ c { ctxAt s c with lap := l }) hl
    refine ⟨fun k => ?_, h.sight.trans ?_⟩
    · rw [ho, ctxAt_setCtx]
      split
      · subst_vars; rfl
      · exact h.ctxs k
    · rw [ho]
      exact .of_setCtx (by rw [h.ctxs]) (by rw [h.ctxs]) (by rw [h.ctxs]) (by rw [h.ctxs]) (by rw [h.ctxs]) (by rw [h.ctxs])
  · unfold storeNow onLap
    rw [hmask]
    exact m2.trans (by rw [m1]; rfl)

end Sys2Proof.Machine
end

section
namespace Sys2Proof.Machine

set_option Elab.async false

open Sys2Proof.Safety

/-! # The elements of MLD and MST (R186) -/

/-- The access of an element of a context that may perform, as `mayElement` says it of the context whose turn it is. -/
def mayReach (s : State) (c : Nat) (acc : Acc) (va n : Nat) (p : Place) : Prop :=
  reach s c (vectorAgent s c) acc va n n true false = .ok p ∧ sectorState s p = none ∧ p.dev = false ∧ p.raw = false ∧ p.nsp = false

theorem mayReach_sameSight {s t : State} {c : Nat} (h : SameSight s t c) {acc : Acc} {va n : Nat} {p : Place}
    (hm : mayReach s c acc va n p) : mayReach t c acc va n p :=
  ⟨reach_sameSight h (.inl rfl) hm.1, (h.sectorState_eq p).trans hm.2.1, hm.2.2⟩

/-- The start of an instruction changes nothing that its accesses look at. -/
theorem sameSight_startedState (s : State) (i : Instr) (sh : Shape) : SameSight s (startedState s i sh) s.turn := by
  obtain ⟨-, hd, hc, hp, -⟩ := startedState_frame s i sh
  obtain ⟨b, o, r, l, hi⟩ := issuedCtx_frame (me s) i
  refine ⟨?_, ?_, ?_, fun k => ?_, ⟨s.pkg.badScales, hp⟩⟩
  · simp only [vectorAgent, frontAgent, ctxAt_startedState, Ctx.actsFor, startedCtx, hi]
    rfl
  · rw [ctxAt_startedState, startedCtx, hi]
    rfl
  · simp only [cluAt, hc]
  · simp only [dieAt, hd, and_self]

/-- A context that loads from memory as it stands: no watermark holds its elements, and it buffers no store. -/
def loadsPlainly (x : Ctx) : Prop := x.marks = [] ∧ x.lap.buf = []

theorem loadElem_plain {s : State} {c va n : Nat} {p : Place} (hx : loadsPlainly (ctxAt s c)) (hm : mayReach s c .load va n p)
    (elem : Nat) (bound : List Word) (quiet : Bool) :
    ∃ t, loadElem s c elem va n bound quiet false = .got t (readBytes s.mem p.key n) ∧ Accessed s t c ∧ t.mem = s.mem := by
  obtain ⟨hmarks, hbuf⟩ := hx
  obtain ⟨hr, hs, hdev, hraw, hnsp⟩ := hm
  obtain ⟨t, ht, ha, hmem⟩ := takeBytes_element (elem := elem) (va := va) (n := n) hdev hraw hs hbuf
  refine ⟨t, ?_, ha, hmem⟩
  have hstall : stalls (ctxAt s c) bound va n = false := by rw [stalls, hmarks]; rfl
  have hok : reach s c (vectorAgent s c) .load va n n true quiet = .ok p := reach_sameSight (.refl s c) (.inl rfl) hr
  unfold loadElem
  simp only [hstall, hok, hnsp, ht, Bool.false_eq_true, if_false]

/-- A first element that loads plainly is no other than the rest (R141). -/
theorem loadFirst_plain {s t : State} {c elem va n : Nat} {bound : List Word} {quiet : Bool} {bs : List Byte}
    (h : loadElem s c elem va n bound quiet false = .got t bs) : loadFirst s c elem va n bound quiet = .got t bs := by
  unfold loadFirst
  rw [h]

/-- A load of no scale checks none (R59). -/
theorem checkScale_none (s : State) (c elem va : Nat) (bs : List Byte) : checkScale s c elem va false bs = (s, bs) := by
  unfold checkScale
  rw [if_pos]
  simp

theorem sameSight_setMaskBit (s : State) (c d i : Nat) (b : Bool) :
    SameSight s (onCtx s c (fun x => setMaskBit x d i b)) c := by
  rw [onCtx_eq]
  exact .of_setCtx rfl rfl rfl rfl rfl rfl

/-- The bits of a mask loaded one after another: memory stands, and each position has the bit of its byte. -/
theorem loadElems_mask {c d vl : Nat} {e : VEntry} (he : (e.td == tK8) = false) (first : Option Nat) (p : Nat → Place)
    (mem : Memory) (l : List (Nat × Nat)) (s : State) (hmem : s.mem = mem) (hx : loadsPlainly (ctxAt s c))
    (hl : ∀ q ∈ l, mayReach s c .load q.2 1 (p q.1)) :
    ∃ u, loadElems s c 1 vl e first (fun x i bs => setMaskBit x d i ((bytesNat bs).testBit (i % 8))) l = .upTo u vl ∧
      u.mem = mem ∧ (∀ k, k ≠ c → ctxAt u k = ctxAt s k) ∧
      ctxAt u c = setMaskBits (ctxAt s c) d (l.map (fun q => (q.1, (readByte mem (p q.1).key).getLsbD (q.1 % 8)))) := by
  induction l generalizing s with
  | nil => exact ⟨s, rfl, hmem, fun _ _ => rfl, rfl⟩
  | cons q l ih =>
    obtain ⟨i, va⟩ := q
    obtain ⟨t, ht, ha, hm⟩ := loadElem_plain hx (hl (i, va) List.mem_cons_self) i e.bound (elemQuiet (ctxAt s c) i)
    let b := (readByte mem (p i).key).getLsbD (i % 8)
    let t' := onCtx t c (fun x => setMaskBit x d i b)
    have hsight : SameSight s t' c := ha.sight.trans (sameSight_setMaskBit t c d i b)
    have hc : ctxAt t' c = setMaskBit (ctxAt s c) d i b := by rw [ctxAt_onCtx_same, ha.ctxs]
    obtain ⟨u, hu, um, uo, uc⟩ := ih t' (hm.trans hmem) (by rw [hc]; exact hx)
      (fun q hq => mayReach_sameSight hsight (hl q (List.mem_cons_of_mem _ hq)))
    refine ⟨u, ?_, um, fun k hk => ?_, ?_⟩
    · have hb : (bytesNat (readBytes s.mem (p i).key 1)).testBit (i % 8) = b := by
        show (bytesNat [readByte s.mem (p i).key]).testBit (i % 8) = _
        rw [hmem]
        simp [bytesNat, b, BitVec.testBit_toNat]
      have hone : (if first = some i then loadFirst s c i va 1 e.bound (elemQuiet (ctxAt s c) i)
          else loadElem s c i va 1 e.bound (elemQuiet (ctxAt s c) i) false) = .got t (readBytes s.mem (p i).key 1) := by
        split
        · exact loadFirst_plain ht
        · exact ht
      unfold loadElems
      simp only [hone, he, checkScale_none, hb]
      exact hu
    · rw [uo k hk, ctxAt_onCtx, if_neg hk, ha.ctxs]
    · rw [uc, hc]
      rfl

/-! ## The bits of a mask stored one after another -/

/-- Memory after the masked bytes of some positions, each merged into the byte at its key (R186). -/
def mergedBits (key : Nat → Nat) (bit : Nat → MaskedByte) : List Nat → Memory → Memory
  | [], m => m
  | j :: r, m => mergedBits key bit r (writeByte m (key j) (overlay (readByte m (key j)) (bit j)))

theorem readByte_mergedBits_other (key : Nat → Nat) (bit : Nat → MaskedByte) (l : List Nat) (m : Memory) (a : Nat)
    (h : ∀ j ∈ l, key j ≠ a) : readByte (mergedBits key bit l m) a = readByte m a := by
  induction l generalizing m with
  | nil => rfl
  | cons j l ih =>
    rw [mergedBits, ih _ fun k hk => h k (List.mem_cons_of_mem _ hk), readByte_writeByte, if_neg]
    exact (h j List.mem_cons_self).symm

/-- The bit of a mask register that a position stores, under the mask of its place in its byte. -/
def maskBitOf (v : VReg) (j : Nat) : MaskedByte :=
  (BitVec.ofNat 8 (2 ^ (j % 8)), if v.getLsbD j then BitVec.ofNat 8 (2 ^ (j % 8)) else 0)

/-- A merge replaces the bit of its position in the byte and leaves the seven others. -/
theorem getLsbD_overlay_maskBitOf (old : Byte) (v : VReg) (j b : Nat) (hb : b < 8) :
    (overlay old (maskBitOf v j)).getLsbD b = if j % 8 = b then v.getLsbD j else old.getLsbD b := by
  have hj : j % 8 < 8 := Nat.mod_lt _ (by omega)
  have hbit : (BitVec.ofNat 8 (2 ^ (j % 8))).getLsbD b = Decidable.decide (j % 8 = b) := by
    rw [BitVec.getLsbD_ofNat, Nat.testBit_two_pow]
    simp [hb]
  unfold overlay maskBitOf
  dsimp only
  generalize BitVec.ofNat 8 (2 ^ (j % 8)) = w at hbit ⊢
  rw [BitVec.getLsbD_or, BitVec.getLsbD_and, BitVec.getLsbD_and, BitVec.getLsbD_not, hbit]
  cases hv : v.getLsbD j
  · by_cases h : j % 8 = b <;> simp [h, hb]
  · by_cases h : j % 8 = b <;> simp [h, hb, hbit]

theorem maskBitOf_ne (v : VReg) (j : Nat) : (maskBitOf v j).1 ≠ 0xFF := by
  have hj : j % 8 < 8 := Nat.mod_lt _ (by omega)
  unfold maskBitOf
  dsimp only
  interval_cases j % 8 <;> decide

/-- A bit of a byte after the merges, where no two positions share it. -/
theorem getLsbD_mergedBits {key : Nat → Nat} {v : VReg} {k : Nat} (l : List Nat) (m : Memory)
    (h : ∀ j ∈ l, key j = key k → j % 8 = k % 8 → j = k) :
    (readByte (mergedBits key (maskBitOf v) l m) (key k)).getLsbD (k % 8) =
      if k ∈ l then v.getLsbD k else (readByte m (key k)).getLsbD (k % 8) := by
  have hk : k % 8 < 8 := Nat.mod_lt _ (by omega)
  induction l generalizing m with
  | nil => rfl
  | cons j l ih =>
    rw [mergedBits, ih _ fun i hi => h i (List.mem_cons_of_mem _ hi)]
    by_cases hl : k ∈ l
    · simp [hl]
    · rw [if_neg hl, readByte_writeByte]
      have hj := h j List.mem_cons_self
      by_cases hkey : key k = key j
      · rw [if_pos hkey, getLsbD_overlay_maskBitOf _ _ _ _ hk, ← hkey]
        by_cases hb : j % 8 = k % 8
        · have : j = k := hj hkey.symm hb
          subst this
          simp
        · have : k ≠ j := fun e => hb (by rw [e])
          simp [hb, hl, this]
      · have : k ≠ j := fun e => hkey (by rw [e])
        simp [hkey, hl, this]

/-- The bits stored one after another by a context that buffers nothing. -/
theorem storeElems_mask {c : Nat} {e : VEntry} (v : VReg) (p : Nat → Place) (l : List (Nat × Nat)) (s : State) (fresh : Bool)
    (hx : unbuffered (ctxAt s c)) (hl : ∀ q ∈ l, mayReach s c .store q.2 1 (p q.1)) :
    ∃ u, storeElems s c 1 e (fun i => [maskBitOf v i]) fresh l = .done u 0 ∧ (∀ k, ctxAt u k = ctxAt s k) ∧
      u.mem = mergedBits (fun j => (p j).key) (maskBitOf v) (l.map Prod.fst) s.mem := by
  induction l generalizing s fresh with
  | nil => exact ⟨s, rfl, fun _ => rfl, rfl⟩
  | cons q l ih =>
    obtain ⟨i, va⟩ := q
    obtain ⟨hr, hs, hdev, hraw, hnsp⟩ := hl (i, va) List.mem_cons_self
    obtain ⟨t, ht, ha, hm⟩ := giveBytes_bits (va := va) (maskBitOf_ne v i) hdev hs hx.1 hx.2
    obtain ⟨u, hu, uc, um⟩ := ih t false (by rw [ha.ctxs]; exact hx)
      (fun q hq => mayReach_sameSight ha.sight (hl q (List.mem_cons_of_mem _ hq)))
    refine ⟨u, ?_, fun k => (uc k).trans (ha.ctxs k), by rw [um, hm]; rfl⟩
    have hok : reach s c (vectorAgent s c) .store va 1 1 true (elemQuiet (ctxAt s c) i) = .ok (p i) :=
      reach_sameSight (.refl s c) (.inl rfl) hr
    unfold storeElems storeElem
    simp only [hok, ht]
    exact hu

end Sys2Proof.Machine
end

section
namespace Sys2Proof.Machine

set_option Elab.async false

open Sys2Proof.Safety

/-! # MLD and MST (R186) -/

theorem mem_activeAt_started {x y : Ctx} (hy : y.regs = x.regs) (i : Instr) (sh : Shape) (mk : Bool) (k : Nat) :
    k ∈ activeAt y (startedEntry x i sh) mk ↔ activeElem x mk k := by
  rw [mem_activeAt]
  have hm : y.m 0 = x.m 0 := by simp only [Ctx.m, hy]
  rw [hm, and_assoc]
  rfl

/-- What the accesses of an instruction in execution find: they may perform as those of the front's context may. -/
theorem mayReach_startedState {s : State} {i : Instr} {sh : Shape} {acc : Acc} {va n : Nat} {p : Place}
    (h : mayElement s acc va n p) : mayReach (startedState s i sh) s.turn acc va n p :=
  mayReach_sameSight (sameSight_startedState s i sh) h

theorem startedCtx_lap_buf (x : Ctx) (i : Instr) (sh : Shape) :
    (startedCtx x i sh).lap.buf = x.lap.buf ∧ (startedCtx x i sh).lap.buffering = x.lap.buffering ∧
      (startedCtx x i sh).marks = x.marks := by
  obtain ⟨b, o, r, l, h⟩ := issuedCtx_frame x i
  rw [startedCtx, h]
  exact ⟨rfl, rfl, rfl⟩

/-- A context that has worked on no register. -/
theorem workedCtx_self (x : Ctx) (i : Instr) (sh : Shape) :
    workedCtx x i sh x.regs (startedCtx x i sh).lap = startedCtx x i sh := by
  unfold workedCtx
  rw [← startedCtx_regs x i sh]

/-- What the front sees of an instruction that has worked on its registers and its lap alone. -/
structure Worked (s t u : State) (i : Instr) (r : Regs) (l : Lap) : Prop where
  run : exec i s = .next u
  mem : u.mem = t.mem
  other : ∀ k, k ≠ s.turn → ctxAt u k = ctxAt t k
  queue : queueDone (me s) (ctxAt u s.turn)
  batons : batonsMoved (me s) (ctxAt u s.turn) i
  regs : (ctxAt u s.turn).regs = r
  lap : (ctxAt u s.turn).lap = l

theorem exec_worked {s : State} {i : Instr} {sh : Shape} {t : State} {r : Regs} {l : Lap} (hx : exec i s = issue i s)
    (h : vectorReady s i sh) (hb : batonsReady (me s) i) (ho : plainBatons (me s)) (hp : postsByBtn i = false)
    (hr : staysInRun i = false) (he : retireEffect i (startedState s i sh) s.turn (startedEntry (me s) i sh) = .done t 0)
    (ht : ctxAt t s.turn = workedCtx (me s) i sh r l)
    (hk : r.c = (me s).regs.c ∧ r.t = (me s).regs.t ∧ r.h = (me s).regs.h ∧ r.hb = (me s).regs.hb ∧ r.tag = (me s).regs.tag) :
    ∃ u, Worked s t u i r l := by
  have hplain := h.1
  obtain ⟨h1, h2, h3⟩ := startedCtx_streams_vq_vx hplain.2.2.2.1 i sh
  obtain ⟨u, hu, hret⟩ := exec_queued hx h hb hp hr he (by rw [ht]; exact h1) (by rw [ht]; exact h2) (by rw [ht]; exact h3)
  obtain ⟨q1, q2, q3, q4⟩ := leftCtx_workedCtx hplain.2.2.2.2.2.1 sh r l hb ho.2 hk
  have hown := hret.own
  rw [ht] at hown
  rw [← hown] at q1 q2 q3 q4
  exact ⟨u, hu, hret.mem, hret.other, q1, q2, q3, q4⟩

section
variable {s : State} {sh : Shape} {t : MNum} {b : XReg} {mk w q : Bool} {p : Nat → Place}

/-- MLD does its work: the mask holds the bits of the bytes at its active positions. -/
theorem retireEffect_mld (hsh : shapeOf (.mld t b mk w q) = some sh) (hmarks : (me s).marks = []) (hbuf : (me s).lap.buf = [])
    (hp : ∀ j, activeElem (me s) mk j → mayElement s .load ((((me s).x b).toNat + j / 8) % 2 ^ 64) 1 (p j)) :
    let i := Instr.mld t b mk w q
    ∃ u, retireEffect i (startedState s i sh) s.turn (startedEntry (me s) i sh) = .done u 0 ∧ u.mem = s.mem ∧
      (∀ k, k ≠ s.turn → ctxAt u k = ctxAt s k) ∧
      ctxAt u s.turn = maskWritten (startedCtx (me s) i sh) (startedEntry (me s) i sh) mk t.toNat
        (fun j => (readByte s.mem (p j).key).getLsbD (j % 8)) := by
  intro i
  cases hsh
  let S := startedState s i shapeNone
  let e := startedEntry (me s) i shapeNone
  let y := startedCtx (me s) i shapeNone
  have hy : y.regs = (me s).regs := startedCtx_regs _ _ _
  obtain ⟨lbuf, -, lmarks⟩ := startedCtx_lap_buf (me s) i shapeNone
  have hplain : loadsPlainly (ctxAt S s.turn) := by
    rw [ctxAt_startedState]
    exact ⟨lmarks.trans hmarks, lbuf.trans hbuf⟩
  let as := addresses y e mk (fun j => (e.sc0.toNat + j / 8) % 2 ^ 64)
  have has : ∀ a ∈ as, mayReach S s.turn .load a.2 1 (p a.1) := by
    intro a ha
    obtain ⟨j, hj, rfl⟩ := List.mem_map.mp ha
    exact mayReach_startedState (hp j ((mem_activeAt_started hy i shapeNone mk j).mp hj))
  obtain ⟨u, hu, um, uo, uc⟩ := loadElems_mask (c := s.turn) (d := t.toNat) (vl := e.vl) (e := e) rfl (firstOf e as) p s.mem as S
    (startedState_frame s i shapeNone).1 hplain has
  refine ⟨onCtx u s.turn (fun x => maskTail x e.vtype t.toNat e.vl), ?_, um, fun k hk => ?_, ?_⟩
  · show maskLoad t mk S s.turn e = _
    unfold maskLoad
    dsimp only
    rw [ctxAt_startedState]
    split
    case h_1 h => cases h.symm.trans hu; rfl
    all_goals next h => cases h.symm.trans hu
  · rw [ctxAt_onCtx, if_neg hk, uo k hk, ctxAt_startedState_other s i shapeNone hk]
  · rw [ctxAt_onCtx_same, uc, ctxAt_startedState]
    show maskTail (setMaskBits y t.toNat (as.map _)) e.vtype t.toNat e.vl = _
    rw [show as = (activeAt y e mk).map (fun j => (j, (e.sc0.toNat + j / 8) % 2 ^ 64)) from rfl, List.map_map]
    rfl

/-- MST does its work: the bits of its active positions are merged into their bytes. -/
theorem retireEffect_mst (hbuf : unbuffered (me s))
    (hp : ∀ j, activeElem (me s) mk j → mayElement s .store ((((me s).x b).toNat + j / 8) % 2 ^ 64) 1 (p j)) :
    let i := Instr.mst t b mk w q
    ∃ u, retireEffect i (startedState s i sh) s.turn (startedEntry (me s) i sh) = .done u 0 ∧
      (∀ k, ctxAt u k = ctxAt (startedState s i sh) k) ∧
      u.mem = mergedBits (fun j => (p j).key) (maskBitOf ((me s).m t.toNat))
        (activeAt (startedCtx (me s) i sh) (startedEntry (me s) i sh) mk) s.mem := by
  intro i
  let S := startedState s i sh
  let e := startedEntry (me s) i sh
  let y := startedCtx (me s) i sh
  have hy : y.regs = (me s).regs := startedCtx_regs _ _ _
  have hm : y.m t.toNat = (me s).m t.toNat := by simp only [Ctx.m, hy]
  obtain ⟨lbuf, lbuffering, -⟩ := startedCtx_lap_buf (me s) i sh
  have hplain : unbuffered (ctxAt S s.turn) := by
    rw [ctxAt_startedState]
    exact ⟨lbuffering.trans hbuf.1, lbuf.trans hbuf.2⟩
  let as := addresses y e mk (fun j => (e.sc0.toNat + j / 8) % 2 ^ 64)
  have has : ∀ a ∈ as, mayReach S s.turn .store a.2 1 (p a.1) := by
    intro a ha
    obtain ⟨j, hj, rfl⟩ := List.mem_map.mp ha
    exact mayReach_startedState (hp j ((mem_activeAt_started hy i sh mk j).mp hj))
  obtain ⟨u, hu, uc, um⟩ := storeElems_mask (c := s.turn) (e := e) ((me s).m t.toNat) p as S true hplain has
  refine ⟨u, ?_, uc, ?_⟩
  · show maskStore t mk S s.turn e = _
    unfold maskStore
    dsimp only
    rw [ctxAt_startedState]
    show storeElems S s.turn 1 e (fun j => [maskBitOf (y.m t.toNat) j]) true as = _
    rw [hm, hu]
  · rw [um, (startedState_frame s i sh).1]
    show mergedBits _ _ (as.map Prod.fst) _ = _
    rw [show as = (activeAt y e mk).map (fun j => (j, (e.sc0.toNat + j / 8) % 2 ^ 64)) from rfl, List.map_map]
    exact congrArg (fun l => mergedBits _ _ l s.mem) (List.map_id _)

end

/-- Settles O36: MLD writes a mask register as a function of its positions, MST merges bits of which no two share a place. -/
theorem masksMoveBitByBit : Obligations.MasksMoveBitByBit := by
  intro s i sh t b mk w q p hr hb ho hmarks hbuf hkeys hbytes x addr
  constructor
  · rintro rfl hp
    obtain ⟨v, hv, vm, vo, vc⟩ := retireEffect_mld hr.2.1 hmarks hbuf.2 hp
    let f (j : Nat) : Bool := (readByte s.mem (p j).key).getLsbD (j % 8)
    let y := startedCtx x (.mld t b mk w q) sh
    let e := startedEntry x (.mld t b mk w q) sh
    have hy : y.regs = x.regs := startedCtx_regs _ _ _
    have hmy (r : Nat) : y.m r = x.m r := by simp only [Ctx.m, hy]
    obtain ⟨m, hm, hother⟩ := onlyMask_maskWritten y e mk t.toNat f
    have hw : maskWritten y e mk t.toNat f = workedCtx x (.mld t b mk w q) sh { x.regs with m := m } y.lap := by
      rw [hm, hy]; rfl
    obtain ⟨u, hu⟩ := exec_worked rfl hr hb ho rfl rfl hv (vc.trans hw) ⟨rfl, rfl, rfl, rfl, rfl⟩
    have hmask (r : Nat) : (ctxAt u s.turn).m r = (maskWritten y e mk t.toNat f).m r := by
      simp only [Ctx.m, hu.regs, hm]
    refine ⟨u, hu.run, ⟨hu.mem.trans vm, fun k hk => (hu.other k hk).trans (vo k hk)⟩, hu.queue, hu.batons, ?_, ?_, ?_, ?_⟩
    · rw [hu.regs]
    · rw [hu.regs]
    · intro r hrt
      rw [hmask, hother r hrt, hmy]
    · intro k hk
      have hbit := bit_maskWritten y e mk t.toNat f k hk
      rw [hmask, hbit, hmy, hmy]
      refine ⟨fun ⟨h1, h2, h3⟩ => ?_, fun h1 h2 => ?_, fun h1 => ?_⟩
      · exact (if_pos h2).trans (if_pos ⟨h1, h3⟩)
      · exact (if_pos h1).trans (if_neg fun h3 => h2 ⟨h3.1, h1, h3.2⟩)
      · exact if_neg (Nat.not_lt.mpr h1)
  · rintro rfl hp
    obtain ⟨v, hv, vc, vm⟩ := retireEffect_mst (sh := sh) (t := t) (w := w) (q := q) hbuf hp
    let y := startedCtx x (.mst t b mk w q) sh
    let e := startedEntry x (.mst t b mk w q) sh
    have hy : y.regs = x.regs := startedCtx_regs _ _ _
    have hown : ctxAt v s.turn = workedCtx x (.mst t b mk w q) sh x.regs y.lap := by
      rw [vc, ctxAt_startedState, workedCtx_self]
    obtain ⟨u, hu⟩ := exec_worked rfl hr hb ho rfl rfl hv hown ⟨rfl, rfl, rfl, rfl, rfl⟩
    have hact (k : Nat) : k ∈ activeAt y e mk ↔ activeElem x mk k := mem_activeAt_started hy _ sh mk k
    refine ⟨u, hu.run, fun k hk => ?_, hu.queue, hu.batons, hu.regs, fun a ha => ?_, fun k hk _ => ?_⟩
    · rw [hu.other k hk, vc, ctxAt_startedState_other _ _ _ hk]
    · rw [hu.mem, vm, readByte_mergedBits_other]
      intro j hj
      have := ha j ((hact j).mp hj)
      omega
    · have hsame : ∀ j ∈ activeAt y e mk, (p j).key = (p k).key → j % 8 = k % 8 → j = k := by
        intro j _ hkey hmod
        have hplace : p j = p k := (hkeys j k).resolve_right fun h => h hkey
        have hdiv := (hbytes j k).mpr hplace
        omega
      rw [hu.mem, vm, getLsbD_mergedBits (key := fun j => (p j).key) (k := k) _ _ hsame]
      exact ite_congr (propext (hact k)) (fun _ => rfl) (fun _ => rfl)

end Sys2Proof.Machine
end

section
namespace Sys2Proof.Machine

set_option Elab.async false

open Sys2Proof.Safety

/-! # Vector registers element by element (R44, R45) -/

/-! ## Fields of one register -/

theorem regField_congr {u v : VReg} {lo w : Nat} (h : ∀ j, j < w → u.getLsbD (lo + j) = v.getLsbD (lo + j)) :
    regField u lo w = regField v lo w := by
  unfold regField
  congr 1
  refine BitVec.eq_of_getLsbD_eq fun j hj => ?_
  rw [BitVec.getLsbD_extractLsb', BitVec.getLsbD_extractLsb', h j hj]

theorem regField_setField_same (v : VReg) {lo w : Nat} (b : Nat) (h : lo + w ≤ 16384) :
    regField (setField v lo w b) lo w = b % 2 ^ w := by
  have he : (setField v lo w b).extractLsb' lo w = BitVec.ofNat w b := by
    refine BitVec.eq_of_getLsbD_eq fun j hj => ?_
    rw [BitVec.getLsbD_extractLsb', getLsbD_setField _ _ _ _ _ (by omega), if_pos (by omega), BitVec.getLsbD_ofNat,
      Nat.add_sub_cancel_left]
  rw [regField, he, BitVec.toNat_ofNat]

theorem regField_setField_other (v : VReg) {lo w lo' w' : Nat} (b : Nat) (h : lo' + w' ≤ 16384)
    (hd : lo + w ≤ lo' ∨ lo' + w' ≤ lo) : regField (setField v lo w b) lo' w' = regField v lo' w' :=
  regField_congr fun j hj => by rw [getLsbD_setField _ _ _ _ _ (by omega), if_neg (by omega)]

theorem regField_keepLow_low (v : VReg) {n lo w : Nat} (h : lo + w ≤ 16384) (hn : lo + w ≤ n) :
    regField (keepLow v n) lo w = regField v lo w :=
  regField_congr fun j hj => by
    rw [getLsbD_keepLow _ _ _ (by omega), decide_eq_true (by omega : lo + j < n), Bool.true_and]

theorem regField_keepLow_high (v : VReg) {n lo w : Nat} (h : lo + w ≤ 16384) (hn : n ≤ lo) : regField (keepLow v n) lo w = 0 := by
  have he : (keepLow v n).extractLsb' lo w = 0#w := by
    refine BitVec.eq_of_getLsbD_eq fun j hj => ?_
    rw [BitVec.getLsbD_extractLsb', getLsbD_keepLow _ _ _ (by omega), decide_eq_false (by omega : ¬ lo + j < n)]
    simp
  rw [regField, he]
  rfl

/-! ## The place of an element -/

/-- An element of a width that divides a register's stands in one register, apart from every other element there. -/
theorem elem_place {w : Nat} (hw : w ∣ 16384) (i : Nat) : i * w % 16384 + w ≤ 16384 := by
  obtain ⟨q, hq⟩ := hw
  have hq0 : 0 < q := Nat.pos_of_ne_zero fun h => by subst h; simp at hq
  rw [hq, Nat.mul_comm i w, Nat.mul_mod_mul_left]
  have := Nat.mod_lt i hq0
  calc w * (i % q) + w = w * (i % q + 1) := by ring
    _ ≤ w * q := Nat.mul_le_mul_left w (by omega)

theorem elem_apart {w i k : Nat} (h : i ≠ k) (hreg : i * w / 16384 = k * w / 16384) :
    i * w % 16384 + w ≤ k * w % 16384 ∨ k * w % 16384 + w ≤ i * w % 16384 := by
  have hi := Nat.div_add_mod (i * w) 16384
  have hk := Nat.div_add_mod (k * w) 16384
  rw [hreg] at hi
  rcases Nat.lt_or_gt_of_ne h with h | h
  · have : (i + 1) * w ≤ k * w := Nat.mul_le_mul_right w h
    rw [Nat.add_mul] at this
    omega
  · have : (k + 1) * w ≤ i * w := Nat.mul_le_mul_right w h
    rw [Nat.add_mul] at this
    omega

/-! ## Elements written -/

/-- A context of which only vector registers of a group of n from r on have changed. -/
def onlyVectors (x y : Ctx) (r n : Nat) : Prop :=
  ∃ v, y = { x with regs := { x.regs with v := v } } ∧ ∀ q, (q < r ∨ r + n ≤ q) → y.v q = x.v q

theorem onlyVectors_refl (x : Ctx) (r n : Nat) : onlyVectors x x r n := ⟨x.regs.v, rfl, fun _ _ => rfl⟩

theorem onlyVectors_setV {x y : Ctx} {r n q : Nat} (h : onlyVectors x y r n) (hq : r ≤ q ∧ q < r + n) (b : VReg) :
    onlyVectors x (y.setV q b) r n := by
  obtain ⟨v, rfl, hr⟩ := h
  exact ⟨_, rfl, fun k hk => by rw [v_setV, if_neg (by omega), hr k hk]⟩

theorem elem_setElem {w : Nat} (hw : w ∣ 16384) (x : Ctx) (r i b k : Nat) :
    elem (setElem x r w i b) r w k = if k = i then b % 2 ^ w else elem x r w k := by
  unfold elem setElem
  rw [v_setV]
  by_cases h : k = i
  · subst h
    rw [if_pos rfl, if_pos rfl, regField_setField_same _ _ (elem_place hw k)]
  · rw [if_neg h]
    split
    next hreg =>
      have hd : i * w / 16384 = k * w / 16384 := by omega
      rw [regField_setField_other _ _ (elem_place hw k) (elem_apart (Ne.symm h) hd), hd]
    next => rfl

/-- A function of the position written at the elements of a list. -/
theorem elem_setElems {w : Nat} (hw : w ∣ 16384) (r : Nat) (f : Nat → Nat) (l : List Nat) (x : Ctx) (k : Nat) :
    elem (setElems x r w (l.map (fun j => (j, f j)))) r w k = if k ∈ l then f k % 2 ^ w else elem x r w k := by
  induction l generalizing x with
  | nil => rfl
  | cons j l ih =>
    rw [List.map_cons, setElems, ih, elem_setElem hw]
    by_cases h : k ∈ l
    · simp [h]
    · by_cases hj : k = j <;> simp [h, hj]

theorem onlyVectors_setElems {w r n : Nat} (l : List (Nat × Nat)) {x y : Ctx} (h : onlyVectors x y r n)
    (hl : ∀ p ∈ l, p.1 * w < 16384 * n) : onlyVectors x (setElems y r w l) r n := by
  induction l generalizing y with
  | nil => exact h
  | cons p l ih =>
    refine ih (onlyVectors_setV h ⟨by omega, ?_⟩ _) fun q hq => hl q (List.mem_cons_of_mem _ hq)
    have := hl p List.mem_cons_self
    have : p.1 * w / 16384 < n := by omega
    omega

/-! ## The tail -/

theorem v_clearFrom (n : Nat) (x : Ctx) (r lo q : Nat) :
    (clearFrom x r lo n).v q = if r ≤ q ∧ q < r + n then keepLow (x.v q) (lo - 16384 * (q - r)) else x.v q := by
  induction n generalizing x r lo with
  | zero => rw [if_neg (by omega)]; rfl
  | succ n ih =>
    rw [clearFrom, ih, v_setV]
    by_cases h1 : r + 1 ≤ q ∧ q < r + 1 + n
    · rw [if_pos h1, if_neg (show ¬ q = r by omega), if_pos (show r ≤ q ∧ q < r + (n + 1) by omega)]
      exact congrArg (keepLow _) (by omega)
    · rw [if_neg h1]
      by_cases h2 : q = r
      · subst h2
        rw [if_pos rfl, if_pos (by omega), Nat.sub_self, Nat.mul_zero, Nat.sub_zero]
      · rw [if_neg h2, if_neg (by omega)]

theorem onlyVectors_clearFrom (n : Nat) {x y : Ctx} {r m q : Nat} (h : onlyVectors x y r m) (hq : r ≤ q ∧ q + n ≤ r + m)
    (lo : Nat) : onlyVectors x (clearFrom y q lo n) r m := by
  induction n generalizing y q lo with
  | zero => exact h
  | succ n ih => exact ih (onlyVectors_setV h (by omega) _) (by omega) _

/-- An element after the tail of its group, from element n on. -/
theorem elem_tailFrom {t : Tag} (hw : tagWidth t ∣ 16384) (x : Ctx) (vt : BitVec 17) (r n k : Nat)
    (hk : k * tagWidth t < 16384 * spanOf vt t) :
    elem (tailFrom x vt r t n) r (tagWidth t) k = if n ≤ k ∧ vtTail vt then 0 else elem x r (tagWidth t) k := by
  unfold tailFrom
  by_cases ht : vtTail vt = true
  · rw [if_pos ht]
    have hdiv := Nat.div_add_mod (k * tagWidth t) 16384
    have hplace := elem_place hw k
    unfold elem
    rw [v_clearFrom, if_pos ⟨by omega, by omega⟩, Nat.add_sub_cancel_left]
    by_cases hn : n ≤ k
    · have : n * tagWidth t ≤ k * tagWidth t := Nat.mul_le_mul_right _ hn
      rw [if_pos ⟨hn, ht⟩, regField_keepLow_high _ hplace (by omega)]
    · have : (k + 1) * tagWidth t ≤ n * tagWidth t := Nat.mul_le_mul_right _ (by omega)
      rw [Nat.add_mul] at this
      rw [if_neg fun h => hn h.1, regField_keepLow_low _ hplace (by omega)]
  · rw [if_neg ht, if_neg fun h => ht h.2]

theorem onlyVectors_tailFrom {x y : Ctx} {r n : Nat} {vt : BitVec 17} {t : Tag} (h : onlyVectors x y r (spanOf vt t)) :
    onlyVectors x (tailFrom y vt r t n) r (spanOf vt t) := by
  unfold tailFrom
  split
  · exact onlyVectors_clearFrom _ h ⟨Nat.le_refl _, Nat.le_refl _⟩ _
  · exact h

end Sys2Proof.Machine
end

section
namespace Sys2Proof.Machine

set_option Elab.async false

open Sys2Proof.Safety

/-! # The elements of VAMO (R185) -/

/-! ## Numbers in memory -/

theorem natBytes_length (n v : Nat) : (natBytes n v).length = n := by
  induction n generalizing v with
  | zero => rfl
  | succ n ih => rw [natBytes, List.length_cons, ih]

theorem bytesNat_natBytes (n v : Nat) : bytesNat (natBytes n v) = v % 2 ^ (8 * n) := by
  induction n generalizing v with
  | zero => simp [natBytes, bytesNat, Nat.mod_one]
  | succ n ih =>
    have hp : 2 ^ (8 * (n + 1)) = 256 * 2 ^ (8 * n) := by rw [Nat.mul_add, Nat.pow_add]; ring
    rw [natBytes, bytesNat, ih, BitVec.toNat_ofNat, hp, Nat.mod_mul]

theorem bytesNat_lt (bs : List Byte) : bytesNat bs < 2 ^ (8 * bs.length) := by
  induction bs with
  | nil => simp [bytesNat]
  | cons b bs ih =>
    have hb : b.toNat < 256 := b.isLt
    have hp : 2 ^ (8 * (bs.length + 1)) = 256 * 2 ^ (8 * bs.length) := by rw [Nat.mul_add, Nat.pow_add]; ring
    rw [bytesNat, List.length_cons, hp]
    omega

theorem readBytes_length (m : Memory) (a n : Nat) : (readBytes m a n).length = n := by
  induction n generalizing a with
  | zero => rfl
  | succ n ih => rw [readBytes, List.length_cons, ih]

theorem readNat_lt (m : Memory) (a n : Nat) : readNat m a n < 2 ^ (8 * n) := by
  have := bytesNat_lt (readBytes m a n)
  rwa [readBytes_length] at this

theorem readBytes_congr {m m' : Memory} {a n : Nat} (h : ∀ b, a ≤ b → b < a + n → readByte m' b = readByte m b) :
    readBytes m' a n = readBytes m a n := by
  induction n generalizing a with
  | zero => rfl
  | succ n ih =>
    rw [readBytes, readBytes, h a (Nat.le_refl _) (by omega), ih fun b h1 h2 => h b (by omega) (by omega)]

theorem readNat_congr {m m' : Memory} {a n : Nat} (h : ∀ b, a ≤ b → b < a + n → readByte m' b = readByte m b) :
    readNat m' a n = readNat m a n := congrArg bytesNat (readBytes_congr h)

/-- A number read back from where it was stored. -/
theorem readNat_writeBytes (m : Memory) (a n v : Nat) : readNat (writeBytes m a (natBytes n v)) a n = v % 2 ^ (8 * n) := by
  have h := readBytes_writeBytes m a (natBytes n v)
  rw [natBytes_length] at h
  rw [readNat, h, bytesNat_natBytes]

/-! ## One element after another -/

/-- An element of VAMO on clean memory: what was there, with the new bytes in its stead (R185). -/
theorem modifyBytes_element {s : State} {c va n : Nat} {p : Place} (hm : mayReach s c .atomic va n p) (hb : (ctxAt s c).lap.buf = [])
    (elem : Nat) (f : Nat → Nat) :
    ∃ t, modifyBytes s c elem (vectorAgent s c) va p n f = .done t (readNat s.mem p.key n) ∧ Accessed s t c ∧
      t.mem = writeBytes s.mem p.key (natBytes n (f (readNat s.mem p.key n))) := by
  obtain ⟨-, hs, hdev, hraw, -⟩ := hm
  obtain ⟨t, ht, ha, tm⟩ := takeBytes_element (elem := elem) (va := va) (n := n) hdev hraw hs hb
  obtain ⟨ha', um⟩ := storeAt_element t c (vectorAgent s c) va (natBytes n (f (readNat s.mem p.key n)))
    ((ha.sight.sectorState_eq p).trans hs)
  rw [tm] at um
  refine ⟨_, ?_, ha.trans ha', um⟩
  unfold modifyBytes
  rw [ht]
  rfl

/-- Two elements of n bytes that share none. -/
def disjointAt (n : Nat) (p : Nat → Place) (j k : Nat) : Prop := (p j).key + n ≤ (p k).key ∨ (p k).key + n ≤ (p j).key

theorem sameSight_setElem (s : State) (c r w i b : Nat) : SameSight s (onCtx s c (fun x => setElem x r w i b)) c := by
  rw [onCtx_eq]
  exact .of_setCtx rfl rfl rfl rfl rfl rfl

/-- The elements performed one after another on places that share no byte: each receives what stood at its place before. -/
theorem amoElems_disjoint {c n t : Nat} {op : Nat → Nat → Nat} {kind : Option (Nat → DomainKind)} {data : Nat → Nat}
    {p : Nat → Place} (l : List (Nat × Nat)) (s : State) (hb : (ctxAt s c).lap.buf = [])
    (hl : ∀ q ∈ l, mayReach s c .atomic q.2 n (p q.1)) (hd : l.Pairwise (fun a b => disjointAt n p a.1 b.1)) :
    ∃ u, amoElems s c n t op kind data l = .got u [] ∧ (∀ k, k ≠ c → ctxAt u k = ctxAt s k) ∧
      ctxAt u c = setElems (ctxAt s c) t (8 * n) (l.map (fun q => (q.1, readNat s.mem (p q.1).key n))) ∧
      (∀ a, (∀ q ∈ l, a < (p q.1).key ∨ (p q.1).key + n ≤ a) → readByte u.mem a = readByte s.mem a) ∧
      ∀ q ∈ l, readNat u.mem (p q.1).key n = op (readNat s.mem (p q.1).key n) (data q.1) % 2 ^ (8 * n) := by
  induction l generalizing s with
  | nil => exact ⟨s, rfl, fun _ _ => rfl, rfl, fun _ _ => rfl, fun q hq => absurd hq List.not_mem_nil⟩
  | cons q l ih =>
    obtain ⟨i, va⟩ := q
    rw [List.pairwise_cons] at hd
    have hi := hl (i, va) List.mem_cons_self
    let old := readNat s.mem (p i).key n
    obtain ⟨s1, h1, ha, m1⟩ := modifyBytes_element hi hb i (fun o => op o (data i))
    let s2 := onCtx s1 c (fun x => setElem x t (8 * n) i old)
    have hsight : SameSight s s2 c := ha.sight.trans (sameSight_setElem s1 c t (8 * n) i old)
    have hc : ctxAt s2 c = setElem (ctxAt s c) t (8 * n) i old := by rw [ctxAt_onCtx_same, ha.ctxs]
    have m2 : s2.mem = writeBytes s.mem (p i).key (natBytes n (op old (data i))) := m1
    have houtside (a : Nat) (h : a < (p i).key ∨ (p i).key + n ≤ a) : readByte s2.mem a = readByte s.mem a := by
      rw [m2, readByte_writeBytes_other _ _ _ _ (by rw [natBytes_length]; exact h)]
    have hothers (q : Nat × Nat) (hq : q ∈ l) : readNat s2.mem (p q.1).key n = readNat s.mem (p q.1).key n := by
      refine readNat_congr fun b h1 h2 => houtside b ?_
      rcases hd.1 q hq with h | h <;> dsimp only at h <;> omega
    obtain ⟨u, hu, uo, uc, ua, um⟩ := ih s2 (by rw [hc]; exact hb)
      (fun q hq => mayReach_sameSight hsight (hl q (List.mem_cons_of_mem _ hq))) hd.2
    refine ⟨u, ?_, fun k hk => ?_, ?_, fun a h => ?_, fun q hq => ?_⟩
    · have hok : reach s c (vectorAgent s c) .atomic va n n kind.isSome true = .ok (p i) :=
        reach_sameSight (.refl s c) (.inl rfl) hi.1
      unfold amoElems
      simp only [hok, h1]
      exact hu
    · rw [uo k hk, ctxAt_onCtx, if_neg hk, ha.ctxs]
    · rw [uc, hc, List.map_congr_left fun q hq => by rw [hothers q hq]]
      rfl
    · rw [ua a fun q hq => h q (List.mem_cons_of_mem _ hq), houtside a (h (i, va) List.mem_cons_self)]
    · rcases List.mem_cons.mp hq with rfl | hq
      · have hstay : readNat u.mem (p i).key n = readNat s2.mem (p i).key n := by
          refine readNat_congr fun b h1 h2 => ua b fun q hq => ?_
          rcases hd.1 q hq with h | h <;> dsimp only at h <;> omega
        rw [hstay, m2, readNat_writeBytes]
      · rw [um q hq, hothers q hq]

end Sys2Proof.Machine
end

section
namespace Sys2Proof.Machine

set_option Elab.async false

open Sys2Proof.Safety

/-! # VAMO (R149, R185) -/

/-! ## The order of the elements -/

theorem insertBy_perm (key : Nat → Nat) (p : Nat × Nat) (l : List (Nat × Nat)) : (insertBy key p l).Perm (p :: l) := by
  induction l with
  | nil => exact .refl _
  | cons q l ih =>
    unfold insertBy
    split
    · exact .refl _
    · exact (ih.cons q).trans (.swap p q l)

theorem sortBy_perm (key : Nat → Nat) (l : List (Nat × Nat)) : (sortBy key l).Perm l := by
  induction l with
  | nil => exact .refl _
  | cons p l ih => exact (insertBy_perm key p _).trans (ih.cons p)

theorem span_nodup (lo n : Nat) : (span lo n).Nodup := by
  induction n generalizing lo with
  | zero => exact List.nodup_nil
  | succ n ih =>
    refine List.nodup_cons.mpr ⟨fun h => ?_, ih (lo + 1)⟩
    have := (mem_span _ _ _).mp h
    omega

/-- Elements of which every one may perform meet no condition. -/
theorem amoReach_all {s : State} {c n : Nat} {e : VEntry} {remote : Bool} {p : Nat → Place} (l : List (Nat × Nat))
    (hl : ∀ q ∈ l, mayReach s c .atomic q.2 n (p q.1)) : amoReach s c n e remote l = (l, none) := by
  induction l with
  | nil => rfl
  | cons q l ih =>
    obtain ⟨i, va⟩ := q
    have hok : reach s c (vectorAgent s c) .atomic va n n remote (elemQuiet (ctxAt s c) i) = .ok (p i) :=
      reach_sameSight (.refl s c) (.inl rfl) (hl (i, va) List.mem_cons_self).1
    unfold amoReach
    rw [hok, ih fun q hq => hl q (List.mem_cons_of_mem _ hq)]

theorem sameSight_unrewindable (s : State) (c : Nat) : SameSight s (setCtx s c (unrewindable (ctxAt s c))) c :=
  .of_setCtx rfl rfl rfl rfl rfl rfl

/-! ## The instruction -/

/-- VAMO of a context with an empty buffer on places that share no byte: the lap is no longer rewindable, and the elements are
performed in some order. -/
theorem vectorAmo_disjoint {s : State} {c : Nat} {e : VEntry} {t ix : VNum} {mk : Bool} {op : Nat → Nat → Nat}
    {kind : Option (Nat → DomainKind)} {p : Nat → Place} (hb : (ctxAt s c).lap.buf = [])
    (hl : ∀ j ∈ activeAt (ctxAt s c) e mk, mayReach s c .atomic (indexedAddr (ctxAt s c) e ix j) (tagWidth e.td / 8) (p j))
    (hd : ∀ j ∈ activeAt (ctxAt s c) e mk, ∀ k ∈ activeAt (ctxAt s c) e mk, j ≠ k → disjointAt (tagWidth e.td / 8) p j k) :
    let x := ctxAt s c
    let n := tagWidth e.td / 8
    ∃ (u : State) (order : List Nat), vectorAmo t ix mk op kind s c e = .done u 0 ∧ (∀ j, j ∈ order ↔ j ∈ activeAt x e mk) ∧
      (∀ k, k ≠ c → ctxAt u k = ctxAt s k) ∧
      ctxAt u c = tailFrom (setElems (unrewindable x) t.toNat (8 * n) (order.map (fun j => (j, readNat s.mem (p j).key n))))
        e.vtype t.toNat e.td e.vl ∧
      (∀ a, (∀ j ∈ activeAt x e mk, a < (p j).key ∨ (p j).key + n ≤ a) → readByte u.mem a = readByte s.mem a) ∧
      ∀ j ∈ activeAt x e mk, readNat u.mem (p j).key n =
        op (readNat s.mem (p j).key n) (elem x t.toNat (tagWidth e.td) j) % 2 ^ (8 * n) := by
  intro x n
  let as := addresses x e mk (indexedAddr x e ix)
  let s' := setCtx s c (unrewindable x)
  have has : ∀ q ∈ as, mayReach s c .atomic q.2 n (p q.1) := by
    intro q hq
    obtain ⟨j, hj, rfl⟩ := List.mem_map.mp hq
    exact hl j hj
  have hgood : amoReach s c n e kind.isSome as = (as, none) := amoReach_all as has
  have hpair : as.Pairwise (fun a b => disjointAt n p a.1 b.1) := by
    refine List.pairwise_map.mpr ?_
    refine (List.Nodup.filter _ (span_nodup _ _)).pairwise_of_forall_ne fun j hj k hk hjk => hd j hj k hk hjk
  let ordered' := as.any (fun p => ordered s' c n p.2)
  let order := if ordered' then as else sortBy (Config.vamoKey s'.steps) as
  have hperm : order.Perm as := by
    unfold order
    split
    · exact .refl _
    · exact sortBy_perm _ _
  have hsight : SameSight s s' c := sameSight_unrewindable s c
  obtain ⟨u, hu, uo, uc, ua, um⟩ := amoElems_disjoint (t := t.toNat) (op := op) (kind := kind)
    (data := fun j => elem x t.toNat (tagWidth e.td) j) order s' (by rw [ctxAt_setCtx_same]; rfl)
    (fun q hq => mayReach_sameSight hsight (has q (hperm.mem_iff.mp hq)))
    (hperm.symm.pairwise hpair fun h => Or.symm h)
  have hmem (j : Nat) : j ∈ order.map Prod.fst ↔ j ∈ activeAt x e mk := by
    rw [(hperm.map Prod.fst).mem_iff]
    show j ∈ ((activeAt x e mk).map _).map Prod.fst ↔ _
    rw [List.map_map]
    exact iff_of_eq (congrArg (j ∈ ·) (List.map_id _))
  refine ⟨onCtx u c (fun x => tailFrom x e.vtype t.toNat e.td e.vl), order.map Prod.fst, ?_, hmem, fun k hk => ?_, ?_, fun a ha => ?_,
    fun j hj => ?_⟩
  · have hgood' : amoReach s c (tagWidth e.td / 8) e kind.isSome (addresses (ctxAt s c) e mk (indexedAddr (ctxAt s c) e ix)) =
        (as, none) := hgood
    unfold vectorAmo
    dsimp only
    rw [hgood']
    simp only [Option.isSome_none, Bool.and_false, Bool.false_eq_true, if_false, breakLap_empty hb]
    split
    case h_1 h => cases h.symm.trans hu; rfl
    all_goals next h => cases h.symm.trans hu
  · rw [ctxAt_onCtx, if_neg hk, uo k hk, ctxAt_setCtx, if_neg hk]
  · rw [ctxAt_onCtx_same, uc, ctxAt_setCtx_same, List.map_map]
    rfl
  · exact ua a fun q hq => ha q.1 ((hmem q.1).mp (List.mem_map_of_mem hq))
  · obtain ⟨q, hq, rfl⟩ := List.mem_map.mp ((hmem j).mpr hj)
    exact um q hq

/-! ## Its functions -/

/-- A number of n bytes under its sign. -/
theorem toInt_signExtended {n : Nat} (hn : n = 4 ∨ n = 8) {v : Nat} (hv : v < 2 ^ (8 * n)) :
    (signExtended n v).toInt = signed (8 * n) v := by
  unfold signExtended signed
  rw [Nat.mod_eq_of_lt hv, BitVec.toInt_ofInt, Int.bmod_def]
  rcases hn with rfl | rfl
  · norm_num at hv ⊢
    split <;> omega
  · norm_num at hv ⊢
    split <;> omega

theorem amoMinOp_eq {n : Nat} (hn : n = 4 ∨ n = 8) (sg : Bool) {o v : Nat} (ho : o < 2 ^ (8 * n)) (hv : v < 2 ^ (8 * n)) :
    amoMinOp n sg o v = if sg then signedLeast n o v else min o v := by
  unfold amoMinOp signedLeast
  rw [toInt_signExtended hn ho, toInt_signExtended hn hv]

theorem amoMaxOp_eq {n : Nat} (hn : n = 4 ∨ n = 8) (sg : Bool) {o v : Nat} (ho : o < 2 ^ (8 * n)) (hv : v < 2 ^ (8 * n)) :
    amoMaxOp n sg o v = if sg then signedGreatest n o v else max o v := by
  unfold amoMaxOp signedGreatest
  rw [toInt_signExtended hn ho, toInt_signExtended hn hv]

/-- A least or a greatest number is one of the two. -/
theorem amoMinOp_lt {n : Nat} {sg : Bool} {o v b : Nat} (ho : o < b) (hv : v < b) : amoMinOp n sg o v < b := by
  unfold amoMinOp
  split
  · split <;> assumption
  · omega

theorem amoMaxOp_lt {n : Nat} {sg : Bool} {o v b : Nat} (ho : o < b) (hv : v < b) : amoMaxOp n sg o v < b := by
  unfold amoMaxOp
  split
  · split <;> assumption
  · omega

/-- The address of an indexed element, in the context that has started the instruction (R183). -/
theorem indexedAddr_eq {x y : Ctx} (hy : y.regs = x.regs) {e : VEntry} {b : XReg} {ix : VNum} (h0 : e.sc0 = x.x b)
    (ht : e.tb = tagOf x ix) (j : Nat) : indexedAddr y e ix j = (x.x b + BitVec.ofInt 64 (intAt x ix j)).toNat := by
  have hi : (regSrc y ix e.tb).int j = intAt x ix j := by
    rw [← intOf_elem, ht]
    exact congrArg (intOf _) (elem_congr hy _ _ _)
  unfold indexedAddr
  rw [hi, h0, BitVec.ofInt_add]
  congr 2
  exact BitVec.eq_of_toNat_eq (by simp)

/-- What VAMO is by its rule: its operands, its addresses, its function on numbers of its width, and its way through the vector
queue. -/
structure IsAmo (x : Ctx) (i : Instr) (sh : Shape) (t ix : VNum) (mk : Bool) (addr : Nat → Nat) (f : Nat → Nat → Nat)
    (op : VEntry → Nat → Nat → Nat) (kind : Option (VEntry → Nat → DomainKind)) : Prop where
  shape : sh = shapeAmo t ix
  effect : retireEffect i = amoRun t ix mk op kind
  address : ∀ y : Ctx, y.regs = x.regs → ∀ j, indexedAddr y (startedEntry x i sh) ix j = addr j
  value : ∀ o v, o < 2 ^ (8 * (widthOf x t / 8)) → v < 2 ^ (8 * (widthOf x t / 8)) →
    op (startedEntry x i sh) o v % 2 ^ (8 * (widthOf x t / 8)) = f o v
  state : stateReg i = []
  queue : (∀ s, exec i s = issue i s) ∧ postsByBtn i = false ∧ staysInRun i = false

theorem isAmo_of_vamoRule {x : Ctx} {i : Instr} {sh : Shape} {t : VNum} {mk : Bool} {addr : Nat → Nat} {f : Nat → Nat → Nat}
    (hn : widthOf x t / 8 = 4 ∨ widthOf x t / 8 = 8)
    (hf : vamoRule (widthOf x t / 8) (isSigned (tagOf x t)) i = some f) (ha : vectorAddr x i = some (t, mk, addr))
    (hsh : shapeOf i = some sh) : ∃ ix op kind, IsAmo x i sh t ix mk addr f op kind := by
  unfold vamoRule at hf
  split at hf
  case h_8 => cases hf
  all_goals
    cases hf
    cases ha
    cases hsh
    refine ⟨_, _, _, rfl, rfl, fun y hy j => indexedAddr_eq hy rfl rfl j, fun o v ho hv => ?_, rfl, fun _ => rfl, rfl, rfl⟩
  case h_1 => exact Nat.mod_mod _ _
  case h_2 => exact Nat.mod_eq_of_lt (Nat.and_lt_two_pow o hv)
  case h_3 => exact Nat.mod_eq_of_lt (Nat.or_lt_two_pow ho hv)
  case h_4 => exact Nat.mod_eq_of_lt (Nat.xor_lt_two_pow ho hv)
  case h_5 =>
    refine (Nat.mod_eq_of_lt ?_).trans (amoMinOp_eq hn _ ho hv)
    exact amoMinOp_lt ho hv
  case h_6 =>
    refine (Nat.mod_eq_of_lt ?_).trans (amoMaxOp_eq hn _ ho hv)
    exact amoMaxOp_lt ho hv
  case h_7 => exact Nat.mod_eq_of_lt hv

/-! ## The elements that the context has -/

/-- The tags of VAMO (R185). -/
theorem width_of_okAmo {d a b : Tag} (h : okAmo d a b = true) : tagWidth d = 32 ∨ tagWidth d = 64 := by
  unfold okAmo at h
  simp only [Bool.and_eq_true, decide_eq_true_eq] at h
  obtain ⟨⟨h4, h7⟩, -⟩ := h
  interval_cases d
  · exact .inl rfl
  · exact .inl rfl
  · exact .inr rfl
  · exact .inr rfl

/-- The elements below VLMAX lie in the registers of their group (R24, R42). -/
theorem elem_in_span {x : Ctx} (hv : vlBounded x) {t : Tag} {m : Nat} (hw : tagWidth t = 2 ^ m) {k : Nat} (hk : k < x.vl) :
    k * tagWidth t < 16384 * spanOf x.csr.vtype t := by
  have hmax : k + 1 ≤ vtG x.csr.vtype * 16384 / vtRef x.csr.vtype := by
    have h1 : vlmaxOf x.csr.vtype 8 = min 16384 (vtG x.csr.vtype * 16384 / vtRef x.csr.vtype) :=
      Nat.mul_div_cancel _ (by omega)
    have h2 : x.vl ≤ vlmaxOf x.csr.vtype 8 := hv
    rw [h1] at h2
    exact (Nat.succ_le_of_lt hk).trans (h2.trans (Nat.min_le_right _ _))
  have href : vtRef x.csr.vtype = 2 ^ (2 + vtRefCode x.csr.vtype) := by unfold vtRef; rw [Nat.pow_add]
  have hg : vtG x.csr.vtype = 2 ^ (x.csr.vtype.toNat % 4) := rfl
  unfold spanOf
  rw [href, hg] at hmax ⊢
  rw [hw]
  generalize vtRefCode x.csr.vtype = r at hmax ⊢
  generalize x.csr.vtype.toNat % 4 = g at hmax ⊢
  have hmul : (k + 1) * 2 ^ (2 + r) ≤ 2 ^ g * 16384 := by
    calc (k + 1) * 2 ^ (2 + r) ≤ 2 ^ g * 16384 / 2 ^ (2 + r) * 2 ^ (2 + r) := Nat.mul_le_mul_right (2 ^ (2 + r)) hmax
      _ ≤ 2 ^ g * 16384 := Nat.div_mul_le_self (2 ^ g * 16384) (2 ^ (2 + r))
  have hmulw : (k + 1) * 2 ^ m * 2 ^ (2 + r) ≤ 16384 * (2 ^ g * 2 ^ m) := by
    calc (k + 1) * 2 ^ m * 2 ^ (2 + r) = (k + 1) * 2 ^ (2 + r) * 2 ^ m := by ring
      _ ≤ 2 ^ g * 16384 * 2 ^ m := Nat.mul_le_mul_right (2 ^ m) hmul
      _ = 16384 * (2 ^ g * 2 ^ m) := by ring
  have hpos : 0 < 2 ^ (2 + r) := Nat.two_pow_pos _
  have hle : (k + 1) * 2 ^ m ≤ 16384 * max 1 (2 ^ g * 2 ^ m / 2 ^ (2 + r)) := by
    rcases Nat.le_total (2 + r) (g + m) with h | h
    · have hd : 2 ^ (2 + r) ∣ 2 ^ g * 2 ^ m := by rw [← Nat.pow_add]; exact Nat.pow_dvd_pow 2 h
      obtain ⟨q, hq⟩ := hd
      rw [hq, Nat.mul_div_cancel_left q hpos]
      rw [hq] at hmulw
      have : (k + 1) * 2 ^ m ≤ 16384 * q := by
        refine Nat.le_of_mul_le_mul_right ?_ hpos
        calc _ ≤ 16384 * (2 ^ (2 + r) * q) := hmulw
          _ = 16384 * q * 2 ^ (2 + r) := by ring
      exact this.trans (Nat.mul_le_mul_left _ (Nat.le_max_right _ _))
    · have hd : 2 ^ g * 2 ^ m ≤ 2 ^ (2 + r) := by rw [← Nat.pow_add]; exact Nat.pow_le_pow_right (by omega) h
      have : (k + 1) * 2 ^ m ≤ 16384 * 1 := by
        refine Nat.le_of_mul_le_mul_right ?_ hpos
        calc _ ≤ 16384 * (2 ^ g * 2 ^ m) := hmulw
          _ ≤ 16384 * 2 ^ (2 + r) := Nat.mul_le_mul_left _ hd
      exact this.trans (Nat.mul_le_mul_left _ (Nat.le_max_left _ _))
  have hw0 : 0 < 2 ^ m := Nat.two_pow_pos _
  rw [Nat.add_mul] at hle
  omega

end Sys2Proof.Machine
end

section
namespace Sys2Proof.Machine

set_option Elab.async false

open Sys2Proof.Safety

/-! # VAMO between issue and retirement (R185, R191) -/

theorem bitsAt_eq (x : Ctx) (r : VNum) (k : Nat) : bitsAt x r k = elem x r.toNat (widthOf x r) k := rfl

/-- What VAMO leaves in the registers of its context. -/
def amoCtx (y : Ctx) (e : VEntry) (t : Nat) (old : Nat → Nat) (order : List Nat) : Ctx :=
  tailFrom (setElems (unrewindable y) t (tagWidth e.td) (order.map (fun j => (j, old j)))) e.vtype t e.td e.vl

section
variable {x : Ctx} {i : Instr} {t ix : VNum}

/-- The group of the destination is all that VAMO writes. -/
theorem writesV_amo (hsh : shapeOf i = some (shapeAmo t ix)) (hs : stateReg i = []) (r : Nat) :
    r ∈ (entryOf x i (shapeAmo t ix)).writesV ↔ t.toNat ≤ r ∧ r < t.toNat + spanOf x.csr.vtype (tagOf x t) := by
  have hi : (entryOf x i (shapeAmo t ix)).instr = i := rfl
  unfold VEntry.writesV
  rw [hi, hsh, hs]
  dsimp only
  rw [List.append_nil]
  exact mem_span _ _ _

/-- The registers after VAMO: the destination's group alone has changed, and the lap is no longer rewindable. -/
theorem amoCtx_frame {order : List Nat}
    (ho : ∀ j ∈ order, j * tagWidth (tagOf x t) < 16384 * spanOf x.csr.vtype (tagOf x t)) (old : Nat → Nat) :
    ∃ v, amoCtx (startedCtx x i (shapeAmo t ix)) (startedEntry x i (shapeAmo t ix)) t.toNat old order =
        workedCtx x i (shapeAmo t ix) { x.regs with v := v } (unrewindable (startedCtx x i (shapeAmo t ix))).lap ∧
      ∀ r, ¬ (t.toNat ≤ r ∧ r < t.toNat + spanOf x.csr.vtype (tagOf x t)) →
        (amoCtx (startedCtx x i (shapeAmo t ix)) (startedEntry x i (shapeAmo t ix)) t.toNat old order).v r = x.v r := by
  have hy : (startedCtx x i (shapeAmo t ix)).regs = x.regs := startedCtx_regs _ _ _
  obtain ⟨v, hv, hr⟩ := onlyVectors_tailFrom (n := x.vl) (onlyVectors_setElems (order.map (fun j => (j, old j)))
    (onlyVectors_refl (unrewindable (startedCtx x i (shapeAmo t ix))) t.toNat (spanOf x.csr.vtype (tagOf x t)))
    (w := tagWidth (tagOf x t)) fun p hp => by obtain ⟨j, hj, rfl⟩ := List.mem_map.mp hp; exact ho j hj)
  refine ⟨v, ?_, fun r hout => ?_⟩
  · refine hv.trans ?_
    show ({ startedCtx x i (shapeAmo t ix) with
      lap := (unrewindable (startedCtx x i (shapeAmo t ix))).lap
      regs := { (startedCtx x i (shapeAmo t ix)).regs with v := v } } : Ctx) = _
    rw [hy]
    rfl
  · refine (hr r (by omega)).trans ?_
    show (startedCtx x i (shapeAmo t ix)).v r = x.v r
    simp only [Ctx.v, hy]

/-- Its elements: the old values in the order's, zero or the old bits in the tail, and the old bits elsewhere. -/
theorem elem_amoCtx (hw : tagWidth (tagOf x t) ∣ 16384) (order : List Nat) (old : Nat → Nat) {k : Nat}
    (hk : k * tagWidth (tagOf x t) < 16384 * spanOf x.csr.vtype (tagOf x t)) :
    elem (amoCtx (startedCtx x i (shapeAmo t ix)) (startedEntry x i (shapeAmo t ix)) t.toNat old order) t.toNat
        (tagWidth (tagOf x t)) k =
      if x.vl ≤ k ∧ vtTail x.csr.vtype then 0
      else if k ∈ order then old k % 2 ^ tagWidth (tagOf x t) else bitsAt x t k := by
  have hy : (startedCtx x i (shapeAmo t ix)).regs = x.regs := startedCtx_regs _ _ _
  refine (elem_tailFrom (t := tagOf x t) hw _ _ _ _ _ hk).trans ?_
  refine ite_congr rfl (fun _ => rfl) fun _ => ?_
  refine (elem_setElems hw _ old order _ k).trans ?_
  refine ite_congr rfl (fun _ => rfl) fun _ => ?_
  exact elem_congr (x := x) hy _ _ _

end

/-- The tags that VAMO lets its destination have make it 4 or 8 bytes wide (R25, R185). -/
theorem width_of_amo {x : Ctx} {i : Instr} {sh : Shape} {t : VNum} {mk : Bool} {addr : Nat → Nat} {f : Nat → Nat → Nat} {n : Nat}
    {sg : Bool} (hf : vamoRule n sg i = some f) (ha : vectorAddr x i = some (t, mk, addr)) (hsh : shapeOf i = some sh)
    (hty : sh.typeOk x x.csr.vtype (tagOr x sh.d) (tagOr x sh.a) (tagOr x sh.b) = true) : widthOf x t = 32 ∨ widthOf x t = 64 := by
  have hshape : ∃ ix, sh = shapeAmo t ix := by
    unfold vamoRule at hf
    split at hf
    case h_8 => cases hf
    all_goals
      cases ha
      cases hsh
      exact ⟨_, rfl⟩
  obtain ⟨ix, rfl⟩ := hshape
  exact width_of_okAmo (a := 0) (Bool.and_eq_true_iff.mp hty).2

/-- Settles O35: the instruction reads and writes places that share no byte, so that the order of its elements does not matter. -/
theorem vectorAtomicsReadModifyAndWrite : Obligations.VectorAtomicsReadModifyAndWrite := by
  intro s i sh t mk addr f p n hf hr hv hb ho hbuf ha hp hd
  let x := me s
  have hplain := hr.1
  have hsh := hr.2.1
  have hty := hr.2.2.2.1
  have hw : widthOf x t = 32 ∨ widthOf x t = 64 := width_of_amo hf ha hsh hty
  have hn : widthOf x t / 8 = 4 ∨ widthOf x t / 8 = 8 := by omega
  have hn8 : 8 * (widthOf x t / 8) = widthOf x t := by omega
  have hdvd : widthOf x t ∣ 16384 := by rcases hw with h | h <;> rw [h] <;> decide
  obtain ⟨ix, op, kind, amo⟩ := isAmo_of_vamoRule hn hf ha hsh
  obtain rfl := amo.shape
  let S := startedState s i (shapeAmo t ix)
  let e := startedEntry x i (shapeAmo t ix)
  let y := startedCtx x i (shapeAmo t ix)
  have hy : y.regs = x.regs := startedCtx_regs _ _ _
  have hact (j : Nat) : j ∈ activeAt y e mk ↔ activeElem x mk j := mem_activeAt_started hy i _ mk j
  have hS : ctxAt S s.turn = y := ctxAt_startedState _ _ _
  have hSmem : S.mem = s.mem := (startedState_frame _ _ _).1
  obtain ⟨lbuf, -, -⟩ := startedCtx_lap_buf x i (shapeAmo t ix)
  obtain ⟨v, order, hv', hmem, vo, vc, va, vm⟩ := vectorAmo_disjoint (s := S) (c := s.turn) (e := e) (t := t) (ix := ix) (mk := mk)
    (op := op e) (kind := kind.map (fun k => k e)) (p := p) (by rw [hS]; exact lbuf.trans hbuf.2)
    (fun j hj => by
      rw [hS] at hj ⊢
      rw [amo.address y hy]
      exact mayReach_startedState (hp j ((hact j).mp hj)).1)
    (fun j hj k hk hjk => by
      rw [hS] at hj hk
      exact hd j k ((hact j).mp hj) ((hact k).mp hk) hjk)
  rw [hS] at hmem vc va vm
  rw [hSmem] at vc va vm
  let old (j : Nat) : Nat := readNat s.mem (p j).key n
  have hspan (j : Nat) (hj : j < x.vl) : j * widthOf x t < 16384 * spanOf x.csr.vtype (tagOf x t) := by
    rcases hw with h | h
    · exact elem_in_span hv (m := 5) h hj
    · exact elem_in_span hv (m := 6) h hj
  have hamo : ctxAt v s.turn = amoCtx y e t.toNat old order := by
    rw [vc, show 8 * (tagWidth e.td / 8) = tagWidth e.td from hn8]
    rfl
  obtain ⟨g, hg, hrest⟩ := amoCtx_frame (i := i) (ix := ix) (old := old) (order := order)
    fun j hj => hspan j ((hact j).mp ((hmem j).mp hj)).2.1
  have heff : retireEffect i S s.turn e = .done v 0 := by rw [amo.effect]; exact hv'
  obtain ⟨hx, hbtn, hrun⟩ := amo.queue
  obtain ⟨u, hu⟩ := exec_worked (hx s) hr hb ho hbtn hrun heff (hamo.trans hg) ⟨rfl, rfl, rfl, rfl, rfl⟩
  have hregs (r : Nat) : (ctxAt u s.turn).v r = (amoCtx y e t.toNat old order).v r := by
    simp only [Ctx.v, hu.regs]
    rw [hg]
    rfl
  have helem (k : Nat) (hk : k * widthOf x t < 16384 * spanOf x.csr.vtype (tagOf x t)) : bitsAt (ctxAt u s.turn) t k =
      if x.vl ≤ k ∧ vtTail x.csr.vtype then 0 else if k ∈ order then old k % 2 ^ widthOf x t else bitsAt x t k := by
    have htag : widthOf (ctxAt u s.turn) t = widthOf x t := by
      simp only [widthOf, tagOf, Ctx.tag, hu.regs]
    rw [bitsAt_eq, htag, elem, hregs]
    exact elem_amoCtx hdvd order old hk
  have hord (k : Nat) : k ∈ order ↔ activeElem x mk k := (hmem k).trans (hact k)
  refine ⟨u, hu.run, fun k hk => ?_, hu.queue, hu.batons, ?_, ?_, ?_, fun a h => ?_, fun r h => ?_, fun k hk => ?_, fun k hk hsp => ?_⟩
  · rw [hu.other k hk, vo k hk, ctxAt_startedState_other _ _ _ hk]
  · rw [hu.regs]
  · rw [hu.regs]
  · rw [hu.lap]; rfl
  · rw [hu.mem]
    exact va a fun j hj => h j ((hact j).mp hj)
  · rw [hregs]
    exact hrest r fun hin => h ((writesV_amo hsh amo.state r).mpr hin)
  · have hk' : bitsAt (ctxAt u s.turn) t k = if k ∈ order then old k % 2 ^ widthOf x t else bitsAt x t k :=
      (helem k (hspan k hk)).trans (if_neg fun h => absurd hk (Nat.not_lt.mpr h.1))
    split
    next h =>
      have hin : k ∈ order := (hord k).mpr ⟨h.1, hk, h.2⟩
      have hlt : old k < 2 ^ widthOf x t := by
        rw [← hn8]
        exact readNat_lt _ _ _
      refine ⟨?_, ?_⟩
      · rw [hk', if_pos hin, Nat.mod_eq_of_lt hlt]
      · have hbits : elem y t.toNat (tagWidth e.td) k = bitsAt x t k := elem_congr hy _ _ _
        rw [hu.mem]
        refine (vm k ((hmem k).mp hin)).trans ?_
        rw [hbits]
        exact amo.value _ _ (readNat_lt _ _ _) (by rw [hn8]; exact elem_lt _ _ _ _)
    next h =>
      have hout : k ∉ order := fun hin => h ⟨((hord k).mp hin).1, ((hord k).mp hin).2.2⟩
      rw [hk', if_neg hout]
  · have hout : k ∉ order := fun hin => absurd ((hord k).mp hin).2.1 (Nat.not_lt.mpr hk)
    rw [helem k hsp, if_neg hout]
    by_cases ht : vtTail x.csr.vtype = true
    · rw [if_pos ⟨hk, ht⟩]
      exact (if_pos ht).symm
    · rw [if_neg fun h => ht h.2]
      exact (if_neg ht).symm

end Sys2Proof.Machine
end

section
namespace Sys2Proof.Machine

set_option Elab.async false

open Sys2Proof.Safety

/-! # A saved lap that no context takes back (R90, R260)

The restore clause of O51 asks of a saved lap either that it has yielded and its launch goes on, or that its launch is the only one of
the cluster's die, goes on there, and has no pool. The second case does not say that the lap was preempted, nor that it was saved on that
die. A yielded lap with the number of a context of another die belongs to a launch of that die (`launchOf`): when that one has
stopped, the scheduler passes the lap over among the yielded laps, and a yielded lap is none of the preempted ones of its launch. -/

/-- A launch whose count has still to be learnt: it has no lap to dispatch. -/
def waitingLaunch (stopped : Option Nat) : Launch :=
  { header := [], legs := [], indirect := false, part := 0, asid := 0, secure := false, admitted := 0, promise := 0, clusters := []
    ready := false, count := 0, clamp := false, raw := 0, cut := 0, retired := 0, lost := 0, killed := 0, work := 0, near := 0, far := 0
    recov := 0, overran := 0, stopped := stopped, round := 0, roundOn := false, restop := false, bound := [], versions := []
    preempted := [], byHw := false }

/-- Cluster 0 of die 0 keeps a yielded lap under a number of context 1,024, which is of die 1, whose launch 5 has stopped. -/
def strayLap : State :=
  { State.reset with
    signal := .clu 0 0
    ctxs := [(5120, { Ctx.reset with occ := .saved, work := { Work.none with launch := 5 } })]
    clus := [(0, { Cluster.reset with saved := [{ num := 5120, yielded := true }] })]
    dies := [(0, { Die.reset with launches := [(5, waitingLaunch none)] }), (1, { Die.reset with launches := [(5, waitingLaunch (some 2))] })] }

/-- The cluster has free contexts, but no lap for them. -/
theorem nextCand_strayLap : nextCand strayLap 0 = none := by decide

/-- Nothing is restored. -/
theorem exec_contextRestore_strayLap : exec .contextRestore strayLap = .next strayLap := by
  show (match freeContexts strayLap 0, nextCand strayLap 0 with
    | c :: _, some (.saved i) => Host.Outcome.next (giveCand strayLap c (.saved i))
    | _, _ => .next strayLap) = _
  rw [nextCand_strayLap]
  split
  next h => cases h
  next => rfl

/-- Refutes O51 at its restore clause: the saved lap of `strayLap` meets the clause's second case, with launch 5 of die 0, and CONTEXT_RESTORE
leaves it where it is. -/
theorem not_lapsAreDispatchedSavedAndRestored : ¬ Obligations.LapsAreDispatchedSavedAndRestored := by
  rintro ⟨-, -, -, hrestore, -⟩
  obtain ⟨t, ht, hsaved, -⟩ := hrestore strayLap 0 0 { num := 5120, yielded := true } rfl ⟨rfl, rfl, rfl⟩ rfl (by decide) rfl (by decide)
    rfl rfl (by decide) (.inr ⟨5, waitingLaunch none, rfl, rfl, rfl, rfl, rfl⟩)
  rw [exec_contextRestore_strayLap] at ht
  cases ht
  exact absurd hsaved (by decide)

end Sys2Proof.Machine
end
